-- ==== Sys2Proof/Word.lean ====
section
/-! DEFINITION. The word and byte types, and their plainest arithmetic. -/

namespace Sys2Proof

/-- The 32 data bits of a register (03 R68). -/
abbrev Word := BitVec 32

/-- A byte of memory. -/
abbrev Byte := BitVec 8

/-- bits(x, hi, lo) of 05 R120, for an unbounded x. -/
def bitsOf (x hi lo : Nat) : Nat := x / 2 ^ lo % 2 ^ (hi + 1 - lo)

/-- Quotient rounded up, for n above 0. -/
def ceilDiv (a n : Nat) : Nat := (a + n - 1) / n

end Sys2Proof
end

