-- ==== Sys2Proof/Syntax.lean ====
section
/-! DEFINITION. The instructions of the Rahar set (05 R117, R138, R184, R210, R247) and the device's own
indivisible steps (95_what_each_step_holds.md), one constructor for each row of the opcode table. -/

namespace Sys2Proof

/-- A register name v0 to v127 of the thread's window (03 R68). -/
abbrev Reg := Fin 128

/-- A lane pattern (05 R113): the lane L' that a reading thread in lane L reads. -/
inductive Pat where
  /-- Code 0: the thread's own lane. -/
  | own
  /-- Code 1: (L + x) mod 32. -/
  | rot (x : Fin 32)
  /-- Code 2: lane x. -/
  | bc (x : Fin 32)
  /-- Code 3: L xor x. -/
  | xr (x : Fin 32)
  /-- Code 4: 31 - L. -/
  | mir
  /-- Code 5: L xor (2^x - 1); x is 1 to 5. -/
  | mw (x : Fin 32)
  /-- Code 6: L - x, no lane if negative; x is 1 to 31. -/
  | shu (x : Fin 32)
  /-- Code 7: L + x, no lane if above 31; x is 1 to 31. -/
  | shd (x : Fin 32)
  deriving DecidableEq, Repr

/-- The three fields of a lane-pattern prefix (05 R113). -/
structure Pats where
  a : Pat
  b : Pat
  d : Pat
  deriving DecidableEq, Repr

/-- The immediate of an I-format instruction (05 R112): imm11 alone, or the 32-bit value of an immediate prefix. -/
inductive Imm where
  | short (i : BitVec 11)
  | long (v : BitVec 32)
  deriving DecidableEq, Repr

/-- OFF of an I-format access whose low field has k = 3 bits (09 R208). -/
inductive Off8 where
  | short (o : BitVec 8)
  | long (o : BitVec 29)
  deriving DecidableEq, Repr

/-- OFF of an I-format access whose low field has k = 5 bits (09 R208). -/
inductive Off6 where
  | short (o : BitVec 6)
  | long (o : BitVec 27)
  deriving DecidableEq, Repr

/-- Field b of a c-space access (09 R212): a literal selector with an offset in units of 16, or a register v0 to v63. -/
inductive CSel where
  | lit (sel : Fin 8) (off : Fin 8)
  | reg (v : Fin 64)
  deriving DecidableEq, Repr

/-- The .s32 and .n32 forms of the integer instructions (07 R138). -/
inductive Ty where
  | s32
  | n32
  deriving DecidableEq, Repr

/-- CMP conditions (07 R148). -/
inductive Cc where
  | eq
  | ne
  | ltS
  | leS
  | gtS
  | geS
  | ltN
  | leN
  | gtN
  | geN
  deriving DecidableEq, Repr

/-- Rounding codes (03 R81). -/
inductive Rnd where
  | rn
  | rz
  | ru
  | rd
  | rdi
  deriving DecidableEq, Repr

/-- FCMP conditions (08 R187). -/
inductive FCc where
  | eq
  | ne
  | lt
  | le
  | gt
  | ge
  | un
  | ord
  deriving DecidableEq, Repr

/-- FMT of the packed instructions and of the 16-bit pack forms (08 R190, R194). -/
inductive Half where
  | f16
  | bf16
  deriving DecidableEq, Repr

/-- Narrow format codes of opcode 0x34 (08 R191). -/
inductive NFmt where
  | f16
  | bf16
  | e4
  | e5
  | e3
  | e2
  | f4
  | sc
  deriving DecidableEq, Repr

/-- Integer formats of opcodes 0x35 and 0x36 (08 R192, R193). -/
inductive IFmt where
  | s32
  | n32
  | i8
  | i4
  deriving DecidableEq, Repr

/-- The two FP8 formats of the pack forms (08 R194). -/
inductive E8 where
  | e4
  | e5
  deriving DecidableEq, Repr

/-- TYPE of the cross-lane arithmetic instructions (08 R184). -/
inductive XTy where
  | s32
  | n32
  | f32
  | f16
  | bf16
  deriving DecidableEq, Repr

/-- OP of SCAN (08 R183). -/
inductive ScanOp where
  | add
  | min
  | max
  deriving DecidableEq, Repr

/-- VOTE forms (08 R199). -/
inductive Vote where
  | any
  | all
  | ballot
  | uni
  deriving DecidableEq, Repr

/-- SIZE codes (09 R211). -/
inductive Size where
  | b8
  | b16
  | b32
  | b64
  | b128
  deriving DecidableEq, Repr

/-- TYPE codes of typed loads (09 R211). -/
inductive LdTy where
  | s8
  | s16
  | s32
  | n8
  | n16
  | n32
  | s64
  | n64
  | f32
  | f16
  | bf16
  | e4
  | e5
  | e3
  | e2
  | f4
  | i8
  | i4
  | sc
  deriving DecidableEq, Repr

/-- ATOM operations (09 R216). -/
inductive AtomOp where
  | add32
  | and32
  | or32
  | xor32
  | exch32
  | cas32
  | minS32
  | minN32
  | maxS32
  | maxN32
  | add64
  | or64
  | exch64
  | cas64
  | minN64
  | maxN64
  deriving DecidableEq, Repr

/-- MODE of MEETINIT (09 R229). -/
inductive MeetMode where
  | count
  | reconv
  | bytes
  | sign
  deriving DecidableEq, Repr

/-- Format tags (03 R73); 0xF is reserved and has no constructor. -/
inductive Tag where
  | raw
  | s32
  | n32
  | f32
  | h2
  | b2
  | e4x4
  | e5x4
  | f6x5
  | g6x5
  | f4x8
  | s8x4
  | s4x8
  | s10x3
  | w64
  deriving DecidableEq, Repr

/-- BLK of CAM (10 R270). -/
inductive Blk where
  | cam
  | dice
  | rast
  deriving DecidableEq, Repr

/-- KIND of PREFETCH (09 R228). -/
inductive PfKind where
  | l1
  | llc
  | repl
  deriving DecidableEq, Repr

/-- Grain modes (03 R88). -/
inductive GMode where
  | g1
  | g15
  deriving DecidableEq, Repr

/-- IMODE of MZERO and the mode of an accumulator slot (10 R256). -/
inductive IMode where
  | f32
  | s32
  deriving DecidableEq, Repr

/-- Scopes of TLBINV (07 R178). -/
inductive Scope where
  | page
  | space
  deriving DecidableEq, Repr

/-- Selectors of SREG (03 R72). -/
inductive Sreg where
  | tid
  | lane
  | part
  | core
  | gcore
  | cluster
  | die
  | ctx
  | frame
  | seq
  | grid
  | lgroup
  | launch
  | alloc
  | winbase
  | phase
  | winstat
  | time
  | mode
  | spawnctl
  | framearea
  | framelim
  | trapcode
  | trappc
  | trapaddr
  | trapinst
  deriving DecidableEq, Repr

/-- Selectors SSET writes (07 R175). -/
inductive Sset where
  | spawnctl
  | framearea
  | framelim
  | trappc
  deriving DecidableEq, Repr

/-- An access that another chip makes over Causeway (20 R399, R400), at an offset that is a physical address of this chip. -/
inductive RemoteOp where
  | read (off : Nat) (n : Nat)
  | write (off : Nat) (bytes : List (BitVec 8))
  | atomic (off : Nat) (op : AtomOp) (b : BitVec 64) (cmp : BitVec 64)
  deriving DecidableEq, Repr

/-- What a standby chip receives from the active chip (20 R405): a packet taken, with its queue, or a write of
DISP_SWAPADDR or DISP_SWAPMP of a head. `enables` tells the standby which heads the active chip drives, which its
takeover needs (log 24). -/
inductive MirrorOp where
  | packet (q : Nat) (bytes : List (BitVec 8))
  | swapAddr (head : Nat) (v : Nat)
  | swapMp (head : Nat) (v : Nat)
  | enables (mask : Nat)
  deriving DecidableEq, Repr

/-- Why a group of words is not an instruction (05 R119, and the encoding failures of the entries).
Each ends the thread with ILLEGAL_OP, fault address 0. -/
inductive Illegal where
  /-- An opcode that 05 R117 leaves unassigned. -/
  | unassignedOpcode
  /-- Opcode 0x7E or 0x7F. -/
  | alwaysIllegal
  /-- An fn value, immediate sub-field or literal not assigned, or a nonzero reserved bit. -/
  | unassignedForm
  /-- A register field naming a misaligned group (03 R69). -/
  | misalignedGroup
  /-- A rounding code or .sat, .ftz or K field that the form does not accept (03 R81, R85; 08 R183 to R196). -/
  | badRounding
  /-- A bit field beyond bit 31 (07 R146). -/
  | badField
  /-- Tag code 0xF (03 R73). -/
  | badTag
  /-- A prefix misplaced, or before a form that does not accept it (05 R115). -/
  | badPrefix
  /-- A lane-pattern field that is invalid, or set for a source the form does not read (05 R113, R115). -/
  | badPattern
  /-- A prefix slot with a nonzero stall count (05 R105). -/
  | prefixStall
  /-- Nonzero bits [31:29] of the control word (05 R100). -/
  | controlReserved
  deriving DecidableEq, Repr

/-- One constructor for each row of the opcode table. Rows with an encoding carry their operand fields under the
table's names, and `px`, the lane-pattern prefix, where the form accepts one. Rows without an encoding are steps the
device takes by itself or at the request of the host; they carry what names the step. -/
inductive Instr where
  /-- ADD (R139). Adds two 32-bit registers modulo 2^32 and tags the result S32 or N32 according to fn bit 0. -/
  | add (px : Option Pats) (d : Reg) (a : Reg) (b : Reg) (t : Ty)
  /-- SUB (R139). Subtracts two 32-bit registers modulo 2^32. -/
  | sub (px : Option Pats) (d : Reg) (a : Reg) (b : Reg) (t : Ty)
  /-- ADD64 (R139). Adds two 64-bit register pairs modulo 2^64 and writes a W64 pair. -/
  | add64 (px : Option Pats) (d : Reg) (a : Reg) (b : Reg) (t : Bool)
  /-- SUB64 (R139). Subtracts two 64-bit register pairs modulo 2^64 and writes a W64 pair. -/
  | sub64 (px : Option Pats) (d : Reg) (a : Reg) (b : Reg) (t : Bool)
  /-- ADDI (R140). Adds a signed immediate to a register. -/
  | addi (px : Option Pats) (d : Reg) (a : Reg) (i : Imm)
  /-- MUL (R141). Writes the low 32 bits of a product. -/
  | mul (px : Option Pats) (d : Reg) (a : Reg) (b : Reg) (t : Ty)
  /-- MULHI (R141). Writes the high 32 bits of a signed or unsigned product. -/
  | mulhi (px : Option Pats) (d : Reg) (a : Reg) (b : Reg) (t : Ty)
  /-- MAD (R141). Multiplies two registers and adds d, writing the low 32 bits to d. -/
  | mad (px : Option Pats) (d : Reg) (a : Reg) (b : Reg) (t : Ty)
  /-- MIN (R142). Writes the smaller of two integers, compared signed or unsigned. -/
  | minI (px : Option Pats) (d : Reg) (a : Reg) (b : Reg) (t : Ty)
  /-- MAX (R142). Writes the larger of two integers, compared signed or unsigned. -/
  | maxI (px : Option Pats) (d : Reg) (a : Reg) (b : Reg) (t : Ty)
  /-- ABS (R142). Writes the absolute value of a signed integer modulo 2^32. -/
  | absI (px : Option Pats) (d : Reg) (a : Reg)
  /-- NEG (R142). Writes the negation of a signed integer modulo 2^32. -/
  | neg (px : Option Pats) (d : Reg) (a : Reg)
  /-- AND (R143). Writes the bitwise AND of two registers with tag RAW. -/
  | andB (px : Option Pats) (d : Reg) (a : Reg) (b : Reg)
  /-- OR (R143). Writes the bitwise OR of two registers. -/
  | orB (px : Option Pats) (d : Reg) (a : Reg) (b : Reg)
  /-- XOR (R143). Writes the bitwise XOR of two registers. -/
  | xorB (px : Option Pats) (d : Reg) (a : Reg) (b : Reg)
  /-- ANDN (R143). Writes a AND NOT b. -/
  | andn (px : Option Pats) (d : Reg) (a : Reg) (b : Reg)
  /-- SHL (R144). Shifts left by a register amount. -/
  | shl (px : Option Pats) (d : Reg) (a : Reg) (b : Reg)
  /-- SHR (R144). Shifts right logically by a register amount. -/
  | shr (px : Option Pats) (d : Reg) (a : Reg) (b : Reg)
  /-- SHA (R144). Shifts right arithmetically by a register amount. -/
  | sha (px : Option Pats) (d : Reg) (a : Reg) (b : Reg)
  /-- ROT (R144). Rotates left by a register amount modulo 32. -/
  | rot (px : Option Pats) (d : Reg) (a : Reg) (b : Reg)
  /-- SHL_IMM (R145). Shifts left by an immediate amount. -/
  | shlImm (px : Option Pats) (d : Reg) (a : Reg) (n : Fin 32)
  /-- SHR_IMM (R145). Shifts right logically by an immediate amount. -/
  | shrImm (px : Option Pats) (d : Reg) (a : Reg) (n : Fin 32)
  /-- SHA_IMM (R145). Shifts right arithmetically by an immediate amount. -/
  | shaImm (px : Option Pats) (d : Reg) (a : Reg) (n : Fin 32)
  /-- ROT_IMM (R145). Rotates left by an immediate amount. -/
  | rotImm (px : Option Pats) (d : Reg) (a : Reg) (n : Fin 32)
  /-- BFX (R146). Extracts a bit field, zero- or sign-extended. -/
  | bfx (px : Option Pats) (d : Reg) (a : Reg) (x : Bool) (l : Fin 32) (p : Fin 32)
  /-- BFI (R146). Inserts the low bits of a into a field of d. -/
  | bfi (px : Option Pats) (d : Reg) (a : Reg) (l : Fin 32) (p : Fin 32)
  /-- POPC (R147). Writes the number of 1 bits. -/
  | popc (px : Option Pats) (d : Reg) (a : Reg)
  /-- CLZ (R147). Writes the count of leading zero bits. -/
  | clz (px : Option Pats) (d : Reg) (a : Reg)
  /-- BREV (R147). Writes the register with its bit order reversed. -/
  | brev (px : Option Pats) (d : Reg) (a : Reg)
  /-- CMP (R148). Writes 1 or 0 according to an integer comparison condition. -/
  | cmp (px : Option Pats) (d : Reg) (a : Reg) (b : Reg) (c : Cc)
  /-- SEL (R149). Writes a or b with its tag according to the condition in d. -/
  | sel (px : Option Pats) (d : Reg) (a : Reg) (b : Reg)
  /-- MOV (R150). Copies a register with its tag. -/
  | mov (px : Option Pats) (d : Reg) (a : Reg)
  /-- MOV_B64 (R150). Copies a register pair with each register's tag. -/
  | movB64 (px : Option Pats) (d : Reg) (a : Reg)
  /-- LI (R151). Writes an immediate with the tag held in field a. -/
  | li (d : Reg) (t : Tag) (i : Imm)
  /-- LEA (R152). Computes base plus shifted index as a W64 address. -/
  | lea (px : Option Pats) (d : Reg) (a : Reg) (b : Reg) (x : Bool) (s : Fin 8)
  /-- BR (R155). Transfers control PC-relative. -/
  | br (o : BitVec 25)
  /-- CALL (R155). Writes the link to v127 and transfers control PC-relative. -/
  | call (o : BitVec 25)
  /-- BZ (R156). Transfers when a register is zero. -/
  | bz (a : Reg) (i : Imm)
  /-- BNZ (R156). Transfers when a register is nonzero. -/
  | bnz (a : Reg) (i : Imm)
  /-- JR (R157). Transfers to a register target within the current 4 GiB region. -/
  | jr (a : Reg)
  /-- RET (R157). Transfers to a register target and marks the transfer as a return. -/
  | ret (a : Reg)
  /-- JR_B64 (R157). Transfers to a 64-bit register target. -/
  | jrB64 (a : Reg)
  /-- EXIT (R158). Ends the thread, waiting for its accesses and, if LIVE is nonzero, for its children. -/
  | exitT
  /-- YIELD (R159). Clears the wait counter and makes the thread ineligible for one cycle. -/
  | yield
  /-- NOP (R159). Has no effect other than its stall count. -/
  | nop
  /-- WIN_IMM (R161). Sets the window base to an immediate multiple of 16. -/
  | winImm (n : Fin 64)
  /-- WIN_REG (R161). Sets the window base to a register value. -/
  | winReg (a : Reg)
  /-- GROW_IMM (R161). Requests a larger allocation given by an immediate, waiting if it cannot be granted. -/
  | growImm (n : Fin 64)
  /-- GROW_REG (R161). Requests a larger allocation given by a register. -/
  | growReg (a : Reg)
  /-- SHRINK_IMM (R161). Returns registers above an immediate total to the lane pool. -/
  | shrinkImm (n : Fin 64)
  /-- SHRINK_REG (R161). Returns registers above a register-given total to the lane pool. -/
  | shrinkReg (a : Reg)
  /-- TRAP (R168). Raises USER_TRAP into the supervisor handler. -/
  | trap (a : Reg)
  /-- BRK (R168). Makes a debugger stop when debugging is enabled, otherwise ends the thread with BREAKPOINT. -/
  | brk
  /-- ERET (R170). Returns from the handler to the instruction after the resume point. -/
  | eret
  /-- ERET_RETRY (R170). Returns from the handler and re-executes the trapping group. -/
  | eretRetry
  /-- SREG (R72). Copies the selected special register into d. -/
  | sreg (d : Reg) (s : Sreg)
  /-- TIME (R172). Writes max(timebase, FLOOR) as a W64 pair. -/
  | time (d : Reg)
  /-- CAPS (R173). Writes a capability word selected by a literal index. -/
  | caps (d : Reg) (k : Fin 128)
  /-- TRAPVEC (R165). Sets the handler entry of the thread's context on its core. -/
  | trapvec (a : Reg)
  /-- FADD (R185). Adds two FP32 values, rounded once. -/
  | fadd (px : Option Pats) (d : Reg) (a : Reg) (b : Reg) (f : Bool) (r : Rnd)
  /-- FSUB (R185). Subtracts two FP32 values, rounded once. -/
  | fsub (px : Option Pats) (d : Reg) (a : Reg) (b : Reg) (f : Bool) (r : Rnd)
  /-- FMUL (R185). Multiplies two FP32 values, rounded once. -/
  | fmul (px : Option Pats) (d : Reg) (a : Reg) (b : Reg) (f : Bool) (r : Rnd)
  /-- FFMA (R185). Computes a × b + d exactly and rounds once. -/
  | ffma (px : Option Pats) (d : Reg) (a : Reg) (b : Reg) (f : Bool) (r : Rnd)
  /-- FMIN (R186). Writes the smaller FP32 operand unchanged. -/
  | fmin (px : Option Pats) (d : Reg) (a : Reg) (b : Reg) (f : Bool)
  /-- FMAX (R186). Writes the larger FP32 operand unchanged. -/
  | fmax (px : Option Pats) (d : Reg) (a : Reg) (b : Reg) (f : Bool)
  /-- FCMP (R187). Writes 1 or 0 according to an FP32 comparison condition. -/
  | fcmp (px : Option Pats) (d : Reg) (a : Reg) (b : Reg) (f : Bool) (c : FCc)
  /-- FCLASS (R188). Writes a one-hot mask of the FP32 class of a. -/
  | fclass (px : Option Pats) (d : Reg) (a : Reg)
  /-- FRCP (R189). Writes the correctly rounded reciprocal. -/
  | frcp (px : Option Pats) (d : Reg) (a : Reg) (f : Bool)
  /-- FRSQ (R189). Writes the correctly rounded reciprocal square root. -/
  | frsq (px : Option Pats) (d : Reg) (a : Reg) (f : Bool)
  /-- FSQRT (R189). Writes the correctly rounded square root. -/
  | fsqrt (px : Option Pats) (d : Reg) (a : Reg) (f : Bool)
  /-- FEXP2 (R189). Writes the correctly rounded 2^x. -/
  | fexp2 (px : Option Pats) (d : Reg) (a : Reg) (f : Bool)
  /-- FLOG2 (R189). Writes the correctly rounded log2 x. -/
  | flog2 (px : Option Pats) (d : Reg) (a : Reg) (f : Bool)
  /-- FSIN (R189). Writes the correctly rounded sin(πx). -/
  | fsin (px : Option Pats) (d : Reg) (a : Reg) (f : Bool)
  /-- FCOS (R189). Writes the correctly rounded cos(πx). -/
  | fcos (px : Option Pats) (d : Reg) (a : Reg) (f : Bool)
  /-- HADD2 (R190). Adds two packed FP16 or BF16 pairs element by element. -/
  | hadd2 (px : Option Pats) (d : Reg) (a : Reg) (b : Reg) (f : Bool) (m : Half) (r : Rnd)
  /-- HMUL2 (R190). Multiplies two packed FP16 or BF16 pairs element by element. -/
  | hmul2 (px : Option Pats) (d : Reg) (a : Reg) (b : Reg) (f : Bool) (m : Half) (r : Rnd)
  /-- HFMA2 (R190). Fused multiply-add on packed FP16 or BF16 pairs. -/
  | hfma2 (px : Option Pats) (d : Reg) (a : Reg) (b : Reg) (f : Bool) (m : Half) (r : Rnd)
  /-- CVT_NARROW (R191). Rounds an FP32 into element K of a packed narrow word. -/
  | cvtNarrow (px : Option Pats) (d : Reg) (a : Reg) (k : Fin 8) (s : Bool) (r : Rnd) (m : NFmt)
  /-- CVT_WIDEN (R191). Extracts element K of a packed narrow word as an exact FP32. -/
  | cvtWiden (px : Option Pats) (d : Reg) (a : Reg) (k : Fin 8) (m : NFmt)
  /-- CVT_F2I (R192). Converts FP32 to a 32-bit integer or to an INT8 or INT4 element. -/
  | cvtF2i (px : Option Pats) (d : Reg) (a : Reg) (k : Fin 8) (r : Rnd) (t : IFmt)
  /-- CVT_I2F (R193). Converts an integer or integer element to FP32. -/
  | cvtI2f (px : Option Pats) (d : Reg) (a : Reg) (k : Fin 8) (r : Rnd) (t : IFmt)
  /-- CVT_PACK_F16 (R194). Packs an FP32 pair into H2 or B2. -/
  | cvtPackF16 (px : Option Pats) (d : Reg) (a : Reg) (s : Bool) (r : Rnd) (t : Half)
  /-- CVT_UNPACK_F16 (R194). Unpacks H2 or B2 into an FP32 pair. -/
  | cvtUnpackF16 (px : Option Pats) (d : Reg) (a : Reg) (t : Half)
  /-- CVT_PACK_E (R194). Packs four FP32 values into E4x4 or E5x4. -/
  | cvtPackE (px : Option Pats) (d : Reg) (a : Reg) (s : Bool) (r : Rnd) (t : E8)
  /-- CVT_UNPACK_E (R194). Unpacks E4x4 or E5x4 into four FP32 values. -/
  | cvtUnpackE (px : Option Pats) (d : Reg) (a : Reg) (t : E8)
  /-- CVT_PACK_I8 (R194). Packs four integers, clamped, into S8x4. -/
  | cvtPackI8 (px : Option Pats) (d : Reg) (a : Reg)
  /-- CVT_UNPACK_I8 (R194). Unpacks S8x4 into four sign-extended integers. -/
  | cvtUnpackI8 (px : Option Pats) (d : Reg) (a : Reg)
  /-- TAG (R195). Copies a register with a new tag. -/
  | tagOp (px : Option Pats) (d : Reg) (a : Reg) (t : Tag)
  /-- REDADD (R196). Sums one value per lane of the issue group over the reduction tree. -/
  | redadd (px : Option Pats) (d : Reg) (a : Reg) (f : Bool) (r : Rnd) (t : XTy)
  /-- REDMIN (R196). Takes the minimum over the issue group. -/
  | redmin (px : Option Pats) (d : Reg) (a : Reg) (f : Bool) (r : Rnd) (t : XTy)
  /-- REDMAX (R196). Takes the maximum over the issue group. -/
  | redmax (px : Option Pats) (d : Reg) (a : Reg) (f : Bool) (r : Rnd) (t : XTy)
  /-- SCAN (R197). Computes an inclusive or exclusive prefix add, min or max over the issue group. -/
  | scan (px : Option Pats) (d : Reg) (a : Reg) (x : Bool) (o : ScanOp) (f : Bool) (r : Rnd) (t : XTy)
  /-- VOTE (R199). Computes any, all, ballot or uniformity over the issue group. -/
  | vote (px : Option Pats) (d : Reg) (a : Reg) (v : Vote)
  /-- ELECT (R199). Writes 1 in the lowest lane of the issue group. -/
  | elect (px : Option Pats) (d : Reg)
  /-- ELECT_COND (R199). Writes 1 in the lowest lane whose condition is true. -/
  | electCond (px : Option Pats) (d : Reg) (a : Reg)
  /-- MEMBERS (R199). Writes the lane mask of the issue group. -/
  | members (px : Option Pats) (d : Reg)
  /-- MEMBERS_COUNT (R199). Writes the number of members of the issue group. -/
  | membersCount (px : Option Pats) (d : Reg)
  /-- RANKOF (R199). Writes the number of members in lower lanes. -/
  | rankof (px : Option Pats) (d : Reg)
  /-- RANKOF_COND (R199). Writes the number of members in lower lanes whose condition is true. -/
  | rankofCond (px : Option Pats) (d : Reg) (a : Reg)
  /-- LD_G (R212). Loads untyped bytes from global memory. -/
  | ldG (d : Reg) (a : Reg) (o : Off8) (z : Size)
  /-- LD_G_TYPED (R212). Loads a typed value from global memory and tags it. -/
  | ldGTyped (d : Reg) (a : Reg) (o : Off6) (t : LdTy)
  /-- ST_G (R212). Stores bytes to global memory. -/
  | stG (d : Reg) (a : Reg) (o : Off8) (z : Size)
  /-- LD_S (R212). Loads untyped bytes from the core's scratchpad, or reads the register window. -/
  | ldS (d : Reg) (a : Reg) (o : Off8) (z : Size)
  /-- LD_S_TYPED (R212). Loads a typed value from the core's scratchpad. -/
  | ldSTyped (d : Reg) (a : Reg) (o : Off6) (t : LdTy)
  /-- ST_S (R212). Stores bytes to the core's scratchpad. -/
  | stS (d : Reg) (a : Reg) (o : Off8) (z : Size)
  /-- LD_C (R212). Loads bytes from a cluster scratchpad named by a selector. -/
  | ldC (d : Reg) (a : Reg) (b : CSel) (z : Size)
  /-- ST_C (R212). Stores bytes to a cluster scratchpad named by a selector. -/
  | stC (d : Reg) (a : Reg) (b : CSel) (z : Size)
  /-- LD_K (R212). Loads bytes from the cluster's vault. -/
  | ldK (d : Reg) (a : Reg) (b : BitVec 7) (z : Size)
  /-- ST_K (R212). Stores bytes to the cluster's vault. -/
  | stK (d : Reg) (a : Reg) (b : BitVec 7) (z : Size)
  /-- ATOM (R217). Performs an indivisible read-modify-write of one aligned global location at its home. -/
  | atom (d : Reg) (a : Reg) (b : Reg) (p : AtomOp)
  /-- APPEND (R222). Reserves the next bytes of an append page and writes the data into them. -/
  | append (d : Reg) (a : Reg) (b : Reg) (z : Size)
  /-- SEAL (R223). Closes an append page and waits until every reserved byte has landed. -/
  | seal (d : Reg) (a : Reg)
  /-- SEAL_COMPLETE (R223). When LANDED reaches TAIL on a closed page, SEALED is set and waiting SEALs return. -/
  | sealComplete (page : Nat)
  /-- COPY (R225). Captures and checks a copy request record and queues it. -/
  | copy (a : Reg)
  /-- COPY_START (R225). A queued copy request starts its transfer. -/
  | copyStart (core : Nat)
  /-- COPY_BYTES_LAND (R226). Copied bytes land at a destination and count down its meet. -/
  | copyBytesLand (core : Nat) (id : Nat) (dest : Nat) (n : Nat)
  /-- COPY_FAILURE (R227). A source or destination failure of a copy sets the error flag of the affected meets. -/
  | copyFailure (core : Nat) (id : Nat)
  /-- PREFETCH (R228). Requests that a line be brought near, or a sealed page replicated. -/
  | prefetch (a : Reg) (o : Off8) (k : PfKind)
  /-- MEETINIT (R229). Assigns a mode to a meet and clears it. -/
  | meetinit (e : MeetMode) (m : Fin 32)
  /-- ARRIVE (R230). Counts the member's arrival in the current phase and returns the phase number. -/
  | arrive (d : Reg) (m : Fin 32)
  /-- WAIT (R230). Waits until a given meet phase completes. -/
  | wait (a : Reg) (m : Fin 32)
  /-- SYNC (R230). Arrives and then waits on the phase just arrived in. -/
  | sync (d : Reg) (m : Fin 32)
  /-- PHASE (R230). Returns the current phase number of a meet. -/
  | phase (d : Reg) (m : Fin 32)
  /-- EXPECT (R231). Adds to the byte count of a byte-count meet. -/
  | expect (m : Fin 32) (a : Reg)
  /-- CBAR (R234). Waits at the cluster group's or pair group's barrier. -/
  | cbar
  /-- CBAR_REMOTE (R52). The partner cluster's completed local phase arrives and completes the remote phase. -/
  | cbarRemote (group : Nat)
  /-- JOIN (R233). Adds the thread to a meet's membership set. -/
  | join (m : Fin 32)
  /-- LEAVE (R233). Removes the thread from a meet's membership set, possibly completing the phase. -/
  | leave (m : Fin 32)
  /-- SPAWN (R235). Creates one child with eight passed registers and puts it in a bin. -/
  | spawn (l : Fin 32) (a : Reg) (b : Reg)
  /-- SPAWNR (R236). Creates one range-task child over an index interval. -/
  | spawnr (l : Fin 32) (a : Reg) (b : Reg)
  /-- NEXTI (R237). Draws the next index from the thread's range slot, or reports the end. -/
  | nexti (d : Reg)
  /-- AWAIT (R238). Waits until LIVE is 0, returns the status and first-fault record, and clears them. -/
  | await (d : Reg)
  /-- FRAMEINFO (R239). Returns one 64-bit word of the thread's own frame. -/
  | frameinfo (d : Reg) (w : Fin 8)
  /-- FNEW (R241). Allocates a future entry and returns its handle, or TABLE_FULL. -/
  | fnew (d : Reg)
  /-- FNEW_WAIT (R241). Allocates a future entry, waiting while the table is full. -/
  | fnewWait (d : Reg)
  /-- FSET (R241). Stores a value in an empty future and releases its waiters. -/
  | fset (d : Reg) (a : Reg) (b : Reg)
  /-- FFREE (R241). Frees a future entry, releasing its waiters with STALE_HANDLE. -/
  | ffree (d : Reg) (a : Reg)
  /-- FGET (R242). Returns a future's value, waiting while it is empty. -/
  | fget (d : Reg) (a : Reg)
  /-- FPOLL (R242). Returns a future's value if set, without waiting. -/
  | fpoll (d : Reg) (a : Reg)
  /-- MSIGN (R253). Signs a sign meet with a tile-op descriptor and enqueues the operation when all members have signed. -/
  | msign (d : Reg) (a : Reg) (m : Fin 32)
  /-- SIGN_ENQUEUE (R253). A fully signed tile operation waiting at its meet enters its queue once the queue has room. -/
  | signEnqueue (core : Nat) (meet : Nat)
  /-- MZERO (R256). Queues a command that zeroes an accumulator slot and sets its mode, then waits for it. -/
  | mzero (e : IMode) (q : Fin 16) (s : Fin 64)
  /-- MSTORE (R257). Queues a command that converts slot rows into the scratchpad, then waits for it. -/
  | mstore (d : Reg) (a : Reg) (b : Reg) (s : Bool) (r : Rnd)
  /-- MSCALE (R258). Queues a command that scales a slot by a vector, then waits for it. -/
  | mscale (a : Reg) (b : Reg)
  /-- SERVICE_TURN (R255). The matrix engine serves the head entry of the next queue for one K-step or one command. -/
  | serviceTurn (cluster : Nat)
  /-- GWIN (R260). Starts loading a Grain block into a window register. -/
  | gwin (g : GMode) (w : Fin 8) (a : Reg) (b : Reg)
  /-- GWIN_COMPLETE (R260). The reads of a GWIN complete and the window register takes the block. -/
  | gwinComplete (key : Nat) (id : Nat)
  /-- GDEC (R261). Decodes one weight from a window register as an FP32. -/
  | gdec (d : Reg) (a : Reg) (w : Fin 8)
  /-- CARVE (R263). Captures and checks a Carver request and queues it. -/
  | carve (a : Reg)
  /-- CARVER_REQUEST (R265). The Carver serves a queued request, encoding and writing its blocks in order. -/
  | carverRequest
  /-- PSUB (R267). Lists a sealed patch record at the bucket its bound first touches. -/
  | psub (d : Reg) (a : Reg)
  /-- BOPEN (R268). Obtains and opens a bucket for the cluster's dicer, or reports that none remains. -/
  | bopen (d : Reg)
  /-- BCLOSE (R269). Waits until an open bucket is complete, releases its memory and returns its dropped grids. -/
  | bclose (d : Reg) (a : Reg)
  /-- CAM (R270). Loads the camera, dicer or rasteriser block from the scratchpad. -/
  | cam (a : Reg) (k : Blk)
  /-- DECK (R271). Loads the cluster's sample deck. -/
  | deck (a : Reg) (b : Reg)
  /-- TRACE (R273). Queries a ray against a hierarchy and fills the hit register. -/
  | trace (d : Reg) (a : Reg) (b : Reg) (y : Bool)
  /-- HITLD (R275). Reads one field of the hit register. -/
  | hitld (d : Reg) (f : Fin 8)
  /-- SSET (R175). Writes a supervisor register selected by a literal. -/
  | sset (a : Reg) (s : Sset)
  /-- TLBINV (R178). Removes cached translations from every core and waits until they are dropped. -/
  | tlbinv (a : Reg) (s : Scope)
  /-- TLBINV_COMPLETE (R178). Every core has dropped the entries and finished earlier walks, releasing the waiting thread. -/
  | tlbinvComplete (key : Nat)
  /-- SFAULT (R179). Ends the thread with a given fault code and address. -/
  | sfault (a : Reg) (b : Reg)
  /-- XGET (R180). Reads a register of the user window from the handler. -/
  | xget (d : Reg) (k : Fin 128)
  /-- XPUT (R180). Writes a register of the user window from the handler. -/
  | xput (k : Fin 128) (a : Reg)
  /-- VARIABLE_RESULT (R109). A variable-latency result arrives and is written, or discarded if overtaken. -/
  | variableResult (key : Nat) (id : Nat)
  /-- BIN_TIMER_EXPIRE (R31). A bin's timer expires and the bin closes. -/
  | binTimerExpire (core : Nat) (bin : Nat)
  /-- BIN_PLACE (R32). A closed bin is placed whole in a qualifying partition when resources allow. -/
  | binPlace (core : Nat) (bin : Nat)
  /-- STARVE (R56). After 1,024 starved cycles the core suspends threads one per cycle until a GROW is granted or a bin placed. -/
  | starve (core : Nat)
  /-- READMIT (R56). A thread suspended by the starvation rule is readmitted to its lane when it fits. -/
  | readmit (key : Nat)
  /-- WORK_REQUEST (R57). An idle core sends a work request to the next core of its die. -/
  | workRequest (core : Nat)
  /-- WORK_REQUEST_ANSWER (R57). A victim answers a work request with a bin, a range half or a refusal. -/
  | workRequestAnswer (victim : Nat)
  /-- STEAL_RECORD (R58). A thief receives a steal record and replies ACK or REFUSE. -/
  | stealRecord (thief : Nat)
  /-- ACK (R58). The victim receives ACK, discards its copy, adjusts REMOTE and replies COMMIT. -/
  | ack (victim : Nat)
  /-- COMMIT (R58). The thief receives COMMIT and bins the record as a closed bin. -/
  | commit (thief : Nat)
  /-- REFUSE (R58). The victim receives REFUSE and reinstates the record. -/
  | refuse (victim : Nat)
  /-- ACK_TIMEOUT (R59). No ACK arrives within 4 µs (200 µs to a gated die) and the victim reinstates the record. -/
  | ackTimeout (victim : Nat) (id : Nat)
  /-- REVOKE (R59). The thief receives REVOKE for a late ACK and discards the record. -/
  | revoke (thief : Nat)
  /-- DISTRIBUTOR_REQUEST (R382). A distributor puts another die's work request to its cores in order. -/
  | distributorRequest (die : Nat)
  /-- STEAL_RETRY (R382). A refused idle core asks again after 4 µs. -/
  | stealRetry (core : Nat)
  /-- COMPLETION (R41). A child's completion is applied to its parent frame. -/
  | completion (key : Nat)
  /-- ROOT_COMPLETION (R381). A root thread's completion is applied to its launch record. -/
  | rootCompletion (launch : Nat)
  /-- FRAME_EVICT (R43). A frame evicted from the frame cache is written to the frame area. -/
  | frameEvict (key : Nat)
  /-- LIVENESS_PROBE (R61). Every 20 µs each distributor probes every other present die. -/
  | livenessProbe (die : Nat)
  /-- DIE_LOST (R61). A die whose distributor fails to answer for 200 µs is declared lost and the loss broadcast. -/
  | dieLost (die : Nat)
  /-- LOSS_BROADCAST (R61). A distributor receives a die-loss broadcast and completes every entry naming that die as killed. -/
  | lossBroadcast (die : Nat) (lost : Nat)
  /-- SWEEP_COMPLETE (R297). A sweep completes and releases any held generation increment. -/
  | sweepComplete (core : Nat)
  /-- L1_EVICT (R316). L1 evicts a line, writing its dirty bytes home. -/
  | l1Evict (core : Nat) (line : Nat)
  /-- REPLICA_MAKE (R304). A die makes a replica of a sealed page after THRESH remote misses. -/
  | replicaMake (die : Nat) (page : Nat)
  /-- REPLICA_DROP (R305). A die drops a replica without write-back or notice. -/
  | replicaDrop (die : Nat) (page : Nat)
  /-- LEASE_GRANT (R325). The residency manager makes a launch's leased pages resident, pins them and lets it be dealt. -/
  | leaseGrant
  /-- REGENERATION_END (R327). A regeneration launch ends and the outer lease continues or is refused with REGEN_FAIL. -/
  | regenerationEnd
  /-- BACKING_READ (R395). A backing-store page is read back by DMA into a free frame. -/
  | backingRead (ctx : Nat) (va : Nat)
  /-- AGING_SWEEP (R328). Every PKG_AGEPERIOD each frame's age is updated from its access bit. -/
  | agingSweep
  /-- VICTIM_RELEASE (R329). A victim page's frames are unmapped, flushed, invalidated, written back and zeroed. -/
  | victimRelease (ctx : Nat) (va : Nat)
  /-- PATCH_LISTING (R337). A PSUB reaches the owning distributor and its entry is appended to the bucket list. -/
  | patchListing (die : Nat)
  /-- PENDING_INCREMENT (R337). A receiver bucket's owner adds 1 to its PENDING count. -/
  | pendingIncrement (die : Nat)
  /-- DICE_ENTRY (R341). The dicer takes the list head and splits it, dices it into bucket memory or spills it. -/
  | diceEntry (cluster : Nat)
  /-- GRID_COMPLETE (R347). A grid's frame reaches LIVE 0; the grid is dropped or forwarded as a carried grid. -/
  | gridComplete (cluster : Nat) (seq : Nat)
  /-- CARRY_RECEIVE (R348). A receiver bucket's owner receives a carried-grid reference. -/
  | carryReceive (die : Nat)
  /-- PENDING_DECREMENT (R348). A receiver bucket's owner takes 1 from its PENDING count. -/
  | pendingDecrement (die : Nat)
  /-- RASTER_GRID (R350). The rasteriser samples the next complete grid in raster order and inserts visible points. -/
  | rasterGrid (cluster : Nat)
  /-- SPILL_COPY (R351). The oldest shaded spilled grid is copied into bucket memory when blocks are free. -/
  | spillCopy (cluster : Nat)
  /-- COUNT_REPORT (R360). A distributor receives another's count of unopened buckets. -/
  | countReport (die : Nat)
  /-- BUCKET_STEAL (R361). A distributor asks a victim die for an openable bucket, which hands one over or refuses. -/
  | bucketSteal (die : Nat)
  /-- BUCKET_RETRY (R364). An uncorrectable error fails the bucket's attempt and it is rastered again. -/
  | bucketRetry (cluster : Nat)
  /-- DOORBELL (R371). A write of QUEUE_TAIL makes packets available to be taken. -/
  | doorbell (q : Nat) (tail : Nat)
  /-- QUEUE_ENABLE (R370). Writing ENABLE from 0 to 1 resets HEAD, TAIL and the sequence and takes doorbells. -/
  | queueEnable (q : Nat) (v : Nat)
  /-- QUEUE_DISABLE (R370). Writing ENABLE 0 stops the taking of packets. -/
  | queueDisable (q : Nat) (v : Nat)
  /-- PACKET_TAKE (R371). The next packet is taken, sequenced and checked, then refused or dealt. -/
  | packetTake
  /-- LAUNCH_GROUP_PLACE (R379). A core places a dealt launch group whole when resources and reservations allow. -/
  | launchGroupPlace (core : Nat)
  /-- PREEMPT (R384). CTX_CTL.PREEMPT stops the context and begins its save. -/
  | preempt (ctx : Nat)
  /-- CONTEXT_SAVE (R62). Once turns and copies finish, the context's state is written to the save area and STATE becomes 2. -/
  | contextSave (ctx : Nat)
  /-- RESUME (R386). CTX_CTL.RESUME begins restoring a saved context. -/
  | resume (ctx : Nat)
  /-- RESTORE (R386). When its reservations are free the context is restored and all threads become issuable together. -/
  | restore (ctx : Nat)
  /-- KILL (R387). CTX_CTL.KILL kills every launch of the context. -/
  | kill (ctx : Nat)
  /-- CTX_KILL (R387). A write of CTX_KILL kills one launch of the context. -/
  | ctxKill (ctx : Nat) (launch : Nat)
  /-- STOP (R389). CTX_DBGCTL.STOP stops every resident launch group of a debug launch. -/
  | stop (ctx : Nat) (launch : Nat)
  /-- STOP_REPORT (R389). Once a stop's groups are suspended and no report is pending, the report is written and STOPPED set. -/
  | stopReport (ctx : Nat)
  /-- DBG_RESUME (R389). CTX_DBGCTL.RESUME resumes the groups of the current stop report. -/
  | dbgResume (ctx : Nat)
  /-- DIEMAP_WRITE (R376). A write of PKG_DIEMAP remaps virtual dies or is refused with DIE_BUSY. -/
  | diemapWrite (v : Nat)
  /-- REGISTER_WRITE (R10). A write to a device register without behaviour of its own stores the value in effect. -/
  | registerWrite (off : Nat) (size : Nat) (v : Nat)
  /-- APERTURE_READ (R393). A host read through the aperture is served at home. -/
  | apertureRead (off : Nat) (n : Nat)
  /-- APERTURE_WRITE (R393). A host write through the aperture is made at home. -/
  | apertureWrite (off : Nat) (bytes : List (BitVec 8))
  /-- PACKAGE_RESET (R396). A package reset runs the boot stages. -/
  | packageReset
  /-- GET_VERSION (R397). SPDM GET_VERSION is answered with version 1.3. -/
  | getVersion (die : Nat)
  /-- GET_CAPABILITIES (R397). SPDM GET_CAPABILITIES is answered. -/
  | getCapabilities (die : Nat)
  /-- NEGOTIATE_ALGORITHMS (R397). SPDM NEGOTIATE_ALGORITHMS is answered. -/
  | negotiateAlgorithms (die : Nat)
  /-- GET_DIGESTS (R397). SPDM GET_DIGESTS is answered. -/
  | getDigests (die : Nat)
  /-- GET_CERTIFICATE (R397). SPDM GET_CERTIFICATE returns the slot-0 chain. -/
  | getCertificate (die : Nat) (slot : Nat) (off : Nat) (len : Nat)
  /-- CHALLENGE (R397). SPDM CHALLENGE is answered with the die's signature. -/
  | challenge (die : Nat) (slot : Nat) (nonce : List (BitVec 8))
  /-- GET_MEASUREMENTS (R398). SPDM GET_MEASUREMENTS returns the requested measurement indices. -/
  | getMeasurements (die : Nat) (op : Nat)
  /-- UNSUPPORTED_REQUEST (R397). Any other SPDM request receives ERROR with UnsupportedRequest. -/
  | unsupportedRequest (die : Nat) (code : Nat)
  /-- FRAME_EDGE (R401). A frame edge from the timebase increments the milepost and applies due swaps. -/
  | frameEdge
  /-- GENLOCK_EDGE (R401). A genlock input edge makes the master's frame edge. -/
  | genlockEdge
  /-- MILEPOST (R401). A follower receives the master's milepost and applies it at the edge. -/
  | milepost (n : Nat)
  /-- DISP_ENABLE (R403). Writing DISP_CTL.EN from 0 to 1 starts training the head's link. -/
  | dispEnable (head : Nat)
  /-- LINKUP (R403). The head's link finishes training, LINKUP is set and the stream starts. -/
  | linkup (head : Nat) (trained : Bool)
  /-- READY (R405). The standby receives READY(M) from the active chip. -/
  | ready (m : Nat)
  /-- TAKEOVER_INPUT (R405). An active chip's takeover input is asserted; it clears EN at its next edge and sets DEPOSED. -/
  | takeoverInput
  /-- PORT_RETRAIN (R406). A Causeway port retrains one half of its lanes at a time. -/
  | portRetrain (port : Nat)
  /-- PORT_DOWN (R409). A Causeway port fails, goes down and signals VECTOR. -/
  | portDown (port : Nat)
  /-- DIE_GATE (R407). After IDLEUS idle the compute die flushes its L1 and is gated. -/
  | dieGate (die : Nat)
  /-- DIE_WAKE (R407). A message for a gated die wakes it and is held until it is awake. -/
  | dieWake (die : Nat)
  /-- STORE_COMPLETE (R215). A store or write-back reaches its home (scratchpad, vault, STREAM or DEVICE target, remote chip) and is accepted there, taking its place in each byte's write order. -/
  | storeComplete (key : Nat)
  /-- SCANOUT_READ (R402). A display head reads the next 128 bytes of its scanout buffer at home for the active line, showing black and incrementing DISP_UE on uncorrectable data. -/
  | scanoutRead (head : Nat)
  /-- FRAME_RELEASE (R306). Privileged software frees a frame, which is invalidated on every die, zero-filled and made free without a backing-store write. -/
  | frameRelease (pa : Nat)
  /-- DIE_RESET (R61). The management processor resets a die, so that its cores, meets, slots and window registers return to their reset state and the die is lost. -/
  | dieReset (die : Nat)
  /-- RETURN_TO_SERVICE (R61). The management processor returns a lost die to service with no resident thread, bin or inbound record, so that it again takes steal records and deals. -/
  | returnToService (die : Nat)
  /-- REMOTE_ACCESS (R400). A read, write or atomic from another chip arrives over Causeway and is served at the home of each byte, then acknowledged. -/
  | remoteAccess (chip : Nat) (op : RemoteOp)
  /-- PACKET_MIRROR (R405). A standby chip receives the mirror of a packet the active chip has taken, or of a DISP_SWAPADDR or DISP_SWAPMP write, and executes or applies it on its own memory and heads. -/
  | packetMirror (body : MirrorOp)
  /-- PORT_RETRAIN_DONE (R406). A half of a Causeway port finishes retraining, so PORTS moves from half A to half B retraining, or back to full. -/
  | portRetrainDone (port : Nat)
  deriving DecidableEq, Repr

end Sys2Proof
end

