-- ==== Sys2Proof/WellFormed.lean ====
section
/-! DEFINITION. Which instructions are well formed: the encoding checks that depend on operand values, which step 1 of
03 R71 makes (03 R69, R81, R85; 05 R113, R115; 07 R146; 08 R184 to R196; 09 R211 to R212). -/

namespace Sys2Proof

/-- A field that names a group of n registers names a multiple of n (03 R69). -/
def aligned (r : Reg) (n : Nat) : Bool := r.val % n == 0

/-- The number of registers of an access of a SIZE (09 R211). -/
def Size.regs : Size → Nat
  | .b8 | .b16 | .b32 => 1
  | .b64 => 2
  | .b128 => 4

/-- The number of registers a typed load writes (09 R211). -/
def LdTy.regs : LdTy → Nat
  | .s64 | .n64 => 2
  | _ => 1

/-- The number of registers of an ATOM operand: two in the 64-bit forms, OP 10 to 15 (09 R216). -/
def AtomOp.regs : AtomOp → Nat
  | .add64 | .or64 | .exch64 | .cas64 | .minN64 | .maxN64 => 2
  | _ => 1

/-- E of a narrow format: the number of elements of a packed word (08 R191). -/
def NFmt.count : NFmt → Nat
  | .f16 | .bf16 => 2
  | .e4 | .e5 => 4
  | .e3 | .e2 => 5
  | .f4 => 8
  | .sc => 3

/-- The number of element positions of an integer format (08 R192, R193). -/
def IFmt.count : IFmt → Nat
  | .s32 | .n32 => 1
  | .i8 => 4
  | .i4 => 8

/-- The types of the cross-lane instructions that are integers (08 R184). -/
def XTy.isInt : XTy → Bool
  | .s32 | .n32 => true
  | _ => false

/-- Whether SREG writes a pair for a selector (03 R72). -/
def Sreg.wide : Sreg → Bool
  | .time | .framearea | .trapaddr => true
  | _ => false

/-- Whether the amount of a pattern lies in its allowed range (05 R113). -/
def Pat.ok : Pat → Bool
  | .mw x => 1 ≤ x.val && x.val ≤ 5
  | .shu x | .shd x => 1 ≤ x.val
  | _ => true

/-- A lane-pattern prefix is accepted when its amounts are in range and every field of a source the form does not read
is code 0 (05 R115). -/
def Pats.ok (ra rb rd : Bool) (p : Pats) : Bool :=
  p.a.ok && p.b.ok && p.d.ok && (ra || p.a == .own) && (rb || p.b == .own) && (rd || p.d == .own)

/-- No prefix, or one that the form accepts. -/
def pxOk (px : Option Pats) (ra rb rd : Bool) : Bool :=
  match px with
  | none => true
  | some p => p.ok ra rb rd

/-- The first named failure whose test is false. -/
def firstFail : List (Bool × Illegal) → Option Illegal
  | [] => none
  | (ok, e) :: rest => if ok then firstFail rest else some e

/-- The encoding failure of an instruction, or none (03 R71 step 1). -/
def check (i : Instr) : Option Illegal :=
  match i with
  | .add px _ _ _ _ => firstFail [(pxOk px true true false, .badPattern)]
  | .sub px _ _ _ _ => firstFail [(pxOk px true true false, .badPattern)]
  | .add64 px d a b _ => firstFail [(aligned d 2, .misalignedGroup), (aligned a 2, .misalignedGroup), (aligned b 2, .misalignedGroup), (pxOk px true true false, .badPattern)]
  | .sub64 px d a b _ => firstFail [(aligned d 2, .misalignedGroup), (aligned a 2, .misalignedGroup), (aligned b 2, .misalignedGroup), (pxOk px true true false, .badPattern)]
  | .addi px _ _ _ => firstFail [(pxOk px true false false, .badPattern)]
  | .mul px _ _ _ _ => firstFail [(pxOk px true true false, .badPattern)]
  | .mulhi px _ _ _ _ => firstFail [(pxOk px true true false, .badPattern)]
  | .mad px _ _ _ _ => firstFail [(pxOk px true true true, .badPattern)]
  | .minI px _ _ _ _ => firstFail [(pxOk px true true false, .badPattern)]
  | .maxI px _ _ _ _ => firstFail [(pxOk px true true false, .badPattern)]
  | .absI px _ _ => firstFail [(pxOk px true false false, .badPattern)]
  | .neg px _ _ => firstFail [(pxOk px true false false, .badPattern)]
  | .andB px _ _ _ => firstFail [(pxOk px true true false, .badPattern)]
  | .orB px _ _ _ => firstFail [(pxOk px true true false, .badPattern)]
  | .xorB px _ _ _ => firstFail [(pxOk px true true false, .badPattern)]
  | .andn px _ _ _ => firstFail [(pxOk px true true false, .badPattern)]
  | .shl px _ _ _ => firstFail [(pxOk px true true false, .badPattern)]
  | .shr px _ _ _ => firstFail [(pxOk px true true false, .badPattern)]
  | .sha px _ _ _ => firstFail [(pxOk px true true false, .badPattern)]
  | .rot px _ _ _ => firstFail [(pxOk px true true false, .badPattern)]
  | .shlImm px _ _ _ => firstFail [(pxOk px true false false, .badPattern)]
  | .shrImm px _ _ _ => firstFail [(pxOk px true false false, .badPattern)]
  | .shaImm px _ _ _ => firstFail [(pxOk px true false false, .badPattern)]
  | .rotImm px _ _ _ => firstFail [(pxOk px true false false, .badPattern)]
  | .bfx px _ _ _ l p => firstFail [(decide (p.val + (l.val + 1) ≤ 32), .badField), (pxOk px true false false, .badPattern)]
  | .bfi px _ _ l p => firstFail [(decide (p.val + (l.val + 1) ≤ 32), .badField), (pxOk px true false true, .badPattern)]
  | .popc px _ _ => firstFail [(pxOk px true false false, .badPattern)]
  | .clz px _ _ => firstFail [(pxOk px true false false, .badPattern)]
  | .brev px _ _ => firstFail [(pxOk px true false false, .badPattern)]
  | .cmp px _ _ _ _ => firstFail [(pxOk px true true false, .badPattern)]
  | .sel px _ _ _ => firstFail [(pxOk px true true true, .badPattern)]
  | .mov px _ _ => firstFail [(pxOk px true false false, .badPattern)]
  | .movB64 px d a => firstFail [(aligned d 2, .misalignedGroup), (aligned a 2, .misalignedGroup), (pxOk px true false false, .badPattern)]
  | .li _ _ _ => none
  | .lea px d a _ _ _ => firstFail [(aligned d 2, .misalignedGroup), (aligned a 2, .misalignedGroup), (pxOk px true true false, .badPattern)]
  | .br _ => none
  | .call _ => none
  | .bz _ _ => none
  | .bnz _ _ => none
  | .jr _ => none
  | .ret _ => none
  | .jrB64 a => firstFail [(aligned a 2, .misalignedGroup)]
  | .exitT => none
  | .yield => none
  | .nop => none
  | .winImm _ => none
  | .winReg _ => none
  | .growImm _ => none
  | .growReg _ => none
  | .shrinkImm _ => none
  | .shrinkReg _ => none
  | .trap _ => none
  | .brk => none
  | .eret => none
  | .eretRetry => none
  | .sreg d s => firstFail [(!s.wide || aligned d 2, .misalignedGroup)]
  | .time d => firstFail [(aligned d 2, .misalignedGroup)]
  | .caps _ _ => none
  | .trapvec a => firstFail [(aligned a 2, .misalignedGroup)]
  | .fadd px _ _ _ _ r => firstFail [(r != .rdi, .badRounding), (pxOk px true true false, .badPattern)]
  | .fsub px _ _ _ _ r => firstFail [(r != .rdi, .badRounding), (pxOk px true true false, .badPattern)]
  | .fmul px _ _ _ _ r => firstFail [(r != .rdi, .badRounding), (pxOk px true true false, .badPattern)]
  | .ffma px _ _ _ _ r => firstFail [(r != .rdi, .badRounding), (pxOk px true true true, .badPattern)]
  | .fmin px _ _ _ _ => firstFail [(pxOk px true true false, .badPattern)]
  | .fmax px _ _ _ _ => firstFail [(pxOk px true true false, .badPattern)]
  | .fcmp px _ _ _ _ _ => firstFail [(pxOk px true true false, .badPattern)]
  | .fclass px _ _ => firstFail [(pxOk px true false false, .badPattern)]
  | .frcp px _ _ _ => firstFail [(pxOk px true false false, .badPattern)]
  | .frsq px _ _ _ => firstFail [(pxOk px true false false, .badPattern)]
  | .fsqrt px _ _ _ => firstFail [(pxOk px true false false, .badPattern)]
  | .fexp2 px _ _ _ => firstFail [(pxOk px true false false, .badPattern)]
  | .flog2 px _ _ _ => firstFail [(pxOk px true false false, .badPattern)]
  | .fsin px _ _ _ => firstFail [(pxOk px true false false, .badPattern)]
  | .fcos px _ _ _ => firstFail [(pxOk px true false false, .badPattern)]
  | .hadd2 px _ _ _ _ _ r => firstFail [(r != .rdi, .badRounding), (pxOk px true true false, .badPattern)]
  | .hmul2 px _ _ _ _ _ r => firstFail [(r != .rdi, .badRounding), (pxOk px true true false, .badPattern)]
  | .hfma2 px _ _ _ _ _ r => firstFail [(r != .rdi, .badRounding), (pxOk px true true true, .badPattern)]
  | .cvtNarrow px _ _ k s _ m => firstFail [(decide (k.val < m.count), .badRounding), (!s || m == .f16 || m == .bf16 || m == .e5, .badRounding), (pxOk px true false true, .badPattern)]
  | .cvtWiden px _ _ k m => firstFail [(decide (k.val < m.count), .badRounding), (pxOk px true false false, .badPattern)]
  | .cvtF2i px _ _ k _ t => firstFail [(decide (k.val < t.count), .badRounding), (pxOk px true false (t == .i8 || t == .i4), .badPattern)]
  | .cvtI2f px _ _ k r t => firstFail [(r != .rdi, .badRounding), (decide (k.val < t.count), .badRounding), (pxOk px true false false, .badPattern)]
  | .cvtPackF16 px _ a _ _ _ => firstFail [(aligned a 2, .misalignedGroup), (pxOk px true false false, .badPattern)]
  | .cvtUnpackF16 px d _ _ => firstFail [(aligned d 2, .misalignedGroup), (pxOk px true false false, .badPattern)]
  | .cvtPackE px _ a s _ t => firstFail [(aligned a 4, .misalignedGroup), (!s || t == .e5, .badRounding), (pxOk px true false false, .badPattern)]
  | .cvtUnpackE px d _ _ => firstFail [(aligned d 4, .misalignedGroup), (pxOk px true false false, .badPattern)]
  | .cvtPackI8 px _ a => firstFail [(aligned a 4, .misalignedGroup), (pxOk px true false false, .badPattern)]
  | .cvtUnpackI8 px d _ => firstFail [(aligned d 4, .misalignedGroup), (pxOk px true false false, .badPattern)]
  | .tagOp px _ _ _ => firstFail [(pxOk px true false false, .badPattern)]
  | .redadd px _ _ f r t => firstFail [(if t.isInt then r == .rn && !f else r != .rdi, .badRounding), (pxOk px true false false, .badPattern)]
  | .redmin px _ _ f r t => firstFail [(r == .rn && (!t.isInt || !f), .badRounding), (pxOk px true false false, .badPattern)]
  | .redmax px _ _ f r t => firstFail [(r == .rn && (!t.isInt || !f), .badRounding), (pxOk px true false false, .badPattern)]
  | .scan px _ _ _ o f r t => firstFail [(if t.isInt then r == .rn && !f else if o == .add then r != .rdi else r == .rn, .badRounding), (pxOk px true false false, .badPattern)]
  | .vote px _ _ _ => firstFail [(pxOk px true false false, .badPattern)]
  | .elect px _ => firstFail [(pxOk px false false false, .badPattern)]
  | .electCond px _ _ => firstFail [(pxOk px true false false, .badPattern)]
  | .members px _ => firstFail [(pxOk px false false false, .badPattern)]
  | .membersCount px _ => firstFail [(pxOk px false false false, .badPattern)]
  | .rankof px _ => firstFail [(pxOk px false false false, .badPattern)]
  | .rankofCond px _ _ => firstFail [(pxOk px true false false, .badPattern)]
  | .ldG d a _ z => firstFail [(aligned a 2, .misalignedGroup), (aligned d z.regs, .misalignedGroup)]
  | .ldGTyped d a _ t => firstFail [(aligned a 2, .misalignedGroup), (aligned d t.regs, .misalignedGroup)]
  | .stG d a _ z => firstFail [(aligned a 2, .misalignedGroup), (aligned d z.regs, .misalignedGroup)]
  | .ldS d _ _ z => firstFail [(aligned d z.regs, .misalignedGroup)]
  | .ldSTyped d _ _ t => firstFail [(aligned d t.regs, .misalignedGroup)]
  | .stS d _ _ z => firstFail [(aligned d z.regs, .misalignedGroup)]
  | .ldC d _ _ z => firstFail [(aligned d z.regs, .misalignedGroup)]
  | .stC d _ _ z => firstFail [(aligned d z.regs, .misalignedGroup)]
  | .ldK d _ _ z => firstFail [(aligned d z.regs, .misalignedGroup)]
  | .stK d _ _ z => firstFail [(aligned d z.regs, .misalignedGroup)]
  | .atom d a b op => firstFail [(aligned a 2, .misalignedGroup), (aligned d op.regs, .misalignedGroup), (aligned b op.regs, .misalignedGroup)]
  | .append d a b z => firstFail [(aligned a 2, .misalignedGroup), (aligned d 2, .misalignedGroup), (aligned b z.regs, .misalignedGroup)]
  | .seal _ a => firstFail [(aligned a 2, .misalignedGroup)]
  | .sealComplete _ => none
  | .copy _ => none
  | .copyStart _ => none
  | .copyBytesLand _ _ _ _ => none
  | .copyFailure _ _ => none
  | .prefetch a _ _ => firstFail [(aligned a 2, .misalignedGroup)]
  | .meetinit _ _ => none
  | .arrive _ _ => none
  | .wait _ _ => none
  | .sync _ _ => none
  | .phase _ _ => none
  | .expect _ _ => none
  | .cbar => none
  | .cbarRemote _ => none
  | .join _ => none
  | .leave _ => none
  | .spawn _ a b => firstFail [(aligned a 2, .misalignedGroup), (aligned b 8, .misalignedGroup)]
  | .spawnr _ a b => firstFail [(aligned a 2, .misalignedGroup), (aligned b 8, .misalignedGroup)]
  | .nexti d => firstFail [(aligned d 2, .misalignedGroup)]
  | .await d => firstFail [(aligned d 4, .misalignedGroup)]
  | .frameinfo d _ => firstFail [(aligned d 2, .misalignedGroup)]
  | .fnew d => firstFail [(aligned d 2, .misalignedGroup)]
  | .fnewWait d => firstFail [(aligned d 2, .misalignedGroup)]
  | .fset _ _ b => firstFail [(aligned b 2, .misalignedGroup)]
  | .ffree _ _ => none
  | .fget d _ => firstFail [(aligned d 4, .misalignedGroup)]
  | .fpoll d _ => firstFail [(aligned d 4, .misalignedGroup)]
  | .msign _ _ _ => none
  | .signEnqueue _ _ => none
  | .mzero _ _ _ => none
  | .mstore _ _ _ _ _ => none
  | .mscale _ _ => none
  | .serviceTurn _ => none
  | .gwin _ _ a _ => firstFail [(aligned a 4, .misalignedGroup)]
  | .gwinComplete _ _ => none
  | .gdec _ _ _ => none
  | .carve _ => none
  | .carverRequest => none
  | .psub _ a => firstFail [(aligned a 2, .misalignedGroup)]
  | .bopen _ => none
  | .bclose _ _ => none
  | .cam _ _ => none
  | .deck _ _ => none
  | .trace _ a b _ => firstFail [(aligned a 8, .misalignedGroup), (aligned b 2, .misalignedGroup)]
  | .hitld _ _ => none
  | .sset a s => firstFail [(s != .framearea || aligned a 2, .misalignedGroup)]
  | .tlbinv a _ => firstFail [(aligned a 2, .misalignedGroup)]
  | .tlbinvComplete _ => none
  | .sfault _ b => firstFail [(aligned b 2, .misalignedGroup)]
  | .xget _ _ => none
  | .xput _ _ => none
  | .variableResult _ _ => none
  | .binTimerExpire _ _ => none
  | .binPlace _ _ => none
  | .starve _ => none
  | .readmit _ => none
  | .workRequest _ => none
  | .workRequestAnswer _ => none
  | .stealRecord _ => none
  | .ack _ => none
  | .commit _ => none
  | .refuse _ => none
  | .ackTimeout _ _ => none
  | .revoke _ => none
  | .distributorRequest _ => none
  | .stealRetry _ => none
  | .completion _ => none
  | .rootCompletion _ => none
  | .frameEvict _ => none
  | .livenessProbe _ => none
  | .dieLost _ => none
  | .lossBroadcast _ _ => none
  | .sweepComplete _ => none
  | .l1Evict _ _ => none
  | .replicaMake _ _ => none
  | .replicaDrop _ _ => none
  | .leaseGrant => none
  | .regenerationEnd => none
  | .backingRead _ _ => none
  | .agingSweep => none
  | .victimRelease _ _ => none
  | .patchListing _ => none
  | .pendingIncrement _ => none
  | .diceEntry _ => none
  | .gridComplete _ _ => none
  | .carryReceive _ => none
  | .pendingDecrement _ => none
  | .rasterGrid _ => none
  | .spillCopy _ => none
  | .countReport _ => none
  | .bucketSteal _ => none
  | .bucketRetry _ => none
  | .doorbell _ _ => none
  | .queueEnable _ _ => none
  | .queueDisable _ _ => none
  | .packetTake => none
  | .launchGroupPlace _ => none
  | .preempt _ => none
  | .contextSave _ => none
  | .resume _ => none
  | .restore _ => none
  | .kill _ => none
  | .ctxKill _ _ => none
  | .stop _ _ => none
  | .stopReport _ => none
  | .dbgResume _ => none
  | .diemapWrite _ => none
  | .registerWrite _ _ _ => none
  | .apertureRead _ _ => none
  | .apertureWrite _ _ => none
  | .packageReset => none
  | .getVersion _ => none
  | .getCapabilities _ => none
  | .negotiateAlgorithms _ => none
  | .getDigests _ => none
  | .getCertificate _ _ _ _ => none
  | .challenge _ _ _ => none
  | .getMeasurements _ _ => none
  | .unsupportedRequest _ _ => none
  | .frameEdge => none
  | .genlockEdge => none
  | .milepost _ => none
  | .dispEnable _ => none
  | .linkup _ _ => none
  | .ready _ => none
  | .takeoverInput => none
  | .portRetrain _ => none
  | .portDown _ => none
  | .dieGate _ => none
  | .dieWake _ => none
  | .storeComplete _ => none
  | .frameRelease _ => none
  | .dieReset _ => none
  | .returnToService _ => none
  | .remoteAccess _ _ => none
  | .packetMirror _ => none
  | .portRetrainDone _ => none
  | .scanoutRead _ => none

/-- The instruction meets every encoding check of 03 R71 step 1. -/
def WellFormed (i : Instr) : Prop := check i = none

/-- Whether the instruction is one of the 153 that a word encodes; the other rows of the table have no encoding. -/
def Instr.encoded (i : Instr) : Bool :=
  match i with
  | .add _ _ _ _ _ => true
  | .sub _ _ _ _ _ => true
  | .add64 _ _ _ _ _ => true
  | .sub64 _ _ _ _ _ => true
  | .addi _ _ _ _ => true
  | .mul _ _ _ _ _ => true
  | .mulhi _ _ _ _ _ => true
  | .mad _ _ _ _ _ => true
  | .minI _ _ _ _ _ => true
  | .maxI _ _ _ _ _ => true
  | .absI _ _ _ => true
  | .neg _ _ _ => true
  | .andB _ _ _ _ => true
  | .orB _ _ _ _ => true
  | .xorB _ _ _ _ => true
  | .andn _ _ _ _ => true
  | .shl _ _ _ _ => true
  | .shr _ _ _ _ => true
  | .sha _ _ _ _ => true
  | .rot _ _ _ _ => true
  | .shlImm _ _ _ _ => true
  | .shrImm _ _ _ _ => true
  | .shaImm _ _ _ _ => true
  | .rotImm _ _ _ _ => true
  | .bfx _ _ _ _ _ _ => true
  | .bfi _ _ _ _ _ => true
  | .popc _ _ _ => true
  | .clz _ _ _ => true
  | .brev _ _ _ => true
  | .cmp _ _ _ _ _ => true
  | .sel _ _ _ _ => true
  | .mov _ _ _ => true
  | .movB64 _ _ _ => true
  | .li _ _ _ => true
  | .lea _ _ _ _ _ _ => true
  | .br _ => true
  | .call _ => true
  | .bz _ _ => true
  | .bnz _ _ => true
  | .jr _ => true
  | .ret _ => true
  | .jrB64 _ => true
  | .exitT => true
  | .yield => true
  | .nop => true
  | .winImm _ => true
  | .winReg _ => true
  | .growImm _ => true
  | .growReg _ => true
  | .shrinkImm _ => true
  | .shrinkReg _ => true
  | .trap _ => true
  | .brk => true
  | .eret => true
  | .eretRetry => true
  | .sreg _ _ => true
  | .time _ => true
  | .caps _ _ => true
  | .trapvec _ => true
  | .fadd _ _ _ _ _ _ => true
  | .fsub _ _ _ _ _ _ => true
  | .fmul _ _ _ _ _ _ => true
  | .ffma _ _ _ _ _ _ => true
  | .fmin _ _ _ _ _ => true
  | .fmax _ _ _ _ _ => true
  | .fcmp _ _ _ _ _ _ => true
  | .fclass _ _ _ => true
  | .frcp _ _ _ _ => true
  | .frsq _ _ _ _ => true
  | .fsqrt _ _ _ _ => true
  | .fexp2 _ _ _ _ => true
  | .flog2 _ _ _ _ => true
  | .fsin _ _ _ _ => true
  | .fcos _ _ _ _ => true
  | .hadd2 _ _ _ _ _ _ _ => true
  | .hmul2 _ _ _ _ _ _ _ => true
  | .hfma2 _ _ _ _ _ _ _ => true
  | .cvtNarrow _ _ _ _ _ _ _ => true
  | .cvtWiden _ _ _ _ _ => true
  | .cvtF2i _ _ _ _ _ _ => true
  | .cvtI2f _ _ _ _ _ _ => true
  | .cvtPackF16 _ _ _ _ _ _ => true
  | .cvtUnpackF16 _ _ _ _ => true
  | .cvtPackE _ _ _ _ _ _ => true
  | .cvtUnpackE _ _ _ _ => true
  | .cvtPackI8 _ _ _ => true
  | .cvtUnpackI8 _ _ _ => true
  | .tagOp _ _ _ _ => true
  | .redadd _ _ _ _ _ _ => true
  | .redmin _ _ _ _ _ _ => true
  | .redmax _ _ _ _ _ _ => true
  | .scan _ _ _ _ _ _ _ _ => true
  | .vote _ _ _ _ => true
  | .elect _ _ => true
  | .electCond _ _ _ => true
  | .members _ _ => true
  | .membersCount _ _ => true
  | .rankof _ _ => true
  | .rankofCond _ _ _ => true
  | .ldG _ _ _ _ => true
  | .ldGTyped _ _ _ _ => true
  | .stG _ _ _ _ => true
  | .ldS _ _ _ _ => true
  | .ldSTyped _ _ _ _ => true
  | .stS _ _ _ _ => true
  | .ldC _ _ _ _ => true
  | .stC _ _ _ _ => true
  | .ldK _ _ _ _ => true
  | .stK _ _ _ _ => true
  | .atom _ _ _ _ => true
  | .append _ _ _ _ => true
  | .seal _ _ => true
  | .sealComplete _ => false
  | .copy _ => true
  | .copyStart _ => false
  | .copyBytesLand _ _ _ _ => false
  | .copyFailure _ _ => false
  | .prefetch _ _ _ => true
  | .meetinit _ _ => true
  | .arrive _ _ => true
  | .wait _ _ => true
  | .sync _ _ => true
  | .phase _ _ => true
  | .expect _ _ => true
  | .cbar => true
  | .cbarRemote _ => false
  | .join _ => true
  | .leave _ => true
  | .spawn _ _ _ => true
  | .spawnr _ _ _ => true
  | .nexti _ => true
  | .await _ => true
  | .frameinfo _ _ => true
  | .fnew _ => true
  | .fnewWait _ => true
  | .fset _ _ _ => true
  | .ffree _ _ => true
  | .fget _ _ => true
  | .fpoll _ _ => true
  | .msign _ _ _ => true
  | .signEnqueue _ _ => false
  | .mzero _ _ _ => true
  | .mstore _ _ _ _ _ => true
  | .mscale _ _ => true
  | .serviceTurn _ => false
  | .gwin _ _ _ _ => true
  | .gwinComplete _ _ => false
  | .gdec _ _ _ => true
  | .carve _ => true
  | .carverRequest => false
  | .psub _ _ => true
  | .bopen _ => true
  | .bclose _ _ => true
  | .cam _ _ => true
  | .deck _ _ => true
  | .trace _ _ _ _ => true
  | .hitld _ _ => true
  | .sset _ _ => true
  | .tlbinv _ _ => true
  | .tlbinvComplete _ => false
  | .sfault _ _ => true
  | .xget _ _ => true
  | .xput _ _ => true
  | .variableResult _ _ => false
  | .binTimerExpire _ _ => false
  | .binPlace _ _ => false
  | .starve _ => false
  | .readmit _ => false
  | .workRequest _ => false
  | .workRequestAnswer _ => false
  | .stealRecord _ => false
  | .ack _ => false
  | .commit _ => false
  | .refuse _ => false
  | .ackTimeout _ _ => false
  | .revoke _ => false
  | .distributorRequest _ => false
  | .stealRetry _ => false
  | .completion _ => false
  | .rootCompletion _ => false
  | .frameEvict _ => false
  | .livenessProbe _ => false
  | .dieLost _ => false
  | .lossBroadcast _ _ => false
  | .sweepComplete _ => false
  | .l1Evict _ _ => false
  | .replicaMake _ _ => false
  | .replicaDrop _ _ => false
  | .leaseGrant => false
  | .regenerationEnd => false
  | .backingRead _ _ => false
  | .agingSweep => false
  | .victimRelease _ _ => false
  | .patchListing _ => false
  | .pendingIncrement _ => false
  | .diceEntry _ => false
  | .gridComplete _ _ => false
  | .carryReceive _ => false
  | .pendingDecrement _ => false
  | .rasterGrid _ => false
  | .spillCopy _ => false
  | .countReport _ => false
  | .bucketSteal _ => false
  | .bucketRetry _ => false
  | .doorbell _ _ => false
  | .queueEnable _ _ => false
  | .queueDisable _ _ => false
  | .packetTake => false
  | .launchGroupPlace _ => false
  | .preempt _ => false
  | .contextSave _ => false
  | .resume _ => false
  | .restore _ => false
  | .kill _ => false
  | .ctxKill _ _ => false
  | .stop _ _ => false
  | .stopReport _ => false
  | .dbgResume _ => false
  | .diemapWrite _ => false
  | .registerWrite _ _ _ => false
  | .apertureRead _ _ => false
  | .apertureWrite _ _ => false
  | .packageReset => false
  | .getVersion _ => false
  | .getCapabilities _ => false
  | .negotiateAlgorithms _ => false
  | .getDigests _ => false
  | .getCertificate _ _ _ _ => false
  | .challenge _ _ _ => false
  | .getMeasurements _ _ => false
  | .unsupportedRequest _ _ => false
  | .frameEdge => false
  | .genlockEdge => false
  | .milepost _ => false
  | .dispEnable _ => false
  | .linkup _ _ => false
  | .ready _ => false
  | .takeoverInput => false
  | .portRetrain _ => false
  | .portDown _ => false
  | .dieGate _ => false
  | .dieWake _ => false
  | .storeComplete _ => false
  | .frameRelease _ => false
  | .dieReset _ => false
  | .returnToService _ => false
  | .remoteAccess _ _ => false
  | .packetMirror _ => false
  | .portRetrainDone _ => false
  | .scanoutRead _ => false

end Sys2Proof
end

