-- ==== Sys2Proof/Decode.lean ====
section
/-! DEFINITION. Decoding of the words of a bundle into instructions, and the encoder (05 R97 to R119; the encoding tables
of 07 R138, 08 R184, 09 R210 and 10 R247). Decoding is total: a group of words that is not an instruction is refused
by name. -/

namespace Sys2Proof

/-- Field [lo + n - 1 : lo] of a word. -/
def fld (w lo n : Nat) : Nat := w / 2 ^ lo % 2 ^ n

/-- The register named by the seven bits from lo. -/
def regAt (w lo : Nat) : Reg := Fin.ofNat 128 (fld w lo 7)

/-- One bit of a word. -/
def bitAt (w lo : Nat) : Bool := fld w lo 1 == 1

/-- The primary opcode, bits [31:25] (05 R111). -/
def opcodeOf (w : Nat) : Nat := fld w 25 7

/-- The immediate of a word under the immediate prefix h, if any (05 R112). -/
def immAt (h : Option Nat) (w : Nat) : Imm :=
  match h with
  | none => .short (BitVec.ofNat 11 (fld w 0 11))
  | some x => .long (BitVec.ofNat 32 (x * 2 ^ 11 + fld w 0 11))

/-- OFF above a low field of 3 bits (09 R208). -/
def off8At (h : Option Nat) (w : Nat) : Off8 :=
  match h with
  | none => .short (BitVec.ofNat 8 (fld w 3 8))
  | some x => .long (BitVec.ofNat 29 (x * 2 ^ 8 + fld w 3 8))

/-- OFF above a low field of 5 bits (09 R208). -/
def off6At (h : Option Nat) (w : Nat) : Off6 :=
  match h with
  | none => .short (BitVec.ofNat 6 (fld w 5 6))
  | some x => .long (BitVec.ofNat 27 (x * 2 ^ 6 + fld w 5 6))

/-- The core selector of a c-space access, field b (09 R212). -/
def cselAt (w : Nat) : CSel :=
  if bitAt w 10 then .lit (Fin.ofNat 8 (fld w 4 3)) (Fin.ofNat 8 (fld w 7 3)) else .reg (Fin.ofNat 64 (fld w 4 6))

/-- The code of each value of Ty. -/
def Ty.code : Ty → Nat
  | .s32 => 0
  | .n32 => 1

/-- The value of Ty that a code names, if one is assigned. -/
def Ty.ofCode (n : Nat) : Option Ty :=
  if n = 0 then some .s32 else if n = 1 then some .n32 else none

/-- The code of each value of Cc. -/
def Cc.code : Cc → Nat
  | .eq => 0
  | .ne => 1
  | .ltS => 2
  | .leS => 3
  | .gtS => 4
  | .geS => 5
  | .ltN => 6
  | .leN => 7
  | .gtN => 8
  | .geN => 9

/-- The value of Cc that a code names, if one is assigned. -/
def Cc.ofCode (n : Nat) : Option Cc :=
  if n = 0 then some .eq else if n = 1 then some .ne else if n = 2 then some .ltS else if n = 3 then some .leS else
  if n = 4 then some .gtS else if n = 5 then some .geS else if n = 6 then some .ltN else if n = 7 then some .leN else
  if n = 8 then some .gtN else if n = 9 then some .geN else none

/-- The code of each value of Rnd. -/
def Rnd.code : Rnd → Nat
  | .rn => 0
  | .rz => 1
  | .ru => 2
  | .rd => 3
  | .rdi => 4

/-- The value of Rnd that a code names, if one is assigned. -/
def Rnd.ofCode (n : Nat) : Option Rnd :=
  if n = 0 then some .rn else if n = 1 then some .rz else if n = 2 then some .ru else if n = 3 then some .rd else
  if n = 4 then some .rdi else none

/-- The code of each value of FCc. -/
def FCc.code : FCc → Nat
  | .eq => 0
  | .ne => 1
  | .lt => 2
  | .le => 3
  | .gt => 4
  | .ge => 5
  | .un => 6
  | .ord => 7

/-- The value of FCc that a code names, if one is assigned. -/
def FCc.ofCode (n : Nat) : Option FCc :=
  if n = 0 then some .eq else if n = 1 then some .ne else if n = 2 then some .lt else if n = 3 then some .le else
  if n = 4 then some .gt else if n = 5 then some .ge else if n = 6 then some .un else if n = 7 then some .ord else none

/-- The code of each value of Half. -/
def Half.code : Half → Nat
  | .f16 => 0
  | .bf16 => 1

/-- The value of Half that a code names, if one is assigned. -/
def Half.ofCode (n : Nat) : Option Half :=
  if n = 0 then some .f16 else if n = 1 then some .bf16 else none

/-- The code of each value of NFmt. -/
def NFmt.code : NFmt → Nat
  | .f16 => 0
  | .bf16 => 1
  | .e4 => 2
  | .e5 => 3
  | .e3 => 4
  | .e2 => 5
  | .f4 => 6
  | .sc => 7

/-- The value of NFmt that a code names, if one is assigned. -/
def NFmt.ofCode (n : Nat) : Option NFmt :=
  if n = 0 then some .f16 else if n = 1 then some .bf16 else if n = 2 then some .e4 else if n = 3 then some .e5 else
  if n = 4 then some .e3 else if n = 5 then some .e2 else if n = 6 then some .f4 else if n = 7 then some .sc else none

/-- The code of each value of IFmt. -/
def IFmt.code : IFmt → Nat
  | .s32 => 0
  | .n32 => 1
  | .i8 => 2
  | .i4 => 3

/-- The value of IFmt that a code names, if one is assigned. -/
def IFmt.ofCode (n : Nat) : Option IFmt :=
  if n = 0 then some .s32 else if n = 1 then some .n32 else if n = 2 then some .i8 else if n = 3 then some .i4 else none

/-- The code of each value of E8. -/
def E8.code : E8 → Nat
  | .e4 => 0
  | .e5 => 1

/-- The value of E8 that a code names, if one is assigned. -/
def E8.ofCode (n : Nat) : Option E8 :=
  if n = 0 then some .e4 else if n = 1 then some .e5 else none

/-- The code of each value of XTy. -/
def XTy.code : XTy → Nat
  | .s32 => 0
  | .n32 => 1
  | .f32 => 2
  | .f16 => 3
  | .bf16 => 4

/-- The value of XTy that a code names, if one is assigned. -/
def XTy.ofCode (n : Nat) : Option XTy :=
  if n = 0 then some .s32 else if n = 1 then some .n32 else if n = 2 then some .f32 else if n = 3 then some .f16 else
  if n = 4 then some .bf16 else none

/-- The code of each value of ScanOp. -/
def ScanOp.code : ScanOp → Nat
  | .add => 0
  | .min => 1
  | .max => 2

/-- The value of ScanOp that a code names, if one is assigned. -/
def ScanOp.ofCode (n : Nat) : Option ScanOp :=
  if n = 0 then some .add else if n = 1 then some .min else if n = 2 then some .max else none

/-- The code of each value of Vote. -/
def Vote.code : Vote → Nat
  | .any => 0
  | .all => 1
  | .ballot => 2
  | .uni => 3

/-- The value of Vote that a code names, if one is assigned. -/
def Vote.ofCode (n : Nat) : Option Vote :=
  if n = 0 then some .any else if n = 1 then some .all else if n = 2 then some .ballot else if n = 3 then some .uni else none

/-- The code of each value of Size. -/
def Size.code : Size → Nat
  | .b8 => 0
  | .b16 => 1
  | .b32 => 2
  | .b64 => 3
  | .b128 => 4

/-- The value of Size that a code names, if one is assigned. -/
def Size.ofCode (n : Nat) : Option Size :=
  if n = 0 then some .b8 else if n = 1 then some .b16 else if n = 2 then some .b32 else if n = 3 then some .b64 else
  if n = 4 then some .b128 else none

/-- The code of each value of LdTy. -/
def LdTy.code : LdTy → Nat
  | .s8 => 0
  | .s16 => 1
  | .s32 => 2
  | .n8 => 3
  | .n16 => 4
  | .n32 => 5
  | .s64 => 6
  | .n64 => 7
  | .f32 => 8
  | .f16 => 9
  | .bf16 => 10
  | .e4 => 11
  | .e5 => 12
  | .e3 => 13
  | .e2 => 14
  | .f4 => 15
  | .i8 => 16
  | .i4 => 17
  | .sc => 18

/-- The value of LdTy that a code names, if one is assigned. -/
def LdTy.ofCode (n : Nat) : Option LdTy :=
  if n = 0 then some .s8 else if n = 1 then some .s16 else if n = 2 then some .s32 else if n = 3 then some .n8 else
  if n = 4 then some .n16 else if n = 5 then some .n32 else if n = 6 then some .s64 else if n = 7 then some .n64 else
  if n = 8 then some .f32 else if n = 9 then some .f16 else if n = 10 then some .bf16 else if n = 11 then some .e4 else
  if n = 12 then some .e5 else if n = 13 then some .e3 else if n = 14 then some .e2 else if n = 15 then some .f4 else
  if n = 16 then some .i8 else if n = 17 then some .i4 else if n = 18 then some .sc else none

/-- The code of each value of AtomOp. -/
def AtomOp.code : AtomOp → Nat
  | .add32 => 0
  | .and32 => 1
  | .or32 => 2
  | .xor32 => 3
  | .exch32 => 4
  | .cas32 => 5
  | .minS32 => 6
  | .minN32 => 7
  | .maxS32 => 8
  | .maxN32 => 9
  | .add64 => 10
  | .or64 => 11
  | .exch64 => 12
  | .cas64 => 13
  | .minN64 => 14
  | .maxN64 => 15

/-- The value of AtomOp that a code names, if one is assigned. -/
def AtomOp.ofCode (n : Nat) : Option AtomOp :=
  if n = 0 then some .add32 else if n = 1 then some .and32 else if n = 2 then some .or32 else if n = 3 then some .xor32 else
  if n = 4 then some .exch32 else if n = 5 then some .cas32 else if n = 6 then some .minS32 else if n = 7 then some .minN32 else
  if n = 8 then some .maxS32 else if n = 9 then some .maxN32 else if n = 10 then some .add64 else if n = 11 then some .or64 else
  if n = 12 then some .exch64 else if n = 13 then some .cas64 else if n = 14 then some .minN64 else if n = 15 then some .maxN64 else none

/-- The code of each value of MeetMode. -/
def MeetMode.code : MeetMode → Nat
  | .count => 0
  | .reconv => 1
  | .bytes => 2
  | .sign => 3

/-- The value of MeetMode that a code names, if one is assigned. -/
def MeetMode.ofCode (n : Nat) : Option MeetMode :=
  if n = 0 then some .count else if n = 1 then some .reconv else if n = 2 then some .bytes else if n = 3 then some .sign else none

/-- The code of each value of Tag. -/
def Tag.code : Tag → Nat
  | .raw => 0
  | .s32 => 1
  | .n32 => 2
  | .f32 => 3
  | .h2 => 4
  | .b2 => 5
  | .e4x4 => 6
  | .e5x4 => 7
  | .f6x5 => 8
  | .g6x5 => 9
  | .f4x8 => 10
  | .s8x4 => 11
  | .s4x8 => 12
  | .s10x3 => 13
  | .w64 => 14

/-- The value of Tag that a code names, if one is assigned. -/
def Tag.ofCode (n : Nat) : Option Tag :=
  if n = 0 then some .raw else if n = 1 then some .s32 else if n = 2 then some .n32 else if n = 3 then some .f32 else
  if n = 4 then some .h2 else if n = 5 then some .b2 else if n = 6 then some .e4x4 else if n = 7 then some .e5x4 else
  if n = 8 then some .f6x5 else if n = 9 then some .g6x5 else if n = 10 then some .f4x8 else if n = 11 then some .s8x4 else
  if n = 12 then some .s4x8 else if n = 13 then some .s10x3 else if n = 14 then some .w64 else none

/-- The code of each value of Blk. -/
def Blk.code : Blk → Nat
  | .cam => 0
  | .dice => 1
  | .rast => 2

/-- The value of Blk that a code names, if one is assigned. -/
def Blk.ofCode (n : Nat) : Option Blk :=
  if n = 0 then some .cam else if n = 1 then some .dice else if n = 2 then some .rast else none

/-- The code of each value of PfKind. -/
def PfKind.code : PfKind → Nat
  | .l1 => 0
  | .llc => 1
  | .repl => 2

/-- The value of PfKind that a code names, if one is assigned. -/
def PfKind.ofCode (n : Nat) : Option PfKind :=
  if n = 0 then some .l1 else if n = 1 then some .llc else if n = 2 then some .repl else none

/-- The code of each value of GMode. -/
def GMode.code : GMode → Nat
  | .g1 => 0
  | .g15 => 1

/-- The value of GMode that a code names, if one is assigned. -/
def GMode.ofCode (n : Nat) : Option GMode :=
  if n = 0 then some .g1 else if n = 1 then some .g15 else none

/-- The code of each value of IMode. -/
def IMode.code : IMode → Nat
  | .f32 => 0
  | .s32 => 1

/-- The value of IMode that a code names, if one is assigned. -/
def IMode.ofCode (n : Nat) : Option IMode :=
  if n = 0 then some .f32 else if n = 1 then some .s32 else none

/-- The code of each value of Scope. -/
def Scope.code : Scope → Nat
  | .page => 0
  | .space => 1

/-- The value of Scope that a code names, if one is assigned. -/
def Scope.ofCode (n : Nat) : Option Scope :=
  if n = 0 then some .page else if n = 1 then some .space else none

/-- The code of each value of Sreg. -/
def Sreg.code : Sreg → Nat
  | .tid => 0
  | .lane => 1
  | .part => 2
  | .core => 3
  | .gcore => 4
  | .cluster => 5
  | .die => 6
  | .ctx => 7
  | .frame => 8
  | .seq => 9
  | .grid => 10
  | .lgroup => 11
  | .launch => 12
  | .alloc => 13
  | .winbase => 14
  | .phase => 15
  | .winstat => 16
  | .time => 17
  | .mode => 18
  | .spawnctl => 64
  | .framearea => 65
  | .framelim => 66
  | .trapcode => 72
  | .trappc => 73
  | .trapaddr => 74
  | .trapinst => 75

/-- The value of Sreg that a code names, if one is assigned. -/
def Sreg.ofCode (n : Nat) : Option Sreg :=
  if n = 0 then some .tid else if n = 1 then some .lane else if n = 2 then some .part else if n = 3 then some .core else
  if n = 4 then some .gcore else if n = 5 then some .cluster else if n = 6 then some .die else if n = 7 then some .ctx else
  if n = 8 then some .frame else if n = 9 then some .seq else if n = 10 then some .grid else if n = 11 then some .lgroup else
  if n = 12 then some .launch else if n = 13 then some .alloc else if n = 14 then some .winbase else if n = 15 then some .phase else
  if n = 16 then some .winstat else if n = 17 then some .time else if n = 18 then some .mode else if n = 64 then some .spawnctl else
  if n = 65 then some .framearea else if n = 66 then some .framelim else if n = 72 then some .trapcode else if n = 73 then some .trappc else
  if n = 74 then some .trapaddr else if n = 75 then some .trapinst else none

/-- The code of each value of Sset. -/
def Sset.code : Sset → Nat
  | .spawnctl => 64
  | .framearea => 65
  | .framelim => 66
  | .trappc => 73

/-- The value of Sset that a code names, if one is assigned. -/
def Sset.ofCode (n : Nat) : Option Sset :=
  if n = 64 then some .spawnctl else if n = 65 then some .framearea else if n = 66 then some .framelim else if n = 73 then some .trappc else none

/-- A lane pattern from its 8-bit field (05 R113). -/
def Pat.ofByte (n : Nat) : Option Pat :=
  let x : Fin 32 := Fin.ofNat 32 (fld n 0 5)
  let p : Option Pat :=
    if fld n 5 3 = 0 then (if x = 0 then some .own else none)
    else if fld n 5 3 = 1 then some (.rot x)
    else if fld n 5 3 = 2 then some (.bc x)
    else if fld n 5 3 = 3 then some (.xr x)
    else if fld n 5 3 = 4 then (if x = 0 then some .mir else none)
    else if fld n 5 3 = 5 then some (.mw x)
    else if fld n 5 3 = 6 then some (.shu x)
    else some (.shd x)
  p.bind fun q => if q.ok then some q else none

/-- The 8-bit field of a lane pattern. -/
def Pat.byte : Pat → Nat
  | .own => 0
  | .rot x => 32 + x.val
  | .bc x => 64 + x.val
  | .xr x => 96 + x.val
  | .mir => 128
  | .mw x => 160 + x.val
  | .shu x => 192 + x.val
  | .shd x => 224 + x.val

/-- The fields of a lane-pattern prefix word (05 R113). -/
def Pats.ofWord (w : Nat) : Except Illegal Pats :=
  if fld w 24 1 = 0 then
    match Pat.ofByte (fld w 0 8), Pat.ofByte (fld w 8 8), Pat.ofByte (fld w 16 8) with
    | some a, some b, some d => .ok ⟨a, b, d⟩
    | _, _, _ => .error .badPattern
  else .error .badPrefix

/-- The high part H of an immediate prefix word (05 R112). -/
def highOfWord (w : Nat) : Except Illegal Nat :=
  if fld w 21 4 = 0 then .ok (fld w 0 21) else .error .badPrefix

/-- An instruction built from a code that must be assigned. -/
def withCode {α : Type} (c : Option α) (e : Illegal) (f : α → Except Illegal Instr) : Except Illegal Instr :=
  match c with
  | some x => f x
  | none => .error e

/-- The forms that accept a lane-pattern prefix: 0x01 to 0x10 but LI, and 0x28 to 0x47 (05 R115). -/
def takesLanes (op : Nat) : Bool := (1 ≤ op && op ≤ 0x10 && op != 0x0F) || (0x28 ≤ op && op ≤ 0x47)

/-- The forms that accept an immediate prefix (05 R115; column Pfx of 07 R138 and 09 R210). -/
def takesHigh (op : Nat) : Bool :=
  op == 0x02 || op == 0x0F || op == 0x1E || op == 0x1F || (0x4C ≤ op && op ≤ 0x51) || op == 0x58

/-- Opcode 0x01: ADD, SUB, ADD64, SUB64. -/
def decodeOp01 (px : Option Pats) (w : Nat) : Except Illegal Instr :=
  if fld w 1 3 = 0 then withCode (Ty.ofCode (fld w 0 1)) .unassignedForm fun t => .ok (.add px (regAt w 18) (regAt w 11) (regAt w 4) t)
  else if fld w 1 3 = 1 then withCode (Ty.ofCode (fld w 0 1)) .unassignedForm fun t => .ok (.sub px (regAt w 18) (regAt w 11) (regAt w 4) t)
  else if fld w 1 3 = 2 then .ok (.add64 px (regAt w 18) (regAt w 11) (regAt w 4) (bitAt w 0))
  else if fld w 1 3 = 3 then .ok (.sub64 px (regAt w 18) (regAt w 11) (regAt w 4) (bitAt w 0))
  else .error .unassignedForm

/-- Opcode 0x02: ADDI. -/
def decodeOp02 (px : Option Pats) (h : Option Nat) (w : Nat) : Except Illegal Instr :=
  .ok (.addi px (regAt w 18) (regAt w 11) (immAt h w))

/-- Opcode 0x03: MUL, MULHI. -/
def decodeOp03 (px : Option Pats) (w : Nat) : Except Illegal Instr :=
  if fld w 1 3 = 0 then withCode (Ty.ofCode (fld w 0 1)) .unassignedForm fun t => .ok (.mul px (regAt w 18) (regAt w 11) (regAt w 4) t)
  else if fld w 1 3 = 1 then withCode (Ty.ofCode (fld w 0 1)) .unassignedForm fun t => .ok (.mulhi px (regAt w 18) (regAt w 11) (regAt w 4) t)
  else .error .unassignedForm

/-- Opcode 0x04: MAD. -/
def decodeOp04 (px : Option Pats) (w : Nat) : Except Illegal Instr :=
  if fld w 1 3 = 0 then withCode (Ty.ofCode (fld w 0 1)) .unassignedForm fun t => .ok (.mad px (regAt w 18) (regAt w 11) (regAt w 4) t)
  else .error .unassignedForm

/-- Opcode 0x05: MIN, MAX, ABS, NEG. -/
def decodeOp05 (px : Option Pats) (w : Nat) : Except Illegal Instr :=
  if fld w 1 3 = 0 then withCode (Ty.ofCode (fld w 0 1)) .unassignedForm fun t => .ok (.minI px (regAt w 18) (regAt w 11) (regAt w 4) t)
  else if fld w 1 3 = 1 then withCode (Ty.ofCode (fld w 0 1)) .unassignedForm fun t => .ok (.maxI px (regAt w 18) (regAt w 11) (regAt w 4) t)
  else if fld w 0 11 = 4 then .ok (.absI px (regAt w 18) (regAt w 11))
  else if fld w 0 11 = 5 then .ok (.neg px (regAt w 18) (regAt w 11))
  else .error .unassignedForm

/-- Opcode 0x06: AND, OR, XOR, ANDN. -/
def decodeOp06 (px : Option Pats) (w : Nat) : Except Illegal Instr :=
  if fld w 0 4 = 0 then .ok (.andB px (regAt w 18) (regAt w 11) (regAt w 4))
  else if fld w 0 4 = 1 then .ok (.orB px (regAt w 18) (regAt w 11) (regAt w 4))
  else if fld w 0 4 = 2 then .ok (.xorB px (regAt w 18) (regAt w 11) (regAt w 4))
  else if fld w 0 4 = 3 then .ok (.andn px (regAt w 18) (regAt w 11) (regAt w 4))
  else .error .unassignedForm

/-- Opcode 0x07: SHL, SHR, SHA, ROT. -/
def decodeOp07 (px : Option Pats) (w : Nat) : Except Illegal Instr :=
  if fld w 0 4 = 0 then .ok (.shl px (regAt w 18) (regAt w 11) (regAt w 4))
  else if fld w 0 4 = 1 then .ok (.shr px (regAt w 18) (regAt w 11) (regAt w 4))
  else if fld w 0 4 = 2 then .ok (.sha px (regAt w 18) (regAt w 11) (regAt w 4))
  else if fld w 0 4 = 3 then .ok (.rot px (regAt w 18) (regAt w 11) (regAt w 4))
  else .error .unassignedForm

/-- Opcode 0x08: SHL_IMM, SHR_IMM, SHA_IMM, ROT_IMM. -/
def decodeOp08 (px : Option Pats) (w : Nat) : Except Illegal Instr :=
  if fld w 5 6 = 0 then .ok (.shlImm px (regAt w 18) (regAt w 11) (Fin.ofNat 32 (fld w 0 5)))
  else if fld w 5 6 = 1 then .ok (.shrImm px (regAt w 18) (regAt w 11) (Fin.ofNat 32 (fld w 0 5)))
  else if fld w 5 6 = 2 then .ok (.shaImm px (regAt w 18) (regAt w 11) (Fin.ofNat 32 (fld w 0 5)))
  else if fld w 5 6 = 3 then .ok (.rotImm px (regAt w 18) (regAt w 11) (Fin.ofNat 32 (fld w 0 5)))
  else .error .unassignedForm

/-- Opcode 0x09: BFX. -/
def decodeOp09 (px : Option Pats) (w : Nat) : Except Illegal Instr :=
  .ok (.bfx px (regAt w 18) (regAt w 11) (bitAt w 10) (Fin.ofNat 32 (fld w 5 5)) (Fin.ofNat 32 (fld w 0 5)))

/-- Opcode 0x0A: BFI. -/
def decodeOp0A (px : Option Pats) (w : Nat) : Except Illegal Instr :=
  if fld w 10 1 = 0 then .ok (.bfi px (regAt w 18) (regAt w 11) (Fin.ofNat 32 (fld w 5 5)) (Fin.ofNat 32 (fld w 0 5)))
  else .error .unassignedForm

/-- Opcode 0x0B: POPC, CLZ, BREV. -/
def decodeOp0B (px : Option Pats) (w : Nat) : Except Illegal Instr :=
  if fld w 0 11 = 0 then .ok (.popc px (regAt w 18) (regAt w 11))
  else if fld w 0 11 = 1 then .ok (.clz px (regAt w 18) (regAt w 11))
  else if fld w 0 11 = 2 then .ok (.brev px (regAt w 18) (regAt w 11))
  else .error .unassignedForm

/-- Opcode 0x0C: CMP. -/
def decodeOp0C (px : Option Pats) (w : Nat) : Except Illegal Instr :=
  withCode (Cc.ofCode (fld w 0 4)) .unassignedForm fun c => .ok (.cmp px (regAt w 18) (regAt w 11) (regAt w 4) c)

/-- Opcode 0x0D: SEL. -/
def decodeOp0D (px : Option Pats) (w : Nat) : Except Illegal Instr :=
  if fld w 0 4 = 0 then .ok (.sel px (regAt w 18) (regAt w 11) (regAt w 4))
  else .error .unassignedForm

/-- Opcode 0x0E: MOV, MOV_B64. -/
def decodeOp0E (px : Option Pats) (w : Nat) : Except Illegal Instr :=
  if fld w 0 11 = 0 then .ok (.mov px (regAt w 18) (regAt w 11))
  else if fld w 0 11 = 1 then .ok (.movB64 px (regAt w 18) (regAt w 11))
  else .error .unassignedForm

/-- Opcode 0x0F: LI. -/
def decodeOp0F (h : Option Nat) (w : Nat) : Except Illegal Instr :=
  if fld w 15 3 = 0 then withCode (Tag.ofCode (fld w 11 4)) .badTag fun t => .ok (.li (regAt w 18) t (immAt h w))
  else .error .unassignedForm

/-- Opcode 0x10: LEA. -/
def decodeOp10 (px : Option Pats) (w : Nat) : Except Illegal Instr :=
  .ok (.lea px (regAt w 18) (regAt w 11) (regAt w 4) (bitAt w 3) (Fin.ofNat 8 (fld w 0 3)))

/-- Opcode 0x1C: BR. -/
def decodeOp1C (w : Nat) : Except Illegal Instr :=
  .ok (.br (BitVec.ofNat 25 (fld w 0 25)))

/-- Opcode 0x1D: CALL. -/
def decodeOp1D (w : Nat) : Except Illegal Instr :=
  .ok (.call (BitVec.ofNat 25 (fld w 0 25)))

/-- Opcode 0x1E: BZ. -/
def decodeOp1E (h : Option Nat) (w : Nat) : Except Illegal Instr :=
  if fld w 18 7 = 0 then .ok (.bz (regAt w 11) (immAt h w))
  else .error .unassignedForm

/-- Opcode 0x1F: BNZ. -/
def decodeOp1F (h : Option Nat) (w : Nat) : Except Illegal Instr :=
  if fld w 18 7 = 0 then .ok (.bnz (regAt w 11) (immAt h w))
  else .error .unassignedForm

/-- Opcode 0x20: JR, RET, JR_B64. -/
def decodeOp20 (w : Nat) : Except Illegal Instr :=
  if fld w 0 11 = 0 ∧ fld w 18 7 = 0 then .ok (.jr (regAt w 11))
  else if fld w 0 11 = 1 ∧ fld w 18 7 = 0 then .ok (.ret (regAt w 11))
  else if fld w 0 11 = 2 ∧ fld w 18 7 = 0 then .ok (.jrB64 (regAt w 11))
  else .error .unassignedForm

/-- Opcode 0x21: EXIT, YIELD, NOP. -/
def decodeOp21 (w : Nat) : Except Illegal Instr :=
  if fld w 0 25 = 0 then .ok (.exitT)
  else if fld w 0 25 = 1 then .ok (.yield)
  else if fld w 0 25 = 2 then .ok (.nop)
  else .error .unassignedForm

/-- Opcode 0x22: WIN_IMM, WIN_REG, GROW_IMM, GROW_REG, SHRINK_IMM, SHRINK_REG. -/
def decodeOp22 (w : Nat) : Except Illegal Instr :=
  if fld w 6 19 = 0 then .ok (.winImm (Fin.ofNat 64 (fld w 0 6)))
  else if fld w 0 11 = 256 ∧ fld w 18 7 = 0 then .ok (.winReg (regAt w 11))
  else if fld w 6 19 = 8 then .ok (.growImm (Fin.ofNat 64 (fld w 0 6)))
  else if fld w 0 11 = 768 ∧ fld w 18 7 = 0 then .ok (.growReg (regAt w 11))
  else if fld w 6 19 = 16 then .ok (.shrinkImm (Fin.ofNat 64 (fld w 0 6)))
  else if fld w 0 11 = 1280 ∧ fld w 18 7 = 0 then .ok (.shrinkReg (regAt w 11))
  else .error .unassignedForm

/-- Opcode 0x23: TRAP, BRK, ERET, ERET_RETRY. -/
def decodeOp23 (w : Nat) : Except Illegal Instr :=
  if fld w 0 11 = 0 ∧ fld w 18 7 = 0 then .ok (.trap (regAt w 11))
  else if fld w 0 25 = 1 then .ok (.brk)
  else if fld w 0 25 = 2 then .ok (.eret)
  else if fld w 0 25 = 3 then .ok (.eretRetry)
  else .error .unassignedForm

/-- Opcode 0x24: SREG. -/
def decodeOp24 (w : Nat) : Except Illegal Instr :=
  if fld w 11 7 = 0 then withCode (Sreg.ofCode (fld w 0 11)) .unassignedForm fun s => .ok (.sreg (regAt w 18) s)
  else .error .unassignedForm

/-- Opcode 0x25: TIME, CAPS. -/
def decodeOp25 (w : Nat) : Except Illegal Instr :=
  if fld w 0 18 = 0 then .ok (.time (regAt w 18))
  else if fld w 0 11 = 1 then .ok (.caps (regAt w 18) (Fin.ofNat 128 (fld w 11 7)))
  else .error .unassignedForm

/-- Opcode 0x26: TRAPVEC. -/
def decodeOp26 (w : Nat) : Except Illegal Instr :=
  if fld w 0 11 = 0 ∧ fld w 18 7 = 0 then .ok (.trapvec (regAt w 11))
  else .error .unassignedForm

/-- Opcode 0x28: FADD. -/
def decodeOp28 (px : Option Pats) (w : Nat) : Except Illegal Instr :=
  withCode (Rnd.ofCode (fld w 0 3)) .badRounding fun r => .ok (.fadd px (regAt w 18) (regAt w 11) (regAt w 4) (bitAt w 3) r)

/-- Opcode 0x29: FSUB. -/
def decodeOp29 (px : Option Pats) (w : Nat) : Except Illegal Instr :=
  withCode (Rnd.ofCode (fld w 0 3)) .badRounding fun r => .ok (.fsub px (regAt w 18) (regAt w 11) (regAt w 4) (bitAt w 3) r)

/-- Opcode 0x2A: FMUL. -/
def decodeOp2A (px : Option Pats) (w : Nat) : Except Illegal Instr :=
  withCode (Rnd.ofCode (fld w 0 3)) .badRounding fun r => .ok (.fmul px (regAt w 18) (regAt w 11) (regAt w 4) (bitAt w 3) r)

/-- Opcode 0x2B: FFMA. -/
def decodeOp2B (px : Option Pats) (w : Nat) : Except Illegal Instr :=
  withCode (Rnd.ofCode (fld w 0 3)) .badRounding fun r => .ok (.ffma px (regAt w 18) (regAt w 11) (regAt w 4) (bitAt w 3) r)

/-- Opcode 0x2C: FMIN, FMAX. -/
def decodeOp2C (px : Option Pats) (w : Nat) : Except Illegal Instr :=
  if fld w 0 3 = 0 then .ok (.fmin px (regAt w 18) (regAt w 11) (regAt w 4) (bitAt w 3))
  else if fld w 0 3 = 1 then .ok (.fmax px (regAt w 18) (regAt w 11) (regAt w 4) (bitAt w 3))
  else .error .unassignedForm

/-- Opcode 0x2D: FCMP. -/
def decodeOp2D (px : Option Pats) (w : Nat) : Except Illegal Instr :=
  withCode (FCc.ofCode (fld w 0 3)) .unassignedForm fun c => .ok (.fcmp px (regAt w 18) (regAt w 11) (regAt w 4) (bitAt w 3) c)

/-- Opcode 0x2E: FCLASS. -/
def decodeOp2E (px : Option Pats) (w : Nat) : Except Illegal Instr :=
  if fld w 0 11 = 0 then .ok (.fclass px (regAt w 18) (regAt w 11))
  else .error .unassignedForm

/-- Opcode 0x2F: FRCP, FRSQ, FSQRT. -/
def decodeOp2F (px : Option Pats) (w : Nat) : Except Illegal Instr :=
  if fld w 0 3 = 0 ∧ fld w 4 7 = 0 then .ok (.frcp px (regAt w 18) (regAt w 11) (bitAt w 3))
  else if fld w 0 3 = 1 ∧ fld w 4 7 = 0 then .ok (.frsq px (regAt w 18) (regAt w 11) (bitAt w 3))
  else if fld w 0 3 = 2 ∧ fld w 4 7 = 0 then .ok (.fsqrt px (regAt w 18) (regAt w 11) (bitAt w 3))
  else .error .unassignedForm

/-- Opcode 0x30: FEXP2, FLOG2, FSIN, FCOS. -/
def decodeOp30 (px : Option Pats) (w : Nat) : Except Illegal Instr :=
  if fld w 0 3 = 0 ∧ fld w 4 7 = 0 then .ok (.fexp2 px (regAt w 18) (regAt w 11) (bitAt w 3))
  else if fld w 0 3 = 1 ∧ fld w 4 7 = 0 then .ok (.flog2 px (regAt w 18) (regAt w 11) (bitAt w 3))
  else if fld w 0 3 = 2 ∧ fld w 4 7 = 0 then .ok (.fsin px (regAt w 18) (regAt w 11) (bitAt w 3))
  else if fld w 0 3 = 3 ∧ fld w 4 7 = 0 then .ok (.fcos px (regAt w 18) (regAt w 11) (bitAt w 3))
  else .error .unassignedForm

/-- Opcode 0x31: HADD2. -/
def decodeOp31 (px : Option Pats) (w : Nat) : Except Illegal Instr :=
  withCode (Half.ofCode (fld w 2 1)) .unassignedForm fun m => withCode (Rnd.ofCode (fld w 0 2)) .badRounding fun r => .ok (.hadd2 px (regAt w 18) (regAt w 11) (regAt w 4) (bitAt w 3) m r)

/-- Opcode 0x32: HMUL2. -/
def decodeOp32 (px : Option Pats) (w : Nat) : Except Illegal Instr :=
  withCode (Half.ofCode (fld w 2 1)) .unassignedForm fun m => withCode (Rnd.ofCode (fld w 0 2)) .badRounding fun r => .ok (.hmul2 px (regAt w 18) (regAt w 11) (regAt w 4) (bitAt w 3) m r)

/-- Opcode 0x33: HFMA2. -/
def decodeOp33 (px : Option Pats) (w : Nat) : Except Illegal Instr :=
  withCode (Half.ofCode (fld w 2 1)) .unassignedForm fun m => withCode (Rnd.ofCode (fld w 0 2)) .badRounding fun r => .ok (.hfma2 px (regAt w 18) (regAt w 11) (regAt w 4) (bitAt w 3) m r)

/-- Opcode 0x34: CVT_NARROW, CVT_WIDEN. -/
def decodeOp34 (px : Option Pats) (w : Nat) : Except Illegal Instr :=
  if fld w 3 1 = 0 then withCode (Rnd.ofCode (fld w 4 3)) .badRounding fun r => withCode (NFmt.ofCode (fld w 0 3)) .unassignedForm fun m => .ok (.cvtNarrow px (regAt w 18) (regAt w 11) (Fin.ofNat 8 (fld w 8 3)) (bitAt w 7) r m)
  else if fld w 3 5 = 1 then withCode (NFmt.ofCode (fld w 0 3)) .unassignedForm fun m => .ok (.cvtWiden px (regAt w 18) (regAt w 11) (Fin.ofNat 8 (fld w 8 3)) m)
  else .error .unassignedForm

/-- Opcode 0x35: CVT_F2I. -/
def decodeOp35 (px : Option Pats) (w : Nat) : Except Illegal Instr :=
  if fld w 2 2 = 0 ∧ fld w 7 1 = 0 then withCode (Rnd.ofCode (fld w 4 3)) .badRounding fun r => withCode (IFmt.ofCode (fld w 0 2)) .unassignedForm fun t => .ok (.cvtF2i px (regAt w 18) (regAt w 11) (Fin.ofNat 8 (fld w 8 3)) r t)
  else .error .unassignedForm

/-- Opcode 0x36: CVT_I2F. -/
def decodeOp36 (px : Option Pats) (w : Nat) : Except Illegal Instr :=
  if fld w 2 2 = 0 ∧ fld w 7 1 = 0 then withCode (Rnd.ofCode (fld w 4 3)) .badRounding fun r => withCode (IFmt.ofCode (fld w 0 2)) .unassignedForm fun t => .ok (.cvtI2f px (regAt w 18) (regAt w 11) (Fin.ofNat 8 (fld w 8 3)) r t)
  else .error .unassignedForm

/-- Opcode 0x37: CVT_PACK_F16, CVT_UNPACK_F16, CVT_PACK_E, CVT_UNPACK_E, CVT_PACK_I8, CVT_UNPACK_I8. -/
def decodeOp37 (px : Option Pats) (w : Nat) : Except Illegal Instr :=
  if fld w 1 3 = 0 ∧ fld w 8 3 = 0 then withCode (Rnd.ofCode (fld w 4 3)) .badRounding fun r => withCode (Half.ofCode (fld w 0 1)) .unassignedForm fun t => .ok (.cvtPackF16 px (regAt w 18) (regAt w 11) (bitAt w 7) r t)
  else if fld w 1 10 = 1 then withCode (Half.ofCode (fld w 0 1)) .unassignedForm fun t => .ok (.cvtUnpackF16 px (regAt w 18) (regAt w 11) t)
  else if fld w 1 3 = 2 ∧ fld w 8 3 = 0 then withCode (Rnd.ofCode (fld w 4 3)) .badRounding fun r => withCode (E8.ofCode (fld w 0 1)) .unassignedForm fun t => .ok (.cvtPackE px (regAt w 18) (regAt w 11) (bitAt w 7) r t)
  else if fld w 1 10 = 3 then withCode (E8.ofCode (fld w 0 1)) .unassignedForm fun t => .ok (.cvtUnpackE px (regAt w 18) (regAt w 11) t)
  else if fld w 0 11 = 8 then .ok (.cvtPackI8 px (regAt w 18) (regAt w 11))
  else if fld w 0 11 = 9 then .ok (.cvtUnpackI8 px (regAt w 18) (regAt w 11))
  else .error .unassignedForm

/-- Opcode 0x38: TAG. -/
def decodeOp38 (px : Option Pats) (w : Nat) : Except Illegal Instr :=
  if fld w 4 7 = 0 then withCode (Tag.ofCode (fld w 0 4)) .badTag fun t => .ok (.tagOp px (regAt w 18) (regAt w 11) t)
  else .error .unassignedForm

/-- Opcode 0x40: REDADD. -/
def decodeOp40 (px : Option Pats) (w : Nat) : Except Illegal Instr :=
  if fld w 8 3 = 0 then withCode (Rnd.ofCode (fld w 4 3)) .badRounding fun r => withCode (XTy.ofCode (fld w 0 4)) .unassignedForm fun t => .ok (.redadd px (regAt w 18) (regAt w 11) (bitAt w 7) r t)
  else .error .unassignedForm

/-- Opcode 0x41: REDMIN. -/
def decodeOp41 (px : Option Pats) (w : Nat) : Except Illegal Instr :=
  if fld w 8 3 = 0 then withCode (Rnd.ofCode (fld w 4 3)) .badRounding fun r => withCode (XTy.ofCode (fld w 0 4)) .unassignedForm fun t => .ok (.redmin px (regAt w 18) (regAt w 11) (bitAt w 7) r t)
  else .error .unassignedForm

/-- Opcode 0x42: REDMAX. -/
def decodeOp42 (px : Option Pats) (w : Nat) : Except Illegal Instr :=
  if fld w 8 3 = 0 then withCode (Rnd.ofCode (fld w 4 3)) .badRounding fun r => withCode (XTy.ofCode (fld w 0 4)) .unassignedForm fun t => .ok (.redmax px (regAt w 18) (regAt w 11) (bitAt w 7) r t)
  else .error .unassignedForm

/-- Opcode 0x43: SCAN. -/
def decodeOp43 (px : Option Pats) (w : Nat) : Except Illegal Instr :=
  withCode (ScanOp.ofCode (fld w 8 2)) .unassignedForm fun o => withCode (Rnd.ofCode (fld w 4 3)) .badRounding fun r => withCode (XTy.ofCode (fld w 0 4)) .unassignedForm fun t => .ok (.scan px (regAt w 18) (regAt w 11) (bitAt w 10) o (bitAt w 7) r t)

/-- Opcode 0x44: VOTE. -/
def decodeOp44 (px : Option Pats) (w : Nat) : Except Illegal Instr :=
  if fld w 2 9 = 0 then withCode (Vote.ofCode (fld w 0 2)) .unassignedForm fun v => .ok (.vote px (regAt w 18) (regAt w 11) v)
  else .error .unassignedForm

/-- Opcode 0x45: ELECT, ELECT_COND. -/
def decodeOp45 (px : Option Pats) (w : Nat) : Except Illegal Instr :=
  if fld w 0 18 = 0 then .ok (.elect px (regAt w 18))
  else if fld w 0 11 = 1 then .ok (.electCond px (regAt w 18) (regAt w 11))
  else .error .unassignedForm

/-- Opcode 0x46: MEMBERS, MEMBERS_COUNT. -/
def decodeOp46 (px : Option Pats) (w : Nat) : Except Illegal Instr :=
  if fld w 0 18 = 0 then .ok (.members px (regAt w 18))
  else if fld w 0 18 = 1 then .ok (.membersCount px (regAt w 18))
  else .error .unassignedForm

/-- Opcode 0x47: RANKOF, RANKOF_COND. -/
def decodeOp47 (px : Option Pats) (w : Nat) : Except Illegal Instr :=
  if fld w 0 18 = 0 then .ok (.rankof px (regAt w 18))
  else if fld w 0 11 = 1 then .ok (.rankofCond px (regAt w 18) (regAt w 11))
  else .error .unassignedForm

/-- Opcode 0x4C: LD_G. -/
def decodeOp4C (h : Option Nat) (w : Nat) : Except Illegal Instr :=
  withCode (Size.ofCode (fld w 0 3)) .unassignedForm fun z => .ok (.ldG (regAt w 18) (regAt w 11) (off8At h w) z)

/-- Opcode 0x4D: LD_G_TYPED. -/
def decodeOp4D (h : Option Nat) (w : Nat) : Except Illegal Instr :=
  withCode (LdTy.ofCode (fld w 0 5)) .unassignedForm fun t => .ok (.ldGTyped (regAt w 18) (regAt w 11) (off6At h w) t)

/-- Opcode 0x4E: ST_G. -/
def decodeOp4E (h : Option Nat) (w : Nat) : Except Illegal Instr :=
  withCode (Size.ofCode (fld w 0 3)) .unassignedForm fun z => .ok (.stG (regAt w 18) (regAt w 11) (off8At h w) z)

/-- Opcode 0x4F: LD_S. -/
def decodeOp4F (h : Option Nat) (w : Nat) : Except Illegal Instr :=
  withCode (Size.ofCode (fld w 0 3)) .unassignedForm fun z => .ok (.ldS (regAt w 18) (regAt w 11) (off8At h w) z)

/-- Opcode 0x50: LD_S_TYPED. -/
def decodeOp50 (h : Option Nat) (w : Nat) : Except Illegal Instr :=
  withCode (LdTy.ofCode (fld w 0 5)) .unassignedForm fun t => .ok (.ldSTyped (regAt w 18) (regAt w 11) (off6At h w) t)

/-- Opcode 0x51: ST_S. -/
def decodeOp51 (h : Option Nat) (w : Nat) : Except Illegal Instr :=
  withCode (Size.ofCode (fld w 0 3)) .unassignedForm fun z => .ok (.stS (regAt w 18) (regAt w 11) (off8At h w) z)

/-- Opcode 0x52: LD_C, ST_C. -/
def decodeOp52 (w : Nat) : Except Illegal Instr :=
  if fld w 3 1 = 0 then withCode (Size.ofCode (fld w 0 3)) .unassignedForm fun z => .ok (.ldC (regAt w 18) (regAt w 11) (cselAt w) z)
  else if fld w 3 1 = 1 then withCode (Size.ofCode (fld w 0 3)) .unassignedForm fun z => .ok (.stC (regAt w 18) (regAt w 11) (cselAt w) z)
  else .error .unassignedForm

/-- Opcode 0x53: LD_K, ST_K. -/
def decodeOp53 (w : Nat) : Except Illegal Instr :=
  if fld w 3 1 = 0 then withCode (Size.ofCode (fld w 0 3)) .unassignedForm fun z => .ok (.ldK (regAt w 18) (regAt w 11) (BitVec.ofNat 7 (fld w 4 7)) z)
  else if fld w 3 1 = 1 then withCode (Size.ofCode (fld w 0 3)) .unassignedForm fun z => .ok (.stK (regAt w 18) (regAt w 11) (BitVec.ofNat 7 (fld w 4 7)) z)
  else .error .unassignedForm

/-- Opcode 0x54: ATOM. -/
def decodeOp54 (w : Nat) : Except Illegal Instr :=
  withCode (AtomOp.ofCode (fld w 0 4)) .unassignedForm fun op => .ok (.atom (regAt w 18) (regAt w 11) (regAt w 4) op)

/-- Opcode 0x55: APPEND. -/
def decodeOp55 (w : Nat) : Except Illegal Instr :=
  if fld w 3 1 = 0 then withCode (Size.ofCode (fld w 0 3)) .unassignedForm fun z => .ok (.append (regAt w 18) (regAt w 11) (regAt w 4) z)
  else .error .unassignedForm

/-- Opcode 0x56: SEAL. -/
def decodeOp56 (w : Nat) : Except Illegal Instr :=
  if fld w 0 11 = 0 then .ok (.seal (regAt w 18) (regAt w 11))
  else .error .unassignedForm

/-- Opcode 0x57: COPY. -/
def decodeOp57 (w : Nat) : Except Illegal Instr :=
  if fld w 0 11 = 0 ∧ fld w 18 7 = 0 then .ok (.copy (regAt w 11))
  else .error .unassignedForm

/-- Opcode 0x58: PREFETCH. -/
def decodeOp58 (h : Option Nat) (w : Nat) : Except Illegal Instr :=
  if fld w 18 7 = 0 then withCode (PfKind.ofCode (fld w 0 3)) .unassignedForm fun k => .ok (.prefetch (regAt w 11) (off8At h w) k)
  else .error .unassignedForm

/-- Opcode 0x60: MEETINIT. -/
def decodeOp60 (w : Nat) : Except Illegal Instr :=
  if fld w 7 18 = 0 then withCode (MeetMode.ofCode (fld w 5 2)) .unassignedForm fun e => .ok (.meetinit e (Fin.ofNat 32 (fld w 0 5)))
  else .error .unassignedForm

/-- Opcode 0x61: ARRIVE, WAIT, SYNC, PHASE. -/
def decodeOp61 (w : Nat) : Except Illegal Instr :=
  if fld w 5 13 = 0 then .ok (.arrive (regAt w 18) (Fin.ofNat 32 (fld w 0 5)))
  else if fld w 5 6 = 1 ∧ fld w 18 7 = 0 then .ok (.wait (regAt w 11) (Fin.ofNat 32 (fld w 0 5)))
  else if fld w 5 13 = 2 then .ok (.sync (regAt w 18) (Fin.ofNat 32 (fld w 0 5)))
  else if fld w 5 13 = 3 then .ok (.phase (regAt w 18) (Fin.ofNat 32 (fld w 0 5)))
  else .error .unassignedForm

/-- Opcode 0x62: EXPECT. -/
def decodeOp62 (w : Nat) : Except Illegal Instr :=
  if fld w 0 11 = 0 ∧ fld w 23 2 = 0 then .ok (.expect (Fin.ofNat 32 (fld w 18 5)) (regAt w 11))
  else .error .unassignedForm

/-- Opcode 0x63: CBAR. -/
def decodeOp63 (w : Nat) : Except Illegal Instr :=
  if fld w 0 25 = 0 then .ok (.cbar)
  else .error .unassignedForm

/-- Opcode 0x64: JOIN, LEAVE. -/
def decodeOp64 (w : Nat) : Except Illegal Instr :=
  if fld w 5 20 = 0 then .ok (.join (Fin.ofNat 32 (fld w 0 5)))
  else if fld w 5 20 = 1 then .ok (.leave (Fin.ofNat 32 (fld w 0 5)))
  else .error .unassignedForm

/-- Opcode 0x65: SPAWN. -/
def decodeOp65 (w : Nat) : Except Illegal Instr :=
  if fld w 0 4 = 0 ∧ fld w 23 2 = 0 then .ok (.spawn (Fin.ofNat 32 (fld w 18 5)) (regAt w 11) (regAt w 4))
  else .error .unassignedForm

/-- Opcode 0x66: SPAWNR. -/
def decodeOp66 (w : Nat) : Except Illegal Instr :=
  if fld w 0 4 = 0 ∧ fld w 23 2 = 0 then .ok (.spawnr (Fin.ofNat 32 (fld w 18 5)) (regAt w 11) (regAt w 4))
  else .error .unassignedForm

/-- Opcode 0x67: NEXTI. -/
def decodeOp67 (w : Nat) : Except Illegal Instr :=
  if fld w 0 18 = 0 then .ok (.nexti (regAt w 18))
  else .error .unassignedForm

/-- Opcode 0x68: AWAIT. -/
def decodeOp68 (w : Nat) : Except Illegal Instr :=
  if fld w 0 18 = 0 then .ok (.await (regAt w 18))
  else .error .unassignedForm

/-- Opcode 0x69: FRAMEINFO. -/
def decodeOp69 (w : Nat) : Except Illegal Instr :=
  if fld w 0 11 = 0 ∧ fld w 14 4 = 0 then .ok (.frameinfo (regAt w 18) (Fin.ofNat 8 (fld w 11 3)))
  else .error .unassignedForm

/-- Opcode 0x6A: FNEW, FNEW_WAIT, FSET, FFREE. -/
def decodeOp6A (w : Nat) : Except Illegal Instr :=
  if fld w 0 18 = 0 then .ok (.fnew (regAt w 18))
  else if fld w 0 18 = 3 then .ok (.fnewWait (regAt w 18))
  else if fld w 0 4 = 1 then .ok (.fset (regAt w 18) (regAt w 11) (regAt w 4))
  else if fld w 0 11 = 2 then .ok (.ffree (regAt w 18) (regAt w 11))
  else .error .unassignedForm

/-- Opcode 0x6B: FGET, FPOLL. -/
def decodeOp6B (w : Nat) : Except Illegal Instr :=
  if fld w 0 11 = 0 then .ok (.fget (regAt w 18) (regAt w 11))
  else if fld w 0 11 = 1 then .ok (.fpoll (regAt w 18) (regAt w 11))
  else .error .unassignedForm

/-- Opcode 0x6C: MSIGN. -/
def decodeOp6C (w : Nat) : Except Illegal Instr :=
  if fld w 5 6 = 0 then .ok (.msign (regAt w 18) (regAt w 11) (Fin.ofNat 32 (fld w 0 5)))
  else .error .unassignedForm

/-- Opcode 0x6D: MZERO. -/
def decodeOp6D (w : Nat) : Except Illegal Instr :=
  if fld w 11 14 = 0 then withCode (IMode.ofCode (fld w 10 1)) .unassignedForm fun e => .ok (.mzero e (Fin.ofNat 16 (fld w 6 4)) (Fin.ofNat 64 (fld w 0 6)))
  else .error .unassignedForm

/-- Opcode 0x6E: MSTORE. -/
def decodeOp6E (w : Nat) : Except Illegal Instr :=
  withCode (Rnd.ofCode (fld w 0 3)) .badRounding fun r => .ok (.mstore (regAt w 18) (regAt w 11) (regAt w 4) (bitAt w 3) r)

/-- Opcode 0x6F: MSCALE. -/
def decodeOp6F (w : Nat) : Except Illegal Instr :=
  if fld w 0 4 = 0 ∧ fld w 18 7 = 0 then .ok (.mscale (regAt w 11) (regAt w 4))
  else .error .unassignedForm

/-- Opcode 0x70: GWIN. -/
def decodeOp70 (w : Nat) : Except Illegal Instr :=
  if fld w 0 4 = 0 ∧ fld w 22 3 = 0 then withCode (GMode.ofCode (fld w 21 1)) .unassignedForm fun g => .ok (.gwin g (Fin.ofNat 8 (fld w 18 3)) (regAt w 11) (regAt w 4))
  else .error .unassignedForm

/-- Opcode 0x71: GDEC. -/
def decodeOp71 (w : Nat) : Except Illegal Instr :=
  if fld w 0 4 = 0 ∧ fld w 7 4 = 0 then .ok (.gdec (regAt w 18) (regAt w 11) (Fin.ofNat 8 (fld w 4 3)))
  else .error .unassignedForm

/-- Opcode 0x72: CARVE. -/
def decodeOp72 (w : Nat) : Except Illegal Instr :=
  if fld w 0 11 = 0 ∧ fld w 18 7 = 0 then .ok (.carve (regAt w 11))
  else .error .unassignedForm

/-- Opcode 0x76: PSUB. -/
def decodeOp76 (w : Nat) : Except Illegal Instr :=
  if fld w 0 11 = 0 then .ok (.psub (regAt w 18) (regAt w 11))
  else .error .unassignedForm

/-- Opcode 0x77: BOPEN, BCLOSE. -/
def decodeOp77 (w : Nat) : Except Illegal Instr :=
  if fld w 0 18 = 0 then .ok (.bopen (regAt w 18))
  else if fld w 0 11 = 1 then .ok (.bclose (regAt w 18) (regAt w 11))
  else .error .unassignedForm

/-- Opcode 0x78: CAM, DECK. -/
def decodeOp78 (w : Nat) : Except Illegal Instr :=
  if fld w 0 4 = 0 ∧ fld w 6 5 = 0 ∧ fld w 18 7 = 0 then withCode (Blk.ofCode (fld w 4 2)) .unassignedForm fun k => .ok (.cam (regAt w 11) k)
  else if fld w 0 4 = 1 ∧ fld w 18 7 = 0 then .ok (.deck (regAt w 11) (regAt w 4))
  else .error .unassignedForm

/-- Opcode 0x79: TRACE. -/
def decodeOp79 (w : Nat) : Except Illegal Instr :=
  if fld w 1 3 = 0 then .ok (.trace (regAt w 18) (regAt w 11) (regAt w 4) (bitAt w 0))
  else .error .unassignedForm

/-- Opcode 0x7A: HITLD. -/
def decodeOp7A (w : Nat) : Except Illegal Instr :=
  if fld w 0 11 = 0 ∧ fld w 14 4 = 0 then .ok (.hitld (regAt w 18) (Fin.ofNat 8 (fld w 11 3)))
  else .error .unassignedForm

/-- Opcode 0x7B: SSET, TLBINV, SFAULT, XGET, XPUT. -/
def decodeOp7B (w : Nat) : Except Illegal Instr :=
  if fld w 0 4 = 0 ∧ fld w 18 7 = 0 then withCode (Sset.ofCode (fld w 4 7)) .unassignedForm fun s => .ok (.sset (regAt w 11) s)
  else if fld w 0 4 = 1 ∧ fld w 18 7 = 0 then withCode (Scope.ofCode (fld w 4 7)) .unassignedForm fun s => .ok (.tlbinv (regAt w 11) s)
  else if fld w 0 4 = 2 ∧ fld w 18 7 = 0 then .ok (.sfault (regAt w 11) (regAt w 4))
  else if fld w 0 11 = 3 then .ok (.xget (regAt w 18) (Fin.ofNat 128 (fld w 11 7)))
  else if fld w 0 11 = 4 then .ok (.xput (Fin.ofNat 128 (fld w 18 7)) (regAt w 11))
  else .error .unassignedForm

/-- Opcodes 0x01 to 0x10 (05 R117). -/
def decodeInteger (px : Option Pats) (h : Option Nat) (op w : Nat) : Except Illegal Instr :=
  if op = 0x01 then decodeOp01 px w
  else if op = 0x02 then decodeOp02 px h w
  else if op = 0x03 then decodeOp03 px w
  else if op = 0x04 then decodeOp04 px w
  else if op = 0x05 then decodeOp05 px w
  else if op = 0x06 then decodeOp06 px w
  else if op = 0x07 then decodeOp07 px w
  else if op = 0x08 then decodeOp08 px w
  else if op = 0x09 then decodeOp09 px w
  else if op = 0x0A then decodeOp0A px w
  else if op = 0x0B then decodeOp0B px w
  else if op = 0x0C then decodeOp0C px w
  else if op = 0x0D then decodeOp0D px w
  else if op = 0x0E then decodeOp0E px w
  else if op = 0x0F then decodeOp0F h w
  else if op = 0x10 then decodeOp10 px w
  else .error .unassignedOpcode

/-- Opcodes 0x1C to 0x26 (05 R117). -/
def decodeControl (h : Option Nat) (op w : Nat) : Except Illegal Instr :=
  if op = 0x1C then decodeOp1C w
  else if op = 0x1D then decodeOp1D w
  else if op = 0x1E then decodeOp1E h w
  else if op = 0x1F then decodeOp1F h w
  else if op = 0x20 then decodeOp20 w
  else if op = 0x21 then decodeOp21 w
  else if op = 0x22 then decodeOp22 w
  else if op = 0x23 then decodeOp23 w
  else if op = 0x24 then decodeOp24 w
  else if op = 0x25 then decodeOp25 w
  else if op = 0x26 then decodeOp26 w
  else .error .unassignedOpcode

/-- Opcodes 0x28 to 0x38 (05 R117). -/
def decodeFloat (px : Option Pats) (op w : Nat) : Except Illegal Instr :=
  if op = 0x28 then decodeOp28 px w
  else if op = 0x29 then decodeOp29 px w
  else if op = 0x2A then decodeOp2A px w
  else if op = 0x2B then decodeOp2B px w
  else if op = 0x2C then decodeOp2C px w
  else if op = 0x2D then decodeOp2D px w
  else if op = 0x2E then decodeOp2E px w
  else if op = 0x2F then decodeOp2F px w
  else if op = 0x30 then decodeOp30 px w
  else if op = 0x31 then decodeOp31 px w
  else if op = 0x32 then decodeOp32 px w
  else if op = 0x33 then decodeOp33 px w
  else if op = 0x34 then decodeOp34 px w
  else if op = 0x35 then decodeOp35 px w
  else if op = 0x36 then decodeOp36 px w
  else if op = 0x37 then decodeOp37 px w
  else if op = 0x38 then decodeOp38 px w
  else .error .unassignedOpcode

/-- Opcodes 0x40 to 0x47 (05 R117). -/
def decodeLanes (px : Option Pats) (op w : Nat) : Except Illegal Instr :=
  if op = 0x40 then decodeOp40 px w
  else if op = 0x41 then decodeOp41 px w
  else if op = 0x42 then decodeOp42 px w
  else if op = 0x43 then decodeOp43 px w
  else if op = 0x44 then decodeOp44 px w
  else if op = 0x45 then decodeOp45 px w
  else if op = 0x46 then decodeOp46 px w
  else if op = 0x47 then decodeOp47 px w
  else .error .unassignedOpcode

/-- Opcodes 0x4C to 0x58 (05 R117). -/
def decodeMemory (h : Option Nat) (op w : Nat) : Except Illegal Instr :=
  if op = 0x4C then decodeOp4C h w
  else if op = 0x4D then decodeOp4D h w
  else if op = 0x4E then decodeOp4E h w
  else if op = 0x4F then decodeOp4F h w
  else if op = 0x50 then decodeOp50 h w
  else if op = 0x51 then decodeOp51 h w
  else if op = 0x52 then decodeOp52 w
  else if op = 0x53 then decodeOp53 w
  else if op = 0x54 then decodeOp54 w
  else if op = 0x55 then decodeOp55 w
  else if op = 0x56 then decodeOp56 w
  else if op = 0x57 then decodeOp57 w
  else if op = 0x58 then decodeOp58 h w
  else .error .unassignedOpcode

/-- Opcodes 0x60 to 0x6B (05 R117). -/
def decodeGraph (op w : Nat) : Except Illegal Instr :=
  if op = 0x60 then decodeOp60 w
  else if op = 0x61 then decodeOp61 w
  else if op = 0x62 then decodeOp62 w
  else if op = 0x63 then decodeOp63 w
  else if op = 0x64 then decodeOp64 w
  else if op = 0x65 then decodeOp65 w
  else if op = 0x66 then decodeOp66 w
  else if op = 0x67 then decodeOp67 w
  else if op = 0x68 then decodeOp68 w
  else if op = 0x69 then decodeOp69 w
  else if op = 0x6A then decodeOp6A w
  else if op = 0x6B then decodeOp6B w
  else .error .unassignedOpcode

/-- Opcodes 0x6C to 0x72 (05 R117). -/
def decodeEngine (op w : Nat) : Except Illegal Instr :=
  if op = 0x6C then decodeOp6C w
  else if op = 0x6D then decodeOp6D w
  else if op = 0x6E then decodeOp6E w
  else if op = 0x6F then decodeOp6F w
  else if op = 0x70 then decodeOp70 w
  else if op = 0x71 then decodeOp71 w
  else if op = 0x72 then decodeOp72 w
  else .error .unassignedOpcode

/-- Opcodes 0x76 to 0x7F (05 R117). -/
def decodeRender (op w : Nat) : Except Illegal Instr :=
  if op = 0x76 then decodeOp76 w
  else if op = 0x77 then decodeOp77 w
  else if op = 0x78 then decodeOp78 w
  else if op = 0x79 then decodeOp79 w
  else if op = 0x7A then decodeOp7A w
  else if op = 0x7B then decodeOp7B w
  else if op = 0x7C then .error .badPrefix
  else if op = 0x7D then .error .badPrefix
  else if op = 0x7E then .error .alwaysIllegal
  else if op = 0x7F then .error .alwaysIllegal
  else .error .unassignedOpcode

/-- The instruction of one word with its prefixes, before the checks of `check` (05 R115, R117). -/
def decodeWord (px : Option Pats) (h : Option Nat) (w : Nat) : Except Illegal Instr :=
  let op := opcodeOf w
  if px.isSome && !takesLanes op then .error .badPrefix
  else if h.isSome && !takesHigh op then .error .badPrefix
  else if op < 0x1C then decodeInteger px h op w
  else if op < 0x28 then decodeControl h op w
  else if op < 0x40 then decodeFloat px op w
  else if op < 0x4C then decodeLanes px op w
  else if op < 0x60 then decodeMemory h op w
  else if op < 0x6C then decodeGraph op w
  else if op < 0x76 then decodeEngine op w
  else decodeRender op w

/-- Refuses an instruction whose operands fail an encoding check. -/
def checked (r : Except Illegal Instr) : Except Illegal Instr :=
  match r with
  | .error e => .error e
  | .ok i =>
    match check i with
    | some e => .error e
    | none => .ok i

/-- The last part of a group: the instruction word itself, after n prefix words (05 R105, R115). -/
def decodeLast (px : Option Pats) (h : Option Nat) (n : Nat) (ws : List (Nat × Nat)) : Except Illegal (Instr × Nat) :=
  match ws with
  | [] => .error .badPrefix
  | (w, _) :: _ =>
    match checked (decodeWord px h w) with
    | .ok i => .ok (i, n + 1)
    | .error e => .error e

/-- After an optional lane-pattern prefix: an optional immediate prefix, then the instruction (05 R115). -/
def decodeHigh (px : Option Pats) (n : Nat) (ws : List (Nat × Nat)) : Except Illegal (Instr × Nat) :=
  match ws with
  | [] => .error .badPrefix
  | (w, stall) :: rest =>
    if opcodeOf w = 0x7C then
      if stall = 0 then
        match highOfWord w with
        | .ok h => decodeLast px (some h) (n + 1) rest
        | .error e => .error e
      else .error .prefixStall
    else decodeLast px none n ws

/-- One prefix group from the words of a bundle, each with its stall count: the instruction and the number of words it
takes (05 R105, R111 to R119). -/
def decodeGroup (ws : List (Nat × Nat)) : Except Illegal (Instr × Nat) :=
  match ws with
  | [] => .error .badPrefix
  | (w, stall) :: rest =>
    if opcodeOf w = 0x7D then
      if stall = 0 then
        match Pats.ofWord w with
        | .ok p => decodeHigh (some p) 1 rest
        | .error e => .error e
      else .error .prefixStall
    else decodeHigh none 0 ws

/-- The words of an instruction given by nbits bits, the first word lowest, then words of zeros up to the longest group. -/
def wordsOfBits (nbits w : Nat) : List (Nat × Nat) :=
  let v := w % 2 ^ nbits
  [(fld v 0 32, 0), (fld v 32 32, 0), (fld v 64 32, 0)]

/-- The instruction that the decoder reads from the bits w of a row of the opcode table, the first word in bits 31..0. -/
def decodeTableWord (nbits w : Nat) : Option Instr :=
  match decodeGroup (wordsOfBits nbits w) with
  | .ok (i, _) => some i
  | .error _ => none

/-- The word of a lane-pattern prefix, if there is one. -/
def pxWords : Option Pats → List Nat
  | none => []
  | some p => [0xFA000000 + p.a.byte + p.b.byte * 2 ^ 8 + p.d.byte * 2 ^ 16]

/-- A word whose immediate v of 32 bits needs an immediate prefix: the prefix, then the word (05 R112). -/
def highWords (base v : Nat) : List Nat := [0xF8000000 + v / 2 ^ 11, base + v % 2 ^ 11]

/-- The words of an instruction with an immediate, base being the word without it. -/
def Imm.words (base : Nat) : Imm → List Nat
  | .short i => [base + i.toNat]
  | .long v => highWords base v.toNat

/-- The words of an access with OFF above a low field of 3 bits. -/
def Off8.words (base low : Nat) : Off8 → List Nat
  | .short o => [base + o.toNat * 2 ^ 3 + low]
  | .long o => highWords base (o.toNat * 2 ^ 3 + low)

/-- The words of an access with OFF above a low field of 5 bits. -/
def Off6.words (base low : Nat) : Off6 → List Nat
  | .short o => [base + o.toNat * 2 ^ 5 + low]
  | .long o => highWords base (o.toNat * 2 ^ 5 + low)

/-- Field b of a c-space access. -/
def CSel.code : CSel → Nat
  | .lit sel off => 64 + off.val * 2 ^ 3 + sel.val
  | .reg v => v.val

/-- The value of a one-bit field. -/
def bit (b : Bool) : Nat := if b then 1 else 0

/-- A word of the fixed bits `base` and of fields, each with its lowest bit. -/
def pack (base : Nat) : List (Nat × Nat) → Nat
  | [] => base
  | (v, lo) :: rest => pack (base + v * 2 ^ lo) rest

/-- The words of an instruction, written from the encoding tables of the spec; a row without an encoding has none. -/
def encode (i : Instr) : List Nat :=
  match i with
  | .add px d a b t => pxWords px ++ [pack 0x02000000 [(d.val, 18), (a.val, 11), (b.val, 4), (t.code, 0)]]
  | .sub px d a b t => pxWords px ++ [pack 0x02000002 [(d.val, 18), (a.val, 11), (b.val, 4), (t.code, 0)]]
  | .add64 px d a b t => pxWords px ++ [pack 0x02000004 [(d.val, 18), (a.val, 11), (b.val, 4), (bit t, 0)]]
  | .sub64 px d a b t => pxWords px ++ [pack 0x02000006 [(d.val, 18), (a.val, 11), (b.val, 4), (bit t, 0)]]
  | .addi px d a i => pxWords px ++ i.words (pack 0x04000000 [(d.val, 18), (a.val, 11)])
  | .mul px d a b t => pxWords px ++ [pack 0x06000000 [(d.val, 18), (a.val, 11), (b.val, 4), (t.code, 0)]]
  | .mulhi px d a b t => pxWords px ++ [pack 0x06000002 [(d.val, 18), (a.val, 11), (b.val, 4), (t.code, 0)]]
  | .mad px d a b t => pxWords px ++ [pack 0x08000000 [(d.val, 18), (a.val, 11), (b.val, 4), (t.code, 0)]]
  | .minI px d a b t => pxWords px ++ [pack 0x0A000000 [(d.val, 18), (a.val, 11), (b.val, 4), (t.code, 0)]]
  | .maxI px d a b t => pxWords px ++ [pack 0x0A000002 [(d.val, 18), (a.val, 11), (b.val, 4), (t.code, 0)]]
  | .absI px d a => pxWords px ++ [pack 0x0A000004 [(d.val, 18), (a.val, 11)]]
  | .neg px d a => pxWords px ++ [pack 0x0A000005 [(d.val, 18), (a.val, 11)]]
  | .andB px d a b => pxWords px ++ [pack 0x0C000000 [(d.val, 18), (a.val, 11), (b.val, 4)]]
  | .orB px d a b => pxWords px ++ [pack 0x0C000001 [(d.val, 18), (a.val, 11), (b.val, 4)]]
  | .xorB px d a b => pxWords px ++ [pack 0x0C000002 [(d.val, 18), (a.val, 11), (b.val, 4)]]
  | .andn px d a b => pxWords px ++ [pack 0x0C000003 [(d.val, 18), (a.val, 11), (b.val, 4)]]
  | .shl px d a b => pxWords px ++ [pack 0x0E000000 [(d.val, 18), (a.val, 11), (b.val, 4)]]
  | .shr px d a b => pxWords px ++ [pack 0x0E000001 [(d.val, 18), (a.val, 11), (b.val, 4)]]
  | .sha px d a b => pxWords px ++ [pack 0x0E000002 [(d.val, 18), (a.val, 11), (b.val, 4)]]
  | .rot px d a b => pxWords px ++ [pack 0x0E000003 [(d.val, 18), (a.val, 11), (b.val, 4)]]
  | .shlImm px d a n => pxWords px ++ [pack 0x10000000 [(d.val, 18), (a.val, 11), (n.val, 0)]]
  | .shrImm px d a n => pxWords px ++ [pack 0x10000020 [(d.val, 18), (a.val, 11), (n.val, 0)]]
  | .shaImm px d a n => pxWords px ++ [pack 0x10000040 [(d.val, 18), (a.val, 11), (n.val, 0)]]
  | .rotImm px d a n => pxWords px ++ [pack 0x10000060 [(d.val, 18), (a.val, 11), (n.val, 0)]]
  | .bfx px d a x l p => pxWords px ++ [pack 0x12000000 [(d.val, 18), (a.val, 11), (bit x, 10), (l.val, 5), (p.val, 0)]]
  | .bfi px d a l p => pxWords px ++ [pack 0x14000000 [(d.val, 18), (a.val, 11), (l.val, 5), (p.val, 0)]]
  | .popc px d a => pxWords px ++ [pack 0x16000000 [(d.val, 18), (a.val, 11)]]
  | .clz px d a => pxWords px ++ [pack 0x16000001 [(d.val, 18), (a.val, 11)]]
  | .brev px d a => pxWords px ++ [pack 0x16000002 [(d.val, 18), (a.val, 11)]]
  | .cmp px d a b c => pxWords px ++ [pack 0x18000000 [(d.val, 18), (a.val, 11), (b.val, 4), (c.code, 0)]]
  | .sel px d a b => pxWords px ++ [pack 0x1A000000 [(d.val, 18), (a.val, 11), (b.val, 4)]]
  | .mov px d a => pxWords px ++ [pack 0x1C000000 [(d.val, 18), (a.val, 11)]]
  | .movB64 px d a => pxWords px ++ [pack 0x1C000001 [(d.val, 18), (a.val, 11)]]
  | .li d t i => i.words (pack 0x1E000000 [(d.val, 18), (t.code, 11)])
  | .lea px d a b x s => pxWords px ++ [pack 0x20000000 [(d.val, 18), (a.val, 11), (b.val, 4), (bit x, 3), (s.val, 0)]]
  | .br o => [pack 0x38000000 [(o.toNat, 0)]]
  | .call o => [pack 0x3A000000 [(o.toNat, 0)]]
  | .bz a i => i.words (pack 0x3C000000 [(a.val, 11)])
  | .bnz a i => i.words (pack 0x3E000000 [(a.val, 11)])
  | .jr a => [pack 0x40000000 [(a.val, 11)]]
  | .ret a => [pack 0x40000001 [(a.val, 11)]]
  | .jrB64 a => [pack 0x40000002 [(a.val, 11)]]
  | .exitT => [0x42000000]
  | .yield => [0x42000001]
  | .nop => [0x42000002]
  | .winImm n => [pack 0x44000000 [(n.val, 0)]]
  | .winReg a => [pack 0x44000100 [(a.val, 11)]]
  | .growImm n => [pack 0x44000200 [(n.val, 0)]]
  | .growReg a => [pack 0x44000300 [(a.val, 11)]]
  | .shrinkImm n => [pack 0x44000400 [(n.val, 0)]]
  | .shrinkReg a => [pack 0x44000500 [(a.val, 11)]]
  | .trap a => [pack 0x46000000 [(a.val, 11)]]
  | .brk => [0x46000001]
  | .eret => [0x46000002]
  | .eretRetry => [0x46000003]
  | .sreg d s => [pack 0x48000000 [(d.val, 18), (s.code, 0)]]
  | .time d => [pack 0x4A000000 [(d.val, 18)]]
  | .caps d k => [pack 0x4A000001 [(d.val, 18), (k.val, 11)]]
  | .trapvec a => [pack 0x4C000000 [(a.val, 11)]]
  | .fadd px d a b f r => pxWords px ++ [pack 0x50000000 [(d.val, 18), (a.val, 11), (b.val, 4), (bit f, 3), (r.code, 0)]]
  | .fsub px d a b f r => pxWords px ++ [pack 0x52000000 [(d.val, 18), (a.val, 11), (b.val, 4), (bit f, 3), (r.code, 0)]]
  | .fmul px d a b f r => pxWords px ++ [pack 0x54000000 [(d.val, 18), (a.val, 11), (b.val, 4), (bit f, 3), (r.code, 0)]]
  | .ffma px d a b f r => pxWords px ++ [pack 0x56000000 [(d.val, 18), (a.val, 11), (b.val, 4), (bit f, 3), (r.code, 0)]]
  | .fmin px d a b f => pxWords px ++ [pack 0x58000000 [(d.val, 18), (a.val, 11), (b.val, 4), (bit f, 3)]]
  | .fmax px d a b f => pxWords px ++ [pack 0x58000001 [(d.val, 18), (a.val, 11), (b.val, 4), (bit f, 3)]]
  | .fcmp px d a b f c => pxWords px ++ [pack 0x5A000000 [(d.val, 18), (a.val, 11), (b.val, 4), (bit f, 3), (c.code, 0)]]
  | .fclass px d a => pxWords px ++ [pack 0x5C000000 [(d.val, 18), (a.val, 11)]]
  | .frcp px d a f => pxWords px ++ [pack 0x5E000000 [(d.val, 18), (a.val, 11), (bit f, 3)]]
  | .frsq px d a f => pxWords px ++ [pack 0x5E000001 [(d.val, 18), (a.val, 11), (bit f, 3)]]
  | .fsqrt px d a f => pxWords px ++ [pack 0x5E000002 [(d.val, 18), (a.val, 11), (bit f, 3)]]
  | .fexp2 px d a f => pxWords px ++ [pack 0x60000000 [(d.val, 18), (a.val, 11), (bit f, 3)]]
  | .flog2 px d a f => pxWords px ++ [pack 0x60000001 [(d.val, 18), (a.val, 11), (bit f, 3)]]
  | .fsin px d a f => pxWords px ++ [pack 0x60000002 [(d.val, 18), (a.val, 11), (bit f, 3)]]
  | .fcos px d a f => pxWords px ++ [pack 0x60000003 [(d.val, 18), (a.val, 11), (bit f, 3)]]
  | .hadd2 px d a b f m r => pxWords px ++ [pack 0x62000000 [(d.val, 18), (a.val, 11), (b.val, 4), (bit f, 3), (m.code, 2), (r.code, 0)]]
  | .hmul2 px d a b f m r => pxWords px ++ [pack 0x64000000 [(d.val, 18), (a.val, 11), (b.val, 4), (bit f, 3), (m.code, 2), (r.code, 0)]]
  | .hfma2 px d a b f m r => pxWords px ++ [pack 0x66000000 [(d.val, 18), (a.val, 11), (b.val, 4), (bit f, 3), (m.code, 2), (r.code, 0)]]
  | .cvtNarrow px d a k s r m => pxWords px ++ [pack 0x68000000 [(d.val, 18), (a.val, 11), (k.val, 8), (bit s, 7), (r.code, 4), (m.code, 0)]]
  | .cvtWiden px d a k m => pxWords px ++ [pack 0x68000008 [(d.val, 18), (a.val, 11), (k.val, 8), (m.code, 0)]]
  | .cvtF2i px d a k r t => pxWords px ++ [pack 0x6A000000 [(d.val, 18), (a.val, 11), (k.val, 8), (r.code, 4), (t.code, 0)]]
  | .cvtI2f px d a k r t => pxWords px ++ [pack 0x6C000000 [(d.val, 18), (a.val, 11), (k.val, 8), (r.code, 4), (t.code, 0)]]
  | .cvtPackF16 px d a s r t => pxWords px ++ [pack 0x6E000000 [(d.val, 18), (a.val, 11), (bit s, 7), (r.code, 4), (t.code, 0)]]
  | .cvtUnpackF16 px d a t => pxWords px ++ [pack 0x6E000002 [(d.val, 18), (a.val, 11), (t.code, 0)]]
  | .cvtPackE px d a s r t => pxWords px ++ [pack 0x6E000004 [(d.val, 18), (a.val, 11), (bit s, 7), (r.code, 4), (t.code, 0)]]
  | .cvtUnpackE px d a t => pxWords px ++ [pack 0x6E000006 [(d.val, 18), (a.val, 11), (t.code, 0)]]
  | .cvtPackI8 px d a => pxWords px ++ [pack 0x6E000008 [(d.val, 18), (a.val, 11)]]
  | .cvtUnpackI8 px d a => pxWords px ++ [pack 0x6E000009 [(d.val, 18), (a.val, 11)]]
  | .tagOp px d a t => pxWords px ++ [pack 0x70000000 [(d.val, 18), (a.val, 11), (t.code, 0)]]
  | .redadd px d a f r t => pxWords px ++ [pack 0x80000000 [(d.val, 18), (a.val, 11), (bit f, 7), (r.code, 4), (t.code, 0)]]
  | .redmin px d a f r t => pxWords px ++ [pack 0x82000000 [(d.val, 18), (a.val, 11), (bit f, 7), (r.code, 4), (t.code, 0)]]
  | .redmax px d a f r t => pxWords px ++ [pack 0x84000000 [(d.val, 18), (a.val, 11), (bit f, 7), (r.code, 4), (t.code, 0)]]
  | .scan px d a x o f r t => pxWords px ++ [pack 0x86000000 [(d.val, 18), (a.val, 11), (bit x, 10), (o.code, 8), (bit f, 7), (r.code, 4), (t.code, 0)]]
  | .vote px d a v => pxWords px ++ [pack 0x88000000 [(d.val, 18), (a.val, 11), (v.code, 0)]]
  | .elect px d => pxWords px ++ [pack 0x8A000000 [(d.val, 18)]]
  | .electCond px d a => pxWords px ++ [pack 0x8A000001 [(d.val, 18), (a.val, 11)]]
  | .members px d => pxWords px ++ [pack 0x8C000000 [(d.val, 18)]]
  | .membersCount px d => pxWords px ++ [pack 0x8C000001 [(d.val, 18)]]
  | .rankof px d => pxWords px ++ [pack 0x8E000000 [(d.val, 18)]]
  | .rankofCond px d a => pxWords px ++ [pack 0x8E000001 [(d.val, 18), (a.val, 11)]]
  | .ldG d a o z => o.words (pack 0x98000000 [(d.val, 18), (a.val, 11)]) z.code
  | .ldGTyped d a o t => o.words (pack 0x9A000000 [(d.val, 18), (a.val, 11)]) t.code
  | .stG d a o z => o.words (pack 0x9C000000 [(d.val, 18), (a.val, 11)]) z.code
  | .ldS d a o z => o.words (pack 0x9E000000 [(d.val, 18), (a.val, 11)]) z.code
  | .ldSTyped d a o t => o.words (pack 0xA0000000 [(d.val, 18), (a.val, 11)]) t.code
  | .stS d a o z => o.words (pack 0xA2000000 [(d.val, 18), (a.val, 11)]) z.code
  | .ldC d a b z => [pack 0xA4000000 [(d.val, 18), (a.val, 11), (b.code, 4), (z.code, 0)]]
  | .stC d a b z => [pack 0xA4000008 [(d.val, 18), (a.val, 11), (b.code, 4), (z.code, 0)]]
  | .ldK d a b z => [pack 0xA6000000 [(d.val, 18), (a.val, 11), (b.toNat, 4), (z.code, 0)]]
  | .stK d a b z => [pack 0xA6000008 [(d.val, 18), (a.val, 11), (b.toNat, 4), (z.code, 0)]]
  | .atom d a b op => [pack 0xA8000000 [(d.val, 18), (a.val, 11), (b.val, 4), (op.code, 0)]]
  | .append d a b z => [pack 0xAA000000 [(d.val, 18), (a.val, 11), (b.val, 4), (z.code, 0)]]
  | .seal d a => [pack 0xAC000000 [(d.val, 18), (a.val, 11)]]
  | .sealComplete _ => []
  | .copy a => [pack 0xAE000000 [(a.val, 11)]]
  | .copyStart _ => []
  | .copyBytesLand _ _ _ _ => []
  | .copyFailure _ _ => []
  | .prefetch a o k => o.words (pack 0xB0000000 [(a.val, 11)]) k.code
  | .meetinit e m => [pack 0xC0000000 [(e.code, 5), (m.val, 0)]]
  | .arrive d m => [pack 0xC2000000 [(d.val, 18), (m.val, 0)]]
  | .wait a m => [pack 0xC2000020 [(a.val, 11), (m.val, 0)]]
  | .sync d m => [pack 0xC2000040 [(d.val, 18), (m.val, 0)]]
  | .phase d m => [pack 0xC2000060 [(d.val, 18), (m.val, 0)]]
  | .expect m a => [pack 0xC4000000 [(m.val, 18), (a.val, 11)]]
  | .cbar => [0xC6000000]
  | .cbarRemote _ => []
  | .join m => [pack 0xC8000000 [(m.val, 0)]]
  | .leave m => [pack 0xC8000020 [(m.val, 0)]]
  | .spawn l a b => [pack 0xCA000000 [(l.val, 18), (a.val, 11), (b.val, 4)]]
  | .spawnr l a b => [pack 0xCC000000 [(l.val, 18), (a.val, 11), (b.val, 4)]]
  | .nexti d => [pack 0xCE000000 [(d.val, 18)]]
  | .await d => [pack 0xD0000000 [(d.val, 18)]]
  | .frameinfo d w => [pack 0xD2000000 [(d.val, 18), (w.val, 11)]]
  | .fnew d => [pack 0xD4000000 [(d.val, 18)]]
  | .fnewWait d => [pack 0xD4000003 [(d.val, 18)]]
  | .fset d a b => [pack 0xD4000001 [(d.val, 18), (a.val, 11), (b.val, 4)]]
  | .ffree d a => [pack 0xD4000002 [(d.val, 18), (a.val, 11)]]
  | .fget d a => [pack 0xD6000000 [(d.val, 18), (a.val, 11)]]
  | .fpoll d a => [pack 0xD6000001 [(d.val, 18), (a.val, 11)]]
  | .msign d a m => [pack 0xD8000000 [(d.val, 18), (a.val, 11), (m.val, 0)]]
  | .signEnqueue _ _ => []
  | .mzero e q s => [pack 0xDA000000 [(e.code, 10), (q.val, 6), (s.val, 0)]]
  | .mstore d a b s r => [pack 0xDC000000 [(d.val, 18), (a.val, 11), (b.val, 4), (bit s, 3), (r.code, 0)]]
  | .mscale a b => [pack 0xDE000000 [(a.val, 11), (b.val, 4)]]
  | .serviceTurn _ => []
  | .gwin g w a b => [pack 0xE0000000 [(g.code, 21), (w.val, 18), (a.val, 11), (b.val, 4)]]
  | .gwinComplete _ _ => []
  | .gdec d a w => [pack 0xE2000000 [(d.val, 18), (a.val, 11), (w.val, 4)]]
  | .carve a => [pack 0xE4000000 [(a.val, 11)]]
  | .carverRequest => []
  | .psub d a => [pack 0xEC000000 [(d.val, 18), (a.val, 11)]]
  | .bopen d => [pack 0xEE000000 [(d.val, 18)]]
  | .bclose d a => [pack 0xEE000001 [(d.val, 18), (a.val, 11)]]
  | .cam a k => [pack 0xF0000000 [(a.val, 11), (k.code, 4)]]
  | .deck a b => [pack 0xF0000001 [(a.val, 11), (b.val, 4)]]
  | .trace d a b y => [pack 0xF2000000 [(d.val, 18), (a.val, 11), (b.val, 4), (bit y, 0)]]
  | .hitld d f => [pack 0xF4000000 [(d.val, 18), (f.val, 11)]]
  | .sset a s => [pack 0xF6000000 [(a.val, 11), (s.code, 4)]]
  | .tlbinv a s => [pack 0xF6000001 [(a.val, 11), (s.code, 4)]]
  | .tlbinvComplete _ => []
  | .sfault a b => [pack 0xF6000002 [(a.val, 11), (b.val, 4)]]
  | .xget d k => [pack 0xF6000003 [(d.val, 18), (k.val, 11)]]
  | .xput k a => [pack 0xF6000004 [(k.val, 18), (a.val, 11)]]
  | .variableResult _ _ => []
  | .binTimerExpire _ _ => []
  | .binPlace _ _ => []
  | .starve _ => []
  | .readmit _ => []
  | .workRequest _ => []
  | .workRequestAnswer _ => []
  | .stealRecord _ => []
  | .ack _ => []
  | .commit _ => []
  | .refuse _ => []
  | .ackTimeout _ _ => []
  | .revoke _ => []
  | .distributorRequest _ => []
  | .stealRetry _ => []
  | .completion _ => []
  | .rootCompletion _ => []
  | .frameEvict _ => []
  | .livenessProbe _ => []
  | .dieLost _ => []
  | .lossBroadcast _ _ => []
  | .sweepComplete _ => []
  | .l1Evict _ _ => []
  | .replicaMake _ _ => []
  | .replicaDrop _ _ => []
  | .leaseGrant => []
  | .regenerationEnd => []
  | .backingRead _ _ => []
  | .agingSweep => []
  | .victimRelease _ _ => []
  | .patchListing _ => []
  | .pendingIncrement _ => []
  | .diceEntry _ => []
  | .gridComplete _ _ => []
  | .carryReceive _ => []
  | .pendingDecrement _ => []
  | .rasterGrid _ => []
  | .spillCopy _ => []
  | .countReport _ => []
  | .bucketSteal _ => []
  | .bucketRetry _ => []
  | .doorbell _ _ => []
  | .queueEnable _ _ => []
  | .queueDisable _ _ => []
  | .packetTake => []
  | .launchGroupPlace _ => []
  | .preempt _ => []
  | .contextSave _ => []
  | .resume _ => []
  | .restore _ => []
  | .kill _ => []
  | .ctxKill _ _ => []
  | .stop _ _ => []
  | .stopReport _ => []
  | .dbgResume _ => []
  | .diemapWrite _ => []
  | .registerWrite _ _ _ => []
  | .apertureRead _ _ => []
  | .apertureWrite _ _ => []
  | .packageReset => []
  | .getVersion _ => []
  | .getCapabilities _ => []
  | .negotiateAlgorithms _ => []
  | .getDigests _ => []
  | .getCertificate _ _ _ _ => []
  | .challenge _ _ _ => []
  | .getMeasurements _ _ => []
  | .unsupportedRequest _ _ => []
  | .frameEdge => []
  | .genlockEdge => []
  | .milepost _ => []
  | .dispEnable _ => []
  | .linkup _ _ => []
  | .ready _ => []
  | .takeoverInput => []
  | .portRetrain _ => []
  | .portDown _ => []
  | .dieGate _ => []
  | .dieWake _ => []
  | .storeComplete _ => []
  | .frameRelease _ => []
  | .dieReset _ => []
  | .returnToService _ => []
  | .remoteAccess _ _ => []
  | .packetMirror _ => []
  | .portRetrainDone _ => []
  | .scanoutRead _ => []

end Sys2Proof
end

