-- ==== Sys2Proof/Config.lean ====
section
/-! DEFINITION. What is fixed for the machine and not state: sizes that the spec states, and the free values, opaque
constants for values that the spec leaves open (log 16, log 20). -/

namespace Sys2Proof

/-- A byte of a free value. The argument is the state's counter of free values. -/
opaque Config.freeByte : Nat → BitVec 8

/-- A number of a free value: the place, among the things that a choice of the part may take, of the one it takes: the line that
leaves a full L1 (log 13), the frame that leaves a full frame cache (log 60), the Causeway port of an access (log 16). -/
opaque Config.freeIndex : Nat → Nat

/-- SHA-384 of a message (20 R397, R398; log 20). -/
opaque Config.sha384 : List (BitVec 8) → BitVec 384

/-- The signature that a die's identity key makes over a message (20 R397; log 20). -/
opaque Config.sign : Nat → List (BitVec 8) → BitVec 768

/-- The certificate chain in slot 0 of a die (20 R397; log 20). -/
opaque Config.chain : Nat → List (BitVec 8)

/-- The firmware of the image in a boot slot, as a base die holds it: the slot, the physical die, and the configuration word that
the image's signed part carries (20 R396, R398; log 20). -/
opaque Config.firmware : Nat → Nat → BitVec 32 → List (BitVec 8)

/-- Lanes of a partition, partitions of a core, contexts of a lane (01 R18). -/
def Config.lanes : Nat := 32
def Config.parts : Nat := 4
def Config.contexts : Nat := 16

/-- Cores of a die before harvest (00 R9). -/
def Config.dieCores : Nat := 36

/-- Frame references are numbers: global core number times this, plus the index of the frame on that core (01 R34, R38). -/
def Config.frameSpan : Nat := 2 ^ 20

/-- Extent of a scratchpad and of a vault (09 R204). -/
def Config.spadSize : Nat := 0x40000
def Config.vaultSize : Nat := 0x800000

/-- Lines of an L1: 768 KiB of 128-byte lines (14 R311). -/
def Config.l1Lines : Nat := 6144

/-- First byte of the device-register region, and of the Causeway range in it (14 R313, 20 R399). -/
def Config.devRegs : Nat := 0xF000000000000
def Config.causeway : Nat := 0xF800000000000

/-- First register of the trap bank in a thread's register table, after the 512 of the largest allocation (07 R169). -/
def Config.trapBank : Nat := 512

end Sys2Proof
end

