-- ==== Sys2Proof/Machine/State.lean ====
section
/-! DEFINITION. The state of the package, as plain data: threads and frames, cores, clusters, dies, memory, and the
registers of the host window. INVENTORY.md lists every piece with the rule of the spec that names it. -/

namespace Sys2Proof.Machine

/-- A table by a number: keys strictly rising, so that equal tables are equal data. -/
abbrev Tbl (α : Type) := List (Nat × α)

/-- A register's data and format tag (03 R68). -/
abbrev RegVal := Word × Tag

/-- A thread or its frame: global core number × 2^20 + frame index (01 R38, R39). -/
abbrev FrameRef := Nat

/-- The three spaces of bytes that are not translated, and the fault address rule of each (09 R204, R209). -/
inductive Place where
  /-- Scratchpad of a global core: spaces s and c. -/
  | spad (gcore : Nat)
  /-- Vault of a cluster, numbered 9 × virtual die + cluster. -/
  | vault (cl : Nat)
  /-- Device memory of this chip at home. -/
  | home
  /-- Device memory of another chip over Causeway: the port that carries the access and the access's virtual address
  (20 R399, R400). -/
  | remote (chip port va : Nat)
  deriving DecidableEq, Repr

/-- A load issued and not yet complete: the allocation registers it writes with the values it has read, and for a read of
the register window the value of %winstat that its completion sets (08 R202, R203; 09 R212, R215). -/
structure Load where
  id : Nat
  results : List (Nat × RegVal)
  window : Option Nat
  /-- A load from another chip: the port that carries it and its virtual address (20 R400). -/
  via : Option (Nat × Nat)
  deriving DecidableEq, Repr

/-- A GWIN issued and not yet complete: the window register and the block it has read (10 R260). -/
structure GwinReq where
  id : Nat
  w : Nat
  mode : GMode
  stream : List Byte
  scale : Nat
  deriving DecidableEq, Repr

/-- A store issued and not yet complete at its place (09 R215), and the core that made it. -/
structure Store where
  thread : FrameRef
  place : Place
  addr : Nat
  bytes : List Byte
  /-- For device memory, the physical die that is home to the access (14 R314). -/
  die : Nat
  deriving DecidableEq, Repr

/-- A fixed-latency write that has not reached its latency: `need` is L - D, and `dead` says that a later writer in
program order has already given the register its value (05 R107, R109). `done` is the cycle in which the write completes, that
of the issue plus L (05 R106); it is not known before the instruction has issued. -/
structure Writer where
  reg : Nat
  val : RegVal
  need : Nat
  dead : Bool
  done : Option Nat
  deriving DecidableEq, Repr

/-- A fixed-latency write as the register bank sees it (08 R202): the register, the value, the cycle in which the write completes,
and what stood in the bank when the instruction issued. -/
structure Banked where
  reg : Nat
  val : RegVal
  done : Nat
  old : RegVal
  deriving DecidableEq, Repr

/-- What a thread in waiting-engine waits for (01 R20, 09 R244, 10 R277). -/
inductive EngWait where
  /-- SEAL of the page at a physical address; the register that receives the result, and the value to write. -/
  | seal (page : Nat) (d : Nat) (v : Nat)
  /-- TLBINV, waiting for every core to drop the entries. -/
  | tlbinv (all : Bool) (va : Nat)
  /-- A command of the thread's that stands in a group queue (MZERO, MSTORE, MSCALE). -/
  | command
  | bopen (d : Nat)
  | bclose (bucket : Nat) (d : Nat)
  /-- CAM of a dicer block naming another arena (16 R366): the image captured. -/
  | camDice (image : List Byte)
  deriving DecidableEq, Repr

/-- The states of a placed thread (01 R19). Trapped is a mark of the thread, so that TLBINV can wait in it. -/
inductive Run where
  | ready
  | await (exiting : Bool) (d : Nat)
  | meet (m phase : Nat)
  | cbar
  | future (h : Nat) (d : Nat)
  | grow (total : Nat)
  | engine (w : EngWait)
  deriving DecidableEq, Repr

/-- Why a thread is suspended (01 R19; 18 R384, R388, R389). -/
inductive Susp where
  /-- The starvation rule: the thread awaits readmission. -/
  | starved
  /-- A debugger stop, by its number. -/
  | debug (stop : Nat)
  /-- A context save. -/
  | saved
  deriving DecidableEq, Repr

/-- How a thread ended: the code is 0 for ended-ok (01 R19, R41). -/
inductive EndKind where
  | ok
  | fault
  | killed
  deriving DecidableEq, Repr

/-- The fields of a first-fault record that a completion carries (01 R39, R41). -/
structure FaultRec where
  code : Nat
  core : Nat
  part : Nat
  lane : Nat
  ctx : Nat
  addr : Nat
  deriving DecidableEq, Repr

/-- A completion: how the thread ended, its record, its stamp (01 R41, 12 R299). -/
structure Completion where
  kind : EndKind
  report : FaultRec
  stamp : Nat
  deriving DecidableEq, Repr

/-- A thread's place in a cluster group or pair group (01 R51 to R53). -/
structure GroupMember where
  group : Nat
  /-- A CBAR of the thread has completed. -/
  barred : Bool
  /-- An access to another core's scratchpad since its last completed CBAR. -/
  foreign : Bool
  deriving DecidableEq, Repr

/-- The issue in hand: the members in ascending lane, the address of the group's first word and of its instruction word,
the word, its stall count, and whether the bundle's yield hint applies if control leaves the bundle (05 R101). -/
structure Issue where
  members : List FrameRef
  first : Nat
  inst : Nat
  word : Word
  stall : Nat
  hint : Bool
  deriving DecidableEq, Repr

/-- An instruction that has issued with its group and takes effect only when results in flight complete, which it reads in other
members through lane patterns (05 R114): those results by member and number of the load, the issue, and the effect: a fault,
or the group of registers written, with its latency, and the dither phase after it. -/
structure Deferred where
  waits : List (FrameRef × Nat)
  issue : Issue
  fault : Option Nat
  name : Nat
  vals : List RegVal
  latency : Option Nat
  phase : Nat
  deriving DecidableEq, Repr

/-- A thread that is placed or suspended (01 R17). -/
structure Thread where
  run : Run
  /-- In state trapped, or waiting and marked trapped. -/
  trapped : Bool
  /-- EXIT has issued and waits for the thread's accesses (07 R158 step 2). -/
  draining : Bool
  susp : Option Susp
  /-- A kill waits for the boundary of 05 R110 (18 R387). -/
  dying : Bool
  /-- A debugger stop, by its number, waits for the boundary of 05 R110. -/
  stopping : Option Nat
  part : Nat
  lane : Nat
  cx : Nat
  pc : Nat
  regs : Tbl RegVal
  alloc : Nat
  winbase : Nat
  writes : List Writer
  /-- Writes that a window read must tell from what the instruction stream sees, newest first (08 R202). -/
  bank : List Banked
  /-- Registers with a variable-latency result in flight, each with the number of the load. -/
  pend : List (Nat × Nat)
  loads : List Load
  gwins : List GwinReq
  phase : Nat
  wait : Nat
  /-- The cycle from which the stall count has elapsed (05 R104). -/
  stall : Nat
  /-- The thread was tried in this cycle and an interlock holds its next instruction (01 R22). -/
  held : Bool
  check : Bool
  tid : Nat
  lgroup : Nat
  launch : Nat
  seq : Nat
  grid : Nat
  winstat : Nat
  ctxid : Nat
  spawnSeq : Nat
  members : Nat
  arrived : Nat
  resFirst : Nat
  resInst : Nat
  trapcode : Nat
  trapaddr : Nat
  trapinst : Word
  /-- SSET has replaced the low half of the resume point (07 R170, R175). -/
  resReplaced : Bool
  hit : List Word
  group : Option GroupMember
  slot : Option Nat
  /-- Instructions issued so far, and how many had been when the oldest stop that waits for the thread was asked for: a stop
  waits for at most 10 more (05 R110). -/
  issued : Nat
  stopAt : Option Nat
  /-- The instruction last issued has not taken effect (05 R114). -/
  deferred : Option Deferred
  deriving DecidableEq, Repr

/-- What a frame's completion goes to. -/
inductive Owner where
  /-- A thread with a parent frame. -/
  | child (parent : FrameRef) (ordinal : Nat)
  /-- A thread dealt by a launch (ROOT). -/
  | root
  /-- A grid: the dicer of a cluster takes the completion (16 R345). -/
  | grid (cl seq : Nat)
  deriving DecidableEq, Repr

/-- A frame (01 R39). VALID is 1 for every frame of the table. -/
structure Frame where
  live : Nat
  nfault : Nat
  nkill : Nat
  owner : Owner
  fvalid : Bool
  frec : FaultRec
  fseq : Nat
  floor : Nat
  ocore : Nat
  opart : Nat
  olane : Nat
  octx : Nat
  exiting : Bool
  awaiting : Bool
  nextseq : Nat
  saveptr : Nat
  remote : Nat
  /-- Largest stamp among the completions applied, if any (12 R283). -/
  stamp : Option Nat
  launch : Nat
  lgroup : Nat
  ctxid : Nat
  /-- The owner has run steps 1 to 4 of 01 R21; its completion waits for LIVE 0. -/
  ended : Option Completion
  deriving DecidableEq, Repr

/-- A child record (18 R383). -/
structure Child where
  args : List RegVal
  alloc : Nat
  check : Bool
  range : Option (Nat × Nat)
  parent : FrameRef
  ordinal : Nat
  stamp : Nat
  launch : Nat
  lgroup : Nat
  ctxid : Nat
  handler : Nat
  /-- %tid on placement is the order of entry; %grid of a vertex thread. -/
  grid : Nat
  deriving DecidableEq, Repr

/-- A spawn bin (01 R30, R31). `timer` is the cycles left of an open bin; `order` is the cycle of its closing. -/
structure Bin where
  entry : Nat
  ctxid : Nat
  opened : Bool
  children : List Child
  timer : Nat
  order : Nat
  /-- The cycle in which the bin was opened or filled from a record (01 R57). -/
  born : Nat
  /-- The bin cannot be given to a thief while a copy of it is in transit (01 R58). -/
  offered : Bool
  deriving DecidableEq, Repr

/-- A range slot (01 R35). -/
structure RangeSlot where
  cur : Nat
  hi : Nat
  thread : FrameRef
  entry : Nat
  args : List RegVal
  /-- What a sibling of a split takes over from the task: the allocation asked for, and the stamp of its spawn edge (12 R285). -/
  alloc : Nat
  stamp : Nat
  deriving DecidableEq, Repr

/-- A meet (01 R47). -/
structure Meet where
  mode : MeetMode
  phase : Nat
  members : Nat
  arrivals : Nat
  count : Int
  expected : Bool
  err : Option Nat
  desc : List Byte
  /-- Sign mode: the facing cluster and the launch of the thread whose descriptor was captured (10 R253, R206). -/
  far : Option Nat
  launch : Nat
  /-- Sign mode: every member has signed and the captured operation is due, and it has entered its queue (10 R253). -/
  due : Bool
  entered : Bool
  stamp : Nat
  /-- The stamps of phases completed, by phase number, received by later waits on them (12 R283, R299). -/
  past : Tbl Nat
  deriving DecidableEq, Repr

/-- A steal record in an inbound queue or in transit (01 R58). -/
structure StealRec where
  id : Nat
  victim : Nat
  thief : Nat
  entry : Nat
  ctxid : Nat
  children : List Child
  /-- A range half, which a refusal does not merge back. -/
  half : Bool
  /-- A bucket record: the launch and the bucket (16 R361). Its ends are distributors, numbered 144 + virtual die. -/
  bucket : Option (Nat × Nat)
  deriving DecidableEq, Repr

/-- The copy of an offered record kept by the victim, with the bin it came from and the cycle of its offer. -/
structure Offer where
  record : StealRec
  bin : Option Nat
  since : Nat
  acked : Bool
  deriving DecidableEq, Repr

/-- A record in an inbound queue. A range half that its own victim holds until a bin is free stands there too, and takes no
place of the queue (01 R58). -/
structure Inbound where
  record : StealRec
  own : Bool
  committed : Bool
  deriving DecidableEq, Repr

/-- Progress of an idle core's work request (01 R57, 18 R382). -/
inductive Seek where
  | idle
  /-- The request stands with a victim; the cores of the die still to ask. -/
  | asking (victim : Nat) (rest : List Nat)
  /-- The die's distributor has been asked. -/
  | distributor
  /-- Every die refused; the core asks again from this cycle. -/
  | retry (since : Nat)
  deriving DecidableEq, Repr

/-- Where a copy's bytes come from or go to (09 R224). -/
inductive CopySpace where
  | g
  | s
  | c
  | k
  | append
  deriving DecidableEq, Repr

/-- A destination of a copy (09 R226, R227): the core whose meet counts it, the bytes landed, whether a count has been
discarded for want of a byte-count meet, and whether it has failed. -/
structure CopyDest where
  core : Nat
  landed : Nat
  noMeet : Bool
  failed : Bool
  deriving DecidableEq, Repr

/-- A copy request captured by the engine (09 R224 to R227). -/
structure CopyJob where
  id : Nat
  launch : Nat
  ctxid : Nat
  src : Nat
  dst : Nat
  len : Nat
  rows : Nat
  sstride : Int
  dstride : Int
  sspace : CopySpace
  dspace : CopySpace
  meet : Nat
  /-- The core of a c source. -/
  score : Nat
  /-- Offset of the request record, whose bytes 56 to 63 take RESULT. -/
  record : Nat
  stamp : Nat
  started : Bool
  /-- Page and start of the reservation of an append destination. -/
  page : Option Nat
  reserved : Nat
  dests : List CopyDest
  /-- Source bytes read and not yet landed at every destination: the position of the first, and the bytes. -/
  base : Nat
  data : List Byte
  /-- The source has failed. -/
  failed : Bool
  deriving DecidableEq, Repr

/-- A line of L1 (12 R293, R295; 14 R316): masks of the bytes held and dirty, the data, the generation of its fill, the
mark of a sweep, and whether it belongs to a page that observes its seal. -/
structure Line where
  holds : BitVec 128
  dirty : BitVec 128
  data : Tbl Byte
  gen : Nat
  marked : Bool
  sealed : Bool
  /-- The physical die that is home to the line by the leaf last used for it (14 R314). -/
  home : Nat
  deriving DecidableEq, Repr

/-- A translation held by a TLB (14 R321, R323). -/
structure TlbEntry where
  root : Nat
  base : Nat
  size : Nat
  leaf : Nat
  level : Nat
  die : Nat
  /-- Virtual base and size of the walked leaf's own page, before any group of R320: the page of APPEND (09 R221). -/
  page : Nat
  deriving DecidableEq, Repr

/-- A Grain window register (10 R259). -/
structure GrainWin where
  stream : List Byte
  scale : Nat
  mode : GMode
  deriving DecidableEq, Repr

/-- A core. A core that the table of cores does not list is as it is after reset. -/
structure Core where
  binTimer : Nat
  splitEn : Bool
  frameBase : Option Nat
  frameLim : Nat
  heldBase : Option Nat
  heldLim : Option Nat
  handlers : Tbl Nat
  /-- Handler entries and SPLITEN written in this cycle, which act from the next one on (07 R165, R176). -/
  heldHandlers : Tbl Nat
  heldSplit : Option Bool
  bins : Tbl Bin
  slots : Tbl RangeSlot
  meets : Tbl Meet
  inbound : List Inbound
  offers : List Offer
  seek : Seek
  starve : Nat
  /-- The core is starved and suspends one thread a cycle (01 R56). -/
  starved : Bool
  /-- A starvation suspension found no room in its suspension pool and waits for a release (18 R388). -/
  poolWait : Bool
  /-- Cycle in which a thread of the core was last eligible (01 R22, R56, R57). -/
  activeAt : Option Nat
  /-- Cycle in which the core last had a closed bin that could be placed, or a readmission: no launch group is placed in it
  (18 R379). -/
  servedAt : Option Nat
  /-- Frames written back to the frame area, by index, as they were then: the frame cache holds those that differ from them
  (01 R38, R43). -/
  evicted : Tbl Frame
  spawnSeq : Nat
  copies : List CopyJob
  wins : Tbl GrainWin
  spad : Tbl Byte
  /-- Offsets whose bytes read as uncorrectable (20 R410). -/
  bad : List Nat
  l1 : Tbl Line
  gen : Nat
  sinceSweep : Nat
  sweeping : Bool
  /-- An incoming edge has come in this cycle, whose end increments the generation (12 R296). -/
  edge : Bool
  tlb : List TlbEntry
  /-- GROW requests of each lane, oldest first, by 32 × partition + lane (07 R164). -/
  grows : Tbl (List FrameRef)
  deriving DecidableEq, Repr

/-- A captured operation or command of a group queue (10 R249). -/
inductive EngOp where
  | tile (desc : List Byte)
  | zero (slot : Nat) (m : IMode)
  | store (slot : Nat) (e c st : Nat) (r : Rnd) (sat : Bool)
  | scale (slot : Nat) (e : Nat) (axis : Bool)
  deriving DecidableEq, Repr

/-- An entry of a group queue (10 R249, 18 R384): the core it belongs to, the meet of a tile operation or the waiting
thread of a command, the next K-step, and whether its first turn has been served. -/
structure EngEntry where
  op : EngOp
  gcore : Nat
  far : Option Nat
  meet : Nat
  waiter : Option FrameRef
  step : Nat
  begun : Bool
  stamp : Nat
  launch : Nat
  deriving DecidableEq, Repr

/-- An accumulator slot (10 R249): elements by 128 m + n. -/
structure AccSlot where
  mode : IMode
  phase : Nat
  elems : Tbl Word
  deriving DecidableEq, Repr

/-- The camera block (16 R366). -/
structure CamBlock where
  fx : Word
  fy : Word
  cx : Word
  cy : Word
  k : Word
  zf : Word
  znear : Word
  zfar : Word
  deriving DecidableEq, Repr

/-- The dicer block (16 R366). -/
structure DiceBlock where
  vbase : Nat
  kib : Nat
  spill : Nat
  blocks : Nat
  deriving DecidableEq, Repr

/-- The rasteriser block (16 R366). -/
structure RastBlock where
  sbase : Nat
  vpn : Nat
  deriving DecidableEq, Repr

/-- An entry of a bucket's list (16 R337). The rectangle's bounds are FP32 patterns; `parent` numbers the PSUB, whose
receivers' PENDING counts it holds. -/
structure PatchEntry where
  patch : Nat
  u0 : Word
  u1 : Word
  v0 : Word
  v1 : Word
  depth : Nat
  parent : Nat
  stamp : Nat
  deriving DecidableEq, Repr

/-- Where a grid's vertex records lie. -/
inductive GridMem where
  | bucket (blocks : List Nat)
  | spill (blocks : List Nat)
  deriving DecidableEq, Repr

/-- A grid (16 R342, R346): its size, its records' place, its frame, and how far it has come. `us` and `vs` are the
parameters of its columns and rows, `rect` those of the entry it was diced from. -/
structure Grid where
  seq : Nat
  nu : Nat
  nv : Nat
  us : List Word
  vs : List Word
  rect : List Word
  mem : GridMem
  matword : Word
  bound : List Word
  shader : Nat
  alloc : Nat
  parent : Nat
  frame : FrameRef
  /-- Vertex threads spawned so far. -/
  spawned : Nat
  shaded : Bool
  deriving DecidableEq, Repr

/-- A copy of a carried grid in a cluster's spill arena (16 R348). -/
structure Carried where
  id : Nat
  cl : Nat
  blocks : List Nat
  spill : Nat
  nu : Nat
  nv : Nat
  matword : Word
  bound : List Word
  origin : Nat
  seq : Nat
  stamp : Nat
  /-- Receivers that have not rastered or dropped it. -/
  refs : List Nat
  deriving DecidableEq, Repr

/-- The bucket open on a cluster (16 R341 to R352, R364). The grids are those not yet rastered or dropped. -/
structure OpenBucket where
  launch : Nat
  bucket : Nat
  list : List PatchEntry
  /-- The list and the carried grids as opened, for a retry. -/
  asOpened : List PatchEntry
  asCarried : List Nat
  carried : List Nat
  grids : List Grid
  nextSeq : Nat
  usedBlocks : List Nat
  dropped : Nat
  /-- A first attempt has failed. -/
  retried : Bool
  /-- The attempt has failed and waits for its vertex threads to end. -/
  failing : Bool
  killed : Bool
  lost : Bool
  lgroup : Nat
  ctxid : Nat
  /-- The dicer's stamp (16 R412), and the largest stamp of the bucket completion edge (16 R367). -/
  stamp : Nat
  endStamp : Nat
  /-- Grids forwarded, by parent and rectangle, which a retry does not forward again. -/
  sent : List (Nat × List Word)
  deriving DecidableEq, Repr

/-- A cluster, numbered 9 × virtual die + cluster. -/
structure Cluster where
  vault : Tbl Byte
  /-- Vault offsets whose bytes read as uncorrectable (20 R410). -/
  bad : List Nat
  slots : Tbl AccSlot
  queues : Tbl (List EngEntry)
  /-- The queue the rotation visits next (10 R255). -/
  rotor : Nat
  cam : CamBlock
  dice : DiceBlock
  rast : RastBlock
  /-- The camera block that CAM has loaded in this cycle: a grid begun in the cycle uses the old one (10 R270, 16 R369). -/
  heldCam : Option CamBlock
  deck : List (List Nat)
  bucket : Option OpenBucket
  /-- The thread of a BOPEN that still waits, and its stamp at issue. -/
  opening : Option (FrameRef × Nat)
  spillUsed : List Nat
  deriving DecidableEq, Repr

/-- A die's registers and units. The registers of this structure belong to the physical die. -/
structure Die where
  timeBase : Nat
  walks : Tbl Nat
  thresh : Nat
  eager : Bool
  replMade : Nat
  replDropped : Nat
  missLocal : Nat
  missRemote : Nat
  contBad : Nat
  sweeps : Nat
  autogate : Bool
  idleUs : Nat
  gated : Bool
  idleSince : Nat
  ras : Tbl Nat
  /-- Remote reads counted of each page, by page number (12 R304). -/
  remoteReads : Tbl Nat
  replicas : List Nat
  /-- Requests for replicas that PREFETCH has made. -/
  replWanted : List Nat
  /-- Cycle of the last uncorrectable-error report (20 R408). -/
  reported : Option Nat
  deriving DecidableEq, Repr

/-- What a distributor of a virtual die holds (01 R61, 16 R360, 18 R382). -/
structure Dist where
  /-- The remote-child table: parent frame, ordinal, die that holds the child. -/
  children : List (FrameRef × Nat × Nat)
  lost : Bool
  answered : Nat
  /-- Requests of this die's own cores, each with the dies still to ask. -/
  asking : List (Nat × List Nat)
  /-- Counts of unopened buckets last reported by each die, by launch × 4 + die. -/
  reports : Tbl Nat
  /-- Bucket records offered to other dies, and received from them (16 R361). -/
  offers : List Offer
  inbound : List Inbound
  deriving DecidableEq, Repr

/-- Bucket states (16 R338, R350). -/
inductive BucketState where
  | unopened
  /-- In transit to another die (16 R361); the bucket is not opened. -/
  | moving
  | opened
  | closed
  deriving DecidableEq, Repr

/-- A bucket at its owner (16 R360). -/
structure Bucket where
  state : BucketState
  owner : Nat
  list : List PatchEntry
  pending : Nat
  /-- The cycle in which PENDING last reached 0: the bucket is not chosen in it (16 R369). -/
  zeroAt : Option Nat
  carried : List Nat
  deriving DecidableEq, Repr

/-- A PSUB whose receivers wait: the bucket listed in, its receivers, and the grids derived that are not yet forwarded or
dropped with the entries not yet diced (16 R337, R348). -/
structure PatchUse where
  bucket : Nat
  receivers : List Nat
  entries : Nat
  /-- The receivers' PENDING counts have been taken; the record stays until the bucket is closed, for a retry (16 R348, R364). -/
  released : Bool
  deriving DecidableEq, Repr

/-- The buckets of a render launch (16 R331, R332). -/
structure Render where
  width : Nat
  height : Nat
  bsize : Nat
  buckets : Tbl Bucket
  patches : Tbl PatchUse
  nextPatch : Nat
  carried : List Carried
  nextCarried : Nat
  deriving DecidableEq, Repr

/-- One launch group still to be placed, or one member of a cluster or pair group. -/
structure GroupDeal where
  index : Nat
  gcore : Nat
  /-- The group number shared by the members of one cluster group or pair group. -/
  unit : Nat
  /-- Number of the cluster group or pair group, or none for SHAPE 0. -/
  group : Option Nat
  deriving DecidableEq, Repr

/-- A barrier of a cluster group or pair group (01 R51, R52): its clusters, and for each the arrivals and live members. -/
structure Barrier where
  clusters : List Nat
  /-- The cores of the group, whose scratchpads stay allocated to it until every member has ended (01 R51). -/
  cores : List Nat
  /-- Live members on each cluster. -/
  live : List Nat
  /-- Arrivals on each cluster in the current instance. -/
  arrivals : List Nat
  /-- Clusters whose local phase of this instance is complete. -/
  done : List Nat
  stamp : Nat
  launch : Nat
  deriving DecidableEq, Repr

/-- The states of a packet (18 R372). -/
inductive LaunchStage where
  /-- Taken and checked; waits for its lease (14 R325). -/
  | leasing
  /-- Dealt: groups are being placed or run. -/
  | dealt
  deriving DecidableEq, Repr

/-- Who issued a launch: a queue, or the regeneration of a page for an outer launch (14 R327). -/
inductive LaunchFrom where
  | queue
  | regen (outer : Nat) (va : Nat)
  deriving DecidableEq, Repr

/-- A launch that has been taken and is not complete (18 R370 to R381). -/
structure Launch where
  stage : LaunchStage
  origin : LaunchFrom
  queue : Nat
  packet : Nat
  ctxid : Nat
  render : Bool
  debug : Bool
  check : Bool
  alloc : Nat
  nparam : Nat
  gsize : Nat
  vector : Nat
  irq : Bool
  spbase : Nat
  spsize : Nat
  handler : Nat
  slotmask : Nat
  qmask : Nat
  winmask : Nat
  vkbase : Nat
  vksize : Nat
  meetmask : Nat
  params : List Word
  leases : List (Nat × Nat)
  entry : Nat
  groups : List GroupDeal
  /-- Root threads placed and not yet complete. -/
  roots : Nat
  nfault : Nat
  nkill : Nat
  frec : FaultRec
  fgroup : Nat
  stamp : Nat
  /-- Physical pages pinned by its lease. -/
  pins : List Nat
  order : Nat
  /-- The cycle of the doorbell that covered the packet (14 R325, R330). -/
  bellAt : Nat
  /-- No frame could be freed for its lease: it waits until some lease ends (14 R325 step 3). -/
  waits : Bool
  deriving DecidableEq, Repr

/-- A packet that a doorbell has covered and that is not taken: the cycle of the doorbell, and the queue (18 R371). -/
structure Bell where
  cycle : Nat
  queue : Nat
  deriving DecidableEq, Repr

/-- A launch queue (18 R370, R371). -/
structure Queue where
  base : Nat
  size : Nat
  enable : Bool
  ctxid : Nat
  tail : Nat
  head : Nat
  seq : Nat
  /-- The packet before the next one has been dealt or refused, and has completed or been refused. -/
  dealtPrev : Bool
  donePrev : Bool
  /-- The packet last taken since the queue was enabled, by the order of its taking. -/
  last : Option Nat
  deriving DecidableEq, Repr

/-- The running state of a context, CTX_CTL.STATE (18 R370). -/
inductive CtxState where
  | running
  | saving
  | saved
  | restoring
  deriving DecidableEq, Repr

/-- The dicer and rasteriser state of a cluster that a save holds: the blocks that CAM and DECK have loaded, and the spill blocks
that the context's grids and carried grids occupy (16 R368; 18 R384). -/
structure UnitBlocks where
  cam : CamBlock
  dice : DiceBlock
  rast : RastBlock
  deck : List (List Nat)
  spill : List Nat
  deriving DecidableEq, Repr

/-- A stop made by the debugger and not yet resumed (18 R389). -/
structure DebugStop where
  id : Nat
  cause : Nat
  launch : Nat
  /-- Core, part, lane and context of the breaking thread. -/
  who : Option (Nat × Nat × Nat × Nat)
  reported : Bool
  deriving DecidableEq, Repr

/-- An execution context's registers and saved parts (18 R370, R384 to R389). -/
structure Ctx where
  root : Nat
  csa : Nat
  csalim : Nat
  state : CtxState
  err : Nat
  susp : Nat
  susplim : Nat
  dbgrep : Nat
  stopped : Bool
  /-- A resume of the current report waits for lanes that can hold its threads (18 R389). -/
  resuming : Bool
  vector : Nat
  irq : Bool
  stops : List DebugStop
  /-- Kills written while STATE is not 0: a launch, or none for all. -/
  kills : List (Option Nat)
  /-- While saved: the bins, inbound records, queue entries and bucket work of the context, by core or cluster. -/
  savedBins : List (Nat × Nat × Bin)
  savedInbound : List (Nat × Inbound)
  savedEntries : List (Nat × Nat × EngEntry)
  savedBuckets : List (Nat × OpenBucket)
  savedOpening : List (Nat × FrameRef × Nat)
  savedBlocks : List (Nat × UnitBlocks)
  savedSlots : List (Nat × Nat × RangeSlot)
  savedMeets : List (Nat × Nat × Meet)
  /-- The launches that held reservations, with the core of each. -/
  savedRes : List (Nat × Nat)
  /-- Addresses of the sections of the save, by core and by cluster (18 R384). -/
  savedCoreAt : Tbl Nat
  savedClusterAt : Tbl Nat
  deriving DecidableEq, Repr

/-- A future table entry (01 R45); entries not listed are freed, with generation 0. -/
structure Future where
  gen : Nat
  /-- none freed; some none empty; some (some v) set. -/
  state : Option (Option (BitVec 64))
  waiters : List FrameRef
  stamp : Nat
  deriving DecidableEq, Repr

/-- The append record of a page (09 R221), by the physical address of the page. -/
structure AppendRec where
  tail : Nat
  landed : Nat
  closed : Bool
  sealed : Bool
  /-- The cycle of the SEAL that closed the page: an APPEND of that cycle comes before it (09 R245). -/
  closedAt : Nat
  deriving DecidableEq, Repr

/-- A Carver request (10 R262): the next block, and who kicked it. -/
structure CarveJob where
  id : Nat
  gcore : Nat
  launch : Nat
  ctxid : Nat
  wsrc : Nat
  dstream : Nat
  dscale : Nat
  bfirst : Nat
  count : Nat
  mode : GMode
  meet : Nat
  next : Nat
  /-- Scale codes of the blocks of the group of four in hand, written with its last block (log 29). -/
  scales : List Nat
  stamp : Nat
  deriving DecidableEq, Repr

/-- Residency of a leaf page (14 R325 to R329), by physical address: the context whose tables map it, its virtual base,
level, pins, and the regeneration index if the manager made it regenerable, with the leaf that the manager wrote (14 R326). -/
structure PageUse where
  ctxid : Nat
  va : Nat
  level : Nat
  pins : Nat
  regen : Option (Nat × Nat)
  deriving DecidableEq, Repr

/-- A display head (20 R402, R403). -/
structure Head where
  en : Bool
  depth : Bool
  base : Nat
  pitch : Nat
  swapAddr : Nat
  swapMp : Nat
  /-- A swap written and not yet taken, and whether it came too late for its edge (20 R404). -/
  swap : Option Bool
  /-- Cycle in which DISP_SWAPMP was last written. -/
  swapAt : Nat
  late : Nat
  linkup : Bool
  hactive : Nat
  htotal : Nat
  hstart : Nat
  hwidth : Nat
  hpol : Bool
  vactive : Nat
  vtotal : Nat
  vstart : Nat
  vwidth : Nat
  vpol : Bool
  khz : Nat
  lanes : Nat
  rate : Nat
  /-- Nanosecond at which the frame in hand started. -/
  start : Nat
  /-- A frame has started on the stream that the head carries. -/
  framed : Bool
  /-- An edge that waits for the end of the frame, and the swap that took effect at it: the buffer, and whether it is late
  (20 R403, R404). -/
  edge : Option (Option (Nat × Bool))
  /-- Lines of the frame already read, and the last pixels shown. -/
  line : Nat
  column : Nat
  shown : List Word
  deriving DecidableEq, Repr

/-- A Causeway port (20 R400, R406): CW_STAT.PORTS codes. -/
abbrev PortState := Nat

/-- The fuses of the part (00 R1 to R5). -/
structure Fuses where
  /-- Compute dies present. -/
  dies : Nat
  /-- Enabled cores of each physical die. -/
  enable : List Nat
  /-- Cores with a ray unit, of each physical die. -/
  rays : List Nat
  carver : Bool
  heads : Nat
  ports : Nat
  memGb : Nat
  part : Nat
  deriving DecidableEq, Repr

/-- A boot image slot (20 R396): whether its signature check passes, and its configuration word. -/
structure BootImage where
  passes : Bool
  config : Word
  deriving DecidableEq, Repr

/-- Faults that boot may meet, as found by the stages of 20 R396. -/
structure BootFaults where
  fuse : Option Nat
  dram : Option Nat
  link : Option Nat
  ports : List Nat
  deriving DecidableEq, Repr

/-- Package registers (14 R325, 18 R376, 20 R392, R396, R400). -/
structure Pkg where
  phys : Nat
  offline : Nat
  mapErr : Nat
  leasecap : Nat
  regenbase : Nat
  regenlim : Nat
  ageperiod : Nat
  apbase : Nat
  backbase : Nat
  backpages : Nat
  backrsv : Nat
  rasvec : Nat
  rasen : Bool
  stage : Nat
  slot : Nat
  bootDie : Nat
  bootErr : Nat
  fwbase : Nat
  futbase : Nat
  /-- Frame area of global core g at boot: this + 2^26 × g. -/
  areabase : Nat
  wincfg : Bool
  chipid : Nat
  role : Nat
  genlock : Bool
  margin : Nat
  vector : Nat
  period : Nat
  milepost : Nat
  ports : List PortState
  locked : Bool
  took : Bool
  deposed : Bool
  deriving DecidableEq, Repr

/-- Who sends a completion: the frame of a thread that has ended, or the core whose bin or steal record held a child that was
never placed (01 R21, R41). -/
inductive Sender where
  | frame (k : FrameRef)
  | core (g : Nat)
  deriving DecidableEq, Repr

/-- Messages in transit, in the order sent (01 R41, R57 to R61; 16 R360, R361). -/
inductive Msg where
  | completion (parent : FrameRef) (ordinal : Nat) (c : Completion) (sender : Sender)
  | rootCompletion (launch lgroup : Nat) (c : Completion) (sender : Sender)
  | workRequest (victim asker : Nat)
  | stealRecord (r : StealRec)
  | ack (victim id thief : Nat)
  | commit (thief id victim : Nat)
  | revoke (thief id victim : Nat)
  | refuse (victim id thief : Nat)
  /-- A request at a distributor, and the cycle in which it came (18 R382). -/
  | distRequest (die asker core since : Nat)
  /-- A PSUB on its way to a bucket's first owner, with its receivers and the thread, register and load that wait. -/
  | listPatch (die launch bucket : Nat) (e : PatchEntry) (receivers : List Nat) (thread : FrameRef) (d id : Nat)
  | pendingUp (die launch bucket : Nat)
  | pendingDown (die launch bucket : Nat)
  | carry (die launch bucket id : Nat)
  | countReport (die launch of count : Nat)
  | lossBroadcast (die lost : Nat)
  | barrierDone (group cl : Nat)
  deriving DecidableEq, Repr

/-- What the package has sent to the outside: answers and signals, newest last. -/
inductive Output where
  | msix (vector : Nat)
  | apertureData (bytes : List Byte)
  /-- Completer Abort of an aperture read (20 R393). -/
  | abort
  /-- Unsupported Request (20 R392, R393). -/
  | unsupported
  | registerData (v : Nat)
  | spdm (die : Nat) (bytes : List Byte)
  | remoteData (chip : Nat) (bytes : List Byte)
  /-- A read or a write that this chip makes of another chip's memory (20 R399, R400). -/
  | remoteLoad (chip addr n : Nat)
  | remoteStore (chip addr : Nat) (bytes : List Byte)
  | remoteAck (chip : Nat)
  | mirrored (m : MirrorOp)
  /-- The master's milepost, sent to every chip (20 R401). -/
  | milepost (n : Nat)
  | takeoverPin
  deriving DecidableEq, Repr

/-- What befalls the machine from outside without being a row of the opcode table (log 6): an error that storage or a link has
corrected, with its die and its RAS counter (01 R66, 20 R408); a byte of storage that becomes uncorrectable (20 R410); bytes that
the host writes into its own memory (20 R395); the loss of the milepost master (20 R401). -/
inductive Outside where
  | corrected (die k : Nat)
  | decay (place : Place) (addr : Nat)
  | hostMemory (bus : Nat) (bytes : List Byte)
  | masterLost
  deriving DecidableEq, Repr

/-- Whether the host has written the low word of a 64-bit register and not yet the high one (20 R392). -/
abbrev HalfWrite := Option (Nat × Nat)

/-- The whole machine. -/
structure State where
  fuses : Fuses
  images : List BootImage
  bootFaults : BootFaults
  pkg : Pkg
  queues : Tbl Queue
  ctxs : Tbl Ctx
  launches : Tbl Launch
  renders : Tbl Render
  threads : Tbl Thread
  frames : Tbl Frame
  cores : Tbl Core
  clusters : Tbl Cluster
  dies : Tbl Die
  dists : Tbl Dist
  groups : Tbl Barrier
  mem : Tbl Byte
  /-- Bytes of device memory that read as uncorrectable (20 R410). -/
  poison : List Nat
  /-- Stores issued and not yet complete at their place, oldest first (09 R215, R232). -/
  stores : List Store
  appends : Tbl AppendRec
  futures : Tbl Future
  carver : List CarveJob
  net : List Msg
  /-- In the order in which the packets are to be considered (14 R330). -/
  doorbells : List Bell
  pages : Tbl PageUse
  /-- Aging sweeps made so far, and for each frame the sweep that last found its access bit set: its age is the difference, at
  most 255 (14 R328). -/
  agings : Nat
  /-- Cycle of the last aging sweep. -/
  agedAt : Nat
  ages : Tbl Nat
  /-- Frames whose access bit is set. -/
  access : List Nat
  /-- Host memory of the backing store, by bus address, and the slots in use with the address of each (20 R395). -/
  backing : Tbl Byte
  backUsed : Tbl Nat
  /-- Mirrored packets, oldest first, that wait for their queue to be enabled or to have room (20 R405; log 24). -/
  mirrored : List (Nat × List Byte)
  heads : Tbl Head
  /-- The chips that answer over Causeway, each with its capacity in bytes (20 R399, R400). -/
  peers : Tbl Nat
  /-- The last READY received and its cycle, and the last one received before that cycle (20 R405). -/
  lastReady : Option Nat
  readyAt : Nat
  readyBefore : Option Nat
  /-- Heads that the active chip drives. -/
  peerHeads : Nat
  /-- A takeover made or seen that acts at the next edge. -/
  takeover : Bool
  /-- Nanosecond of the next edge of this chip's own timebase. -/
  nextEdge : Nat
  half : HalfWrite
  outputs : List Output
  issue : Option Issue
  inputs : List Instr
  befalls : List Outside
  cycle : Nat
  port : Nat
  nextId : Nat
  free : Nat
  deriving DecidableEq, Repr

/-- The package registers before boot (00 R12; 14 R325; 18 R376; 20 R392, R396, R400): the reset values of the register
maps, and 0 for every field that boot sets (log 2, log 3). -/
def Pkg.reset : Pkg :=
  { phys := 0, offline := 0, mapErr := 0, leasecap := 0, regenbase := 0, regenlim := 0, ageperiod := 1000,
    apbase := 0, backbase := 0, backpages := 0, backrsv := 0, rasvec := 0, rasen := false,
    stage := 0, slot := 0, bootDie := 0, bootErr := 0, fwbase := 0, futbase := 0, areabase := 0, wincfg := false,
    chipid := 0, role := 0, genlock := false, margin := 1, vector := 0, period := 16666667, milepost := 0,
    ports := [], locked := false, took := false, deposed := false }

/-- The fuses of a YCH440-M192 with every core enabled and every ray unit present (00 R1, R3; log 3). -/
def Fuses.whole : Fuses :=
  { dies := 4, enable := [0xFFFFFFFFF, 0xFFFFFFFFF, 0xFFFFFFFFF, 0xFFFFFFFFF],
    rays := [0xFFFFFFFFF, 0xFFFFFFFFF, 0xFFFFFFFFF, 0xFFFFFFFFF],
    carver := true, heads := 4, ports := 8, memGb := 192, part := 0x44 }

/-- The machine right after package reset, before the first stage of boot (20 R396): nothing placed, nothing in memory,
every table of units at its reset values. The part, its fuses and its boot images are log 3. -/
def State.reset : State :=
  { fuses := Fuses.whole, images := [⟨true, 0⟩, ⟨true, 0⟩], bootFaults := ⟨none, none, none, []⟩, pkg := Pkg.reset,
    queues := [], ctxs := [], launches := [], renders := [], threads := [], frames := [], cores := [], clusters := [],
    dies := [], dists := [], groups := [], mem := [], poison := [], stores := [], appends := [], futures := [], carver := [], net := [],
    doorbells := [], pages := [], agings := 0, agedAt := 0, ages := [], access := [], backing := [], backUsed := [], mirrored := [], heads := [], peers := [],
    lastReady := none, readyAt := 0, readyBefore := none, peerHeads := 0, takeover := false, nextEdge := 0, half := none, outputs := [],
    issue := none, inputs := [], befalls := [], cycle := 0, port := 0, nextId := 0, free := 0 }

/-- Stops of the machine. No instruction of this hardware stops the machine with a fault: a fault of the spec ends one
thread and is reported to its parent frame, which is a next state. The type has one constructor for a step whose
internal record is inconsistent. -/
inductive Fault where
  /-- Raised by no instruction; kept so that the type is not empty. Safe: it stops. -/
  | stuck
  deriving DecidableEq, Repr

/-- Refusals. -/
inductive Refusal where
  /-- An instruction without a meaning yet, raised by exec's arms only. Safe: it stops. -/
  | notModelled (mnemonic : String)
  /-- A DEVICE access to the device-register region outside the Causeway range, whose registers the spec does not place
  there (14 R313, 20 R399; log 17). Raised by LD and ST of space g. Safe: it stops. -/
  | deviceRegisters (pa : Nat)
  deriving DecidableEq, Repr

end Sys2Proof.Machine
end

