-- ==== Sys2Proof/Machine/Table.lean ====
section
/-! DEFINITION. Operations on the tables of the state, on bytes and on bits. Every table keeps its keys strictly rising;
a table with a default value lists no entry equal to it. -/

namespace Sys2Proof.Machine

/-- The entry of a key. -/
def Tbl.get {α : Type} (t : Tbl α) (k : Nat) : Option α :=
  match t with
  | [] => none
  | (j, v) :: rest => if j = k then some v else Tbl.get rest k

/-- The entry of a key, or the default. -/
def Tbl.getD {α : Type} (t : Tbl α) (k : Nat) (d : α) : α := (Tbl.get t k).getD d

/-- Sets the entry of a key, keeping the keys rising. -/
def Tbl.put {α : Type} (t : Tbl α) (k : Nat) (v : α) : Tbl α :=
  match t with
  | [] => [(k, v)]
  | (j, w) :: rest =>
    if k < j then (k, v) :: (j, w) :: rest
    else if k = j then (k, v) :: rest
    else (j, w) :: Tbl.put rest k v

/-- Removes the entry of a key. -/
def Tbl.del {α : Type} (t : Tbl α) (k : Nat) : Tbl α :=
  match t with
  | [] => []
  | (j, w) :: rest => if j = k then Tbl.del rest k else (j, w) :: Tbl.del rest k

/-- Sets the entry of a key of a table with a default, which is not listed. -/
def Tbl.putD {α : Type} [DecidableEq α] (t : Tbl α) (k : Nat) (v d : α) : Tbl α :=
  if v = d then Tbl.del t k else Tbl.put t k v

/-- The keys of a table. -/
def Tbl.keys {α : Type} (t : Tbl α) : List Nat := t.map (·.1)

/-- The entries of a table. -/
def Tbl.vals {α : Type} (t : Tbl α) : List α := t.map (·.2)

/-- Changes the entry of a key, if there is one. -/
def Tbl.update {α : Type} (t : Tbl α) (k : Nat) (f : α → α) : Tbl α :=
  match t with
  | [] => []
  | (j, v) :: rest => if j = k then (j, f v) :: rest else (j, v) :: Tbl.update rest k f

/-- Changes every entry. -/
def Tbl.mapVals {α : Type} (t : Tbl α) (f : Nat → α → α) : Tbl α := t.map fun (k, v) => (k, f k v)

/-- The keys of a table rise strictly. -/
def Tbl.rising {α : Type} (t : Tbl α) : Bool :=
  match t with
  | [] => true
  | [_] => true
  | (j, _) :: (k, v) :: rest => j < k && Tbl.rising ((k, v) :: rest)

/-- What a byte of memory that is not listed reads as (log 1). -/
def blankByte : Byte := 0

/-- The canonical form of a memory: addresses strictly rising, and no entry equal to what an unlisted byte reads as. -/
def Memory.wf (m : Tbl Byte) : Bool := Tbl.rising m && m.all fun (_, b) => b != blankByte

/-- One byte of a memory. -/
def readByte (m : Tbl Byte) (a : Nat) : Byte := Tbl.getD m a blankByte

/-- Writes one byte of a memory. -/
def writeByte (m : Tbl Byte) (a : Nat) (b : Byte) : Tbl Byte := Tbl.putD m a b blankByte

/-- n bytes from an address, lowest first. -/
def readBytes (m : Tbl Byte) (a n : Nat) : List Byte :=
  match n with
  | 0 => []
  | k + 1 => readByte m a :: readBytes m (a + 1) k

/-- Writes bytes from an address upward. -/
def writeBytes (m : Tbl Byte) (a : Nat) (bs : List Byte) : Tbl Byte :=
  match bs with
  | [] => m
  | b :: rest => writeBytes (writeByte m a b) (a + 1) rest

/-- The little-endian value of bytes (00 R7). -/
def leNat (bs : List Byte) : Nat :=
  match bs with
  | [] => 0
  | b :: rest => b.toNat + 256 * leNat rest

/-- The n low bytes of a value, little-endian (00 R7). -/
def leBytes (n v : Nat) : List Byte :=
  match n with
  | 0 => []
  | k + 1 => BitVec.ofNat 8 v :: leBytes k (v / 256)

/-- The n-byte value at an address. -/
def readNat (m : Tbl Byte) (a n : Nat) : Nat := leNat (readBytes m a n)

/-- Stores the n low bytes of a value. -/
def writeNat (m : Tbl Byte) (a n v : Nat) : Tbl Byte := writeBytes m a (leBytes n v)

/-- n bits of the dense bit string that starts at a byte address (03 R80). -/
def readBits (m : Tbl Byte) (a lo n : Nat) : Nat :=
  readNat m (a + lo / 8) ((lo % 8 + n + 7) / 8) / 2 ^ (lo % 8) % 2 ^ n

/-- Bit k of a number. -/
def testBit (x k : Nat) : Bool := x / 2 ^ k % 2 == 1

/-- Sets bit k of a number. -/
def setBit (x k : Nat) : Nat := if testBit x k then x else x + 2 ^ k

/-- Clears bit k of a number. -/
def clearBit (x k : Nat) : Nat := if testBit x k then x - 2 ^ k else x

/-- The number of ones among the n low bits. -/
def countBits (x n : Nat) : Nat :=
  match n with
  | 0 => 0
  | k + 1 => x % 2 + countBits (x / 2) k

/-- SignExt of 05 R120: the n-bit value read as two's complement. -/
def signExt (x n : Nat) : Int := if x % 2 ^ n < 2 ^ (n - 1) then (x % 2 ^ n : Int) else (x % 2 ^ n : Int) - 2 ^ n

/-- An integer modulo 2^n, as an unsigned number. -/
def wrap (x : Int) (n : Nat) : Nat := (x % (2 ^ n : Int)).toNat

/-- The ray of numbers from a to a + n - 1. -/
def span (a n : Nat) : List Nat := (List.range n).map (a + ·)

/-- The first element that meets a test, with its position. -/
def findIdx {α : Type} (l : List α) (p : α → Bool) : Option (Nat × α) :=
  (l.zipIdx.find? fun (x, _) => p x).map fun (x, i) => (i, x)

/-- The element that a relation prefers to every earlier one, scanning from the left. -/
def bestOf {α : Type} (better : α → α → Bool) (l : List α) : Option α :=
  l.foldl (fun acc x =>
    match acc with
    | none => some x
    | some y => if better x y then some x else some y) none

/-- Insertion into a list sorted by a number. -/
def insertBy {α : Type} (f : α → Nat) (x : α) : List α → List α
  | [] => [x]
  | y :: rest => if f x < f y then x :: y :: rest else y :: insertBy f x rest

/-- A list sorted by a number, equal ones in their order. -/
def sortBy {α : Type} (f : α → Nat) (l : List α) : List α := l.foldl (fun acc x => insertBy f x acc) []

end Sys2Proof.Machine
end

