-- ==== Sys2Proof/Machine/Numbers.lean ====
section
/-! DEFINITION. Number formats, exact values and rounding (03 R77 to R87). -/

namespace Sys2Proof.Machine

/-- A decoded number: NaN, an infinity, or (-1)^neg × m × 2^e exactly. Zero keeps its sign. -/
inductive Num where
  | nan
  | inf (neg : Bool)
  | fin (neg : Bool) (m : Nat) (e : Int)
  deriving DecidableEq, Repr

/-- How a format treats what lies beyond its largest finite value (03 R85). -/
inductive Beyond where
  /-- FP32, FP16, BF16, E5M2. -/
  | infinite
  /-- E4M3, E3M2, E2M3, E2M1. -/
  | clamp
  deriving DecidableEq, Repr

/-- A floating format (03 R77): exponent and fraction bits, bias, largest finite code, and the code of the NaN produced
where there is one. -/
structure FloatFmt where
  ebits : Nat
  mbits : Nat
  bias : Nat
  maxCode : Nat
  nanCode : Option Nat
  beyond : Beyond
  deriving DecidableEq, Repr

def FloatFmt.fp32 : FloatFmt := ⟨8, 23, 127, 0x7F7FFFFF, some 0x7FC00000, .infinite⟩
def FloatFmt.fp16 : FloatFmt := ⟨5, 10, 15, 0x7BFF, some 0x7E00, .infinite⟩
def FloatFmt.bf16 : FloatFmt := ⟨8, 7, 127, 0x7F7F, some 0x7FC0, .infinite⟩
def FloatFmt.e4m3 : FloatFmt := ⟨4, 3, 7, 0x7E, some 0x7F, .clamp⟩
def FloatFmt.e5m2 : FloatFmt := ⟨5, 2, 15, 0x7B, some 0x7E, .infinite⟩
def FloatFmt.e3m2 : FloatFmt := ⟨3, 2, 3, 0x1F, none, .clamp⟩
def FloatFmt.e2m3 : FloatFmt := ⟨2, 3, 1, 0x1F, none, .clamp⟩
def FloatFmt.e2m1 : FloatFmt := ⟨2, 1, 1, 0x7, none, .clamp⟩

/-- The width of a floating format in bits. -/
def FloatFmt.width (f : FloatFmt) : Nat := 1 + f.ebits + f.mbits

/-- The value of a code (03 R77). -/
def FloatFmt.decode (f : FloatFmt) (c : Nat) : Num :=
  let neg := testBit c (f.ebits + f.mbits)
  let mag := c % 2 ^ (f.ebits + f.mbits)
  let e := mag / 2 ^ f.mbits
  let fr := mag % 2 ^ f.mbits
  if f.maxCode < mag then
    if f.beyond = .infinite ∧ fr = 0 then .inf neg else .nan
  else if e = 0 then .fin neg fr (1 - (f.bias : Int) - f.mbits)
  else .fin neg (2 ^ f.mbits + fr) ((e : Int) - f.bias - f.mbits)

/-- A number that is zero. -/
def Num.isZero : Num → Bool
  | .fin _ m _ => m == 0
  | _ => false

/-- The sign of a number; NaN counts as positive. -/
def Num.neg : Num → Bool
  | .nan => false
  | .inf s => s
  | .fin s _ _ => s

/-- The number with its sign turned. -/
def Num.negate : Num → Num
  | .nan => .nan
  | .inf s => .inf (!s)
  | .fin s m e => .fin (!s) m e

/-- The number without its sign. -/
def Num.abs : Num → Num
  | .nan => .nan
  | .inf _ => .inf false
  | .fin _ m e => .fin false m e

/-- A signed integer times a power of two; zero is +0. -/
def Num.ofInt (x : Int) (e : Int) : Num := .fin (decide (x < 0)) x.natAbs e

/-- The signed mantissa of a number at exponent e, which is not above its own. -/
def Num.scaled (n : Num) (e : Int) : Int :=
  match n with
  | .fin s m e' => (if s then -1 else 1) * (m * 2 ^ (e' - e).toNat : Nat)
  | _ => 0

/-- bitreverse5 (03 R86). -/
def bitreverse5 (x : Nat) : Nat :=
  x % 2 * 16 + x / 2 % 2 * 8 + x / 4 % 2 * 4 + x / 8 % 2 * 2 + x / 16 % 2

/-- A rounding mode with d(i), the threshold of dithered rounding (03 R81, R86). -/
structure RMode where
  mode : Rnd
  dither : Nat
  deriving DecidableEq, Repr

/-- Round to nearest, ties to even. -/
def RMode.rn : RMode := ⟨.rn, 0⟩

/-- A mode that is not dithered. -/
def RMode.plain (r : Rnd) : RMode := ⟨r, 0⟩

/-- The mode with d(i) of an element index and a phase (03 R86). -/
def RMode.at (r : Rnd) (i phase : Nat) : RMode := ⟨r, bitreverse5 ((i + phase) % 32)⟩

/-- Whether a magnitude between n and n + 1, at n + rem / den, rounds up to n + 1 (03 R81, R86). -/
def roundsUp (r : RMode) (neg : Bool) (n rem den : Nat) : Bool :=
  if rem = 0 then false
  else
    match r.mode with
    | .rn => den < 2 * rem || (2 * rem == den && n % 2 == 1)
    | .rz => false
    | .ru => !neg
    | .rd => neg
    | .rdi => r.dither < 32 * rem / den

/-- The magnitude m × 2^e rounded to a multiple of 2^q, in units of 2^q. -/
def roundUnits (r : RMode) (neg : Bool) (m : Nat) (e q : Int) : Nat :=
  if q ≤ e then m * 2 ^ (e - q).toNat
  else
    let den := 2 ^ (q - e).toNat
    let n := m / den
    if roundsUp r neg n (m % den) den then n + 1 else n

/-- The exponent of the highest bit of m × 2^e, for m above 0. -/
def topExp (m : Nat) (e : Int) : Int := (Nat.log2 m : Int) + e

/-- What overflow gives: the infinity or the largest finite magnitude (03 R85). -/
def FloatFmt.overflow (f : FloatFmt) (r : RMode) (sat neg : Bool) : Nat :=
  if f.beyond = .clamp ∨ sat then f.maxCode
  else
    match r.mode with
    | .rn | .rdi => f.maxCode + 1
    | .rz => f.maxCode
    | .ru => if neg then f.maxCode else f.maxCode + 1
    | .rd => if neg then f.maxCode + 1 else f.maxCode

/-- The magnitude code of m × 2^e, for m above 0, rounded once (03 R82, R85, R86). Overflow under .rdi is that of .rn. DEDUCED
(log 57): under .rn a magnitude beyond max overflows from half a step beyond max on, and one below that gives max. -/
def FloatFmt.roundMag (f : FloatFmt) (r : RMode) (sat neg : Bool) (m : Nat) (e : Int) : Nat :=
  let top := topExp m e
  let q := max (top - f.mbits) (1 - (f.bias : Int) - f.mbits)
  let code := fun (r : RMode) => roundUnits r neg m e q + (q + f.bias + f.mbits - 1).toNat * 2 ^ f.mbits
  let c := code r
  if (if r.mode = .rdi then code RMode.rn else c) ≤ f.maxCode then min c f.maxCode
  else f.overflow r sat neg

/-- The code that a format gives a NaN (03 R85): the NaN produced, or +0 in the formats without one. -/
def FloatFmt.nan (f : FloatFmt) : Nat := f.nanCode.getD 0

/-- Round and Encode of 05 R120 for a floating format: a number rounded once to a code, .sat or not. An exact zero gives
+0 (03 R82; log 10); a nonzero value that rounds to zero keeps its sign. -/
def FloatFmt.round (f : FloatFmt) (r : RMode) (sat : Bool) (x : Num) : Nat :=
  let sign := fun (neg : Bool) => if neg then 2 ^ (f.ebits + f.mbits) else 0
  match x with
  | .nan => f.nan
  | .inf neg => sign neg + (if f.beyond = .clamp ∨ sat then f.maxCode else f.maxCode + 1)
  | .fin neg m e => if m = 0 then 0 else sign neg + f.roundMag r sat neg m e

/-- The value of an S10 code (03 R79). -/
def s10Decode (c : Nat) : Num :=
  let e := c / 16 % 64
  if e = 0 then .fin false 0 0 else .fin false (16 + c % 16) ((e : Int) - 35)

/-- A number rounded to an S10 code (03 R79, R85, R86). -/
def s10Round (r : RMode) (x : Num) : Nat :=
  match x with
  | .nan => 0
  | .inf neg => if neg then 0 else 0x3FF
  | .fin neg m e =>
    if m = 0 ∨ neg then 0
    else
      let top := topExp m e
      if top < -30 then (if roundUnits r false m e (-30) = 0 then 0 else 0x010)
      else min 0x3FF ((top + 30).toNat * 16 + roundUnits r false m e (top - 4))

/-- A number rounded to an integer between lo and hi (03 R85, R86). -/
def roundInt (r : RMode) (lo hi : Int) (x : Num) : Int :=
  match x with
  | .nan => 0
  | .inf neg => if neg then lo else hi
  | .fin neg m e =>
    let n : Int := roundUnits r neg m e 0
    max lo (min hi (if neg then -n else n))

/-- The sum of two numbers, exactly; a zero sum is −0 only for a sum of zeros under .rd with opposite signs
(03 R82, 08 R185), which `rd` selects. -/
def Num.add (rd : Bool) (x y : Num) : Num :=
  match x, y with
  | .nan, _ => .nan
  | _, .nan => .nan
  | .inf a, .inf b => if a = b then .inf a else .nan
  | .inf a, _ => .inf a
  | _, .inf b => .inf b
  | .fin a m e, .fin b n f =>
    if m = 0 ∧ n = 0 then .fin (rd && a != b) 0 0
    else
      let q := min e f
      Num.ofInt ((Num.fin a m e).scaled q + (Num.fin b n f).scaled q) q

/-- The product of two numbers, exactly; a zero product has the product of the signs (08 R185). -/
def Num.mul (x y : Num) : Num :=
  match x, y with
  | .nan, _ => .nan
  | _, .nan => .nan
  | .inf a, .inf b => .inf (a != b)
  | .inf a, .fin b n _ => if n = 0 then .nan else .inf (a != b)
  | .fin a m _, .inf b => if m = 0 then .nan else .inf (a != b)
  | .fin a m e, .fin b n f => .fin (a != b) (m * n) (e + f)

/-- A quotient of positive integers as a dyadic number that rounds as the quotient does: enough bits, then a sticky bit. -/
def quotient (neg : Bool) (m n : Nat) (e : Int) : Num :=
  let k := 160 + Nat.log2 n
  let q := m * 2 ^ k / n
  let s := if m * 2 ^ k % n = 0 then 0 else 1
  .fin neg (2 * q + s) (e - k - 1)

/-- x / y with the special cases of 16 R339. -/
def Num.div (x y : Num) : Num :=
  match x, y with
  | .nan, _ => .nan
  | _, .nan => .nan
  | .inf _, .inf _ => .nan
  | .inf a, .fin b _ _ => .inf (a != b)
  | .fin _ _ _, .inf _ => .fin false 0 0
  | .fin a m e, .fin b n f =>
    if n = 0 then (if m = 0 then .nan else .inf (a != b))
    else if m = 0 then .fin false 0 0
    else quotient (a != b) m n (e - f)

/-- Integer square root by bits: the largest r + partial with square not above n. -/
def isqrtBits (n : Nat) : Nat → Nat → Nat
  | 0, r => r
  | k + 1, r => isqrtBits n k (if (r + 2 ^ k) * (r + 2 ^ k) ≤ n then r + 2 ^ k else r)

/-- The integer square root. -/
def isqrt (n : Nat) : Nat := isqrtBits n (Nat.log2 n / 2 + 1) 0

/-- The square root of a positive dyadic, as a dyadic that rounds as the root does. -/
def sqrtNum (m : Nat) (e : Int) : Num :=
  let m' := if e % 2 = 0 then m * 2 ^ 120 else m * 2 ^ 121
  let e' := if e % 2 = 0 then e - 120 else e - 121
  let r := isqrt m'
  .fin false (2 * r + (if r * r = m' then 0 else 1)) (e' / 2 - 1)

/-- The reciprocal square root of a positive dyadic, as a dyadic that rounds as the root does. -/
def rsqrtNum (m : Nat) (e : Int) : Num :=
  let m' := if e % 2 = 0 then m else 2 * m
  let e' := if e % 2 = 0 then e else e - 1
  let k := 100 + Nat.log2 m'
  let r := isqrt (2 ^ (2 * k) / m')
  .fin false (2 * r + (if r * r * m' = 2 ^ (2 * k) then 0 else 1)) (-(e' / 2) - k - 1)

/-- Order of the real values; −0 and +0 are equal. Neither number is NaN. -/
def Num.lt (x y : Num) : Bool :=
  match x, y with
  | .nan, _ => false
  | _, .nan => false
  | .inf a, .inf b => a && !b
  | .inf a, .fin _ _ _ => a
  | .fin _ _ _, .inf b => !b
  | .fin a m e, .fin b n f =>
    let q := min e f
    decide ((Num.fin a m e).scaled q < (Num.fin b n f).scaled q)

/-- Equality of the real values. -/
def Num.eqv (x y : Num) : Bool := x != .nan && y != .nan && !x.lt y && !y.lt x

/-- The number of an FP32 pattern. -/
def f32 (x : Word) : Num := FloatFmt.fp32.decode x.toNat

/-- A number rounded to an FP32 pattern. -/
def toF32 (r : Rnd) (x : Num) : Word := BitVec.ofNat 32 (FloatFmt.fp32.round (RMode.plain r) false x)

/-- Whether a code is subnormal. -/
def FloatFmt.subnormal (f : FloatFmt) (c : Nat) : Bool :=
  c / 2 ^ f.mbits % 2 ^ f.ebits == 0 && c % 2 ^ f.mbits != 0

/-- .ftz on a code: a subnormal becomes zero of its sign (03 R83). -/
def FloatFmt.flush (f : FloatFmt) (ftz : Bool) (c : Nat) : Nat :=
  if ftz && f.subnormal c then (if testBit c (f.ebits + f.mbits) then 2 ^ (f.ebits + f.mbits) else 0) else c

/-- An exact result rounded to a code. An exact zero is +0, or −0 where the sum of 08 R185 under .rd says so. -/
def FloatFmt.result (f : FloatFmt) (r : Rnd) (x : Num) : Nat :=
  match x with
  | .fin true 0 _ => if r = .rd then 2 ^ (f.ebits + f.mbits) else 0
  | _ => f.round (RMode.plain r) false x

/-- x + y, rounded once, with flushing (08 R185). -/
def FloatFmt.addOp (f : FloatFmt) (r : Rnd) (ftz : Bool) (x y : Nat) : Nat :=
  f.flush ftz (f.result r (Num.add (r == .rd) (f.decode (f.flush ftz x)) (f.decode (f.flush ftz y))))

/-- x − y: FSUB. A zero of y enters with its sign turned (08 R185). -/
def FloatFmt.subOp (f : FloatFmt) (r : Rnd) (ftz : Bool) (x y : Nat) : Nat :=
  f.flush ftz (f.result r (Num.add (r == .rd) (f.decode (f.flush ftz x)) (f.decode (f.flush ftz y)).negate))

/-- x × y. An exact zero product is +0 in every mode (08 R185). -/
def FloatFmt.mulOp (f : FloatFmt) (r : Rnd) (ftz : Bool) (x y : Nat) : Nat :=
  f.flush ftz (f.round (RMode.plain r) false (Num.mul (f.decode (f.flush ftz x)) (f.decode (f.flush ftz y))))

/-- x × y + z, rounded once (08 R185). -/
def FloatFmt.fmaOp (f : FloatFmt) (r : Rnd) (ftz : Bool) (x y z : Nat) : Nat :=
  f.flush ftz (f.result r
    (Num.add (r == .rd) (Num.mul (f.decode (f.flush ftz x)) (f.decode (f.flush ftz y))) (f.decode (f.flush ftz z))))

/-- Whether x is taken before y by a minimum: the order of the reals with −0 below +0 (08 R186). -/
def Num.before (x y : Num) : Bool := x.lt y || (x.eqv y && x.neg && !y.neg)

/-- FMIN or FMAX of two codes (08 R186). -/
def FloatFmt.minMax (f : FloatFmt) (max ftz : Bool) (x y : Nat) : Nat :=
  let x' := f.flush ftz x
  let y' := f.flush ftz y
  let a := f.decode x'
  let b := f.decode y'
  if a = .nan then (if b = .nan then f.nan else y')
  else if b = .nan then x'
  else if max then (if a.before b then y' else x')
  else if b.before a then y' else x'

/-- The exact FP32 pattern of a number that FP32 holds: widening conversions keep the sign of a zero (08 R191). -/
def exactF32 (x : Num) : Word :=
  match x with
  | .fin true 0 _ => 0x80000000
  | _ => toF32 .rn x

end Sys2Proof.Machine

namespace Sys2Proof

open Machine

/-- The floating format of a narrow format, but for S10. -/
def NFmt.float : NFmt → FloatFmt
  | .f16 => .fp16
  | .bf16 => .bf16
  | .e4 => .e4m3
  | .e5 => .e5m2
  | .e3 => .e3m2
  | .e2 => .e2m3
  | .f4 => .e2m1
  | .sc => .fp32

/-- Element width of a narrow format (08 R191). -/
def NFmt.width : NFmt → Nat
  | .f16 | .bf16 => 16
  | .e4 | .e5 => 8
  | .e3 | .e2 => 6
  | .f4 => 4
  | .sc => 10

/-- The value of an element code of a narrow format (05 R120 Decode). -/
def NFmt.decode (m : NFmt) (c : Nat) : Machine.Num := if m = .sc then s10Decode c else m.float.decode c

/-- Round and Encode for a narrow format. -/
def NFmt.round (m : NFmt) (r : RMode) (sat : Bool) (x : Machine.Num) : Nat :=
  if m = .sc then s10Round r x else m.float.round r sat x

/-- The floating format of a packed format. -/
def Half.float : Half → FloatFmt
  | .f16 => .fp16
  | .bf16 => .bf16

/-- The FP8 format of a pack form. -/
def E8.float : E8 → FloatFmt
  | .e4 => .e4m3
  | .e5 => .e5m2

end Sys2Proof
end

