-- ==== Sys2Proof/Machine/Transcendental.lean ====
section
/-! DEFINITION. The transcendentals (08 R189). Each value is bracketed by integer arithmetic at a precision that is raised
until both ends of the bracket round to one FP32 pattern (log 12). -/

namespace Sys2Proof.Machine

/-- Sum of x^(step k) / ((c) (c+1) … ) style series in fixed point: adds terms t(k+1) = t(k) × x2 / d(k) until the fuel ends
or the term is 0. `sgn` alternates signs when `alt` holds. Scale 2^p. -/
def seriesSum (p : Nat) (x2 : Nat) (alt : Bool) (den : Nat → Nat) : Nat → Nat → Nat → Int → Int
  | 0, _, _, acc => acc
  | fuel + 1, k, t, acc =>
    if t = 0 then acc
    else
      let acc' := if alt && k % 2 == 1 then acc - t else acc + t
      seriesSum p x2 alt den fuel (k + 1) (t * x2 / 2 ^ p / den k) acc'

/-- ln 2 × 2^p, below the true value by less than p + 8: the sum of 1 / (k 2^k). -/
def ln2Fixed (p : Nat) : Nat := ((List.range (p + 4)).map fun k => 2 ^ p / ((k + 1) * 2 ^ (k + 1))).sum

/-- arctan(1/n) × 2^p by its series, within p units. -/
def atanInv (p n : Nat) : Int :=
  ((List.range (p / 2 + 4)).foldl (fun (acc : Int × Nat) k =>
    let term : Int := (acc.2 / (2 * k + 1) : Nat)
    (if k % 2 = 0 then acc.1 + term else acc.1 - term, acc.2 / (n * n))) (0, 2 ^ p / n)).1

/-- π × 2^p by Machin's formula, within 32 p units. -/
def piFixed (p : Nat) : Nat := (4 * (4 * atanInv p 5 - atanInv p 239)).toNat

/-- e^x × 2^p for 0 ≤ x < 1 given as x × 2^p. -/
def expFixed (p x : Nat) : Nat := (seriesSum p x false (fun k => k + 1) (p + 8) 0 (2 ^ p) 0).toNat

/-- sin of x × 2^p for 0 ≤ x < 2, scaled by 2^p. -/
def sinFixed (p x : Nat) : Int :=
  seriesSum p (x * x / 2 ^ p) true (fun k => (2 * k + 2) * (2 * k + 3)) (p + 8) 0 x 0

/-- cos of x × 2^p for 0 ≤ x < 2, scaled by 2^p. -/
def cosFixed (p x : Nat) : Int :=
  seriesSum p (x * x / 2 ^ p) true (fun k => (2 * k + 1) * (2 * k + 2)) (p + 8) 0 (2 ^ p) 0

/-- log2 of a mantissa between 1 and 2, given as z × 2^p, in p bits: each squaring yields one bit. -/
def log2Bits (p : Nat) : Nat → Nat → Nat → Nat
  | 0, _, acc => acc
  | fuel + 1, z, acc =>
    let z2 := z * z / 2 ^ p
    if 2 ^ (p + 1) ≤ z2 then log2Bits p fuel (z2 / 2) (2 * acc + 1) else log2Bits p fuel z2 (2 * acc)

/-- The first bracket whose ends round to one pattern; the lower end of the last bracket if the precisions run out (log 12). -/
def settleBracket (bracket : Nat → Num × Num) : List Nat → Word
  | [] => 0
  | [p] => toF32 .rn (bracket p).1
  | p :: rest =>
    let lo := toF32 .rn (bracket p).1
    let hi := toF32 .rn (bracket p).2
    if lo = hi then lo else settleBracket bracket rest

/-- The precisions tried. -/
def precisions : List Nat := [224, 448, 896]

/-- A number between two fixed-point ends around v × 2^-p, v off by at most err. -/
def bracketOf (v : Int) (err : Int) (p : Nat) (e : Int) : Num × Num := (Num.ofInt (v - err) (e - p), Num.ofInt (v + err) (e - p))

/-- 2^x of a finite nonzero number (08 R189): exact for integers; far out of range it overflows or vanishes. -/
def exp2Num (neg : Bool) (m : Nat) (e : Int) : Word :=
  if 8 < topExp m e then toF32 .rn (if neg then .fin false 1 (-1000) else .fin false 1 1000)
  else if topExp m e < -40 then 0x3F800000
  else
    let fx : Int := (Num.fin neg m e).scaled (min e 0)
    let sc : Int := 2 ^ (-(min e 0)).toNat
    let i := fx / sc
    let f := (fx % sc).toNat
    if f = 0 then toF32 .rn (.fin false 1 i)
    else settleBracket (fun p => bracketOf (expFixed p (f * ln2Fixed p / sc.toNat)) (16 * p) p i) precisions

/-- log2 of a positive finite number (08 R189). -/
def log2Num (m : Nat) (e : Int) : Word :=
  let k := Nat.log2 m
  let top := topExp m e
  if m = 2 ^ k then toF32 .rn (Num.ofInt top 0)
  else
    settleBracket (fun p =>
      let z := if k ≤ 2 * p then m * 2 ^ (2 * p - k) else m
      let b := log2Bits (2 * p) p z 0
      (Num.ofInt (top * 2 ^ p + b - 1) (-p), Num.ofInt (top * 2 ^ p + b + 2) (-p))) precisions

/-- sin(π x) or cos(π x) of a finite nonzero number (08 R189): x is reduced exactly to a quarter of a half-turn. -/
def halfTurn (cosine neg : Bool) (m : Nat) (e : Int) : Word :=
  if 1 ≤ e then (if cosine then 0x3F800000 else 0)
  else
    let one := 2 ^ (-e).toNat
    let x := m % (2 * one)
    -- x / one lies in [0, 2): the quadrant, and the distance within it
    let quad := 2 * x / one
    let r2 := 2 * x % one
    -- value of the quadrant's function at r = r2 / (2 one), 0 ≤ r < 1/2
    let isCos := if quad % 2 = 0 then cosine else !cosine
    let minus := if cosine then quad == 1 || quad == 2 else quad == 2 || quad == 3
    let sign := if cosine then minus else minus != neg
    if r2 = 0 then
      (if isCos then (if sign then 0xBF800000 else 0x3F800000) else 0)
    else
      let v := settleBracket (fun p =>
        let p' := p + (-e).toNat
        let a := r2 * piFixed p' / (2 * one)
        if isCos then bracketOf (cosFixed p' a) (64 * p') p' 0 else bracketOf (sinFixed p' a) (64 * p') p' 0) precisions
      if sign then v ^^^ 0x80000000 else v

/-- The seven functions. -/
inductive Trans where
  | rcp
  | rsq
  | sqrt
  | exp2
  | log2
  | sin
  | cos
  deriving DecidableEq, Repr

/-- The result of a transcendental before the flush of its result (08 R189). -/
def transValue (t : Trans) (x : Num) : Word :=
  match t, x with
  | _, .nan => 0x7FC00000
  | .rcp, .inf s => if s then 0x80000000 else 0
  | .rcp, .fin s 0 _ => if s then 0xFF800000 else 0x7F800000
  | .rcp, .fin s m e => toF32 .rn (quotient s 1 m (-e))
  | .rsq, .inf s => if s then 0x7FC00000 else 0
  | .rsq, .fin s m e => if m = 0 then 0x7F800000 else if s then 0x7FC00000 else toF32 .rn (rsqrtNum m e)
  | .sqrt, .inf s => if s then 0x7FC00000 else 0x7F800000
  | .sqrt, .fin s m e => if m = 0 then 0 else if s then 0x7FC00000 else toF32 .rn (sqrtNum m e)
  | .exp2, .inf s => if s then 0 else 0x7F800000
  | .exp2, .fin s m e => if m = 0 then 0x3F800000 else exp2Num s m e
  | .log2, .inf s => if s then 0x7FC00000 else 0x7F800000
  | .log2, .fin s m e => if m = 0 then 0xFF800000 else if s then 0x7FC00000 else log2Num m e
  | .sin, .inf _ => 0x7FC00000
  | .sin, .fin s m e => if m = 0 then 0 else halfTurn false s m e
  | .cos, .inf _ => 0x7FC00000
  | .cos, .fin s m e => if m = 0 then 0x3F800000 else halfTurn true s m e

/-- A transcendental of an FP32 pattern, with .ftz (08 R189). -/
def transOp (t : Trans) (ftz : Bool) (x : Word) : Word :=
  let y := transValue t (FloatFmt.fp32.decode (FloatFmt.fp32.flush ftz x.toNat))
  BitVec.ofNat 32 (FloatFmt.fp32.flush ftz y.toNat)

end Sys2Proof.Machine
end

