-- ==== Sys2Proof/Machine/Units.lean ====
section
/-! DEFINITION. The units of the package as they are after reset, and how the state's tables of them are read and written.
A unit that a table does not list is as it is after reset. Also the part's geometry (00 R9, 14 R314, 18 R375 to R378) and
its clocks (00 R6, 07 R172). -/

namespace Sys2Proof.Machine

/-- A core after reset: the values of 01 R34, and the choices of log 1 and log 2. -/
def Core.reset : Core :=
  { binTimer := 0x200, splitEn := true, frameBase := none, frameLim := 0x1000, heldBase := none, heldLim := none,
    handlers := [], heldHandlers := [], heldSplit := none, bins := [], slots := [], meets := [], inbound := [], offers := [], seek := .idle, starve := 0,
    starved := false, poolWait := false, activeAt := none, servedAt := none, evicted := [], spawnSeq := 0, copies := [], wins := [], spad := [], bad := [], l1 := [], gen := 0,
    sinceSweep := 0, sweeping := false, edge := false, tlb := [], grows := [] }

/-- An accumulator slot that no MZERO has written: its contents are undefined after core reset (10 R249; log 2). -/
def AccSlot.reset : AccSlot := { mode := .f32, phase := 0, elems := [] }

/-- A cluster after reset; the unit blocks' fields are undefined (16 R366; log 2). -/
def Cluster.reset : Cluster :=
  { vault := [], bad := [], slots := [], queues := [], rotor := 0, cam := ⟨0, 0, 0, 0, 0, 0, 0, 0⟩, dice := ⟨0, 0, 0, 0⟩,
    rast := ⟨0, 0⟩, heldCam := none, deck := [], bucket := none, opening := none, spillUsed := [] }

/-- A physical die after reset (12 R304, 14 R316, 20 R407, R408). -/
def Die.reset : Die :=
  { timeBase := 0, walks := [], thresh := 0x10, eager := true, replMade := 0, replDropped := 0, missLocal := 0,
    missRemote := 0, contBad := 0, sweeps := 0, autogate := false, idleUs := 1000, gated := false, idleSince := 0,
    ras := [], remoteReads := [], replicas := [], replWanted := [], reported := none }

/-- A distributor after reset. -/
def Dist.reset : Dist :=
  { children := [], lost := false, answered := 0, asking := [], reports := [], offers := [], inbound := [] }

/-- A launch queue after reset (18 R370). -/
def Queue.reset : Queue :=
  { base := 0, size := 0, enable := false, ctxid := 0, tail := 0, head := 0, seq := 0, dealtPrev := true, donePrev := true,
    last := none }

/-- An execution context after reset (18 R370). -/
def Ctx.reset : Ctx :=
  { root := 0, csa := 0, csalim := 0, state := .running, err := 0, susp := 0, susplim := 0, dbgrep := 0, stopped := false, resuming := false,
    vector := 0, irq := false, stops := [], kills := [], savedBins := [], savedInbound := [], savedEntries := [],
    savedBuckets := [], savedOpening := [], savedBlocks := [], savedSlots := [], savedMeets := [],
    savedRes := [], savedCoreAt := [], savedClusterAt := [] }

/-- A display head after reset (20 R402). -/
def Head.reset : Head :=
  { en := false, depth := false, base := 0, pitch := 0, swapAddr := 0, swapMp := 0, swap := none, swapAt := 0, late := 0,
    linkup := false, hactive := 0, htotal := 0, hstart := 0, hwidth := 0, hpol := false, vactive := 0, vtotal := 0,
    vstart := 0, vwidth := 0, vpol := false, khz := 0, lanes := 0, rate := 0, start := 0, framed := false, edge := none, line := 0, column := 0, shown := [] }

/-- A future entry at package reset: freed, generation 0 (01 R45). -/
def Future.reset : Future := { gen := 0, state := none, waiters := [], stamp := 0 }

/-- The append record of a page mapped after a free (09 R221). -/
def AppendRec.reset : AppendRec := { tail := 0, landed := 0, closed := false, sealed := false, closedAt := 0 }

/-- No fault recorded. -/
def FaultRec.none : FaultRec := ⟨0, 0, 0, 0, 0, 0⟩

def State.core (s : State) (g : Nat) : Core := s.cores.getD g Core.reset
def State.setCore (s : State) (g : Nat) (c : Core) : State := { s with cores := s.cores.put g c }
def State.onCore (s : State) (g : Nat) (f : Core → Core) : State := s.setCore g (f (s.core g))
def State.cluster (s : State) (n : Nat) : Cluster := s.clusters.getD n Cluster.reset
def State.setCluster (s : State) (n : Nat) (c : Cluster) : State := { s with clusters := s.clusters.put n c }
def State.onCluster (s : State) (n : Nat) (f : Cluster → Cluster) : State := s.setCluster n (f (s.cluster n))
def State.die (s : State) (p : Nat) : Die := s.dies.getD p Die.reset
def State.onDie (s : State) (p : Nat) (f : Die → Die) : State := { s with dies := s.dies.put p (f (s.die p)) }
def State.dist (s : State) (v : Nat) : Dist := s.dists.getD v Dist.reset
def State.onDist (s : State) (v : Nat) (f : Dist → Dist) : State := { s with dists := s.dists.put v (f (s.dist v)) }
def State.queue (s : State) (q : Nat) : Queue := s.queues.getD q Queue.reset
def State.onQueue (s : State) (q : Nat) (f : Queue → Queue) : State := { s with queues := s.queues.put q (f (s.queue q)) }
def State.ctx (s : State) (c : Nat) : Ctx := s.ctxs.getD c Ctx.reset
def State.onCtx (s : State) (c : Nat) (f : Ctx → Ctx) : State := { s with ctxs := s.ctxs.put c (f (s.ctx c)) }
def State.head (s : State) (h : Nat) : Head := s.heads.getD h Head.reset
def State.onHead (s : State) (h : Nat) (f : Head → Head) : State := { s with heads := s.heads.put h (f (s.head h)) }
def State.onThread (s : State) (k : FrameRef) (f : Thread → Thread) : State := { s with threads := s.threads.update k f }
def State.onFrame (s : State) (k : FrameRef) (f : Frame → Frame) : State := { s with frames := s.frames.update k f }
def State.onLaunch (s : State) (l : Nat) (f : Launch → Launch) : State := { s with launches := s.launches.update l f }
def State.onRender (s : State) (l : Nat) (f : Render → Render) : State := { s with renders := s.renders.update l f }
def State.onPkg (s : State) (f : Pkg → Pkg) : State := { s with pkg := f s.pkg }
def State.send (s : State) (m : Msg) : State := { s with net := s.net ++ [m] }
def State.emit (s : State) (o : Output) : State := { s with outputs := s.outputs ++ [o] }
def State.signal (s : State) (vector : Nat) : State := s.emit (.msix vector)

/-- A fresh number. -/
def State.fresh (s : State) : Nat × State := (s.nextId, { s with nextId := s.nextId + 1 })

/-- The core of a frame reference, and its index there. -/
def coreOf (k : FrameRef) : Nat := k / Config.frameSpan
def indexOf (k : FrameRef) : Nat := k % Config.frameSpan

/-- Virtual die, physical core index and cluster of a global core (00 R9). -/
def dieOf (g : Nat) : Nat := g / Config.dieCores
def physOf (g : Nat) : Nat := g % Config.dieCores
def clusterOf (g : Nat) : Nat := 9 * dieOf g + physOf g / 4
/-- The global number of core j of a cluster. -/
def coreOfCluster (cl j : Nat) : Nat := Config.dieCores * (cl / 9) + 4 * (cl % 9) + j

/-- The physical die of a virtual die (18 R376). -/
def State.physDie (s : State) (v : Nat) : Nat := bitsOf s.pkg.phys (2 * v + 1) (2 * v)

/-- The enable mask of a virtual die; 0 for a die not present (18 R375). -/
def State.enableMask (s : State) (v : Nat) : Nat :=
  if v < s.fuses.dies ∧ s.physDie v < s.fuses.dies then s.fuses.enable.getD (s.physDie v) 0 else 0

/-- Whether a global core is enabled. -/
def State.coreOn (s : State) (g : Nat) : Bool := testBit (s.enableMask (dieOf g)) (physOf g)

/-- The enabled cores of a cluster, ascending: entry j is the core of logical index j (18 R375). -/
def State.clusterCores (s : State) (cl : Nat) : List Nat := ((List.range 4).map (coreOfCluster cl)).filter s.coreOn

/-- The enabled cores of a virtual die, ascending. -/
def State.dieCoreList (s : State) (v : Nat) : List Nat := (span (Config.dieCores * v) Config.dieCores).filter s.coreOn

/-- Every enabled core, ascending. -/
def State.allCores (s : State) : List Nat := (List.range s.fuses.dies).flatMap s.dieCoreList

/-- The capacity of device memory in bytes (00 R8, 07 R173). -/
def State.capacity (s : State) : Nat := s.fuses.memGb * 2 ^ 30

/-- The interleaved home die of a physical address, a physical die (14 R314). -/
def State.homeDie (s : State) (pa : Nat) : Nat :=
  let h := (bitsOf pa 13 12 ^^^ bitsOf pa 21 20) ^^^ (bitsOf pa 29 28 ^^^ bitsOf pa 37 36)
  if s.fuses.dies ≤ 2 then h % 2 else h

/-- Physical address of a frame in its core's frame area (01 R34, R38). -/
def State.frameBase (s : State) (g : Nat) : Nat := (s.core g).frameBase.getD (s.pkg.areabase + 2 ^ 26 * g)
def State.frameAddr (s : State) (k : FrameRef) : Nat := s.frameBase (coreOf k) + 64 * indexOf k

/-- Nanoseconds of the clock: 1.2 GHz (00 R6). -/
def State.nanos (s : State) : Nat := s.cycle * 5 / 6

/-- Cycles in a number of microseconds. -/
def micros (us : Nat) : Nat := us * 1200

/-- The timebase of a virtual die (07 R172). -/
def State.timebase (s : State) (v : Nat) : Nat := ((s.die (s.physDie v)).timeBase + s.nanos) % 2 ^ 64

/-- TIME of a thread: max(timebase, FLOOR of its own frame) (07 R172). -/
def State.timeOf (s : State) (k : FrameRef) : Nat :=
  max (s.timebase (dieOf (coreOf k))) ((s.frames.get k).elim 0 Frame.floor)

/-- A RAS counter counts one event on a physical die, saturating (20 R408). -/
def State.count (s : State) (die k : Nat) : State :=
  s.onDie die fun d => { d with ras := d.ras.put k (min 0xFFFFFFFF (d.ras.getD k 0 + 1)) }

/-- A RAS counter on the die of a core. -/
def State.countAt (s : State) (g k : Nat) : State := s.count (s.physDie (dieOf g)) k

/-- An uncorrectable error is counted and reported, at most once a millisecond for each die (20 R408). -/
def State.uncorrectable (s : State) (die k : Nat) : State :=
  let s := s.count die k
  let due := match (s.die die).reported with
    | none => true
    | some c => c + micros 1000 ≤ s.cycle
  if s.pkg.rasen && due then (s.onDie die fun d => { d with reported := some s.cycle }).signal s.pkg.rasvec else s

/-- The threads of a core. -/
def State.threadsOf (s : State) (g : Nat) : List (FrameRef × Thread) := s.threads.filter fun (k, _) => coreOf k == g

/-- A thread holds a context and registers unless it is suspended. -/
def Thread.resident (t : Thread) : Bool := t.susp.isNone

/-- The thread resident in a context of a lane. -/
def State.inContext (s : State) (g part lane cx : Nat) : Option (FrameRef × Thread) :=
  (s.threadsOf g).find? fun (_, t) => t.resident && t.part == part && t.lane == lane && t.cx == cx

/-- The lowest free context of a lane (01 R18, R32). -/
def State.freeContext (s : State) (g part lane : Nat) : Option Nat :=
  (List.range Config.contexts).find? fun c => (s.inContext g part lane c).isNone

/-- Free registers of a lane's pool of 1,024 (01 R54). -/
def State.freeRegs (s : State) (g part lane : Nat) : Nat :=
  1024 - ((s.threadsOf g).filterMap fun (_, t) =>
    if t.resident && t.part == part && t.lane == lane then some t.alloc else none).sum

/-- The n lowest indexes of free frames of a core. A placed thread takes one; the spec says a free frame and not which: DESIGN
CHOICE, the lowest index (01 R38; log 54). -/
def State.freeFrames (s : State) (g n : Nat) : List Nat :=
  let used := (s.frames.filter fun (k, _) => coreOf k == g).map fun (k, _) => indexOf k
  ((List.range (used.length + n)).filter fun i => i < (s.core g).frameLim && !used.contains i).take n

/-- A core has n free frames. -/
def State.hasFrames (s : State) (g n : Nat) : Bool :=
  ((s.frames.filter fun (k, _) => coreOf k == g).length + n ≤ (s.core g).frameLim)

end Sys2Proof.Machine
end

