-- ==== Sys2Proof/Machine/Cache.lean ====
section
/-! DEFINITION. Device memory at home, uncorrectable storage, the L1 of each core and its generations
(12 R290 to R298, 14 R311 to R316, 20 R410; log 13). -/

namespace Sys2Proof.Machine

/-- The frame, with VALID set, whose 64 bytes in a frame area hold a physical address (01 R43). -/
def State.frameAt (s : State) (pa : Nat) : Option FrameRef :=
  (s.frames.keys).find? fun k => s.frameAddr k ≤ pa && pa < s.frameAddr k + 64

/-- One byte written at its home: it replaces data and check bits (20 R410). -/
def State.poke (s : State) (pa : Nat) (b : Byte) : State :=
  { s with mem := writeByte s.mem pa b, poison := s.poison.filter (· != pa) }

/-- Bytes written at home by the device itself. -/
def State.pokes (s : State) (pa : Nat) (bs : List Byte) : State :=
  match bs with
  | [] => s
  | b :: rest => (s.poke pa b).pokes (pa + 1) rest

/-- Addressed bytes written by a thread, an engine or the host at the home of an access: a byte of a frame with VALID set is
discarded, and the write is counted by that die (01 R43; 20 R408). -/
def State.homeCells (s : State) (die : Nat) (l : List (Nat × Byte)) : State :=
  let taken := fun (a : Nat) => (s.frameAt a).isSome
  let s1 := l.foldl (fun (acc : State) (a, b) => if taken a then acc else acc.poke a b) s
  if l.any fun (a, _) => taken a then s1.count die 5 else s1

/-- Bytes written at the home of an access. -/
def State.homeWriteAt (s : State) (die pa : Nat) (bs : List Byte) : State :=
  s.homeCells die ((bs.zipIdx).map fun (b, i) => (pa + i, b))

/-- Bytes written at their interleaved home, by what no leaf places: the host, the processors, append pages. -/
def State.homeWrite (s : State) (pa : Nat) (bs : List Byte) : State := s.homeWriteAt (s.homeDie pa) pa bs

/-- An address lies outside n bytes from another. -/
def outside (a n x : Nat) : Bool := x < a || a + n ≤ x

/-- Whether a read at home meets uncorrectable data (20 R410). -/
def State.bad (s : State) (pa n : Nat) : Bool := s.poison.any fun a => pa ≤ a && a < pa + n

/-- Bytes of device memory as a unit moves them that has no failure of its own for uncorrectable data: such a byte is dropped
where it is found and is not passed on marked, and the byte that stands in its place is a free value (20 R408; log 61). -/
def State.soundBytes (s : State) (pa n : Nat) : List Byte :=
  (readBytes s.mem pa n).zipIdx.map fun (b, i) => if s.poison.contains (pa + i) then Config.freeByte (s.free + i) else b

/-- The errors of such a read are counted and reported, and its free values are used up. -/
def State.noteBad (s : State) (pa n : Nat) : State :=
  if s.bad pa n then { s.uncorrectable (s.homeDie pa) 1 with free := s.free + n } else s

/-- The mask of n bytes of a line from an offset. -/
def lineMask (off n : Nat) : BitVec 128 := ((1#128 <<< n) - 1#128) <<< off

/-- Bytes of a line's data. -/
def setLineData (d : Tbl Byte) (off : Nat) (bs : List Byte) : Tbl Byte :=
  match bs with
  | [] => d
  | b :: rest => setLineData (d.put off b) (off + 1) rest

/-- The access bit of the frame that holds a physical address (14 R328). -/
def State.accessed (s : State) (pa : Nat) : State :=
  let f := pa / 4096
  if s.access.contains f then s else { s with access := insertBy id f s.access }

/-- A line is stale when its generation is not its core's, or a sweep has marked it; lines of pages that observe a seal
are never stale (12 R295). -/
def Line.stale (l : Line) (gen : Nat) : Bool := !l.sealed && (l.marked || l.gen != gen)

/-- An L1 fill is counted on the requester's die, local when its home or a replica lies there (14 R316). Remote reads of a
page that observes its seal are counted for a lazy replica (12 R304); `page` is the number of such a page. -/
def State.countFill (s : State) (g home : Nat) (page : Option Nat) : State :=
  let p := s.physDie (dieOf g)
  let here := p == home || page.any (s.die p).replicas.contains
  s.onDie p fun d =>
    if here then { d with missLocal := (d.missLocal + 1) % 2 ^ 48 }
    else { d with missRemote := (d.missRemote + 1) % 2 ^ 48,
                  remoteReads := (match page with
                    | some q => d.remoteReads.put q (d.remoteReads.getD q 0 + 1)
                    | none => d.remoteReads) }

/-- The dirty bytes of a line written to home. -/
def State.cleanLine (s : State) (g line : Nat) : State :=
  let c := s.core g
  match c.l1.get line with
  | none => s
  | some l =>
    if l.dirty = 0 then s
    else
      let cells := ((List.range 128).filter fun i => l.dirty.getLsbD i).map fun i => (128 * line + i, l.data.getD i 0)
      let s1 := s.homeCells l.home cells
      s1.onCore g fun c => { c with l1 := c.l1.put line { l with dirty := 0 } }

/-- A line leaves L1 without write-back. -/
def State.dropLine (s : State) (g line : Nat) : State := s.onCore g fun c => { c with l1 := c.l1.del line }

/-- A line enters an L1 that holds all it can: another line leaves, its dirty bytes written home. Which one is the part's
own choice, a free value (14 R311, R316; log 13). -/
def State.makeRoom (s : State) (g line : Nat) : State :=
  let l1 := (s.core g).l1
  if (l1.get line).isSome || l1.length < Config.l1Lines then s
  else
    let out := l1.keys.getD (Config.freeIndex s.free % l1.length) 0
    (({ s with free := s.free + 1 }).cleanLine g out).dropLine g out

/-- A line filled from home: clean bytes afresh, dirty bytes kept, the core's generation taken (12 R295). A byte that reads
as uncorrectable is not delivered to the line. -/
def State.fill (s : State) (g line home : Nat) (page : Option Nat) : State :=
  let c := s.core g
  let old := c.l1.getD line ⟨0, 0, [], c.gen, false, page.isSome, home⟩
  let fresh := (List.range 128).foldl (fun (acc : BitVec 128 × Tbl Byte) i =>
    if old.dirty.getLsbD i then acc
    else if s.poison.contains (128 * line + i) then (acc.1 &&& ~~~(lineMask i 1), acc.2)
    else (acc.1 ||| lineMask i 1, acc.2.put i (readByte s.mem (128 * line + i)))) (old.holds, old.data)
  ((s.setCore g { c with l1 := c.l1.put line ⟨fresh.1, old.dirty, fresh.2, c.gen, false, page.isSome, home⟩ }).countFill g home
    page).accessed (128 * line)

/-- Makes a line hold n bytes from an offset, filling it when it is absent, stale or partial. A read that observes its page's
seal takes nothing from a line that a read that did not observe it has filled, whose bytes may be older than the seal
(12 R303). -/
def State.touch (s : State) (g line off n home : Nat) (page : Option Nat) : State :=
  let c := s.core g
  match c.l1.get line with
  | some l => if !l.stale c.gen && (page.isNone || l.sealed) && (l.holds &&& lineMask off n == lineMask off n) then s else s.fill g line home page
  | none => (s.makeRoom g line).fill g line home page

/-- Bytes read through L1 within one line, and whether one of them is uncorrectable. -/
def State.readLine (s : State) (g pa n home : Nat) (page : Option Nat) : State × Option (List Byte) :=
  let s1 := s.touch g (pa / 128) (pa % 128) n home page
  match (s1.core g).l1.get (pa / 128) with
  | none => (s1, none)
  | some l =>
    if l.holds &&& lineMask (pa % 128) n == lineMask (pa % 128) n then
      (s1, some ((span (pa % 128) n).map fun i => l.data.getD i 0))
    else (s1, none)

/-- A NORMAL write: dirty bytes of the line (12 R293, 14 R316). -/
def State.writeLine (s : State) (g pa home : Nat) (bs : List Byte) : State :=
  let s := s.makeRoom g (pa / 128)
  let c := s.core g
  let old := c.l1.getD (pa / 128) ⟨0, 0, [], c.gen, false, false, home⟩
  let m := lineMask (pa % 128) bs.length
  let new : Line := { old with holds := old.holds ||| m, dirty := old.dirty ||| m, data := setLineData old.data (pa % 128) bs, home := home }
  s.setCore g { c with l1 := c.l1.put (pa / 128) new }

/-- Every dirty byte of a core's L1 written to home and accepted there (12 R294 step 2). -/
def State.flushCore (s : State) (g : Nat) : State := (s.core g).l1.keys.foldl (fun acc l => acc.cleanLine g l) s

/-- The lines that n bytes touch. -/
def linesOf (pa n : Nat) : List Nat := span (pa / 128) ((pa + n - 1) / 128 + 1 - pa / 128)

/-- The core's dirty bytes of some bytes written to home, before a STREAM or ATOM access (12 R293, 09 R217). -/
def State.cleanBytes (s : State) (g pa n : Nat) : State := (linesOf pa n).foldl (fun acc l => acc.cleanLine g l) s

/-- The core's L1 copy of bytes takes the new value and loses its dirty bits there (12 R293, STREAM writes). -/
def State.updateLine (s : State) (g pa : Nat) (bs : List Byte) : State :=
  let c := s.core g
  match c.l1.get (pa / 128) with
  | none => s
  | some l =>
    let m := lineMask (pa % 128) bs.length
    let new : Line := { l with holds := l.holds ||| m, dirty := l.dirty &&& ~~~m, data := setLineData l.data (pa % 128) bs }
    s.setCore g { c with l1 := c.l1.put (pa / 128) new }

/-- Pieces of a range of bytes that lie each in one line: address and length. -/
def pieces (pa n : Nat) : List (Nat × Nat) :=
  (linesOf pa n).map fun l => (max pa (128 * l), min (pa + n) (128 * l + 128) - max pa (128 * l))

/-- The sweep of a core's L1: every line of another generation is marked stale (12 R297). -/
def State.startSweep (s : State) (g : Nat) : State :=
  (s.onCore g fun c =>
    { c with sweeping := true, sinceSweep := 0,
             l1 := c.l1.mapVals fun _ l => if l.gen != c.gen then { l with marked := true } else l }).onDie (s.physDie (dieOf g))
    fun d => { d with sweeps := (d.sweeps + 1) % 2 ^ 48 }

/-- An incoming edge of a core (12 R296). Its generation is incremented once for all edges of the cycle, at the end of the cycle,
which is before any of the receivers issues again, so that every read of the next cycle treats the lines of the old generation as
stale (12 R296, R310; log 13). -/
def State.incoming (s : State) (g : Nat) : State := s.onCore g fun c => { c with edge := true }

/-- A core's generation is incremented where an edge has come; after 15 increments a sweep starts (12 R296, R297). -/
def State.increment (s : State) (g : Nat) : State :=
  let c := s.core g
  if c.edge then
    let s1 := s.onCore g fun c => { c with gen := (c.gen + 1) % 16, sinceSweep := c.sinceSweep + 1, edge := false }
    if c.sinceSweep + 1 < 15 then s1 else s1.startSweep g
  else s

/-- The increments of a cycle. -/
def State.increments (s : State) : State := s.cores.keys.foldl State.increment s

/-- A die has been idle long enough for its gating, which is not decided yet (20 R407). -/
def State.gateNear (s : State) (v : Nat) : Bool :=
  let d := s.die (s.physDie v)
  d.autogate && !d.gated && d.idleSince + micros d.idleUs ≤ s.cycle

/-- A message for a gated die wakes it; a woken core has a fresh generation (20 R407). One that comes in the cycle in which the gating
would be decided abandons it, and the die's idleness counts afresh (20 R409; log 65). -/
def State.wakeDie (s : State) (v : Nat) : State :=
  if (s.die (s.physDie v)).gated then
    (s.dieCoreList v).foldl State.incoming (s.onDie (s.physDie v) fun d => { d with gated := false, idleSince := s.cycle })
  else if s.gateNear v then s.onDie (s.physDie v) fun d => { d with idleSince := s.cycle + 1 }
  else s

/-- An access to a core's scratchpad wakes its die (20 R407). -/
def State.wakeFor (s : State) (p : Place) : State :=
  match p with
  | .spad g => s.wakeDie (dieOf g)
  | _ => s

/-- The invalidation of a released frame: every replica of the page and every L1 line of its bytes leaves (12 R306). -/
def State.invalidate (s : State) (pa size : Nat) : State :=
  let keep := fun (line : Nat) => 128 * line + 128 ≤ pa || pa + size ≤ 128 * line
  let off := fun (page : Nat) => 4096 * page + 4096 ≤ pa || pa + size ≤ 4096 * page
  { s with
    cores := s.cores.mapVals fun _ c => { c with l1 := c.l1.filter fun (l, _) => keep l },
    dies := s.dies.mapVals fun _ d =>
      { d with replicas := d.replicas.filter off, replWanted := d.replWanted.filter off,
               remoteReads := d.remoteReads.filter fun (p, _) => off p } }

/-- Every core's dirty bytes of a range written to home (14 R329 step 2). -/
def State.cleanRange (s : State) (pa size : Nat) : State :=
  s.cores.keys.foldl (fun acc g =>
    ((acc.core g).l1.keys.filter fun l => pa < 128 * l + 128 && 128 * l < pa + size).foldl (fun a l => a.cleanLine g l) acc) s

/-- A scratchpad or vault read at its place. -/
def State.placeRead (s : State) (p : Place) (a n : Nat) : List Byte :=
  match p with
  | .spad g => readBytes (s.core g).spad a n
  | .vault cl => readBytes (s.cluster cl).vault a n
  | .home => readBytes s.mem a n
  | .remote _ _ _ => (span s.free n).map Config.freeByte

/-- A read of a place meets uncorrectable data (01 R66; 20 R410). -/
def State.placeBad (s : State) (p : Place) (a n : Nat) : Bool :=
  match p with
  | .spad g => (s.core g).bad.any fun x => !outside a n x
  | .vault cl => (s.cluster cl).bad.any fun x => !outside a n x
  | .home => s.bad a n
  | .remote _ _ _ => false

/-- An uncorrectable error found in a place, counted and reported by the die that holds it (20 R408). -/
def State.placeError (s : State) (p : Place) (a : Nat) : State :=
  match p with
  | .spad g => s.uncorrectable (s.physDie (dieOf g)) 3
  | .vault cl => s.uncorrectable (s.physDie (cl / 9)) 3
  | .home => s.uncorrectable (s.homeDie a) 1
  | .remote _ _ _ => s

/-- A read of a place: none where it meets uncorrectable data, which is not delivered (01 R66). -/
def State.checkedRead (s : State) (p : Place) (a n : Nat) : State × Option (List Byte) :=
  if s.placeBad p a n then (s.placeError p a, none) else (s, some (s.placeRead p a n))

/-- A write at its place. A write to another chip's memory leaves this chip, and the other chip acknowledges it at once (20 R400;
log 16). -/
def State.placeWrite (s : State) (p : Place) (a : Nat) (bs : List Byte) : State :=
  match p with
  | .spad g => s.onCore g fun c => { c with spad := writeBytes c.spad a bs, bad := c.bad.filter (outside a bs.length) }
  | .vault cl => s.onCluster cl fun c => { c with vault := writeBytes c.vault a bs, bad := c.bad.filter (outside a bs.length) }
  | .home => s.homeWrite a bs
  | .remote c _ _ => s.emit (.remoteStore c a bs)

end Sys2Proof.Machine
end

