-- ==== Sys2Proof/Machine/Translate.lean ====
section
/-! DEFINITION. Address translation, leases and residency checks (14 R313 to R324). -/

namespace Sys2Proof.Machine

/-- The code of a read that returns uncorrectable data (01 R66, R67). -/
def codeMemUe : Nat := 0x0013

/-- What an access is for (14 R321). -/
inductive Kind where
  | read
  | write
  | atomic
  | append
  | fetch
  | prefetch
  deriving DecidableEq, Repr

/-- Who translates: the core, the root and context, the launch whose lease binds, and whether in state trapped. -/
structure Who where
  gcore : Nat
  ctxid : Nat
  launch : Nat
  trapped : Bool
  deriving DecidableEq, Repr

/-- A translation: physical address, ATTR, physical home die, PLACE, and the leaf's own page: virtual base, physical base
and size (09 R221). -/
structure Tr where
  pa : Nat
  attr : Nat
  home : Nat
  place : Nat
  pageVa : Nat
  pagePa : Nat
  pageSize : Nat
  deriving DecidableEq, Repr

/-- ATTR codes (14 R318). -/
def attrNormal : Nat := 0
def attrStream : Nat := 1
def attrAppend : Nat := 2
def attrSealed : Nat := 3
def attrDevice : Nat := 4

def leafAttr (e : Nat) : Nat := bitsOf e 4 2
def leafPlace (e : Nat) : Nat := bitsOf e 6 5
def leafDie (e : Nat) : Nat := bitsOf e 8 7
def leafCont (e : Nat) : Bool := testBit e 9
def leafRegen (e : Nat) : Bool := testBit e 10
def leafPa (e : Nat) : Nat := bitsOf e 51 12 * 4096
def leafPriv (e : Nat) : Bool := testBit e 52

/-- The size of a leaf at a level: 4 KiB, 2 MiB, 1 GiB. -/
def leafSize (level : Nat) : Nat := 2 ^ (9 * level + 3)

/-- RSVD_BIT of 14 R318, for a valid entry at a level. -/
def rsvdFails (e level : Nat) : Bool :=
  if testBit e 1 then
    level ≥ 4 || testBit e 11 || bitsOf e 63 53 != 0 || leafAttr e ≥ 5 || leafPlace e == 3
    || (leafPlace e == 0 && leafDie e != 0)
    || (leafPlace e == 2 && (leafDie e != 0 || (leafAttr e != 2 && leafAttr e != 3)))
    || leafPa e % leafSize level != 0
  else level == 1 || bitsOf e 11 2 != 0 || bitsOf e 63 52 != 0

/-- Whether a range of bytes lies inside the launch's leased ranges; a launch without ranges has no lease (14 R324). -/
def State.leased (s : State) (launch va n : Nat) : Bool :=
  match s.launches.get launch with
  | none => true
  | some l =>
    l.leases.isEmpty || (l.leases.any fun (b, len) => b ≤ va && va + n ≤ b + len)
      || (span va n).all fun a => l.leases.any fun (b, len) => b ≤ a && a < b + len

/-- A table lies in device memory or in the firmware region (14 R313). -/
def State.tableOk (s : State) (t : Nat) : Bool := t + 4096 ≤ s.capacity

/-- An entry of a table as the walk reads it: from the die's walk cache, or at its home (14 R321, R323). -/
def State.walkRead (s : State) (die a : Nat) : Option Nat :=
  match (s.die die).walks.get a with
  | some e => some e
  | none => if s.bad a 8 then none else some (readNat s.mem a 8)

/-- The walk from a table at a level down: the leaf, its level, its address, and the table entries passed; or a code, with the
address of the entry that gave it (14 R321). -/
def State.walkFrom (s : State) (die va : Nat) : Nat → Nat → List (Nat × Nat) → Except (Nat × Nat) (Nat × Nat × Nat × List (Nat × Nat))
  | 0, t, _ => .error (0x0231, t)
  | level + 1, t, path =>
    let a := t + 8 * bitsOf va (9 * (level + 1) + 11) (9 * (level + 1) + 3)
    match s.walkRead die a with
    | none => .error (codeMemUe, a)
    | some e =>
      if !testBit e 0 then .error (0x0210 + (level + 1), a)
      else if rsvdFails e (level + 1) then .error (0x0220 + (level + 1), a)
      else if testBit e 1 then .ok (e, level + 1, a, path)
      else if !s.tableOk (leafPa e) then .error (0x0231, a)
      else s.walkFrom die va level (leafPa e) (path ++ [(a, e)])

/-- The entries of the aligned group of a contiguous leaf at an address: the first one's address and their number (14 R320). -/
def contEntries (level a : Nat) : Nat × Nat :=
  let n := if level = 3 then 4 else 16
  (a - a % (8 * n), n)

/-- The errors of the members of a group, other than the walked entry, that read as uncorrectable when it is judged (14 R320;
20 R408). -/
def State.noteGroup (s : State) (level a : Nat) : State :=
  let first := (contEntries level a).1
  let hit := (List.range (contEntries level a).2).filter fun j => first + 8 * j != a && s.bad (first + 8 * j) 8
  hit.foldl (fun acc j => acc.uncorrectable (s.homeDie (first + 8 * j)) 1) s

/-- Whether the group of a contiguous leaf is consistent: its base, or none (14 R320). -/
def State.contGroup (s : State) (e level a : Nat) : Option Nat :=
  let n := (contEntries level a).2
  let first := (contEntries level a).1
  let entry := fun j => readNat s.mem (first + 8 * j) 8
  let base := leafPa (entry 0)
  if (List.range n).all (fun j =>
      let x := entry j
      (8 * j + first == a || !s.bad (first + 8 * j) 8) && testBit x 0 && testBit x 1 && leafCont x && !rsvdFails x level
      && leafAttr x == leafAttr e && leafPlace x == leafPlace e && leafDie x == leafDie e && leafRegen x == leafRegen e
      && leafPriv x == leafPriv e && leafPa x == base + j * leafSize level) && base % (n * leafSize level) == 0
  then some base else none

/-- Installs a translation in the core's TLB of 1,024, the oldest leaving (14 R323). -/
def installTlb (t : List TlbEntry) (e : TlbEntry) : List TlbEntry := (e :: t).take 1024

/-- Installs table entries in a walk cache of 512 (14 R323). -/
def installWalks (w : Tbl Nat) : List (Nat × Nat) → Tbl Nat
  | [] => w
  | (a, e) :: rest => installWalks (if w.length < 512 then w.put a e else w) rest

/-- The walk of an address with its installation, or a code and the address of the entry that gave it (14 R320, R321). -/
def State.walk (s : State) (who : Who) (va : Nat) : Except (Nat × Nat) (State × TlbEntry) :=
  let root := (s.ctx who.ctxid).root
  let die := s.physDie (dieOf who.gcore)
  if !s.tableOk root then .error (0x0231, root)
  else
    match s.walkFrom die va 5 root [] with
    | .error c => .error c
    | .ok (e, level, a, path) =>
      let own := leafSize level
      let grp := if leafCont e then s.contGroup e level a else none
      let n := if level = 3 then 4 else 16
      let size := if grp.isSome then n * own else own
      let home := if leafPlace e = 1 then s.physDie (leafDie e) else 0
      let entry : TlbEntry :=
        { root := root, base := va / size * size, size := size, leaf := (grp.elim e fun b => e - leafPa e + b), level := level,
          die := home, page := own }
      let s1 := (if leafCont e then s.noteGroup level a else s).onDie die fun d =>
        { d with walks := installWalks d.walks path,
                 contBad := if leafCont e && grp.isNone then min 0xFFFFFFFF (d.contBad + 1) else d.contBad }
      let s2 := s1.onCore who.gcore fun c => { c with tlb := installTlb c.tlb entry }
      .ok (s2.accessed (leafPa e + va % own), entry)

/-- A physical address lies in a frame area that SSET has placed; those of boot lie in the firmware region (01 R34, R43). -/
def State.inFrameArea (s : State) (pa : Nat) : Bool :=
  s.cores.any fun (_, c) => c.frameBase.any fun b => b ≤ pa && pa < b + 64 * c.frameLim

/-- The region and attribute check of 14 R313, the die check of R314, and the refusal of user mappings of frame areas (01 R43). -/
def State.paRefused (s : State) (pa attr place vdie : Nat) (priv : Bool) : Bool :=
  (if pa < s.pkg.fwbase then !priv && s.inFrameArea pa
   else if pa < s.capacity then !(priv && (attr == 0 || attr == 1 || attr == 4))
   else if Config.devRegs ≤ pa && pa < 2 ^ 52 then attr != 4
   else true) || (place == 1 && s.fuses.dies ≤ vdie)

/-- The refusal of a write, an atomic or an append by a page's attribute (09 R213, R217, R222). -/
def State.attrFault (s : State) (kind : Kind) (attr page : Nat) : Option Nat :=
  let sealed := (s.appends.getD page AppendRec.reset).sealed
  match kind with
  | .read | .prefetch => none
  | .fetch => if attr = attrDevice then some 0x0232 else none
  | .write | .atomic =>
    if attr = attrSealed ∨ (attr = attrAppend ∧ sealed) then some 0x0033
    else if attr = attrAppend then some 0x0032
    else if kind = .atomic ∧ attr = attrDevice then some 0x0037
    else none
  | .append => if attr = attrAppend then none else some 0x0035

/-- Translate of 05 R120 for n bytes that lie in one 4 KiB page: the state with the translation installed, and the
translation or the code of the fault (14 R321). An uncorrectable entry on the walk's path is counted and reported by its home
(20 R408). -/
def State.translate (s : State) (who : Who) (va n : Nat) (kind : Kind) : State × Except Nat Tr :=
  if !s.leased who.launch va n then (s, .error 0x0233)
  else
    let found := (s.core who.gcore).tlb.find? fun t =>
      t.root == (s.ctx who.ctxid).root && t.base ≤ va && va < t.base + t.size
    let r : Except (Nat × Nat) (State × TlbEntry) := match found with
      | some t => .ok (s, t)
      | none => s.walk who va
    match r with
    | .error (c, a) => (if c = codeMemUe then s.uncorrectable (s.homeDie a) 1 else s, .error c)
    | .ok (s1, t) =>
      let pa := leafPa t.leaf / t.size * t.size + va % t.size
      let place := leafPlace t.leaf
      let attr := leafAttr t.leaf
      if leafPriv t.leaf && !who.trapped then (s1, .error 0x0230)
      else if s.paRefused pa attr place (leafDie t.leaf) (leafPriv t.leaf) then (s1, .error 0x0231)
      else
        let page := pa / t.page * t.page
        match s.attrFault kind attr page with
        | some c => (s1, .error c)
        | none =>
          (s1, .ok { pa := pa, attr := attr, home := if place = 1 then t.die else s.homeDie pa, place := place,
                     pageVa := va / t.page * t.page, pagePa := page, pageSize := t.page })

/-- Whether a read through a translation observes the page's seal (12 R303 cases 1 and 2). -/
def State.observes (s : State) (t : Tr) : Bool :=
  t.attr == attrSealed || (t.attr == attrAppend && (s.appends.getD t.pagePa AppendRec.reset).sealed)

/-- Bytes of g read for a thread or a fetch at a translated address within one line's page: through L1 or at home
(12 R293, R301). `none` is uncorrectable data. -/
def State.globRead (s : State) (g : Nat) (t : Tr) (n : Nat) : State × Option (List Byte) :=
  let page := if s.observes t then some (t.pagePa / 4096) else none
  if t.attr = attrNormal ∨ page.isSome then
    (pieces t.pa n).foldl (fun (acc : State × Option (List Byte)) (a, k) =>
      match acc.2 with
      | none => acc
      | some bs =>
        let r := acc.1.readLine g a k t.home page
        (r.1, r.2.map (bs ++ ·))) (s, some [])
  else
    let s1 := s.cleanBytes g t.pa n
    if s1.bad t.pa n then (s1, none) else (s1, some (readBytes s1.mem t.pa n))

/-- The parts of a range of g that lie each in one 4 KiB page: address and length. -/
def pageParts (va n : Nat) : List (Nat × Nat) :=
  (span (va / 4096) ((va + n + 4095) / 4096 - va / 4096)).map fun p => (max va (4096 * p), min (va + n) (4096 * p + 4096) - max va (4096 * p))

/-- The parts of a range of g translated, for an access that may cross pages: each part's translation with its address and
length, in order, or the code and address of the first that fails; an address of 57 bits or more is BAD_ADDR (09 R205). -/
def State.translateParts (s : State) (who : Who) (kind : Kind) :
    List (Nat × Nat) → State × Except (Nat × Nat) (List (Tr × Nat × Nat))
  | [] => (s, .ok [])
  | (va, n) :: rest =>
    if 2 ^ 57 ≤ va then (s, .error (0x0030, va))
    else
    match s.translate who va n kind with
    | (s1, .error c) => (s1, .error (c, va))
    | (s1, .ok t) =>
      match s1.translateParts who kind rest with
      | (s2, .error c) => (s2, .error c)
      | (s2, .ok ts) => (s2, .ok ((t, va, n) :: ts))

/-- A read of n bytes of g by an engine, at home (09 R226, 12 R280): the bytes, or a code and its address. -/
def State.engineRead (s : State) (who : Who) (va n : Nat) : State × Except (Nat × Nat) (List Byte) :=
  match s.translateParts who .read (pageParts va n) with
  | (s1, .error c) => (s1, .error c)
  | (s1, .ok ts) =>
    match ts.findSome? fun (t, a, m) => ((List.range m).find? fun i => s1.bad (t.pa + i) 1).map fun i => (t.pa + i, a + i) with
    | some (pa, a) => (s1.uncorrectable (s1.homeDie pa) 1, .error (codeMemUe, a))
    | none => (s1, .ok (ts.flatMap fun (t, _, m) => readBytes s1.mem t.pa m))

/-- A write of bytes of g by an engine, at home (09 R226). -/
def State.engineWrite (s : State) (who : Who) (va : Nat) (bs : List Byte) : State × Except (Nat × Nat) Unit :=
  match s.translateParts who .write (pageParts va bs.length) with
  | (s1, .error c) => (s1, .error c)
  | (s1, .ok ts) =>
    (ts.foldl (fun (acc : State) (t, a, m) => acc.homeWriteAt t.home t.pa ((bs.drop (a - va)).take m)) s1, .ok ())

end Sys2Proof.Machine
end

