-- ==== Sys2Proof/Machine/Operands.lean ====
section
/-! DEFINITION. Registers, tags and operand forms: the checks of 03 R71 on registers and tags, reads under 05 R107 and
R114, and writes with their latencies (05 R106, R109). -/

namespace Sys2Proof.Machine

/-- Fault codes (01 R67). -/
def codeIllegal : Nat := 0x0001
def codeRegRange : Nat := 0x0002
def codeUnitAbsent : Nat := 0x0003
def codeFormat : Nat := 0x0004
def codePriv : Nat := 0x0005
def codeTarget : Nat := 0x0006
def codeStallShort : Nat := 0x0007
def codeHandler : Nat := 0x0008
def codeChildFault : Nat := 0x0010
def codeClusterExit : Nat := 0x0011
def codeBreakpoint : Nat := 0x0012

/-- Why a member of an issue group has none of its instruction's effects: a fault, a trap, an interlock, or a refusal of the
model. -/
inductive Stop where
  | fault (code addr : Nat)
  | trap (code addr : Nat)
  | hold
  | refuse (r : Refusal)
  deriving DecidableEq, Repr

/-- Where control goes after a member's instruction. -/
inductive Go where
  /-- The following instruction (05 R99). -/
  | next
  /-- A transfer of control. -/
  | jump (target : Nat)
  /-- The following instruction, after the effect of YIELD (01 R26). -/
  | yield
  /-- The thread does not go on by itself: its pc is as the instruction left it. -/
  | stay
  deriving DecidableEq, Repr

/-- A register that nothing has written (03 R74). -/
def blankReg : RegVal := (0, .raw)

/-- The register of a thread's table that a name denotes: allocation register b + k, or the trap bank in state trapped
(01 R54, 07 R169). -/
def Thread.index (t : Thread) (name : Nat) : Nat :=
  if t.trapped && 112 ≤ name then Config.trapBank + (name - 112) else t.winbase + name

/-- A name lies within the allocation, or in the trap bank in state trapped (01 R54, 07 R169). -/
def Thread.inRange (t : Thread) (name : Nat) : Bool := (t.trapped && 112 ≤ name) || t.winbase + name < t.alloc

/-- The register as every elapsed writer has left it: what a read receives under 05 R107. -/
def Thread.reg (t : Thread) (i : Nat) : RegVal := t.regs.getD i blankReg

/-- A result in flight stands on a register (05 R107 step 3). -/
def Thread.pending (t : Thread) (i : Nat) : Bool := t.pend.any fun (r, _) => r == i

/-- The value that a load in flight brings to a register, where the load has read it: the last such load in program order
(05 R107, R114). -/
def Thread.arriving (t : Thread) (i : Nat) : Option RegVal :=
  t.loads.foldl (fun acc l => ((l.results.find? fun (r, _) => r == i).map (·.2)).or acc) none

/-- A fixed-latency writer of a register would be set aside (05 R107 step 1, R108; log 9). -/
def Thread.early (t : Thread) (i : Nat) : Bool := t.writes.any fun w => w.reg == i

/-- The value that the latest writer in program order gives a register (05 R109). -/
def Thread.latest (t : Thread) (i : Nat) : RegVal :=
  match t.writes.find? fun w => w.reg == i && !w.dead with
  | some w => w.val
  | none => t.reg i

/-- A result written to a register at once; every earlier writer of it is overtaken (05 R109). -/
def Thread.commit (t : Thread) (i : Nat) (v : RegVal) : Thread :=
  { t with regs := t.regs.putD i v blankReg,
           bank := t.bank.filter fun b => b.reg != i,
           writes := t.writes.map fun w => if w.reg = i then { w with dead := true } else w }

/-- A result that becomes readable at count distance L (05 R106, R107). -/
def Thread.fixed (t : Thread) (i : Nat) (v : RegVal) (latency : Nat) : Thread :=
  { t with writes := ⟨i, v, latency, false, none⟩ :: t.writes }

/-- The writers after one more instruction of stall count n: those that have reached their latency give the register its
value and overtake the earlier ones (05 R107, R109). The list is newest first. -/
def ageWriters (n : Nat) : List Writer → Tbl RegVal → List Writer × Tbl RegVal
  | [], regs => ([], regs)
  | w :: older, regs =>
    let (ws, rs) := ageWriters n older regs
    if w.need ≤ 1 + n then
      if w.dead then (ws, rs)
      else (ws.map (fun x => if x.reg = w.reg then { x with dead := true } else x), rs.putD w.reg w.val blankReg)
    else ({ w with need := w.need - (1 + n) } :: ws, rs)

/-- A thread after one more instruction of stall count n. -/
def Thread.age (t : Thread) (n : Nat) : Thread :=
  let (ws, rs) := ageWriters n t.writes t.regs
  { t with writes := ws, regs := rs }

/-- What stands in a register's bank in a cycle, where a window read finds it: the value of the latest write that has completed
before the cycle, counted in cycles from its issue, whatever the stall counts cover (08 R202; 05 R106). -/
def Thread.banked (t : Thread) (cycle i : Nat) : RegVal :=
  let l := t.bank.filter fun b => b.reg == i
  match l.find? fun b => b.done < cycle with
  | some b => b.val
  | none => (l.getLast?).elim (t.reg i) Banked.old

/-- The writes that still matter to a window read from a cycle on, newest first: of each register those under way, and the newest
that has completed. `seen` lists the registers of which such a one has been met. -/
def bankFrom (cycle : Nat) : List Nat → List Banked → List Banked
  | _, [] => []
  | seen, b :: rest =>
    if cycle ≤ b.done then b :: bankFrom cycle seen rest
    else if seen.contains b.reg then bankFrom cycle seen rest
    else b :: bankFrom cycle (b.reg :: seen) rest

/-- A register whose bank still differs, or may, from what its thread reads: a write of it is under way in cycles, or in the counts of
05 R107. -/
def Thread.unsettled (t : Thread) (cycle i : Nat) : Bool :=
  (t.bank.any fun b => b.reg == i && cycle ≤ b.done) || t.writes.any fun w => w.reg == i

/-- Writers that have just issued in a cycle complete L cycles later (05 R106), and the bank keeps them until then (08 R202). -/
def Thread.dated (t : Thread) (cycle : Nat) : Thread :=
  let new := (t.writes.filter fun w => w.done.isNone).map fun w => ⟨w.reg, w.val, cycle + w.need, t.banked cycle w.reg⟩
  { t with writes := t.writes.map fun w => if w.done.isNone then { w with done := some (cycle + w.need) } else w,
           bank := new ++ (bankFrom cycle [] t.bank).filter fun b => t.unsettled cycle b.reg }

/-- Every fixed-latency result complete, at a trap, ERET, a fault or a resume (05 R110). -/
def Thread.settle (t : Thread) : Thread :=
  let (ws, rs) := ageWriters 64 t.writes t.regs
  { t with writes := ws, regs := rs }

/-- The lane that a pattern names for a reader in lane L (05 R113). -/
def patLane (p : Pat) (lane : Nat) : Option Nat :=
  match p with
  | .own => some lane
  | .rot x => some ((lane + x.val) % 32)
  | .bc x => some x.val
  | .xr x => some (lane ^^^ x.val)
  | .mir => some (31 - lane)
  | .mw x => some (lane ^^^ (2 ^ x.val - 1))
  | .shu x => if x.val ≤ lane then some (lane - x.val) else none
  | .shd x => if lane + x.val ≤ 31 then some (lane + x.val) else none

/-- The member of the issue group in a lane, as it stands before the cycle's effects (05 R116). -/
def memberIn (s : State) (members : List FrameRef) (lane : Nat) : Option Thread :=
  (members.filterMap s.threads.get).find? fun t => t.lane == lane

/-- The member of the issue group in a lane, by its frame. -/
def memberRef (s : State) (members : List FrameRef) (lane : Nat) : Option FrameRef :=
  members.find? fun k => (s.threads.get k).any fun t => t.lane == lane

/-- Tag sets of 03 R75. -/
def tagsInt : List Tag := [.s32, .n32]
def tagsWide : List Tag := [.w64, .s32, .n32]
def tagsF32 : List Tag := [.f32]

/-- A tag passes when it is RAW or in the set; no set accepts any tag (03 R75). -/
def tagPasses (set : Option (List Tag)) (t : Tag) : Bool :=
  match set with
  | none => true
  | some l => t == .raw || l.contains t

/-- A source operand: a group of n registers from a name, read through a pattern, with its accepted tags. -/
structure Src where
  name : Nat
  n : Nat
  pat : Pat
  tags : Option (List Tag)
  deriving DecidableEq, Repr

/-- A source read from the thread's own lane. -/
def ownSrc (r : Reg) (n : Nat) (tags : Option (List Tag)) : Src := ⟨r.val, n, .own, tags⟩

/-- The pattern of field a, b or d of an optional prefix. -/
def patA (px : Option Pats) : Pat := px.elim .own Pats.a
def patB (px : Option Pats) : Pat := px.elim .own Pats.b
def patD (px : Option Pats) : Pat := px.elim .own Pats.d

/-- A lane-pattern prefix adds 2 to the latency (05 R106). -/
def lat (px : Option Pats) (l : Nat) : Nat := if px.isSome then l + 2 else l

/-- A read of one register under 05 R107 and R114: its value, or none while a result in flight stands on the thread's own
register. A result in flight on another member's register is the value that the read receives, once it completes (`awaited`);
a result of PSUB is not known before, and it arrives before any group of a later cycle issues (`State.dueListing`; log 8). -/
def readSrc (s : State) (members : List FrameRef) (t : Thread) (pat : Pat) (name : Nat) : Option RegVal :=
  if pat = .own then (if t.pending (t.index name) then none else some (t.reg (t.index name)))
  else
    match (patLane pat t.lane).bind (memberIn s members) with
    | none => some blankReg
    | some m =>
      if m.inRange name then (if m.pending (m.index name) then m.arriving (m.index name) else some (m.reg (m.index name)))
      else some blankReg

/-- The registers of a source in ascending order. -/
def readGroup (s : State) (members : List FrameRef) (t : Thread) (o : Src) : Option (List RegVal) :=
  (List.range o.n).mapM fun i => readSrc s members t o.pat (o.name + i)

/-- The results in flight that a thread's sources read in other members through lane patterns (05 R114): the member, and the
number of the load. -/
def awaited (s : State) (members : List FrameRef) (t : Thread) (srcs : List Src) : List (FrameRef × Nat) :=
  srcs.flatMap fun o =>
    if o.pat = .own then []
    else
      match (patLane o.pat t.lane).bind (memberRef s members) with
      | none => []
      | some k =>
        match s.threads.get k with
        | none => []
        | some m => (List.range o.n).flatMap fun i =>
            if m.inRange (o.name + i) then (m.pend.filter fun (r, _) => r == m.index (o.name + i)).map fun (_, id) => (k, id)
            else []

/-- The checks of 03 R71 on the registers of an instruction, in its order: range, unit, interlocks (01 R22, 05 R109), tags,
STALL_SHORT (05 R108). It answers the values of the sources. `dst` lists the destination groups. STALL_SHORT stands at step 5
of 03 R71 beside an instruction's own cases (PRIV_OP, HANDLER_OP), and the spec does not order the two: the model reports
STALL_SHORT first (DESIGN CHOICE, log 51). -/
def operands (s : State) (members : List FrameRef) (t : Thread) (srcs : List Src) (dst : List (Nat × Nat)) (unit : Bool := true) :
    Except Stop (List (List RegVal)) :=
  let own := srcs.filter fun o => o.pat == .own
  if !(own.all fun o => (List.range o.n).all fun i => t.inRange (o.name + i)) then .error (.fault codeRegRange 0)
  else if !(dst.all fun (r, n) => (List.range n).all fun i => t.inRange (r + i)) then .error (.fault codeRegRange 0)
  else if !unit then .error (.fault codeUnitAbsent 0)
  else if dst.any (fun (r, n) => (List.range n).any fun i => t.pending (t.index (r + i))) then .error .hold
  else
    match srcs.mapM (readGroup s members t) with
    | none => .error .hold
    | some vals =>
      if !((srcs.zip vals).all fun (o, vs) => vs.all fun v => tagPasses o.tags v.2) then .error (.fault codeFormat 0)
      else if t.check && own.any (fun o => (List.range o.n).any fun i => t.early (t.index (o.name + i))) then
        .error (.fault codeStallShort 0)
      else .ok vals

/-- The first register of source i. -/
def arg (v : List (List RegVal)) (i : Nat) : RegVal := (v.getD i []).headD blankReg

/-- The data of the first register of source i. -/
def argW (v : List (List RegVal)) (i : Nat) : Word := (arg v i).1

/-- The data of source i as an unsigned number, its lowest register least significant (03 R69). -/
def groupNat : List RegVal → Nat
  | [] => 0
  | r :: rest => r.1.toNat + 2 ^ 32 * groupNat rest

def argN (v : List (List RegVal)) (i : Nat) : Nat := groupNat (v.getD i [])

/-- n registers of a value, all with one tag (05 R120 Put). -/
def splitRegs (n v : Nat) (t : Tag) : List RegVal :=
  match n with
  | 0 => []
  | k + 1 => (BitVec.ofNat 32 v, t) :: splitRegs k (v / 2 ^ 32) t

/-- Results written to the group from a name, with a fixed latency, or at once for a variable latency (log 7). -/
def Thread.putAll (t : Thread) (name : Nat) (vals : List RegVal) (latency : Option Nat) : Thread :=
  match vals with
  | [] => t
  | v :: rest =>
    let t' := match latency with
      | some l => t.fixed (t.index name) v l
      | none => t.commit (t.index name) v
    Thread.putAll t' (name + 1) rest latency

/-- The address after an instruction word under 05 R99. -/
def nextPc (inst : Nat) : Nat := if inst % 32 = 28 then inst + 8 else inst + 4

/-- A member that has issued: its pc, its stall count, its cleared counter, and its writers aged (01 R22, R26; 05 R99, R101,
R104, R106). -/
def retire (is : Issue) (cycle : Nat) (go : Go) (t : Thread) : Thread :=
  let u := (t.dated cycle).age is.stall
  let pc := match go with
    | .next | .yield => nextPc is.inst
    | .jump x => x
    | .stay => t.pc
  let leaves : Bool := match go with
    | .stay => false
    | _ => pc / 32 != is.inst / 32
  let extra := if go = .yield ∨ (is.hint ∧ leaves) then 1 else 0
  { u with pc := pc, wait := 0, stall := cycle + 1 + is.stall + extra, issued := t.issued + 1 }

/-- The end of a register instruction of sources `srcs`: `u` with its result written. Where it reads a result in flight of
another member, it takes effect when that completes (05 R114). -/
def finishOp (s : State) (is : Issue) (t : Thread) (srcs : List Src) (u : Thread) (name : Nat) (vals : List RegVal)
    (latency : Option Nat) : Thread × Go :=
  match awaited s is.members t srcs with
  | [] => (u.putAll name vals latency, .next)
  | ws => ({ t with wait := 0, deferred := some ⟨ws, is, none, name, vals, latency, u.phase⟩ }, .stay)

/-- The checks of `operands` for such an instruction: a fault that follows its reads, at steps 4 and 5 of 03 R71, waits for them
as well (05 R114). -/
def failOp (s : State) (is : Issue) (t : Thread) (srcs : List Src) (e : Stop) : Except Stop (Thread × Go) :=
  match e, awaited s is.members t srcs with
  | .fault code 0, w :: ws =>
    if code = codeFormat ∨ code = codeStallShort then
      .ok ({ t with wait := 0, deferred := some ⟨w :: ws, is, some code, 0, [], none, t.phase⟩ }, .stay)
    else .error e
  | _, _ => .error e

/-- A deferred instruction takes effect: its stall count and its latency count from this cycle (05 R114). -/
def Thread.takeEffect (t : Thread) (cycle : Nat) (d : Deferred) : Thread :=
  retire d.issue cycle .next (Thread.putAll { t with deferred := none, phase := d.phase } d.name d.vals d.latency)

end Sys2Proof.Machine
end

