-- ==== Sys2Proof/Machine/Flags.lean ====
section
/-! DEFINITION. Conditions. The hardware has no flags: integer instructions keep none (07 R136) and floating ones have no
status register (03 R84). Conditions are values of registers (03 R70), computed here (07 R148; 08 R187, R188). -/

namespace Sys2Proof.Machine

/-- A condition is true when the data bits are not all zero (03 R70). -/
def isTrue (w : Word) : Bool := w != 0

/-- A condition's result: 1 or 0 with tag N32 (03 R70). -/
def flagVal (b : Bool) : RegVal := (if b then 1 else 0, .n32)

/-- CMP conditions (07 R148). -/
def condHolds (c : Cc) (x y : Word) : Bool :=
  match c with
  | .eq => x == y
  | .ne => x != y
  | .ltS => x.slt y
  | .leS => x.sle y
  | .gtS => y.slt x
  | .geS => y.sle x
  | .ltN => x.ult y
  | .leN => x.ule y
  | .gtN => y.ult x
  | .geN => y.ule x

/-- FCMP conditions (08 R187). -/
def fcondHolds (c : FCc) (x y : Machine.Num) : Bool :=
  let un := x == .nan || y == .nan
  match c with
  | .eq => !un && x.eqv y
  | .ne => un || !x.eqv y
  | .lt => !un && x.lt y
  | .le => !un && (x.lt y || x.eqv y)
  | .gt => !un && y.lt x
  | .ge => !un && (y.lt x || x.eqv y)
  | .un => un
  | .ord => !un

/-- The class bit of FCLASS (08 R188). -/
def fclassBit (x : Word) : Nat :=
  let neg := x.getLsbD 31
  let e := bitsOf x.toNat 30 23
  let f := bitsOf x.toNat 22 0
  if e = 255 then (if f = 0 then (if neg then 0 else 7) else if testBit f 22 then 9 else 8)
  else if e = 0 then (if f = 0 then (if neg then 3 else 4) else if neg then 2 else 5)
  else if neg then 1 else 6

end Sys2Proof.Machine
end

