-- ==== Sys2Proof/Machine/Records.lean ====
section
/-! DEFINITION. The bytes of frames, thread records, child records and bin records, and what reaches a suspended thread
(01 R39; 09 R244; 18 R383, R385). -/

namespace Sys2Proof.Machine

/-- A little-endian field of n bytes at an offset of a record. -/
def recNat (r : List Byte) (off n : Nat) : Nat := leNat ((r.drop off).take n)

/-- A frame as its eight 64-bit words (01 R39). VALID is 1 for every frame that the table lists. -/
def Frame.words (f : Frame) : List Nat :=
  let parent := match f.owner with
    | .child p _ => dieOf (coreOf p) + 4 * physOf (coreOf p) + 2 ^ 8 * indexOf p
    | .root => 2 ^ 28
    | .grid cl _ => cl / 9
  [f.live % 2 ^ 24 + 2 ^ 24 + 2 ^ 25 * bit f.exiting + 2 ^ 32 * f.nfault + 2 ^ 48 * f.nkill,
   parent,
   f.frec.code + 2 ^ 16 * f.frec.core + 2 ^ 24 * f.frec.part + 2 ^ 26 * f.frec.lane + 2 ^ 31 * f.frec.ctx
     + 2 ^ 35 * bit f.fvalid + 2 ^ 36 * f.fseq,
   f.frec.addr, f.floor,
   f.ocore + 2 ^ 8 * f.opart + 2 ^ 10 * f.olane + 2 ^ 15 * f.octx + 2 ^ 19 * bit f.awaiting + 2 ^ 32 * f.nextseq,
   f.saveptr, f.remote]

/-- A frame as its 64 bytes. -/
def Frame.bytes (f : Frame) : List Byte := f.words.flatMap (leBytes 8)

/-- The code of a thread's state in its record (18 R385). -/
def Run.code : Run → Nat
  | .ready => 0
  | .await _ _ => 1
  | .meet _ _ => 2
  | .future _ _ => 3
  | .grow _ => 4
  | .engine _ => 5
  | .cbar => 6

/-- n registers from an index of a thread's table. -/
def Thread.regsFrom (t : Thread) (i n : Nat) : List RegVal := (span i n).map t.reg

/-- Two tags in a byte, the register of lower index in the low nibble (18 R385). -/
def tagBytes (rs : List RegVal) : List Byte :=
  match rs with
  | a :: b :: rest => BitVec.ofNat 8 (Tag.code a.2 + 16 * Tag.code b.2) :: tagBytes rest
  | [a] => [BitVec.ofNat 8 (Tag.code a.2)]
  | [] => []

/-- Size of a thread record: 192 + 4.5 A, rounded up to a multiple of 64 (18 R385). -/
def recordSize (alloc : Nat) : Nat := (192 + alloc * 9 / 2 + 63) / 64 * 64

/-- Bytes 0 to 31 of a thread record. While a thread is suspended its stall count is what was left of it. -/
def Thread.recordHead (t : Thread) (cycle : Nat) : List Byte :=
  let left := if t.susp.isSome then t.stall else t.stall - cycle
  let starved := t.susp == some .starved
  let grow := match t.run with
    | .grow n => n / 16 - 1
    | _ => 0
  let detail := match t.run with
    | .meet m p => m + 32 * p
    | .future h _ => h
    | _ => 0
  leBytes 8 (t.pc % 2 ^ 57 + 2 ^ 57 * t.run.code + 2 ^ 61 * bit t.trapped + 2 ^ 62 * bit t.check + 2 ^ 63 * bit starved)
    ++ leBytes 8 (t.alloc / 16 - 1 + 2 ^ 5 * (t.winbase / 16) + 2 ^ 10 * t.phase + 2 ^ 15 * t.wait
        + 2 ^ 24 * min 15 left + 2 ^ 28 * grow + 2 ^ 33 * t.winstat + 2 ^ 36 * bit t.slot.isSome)
    ++ leBytes 4 t.members ++ leBytes 4 t.arrived ++ leBytes 8 detail

/-- Bytes 176 to 183 of a thread record: where the thread lies. -/
def Thread.where_ (t : Thread) (k : FrameRef) : Nat :=
  coreOf k + 2 ^ 8 * t.part + 2 ^ 10 * t.lane + 2 ^ 15 * t.cx + 2 ^ 19 * indexOf k + 2 ^ 39 * t.spawnSeq

/-- Bytes 168 to 191 of a thread record: its range slot, and where it lies. -/
def Thread.recordSlot (s : State) (k : FrameRef) (t : Thread) : List Byte :=
  let slot := t.slot.bind (s.core (coreOf k)).slots.get
  leBytes 4 (slot.elim 0 RangeSlot.cur) ++ leBytes 4 (slot.elim 0 RangeSlot.hi) ++ leBytes 8 (t.where_ k) ++ leBytes 8 0

/-- A thread record (18 R385). The thread's fixed-latency results are complete. -/
def Thread.record (s : State) (k : FrameRef) (t : Thread) : List Byte :=
  let bank := t.regsFrom Config.trapBank 16
  let regs := t.regsFrom 0 t.alloc
  let body := t.recordHead s.cycle ++ leBytes 8 t.resFirst ++ leBytes 8 t.resInst ++ leBytes 8 t.trapaddr
    ++ leBytes 4 t.trapcode ++ leBytes 4 t.trapinst.toNat
    ++ (bank.flatMap fun r => leBytes 4 r.1.toNat) ++ tagBytes bank
    ++ ((List.range 8).flatMap fun i => leBytes 4 (t.hit.getD i 0).toNat)
    ++ Thread.recordSlot s k t ++ (regs.flatMap fun r => leBytes 4 r.1.toNat) ++ tagBytes regs
  body ++ List.replicate (recordSize t.alloc - body.length) 0

/-- A byte written again from what it held: one that reads as uncorrectable stays so (20 R410). -/
def State.merge (s : State) (a : Nat) (b : Byte) : State := if s.poison.contains a then s else s.poke a b

/-- Bytes written again from what they held. -/
def State.merges (s : State) (a : Nat) : List Byte → State
  | [] => s
  | b :: rest => (s.merge a b).merges (a + 1) rest

/-- What becomes of a suspended thread is applied to its saved state (09 R244): the head of its record, with the PC that
the record holds, is written again, and the n registers from i. -/
def State.syncRecord (s : State) (k : FrameRef) (i n : Nat) : State :=
  match s.threads.get k, s.frames.get k with
  | some t, some f =>
    if t.susp.isNone || f.saveptr == 0 then s
    else
      let a := f.saveptr
      let head := { t with pc := readNat s.mem a 8 % 2 ^ 57 }.recordHead s.cycle
      let s1 := (s.merges a (head.take 8)).pokes (a + 8) (head.drop 8)
      (span i n).foldl (fun (acc : State) r =>
        if t.alloc ≤ r then acc
        else
          let at_ := a + 192 + 4 * t.alloc + r / 2
          let old := (readByte acc.mem at_).toNat
          let tag := Tag.code (t.reg r).2
          let b := if r % 2 = 0 then old / 16 * 16 + tag else old % 16 + 16 * tag
          (acc.pokes (a + 192 + 4 * r) (leBytes 4 (t.reg r).1.toNat)).merge at_ (BitVec.ofNat 8 b)) s1
  | _, _ => s

/-- Registers written at once from an allocation register on. -/
def commitFrom (t : Thread) (i : Nat) : List RegVal → Thread
  | [] => t
  | v :: rest => commitFrom (t.commit i v) (i + 1) rest

/-- Results that reach a thread, suspended or not, from an allocation register on. -/
def State.give (s : State) (k : FrameRef) (i : Nat) (vals : List RegVal) : State :=
  (s.onThread k fun t => commitFrom t i vals).syncRecord k i vals.length

/-- A thread ready again, or going on in its handler, with its wait counter cleared (01 R20, R22). It issues from the next cycle on,
whose reads find the generation that its edge has incremented (12 R296, R310; log 13). -/
def Thread.woken (t : Thread) (cycle : Nat) : Thread :=
  { t with run := .ready, wait := 0, stall := if t.susp.isNone then max t.stall (cycle + 1) else t.stall }

/-- A thread becomes ready (01 R20). -/
def State.wake (s : State) (k : FrameRef) : State := (s.onThread k fun t => t.woken s.cycle).syncRecord k 0 0

/-- A child record (18 R383). -/
def Child.bytes (c : Child) : List Byte :=
  let ws := (List.range 8).map fun i => c.args.getD i blankReg
  (ws.flatMap fun r => leBytes 4 r.1.toNat) ++ tagBytes ws
    ++ leBytes 4 (c.alloc / 16 - 1 + 2 ^ 5 * bit c.check + 2 ^ 6 * bit c.range.isSome)
    ++ leBytes 4 (c.range.elim 0 (·.1)) ++ leBytes 4 (c.range.elim 0 (·.2))
    ++ leBytes 8 (dieOf (coreOf c.parent) + 4 * physOf (coreOf c.parent) + 2 ^ 8 * indexOf c.parent + 2 ^ 28 * c.ordinal)
    ++ leBytes 8 c.stamp ++ leBytes 4 c.launch ++ leBytes 4 c.lgroup ++ leBytes 8 c.ctxid ++ leBytes 8 c.handler
    ++ List.replicate 40 0

/-- A reserved bit of a child record is set, or a tag of it is the reserved value 0xF (18 R383; 03 R73). -/
def childReserved (bs : List Byte) : Bool :=
  let w := recNat bs
  w 36 4 / 2 ^ 7 != 0 || w 48 8 / 2 ^ 56 != 0 || w 71 1 != 0 || w 72 1 / 2 ^ 6 != 0 || w 73 7 != 0 || w 80 8 / 2 ^ 57 != 0
    || w 88 40 != 0 || (List.range 8).any fun i => bitsOf (w 32 4) (4 * i + 3) (4 * i) == 15

/-- A child as its 128 bytes give it; what they do not hold is the child's as it was saved (18 R383). A record with a reserved bit or
tag set is not taken, and 18 R386 does not say what becomes of it: DESIGN CHOICE, the child is as it was saved (00 R11; log 64). -/
def Child.ofRecord (bs : List Byte) (old : Child) : Child :=
  let w := recNat bs
  if childReserved bs then old else
  { args := (List.range 8).map fun i =>
      ((BitVec.ofNat 32 (w (4 * i) 4), (Tag.ofCode (bitsOf (w 32 4) (4 * i + 3) (4 * i))).getD .raw) : RegVal),
    alloc := 16 * (bitsOf (w 36 4) 4 0 + 1), check := testBit (w 36 4) 5,
    range := if testBit (w 36 4) 6 then some (w 40 4, w 44 4) else none,
    parent := Config.frameSpan * (Config.dieCores * bitsOf (w 48 8) 1 0 + bitsOf (w 48 8) 7 2) + bitsOf (w 48 8) 27 8,
    ordinal := bitsOf (w 48 8) 55 28, stamp := w 56 8, launch := w 64 4, lgroup := w 68 3, ctxid := bitsOf (w 72 1) 5 0,
    handler := bitsOf (w 80 8) 56 0, grid := old.grid }

/-- The children of a bin record (18 R383). -/
def childrenOf (bs : List Byte) (old : List Child) : List Child :=
  (old.take (bitsOf (recNat bs 8 4) 5 0)).zipIdx.map fun (c, i) => c.ofRecord ((bs.drop (64 + 128 * i)).take 128)

/-- A bin record: a header and 32 child records (18 R383). -/
def binRecord (entry state timer : Nat) (children : List Child) : List Byte :=
  leBytes 8 (entry + 2 ^ 57 * state) ++ leBytes 4 (children.length + 2 ^ 6 * timer) ++ List.replicate 52 0
    ++ (children.flatMap Child.bytes) ++ List.replicate (128 * (32 - children.length)) 0

/-- A reserved bit of a bin header is set (18 R383). -/
def headerReserved (bs : List Byte) : Bool :=
  recNat bs 0 8 / 2 ^ 59 != 0 || recNat bs 8 4 / 2 ^ 22 != 0 || recNat bs 12 52 != 0

/-- A bin as its record gives it; its order and age are as they were saved. One with a reserved bit of its header set is not taken:
DESIGN CHOICE, the bin is as it was saved (00 R11; log 64). -/
def Bin.ofRecord (bs : List Byte) (old : Bin) : Bin :=
  if headerReserved bs then old else
  { old with entry := bitsOf (recNat bs 0 8) 56 0, opened := bitsOf (recNat bs 0 8) 58 57 == 1, timer := bitsOf (recNat bs 8 4) 21 6,
             children := childrenOf bs old.children }

/-- The record of a bin; none is empty. -/
def Bin.record : Option Bin → List Byte
  | some b => binRecord b.entry (if b.opened then 1 else 2) (if b.opened then b.timer else 0) b.children
  | none => binRecord 0 0 0 []

end Sys2Proof.Machine
end

