-- ==== Sys2Proof/Machine/Ops.lean ====
section
/-! DEFINITION. The named operations that the instructions share: stores reaching their place, meets and barriers, the end
of a thread (01 R21), supervisor traps (07 R166), and the running of an issue group (05 R116). -/

namespace Sys2Proof.Machine

/-- An edge that carries a stamp raises the receiver's FLOOR past it (12 R299). -/
def State.raiseFloor (s : State) (k : FrameRef) (stamp : Nat) : State :=
  s.onFrame k fun f => { f with floor := max f.floor (stamp + 1) }

/-- An incoming edge of a thread: its core's generation and its FLOOR (12 R296, R299). -/
def State.receive (s : State) (k : FrameRef) (stamp : Nat) : State := (s.raiseFloor k stamp).incoming (coreOf k)

/-- One store at its place. A store of g on this chip at home updates the L1 copy of the storing core (12 R293). -/
def State.landStore (s : State) (x : Store) : State :=
  match x.place with
  | .home => (pieces x.addr x.bytes.length).foldl (fun acc (a, n) =>
      let bs := (x.bytes.drop (a - x.addr)).take n
      (acc.homeWriteAt x.die a bs).updateLine (coreOf x.thread) a bs) s
  | p => s.placeWrite p x.addr x.bytes

/-- A thread has a store that is not complete. -/
def State.storing (s : State) (k : FrameRef) : Bool := s.stores.any fun x => x.thread == k

/-- The stores in flight up to the last of a thread's complete at their places, in the order they were made (12 R294
step 1; 09 R232). -/
def State.landStores (s : State) (k : FrameRef) : State :=
  if s.storing k then s.stores.foldl State.landStore { s with stores := [] } else s

/-- What an outgoing edge of a thread requires: its stores complete, and its core's dirty bytes go home (12 R294). -/
def State.outgoing (s : State) (k : FrameRef) : State := (s.landStores k).flushCore (coreOf k)

/-- A thread of a core's GROW queue that is resident and waits: a suspended one keeps its place and holds none back
(log 28). -/
def State.growing (s : State) (k : FrameRef) : Option (Nat × Thread) :=
  match s.threads.get k with
  | none => none
  | some t =>
    match t.run with
    | .grow total => if t.resident then some (total, t) else none
    | _ => none

/-- Grants the GROW requests of a lane in order while they fit (01 R55, 07 R164). A grant ends the starvation of the core
(01 R56). Every operation that returns registers to a lane, or returns a suspended thread to it, calls this. -/
def State.grantGrows (s : State) (g part lane : Nat) : Nat → State
  | 0 => s
  | fuel + 1 =>
    let key := 32 * part + lane
    let queue := (s.core g).grows.getD key []
    match queue.find? fun k => (s.growing k).isSome with
    | none => s
    | some k =>
      match s.growing k with
      | none => s
      | some (total, t) =>
        if total - t.alloc ≤ s.freeRegs g part lane then
          let rest := queue.filter (· != k)
          let s1 := s.onCore g fun c =>
            { c with grows := c.grows.putD key rest [], starved := false, starve := 0 }
          ((s1.onThread k fun t => { t with alloc := total }).wake k).grantGrows g part lane fuel
        else s

/-- A meet of a core. -/
def State.meet (s : State) (g m : Nat) : Option Meet := (s.core g).meets.get m

/-- Changes a meet. -/
def State.onMeet (s : State) (g m : Nat) (f : Meet → Meet) : State := s.onCore g fun c => { c with meets := c.meets.update m f }

/-- A thread, saved or in the suspension pool, of a context whose meets stand in its save: the core's meet of that number is not its
own (18 R386, R388). -/
def State.detached (s : State) (g m : Nat) (t : Thread) : Bool :=
  t.susp.isSome && (s.ctx t.ctxid).savedMeets.any fun (c, n, _) => c == g && n == m

/-- The threads of a core that wait on a meet. -/
def State.meetWaiters (s : State) (g m : Nat) : List FrameRef :=
  (s.threadsOf g).filterMap fun (k, t) =>
    match t.run with
    | .meet m' _ => if m' = m && !s.detached g m t then some k else none
    | _ => none

/-- The threads of a core whose arrival counts in the current phase of a meet. -/
def State.arrivedAt (s : State) (g m : Nat) : List FrameRef :=
  ((s.threadsOf g).filter fun (_, t) => testBit t.arrived m && !s.detached g m t).map (·.1)

/-- A phase completes, unless its error flag is set: its number advances, the arrivals are cleared, in the record of a suspended
member too (09 R244), and every waiter receives the phase's edge and stamp (01 R49, R50; 10 R254; 12 R283, R299). -/
def State.completePhase (s : State) (g m : Nat) : State :=
  match s.meet g m with
  | none => s
  | some x =>
    if x.err.isSome then s
    else
      let stamp := x.stamp
      let s1 := s.onMeet g m fun x =>
        { x with phase := (x.phase + 1) % 2 ^ 16, arrivals := 0, expected := false, desc := [], far := none, due := false,
                 entered := false, stamp := 0, past := x.past.put x.phase stamp }
      let fresh := fun (acc : State) (k : FrameRef) =>
        (acc.onThread k fun t => { t with arrived := clearBit t.arrived m }).syncRecord k 0 0
      (s.meetWaiters g m).foldl (fun acc k => (acc.receive k stamp).wake k) ((s.arrivedAt g m).foldl fresh s1)

/-- The tail of a group queue takes an entry, if it has room for a fifth one not (10 R249). -/
def State.enqueue (s : State) (cl q : Nat) (e : EngEntry) : State :=
  s.onCluster cl fun c => { c with queues := c.queues.put q (c.queues.getD q [] ++ [e]) }

/-- A group queue has a free entry of its four. -/
def State.queueRoom (s : State) (cl q : Nat) : Bool := ((s.cluster cl).queues.getD q []).length < 4

/-- QUEUE of a tile-op descriptor (10 R250). -/
def descQueue (d : List Byte) : Nat := bitsOf (leNat (d.take 4)) 19 16

/-- The members of a sign meet have all signed: its captured operation is due from then on, whoever joins later (10 R253). -/
def Meet.signed (x : Meet) : Bool :=
  x.mode == .sign && !x.entered && !x.desc.isEmpty && x.err.isNone && (x.due || (0 < x.members && x.arrivals == x.members))

/-- The captured operation of a sign meet that is due enters its queue, or waits there until the queue has room (10 R253). -/
def State.signEnqueue (s : State) (g m : Nat) : State :=
  match s.meet g m with
  | none => s
  | some x =>
    if !x.signed then s
    else if s.queueRoom (clusterOf g) (descQueue x.desc) then
      (s.enqueue (clusterOf g) (descQueue x.desc)
        { op := .tile x.desc, gcore := g, far := x.far, meet := m, waiter := none, step := 0, begun := false, stamp := x.stamp,
          launch := x.launch }).onMeet g m fun x => { x with due := true, entered := true }
    else s.onMeet g m fun x => { x with due := true }

/-- After an arrival or a departure: a thread-count or reconverge phase completes when the arrivals equal the members
(01 R49, R50); a sign meet may enter its operation (10 R253). -/
def State.checkMeet (s : State) (g m : Nat) : State :=
  match s.meet g m with
  | none => s
  | some x =>
    match x.mode with
    | .count | .reconv => if 0 < x.members ∧ x.arrivals = x.members then s.completePhase g m else s
    | .sign => s.signEnqueue g m
    | .bytes => s

/-- LEAVE: the thread is no member, and an arrival of it no longer counts (01 R48, R50). -/
def State.leaveMeet (s : State) (k : FrameRef) (m : Nat) : State :=
  match s.threads.get k with
  | none => s
  | some t =>
    if testBit t.members m && !s.detached (coreOf k) m t then
      let s1 := s.onThread k fun t => { t with members := clearBit t.members m, arrived := clearBit t.arrived m }
      (s1.onMeet (coreOf k) m fun x =>
        { x with members := x.members - 1, arrivals := if testBit t.arrived m then x.arrivals - 1 else x.arrivals }).checkMeet
        (coreOf k) m
    else s

/-- Adds to the entry of a list by position. -/
def bump (l : List Nat) (i : Nat) (f : Nat → Nat) : List Nat := l.mapIdx fun j x => if j = i then f x else x

/-- Position of a cluster among a barrier's clusters. -/
def Barrier.pos (b : Barrier) (cl : Nat) : Nat := b.clusters.findIdx (· == cl)

/-- A barrier whose instance is complete releases every member (01 R52, R53; 12 R283). -/
def State.releaseBarrier (s : State) (id : Nat) : State :=
  match s.groups.get id with
  | none => s
  | some b =>
    let s1 := { s with groups := s.groups.put id { b with arrivals := b.arrivals.map fun _ => 0, done := [], stamp := 0 } }
    let ks := (s.threads.filter fun (_, t) => t.run == .cbar && t.group.any (fun g => g.group == id)).map (·.1)
    ks.foldl (fun acc k =>
      ((acc.receive k b.stamp).wake k).onThread k fun t => { t with group := some ⟨id, true, false⟩ }) s1

/-- After an arrival or an end: a local phase completes when every live member on the cluster has arrived; the remote phase
of a pair group needs the message of the partner cluster (01 R52). -/
def State.checkBarrier (s : State) (id : Nat) : State :=
  match s.groups.get id with
  | none => s
  | some b =>
    let now := b.clusters.filter fun cl =>
      !b.done.contains cl && b.arrivals.getD (b.pos cl) 0 == b.live.getD (b.pos cl) 0
    let waiting := b.arrivals.any (0 < ·)
    if !waiting then s
    else if b.clusters.length = 1 then (if now.isEmpty then s else s.releaseBarrier id)
    else now.foldl (fun acc cl => acc.send (.barrierDone id cl))
      { s with groups := s.groups.put id { b with done := b.done ++ now } }

/-- A member of a group ends (01 R52). -/
def State.leaveBarrier (s : State) (k : FrameRef) (t : Thread) : State :=
  match t.group with
  | none => s
  | some m =>
    match s.groups.get m.group with
    | none => s
    | some b =>
      let i := b.pos (clusterOf (coreOf k))
      let b' := { b with live := bump b.live i (· - 1), arrivals := if t.run == .cbar then bump b.arrivals i (· - 1) else b.arrivals }
      if b'.live.all (· == 0) then { s with groups := s.groups.del m.group }
      else State.checkBarrier { s with groups := s.groups.put m.group b' } m.group

/-- A frame whose owner has ended sends its completion once LIVE is 0 (01 R21 step 5). -/
def State.finishFrame (s : State) (k : FrameRef) : State :=
  match s.frames.get k with
  | none => s
  | some f =>
    match f.ended with
    | none => s
    | some c =>
      if f.live = 0 then
        let c := { c with stamp := max c.stamp (f.stamp.getD 0) }
        match f.owner with
        | .child p o => s.send (.completion p o c (.frame k))
        | .root => s.send (.rootCompletion f.launch f.lgroup c (.frame k))
        | .grid _ _ => s
      else s

/-- A thread that ends leaves the units of its cluster that would answer it: a BOPEN that waits is withdrawn, and a command
in a group queue has no thread to release. -/
def State.leaveUnits (s : State) (k : FrameRef) (t : Thread) : State :=
  let forget := fun (e : EngEntry) => if e.waiter = some k then { e with waiter := none } else e
  match t.run with
  | .engine .command =>
    s.onCluster (clusterOf (coreOf k)) fun c => { c with queues := c.queues.mapVals fun _ q => q.map forget }
  | .engine (.bopen _) =>
    s.onCluster (clusterOf (coreOf k)) fun c =>
      if c.opening.any (fun o => o.1 == k) then { c with opening := none } else c
  | _ => s

/-- A deferred instruction waits no more for a result of a thread: one of a number, or, when the thread ends, any (05 R114). -/
def Thread.spared (t : Thread) (k : FrameRef) (id : Option Nat) : Thread :=
  match t.deferred with
  | none => t
  | some d => { t with deferred := some { d with waits := d.waits.filter fun (j, n) => !(j == k && id.all (· == n)) } }

/-- A record leaves a suspension pool: starvation suspensions that waited for room are tried again (18 R388). -/
def State.poolFreed (s : State) : State :=
  { s with cores := s.cores.mapVals fun _ c => if c.poolWait then { c with poolWait := false } else c }

/-- A thread's record lies in its context's suspension pool (18 R388). -/
def Thread.pooled (t : Thread) : Bool := t.susp.isSome && t.susp != some .saved

/-- The end of a thread, in the order of 01 R21: it leaves its sets, its waiter entries go, its stores and its core's dirty
bytes reach home, its registers, context and range slot return, and its completion is sent when LIVE is 0. -/
def State.endThread (s : State) (k : FrameRef) (kind : EndKind) (report : FaultRec) : State :=
  match s.threads.get k with
  | none => s
  | some t =>
    let g := coreOf k
    let stamp := s.timeOf k
    let s1 := (List.range 32).foldl (fun acc m => acc.leaveMeet k m) s
    let s2 := s1.leaveBarrier k t
    let s3 := { s2 with futures := s2.futures.mapVals fun _ f => { f with waiters := f.waiters.filter (· != k) } }
    let s4 := (s3.leaveUnits k t).outgoing k
    let s5 := s4.onCore g fun c =>
      { c with slots := (match t.slot with | some i => c.slots.del i | none => c.slots),
               grows := c.grows.mapVals fun _ q => q.filter (· != k) }
    let s6 := { s5 with threads := (s5.threads.del k).mapVals fun _ t => t.spared k none }
    let s7 := if t.resident then s6.grantGrows g t.part t.lane 16 else if t.pooled then s6.poolFreed else s6
    let s8 := s7.onFrame k fun f => { f with ended := some ⟨kind, report, stamp⟩, exiting := false, awaiting := false, saveptr := 0 }
    s8.finishFrame k

/-- The record of a fault of a thread (01 R39). -/
def Thread.faultRec (t : Thread) (k : FrameRef) (code addr : Nat) : FaultRec :=
  ⟨code, coreOf k, t.part, t.lane, t.cx, addr % 2 ^ 57⟩

/-- A fault ends the thread (01 R65). -/
def State.faultThread (s : State) (k : FrameRef) (code addr : Nat) : State :=
  match s.threads.get k with
  | none => s
  | some t => s.endThread k .fault (t.faultRec k code addr)

/-- The end that EXIT reaches when LIVE is 0: ended-ok, or CHILD_FAULT with the fields of the frame's own record (01 R20,
R21; log 19). -/
def State.finishExit (s : State) (k : FrameRef) : State :=
  match s.frames.get k, s.threads.get k with
  | some f, some t =>
    if f.nfault = 0 ∧ f.nkill = 0 then s.endThread k .ok FaultRec.none
    else s.endThread k .fault (if f.fvalid then f.frec else t.faultRec k codeChildFault 0)
  | _, _ => s

/-- EXIT after the thread's accesses have completed (07 R158 step 3). -/
def State.exitNow (s : State) (k : FrameRef) : State :=
  match s.frames.get k with
  | none => s
  | some f =>
    if f.live = 0 then s.finishExit k
    else (s.onThread k fun t => { t with run := .await true 0, draining := false, loads := [], gwins := [], pend := [] }).onFrame k
      fun f => { f with exiting := true }

/-- An error of a meet's phase: the flag and its code are set once, and every waiter of the phase ends with the code
(01 R50, 10 R254); a suspended waiter ends when it is back (01 R20; `State.meetFailed`). -/
def State.meetError (s : State) (g m code : Nat) : State :=
  match s.meet g m with
  | none => s
  | some x =>
    if x.err.isSome then s
    else
      let s1 := s.onMeet g m fun x => { x with err := some code, desc := [], due := false }
      let here := (s.meetWaiters g m).filter fun k => (s.threads.get k).any Thread.resident
      here.foldl (fun acc k => acc.faultThread k code 0) s1

/-- A thread that is back from a suspension and waits on a meet whose phase has failed meanwhile ends with the recorded code
(01 R20, R50). -/
def State.meetFailed (s : State) (k : FrameRef) : State :=
  match s.threads.get k with
  | none => s
  | some t =>
    match t.run with
    | .meet m _ => ((s.meet (coreOf k) m).bind Meet.err).elim s fun code => if t.resident then s.faultThread k code 0 else s
    | _ => s

/-- The handler entry of a thread's context on its core; 0 is none (07 R165). -/
def State.handler (s : State) (k : FrameRef) (t : Thread) : Nat := (s.core (coreOf k)).handlers.getD t.ctxid 0

/-- Taking a supervisor trap (07 R166): in state trapped, or without a handler, the thread ends with the trap's code;
otherwise the code, word, address and resume point are recorded, and the thread enters state trapped at the handler, which is a
transfer of control: out of the bundle it carries the bundle's yield hint (05 R101). -/
def State.takeTrap (s : State) (is : Issue) (k : FrameRef) (code addr : Nat) : State :=
  match s.threads.get k with
  | none => s
  | some t =>
    if t.trapped || s.handler k t == 0 then s.faultThread k code addr
    else
      s.onThread k fun t =>
        let u := t.settle
        let extra := if is.hint && s.handler k t / 32 != is.inst / 32 then 1 else 0
        { u with trapped := true, pc := s.handler k t, trapcode := code, trapaddr := addr, trapinst := is.word,
                 resFirst := is.first, resInst := is.inst, resReplaced := false, wait := 0,
                 stall := s.cycle + 1 + is.stall + extra }

/-- A code address that a transfer may take within its own bundle's form: a multiple of 4 that names no control word
(05 R103). -/
def slotAddress (a : Nat) : Bool := a % 4 == 0 && a % 32 != 0

/-- An entry address: slot 1 of a bundle, in the 57-bit space (05 R103). -/
def entryAddress (a : Nat) : Bool := a % 32 == 4 && a < 2 ^ 57

/-- The return from state trapped (07 R170): at the instruction after the resume point's, or at the first word of its group
with RETRY. A replaced resume point names both. -/
def Thread.afterTrap (t : Thread) (retry : Bool) : Thread :=
  let first := if t.resReplaced then t.resInst else t.resFirst
  let u := t.settle
  { u with trapped := false, pc := if retry then first else nextPc t.resInst }

/-- One member's part of an instruction: the state before the cycle, the issue, the member and its thread, and the state so
far; its result is the new state and where control goes, or why it has no effect. -/
abbrev Member := State → Issue → FrameRef → Thread → State → Except Stop (State × Go)

/-- A member without effect: an interlock holds it, a fault ends it, a trap is taken (03 R71, 05 R116). -/
def State.stopMember (acc : State) (is : Issue) (k : FrameRef) : Stop → Except Refusal State
  | .hold => .ok (acc.onThread k fun t => { t with held := true })
  | .fault code addr => .ok ((acc.onThread k Thread.settle).faultThread k code addr)
  | .trap code addr => .ok (acc.takeTrap is k code addr)
  | .refuse r => .error r

/-- A member that stops after part of its work has touched caches, counters or caches of translations: it has no other
effect. -/
def State.fails (acc : State) (is : Issue) (k : FrameRef) (e : Stop) : Except Stop (State × Go) :=
  match acc.stopMember is k e with
  | .ok s => .ok (s, .stay)
  | .error r => .error (.refuse r)

/-- The members of a group in ascending lane: each reads the registers of the others as they stood before the group's effects,
and those effects follow one another (05 R116, 09 R232). What an earlier member has done to a later one's thread stands (the
end of a meet's phase clears its arrival). -/
def runMembers (f : Member) (s : State) (is : Issue) : List FrameRef → State → Except Refusal State
  | [], acc => .ok acc
  | k :: rest, acc =>
    match acc.threads.get k with
    | none => runMembers f s is rest acc
    | some t =>
      match f s is k t acc with
      | .error e =>
        match acc.stopMember is k e with
        | .error r => .error r
        | .ok acc' => runMembers f s is rest acc'
      | .ok (acc', go) =>
        let done := if go = .stay then acc' else acc'.onThread k (retire is s.cycle go)
        runMembers f s is rest done

/-- An instruction executed by the issue group in hand; without one nothing happens. -/
def runGroup (f : Member) (s : State) : Host.Outcome State Fault Refusal :=
  match s.issue with
  | none => .next s
  | some is =>
    match runMembers f s is is.members s with
    | .ok s' => .next { s' with issue := none }
    | .error r => .refused r

/-- An instruction that changes nothing but its thread. -/
def threadOp (f : State → Issue → FrameRef → Thread → Except Stop (Thread × Go)) : Member :=
  fun s is k t acc =>
    match f s is k t with
    | .error e => .error e
    | .ok (t', go) => .ok (acc.onThread k fun _ => t', go)

/-- An instruction that reads sources and writes one group of registers: its sources, the name and size of its destination,
its latency (none for a variable one), and its result. -/
def regOp (srcs : List Src) (d n : Nat) (latency : Option Nat) (f : State → FrameRef → Thread → List (List RegVal) → List RegVal) :
    Member :=
  threadOp fun s is k t =>
    match operands s is.members t srcs [(d, n)] with
    | .error e => failOp s is t srcs e
    | .ok v => .ok (finishOp s is t srcs t d (f s k t v) latency)

/-- The same for an instruction whose own failure cases follow its operand checks (03 R71 step 5). -/
def regOpE (srcs : List Src) (d n : Nat) (latency : Option Nat) (unit : State → FrameRef → Bool)
    (f : State → FrameRef → Thread → List (List RegVal) → Except Stop (List RegVal)) : Member :=
  threadOp fun s is k t =>
    match operands s is.members t srcs [(d, n)] (unit s k) with
    | .error e => .error e
    | .ok v =>
      match f s k t v with
      | .error e => .error e
      | .ok r => .ok (t.putAll d r latency, .next)

end Sys2Proof.Machine
end

