-- ==== Sys2Proof/Machine/IntegerOps.lean ====
section
/-! DEFINITION. Integer arithmetic, logic, shifts, bit fields, compare, select, move and constants: opcodes 0x01 to 0x10
(07 R138 to R152). -/

namespace Sys2Proof.Machine

/-- Source a, b or d through its pattern. -/
def srcA (px : Option Pats) (r : Reg) (n : Nat) (tags : Option (List Tag)) : Src := ⟨r.val, n, patA px, tags⟩
def srcB (px : Option Pats) (r : Reg) (n : Nat) (tags : Option (List Tag)) : Src := ⟨r.val, n, patB px, tags⟩
def srcD (px : Option Pats) (r : Reg) (n : Nat) (tags : Option (List Tag)) : Src := ⟨r.val, n, patD px, tags⟩

/-- The result tag of the .s32 and .n32 forms (03 R75). -/
def tyTag : Ty → Tag
  | .s32 => .s32
  | .n32 => .n32

/-- A word as the form reads it: SignExt in .s32, unsigned in .n32 (07 R141, R142). -/
def tyVal (t : Ty) (x : Word) : Int :=
  match t with
  | .s32 => x.toInt
  | .n32 => x.toNat

/-- A two-source 32-bit instruction over S32 and N32 sources. -/
def int2 (px : Option Pats) (d a b : Reg) (l : Nat) (f : Word → Word → RegVal) : Member :=
  regOp [srcA px a 1 (some tagsInt), srcB px b 1 (some tagsInt)] d.val 1 (some (lat px l))
    fun _ _ _ v => [f (argW v 0) (argW v 1)]

/-- A two-source instruction over sources of any tag. -/
def raw2 (px : Option Pats) (d a b : Reg) (f : Word → Word → RegVal) : Member :=
  regOp [srcA px a 1 none, srcB px b 1 none] d.val 1 (some (lat px 2)) fun _ _ _ v => [f (argW v 0) (argW v 1)]

/-- A one-source instruction over a source of any tag. -/
def raw1 (px : Option Pats) (d a : Reg) (f : Word → RegVal) : Member :=
  regOp [srcA px a 1 none] d.val 1 (some (lat px 2)) fun _ _ _ v => [f (argW v 0)]

/-- A 64-bit pair form (07 R139). -/
def pair2 (px : Option Pats) (d a b : Reg) (f : Nat → Nat → Nat) : Member :=
  regOp [srcA px a 2 (some tagsWide), srcB px b 2 (some tagsWide)] d.val 2 (some (lat px 3))
    fun _ _ _ v => splitRegs 2 (f (argN v 0) (argN v 1)) .w64

/-- The value of an immediate without a prefix sign-extended, with one as it stands (05 R112). -/
def immWord : Imm → Word
  | .short i => i.signExtend 32
  | .long v => v

/-- Shift kinds (07 R144): the result for an amount read as an unsigned number. -/
def shlWord (x : Word) (n : Nat) : Word := if n < 32 then x <<< n else 0
def shrWord (x : Word) (n : Nat) : Word := if n < 32 then x >>> n else 0
def shaWord (x : Word) (n : Nat) : Word := if n < 32 then x.sshiftRight n else if x.getLsbD 31 then 0xFFFFFFFF else 0
def rotWord (x : Word) (n : Nat) : Word := x.rotateLeft (n % 32)

/-- The number of zero bits above the highest one bit (07 R147). -/
def clzWord (x : Word) : Nat := if x = 0 then 32 else 31 - Nat.log2 x.toNat

/-- Bit k moved to bit 31 - k (07 R147). -/
def brevWord (x : Word) : Word := x.reverse

/-- BFX (07 R146): LEN bits from POS, zero-extended or sign-extended. -/
def bfxWord (sx : Bool) (len pos : Nat) (x : Word) : Word :=
  let v := x.toNat / 2 ^ pos % 2 ^ len
  if sx then BitVec.ofInt 32 (signExt v len) else BitVec.ofNat 32 v

/-- BFI (07 R146): bits of d from POS replaced by the LEN low bits of a. -/
def bfiWord (len pos : Nat) (d x : Word) : Word :=
  let m : Word := (BitVec.ofNat 32 (2 ^ len - 1)) <<< pos
  (d &&& ~~~m) ||| ((x <<< pos) &&& m)

/-- ADD (07 R139). -/
def execAdd (px : Option Pats) (d a b : Reg) (t : Ty) (s : State) : Host.Outcome State Fault Refusal :=
  runGroup (int2 px d a b 2 fun x y => (x + y, tyTag t)) s

/-- SUB (07 R139). -/
def execSub (px : Option Pats) (d a b : Reg) (t : Ty) (s : State) : Host.Outcome State Fault Refusal :=
  runGroup (int2 px d a b 2 fun x y => (x - y, tyTag t)) s

/-- ADD of pairs (07 R139); the .s and .n forms give the same bits and tag. -/
def execAdd64 (px : Option Pats) (d a b : Reg) (_t : Bool) (s : State) : Host.Outcome State Fault Refusal :=
  runGroup (pair2 px d a b fun x y => x + y) s

/-- SUB of pairs (07 R139). -/
def execSub64 (px : Option Pats) (d a b : Reg) (_t : Bool) (s : State) : Host.Outcome State Fault Refusal :=
  runGroup (pair2 px d a b fun x y => x + 2 ^ 64 - y) s

/-- ADDI (07 R140). -/
def execAddi (px : Option Pats) (d a : Reg) (i : Imm) (s : State) : Host.Outcome State Fault Refusal :=
  runGroup (regOp [srcA px a 1 (some tagsInt)] d.val 1 (some (lat px 2))
    fun _ _ _ v => [(argW v 0 + immWord i, if (arg v 0).2 = .n32 then .n32 else .s32)]) s

/-- MUL (07 R141). -/
def execMul (px : Option Pats) (d a b : Reg) (t : Ty) (s : State) : Host.Outcome State Fault Refusal :=
  runGroup (int2 px d a b 4 fun x y => (x * y, tyTag t)) s

/-- MULHI (07 R141): bits 63 to 32 of the exact product. -/
def execMulhi (px : Option Pats) (d a b : Reg) (t : Ty) (s : State) : Host.Outcome State Fault Refusal :=
  runGroup (int2 px d a b 4 fun x y => (BitVec.ofInt 32 (tyVal t x * tyVal t y / 2 ^ 32), tyTag t)) s

/-- MAD (07 R141): source d is tag-checked and read before it is written. -/
def execMad (px : Option Pats) (d a b : Reg) (t : Ty) (s : State) : Host.Outcome State Fault Refusal :=
  runGroup (regOp [srcA px a 1 (some tagsInt), srcB px b 1 (some tagsInt), srcD px d 1 (some tagsInt)] d.val 1 (some (lat px 4))
    fun _ _ _ v => [(argW v 0 * argW v 1 + argW v 2, tyTag t)]) s

/-- MIN (07 R142). -/
def execMinI (px : Option Pats) (d a b : Reg) (t : Ty) (s : State) : Host.Outcome State Fault Refusal :=
  runGroup (int2 px d a b 2 fun x y => (if tyVal t y < tyVal t x then y else x, tyTag t)) s

/-- MAX (07 R142). -/
def execMaxI (px : Option Pats) (d a b : Reg) (t : Ty) (s : State) : Host.Outcome State Fault Refusal :=
  runGroup (int2 px d a b 2 fun x y => (if tyVal t x < tyVal t y then y else x, tyTag t)) s

/-- ABS (07 R142). -/
def execAbsI (px : Option Pats) (d a : Reg) (s : State) : Host.Outcome State Fault Refusal :=
  runGroup (regOp [srcA px a 1 (some tagsInt)] d.val 1 (some (lat px 2))
    fun _ _ _ v => [(if (argW v 0).getLsbD 31 then -(argW v 0) else argW v 0, .s32)]) s

/-- NEG (07 R142). -/
def execNeg (px : Option Pats) (d a : Reg) (s : State) : Host.Outcome State Fault Refusal :=
  runGroup (regOp [srcA px a 1 (some tagsInt)] d.val 1 (some (lat px 2)) fun _ _ _ v => [(-(argW v 0), .s32)]) s

/-- AND (07 R143). -/
def execAndB (px : Option Pats) (d a b : Reg) (s : State) : Host.Outcome State Fault Refusal :=
  runGroup (raw2 px d a b fun x y => (x &&& y, .raw)) s

/-- OR (07 R143). -/
def execOrB (px : Option Pats) (d a b : Reg) (s : State) : Host.Outcome State Fault Refusal :=
  runGroup (raw2 px d a b fun x y => (x ||| y, .raw)) s

/-- XOR (07 R143). -/
def execXorB (px : Option Pats) (d a b : Reg) (s : State) : Host.Outcome State Fault Refusal :=
  runGroup (raw2 px d a b fun x y => (x ^^^ y, .raw)) s

/-- ANDN (07 R143). -/
def execAndn (px : Option Pats) (d a b : Reg) (s : State) : Host.Outcome State Fault Refusal :=
  runGroup (raw2 px d a b fun x y => (x &&& ~~~y, .raw)) s

/-- SHL by register (07 R144). -/
def execShl (px : Option Pats) (d a b : Reg) (s : State) : Host.Outcome State Fault Refusal :=
  runGroup (raw2 px d a b fun x y => (shlWord x y.toNat, .raw)) s

/-- SHR by register (07 R144). -/
def execShr (px : Option Pats) (d a b : Reg) (s : State) : Host.Outcome State Fault Refusal :=
  runGroup (raw2 px d a b fun x y => (shrWord x y.toNat, .raw)) s

/-- SHA by register (07 R144). -/
def execSha (px : Option Pats) (d a b : Reg) (s : State) : Host.Outcome State Fault Refusal :=
  runGroup (raw2 px d a b fun x y => (shaWord x y.toNat, .raw)) s

/-- ROT by register (07 R144). -/
def execRot (px : Option Pats) (d a b : Reg) (s : State) : Host.Outcome State Fault Refusal :=
  runGroup (raw2 px d a b fun x y => (rotWord x y.toNat, .raw)) s

/-- SHL by immediate (07 R145). -/
def execShlImm (px : Option Pats) (d a : Reg) (n : Fin 32) (s : State) : Host.Outcome State Fault Refusal :=
  runGroup (raw1 px d a fun x => (shlWord x n.val, .raw)) s

/-- SHR by immediate (07 R145). -/
def execShrImm (px : Option Pats) (d a : Reg) (n : Fin 32) (s : State) : Host.Outcome State Fault Refusal :=
  runGroup (raw1 px d a fun x => (shrWord x n.val, .raw)) s

/-- SHA by immediate (07 R145). -/
def execShaImm (px : Option Pats) (d a : Reg) (n : Fin 32) (s : State) : Host.Outcome State Fault Refusal :=
  runGroup (raw1 px d a fun x => (shaWord x n.val, .raw)) s

/-- ROT by immediate (07 R145). -/
def execRotImm (px : Option Pats) (d a : Reg) (n : Fin 32) (s : State) : Host.Outcome State Fault Refusal :=
  runGroup (raw1 px d a fun x => (rotWord x n.val, .raw)) s

/-- BFX (07 R146); the field holds LEN - 1. -/
def execBfx (px : Option Pats) (d a : Reg) (x : Bool) (l p : Fin 32) (s : State) : Host.Outcome State Fault Refusal :=
  runGroup (raw1 px d a fun w => (bfxWord x (l.val + 1) p.val w, .raw)) s

/-- BFI (07 R146). -/
def execBfi (px : Option Pats) (d a : Reg) (l p : Fin 32) (s : State) : Host.Outcome State Fault Refusal :=
  runGroup (regOp [srcA px a 1 none, srcD px d 1 none] d.val 1 (some (lat px 2))
    fun _ _ _ v => [(bfiWord (l.val + 1) p.val (argW v 1) (argW v 0), .raw)]) s

/-- POPC (07 R147). -/
def execPopc (px : Option Pats) (d a : Reg) (s : State) : Host.Outcome State Fault Refusal :=
  runGroup (raw1 px d a fun x => (BitVec.ofNat 32 (countBits x.toNat 32), .n32)) s

/-- CLZ (07 R147). -/
def execClz (px : Option Pats) (d a : Reg) (s : State) : Host.Outcome State Fault Refusal :=
  runGroup (raw1 px d a fun x => (BitVec.ofNat 32 (clzWord x), .n32)) s

/-- BREV (07 R147). -/
def execBrev (px : Option Pats) (d a : Reg) (s : State) : Host.Outcome State Fault Refusal :=
  runGroup (raw1 px d a fun x => (brevWord x, .raw)) s

/-- CMP (07 R148). -/
def execCmp (px : Option Pats) (d a b : Reg) (c : Cc) (s : State) : Host.Outcome State Fault Refusal :=
  runGroup (int2 px d a b 2 fun x y => flagVal (condHolds c x y)) s

/-- SEL (07 R149): the condition is d; all three sources are read. -/
def execSel (px : Option Pats) (d a b : Reg) (s : State) : Host.Outcome State Fault Refusal :=
  runGroup (regOp [srcA px a 1 none, srcB px b 1 none, srcD px d 1 none] d.val 1 (some (lat px 2))
    fun _ _ _ v => [if isTrue (argW v 2) then arg v 0 else arg v 1]) s

/-- MOV (07 R150). -/
def execMov (px : Option Pats) (d a : Reg) (s : State) : Host.Outcome State Fault Refusal :=
  runGroup (regOp [srcA px a 1 none] d.val 1 (some (lat px 2)) fun _ _ _ v => [arg v 0]) s

/-- MOV of a pair (07 R150): each register takes the tag of its own source. -/
def execMovB64 (px : Option Pats) (d a : Reg) (s : State) : Host.Outcome State Fault Refusal :=
  runGroup (regOp [srcA px a 2 none] d.val 2 (some (lat px 3)) fun _ _ _ v => v.getD 0 []) s

/-- LI (07 R151). -/
def execLi (d : Reg) (t : Tag) (i : Imm) (s : State) : Host.Outcome State Fault Refusal :=
  runGroup (regOp [] d.val 1 (some 2) fun _ _ _ _ => [(immWord i, t)]) s

/-- LEA (07 R152): SH is the shift, SX the sign extension of the index. -/
def execLea (px : Option Pats) (d a b : Reg) (x : Bool) (sh : Fin 8) (s : State) : Host.Outcome State Fault Refusal :=
  runGroup (regOp [srcA px a 2 (some tagsWide), srcB px b 1 (some tagsInt)] d.val 2 (some (lat px 3)) fun _ _ _ v =>
    let idx : Int := if x then (argW v 1).toInt else (argW v 1).toNat
    splitRegs 2 (wrap (argN v 0 + idx * 2 ^ sh.val) 64) .w64) s

end Sys2Proof.Machine
end

