-- ==== Sys2Proof/Machine/ControlOps.lean ====
section
/-! DEFINITION. Transfers of control, ending, yielding, register windows, traps and the return from them: opcodes 0x1C to 0x23
and 0x26 (07 R153 to R170; 05 R99 to R103). BRK is in Preempt. -/

namespace Sys2Proof.Machine

/-- Who a thread's accesses are made by. -/
def Thread.who (t : Thread) (k : FrameRef) : Who := ⟨coreOf k, t.ctxid, t.launch, t.trapped⟩

/-- A byte of g as a read of a core would find it, without changing any cache. -/
def State.peek (s : State) (g pa : Nat) : Byte :=
  match (s.core g).l1.get (pa / 128) with
  | some l => if !l.stale (s.core g).gen && l.holds.getLsbD (pa % 128) then l.data.getD (pa % 128) 0 else readByte s.mem pa
  | none => readByte s.mem pa

/-- The word of code at a virtual address, or none where it cannot be fetched. -/
def State.peekWord (s : State) (who : Who) (va : Nat) : Option Nat :=
  match s.translate who va 4 .fetch with
  | (_, .error _) => none
  | (_, .ok t) => some (leNat ((span t.pa 4).map (s.peek who.gcore)))

/-- A word that is a prefix (05 R105). -/
def isPrefixWord (w : Nat) : Bool := opcodeOf w == 0x7C || opcodeOf w == 0x7D

/-- A code address that a transfer may take (05 R103): it names an instruction slot whose preceding word in the bundle is no
prefix. R103 does not say what the check finds where that word cannot be fetched, or reads as uncorrectable: DESIGN CHOICE, it finds no
prefix, and the fetch that follows faults (log 67). -/
def State.targetOk (s : State) (who : Who) (a : Nat) : Bool :=
  slotAddress a && (a % 32 == 4 || !((s.peekWord who (a - 4)).any isPrefixWord))

/-- The target of a relative transfer: PC + 4 × off (05 R112; 07 R155). The spec does not say what one that leaves the 57-bit space
names: DESIGN CHOICE, it wraps modulo 2^57 (log 68). -/
def relTarget (pc : Nat) (off : Int) : Nat := wrap (pc + 4 * off) 57

/-- A transfer that is taken, with its target check (05 R103). -/
def takeJump (s : State) (k : FrameRef) (t : Thread) (target : Nat) (t' : Thread) : Except Stop (Thread × Go) :=
  if s.targetOk (t.who k) target then .ok (t', .jump target) else .error (.fault codeTarget target)

/-- BR (07 R155). -/
def execBr (o : BitVec 25) (s : State) : Host.Outcome State Fault Refusal :=
  runGroup (threadOp fun s is k t => takeJump s k t (relTarget is.inst o.toInt) t) s

/-- CALL (07 R155): the link goes to v127. -/
def execCall (o : BitVec 25) (s : State) : Host.Outcome State Fault Refusal :=
  runGroup (threadOp fun s is k t =>
    match operands s is.members t [] [(127, 1)] with
    | .error e => .error e
    | .ok _ =>
      takeJump s k t (relTarget is.inst o.toInt) (t.putAll 127 [(BitVec.ofNat 32 (nextPc is.inst), .n32)] (some 2))) s

/-- The offset of BZ and BNZ as a signed number (07 R156). -/
def branchOffset (i : Imm) : Int := (immWord i).toInt

/-- BZ and BNZ: a conditional transfer (07 R156). -/
def condJump (a : Reg) (i : Imm) (want : Bool) : Member :=
  threadOp fun s is k t =>
    match operands s is.members t [ownSrc a 1 none] [] with
    | .error e => .error e
    | .ok v => if isTrue (argW v 0) = want then takeJump s k t (relTarget is.inst (branchOffset i)) t else .ok (t, .next)

/-- BZ (07 R156). -/
def execBz (a : Reg) (i : Imm) (s : State) : Host.Outcome State Fault Refusal := runGroup (condJump a i false) s

/-- BNZ (07 R156). -/
def execBnz (a : Reg) (i : Imm) (s : State) : Host.Outcome State Fault Refusal := runGroup (condJump a i true) s

/-- JR and RET: a transfer within the current 4 GiB region (07 R157). -/
def regionJump (a : Reg) : Member :=
  threadOp fun s is k t =>
    match operands s is.members t [ownSrc a 1 (some tagsWide)] [] with
    | .error e => .error e
    | .ok v => takeJump s k t (is.inst / 2 ^ 32 * 2 ^ 32 + (argW v 0).toNat) t

/-- JR (07 R157). -/
def execJr (a : Reg) (s : State) : Host.Outcome State Fault Refusal := runGroup (regionJump a) s

/-- RET (07 R157): it differs from JR only for the fetch unit's prediction. -/
def execRet (a : Reg) (s : State) : Host.Outcome State Fault Refusal := runGroup (regionJump a) s

/-- JR.B64 (07 R157). -/
def execJrB64 (a : Reg) (s : State) : Host.Outcome State Fault Refusal :=
  runGroup (threadOp fun s is k t =>
    match operands s is.members t [ownSrc a 2 (some tagsWide)] [] with
    | .error e => .error e
    | .ok v => if 2 ^ 57 ≤ argN v 0 then .error (.fault codeTarget (argN v 0)) else takeJump s k t (argN v 0) t) s

/-- A thread has accesses outstanding (07 R158 step 2). -/
def State.busy (s : State) (k : FrameRef) (t : Thread) : Bool := !t.loads.isEmpty || !t.gwins.isEmpty || s.storing k

/-- EXIT (07 R158): refused to a member of a group that 01 R53 does not let end; else the thread issues nothing further,
waits for its accesses, and ends or waits for its children. -/
def execExitT (s : State) : Host.Outcome State Fault Refusal :=
  runGroup (fun _ _ k t acc =>
    if t.group.any (fun g => !g.barred || g.foreign) then .error (.fault codeClusterExit 0)
    else if acc.busy k t then .ok (acc.onThread k fun t => { t with draining := true }, .stay)
    else .ok (acc.exitNow k, .stay)) s

/-- YIELD (07 R159, 01 R26). -/
def execYield (s : State) : Host.Outcome State Fault Refusal := runGroup (threadOp fun _ _ _ t => .ok (t, .yield)) s

/-- NOP (07 R159). -/
def execNop (s : State) : Host.Outcome State Fault Refusal := runGroup (threadOp fun _ _ _ t => .ok (t, .next)) s

/-- The value of WIN, GROW and SHRINK (07 R160): 16 × N, or a register. -/
def windowValue (s : State) (is : Issue) (t : Thread) (src : Fin 64 ⊕ Reg) : Except Stop Nat :=
  match src with
  | .inl n => .ok (16 * n.val)
  | .inr a =>
    match operands s is.members t [ownSrc a 1 (some tagsInt)] [] with
    | .error e => .error e
    | .ok v => .ok (argW v 0).toNat

/-- WIN (01 R55, 07 R161). -/
def winOp (src : Fin 64 ⊕ Reg) : Member :=
  threadOp fun s is _ t =>
    match windowValue s is t src with
    | .error e => .error e
    | .ok v => if v % 16 ≠ 0 ∨ t.alloc ≤ v then .error (.fault codeRegRange 0) else .ok ({ t with winbase := v }, .next)

/-- GROW (01 R55, 07 R161, R164): granted at once, or in the order of the lane's requests. 01 R20 lists TLBINV as the one wait of
a thread in state trapped, and 07 R161 makes any GROW wait that cannot be granted: a handler's GROW waits too, and the thread
stays marked trapped and goes on in its handler (DESIGN CHOICE, log 52). -/
def growOp (src : Fin 64 ⊕ Reg) : Member := fun s is k t acc =>
  match windowValue s is t src with
  | .error e => .error e
  | .ok v =>
    if 512 < v ∨ v % 16 ≠ 0 then .error (.fault codeRegRange 0)
    else if v ≤ t.alloc then .ok (acc, .next)
    else
      let key := 32 * t.part + t.lane
      let s1 := acc.onThread k fun t => { t with run := .grow v }
      let s2 := s1.onCore (coreOf k) fun c => { c with grows := c.grows.put key (c.grows.getD key [] ++ [k]) }
      .ok (s2.grantGrows (coreOf k) t.part t.lane 16, .next)

/-- SHRINK (01 R55, 07 R161): interlocked while a result in flight stands on a returned register. -/
def shrinkOp (src : Fin 64 ⊕ Reg) : Member := fun s is k t acc =>
  match windowValue s is t src with
  | .error e => .error e
  | .ok v =>
    if v % 16 ≠ 0 ∨ v ≤ t.winbase ∨ v < 16 then .error (.fault codeRegRange 0)
    else if t.alloc ≤ v then .ok (acc, .next)
    else if t.pend.any (fun (r, _) => v ≤ r && r < Config.trapBank) then .error .hold
    else
      let keep := fun (r : Nat) => r < v || Config.trapBank ≤ r
      let s1 := acc.onThread k fun t =>
        { t with alloc := v, regs := t.regs.filter (fun (r, _) => keep r), writes := t.writes.filter (fun w => keep w.reg),
                 bank := t.bank.filter (fun b => keep b.reg) }
      .ok (s1.grantGrows (coreOf k) t.part t.lane 16, .next)

/-- WIN by immediate. -/
def execWinImm (n : Fin 64) (s : State) : Host.Outcome State Fault Refusal := runGroup (winOp (.inl n)) s
/-- WIN by register. -/
def execWinReg (a : Reg) (s : State) : Host.Outcome State Fault Refusal := runGroup (winOp (.inr a)) s
/-- GROW by immediate. -/
def execGrowImm (n : Fin 64) (s : State) : Host.Outcome State Fault Refusal := runGroup (growOp (.inl n)) s
/-- GROW by register. -/
def execGrowReg (a : Reg) (s : State) : Host.Outcome State Fault Refusal := runGroup (growOp (.inr a)) s
/-- SHRINK by immediate. -/
def execShrinkImm (n : Fin 64) (s : State) : Host.Outcome State Fault Refusal := runGroup (shrinkOp (.inl n)) s
/-- SHRINK by register. -/
def execShrinkReg (a : Reg) (s : State) : Host.Outcome State Fault Refusal := runGroup (shrinkOp (.inr a)) s

/-- TRAP raises USER_TRAP with the address Src(a) (07 R167, R168). -/
def execTrap (a : Reg) (s : State) : Host.Outcome State Fault Refusal :=
  runGroup (threadOp fun s is _ t =>
    match operands s is.members t [ownSrc a 1 none] [] with
    | .error e => .error e
    | .ok v => .error (.trap 0x0100 (argW v 0).toNat)) s

/-- ERET and ERET.RETRY (07 R170). -/
def eretOp (retry : Bool) : Member :=
  threadOp fun s _ k t =>
    if !t.trapped then .error (.fault codePriv 0)
    else
      let u := t.afterTrap retry
      if t.resReplaced && !s.targetOk (t.who k) t.resInst then .error (.fault codeTarget t.resInst) else .ok (u, .jump u.pc)

/-- ERET (07 R170). -/
def execEret (s : State) : Host.Outcome State Fault Refusal := runGroup (eretOp false) s
/-- ERET.RETRY (07 R170). -/
def execEretRetry (s : State) : Host.Outcome State Fault Refusal := runGroup (eretOp true) s

/-- TRAPVEC sets the handler entry of the thread's context on its core (07 R165, R170). A trap of the same cycle uses the old
entry, so the new one stands from the cycle's end (`Core.settled`). -/
def execTrapvec (a : Reg) (s : State) : Host.Outcome State Fault Refusal :=
  runGroup (fun s is k t acc =>
    match operands s is.members t [ownSrc a 2 (some tagsWide)] [] with
    | .error e => .error e
    | .ok v =>
      let e := argN v 0 % 2 ^ 57
      if !t.trapped then .error (.fault codePriv 0)
      else if e ≠ 0 ∧ !entryAddress e then .error (.fault codeTarget e)
      else .ok (acc.onCore (coreOf k) fun c => { c with heldHandlers := c.heldHandlers.put t.ctxid e }, .next)) s

end Sys2Proof.Machine
end

