-- ==== Sys2Proof/Machine/SystemOps.lean ====
section
/-! DEFINITION. System reads and the privileged system instructions: opcodes 0x24, 0x25 and 0x7B (07 R171 to R180). -/

namespace Sys2Proof.Machine

/-- Physical core index of a thread has a ray unit (00 R2, 07 R173). -/
def State.hasRays (s : State) (g : Nat) : Bool := testBit (s.fuses.rays.getD (s.physDie (dieOf g)) 0) (physOf g)

/-- A capability word as the executing core sees it (07 R173). -/
def State.capWord (s : State) (g k : Nat) : Nat :=
  let mask := s.enableMask (dieOf g)
  match k with
  | 0 => bit s.fuses.carver + 2 * bit (s.hasRays g) + 4 * bit (s.allCores.any s.hasRays) + 8 * s.fuses.heads
      + 64 * s.fuses.ports + 1024 * (s.fuses.dies - 1) + 4096 * bit s.pkg.wincfg
  | 1 => 1 + 256 * s.fuses.part
  | 2 => countBits mask 36 + 65536 * s.allCores.length
  | 3 => mask % 2 ^ 32
  | 4 => mask / 2 ^ 32 % 16
  | 5 => s.fuses.memGb
  | _ => 0

/-- CORE_SPAWNCTL as a word (01 R34). A SPLITEN written in this cycle acts on split requests from the next one on (07 R176). -/
def Core.spawnctl (c : Core) : Nat := c.binTimer + 65536 * bit (c.heldSplit.getD c.splitEn)

/-- A special register's value (03 R72). The held value of the frame registers is read (07 R176). -/
def State.sregVal (s : State) (k : FrameRef) (t : Thread) (r : Sreg) : List RegVal :=
  let g := coreOf k
  let c := s.core g
  let n := fun (v : Nat) => [((BitVec.ofNat 32 v, .n32) : RegVal)]
  match r with
  | .tid => n t.tid
  | .lane => n t.lane
  | .part => n t.part
  | .core => n (physOf g)
  | .gcore => n g
  | .cluster => n (physOf g / 4)
  | .die => n (dieOf g)
  | .ctx => n t.cx
  | .frame => n (indexOf k)
  | .seq => n t.seq
  | .grid => n t.grid
  | .lgroup => n t.lgroup
  | .launch => n t.launch
  | .alloc => n t.alloc
  | .winbase => n t.winbase
  | .phase => n t.phase
  | .winstat => n t.winstat
  | .time => splitRegs 2 (s.timeOf k) .w64
  | .mode => n (bit t.trapped)
  | .spawnctl => n c.spawnctl
  | .framearea => splitRegs 2 (c.heldBase.getD (s.frameBase g)) .w64
  | .framelim => n (c.heldLim.getD c.frameLim)
  | .trapcode => n t.trapcode
  | .trappc => n t.resInst
  | .trapaddr => splitRegs 2 t.trapaddr .w64
  | .trapinst => [(t.trapinst, .raw)]

/-- Whether a selector is read only in state trapped (03 R72). -/
def sregPriv (r : Sreg) : Bool := 0x40 ≤ Sreg.code r

/-- SREG (07 R171). %winstat waits for the thread's window reads (08 R203). -/
def execSreg (d : Reg) (r : Sreg) (s : State) : Host.Outcome State Fault Refusal :=
  runGroup (regOpE [] d.val (if r.wide then 2 else 1) (some (if r = .time then 3 else 2)) (fun _ _ => true)
    fun s k t _ =>
      if sregPriv r && !t.trapped then .error (.fault codePriv 0)
      else if r = .winstat ∧ t.loads.any (fun l => l.window.isSome) then .error .hold
      else .ok (s.sregVal k t r)) s

/-- TIME (07 R172). -/
def execTime (d : Reg) (s : State) : Host.Outcome State Fault Refusal :=
  runGroup (regOp [] d.val 2 (some 3) fun s k _ _ => splitRegs 2 (s.timeOf k) .w64) s

/-- CAPS (07 R173). -/
def execCaps (d : Reg) (c : Fin 128) (s : State) : Host.Outcome State Fault Refusal :=
  runGroup (regOp [] d.val 1 (some 2) fun s k _ _ => [(BitVec.ofNat 32 (s.capWord (coreOf k) c.val), .n32)]) s

/-- Held writes of CORE_FRAMEAREA and CORE_FRAMELIM apply when the core has no frame with VALID set (07 R176). -/
def State.applyHeld (s : State) (g : Nat) : State :=
  let c := s.core g
  if (c.heldBase.isSome || c.heldLim.isSome) && !(s.frames.any fun (k, _) => coreOf k == g) then
    s.setCore g { c with frameBase := (match c.heldBase with | some b => some b | none => c.frameBase),
                         frameLim := c.heldLim.getD c.frameLim, heldBase := none, heldLim := none }
  else s

/-- What SSET writes (07 R175, R176; 01 R34): values outside a field's range take effect as the nearer limit. -/
def State.ssetWrite (s : State) (k : FrameRef) (r : Sset) (v : Nat) : State :=
  let g := coreOf k
  match r with
  | .spawnctl => s.onCore g fun c => { c with binTimer := max 16 (v % 65536), heldSplit := some (testBit v 16) }
  | .framearea => (s.onCore g fun c => { c with heldBase := some (bitsOf v 51 12 * 4096) }).applyHeld g
  | .framelim => (s.onCore g fun c => { c with heldLim := some (min 1048576 (max 4096 (v % 2 ^ 21))) }).applyHeld g
  | .trappc => s.onThread k fun t =>
      let pc := t.resInst / 2 ^ 32 * 2 ^ 32 + v % 2 ^ 32
      { t with resFirst := pc, resInst := pc, resReplaced := true }

/-- SSET (07 R175). -/
def execSset (a : Reg) (r : Sset) (s : State) : Host.Outcome State Fault Refusal :=
  runGroup (fun s is k t acc =>
    match operands s is.members t [ownSrc a (if r = .framearea then 2 else 1) none] [] with
    | .error e => .error e
    | .ok v => if !t.trapped then .error (.fault codePriv 0) else .ok (acc.ssetWrite k r (argN v 0), .next)) s

/-- TLBINV (07 R178, 14 R323): the thread's stores complete and its core's dirty bytes go home, then it waits until every
core has dropped the entries. -/
def execTlbinv (a : Reg) (sc : Scope) (s : State) : Host.Outcome State Fault Refusal :=
  runGroup (fun s is k t acc =>
    match operands s is.members t [ownSrc a 2 (some tagsWide)] [] with
    | .error e => .error e
    | .ok v =>
      if !t.trapped then .error (.fault codePriv 0)
      else
        .ok ((acc.outgoing k).onThread k fun t => { t with run := .engine (.tlbinv (sc == .space) (argN v 0 % 2 ^ 57)) }, .next)) s

/-- Drops the cached translations of an address space, or of the page holding one address, in every core; walk caches drop
every entry (07 R178, 14 R323; log 15). -/
def State.dropTranslations (s : State) (root : Nat) (all : Bool) (va : Nat) : State :=
  let keep := fun (e : TlbEntry) => e.root != root || !(all || (e.base ≤ va && va < e.base + e.size))
  { s with cores := s.cores.mapVals fun _ c => { c with tlb := c.tlb.filter keep },
           dies := s.dies.mapVals fun _ d => { d with walks := [] } }

/-- TLBINV_COMPLETE (07 R178): every core has dropped the entries; the thread goes on in its handler. -/
def execTlbinvComplete (key : Nat) (s : State) : Host.Outcome State Fault Refusal :=
  match s.threads.get key with
  | some t =>
    match t.run with
    | .engine (.tlbinv all va) => .next ((s.dropTranslations (s.ctx t.ctxid).root all va).wake key)
    | _ => .next s
  | none => .next s

/-- SFAULT (07 R179). -/
def execSfault (a b : Reg) (s : State) : Host.Outcome State Fault Refusal :=
  runGroup (threadOp fun s is _ t =>
    match operands s is.members t [ownSrc a 1 (some tagsInt), ownSrc b 2 (some tagsWide)] [] with
    | .error e => .error e
    | .ok v =>
      let code := (argW v 0).toNat % 65536
      if !t.trapped then .error (.fault codePriv 0)
      else .error (.fault (if code = 0 then t.trapcode else code) (argN v 1 % 2 ^ 57))) s

/-- The register that a name denotes under the user window (07 R180). -/
def Thread.userIndex (t : Thread) (name : Nat) : Nat := t.winbase + name

/-- XGET (07 R180). -/
def execXget (d : Reg) (n : Fin 128) (s : State) : Host.Outcome State Fault Refusal :=
  runGroup (threadOp fun s is _ t =>
    let i := t.userIndex n.val
    if t.alloc ≤ i then .error (.fault codeRegRange 0)
    else
      match operands s is.members t [] [(d.val, 1)] with
      | .error e => .error e
      | .ok _ =>
        if !t.trapped then .error (.fault codePriv 0)
        else if t.pending i then .error .hold
        else if t.check && t.early i then .error (.fault codeStallShort 0)
        else .ok (t.putAll d.val [t.reg i] none, .next)) s

/-- XPUT (07 R180). -/
def execXput (n : Fin 128) (a : Reg) (s : State) : Host.Outcome State Fault Refusal :=
  runGroup (threadOp fun s is _ t =>
    let i := t.userIndex n.val
    if t.alloc ≤ i then .error (.fault codeRegRange 0)
    else
      match operands s is.members t [ownSrc a 1 none] [] with
      | .error e => .error e
      | .ok v =>
        if !t.trapped then .error (.fault codePriv 0)
        else if t.pending i then .error .hold
        else .ok (t.commit i (arg v 0), .next)) s

end Sys2Proof.Machine
end

