-- ==== Sys2Proof/Machine/FloatOps.lean ====
section
/-! DEFINITION. FP32 arithmetic, transcendentals, and packed FP16 and BF16: opcodes 0x28 to 0x33 (08 R185 to R190). -/

namespace Sys2Proof.Machine

/-- An FP32 instruction of two sources. -/
def f32op2 (px : Option Pats) (d a b : Reg) (f : Nat → Nat → Nat) : Member :=
  regOp [srcA px a 1 (some tagsF32), srcB px b 1 (some tagsF32)] d.val 1 (some (lat px 4))
    fun _ _ _ v => [(BitVec.ofNat 32 (f (argW v 0).toNat (argW v 1).toNat), .f32)]

/-- FADD (08 R185). -/
def execFadd (px : Option Pats) (d a b : Reg) (f : Bool) (r : Rnd) (s : State) : Host.Outcome State Fault Refusal :=
  runGroup (f32op2 px d a b (FloatFmt.fp32.addOp r f)) s

/-- FSUB (08 R185). -/
def execFsub (px : Option Pats) (d a b : Reg) (f : Bool) (r : Rnd) (s : State) : Host.Outcome State Fault Refusal :=
  runGroup (f32op2 px d a b (FloatFmt.fp32.subOp r f)) s

/-- FMUL (08 R185). -/
def execFmul (px : Option Pats) (d a b : Reg) (f : Bool) (r : Rnd) (s : State) : Host.Outcome State Fault Refusal :=
  runGroup (f32op2 px d a b (FloatFmt.fp32.mulOp r f)) s

/-- FFMA (08 R185). -/
def execFfma (px : Option Pats) (d a b : Reg) (f : Bool) (r : Rnd) (s : State) : Host.Outcome State Fault Refusal :=
  runGroup (regOp [srcA px a 1 (some tagsF32), srcB px b 1 (some tagsF32), srcD px d 1 (some tagsF32)] d.val 1
    (some (lat px 4)) fun _ _ _ v =>
      [(BitVec.ofNat 32 (FloatFmt.fp32.fmaOp r f (argW v 0).toNat (argW v 1).toNat (argW v 2).toNat), .f32)]) s

/-- FMIN (08 R186). -/
def execFmin (px : Option Pats) (d a b : Reg) (f : Bool) (s : State) : Host.Outcome State Fault Refusal :=
  runGroup (f32op2 px d a b (FloatFmt.fp32.minMax false f)) s

/-- FMAX (08 R186). -/
def execFmax (px : Option Pats) (d a b : Reg) (f : Bool) (s : State) : Host.Outcome State Fault Refusal :=
  runGroup (f32op2 px d a b (FloatFmt.fp32.minMax true f)) s

/-- An FP32 pattern as FCMP reads it (08 R187). -/
def flushed (ftz : Bool) (x : Word) : Machine.Num := FloatFmt.fp32.decode (FloatFmt.fp32.flush ftz x.toNat)

/-- FCMP (08 R187). -/
def execFcmp (px : Option Pats) (d a b : Reg) (f : Bool) (c : FCc) (s : State) : Host.Outcome State Fault Refusal :=
  runGroup (regOp [srcA px a 1 (some tagsF32), srcB px b 1 (some tagsF32)] d.val 1 (some (lat px 4))
    fun _ _ _ v => [flagVal (fcondHolds c (flushed f (argW v 0)) (flushed f (argW v 1)))]) s

/-- FCLASS (08 R188). -/
def execFclass (px : Option Pats) (d a : Reg) (s : State) : Host.Outcome State Fault Refusal :=
  runGroup (regOp [srcA px a 1 (some tagsF32)] d.val 1 (some (lat px 4))
    fun _ _ _ v => [(BitVec.ofNat 32 (2 ^ fclassBit (argW v 0)), .n32)]) s

/-- A transcendental of an FP32 source, of variable latency. -/
def transIns (t : Trans) (px : Option Pats) (d a : Reg) (f : Bool) : Member :=
  regOp [srcA px a 1 (some tagsF32)] d.val 1 none fun _ _ _ v => [(transOp t f (argW v 0), .f32)]

/-- FRCP (08 R189). -/
def execFrcp (px : Option Pats) (d a : Reg) (f : Bool) (s : State) : Host.Outcome State Fault Refusal :=
  runGroup (transIns .rcp px d a f) s
/-- FRSQ (08 R189). -/
def execFrsq (px : Option Pats) (d a : Reg) (f : Bool) (s : State) : Host.Outcome State Fault Refusal :=
  runGroup (transIns .rsq px d a f) s
/-- FSQRT (08 R189). -/
def execFsqrt (px : Option Pats) (d a : Reg) (f : Bool) (s : State) : Host.Outcome State Fault Refusal :=
  runGroup (transIns .sqrt px d a f) s
/-- FEXP2 (08 R189). -/
def execFexp2 (px : Option Pats) (d a : Reg) (f : Bool) (s : State) : Host.Outcome State Fault Refusal :=
  runGroup (transIns .exp2 px d a f) s
/-- FLOG2 (08 R189). -/
def execFlog2 (px : Option Pats) (d a : Reg) (f : Bool) (s : State) : Host.Outcome State Fault Refusal :=
  runGroup (transIns .log2 px d a f) s
/-- FSIN (08 R189). -/
def execFsin (px : Option Pats) (d a : Reg) (f : Bool) (s : State) : Host.Outcome State Fault Refusal :=
  runGroup (transIns .sin px d a f) s
/-- FCOS (08 R189). -/
def execFcos (px : Option Pats) (d a : Reg) (f : Bool) (s : State) : Host.Outcome State Fault Refusal :=
  runGroup (transIns .cos px d a f) s

/-- The tag of a packed format (08 R190). -/
def halfTag : Half → Tag
  | .f16 => .h2
  | .bf16 => .b2

/-- Element j of a packed word. -/
def halfElem (x : Word) (j : Nat) : Nat := x.toNat / 2 ^ (16 * j) % 2 ^ 16

/-- Two elements packed in a word. -/
def pack2 (e0 e1 : Nat) : Word := BitVec.ofNat 32 (e0 + 2 ^ 16 * e1)

/-- An operation on each element of two words (08 R190). -/
def half2 (f : Nat → Nat → Nat) (x y : Word) : Word :=
  pack2 (f (halfElem x 0) (halfElem y 0)) (f (halfElem x 1) (halfElem y 1))

/-- A packed instruction of two sources. -/
def packed2 (px : Option Pats) (d a b : Reg) (m : Half) (f : Nat → Nat → Nat) : Member :=
  regOp [srcA px a 1 (some [halfTag m]), srcB px b 1 (some [halfTag m])] d.val 1 (some (lat px 4))
    fun _ _ _ v => [(half2 f (argW v 0) (argW v 1), halfTag m)]

/-- HADD2 (08 R190). -/
def execHadd2 (px : Option Pats) (d a b : Reg) (f : Bool) (m : Half) (r : Rnd) (s : State) : Host.Outcome State Fault Refusal :=
  runGroup (packed2 px d a b m (m.float.addOp r f)) s

/-- HMUL2 (08 R190). -/
def execHmul2 (px : Option Pats) (d a b : Reg) (f : Bool) (m : Half) (r : Rnd) (s : State) : Host.Outcome State Fault Refusal :=
  runGroup (packed2 px d a b m (m.float.mulOp r f)) s

/-- HFMA2 (08 R190). -/
def execHfma2 (px : Option Pats) (d a b : Reg) (f : Bool) (m : Half) (r : Rnd) (s : State) : Host.Outcome State Fault Refusal :=
  runGroup (regOp [srcA px a 1 (some [halfTag m]), srcB px b 1 (some [halfTag m]), srcD px d 1 (some [halfTag m])] d.val 1
    (some (lat px 4)) fun _ _ _ v =>
      let fma := fun (j : Nat) => m.float.fmaOp r f (halfElem (argW v 0) j) (halfElem (argW v 1) j) (halfElem (argW v 2) j)
      [(pack2 (fma 0) (fma 1), halfTag m)]) s

end Sys2Proof.Machine
end

