-- ==== Sys2Proof/Machine/ConvertOps.lean ====
section
/-! DEFINITION. Conversions and TAG: opcodes 0x34 to 0x38 (08 R191 to R195; 03 R85 to R87). -/

namespace Sys2Proof.Machine

/-- The packed tag of a narrow format (08 R191). -/
def narrowTag : NFmt → Tag
  | .f16 => .h2
  | .bf16 => .b2
  | .e4 => .e4x4
  | .e5 => .e5x4
  | .e3 => .f6x5
  | .e2 => .g6x5
  | .f4 => .f4x8
  | .sc => .s10x3

/-- E of 03 R87: the elements of a packed word; S10 has three. -/
def narrowCount : NFmt → Nat
  | .f16 | .bf16 => 2
  | .e4 | .e5 => 4
  | .e3 | .e2 => 5
  | .f4 => 8
  | .sc => 3

/-- The w-bit element k of a word (03 R80). -/
def element (x : Word) (w k : Nat) : Nat := x.toNat / 2 ^ (w * k) % 2 ^ w

/-- A word with its w-bit element k replaced (03 R80). -/
def withElement (x : Word) (w k c : Nat) : Word :=
  let m : Word := (BitVec.ofNat 32 (2 ^ w - 1)) <<< (w * k)
  (x &&& ~~~m) ||| ((BitVec.ofNat 32 c <<< (w * k)) &&& m)

/-- Bits [31:30] cleared in the packings that leave them free (08 R191). -/
def clearTop (m : NFmt) (x : Word) : Word :=
  match m with
  | .e3 | .e2 | .sc => x &&& 0x3FFFFFFF
  | _ => x

/-- The rounding mode of element k of a destination of n elements, in a thread (03 R86, R87). -/
def cvtMode (r : Rnd) (t : Thread) (n k : Nat) : RMode := RMode.at r ((n * t.lane + k) % 32) t.phase

/-- The thread after a CVT: its dither phase advances once under .rdi (03 R87). -/
def stepPhase (r : Rnd) (t : Thread) : Thread := if r = .rdi then { t with phase := (t.phase + 1) % 32 } else t

/-- A CVT of latency 5: sources, destination, and its result from the thread's phase. -/
def cvtOp (px : Option Pats) (srcs : List Src) (d : Reg) (n : Nat) (r : Rnd) (f : Thread → List (List RegVal) → List RegVal) : Member :=
  threadOp fun s is _ t =>
    match operands s is.members t srcs [(d.val, n)] with
    | .error e => failOp s is t srcs e
    | .ok v => .ok (finishOp s is t srcs (stepPhase r t) d.val (f t v) (some (lat px 5)))

/-- CVT, narrowing insert (08 R191). -/
def execCvtNarrow (px : Option Pats) (d a : Reg) (k : Fin 8) (sat : Bool) (r : Rnd) (m : NFmt) (s : State) :
    Host.Outcome State Fault Refusal :=
  runGroup (cvtOp px [srcA px a 1 (some tagsF32), srcD px d 1 (some [narrowTag m])] d 1 r fun t v =>
    let c := m.round (cvtMode r t (narrowCount m) k.val) sat (f32 (argW v 0))
    [(clearTop m (withElement (argW v 1) m.width k.val c), narrowTag m)]) s

/-- CVT, widening extract (08 R191). -/
def execCvtWiden (px : Option Pats) (d a : Reg) (k : Fin 8) (m : NFmt) (s : State) : Host.Outcome State Fault Refusal :=
  runGroup (cvtOp px [srcA px a 1 (some [narrowTag m])] d 1 .rn fun _ v =>
    [(exactF32 (m.decode (element (argW v 0) m.width k.val)), .f32)]) s

/-- The range of an integer format (08 R192). -/
def intRange : IFmt → Int × Int
  | .s32 => (-(2 ^ 31), 2 ^ 31 - 1)
  | .n32 => (0, 2 ^ 32 - 1)
  | .i8 => (-128, 127)
  | .i4 => (-8, 7)

/-- The element width of an integer format. -/
def intWidth : IFmt → Nat
  | .s32 | .n32 => 32
  | .i8 => 8
  | .i4 => 4

/-- The tag of an integer format (08 R192). -/
def intTag : IFmt → Tag
  | .s32 => .s32
  | .n32 => .n32
  | .i8 => .s8x4
  | .i4 => .s4x8

/-- CVT of FP32 to an integer or an integer element (08 R192). -/
def execCvtF2i (px : Option Pats) (d a : Reg) (k : Fin 8) (r : Rnd) (t : IFmt) (s : State) : Host.Outcome State Fault Refusal :=
  let whole := intWidth t = 32
  let srcs := if whole then [srcA px a 1 (some tagsF32)] else [srcA px a 1 (some tagsF32), srcD px d 1 (some [intTag t])]
  runGroup (cvtOp px srcs d 1 r fun th v =>
    let n := roundInt (cvtMode r th (32 / intWidth t) k.val) (intRange t).1 (intRange t).2 (f32 (argW v 0))
    if whole then [(BitVec.ofInt 32 n, intTag t)]
    else [(withElement (argW v 1) (intWidth t) k.val (wrap n (intWidth t)), intTag t)]) s

/-- The integer that a source of opcode 0x36 holds (08 R193). -/
def intElem (t : IFmt) (x : Word) (k : Nat) : Int :=
  match t with
  | .s32 => x.toInt
  | .n32 => x.toNat
  | .i8 => signExt (element x 8 k) 8
  | .i4 => signExt (element x 4 k) 4

/-- CVT of an integer or an integer element to FP32 (08 R193). -/
def execCvtI2f (px : Option Pats) (d a : Reg) (k : Fin 8) (r : Rnd) (t : IFmt) (s : State) : Host.Outcome State Fault Refusal :=
  let tags := if intWidth t = 32 then tagsInt else [intTag t]
  runGroup (cvtOp px [srcA px a 1 (some tags)] d 1 .rn fun _ v =>
    [(toF32 r (Machine.Num.ofInt (intElem t (argW v 0) k.val) 0), .f32)]) s

/-- The data of register i of source 0. -/
def argReg (v : List (List RegVal)) (i : Nat) : Word := ((v.headD []).getD i blankReg).1

/-- n elements of w bits packed in a word, element 0 lowest. -/
def packElems (w : Nat) (cs : List Nat) : Word := BitVec.ofNat 32 ((cs.zipIdx.map fun (c, k) => c * 2 ^ (w * k)).sum)

/-- CVT.PACK of an FP32 pair (08 R194). -/
def execCvtPackF16 (px : Option Pats) (d a : Reg) (sat : Bool) (r : Rnd) (t : Half) (s : State) : Host.Outcome State Fault Refusal :=
  runGroup (cvtOp px [srcA px a 2 (some tagsF32)] d 1 r fun th v =>
    [(packElems 16 ((List.range 2).map fun k => t.float.round (cvtMode r th 2 k) sat (f32 (argReg v k))), halfTag t)]) s

/-- CVT.UNPACK to an FP32 pair (08 R194). -/
def execCvtUnpackF16 (px : Option Pats) (d a : Reg) (t : Half) (s : State) : Host.Outcome State Fault Refusal :=
  runGroup (cvtOp px [srcA px a 1 (some [halfTag t])] d 2 .rn fun _ v =>
    (List.range 2).map fun k => (exactF32 (t.float.decode (element (argW v 0) 16 k)), .f32)) s

/-- The packed tag of an FP8 format. -/
def e8Tag : E8 → Tag
  | .e4 => .e4x4
  | .e5 => .e5x4

/-- CVT.PACK of four FP32 values (08 R194). -/
def execCvtPackE (px : Option Pats) (d a : Reg) (sat : Bool) (r : Rnd) (t : E8) (s : State) : Host.Outcome State Fault Refusal :=
  runGroup (cvtOp px [srcA px a 4 (some tagsF32)] d 1 r fun th v =>
    [(packElems 8 ((List.range 4).map fun k => t.float.round (cvtMode r th 4 k) sat (f32 (argReg v k))), e8Tag t)]) s

/-- CVT.UNPACK to four FP32 values (08 R194). -/
def execCvtUnpackE (px : Option Pats) (d a : Reg) (t : E8) (s : State) : Host.Outcome State Fault Refusal :=
  runGroup (cvtOp px [srcA px a 1 (some [e8Tag t])] d 4 .rn fun _ v =>
    (List.range 4).map fun k => (exactF32 (t.float.decode (element (argW v 0) 8 k)), .f32)) s

/-- CVT.PACK of four integers, clamped (08 R194). -/
def execCvtPackI8 (px : Option Pats) (d a : Reg) (s : State) : Host.Outcome State Fault Refusal :=
  runGroup (cvtOp px [srcA px a 4 (some tagsInt)] d 1 .rn fun _ v =>
    [(packElems 8 ((List.range 4).map fun k => wrap (max (-128) (min 127 (argReg v k).toInt)) 8), .s8x4)]) s

/-- CVT.UNPACK to four integers, sign-extended (08 R194). -/
def execCvtUnpackI8 (px : Option Pats) (d a : Reg) (s : State) : Host.Outcome State Fault Refusal :=
  runGroup (cvtOp px [srcA px a 1 (some [.s8x4])] d 4 .rn fun _ v =>
    (List.range 4).map fun k => (BitVec.ofInt 32 (signExt (element (argW v 0) 8 k) 8), .s32)) s

/-- TAG (08 R195). -/
def execTagOp (px : Option Pats) (d a : Reg) (t : Tag) (s : State) : Host.Outcome State Fault Refusal :=
  runGroup (regOp [srcA px a 1 none] d.val 1 (some (lat px 2)) fun _ _ _ v => [(argW v 0, t)]) s

end Sys2Proof.Machine
end

