-- ==== Sys2Proof/Machine/LaneOps.lean ====
section
/-! DEFINITION. Cross-lane instructions: opcodes 0x40 to 0x47 (03 R94, R95; 08 R196 to R200). -/

namespace Sys2Proof.Machine

/-- The value that a member of the group contributes: what it reads from its source, or +0 where its own source lies beyond
its allocation (08 R198). A result in flight that the member reads enters as the value that it brings (05 R114): the other
members are not delayed. -/
def contribution (s : State) (members : List FrameRef) (o : Src) (t : Thread) : RegVal :=
  if o.pat = .own ∧ !t.inRange o.name then blankReg
  else
    match readSrc s members t o.pat o.name with
    | some v => v
    | none => if o.pat = .own then (t.arriving (t.index o.name)).getD blankReg else blankReg

/-- The value of each lane of the partition: present exactly where a member sits (08 R198). -/
def laneValues (s : State) (members : List FrameRef) (o : Src) : List (Option Word) :=
  (List.range 32).map fun lane => (memberIn s members lane).map fun t => (contribution s members o t).1

/-- The operations combined over lanes. -/
inductive Combine where
  | add
  | min
  | max
  deriving DecidableEq, Repr

def ScanCombine : ScanOp → Combine
  | .add => .add
  | .min => .min
  | .max => .max

/-- Accepted tags and result tag of a type (08 R196). -/
def crossTags : XTy → List Tag
  | .s32 | .n32 => tagsInt
  | .f32 => tagsF32
  | .f16 => [.h2]
  | .bf16 => [.b2]

def crossTag : XTy → Tag
  | .s32 => .s32
  | .n32 => .n32
  | .f32 => .f32
  | .f16 => .h2
  | .bf16 => .b2

/-- The operation on two codes of a floating format. -/
def floatNode (f : FloatFmt) (c : Combine) (ftz : Bool) (r : Rnd) (x y : Nat) : Nat :=
  match c with
  | .add => f.addOp r ftz x y
  | .min => f.minMax false ftz x y
  | .max => f.minMax true ftz x y

/-- A value that passes a node alone: only NaN is made canonical and, with FTZ, subnormals flushed (08 R197). -/
def floatPass (f : FloatFmt) (ftz : Bool) (x : Nat) : Nat := if f.decode x = .nan then f.nan else f.flush ftz x

/-- The identity of an operation in a floating format (03 R94). -/
def floatIdentity (f : FloatFmt) : Combine → Nat
  | .add => 2 ^ (f.ebits + f.mbits)
  | .min => f.maxCode + 1
  | .max => 2 ^ (f.ebits + f.mbits) + f.maxCode + 1

/-- The operation on two integers of a type. -/
def intNode (c : Combine) (t : XTy) (x y : Word) : Word :=
  match c with
  | .add => x + y
  | .min => if t = .s32 then (if y.slt x then y else x) else if y.ult x then y else x
  | .max => if t = .s32 then (if x.slt y then y else x) else if x.ult y then y else x

/-- The identity of an operation over integers (03 R94). -/
def intIdentity (c : Combine) (t : XTy) : Word :=
  match c with
  | .add => 0
  | .min => if t = .s32 then 0x7FFFFFFF else 0xFFFFFFFF
  | .max => if t = .s32 then 0x80000000 else 0

/-- One level of the tree over adjacent results; a node whose inputs are all absent stays absent (03 R94, 08 R197). -/
def treeLevel {α : Type} (node : α → α → α) (pass : α → α) : List (Option α) → List (Option α)
  | x :: y :: rest =>
    (match x, y with
      | none, none => none
      | some a, none => some (pass a)
      | none, some b => some (pass b)
      | some a, some b => some (node a b)) :: treeLevel node pass rest
  | l => l

/-- The five levels. -/
def treeRoot {α : Type} (node : α → α → α) (pass : α → α) (l : List (Option α)) : Option α :=
  ((List.range 5).foldl (fun acc _ => treeLevel node pass acc) l).headD none

/-- The exact sum of codes of a floating format rounded once: float add under the register-window configuration (08 R200).
Special values are decided as in 03 R92; the sign of a zero is that of 03 R82. -/
def exactSum (f : FloatFmt) (ftz : Bool) (r : Rnd) (xs : List Nat) : Nat :=
  let ns := xs.map fun x => f.decode (f.flush ftz x)
  if ns.contains .nan ∨ (ns.contains (.inf false) ∧ ns.contains (.inf true)) then f.nan
  else if ns.contains (.inf false) then f.round RMode.rn false (.inf false)
  else if ns.contains (.inf true) then f.round RMode.rn false (.inf true)
  else
    let zeros := ns.all (·.isZero)
    if zeros then (if r == .rd && (ns.any Num.neg) && !(ns.all Num.neg) then 2 ^ (f.ebits + f.mbits) else 0)
    else
      let lo : Int := 1 - (f.bias : Int) - f.mbits
      f.flush ftz (f.round (RMode.plain r) false (Num.ofInt ((ns.map fun n => n.scaled lo).sum) lo))

/-- A combination of values of one floating format, by lane position. -/
def combineFloat (window : Bool) (f : FloatFmt) (c : Combine) (ftz : Bool) (r : Rnd) (l : List (Option Nat)) : Nat :=
  if window ∧ c = .add then
    let xs := l.filterMap id
    if xs.isEmpty then floatIdentity f c else exactSum f ftz r xs
  else (treeRoot (floatNode f c ftz r) (floatPass f ftz) l).getD (floatIdentity f c)

/-- A combination of the lanes' words (08 R196): packed types combine each element by itself. -/
def combine (window : Bool) (t : XTy) (c : Combine) (ftz : Bool) (r : Rnd) (l : List (Option Word)) : Word :=
  match t with
  | .s32 | .n32 => (treeRoot (intNode c t) id l).getD (intIdentity c t)
  | .f32 => BitVec.ofNat 32 (combineFloat window .fp32 c ftz r (l.map fun x => x.map BitVec.toNat))
  | .f16 | .bf16 =>
    let f := if t = .f16 then FloatFmt.fp16 else FloatFmt.bf16
    let e := fun (j : Nat) => combineFloat window f c ftz r (l.map fun x => x.map fun w => halfElem w j)
    pack2 (e 0) (e 1)

/-- REDADD, REDMIN, REDMAX (08 R196 to R198). -/
def redOp (px : Option Pats) (d a : Reg) (ftz : Bool) (r : Rnd) (t : XTy) (c : Combine) : Member :=
  threadOp fun s is _ th =>
    let srcs := [srcA px a 1 (some (crossTags t))]
    match operands s is.members th srcs [(d.val, 1)] with
    | .error e => failOp s is th srcs e
    | .ok _ =>
      let w := combine s.pkg.wincfg t c ftz r (laneValues s is.members (srcA px a 1 none))
      .ok (finishOp s is th srcs th d.val [(w, crossTag t)] (some (lat px 10)))

/-- REDADD. -/
def execRedadd (px : Option Pats) (d a : Reg) (f : Bool) (r : Rnd) (t : XTy) (s : State) : Host.Outcome State Fault Refusal :=
  runGroup (redOp px d a f r t .add) s
/-- REDMIN. -/
def execRedmin (px : Option Pats) (d a : Reg) (f : Bool) (r : Rnd) (t : XTy) (s : State) : Host.Outcome State Fault Refusal :=
  runGroup (redOp px d a f r t .min) s
/-- REDMAX. -/
def execRedmax (px : Option Pats) (d a : Reg) (f : Bool) (r : Rnd) (t : XTy) (s : State) : Host.Outcome State Fault Refusal :=
  runGroup (redOp px d a f r t .max) s

/-- SCAN: the tree with the positions above the member's own absent, and with EXCL its own as well (03 R95, 08 R197). -/
def execScan (px : Option Pats) (d a : Reg) (x : Bool) (o : ScanOp) (f : Bool) (r : Rnd) (t : XTy) (s : State) :
    Host.Outcome State Fault Refusal :=
  runGroup (threadOp fun s is _ th =>
    let srcs := [srcA px a 1 (some (crossTags t))]
    match operands s is.members th srcs [(d.val, 1)] with
    | .error e => failOp s is th srcs e
    | .ok _ =>
      let n := if x then th.lane else th.lane + 1
      let l := (laneValues s is.members (srcA px a 1 none)).mapIdx fun i v => if i < n then v else none
      .ok (finishOp s is th srcs th d.val [(combine s.pkg.wincfg t (ScanCombine o) f r l, crossTag t)] (some (lat px 10)))) s

/-- A vote, election or rank over the members, of latency 6: its result from the lanes' values (08 R199). -/
def voteOp (px : Option Pats) (d : Reg) (a : Option Reg) (f : Thread → List (Option Word) → Word) : Member :=
  threadOp fun s is _ th =>
    let srcs := match a with
      | some r => [srcA px r 1 none]
      | none => []
    match operands s is.members th srcs [(d.val, 1)] with
    | .error e => failOp s is th srcs e
    | .ok _ =>
      let l := match a with
        | some r => laneValues s is.members (srcA px r 1 none)
        | none => (List.range 32).map fun lane => (memberIn s is.members lane).map fun _ => 1
      .ok (finishOp s is th srcs th d.val [(f th l, .n32)] (some (lat px 6)))

/-- The lanes whose member's condition is true, as a mask. -/
def trueMask (l : List (Option Word)) : Nat :=
  ((l.zipIdx).map fun (x, j) => if x.any isTrue then 2 ^ j else 0).sum

/-- The lowest lane whose member's condition is true. -/
def lowestTrue (l : List (Option Word)) : Nat := l.findIdx fun x => x.any isTrue

/-- VOTE (08 R199). -/
def execVote (px : Option Pats) (d a : Reg) (v : Vote) (s : State) : Host.Outcome State Fault Refusal :=
  runGroup (voteOp px d (some a) fun _ l =>
    let ws := l.filterMap id
    match v with
    | .any => if ws.any isTrue then 1 else 0
    | .all => if ws.all isTrue then 1 else 0
    | .ballot => BitVec.ofNat 32 (trueMask l)
    | .uni => if ws.all (fun w => w == ws.headD 0) then 1 else 0) s

/-- ELECT (08 R199). -/
def execElect (px : Option Pats) (d : Reg) (s : State) : Host.Outcome State Fault Refusal :=
  runGroup (voteOp px d none fun t l => if lowestTrue l = t.lane then 1 else 0) s
/-- ELECT.COND. -/
def execElectCond (px : Option Pats) (d a : Reg) (s : State) : Host.Outcome State Fault Refusal :=
  runGroup (voteOp px d (some a) fun t l => if lowestTrue l = t.lane then 1 else 0) s
/-- MEMBERS. -/
def execMembers (px : Option Pats) (d : Reg) (s : State) : Host.Outcome State Fault Refusal :=
  runGroup (voteOp px d none fun _ l => BitVec.ofNat 32 (trueMask l)) s
/-- MEMBERS.COUNT. -/
def execMembersCount (px : Option Pats) (d : Reg) (s : State) : Host.Outcome State Fault Refusal :=
  runGroup (voteOp px d none fun _ l => BitVec.ofNat 32 (countBits (trueMask l) 32)) s
/-- RANKOF. -/
def execRankof (px : Option Pats) (d : Reg) (s : State) : Host.Outcome State Fault Refusal :=
  runGroup (voteOp px d none fun t l => BitVec.ofNat 32 (countBits (trueMask l) t.lane)) s
/-- RANKOF.COND. -/
def execRankofCond (px : Option Pats) (d a : Reg) (s : State) : Host.Outcome State Fault Refusal :=
  runGroup (voteOp px d (some a) fun t l => BitVec.ofNat 32 (countBits (trueMask l) t.lane)) s

end Sys2Proof.Machine
end

