-- ==== Sys2Proof/Machine/MemoryOps.lean ====
section
/-! DEFINITION. Loads, stores, atomics, append and seal, prefetch, and the arrival of results and stores: opcodes 0x4C to
0x56 and 0x58 (09 R204 to R223, R228; 08 R201 to R203; 12 R293, R301). -/

namespace Sys2Proof.Machine

/-- Tags of an address operand (03 R75). -/
def tagsAddr : List Tag := [.w64, .n32, .s32]

/-- Bytes of an access of a SIZE code (09 R211). -/
def sizeBytes : Size → Nat
  | .b8 => 1
  | .b16 => 2
  | .b32 => 4
  | .b64 => 8
  | .b128 => 16

/-- Bytes of a typed load (03 R76). -/
def typeBytes : LdTy → Nat
  | .s8 | .n8 => 1
  | .s16 | .n16 => 2
  | .s64 | .n64 => 8
  | _ => 4

/-- Tag of a typed load (03 R76). -/
def typeTag : LdTy → Tag
  | .s8 | .s16 | .s32 => .s32
  | .n8 | .n16 | .n32 => .n32
  | .s64 | .n64 => .w64
  | .f32 => .f32
  | .f16 => .h2
  | .bf16 => .b2
  | .e4 => .e4x4
  | .e5 => .e5x4
  | .e3 => .f6x5
  | .e2 => .g6x5
  | .f4 => .f4x8
  | .i8 => .s8x4
  | .i4 => .s4x8
  | .sc => .s10x3

/-- The registers that the bytes of a typed load become: sign-extended, zero-extended, or packed with bits [31:30] cleared
where the packing leaves them free (03 R76, R80). -/
def typedRegs (ty : LdTy) (bs : List Byte) : List RegVal :=
  let v := leNat bs
  let x : Nat := match ty with
    | .s8 => wrap (signExt v 8) 32
    | .s16 => wrap (signExt v 16) 32
    | .e3 | .e2 | .sc => v % 2 ^ 30
    | _ => v
  splitRegs ty.regs x (typeTag ty)

/-- The registers of an untyped load (09 R212). -/
def rawRegs (z : Size) (bs : List Byte) : List RegVal := splitRegs z.regs (leNat bs) .raw

/-- OFF of an immediate whose low field has 3 bits, and of one whose low field has 5 (09 R208). -/
def off8 : Off8 → Int
  | .short o => o.toInt
  | .long o => o.toInt

def off6 : Off6 → Int
  | .short o => o.toInt
  | .long o => o.toInt

/-- Where a checked access of s, c or k goes: its place and offset, or a read of the register window. -/
inductive Target where
  | place (p : Place) (off : Nat)
  | window (off : Nat)
  deriving DecidableEq, Repr

/-- The checks of an offset of s, c or k: extent, then alignment, which traps (09 R205, R214). `at_` is the fault address
of 09 R209. A negative offset has no 57-bit value, and the spec does not say how the fault address shows it: the model shows it
modulo 2^57 (DESIGN CHOICE, log 53). -/
def spaceTarget (p : Place) (extent n : Nat) (e at_ : Int) : Except Stop Target :=
  if e < 0 ∨ (extent : Int) ≤ e then .error (.fault 0x0031 (wrap at_ 57))
  else if e.toNat % n ≠ 0 then .error (.trap 0x0101 (wrap at_ 57))
  else .ok (.place p e.toNat)

/-- An access of s (09 R204; 08 R201): the window belongs to the register-window configuration, and only an aligned untyped
32-bit load may read it. -/
def spadTarget (s : State) (g n : Nat) (e : Int) (mayRead : Bool) : Except Stop Target :=
  if s.pkg.wincfg ∧ 0x400000 ≤ e ∧ e < 0x800000 then
    if mayRead ∧ e % 4 = 0 then .ok (.window (e.toNat - 0x400000)) else .error (.fault 0x0039 e.toNat)
  else spaceTarget (.spad g) Config.spadSize n e e

/-- The facing cluster of a thread's pair group (09 R206). -/
def facing (s : State) (k : FrameRef) (t : Thread) : Option Nat :=
  match t.group.bind fun m => s.groups.get m.group with
  | none => none
  | some b => if b.clusters.length = 2 then b.clusters.find? (· != clusterOf (coreOf k)) else none

/-- The core that a selector names, or none where 09 R206 refuses it. -/
def selectCore (s : State) (k : FrameRef) (t : Thread) (sel : Nat) : Option Nat :=
  if 7 < sel then none
  else
    let cl := if sel < 4 then some (clusterOf (coreOf k)) else facing s k t
    match cl with
    | none => none
    | some c => if s.coreOn (coreOfCluster c (sel % 4)) then some (coreOfCluster c (sel % 4)) else none

/-- The pooled offset of an access of c, its fault address (09 R209). -/
def pooledOff (sel : Nat) (e : Int) : Int := (sel / 4 % 2 * 0x100000 + sel % 4 * 0x40000 : Nat) + e

/-- An access of c (09 R204, R206, R209). -/
def clusterTarget (s : State) (k : FrameRef) (t : Thread) (n sel : Nat) (e : Int) : Except Stop Target :=
  match selectCore s k t sel with
  | none => .error (.fault 0x0031 (wrap (pooledOff sel e) 57))
  | some g => spaceTarget (.spad g) Config.spadSize n e (pooledOff sel e)

/-- An access to another core's scratchpad is remembered for 01 R53. -/
def markForeign (k : FrameRef) (tgt : Target) (t : Thread) : Thread :=
  match tgt, t.group with
  | .place (.spad g) _, some m => if g = coreOf k then t else { t with group := some { m with foreign := true } }
  | _, _ => t

/-- A read of the register window (08 R202, R203): the value, and %winstat. The cycle sampled is that of the issue (log 16).
WOKEN of a read of a register is a free value: the spec does not say when a bank is drowsy (log 16). -/
def windowRead (s : State) (g off fresh : Nat) : Word × Nat :=
  match s.inContext g (off / 0x100000) (off / 0x8000 % 32) (off / 0x800 % 16) with
  | none => (0, 1)
  | some (_, t) =>
    let j := off / 4 % 512
    if t.alloc ≤ j then (0, 2) else ((t.banked s.cycle j).1, 4 * ((Config.freeByte fresh).toNat % 2))

/-- The Causeway ports that are not down. Which of them carries an access is the part's own choice, a free value (20 R400;
log 16). -/
def State.upPorts (s : State) : List Nat := (List.range s.pkg.ports.length).filter fun p => s.pkg.ports.getD p 0 != 0

/-- The target of a DEVICE access: device memory, or another chip's over Causeway; no device register is placed in the
region by the spec (14 R313; 20 R399, R400; log 17). -/
def deviceTarget (s : State) (pa n va : Nat) : Except Stop (Place × Nat) :=
  if pa < Config.devRegs then .ok (.home, pa)
  else if pa < Config.causeway ∨ Config.causeway + 8 * 2 ^ 40 ≤ pa then .error (.refuse (.deviceRegisters pa))
  else
    let chip := (pa - Config.causeway) / 2 ^ 40
    let off := pa % 2 ^ 40
    if chip = s.pkg.chipid then (if off + n ≤ s.capacity then .ok (.home, off) else .error (.fault 0x0070 va))
    else
      match s.peers.get chip with
      | none => .error (.fault 0x0070 va)
      | some cap =>
        if cap < off + n then .error (.fault 0x0070 va)
        else
          match s.upPorts with
          | [] => .error (.fault 0x0071 va)
          | p :: ps => .ok (.remote chip ((p :: ps).getD (Config.freeIndex s.free % (ps.length + 1)) p) va, off)

/-- A read of bytes that do not go through L1, after the thread's own stores have reached their places. -/
def State.directRead (s : State) (p : Place) (off n va : Nat) : State × Except Stop (List Byte) :=
  match p with
  | .remote c _ _ => (({ s with free := s.free + n }).emit (.remoteLoad c off n), .ok (s.placeRead p off n))
  | _ =>
    match s.checkedRead p off n with
    | (s1, some bs) => (s1, .ok bs)
    | (s1, none) => (s1, .error (.fault codeMemUe va))

/-- A thread's read of n aligned bytes of g (09 R212; 12 R293). -/
def State.globLoad (s : State) (k : FrameRef) (t : Thread) (va n : Nat) : State × Except Stop (List Byte) :=
  match (s.landStores k).translate (t.who k) va n .read with
  | (s1, .error c) => (s1, .error (.fault c va))
  | (s1, .ok tr) =>
    if tr.attr = attrDevice then
      match deviceTarget s1 tr.pa n va with
      | .error e => (s1, .error e)
      | .ok (p, off) => s1.directRead p off n va
    else
      match s1.globRead (coreOf k) tr n with
      | (s2, some bs) => (s2, .ok bs)
      | (s2, none) => (s2.uncorrectable (s2.homeDie tr.pa) 1, .error (.fault codeMemUe va))

/-- The port, and the address, of a load that another chip answers (20 R400). -/
def State.loadVia (s : State) (k : FrameRef) (t : Thread) (va n : Nat) : Option (Nat × Nat) :=
  match (s.landStores k).translate (t.who k) va n .read with
  | (_, .error _) => none
  | (s1, .ok tr) =>
    if tr.attr = attrDevice then
      match deviceTarget s1 tr.pa n va with
      | .ok (.remote _ p a, _) => some (p, a)
      | _ => none
    else none

/-- A load in flight: its results come with VARIABLE_RESULT (05 R107, R109). -/
def State.startLoad (s : State) (k : FrameRef) (d : Nat) (vals : List RegVal) (window : Option Nat)
    (via : Option (Nat × Nat) := none) : State :=
  let (id, s1) := s.fresh
  s1.onThread k fun t =>
    let rs := vals.mapIdx fun i v => (t.index (d + i), v)
    { t with loads := t.loads ++ [⟨id, rs, window, via⟩], pend := t.pend ++ rs.map fun (r, _) => (r, id) }

/-- A global virtual address of an access (09 R204, R205): the base pair plus the offset modulo 2^64. -/
def globAddr (base : Nat) (off : Int) : Nat := wrap (base + off) 64

/-- LD of g: n bytes, loaded as `f` says into m registers (09 R212). -/
def loadG (d a : Reg) (off : Int) (n m : Nat) (f : List Byte → List RegVal) : Member := fun s is k t acc =>
  match operands s is.members t [ownSrc a 2 (some tagsAddr)] [(d.val, m)] with
  | .error e => .error e
  | .ok v =>
    let va := globAddr (argN v 0) off
    if 2 ^ 57 ≤ va then .error (.fault 0x0030 va)
    else if va % n ≠ 0 then .error (.trap 0x0101 va)
    else
      match acc.globLoad k t va n with
      | (acc1, .error e) => acc1.fails is k e
      | (acc1, .ok bs) => .ok (acc1.startLoad k d.val (f bs) none (acc.loadVia k t va n), .next)

/-- LD g, untyped. -/
def execLdG (d a : Reg) (o : Off8) (z : Size) (s : State) : Host.Outcome State Fault Refusal :=
  runGroup (loadG d a (off8 o) (sizeBytes z) z.regs (rawRegs z)) s

/-- LD g, typed. -/
def execLdGTyped (d a : Reg) (o : Off6) (t : LdTy) (s : State) : Host.Outcome State Fault Refusal :=
  runGroup (loadG d a (off6 o) (typeBytes t) t.regs (typedRegs t)) s

/-- A load of s, c or k from its target, with the fault address of 09 R209. -/
def State.loadTarget (acc : State) (s : State) (is : Issue) (k : FrameRef) (tgt : Target) (at_ : Int) (d n : Nat)
    (f : List Byte → List RegVal) : Except Stop (State × Go) :=
  match tgt with
  | .place p off =>
    match ((acc.landStores k).wakeFor p).checkedRead p off n with
    | (acc1, some bs) => .ok ((acc1.startLoad k d (f bs) none).onThread k (markForeign k tgt), .next)
    | (acc1, none) => acc1.fails is k (.fault codeMemUe (wrap at_ 57))
  | .window off =>
    let r := windowRead s (coreOf k) off acc.free
    .ok (({ acc with free := acc.free + 1 }).startLoad k d [(r.1, .raw)] (some r.2), .next)

/-- A store of s, c or k to its target. -/
def State.storeTarget (acc : State) (k : FrameRef) (tgt : Target) (bs : List Byte) : State :=
  match tgt with
  | .place p off =>
    let acc1 := (acc.wakeFor p).onThread k (markForeign k tgt)
    { acc1 with stores := acc1.stores ++ [⟨k, p, off, bs, 0⟩] }
  | .window _ => acc

/-- LD of s (09 R212; 08 R201). -/
def loadS (d a : Reg) (off : Int) (n m : Nat) (mayRead : Bool) (f : List Byte → List RegVal) : Member := fun s is k t acc =>
  match operands s is.members t [ownSrc a 1 (some tagsAddr)] [(d.val, m)] with
  | .error e => .error e
  | .ok v =>
    let e := (argW v 0).toNat + off
    match spadTarget s (coreOf k) n e mayRead with
    | .error e => .error e
    | .ok tgt => acc.loadTarget s is k tgt e d.val n f

/-- LD s, untyped, or a read of the register window. -/
def execLdS (d a : Reg) (o : Off8) (z : Size) (s : State) : Host.Outcome State Fault Refusal :=
  runGroup (loadS d a (off8 o) (sizeBytes z) z.regs (z == .b32) (rawRegs z)) s

/-- LD s, typed. -/
def execLdSTyped (d a : Reg) (o : Off6) (t : LdTy) (s : State) : Host.Outcome State Fault Refusal :=
  runGroup (loadS d a (off6 o) (typeBytes t) t.regs false (typedRegs t)) s

/-- ST of s (09 R212). -/
def execStS (d a : Reg) (o : Off8) (z : Size) (s : State) : Host.Outcome State Fault Refusal :=
  runGroup (fun s is k t acc =>
    match operands s is.members t [ownSrc a 1 (some tagsAddr), ownSrc d z.regs none] [] with
    | .error e => .error e
    | .ok v =>
      match spadTarget s (coreOf k) (sizeBytes z) ((argW v 0).toNat + off8 o) false with
      | .error e => .error e
      | .ok tgt => .ok (acc.storeTarget k tgt (leBytes (sizeBytes z) (argN v 1)), .next)) s

/-- The sources that a c-space selector reads. -/
def selSrcs : CSel → List Src
  | .lit _ _ => []
  | .reg v => [⟨v.val, 1, .own, some tagsInt⟩]

/-- The selector and OFF of a c-space access (09 R212). -/
def selValue (b : CSel) (v : List (List RegVal)) : Nat × Int :=
  match b with
  | .lit sel off => (sel.val, (16 * off.val : Nat))
  | .reg _ => ((argW v 1).toNat, 0)

/-- LD of c (09 R212). -/
def execLdC (d a : Reg) (b : CSel) (z : Size) (s : State) : Host.Outcome State Fault Refusal :=
  runGroup (fun s is k t acc =>
    match operands s is.members t (ownSrc a 1 (some tagsAddr) :: selSrcs b) [(d.val, z.regs)] with
    | .error e => .error e
    | .ok v =>
      let sel := (selValue b v).1
      let e := (argW v 0).toNat + (selValue b v).2
      match clusterTarget s k t (sizeBytes z) sel e with
      | .error e => .error e
      | .ok tgt => acc.loadTarget s is k tgt (pooledOff sel e) d.val (sizeBytes z) (rawRegs z)) s

/-- ST of c (09 R212). -/
def execStC (d a : Reg) (b : CSel) (z : Size) (s : State) : Host.Outcome State Fault Refusal :=
  runGroup (fun s is k t acc =>
    match operands s is.members t (ownSrc a 1 (some tagsAddr) :: (selSrcs b ++ [ownSrc d z.regs none])) [] with
    | .error e => .error e
    | .ok v =>
      match clusterTarget s k t (sizeBytes z) (selValue b v).1 ((argW v 0).toNat + (selValue b v).2) with
      | .error e => .error e
      | .ok tgt => .ok (acc.storeTarget k tgt (leBytes (sizeBytes z) (groupNat (v.getLastD []))), .next)) s

/-- OFF of a k-space access: 16 × SignExt(b, 7) (09 R212). -/
def vaultOff (b : BitVec 7) : Int := 16 * b.toInt

/-- LD of k (09 R212). -/
def execLdK (d a : Reg) (b : BitVec 7) (z : Size) (s : State) : Host.Outcome State Fault Refusal :=
  runGroup (fun s is k t acc =>
    match operands s is.members t [ownSrc a 1 (some tagsAddr)] [(d.val, z.regs)] with
    | .error e => .error e
    | .ok v =>
      let e := (argW v 0).toNat + vaultOff b
      match spaceTarget (.vault (clusterOf (coreOf k))) Config.vaultSize (sizeBytes z) e e with
      | .error e => .error e
      | .ok tgt => acc.loadTarget s is k tgt e d.val (sizeBytes z) (rawRegs z)) s

/-- ST of k (09 R212). -/
def execStK (d a : Reg) (b : BitVec 7) (z : Size) (s : State) : Host.Outcome State Fault Refusal :=
  runGroup (fun s is k t acc =>
    match operands s is.members t [ownSrc a 1 (some tagsAddr), ownSrc d z.regs none] [] with
    | .error e => .error e
    | .ok v =>
      let e := (argW v 0).toNat + vaultOff b
      match spaceTarget (.vault (clusterOf (coreOf k))) Config.vaultSize (sizeBytes z) e e with
      | .error e => .error e
      | .ok tgt => .ok (acc.storeTarget k tgt (leBytes (sizeBytes z) (argN v 1)), .next)) s

/-- A thread's write of aligned bytes of g (12 R293): NORMAL into L1 as dirty bytes; STREAM and DEVICE at their place when
the store completes. -/
def State.globStore (s : State) (k : FrameRef) (t : Thread) (va : Nat) (bs : List Byte) : State × Except Stop Unit :=
  match s.translate (t.who k) va bs.length .write with
  | (s1, .error c) => (s1, .error (.fault c va))
  | (s1, .ok tr) =>
    if tr.attr = attrDevice then
      match deviceTarget s1 tr.pa bs.length va with
      | .error e => (s1, .error e)
      | .ok (p, off) => ({ s1 with stores := s1.stores ++ [⟨k, p, off, bs, tr.home⟩] }, .ok ())
    else if tr.attr = attrNormal then ((s1.landStores k).writeLine (coreOf k) tr.pa tr.home bs, .ok ())
    else ({ s1 with stores := s1.stores ++ [⟨k, .home, tr.pa, bs, tr.home⟩] }, .ok ())

/-- ST of g (09 R212, R213). -/
def execStG (d a : Reg) (o : Off8) (z : Size) (s : State) : Host.Outcome State Fault Refusal :=
  runGroup (fun s is k t acc =>
    match operands s is.members t [ownSrc a 2 (some tagsAddr), ownSrc d z.regs none] [] with
    | .error e => .error e
    | .ok v =>
      let va := globAddr (argN v 0) (off8 o)
      if 2 ^ 57 ≤ va then .error (.fault 0x0030 va)
      else if va % sizeBytes z ≠ 0 then .error (.trap 0x0101 va)
      else
        match acc.globStore k t va (leBytes (sizeBytes z) (argN v 1)) with
        | (acc1, .error e) => acc1.fails is k e
        | (acc1, .ok _) => .ok (acc1, .next)) s

/-- The 64-bit forms of ATOM (09 R216). -/
def atomWide : AtomOp → Bool
  | .add64 | .or64 | .exch64 | .cas64 | .minN64 | .maxN64 => true
  | _ => false

def atomCas : AtomOp → Bool
  | .cas32 | .cas64 => true
  | _ => false

/-- The new value of an atomic operation (09 R216). -/
def atomNew (op : AtomOp) (old b cmp : Nat) : Nat :=
  match op with
  | .add32 => (old + b) % 2 ^ 32
  | .and32 => old &&& b
  | .or32 | .or64 => old ||| b
  | .xor32 => old ^^^ b
  | .exch32 | .exch64 => b
  | .cas32 | .cas64 => if old = cmp then b else old
  | .minS32 => if signExt old 32 ≤ signExt b 32 then old else b
  | .maxS32 => if signExt b 32 ≤ signExt old 32 then old else b
  | .minN32 | .minN64 => min old b
  | .maxN32 | .maxN64 => max old b
  | .add64 => (old + b) % 2 ^ 64

/-- The tag of ATOM's result (09 R219). -/
def atomTag (op : AtomOp) (b : Tag) : Tag :=
  if atomWide op then .w64
  else
    match op with
    | .minS32 | .maxS32 => .s32
    | .minN32 | .maxN32 => .n32
    | _ => if b = .s32 then .s32 else .n32

/-- The indivisible step of ATOM at the home, with the core's dirty bytes of the line written before it and its L1 copy
invalid after it (09 R217). -/
def State.atomAt (s : State) (g home pa w : Nat) (op : AtomOp) (b cmp : Nat) : State × Nat :=
  let s1 := s.cleanLine g (pa / 128)
  let old := readNat s1.mem pa w
  ((s1.homeWriteAt home pa (leBytes w (atomNew op old b cmp))).dropLine g (pa / 128), old)

/-- ATOM (09 R216 to R220). -/
def execAtom (d a b : Reg) (op : AtomOp) (s : State) : Host.Outcome State Fault Refusal :=
  runGroup (fun s is k t acc =>
    let n := if atomWide op then 2 else 1
    let tags := some (if atomWide op then tagsWide else tagsInt)
    let srcs := [ownSrc a 2 (some tagsAddr), ownSrc b n tags] ++ (if atomCas op then [ownSrc d n tags] else [])
    match operands s is.members t srcs [(d.val, n)] with
    | .error e => .error e
    | .ok v =>
      let va := argN v 0
      let w := 4 * n
      if 2 ^ 57 ≤ va then .error (.fault 0x0030 va)
      else if va % w ≠ 0 then .error (.fault 0x0036 va)
      else
        match (acc.landStores k).translate (t.who k) va w .atomic with
        | (acc1, .error c) => acc1.fails is k (.fault c va)
        | (acc1, .ok tr) =>
          let acc2 := acc1.cleanLine (coreOf k) (tr.pa / 128)
          if acc2.bad tr.pa w then (acc2.uncorrectable (acc2.homeDie tr.pa) 1).fails is k (.fault codeMemUe va)
          else
            let r := acc2.atomAt (coreOf k) tr.home tr.pa w op (argN v 1) (argN v 2)
            .ok (r.1.onThread k fun t => t.putAll d.val (splitRegs n r.2 (atomTag op (arg v 1).2)) none, .next)) s

/-- The append record of a page. -/
def State.appendRec (s : State) (page : Nat) : AppendRec := s.appends.getD page AppendRec.reset

/-- An append record takes no APPEND in a cycle: it is closed, by a SEAL of an earlier cycle. APPENDs of the SEAL's own cycle
come before it (09 R223, R245). R223 names only APPENDs as applied before the SEAL: DESIGN CHOICE, the reservation of a COPY of that
cycle is admitted too (log 69). -/
def AppendRec.shut (r : AppendRec) (cycle : Nat) : Bool := r.closed && r.closedAt != cycle

/-- n bytes reserved at the append record's tail, aligned to `al`: the start, or none for a full page; the caller has seen
that the record is not closed (09 R222). -/
def appendStart (r : AppendRec) (extent al n : Nat) : Option Nat :=
  let start := (r.tail + al - 1) / al * al
  if extent < start + n then none else some start

/-- APPEND (09 R222). Which of its bytes are judged for a breach of the lease (14 R324) is not stated: DESIGN CHOICE, the one at va, which
is the address that R222 translates (log 70). -/
def execAppend (d a b : Reg) (z : Size) (s : State) : Host.Outcome State Fault Refusal :=
  runGroup (fun s is k t acc =>
    match operands s is.members t [ownSrc a 2 (some tagsAddr), ownSrc b z.regs none] [(d.val, 2)] with
    | .error e => .error e
    | .ok v =>
      let va := argN v 0
      let n := sizeBytes z
      if 2 ^ 57 ≤ va then .error (.fault 0x0030 va)
      else
        match (acc.landStores k).translate (t.who k) va 1 .append with
        | (acc1, .error c) => acc1.fails is k (.fault c va)
        | (acc1, .ok tr) =>
          let r := acc1.appendRec tr.pagePa
          if r.shut acc1.cycle then acc1.fails is k (.fault 0x0034 va)
          else
            match appendStart r tr.pageSize n n with
            | none => .ok (acc1.onThread k fun t => t.putAll d.val (splitRegs 2 0x8000000000000000 .w64) none, .next)
            | some start =>
              let acc2 := acc1.homeWriteAt tr.home (tr.pagePa + r.tail) (List.replicate (start - r.tail) 0 ++ leBytes n (argN v 1))
              let r' := { r with tail := start + n, landed := r.landed + (start + n - r.tail) }
              .ok (({ acc2 with appends := acc2.appends.put tr.pagePa r' }).onThread k fun t =>
                t.putAll d.val (splitRegs 2 (tr.pageVa + start) .w64) none, .next)) s

/-- An append record closed by a SEAL; one that is closed stays as it is (09 R223). -/
def AppendRec.close (r : AppendRec) (cycle : Nat) : AppendRec :=
  if r.closed then r else { r with closed := true, closedAt := cycle }

/-- SEAL (09 R223). -/
def execSeal (d a : Reg) (s : State) : Host.Outcome State Fault Refusal :=
  runGroup (fun s is k t acc =>
    match operands s is.members t [ownSrc a 2 (some tagsAddr)] [(d.val, 1)] with
    | .error e => .error e
    | .ok v =>
      let va := argN v 0
      if t.trapped then .error (.fault codeHandler 0)
      else if 2 ^ 57 ≤ va then .error (.fault 0x0030 va)
      else
        match (acc.landStores k).translate (t.who k) va 1 .read with
        | (acc1, .error c) => acc1.fails is k (.fault c va)
        | (acc1, .ok tr) =>
          let r := acc1.appendRec tr.pagePa
          if tr.attr = attrSealed ∨ (tr.attr = attrAppend ∧ r.sealed) then
            .ok (acc1.onThread k fun t => t.putAll d.val [(1, .n32)] none, .next)
          else if tr.attr ≠ attrAppend then acc1.fails is k (.fault 0x0035 va)
          else
            let acc2 := { acc1 with appends := acc1.appends.put tr.pagePa (r.close acc1.cycle) }
            .ok (acc2.onThread k fun t =>
              { t with run := .engine (.seal tr.pagePa (t.index d.val) (if r.closed then 1 else 0)) }, .next)) s

/-- SEAL_COMPLETE (09 R223 step 4): LANDED has reached TAIL on a closed page. SEALED is set and the waiting SEALs return. -/
def execSealComplete (page : Nat) (s : State) : Host.Outcome State Fault Refusal :=
  let r := s.appendRec page
  if r.closed ∧ r.landed = r.tail ∧ !r.sealed then
    let s1 := { s with appends := s.appends.put page { r with sealed := true } }
    .next (s1.threads.foldl (fun (acc : State) (k, t) =>
      match t.run with
      | .engine (.seal p d v) => if p = page then (acc.give k d [(BitVec.ofNat 32 v, .n32)]).wake k else acc
      | _ => acc) s1)
  else .next s

/-- PREFETCH (09 R228): it raises no fault beyond its operand checks, and a request that cannot be served is discarded. -/
def execPrefetch (a : Reg) (o : Off8) (kind : PfKind) (s : State) : Host.Outcome State Fault Refusal :=
  runGroup (fun s is k t acc =>
    match operands s is.members t [ownSrc a 2 (some tagsAddr)] [] with
    | .error e => .error e
    | .ok v =>
      let va := globAddr (argN v 0) (off8 o)
      if 2 ^ 57 ≤ va then .ok (acc, .next)
      else
        match acc.translate (t.who k) va 1 .prefetch with
        | (acc1, .error _) => .ok (acc1, .next)
        | (acc1, .ok tr) =>
          let page := if acc1.observes tr then some (tr.pagePa / 4096) else none
          match kind with
          | .l1 =>
            if tr.attr = attrNormal ∨ page.isSome then .ok (acc1.touch (coreOf k) (tr.pa / 128) (tr.pa % 128) 1 tr.home page, .next)
            else .ok (acc1, .next)
          | .llc => .ok (acc1, .next)
          | .repl =>
            let p := s.physDie (dieOf (coreOf k))
            match page with
            | none => .ok (acc1, .next)
            | some q =>
              if (acc1.die p).eager ∧ !(acc1.die p).replicas.contains q ∧ !(acc1.die p).replWanted.contains q ∧ p ≠ tr.home then
                .ok (acc1.onDie p fun d => { d with replWanted := d.replWanted ++ [q] }, .next)
              else .ok (acc1, .next)) s

/-- A thread that waits in EXIT goes on when its accesses have completed (07 R158 step 2). -/
def State.drain (s : State) (k : FrameRef) : State :=
  match s.threads.get k with
  | some t => if t.draining && !s.busy k t then s.exitNow k else s
  | none => s

/-- The results of a load written to its registers. -/
def deliver (t : Thread) : List (Nat × RegVal) → Thread
  | [] => t
  | (r, v) :: rest => deliver (t.commit r v) rest

/-- A load leaves its thread, whose registers it no longer holds; other members' instructions that wait for it go on (05 R107,
R114). -/
def State.retireLoad (s : State) (k id : Nat) : State :=
  let s1 := s.onThread k fun t =>
    { t with loads := t.loads.filter fun x => x.id != id, pend := t.pend.filter fun (_, j) => j != id }
  { s1 with threads := s1.threads.mapVals fun _ t => t.spared k (some id) }

/-- The results of a load reach its thread; one that waits in EXIT discards them (05 R107; 07 R158 step 2; 08 R203). -/
def Load.arrive (l : Load) (t : Thread) : Thread :=
  if t.draining then t else { deliver t l.results with winstat := l.window.getD t.winstat }

/-- A deferred instruction whose awaited results are there takes effect (05 R114). -/
def State.takeDeferred (s : State) (k : FrameRef) (d : Deferred) : State :=
  match d.fault with
  | some code => (s.onThread k fun t => { t with deferred := none }.settle).faultThread k code 0
  | none => s.onThread k fun t => t.takeEffect s.cycle d

/-- The results that a deferred instruction waits for are there. A member that has ended brings none any more (05 R114; 07 R181). -/
def State.landed (s : State) (d : Deferred) : Bool :=
  d.waits.all fun (j, n) => !(s.threads.get j).any fun t => t.pend.any fun (_, id) => id == n

/-- VARIABLE_RESULT (05 R107, R109, R114): a load in flight completes and its results are written; or an instruction that has
waited for other members' results takes effect. -/
def execVariableResult (key id : Nat) (s : State) : Host.Outcome State Fault Refusal :=
  match s.threads.get key with
  | none => .next s
  | some t =>
    match t.deferred.filter s.landed with
    | some d => .next (s.takeDeferred key d)
    | none =>
      match t.loads.find? fun l => l.id == id with
      | none => .next s
      | some l => .next (((s.onThread key l.arrive).retireLoad key id).drain key)

/-- STORE_COMPLETE (09 R215; 12 R291): a thread's oldest store reaches its place, with every store made before it, and a
thread that waited for its stores goes on. -/
def execStoreComplete (key : Nat) (s : State) : Host.Outcome State Fault Refusal :=
  let n := if s.storing key then s.stores.findIdx (fun x => x.thread == key) + 1 else 0
  let s1 := (s.stores.take n).foldl State.landStore { s with stores := s.stores.drop n }
  .next (s1.drain key)

end Sys2Proof.Machine
end

