-- ==== Sys2Proof/Machine/CopyEngine.lean ====
section
/-! DEFINITION. COPY and the copy engine: opcode 0x57 (09 R224 to R227). -/

namespace Sys2Proof.Machine

/-- The space of a code (09 R224). -/
def copySpace : Nat → Option CopySpace
  | 0 => some .g
  | 1 => some .s
  | 2 => some .c
  | 3 => some .k
  | 4 => some .append
  | _ => none

/-- The destinations that DMASK names, or none where a bit fails R206 (09 R224, R225). -/
def maskCores (s : State) (k : FrameRef) (t : Thread) (mask : Nat) : Option (List Nat) :=
  ((List.range 8).filter (testBit mask)).mapM (selectCore s k t)

/-- The meet of a core is in byte-count mode. -/
def State.countsBytes (s : State) (g m : Nat) : Bool := (s.meet g m).any fun x => x.mode == .bytes

/-- The request that a record states, or none where 09 R225 refuses it. The id and stamp are the caller's. -/
def copyRequest (s : State) (k : FrameRef) (t : Thread) (e : Nat) (r : List Byte) (id stamp : Nat) : Option CopyJob :=
  let w := recNat r 32 4
  let g := coreOf k
  let meet := bitsOf w 10 6
  let mask := bitsOf w 21 14
  match copySpace (bitsOf w 2 0), copySpace (bitsOf w 5 3), maskCores s k t mask, selectCore s k t (bitsOf w 13 11) with
  | some ss, some ds, some cores, sel =>
    let dcores := if ds = .c then cores else [g]
    let spare := bitsOf (recNat r 0 8) 63 57 + bitsOf (recNat r 8 8) 63 57 + recNat r 19 1 + recNat r 22 2 + bitsOf w 31 22
      + recNat r 36 20
    if spare ≠ 0 ∨ recNat r 16 3 = 0 ∨ recNat r 20 2 = 0 ∨ ss = .append ∨ (ds = .c) ≠ (mask ≠ 0) ∨ (ss = .c ∧ sel.isNone)
        ∨ (dcores.contains g ∧ !s.countsBytes g meet) then none
    else
      some { id := id, launch := t.launch, ctxid := t.ctxid, src := recNat r 0 8, dst := recNat r 8 8,
             len := recNat r 16 3, rows := recNat r 20 2, sstride := signExt (recNat r 24 4) 32,
             dstride := signExt (recNat r 28 4) 32, sspace := ss, dspace := ds, meet := meet, score := sel.getD g, record := e,
             stamp := stamp, started := false, page := none, reserved := 0,
             dests := dcores.map fun c => ⟨c, 0, false, false⟩, base := 0, data := [], failed := false }
  | _, _, _, _ => none

/-- Byte i of a copy, in row order, at a base and stride. -/
def copyAddr (base : Nat) (stride : Int) (len i : Nat) : Int := base + stride * (i / len : Nat) + (i % len : Nat)

/-- The first offset of the register window that rows of a copy touch, in row order (08 R201). -/
def windowTouched (base : Nat) (stride : Int) (len rows : Nat) : Option Nat :=
  (List.range rows).findSome? fun i =>
    let lo := copyAddr base stride len (i * len)
    if lo < 0x800000 ∧ 0x400000 < lo + len then some (max lo 0x400000).toNat else none

/-- The offset of the register window that a copy of s would read or write (08 R201). -/
def CopyJob.windowed (j : CopyJob) : Option Nat :=
  (if j.sspace = .s then windowTouched j.src j.sstride j.len j.rows else none) <|>
    (if j.dspace = .s then windowTouched j.dst j.dstride j.len j.rows else none)

/-- COPY (09 R225): held while the core's queue of 16 is full; captured after the thread's outgoing edge. In the register-window
configuration a record in the window, or rows of s that reach into it, end the thread with WINDOW_ACCESS (08 R201). -/
def execCopy (a : Reg) (s : State) : Host.Outcome State Fault Refusal :=
  runGroup (fun s is k t acc =>
    match operands s is.members t [ownSrc a 1 (some tagsAddr)] [] with
    | .error e => .error e
    | .ok v =>
      let e := (argW v 0).toNat
      let g := coreOf k
      if ((acc.core g).copies.filter fun j => !j.started).length ≥ 16 then .error .hold
      else if t.trapped then .error (.fault codeHandler 0)
      else if s.pkg.wincfg ∧ 0x400000 ≤ e ∧ e < 0x800000 then .error (.fault 0x0039 e)
      else if Config.spadSize ≤ e then .error (.fault 0x0031 e)
      else if e % 64 ≠ 0 then .error (.fault 0x0038 e)
      else
        let acc1 := acc.outgoing k
        let (id, acc2) := acc1.fresh
        match acc2.checkedRead (.spad g) e 64 with
        | (acc3, none) => acc3.fails is k (.fault codeMemUe e)
        | (_, some record) =>
        match copyRequest acc2 k t e record id (acc2.timeOf k) with
        | none => acc1.fails is k (.fault 0x0038 e)
        | some j =>
          match (if s.pkg.wincfg then j.windowed else none) with
          | some w => acc1.fails is k (.fault 0x0039 w)
          | none =>
          let others := (j.dspace == .c && j.dests.any fun d => d.core != g) || (j.sspace == .c && j.score != g)
          let mark := fun (t : Thread) =>
            if others then { t with group := t.group.map fun m => { m with foreign := true } } else t
          .ok ((acc2.onCore g fun c => { c with copies := c.copies ++ [j] }).onThread k mark, .next)) s

/-- Changes a core's copy by its number. -/
def State.onCopy (s : State) (g id : Nat) (f : CopyJob → CopyJob) : State :=
  s.onCore g fun c => { c with copies := c.copies.map fun j => if j.id = id then f j else j }

/-- A copy leaves its core. -/
def State.dropCopy (s : State) (g id : Nat) : State :=
  s.onCore g fun c => { c with copies := c.copies.filter fun j => j.id != id }

/-- The bytes that a copy moves. -/
def CopyJob.total (j : CopyJob) : Nat := j.len * j.rows

/-- The bytes that an append destination reserves (09 R227). -/
def CopyJob.reservation (j : CopyJob) : Nat := (j.total + 15) / 16 * 16

/-- An address of s, c or k within its extent. -/
def inExtent (extent : Nat) (a : Int) : Option Nat := if 0 ≤ a ∧ a < extent then some a.toNat else none

/-- Arriving bytes count down the meet of a destination core, if it is in byte-count mode (09 R226, R231). -/
def State.countDown (s : State) (g m n stamp : Nat) : State :=
  s.onMeet g m fun x => { x with count := signExt (wrap (x.count - n) 48) 48, stamp := max x.stamp stamp }

/-- Who a copy's accesses are made for. -/
def CopyJob.who (j : CopyJob) (g : Nat) : Who := ⟨g, j.ctxid, j.launch, false⟩

/-- One byte of a scratchpad or vault source, or none out of its extent or where it is uncorrectable. -/
def State.copyReadAt (s : State) (p : Place) (x : Option Nat) : State × Option Byte :=
  match x with
  | none => (s, none)
  | some a =>
    match (s.wakeFor p).checkedRead p a 1 with
    | (s1, bs) => (s1, bs.bind List.head?)

/-- One byte of a copy's source, or none where the read fails (09 R227). -/
def State.copyRead (s : State) (g : Nat) (j : CopyJob) (i : Nat) : State × Option Byte :=
  let a := copyAddr j.src j.sstride j.len i
  match j.sspace with
  | .g | .append =>
    if a < 0 ∨ (2 : Int) ^ 57 ≤ a then (s, none)
    else
      match s.translate (j.who g) a.toNat 1 .read with
      | (s1, .error _) => (s1, none)
      | (s1, .ok tr) =>
        if tr.attr = attrDevice then
          match deviceTarget s1 tr.pa 1 a.toNat with
          | .error _ => (s1, none)
          | .ok (p, off) =>
            match s1.directRead p off 1 a.toNat with
            | (s2, .ok bs) => (s2, bs.head?)
            | (s2, .error _) => (s2, none)
        else
          match s1.directRead .home tr.pa 1 a.toNat with
          | (s2, .ok bs) => (s2, bs.head?)
          | (s2, .error _) => (s2, none)
  | .s => s.copyReadAt (.spad g) (inExtent Config.spadSize a)
  | .c => s.copyReadAt (.spad j.score) (inExtent Config.spadSize a)
  | .k => s.copyReadAt (.vault (clusterOf g)) (inExtent Config.vaultSize a)

/-- One byte of a copy at a destination core, or none where the write fails (09 R226, R227). -/
def State.copyWrite (s : State) (g : Nat) (j : CopyJob) (dest i : Nat) (b : Byte) : State × Bool :=
  let a := copyAddr j.dst j.dstride j.len i
  match j.dspace with
  | .g =>
    if a < 0 ∨ (2 : Int) ^ 57 ≤ a then (s, false)
    else
      match s.translate (j.who g) a.toNat 1 .write with
      | (s1, .error _) => (s1, false)
      | (s1, .ok tr) =>
        if tr.attr = attrDevice then
          match deviceTarget s1 tr.pa 1 a.toNat with
          | .error _ => (s1, false)
          | .ok (.home, off) => (s1.homeWriteAt tr.home off [b], true)
          | .ok (p, off) => (s1.placeWrite p off [b], true)
        else (s1.homeWriteAt tr.home tr.pa [b], true)
  | .s | .c =>
    match inExtent Config.spadSize a with
    | none => (s, false)
    | some x => ((s.wakeFor (.spad dest)).placeWrite (.spad dest) x [b], true)
  | .k =>
    match inExtent Config.vaultSize a with
    | none => (s, false)
    | some x => ((s.wakeFor (.vault (clusterOf g))).placeWrite (.vault (clusterOf g)) x [b], true)
  | .append => (s.homeWrite (j.page.getD 0 + j.reserved + i) [b], true)

/-- Reserved bytes of an append page count as landed (09 R221, R227). -/
def State.appendLanded (s : State) (page n : Nat) : State :=
  { s with appends := s.appends.put page { s.appendRec page with landed := (s.appendRec page).landed + n } }

/-- COPY_START (09 R225, R227): the oldest queued request starts. An append destination makes its reservation, and RESULT is
written before the first byte lands; in the cycle of a SEAL it is admitted (`AppendRec.shut`; log 69). -/
def execCopyStart (core : Nat) (s : State) : Host.Outcome State Fault Refusal :=
  match (s.core core).copies.find? fun j => !j.started with
  | none => .next s
  | some j =>
    let s1 := s.onCopy core j.id fun j => { j with started := true }
    let fail := fun (s : State) => s.onCopy core j.id fun j => { j with dests := j.dests.map fun d => { d with failed := true } }
    if j.dspace ≠ .append then .next s1
    else if 2 ^ 57 ≤ j.dst then .next (fail s1)
    else
      match s1.translate (j.who core) j.dst 1 .append with
      | (s2, .error _) => .next (fail s2)
      | (s2, .ok tr) =>
        let r := s2.appendRec tr.pagePa
        let result := fun (s : State) (v : Nat) => s.placeWrite (.spad core) (j.record + 56) (leBytes 8 v)
        if r.shut s2.cycle then .next (fail s2)
        else
          match appendStart r tr.pageSize 16 j.reservation with
          | none => .next (((result s2 0x8000000000000000).countDown core j.meet j.total j.stamp).dropCopy core j.id)
          | some start =>
            let s3 := s2.homeWrite (tr.pagePa + r.tail) (List.replicate (start - r.tail) 0)
            let r' := { r with tail := start + j.reservation, landed := r.landed + (start - r.tail) }
            let s4 := { s3 with appends := s3.appends.put tr.pagePa r' }
            .next ((result s4 (tr.pageVa + start)).onCopy core j.id fun j => { j with page := some tr.pagePa, reserved := start })

/-- Reads source bytes until the buffer reaches position `upto`; false where a read fails. -/
def State.copyFetch (s : State) (g : Nat) (j : CopyJob) : Nat → State × CopyJob × Bool
  | 0 => (s, j, true)
  | n + 1 =>
    match s.copyRead g j (j.base + j.data.length) with
    | (s1, none) => (s1, j, false)
    | (s1, some b) => s1.copyFetch g { j with data := j.data ++ [b] } n

/-- Lands bytes at a destination from position i on: the number landed before a write failed, or all. -/
def State.copyLand (s : State) (g : Nat) (j : CopyJob) (dest i : Nat) : List Byte → State × Nat
  | [] => (s, 0)
  | b :: rest =>
    match s.copyWrite g j dest i b with
    | (s1, false) => (s1, 0)
    | (s1, true) =>
      let r := s1.copyLand g j dest (i + 1) rest
      (r.1, r.2 + 1)

/-- A copy drops the buffered bytes that every destination has received, and leaves its core when all are done. -/
def State.copyTrim (s : State) (g id : Nat) : State :=
  match (s.core g).copies.find? fun j => j.id == id with
  | none => s
  | some j =>
    let live := j.dests.filter fun d => !d.failed
    let low := live.foldl (fun acc d => min acc d.landed) j.total
    if (j.dests.any (·.failed)) || j.failed then s
    else if live.all fun d => d.landed == j.total then s.dropCopy g id
    else s.onCopy g id fun j => { j with base := low, data := j.data.drop (low - j.base) }

/-- COPY_BYTES_LAND (09 R226, R227): up to n further bytes, in row order, land at a destination of a started copy and count
down its meet. A source or destination that fails is marked for COPY_FAILURE. How often COPY_NOMEET counts where the bytes of one copy
arrive in several portions is not stated: DESIGN CHOICE, once for each destination of the copy (log 71). -/
def execCopyBytesLand (core id dest n : Nat) (s : State) : Host.Outcome State Fault Refusal :=
  match (s.core core).copies.find? fun j => j.id == id && j.started && !j.failed with
  | none => .next s
  | some j =>
    match j.dests.find? fun d => d.core == dest && !d.failed with
    | none => .next s
    | some d =>
      let m := min n (j.total - d.landed)
      let need := d.landed + m - (j.base + j.data.length)
      match s.copyFetch core j need with
      | (s1, j1, false) => .next (s1.onCopy core id fun _ => { j1 with failed := true })
      | (s1, j1, true) =>
        let bytes := (j1.data.drop (d.landed - j1.base)).take m
        let (s2, k) := s1.copyLand core j1 dest d.landed bytes
        let done := d.landed + k = j.total
        let counted := s2.countsBytes dest j.meet
        let d' : CopyDest := { d with landed := d.landed + k, noMeet := d.noMeet || !counted, failed := k < m }
        let s3 := s2.onCopy core id fun _ => { j1 with dests := j1.dests.map fun x => if x.core = dest then d' else x }
        let s4 := if counted then s3.countDown dest j.meet k j.stamp
          else if d.noMeet ∨ k = 0 then s3 else s3.countAt dest 6
        let s5 :=
          if j.dspace = .append then
            let pad := if done then j.reservation - j.total else 0
            (s4.homeWrite (j.page.getD 0 + j.reserved + j.total) (List.replicate pad 0)).appendLanded (j.page.getD 0) (k + pad)
          else s4
        .next (s5.copyTrim core id)

/-- The reserved bytes of a failed append copy that were not written are written 0 and count as landed (09 R227). -/
def State.fillReservation (s : State) (j : CopyJob) : State :=
  if j.page.isSome then
    let got := (j.dests.map (·.landed)).headD 0
    (s.homeWrite (j.page.getD 0 + j.reserved + got) (List.replicate (j.reservation - got) 0)).appendLanded (j.page.getD 0) (j.reservation - got)
  else s

/-- COPY_FAILURE (09 R227): a source failure sets the error flag of every destination's meet and ends the copy; a
destination failure sets that of its own meet, and the others go on. A started copy without a failure found here has met
one of the device's own, which is a source failure (log 26). -/
def execCopyFailure (core id : Nat) (s : State) : Host.Outcome State Fault Refusal :=
  match (s.core core).copies.find? fun j => j.id == id && j.started with
  | none => .next s
  | some j =>
    let source := j.failed || !(j.dests.any (·.failed))
    let hit := if source then j.dests else j.dests.filter (·.failed)
    let flag := fun (s : State) (d : CopyDest) => if s.countsBytes d.core j.meet then s.meetError d.core j.meet 0x0026 else s
    let s1 := hit.foldl flag s
    let rest := j.dests.filter fun d => !d.failed
    if source ∨ rest.isEmpty then .next ((s1.fillReservation j).dropCopy core id)
    else .next ((s1.onCopy core id fun j => { j with dests := rest }).copyTrim core id)

end Sys2Proof.Machine
end

