-- ==== Sys2Proof/Machine/MeetOps.lean ====
section
/-! DEFINITION. Meets, membership sets and barriers: opcodes 0x60 to 0x64 (01 R47 to R53; 09 R229 to R234). -/

namespace Sys2Proof.Machine

/-- A copy in flight counts toward a meet of a core (09 R229). -/
def State.copyCounts (s : State) (g m : Nat) : Bool :=
  s.countsBytes g m && s.cores.any fun (_, c) => c.copies.any fun j => j.meet == m && j.dests.any fun d => d.core == g

/-- A tile operation of a meet is in flight: it stands in a group queue, or waits at the meet for room in one (10 R253). -/
def State.tileInFlight (s : State) (g m : Nat) : Bool :=
  (s.meet g m).any (fun x => x.due && !x.entered) || (s.cluster (clusterOf g)).queues.any fun (_, q) => q.any fun e =>
    e.gcore == g && (match e.op with | .tile _ => e.meet == m | _ => false)

/-- A meet after MEETINIT (01 R47). -/
def Meet.fresh (mode : MeetMode) : Meet :=
  { mode := mode, phase := 0, members := 0, arrivals := 0, count := 0, expected := false, err := none, desc := [],
    far := none, launch := 0, due := false, entered := false, stamp := 0, past := [] }

/-- MEETINIT (09 R229). -/
def execMeetinit (mode : MeetMode) (m : Fin 32) (s : State) : Host.Outcome State Fault Refusal :=
  runGroup (fun _ _ k _ acc =>
    let g := coreOf k
    let busy := (acc.meet g m.val).any (fun x => 0 < x.members) || !(acc.meetWaiters g m.val).isEmpty
      || acc.copyCounts g m.val || acc.tileInFlight g m.val
    if busy then .error (.fault 0x0021 0)
    else .ok (acc.onCore g fun c => { c with meets := c.meets.put m.val (Meet.fresh mode) }, .next)) s

/-- An arrival of a member in the current phase: its edge goes out, it is counted, and the phase may complete (09 R230;
12 R294). -/
def State.arriveAt (s : State) (k : FrameRef) (m : Nat) : State :=
  let s1 := s.outgoing k
  let stamp := s1.timeOf k
  let s2 := s1.onThread k fun t => { t with arrived := setBit t.arrived m }
  (s2.onMeet (coreOf k) m fun x => { x with arrivals := x.arrivals + 1, stamp := max x.stamp stamp }).checkMeet (coreOf k) m

/-- Why a thread may not arrive, in the order of 09 R230. -/
def arriveFault (x : Option Meet) (t : Thread) (m : Nat) (modes : List MeetMode) : Option Nat :=
  match x with
  | none => some 0x0020
  | some x =>
    if !modes.contains x.mode then some 0x0024
    else if !testBit t.members m then some 0x0022
    else if testBit t.arrived m then some 0x0023
    else none

/-- A phase number written to a register. -/
def phaseReg (p : Nat) : RegVal := (BitVec.ofNat 32 p, .n32)

/-- ARRIVE (09 R230). -/
def execArrive (d : Reg) (m : Fin 32) (s : State) : Host.Outcome State Fault Refusal :=
  runGroup (fun s is k t acc =>
    match operands s is.members t [] [(d.val, 1)] with
    | .error e => .error e
    | .ok _ =>
      let x := acc.meet (coreOf k) m.val
      match arriveFault x t m.val [.count, .reconv] with
      | some c => .error (.fault c 0)
      | none =>
        let p := x.elim 0 Meet.phase
        .ok ((acc.onThread k fun t => t.putAll d.val [phaseReg p] none).arriveAt k m.val, .next)) s

/-- SYNC: ARRIVE and then WAIT on the phase arrived in (09 R230). -/
def execSync (d : Reg) (m : Fin 32) (s : State) : Host.Outcome State Fault Refusal :=
  runGroup (fun s is k t acc =>
    match operands s is.members t [] [(d.val, 1)] with
    | .error e => .error e
    | .ok _ =>
      if t.trapped then .error (.fault codeHandler 0)
      else
        let x := acc.meet (coreOf k) m.val
        match arriveFault x t m.val [.count, .reconv] with
        | some c => .error (.fault c 0)
        | none =>
          let p := x.elim 0 Meet.phase
          .ok ((acc.onThread k fun t => { t.putAll d.val [phaseReg p] none with run := .meet m.val p }).arriveAt k m.val,
            .next)) s

/-- WAIT (09 R230): a phase with its error flag set ends the thread with the code; a completed phase gives its edge at
once. -/
def execWait (a : Reg) (m : Fin 32) (s : State) : Host.Outcome State Fault Refusal :=
  runGroup (fun s is k t acc =>
    match operands s is.members t [ownSrc a 1 (some tagsInt)] [] with
    | .error e => .error e
    | .ok v =>
      if t.trapped then .error (.fault codeHandler 0)
      else
        match acc.meet (coreOf k) m.val with
        | none => .error (.fault 0x0020 0)
        | some x =>
          let p := (argW v 0).toNat % 65536
          if x.phase ≠ p then
            (match x.past.get p with
            | some stamp => .ok (acc.receive k stamp, .next)
            | none => .ok (acc, .next))
          else
            match x.err with
            | some c => .error (.fault c 0)
            | none => .ok (acc.onThread k fun t => { t with run := .meet m.val p }, .next)) s

/-- PHASE (09 R230). -/
def execPhase (d : Reg) (m : Fin 32) (s : State) : Host.Outcome State Fault Refusal :=
  runGroup (fun s is k t acc =>
    match operands s is.members t [] [(d.val, 1)] with
    | .error e => .error e
    | .ok _ =>
      match acc.meet (coreOf k) m.val with
      | none => .error (.fault 0x0020 0)
      | some x => .ok (acc.onThread k fun t => t.putAll d.val [phaseReg x.phase] none, .next)) s

/-- EXPECT (09 R231). -/
def execExpect (m : Fin 32) (a : Reg) (s : State) : Host.Outcome State Fault Refusal :=
  runGroup (fun s is k t acc =>
    match operands s is.members t [ownSrc a 1 (some tagsInt)] [] with
    | .error e => .error e
    | .ok v =>
      match acc.meet (coreOf k) m.val with
      | none => .error (.fault 0x0020 0)
      | some x =>
        if x.mode ≠ .bytes then .error (.fault 0x0024 0)
        else
          .ok (acc.onMeet (coreOf k) m.val fun x =>
            { x with count := signExt (wrap (x.count + (argW v 0).toNat) 48) 48, expected := true }, .next)) s

/-- JOIN (09 R233). -/
def execJoin (m : Fin 32) (s : State) : Host.Outcome State Fault Refusal :=
  runGroup (fun _ _ k t acc =>
    match acc.meet (coreOf k) m.val with
    | none => .error (.fault 0x0020 0)
    | some x =>
      if x.mode = .bytes then .error (.fault 0x0024 0)
      else if testBit t.members m.val then .ok (acc, .next)
      else if 2048 ≤ x.members then .error (.fault 0x0025 0)
      else
        .ok ((acc.onThread k fun t => { t with members := setBit t.members m.val, arrived := clearBit t.arrived m.val }).onMeet
          (coreOf k) m.val fun x => { x with members := x.members + 1 }, .next)) s

/-- LEAVE (09 R233): by a non-member it has no effect. -/
def execLeave (m : Fin 32) (s : State) : Host.Outcome State Fault Refusal :=
  runGroup (fun _ _ k _ acc =>
    match acc.meet (coreOf k) m.val with
    | none => .error (.fault 0x0020 0)
    | some _ => .ok (acc.leaveMeet k m.val, .next)) s

/-- CBAR (09 R234, 01 R52): a thread of no group passes at once. -/
def execCbar (s : State) : Host.Outcome State Fault Refusal :=
  runGroup (fun _ _ k t acc =>
    if t.trapped then .error (.fault codeHandler 0)
    else
      let acc1 := acc.outgoing k
      match t.group with
      | none => .ok (acc1.incoming (coreOf k), .next)
      | some m =>
        let stamp := acc1.timeOf k
        let arrive := fun (b : Barrier) =>
          { b with arrivals := bump b.arrivals (b.pos (clusterOf (coreOf k))) (· + 1), stamp := max b.stamp stamp }
        let acc2 := { acc1 with groups := acc1.groups.update m.group arrive }
        .ok ((acc2.onThread k fun t => { t with run := .cbar }).checkBarrier m.group, .next)) s

/-- CBAR_REMOTE (01 R52): the partner clusters' completed local phases have arrived, and the remote phase completes. -/
def execCbarRemote (group : Nat) (s : State) : Host.Outcome State Fault Refusal :=
  match s.groups.get group with
  | none => .next s
  | some b =>
    if b.clusters.length = 2 ∧ b.clusters.all b.done.contains then
      let other := fun (m : Msg) => match m with
        | .barrierDone g _ => g != group
        | _ => true
      .next ({ s with net := s.net.filter other }.releaseBarrier group)
    else .next s

end Sys2Proof.Machine
end

