-- ==== Sys2Proof/Machine/SaveArea.lean ====
section
/-! DEFINITION. Frames written back, and the suspension pool (01 R43; 18 R388). -/

namespace Sys2Proof.Machine

/-- Every variable-latency result of a thread has been delivered (09 R244, 10 R277). -/
def Thread.quiet (t : Thread) : Bool := t.loads.isEmpty && t.gwins.isEmpty && t.pend.isEmpty

/-- A stop may take effect at the boundary at which a thread stands (05 R110; 09 R244). No instruction of it is under way, and no
fixed-latency writer would be set aside, or ten instructions have issued since the stop was asked for; a thread that waits, or
that an interlock other than a pending operand holds, is stopped where it stands, as 09 R244 lists (log 44). -/
def Thread.boundary (t : Thread) : Bool :=
  t.deferred.isNone && (t.writes.isEmpty || t.stopAt.any (· + 10 ≤ t.issued) || (t.quiet && (t.held || t.run != .ready)))

/-- The first stop that waits for a thread is noted: it waits for at most ten more instructions (05 R110). -/
def Thread.askStop (t : Thread) : Thread := { t with stopAt := t.stopAt <|> some t.issued }

/-- A frame is written to the frame area as it stands: the area and the frame cache agree on it (01 R38, R43). -/
def State.writeBack (s : State) (k : FrameRef) : State :=
  match s.frames.get k with
  | some f => (s.pokes (s.frameAddr k) f.bytes).onCore (coreOf k) fun c => { c with evicted := c.evicted.put (indexOf k) f }
  | none => s

/-- The frames of a core that its frame cache holds: those that the frame area does not hold as they stand (01 R38, R43). -/
def State.cachedFrames (s : State) (g : Nat) : List FrameRef :=
  (s.frames.filter fun (k, f) => coreOf k == g && (s.core g).evicted.get (indexOf k) != some f).map (·.1)

/-- The frame that a core's frame cache evicts when it holds more than 4,096: the spec does not say which, and it is a free
choice among them (01 R38; log 60). -/
def State.evictDue (s : State) (g : Nat) : Option FrameRef :=
  let l := s.cachedFrames g
  if l.length ≤ 4096 then none else l[Config.freeIndex s.free % l.length]?

/-- FRAME_EVICT (01 R38, R43): the core's frame cache writes a frame to the frame area. -/
def execFrameEvict (key : Nat) (s : State) : Host.Outcome State Fault Refusal :=
  .next { s.writeBack key with free := s.free + 1 }

/-- The records of a context's suspension pool: address and size of each (18 R388). -/
def State.poolRecords (s : State) (ctx : Nat) : List (Nat × Nat) :=
  s.threads.filterMap fun (k, t) =>
    match s.frames.get k with
    | some f => if t.ctxid = ctx ∧ f.saveptr ≠ 0 ∧ t.pooled then some (f.saveptr, recordSize t.alloc) else none
    | none => none

/-- The lowest 64-byte boundary of a pool where a record fits; `used` lists the records in ascending address. -/
def poolFit (at_ limit size : Nat) : List (Nat × Nat) → Option Nat
  | [] => if at_ + size ≤ limit then some at_ else none
  | (a, n) :: rest => if at_ + size ≤ a then some at_ else poolFit (max at_ (a + n)) limit size rest

/-- Room for a record in a context's suspension pool: lowest address first (18 R388). -/
def State.poolAlloc (s : State) (ctx size : Nat) : Option Nat :=
  let c := s.ctx ctx
  poolFit c.susp (c.susp + 4096 * c.susplim) size (sortBy (·.1) (s.poolRecords ctx))

/-- A thread suspended into the pool while its context runs (01 R56, R64; 18 R388): its record is written, its frame names
it, and its context and registers are free, which a GROW of its lane may then take (`regrant`). -/
def State.suspend (s : State) (k : FrameRef) (addr : Nat) (why : Susp) : State :=
  let s1 := s.onThread k fun t =>
    { t.settle with susp := some why, stopping := none, stopAt := none, held := false, bank := [], stall := t.stall - s.cycle }
  match s1.threads.get k with
  | none => s
  | some t =>
    let s2 := (s1.onFrame k fun f => { f with saveptr := addr })
    s2.pokes addr (t.record s2 k)

/-- The GROW requests of the lanes of some threads are looked at again, once all of the threads have left or come back
(01 R55, 07 R164). -/
def State.regrant (s : State) (ts : List (FrameRef × Thread)) : State :=
  ts.foldl (fun acc (k, t) => acc.grantGrows (coreOf k) t.part t.lane 16) s

/-- A record of the pool is released (18 R388). -/
def State.poolReleased (s : State) (k : FrameRef) : State := (s.onFrame k fun f => { f with saveptr := 0 }).poolFreed

end Sys2Proof.Machine
end

