-- ==== Sys2Proof/Machine/SpawnOps.lean ====
section
/-! DEFINITION. Spawn, range tasks, frames, bins and their placement, completions, and the starvation rule: opcodes 0x65 to
0x69 (01 R30 to R42, R56; 09 R235 to R239). -/

namespace Sys2Proof.Machine

/-- Bins of a core, closed and open, that accept children of a key within a context (01 R30, 18 R380). -/
def Core.openBin (c : Core) (entry ctxid : Nat) : Option Nat :=
  ((c.bins.find? fun (_, b) => b.opened && !b.offered && b.entry == entry && b.ctxid == ctxid).map (·.1))

/-- A free bin of a core's sixteen. 01 R30 says a free bin and not which: DESIGN CHOICE, the lowest index (log 54). -/
def Core.freeBin (c : Core) : Option Nat := (List.range 16).find? fun i => (c.bins.get i).isNone

/-- A bin takes a child; the 32nd closes it (01 R31). -/
def Bin.take (b : Bin) (c : Child) (cycle : Nat) : Bin :=
  let cs := b.children ++ [c]
  if cs.length = 32 then { b with children := cs, opened := false, timer := 0, order := cycle } else { b with children := cs }

/-- A child enters the bin that accepts its key, or opens a free one, whose timer starts; none when it must wait (01 R30,
R31). -/
def State.binChild (s : State) (g entry : Nat) (ch : Child) : Option State :=
  let c := s.core g
  match c.openBin entry ch.ctxid with
  | some i => some (s.setCore g { c with bins := c.bins.update i fun b => b.take ch s.cycle })
  | none =>
    match c.freeBin with
    | none => none
    | some i =>
      let b : Bin := { entry := entry, ctxid := ch.ctxid, opened := true, children := [], timer := c.binTimer, order := 0,
                       born := s.cycle, offered := false }
      some (s.setCore g { c with bins := c.bins.put i (b.take ch s.cycle) })

/-- Children that a frame may still be given (01 R40). -/
def liveLimit : Nat := 0xFFFFFF

/-- A child of a killed launch ends on a core where it stands, with the stamp of its spawn edge (18 R387; 12 R289). -/
def State.endChild (s : State) (g : Nat) (ch : Child) : State :=
  s.send (.completion ch.parent ch.ordinal ⟨.killed, FaultRec.none, ch.stamp⟩ (.core g))

/-- SPAWN and SPAWNR (09 R235, R236). What a thread spawns that a kill awaits at its next boundary is killed at once (18 R387). -/
def spawnOp (l : Fin 32) (a b : Reg) (ranged : Bool) : Member := fun s is k t acc =>
  let args := if ranged then [ownSrc b 2 (some tagsInt), ⟨b.val + 2, 6, .own, none⟩] else [ownSrc b 8 none]
  match operands s is.members t (ownSrc a 2 (some tagsAddr) :: args) [] with
  | .error e => .error e
  | .ok v =>
    let e := argN v 0
    let regs := (v.drop 1).flatMap id
    if t.trapped then .error (.fault codeHandler 0)
    else if !entryAddress e then .error (.fault codeTarget e)
    else
      match acc.frames.get k with
      | none => .error .hold
      | some f =>
        if liveLimit ≤ f.live then .error .hold
        else
          let acc1 := acc.outgoing k
          let w := fun (i : Nat) => (regs.getD i blankReg).1.toNat
          let ch : Child :=
            { args := regs, alloc := 16 * (l.val + 1), check := t.check, range := if ranged then some (w 0, w 1) else none,
              parent := k, ordinal := f.nextseq, stamp := acc1.timeOf k, launch := t.launch, lgroup := t.lgroup,
              ctxid := t.ctxid, handler := acc1.handler k t, grid := 0 }
          let acc2 := acc1.onFrame k fun f => { f with live := f.live + 1, nextseq := (f.nextseq + 1) % 2 ^ 28 }
          if t.dying then .ok (acc2.endChild (coreOf k) ch, .next)
          else
            match acc2.binChild (coreOf k) e ch with
            | none => .error .hold
            | some acc3 => .ok (acc3, .next)

/-- SPAWN. -/
def execSpawn (l : Fin 32) (a b : Reg) (s : State) : Host.Outcome State Fault Refusal := runGroup (spawnOp l a b false) s
/-- SPAWNR. -/
def execSpawnr (l : Fin 32) (a b : Reg) (s : State) : Host.Outcome State Fault Refusal := runGroup (spawnOp l a b true) s

/-- NEXTI (09 R237, 01 R36). -/
def execNexti (d : Reg) (s : State) : Host.Outcome State Fault Refusal :=
  runGroup (fun s is k t acc =>
    match operands s is.members t [] [(d.val, 2)] with
    | .error e => .error e
    | .ok _ =>
      match t.slot.bind fun i => ((acc.core (coreOf k)).slots.get i).map fun r => (i, r) with
      | none => .error (.fault 0x0027 0)
      | some (i, r) =>
        let more := decide (r.cur < r.hi)
        let out := [((BitVec.ofNat 32 (if more then r.cur else r.hi), .n32) : RegVal), ((if more then 1 else 0), .n32)]
        let acc1 := acc.onCore (coreOf k) fun c =>
          if more then { c with slots := c.slots.put i { r with cur := r.cur + 1 } } else c
        .ok (acc1.onThread k fun t => t.putAll d.val out none, .next)) s

/-- The four registers that AWAIT writes (09 R238). -/
def awaitRegs (f : Frame) : List RegVal :=
  let w2 := f.words.getD 2 0
  [(BitVec.ofNat 32 (f.nfault + 2 ^ 16 * f.nkill), .n32), (BitVec.ofNat 32 w2, .n32), (BitVec.ofNat 32 (w2 / 2 ^ 32), .n32),
   (BitVec.ofNat 32 f.frec.addr, .n32)]

/-- AWAIT returns: its registers are written, the counts and FVALID are cleared, and the edges are received (01 R42;
12 R283, R296, R299). `d` is an allocation register. -/
def State.awaitReturn (s : State) (k : FrameRef) (d : Nat) : State :=
  match s.frames.get k with
  | none => s
  | some f =>
    let s1 := s.give k d (awaitRegs f)
    let s2 := s1.onFrame k fun f => { f with nfault := 0, nkill := 0, fvalid := false, awaiting := false }
    match f.stamp with
    | some st => s2.receive k st
    | none => s2.incoming (coreOf k)

/-- AWAIT (09 R238). -/
def execAwait (d : Reg) (s : State) : Host.Outcome State Fault Refusal :=
  runGroup (fun s is k t acc =>
    match operands s is.members t [] [(d.val, 4)] with
    | .error e => .error e
    | .ok _ =>
      if t.trapped then .error (.fault codeHandler 0)
      else
        match acc.frames.get k with
        | none => .ok (acc, .next)
        | some f =>
          if f.live = 0 then .ok (acc.awaitReturn k (t.index d.val), .next)
          else
            .ok ((acc.onThread k fun t => { t with run := .await false (t.index d.val) }).onFrame k fun f => { f with awaiting := true },
              .next)) s

/-- FRAMEINFO (09 R239). -/
def execFrameinfo (d : Reg) (w : Fin 8) (s : State) : Host.Outcome State Fault Refusal :=
  runGroup (regOp [] d.val 2 none fun s k _ _ =>
    splitRegs 2 ((s.frames.get k).elim 0 fun f => f.words.getD w.val 0) .w64) s

/-- BIN_TIMER_EXPIRE (01 R31): a bin whose timer has run out closes. -/
def execBinTimerExpire (core bin : Nat) (s : State) : Host.Outcome State Fault Refusal :=
  .next (s.onCore core fun c =>
    { c with bins := c.bins.update bin fun b =>
        if b.opened ∧ b.timer = 0 then { b with opened := false, order := s.cycle } else b })

/-- A thread as it is placed (01 R17, R32; 07 R165; 18 R379): its registers are those passed, and everything else is clear. -/
def Thread.placed (part lane cx pc alloc : Nat) (args : List RegVal) (check : Bool) (tid lgroup launch seq grid ctxid order : Nat) :
    Thread :=
  commitFrom
    { run := .ready, trapped := false, draining := false, susp := none, dying := false, stopping := none, part := part,
      lane := lane, cx := cx, pc := pc, regs := [], alloc := alloc, winbase := 0, writes := [], bank := [], pend := [], loads := [],
      gwins := [], phase := 0, wait := 0, stall := 0, held := false, check := check, tid := tid, lgroup := lgroup,
      launch := launch, seq := seq, grid := grid, winstat := 0, ctxid := ctxid, spawnSeq := order, members := 0, arrived := 0,
      resFirst := 0, resInst := 0, trapcode := 0, trapaddr := 0, trapinst := 0, resReplaced := false, hit := [],
      group := none, slot := none, issued := 0, stopAt := none, deferred := none } 0 args

/-- A frame as it is taken (01 R38, R39). -/
def Frame.taken (owner : Owner) (floor g part lane cx launch lgroup ctxid : Nat) : Frame :=
  { live := 0, nfault := 0, nkill := 0, owner := owner, fvalid := false, frec := FaultRec.none, fseq := 0, floor := floor,
    ocore := g, opart := part, olane := lane, octx := cx, exiting := false, awaiting := false, nextseq := 0, saveptr := 0,
    remote := 0, stamp := none, launch := launch, lgroup := lgroup, ctxid := ctxid, ended := none }

/-- The lanes of a partition that can take a thread of an allocation, lowest first (01 R32). -/
def State.lanesFor (s : State) (g part alloc : Nat) : List Nat :=
  (List.range Config.lanes).filter fun lane => (s.freeContext g part lane).isSome && alloc ≤ s.freeRegs g part lane

/-- A context's handler entry on a core is set from a thread's when the context has no resident thread there (07 R165). -/
def State.carryHandler (s : State) (g ctxid handler : Nat) : State :=
  if (s.threadsOf g).any fun (_, t) => t.resident && t.ctxid == ctxid then s
  else s.onCore g fun c => { c with handlers := c.handlers.put ctxid handler }

/-- The range slot of a range task as it is placed (01 R35). -/
def rangeSlot (k : FrameRef) (entry lo hi : Nat) (ch : Child) : RangeSlot :=
  { cur := lo, hi := hi, thread := k, entry := entry, args := ch.args, alloc := ch.alloc, stamp := ch.stamp }

/-- A child of a bin placed in a lane, as number i of its bin (01 R32, R35; 12 R299). A range task takes a free range slot, and
the spec does not say which: DESIGN CHOICE, the lowest index (log 54). -/
def State.placeChild (s : State) (g part lane alloc entry i : Nat) (ch : Child) : State :=
  let c := s.core g
  let cx := (s.freeContext g part lane).getD 0
  let idx := (s.freeFrames g 1).headD 0
  let k := Config.frameSpan * g + idx
  let slot := (List.range 32).find? fun j => (c.slots.get j).isNone
  let mine := if ch.range.isSome then slot else none
  let t := { Thread.placed part lane cx entry alloc ch.args ch.check i ch.lgroup ch.launch ch.ordinal ch.grid ch.ctxid c.spawnSeq
             with slot := mine }
  let f := Frame.taken (.child ch.parent ch.ordinal) (ch.stamp + 1) g part lane cx ch.launch ch.lgroup ch.ctxid
  let slots := match ch.range, mine with
    | some (lo, hi), some j => c.slots.put j (rangeSlot k entry lo hi ch)
    | _, _ => c.slots
  let s1 := s.setCore g { c with spawnSeq := c.spawnSeq + 1, slots := slots }
  { s1 with threads := s1.threads.put k t, frames := s1.frames.put k f }

/-- The children of a bin placed in lanes, in the order of their entry. -/
def State.placeAll (s : State) (g part alloc entry : Nat) : Nat → List Nat → List Child → State
  | i, lane :: lanes, ch :: rest => (s.placeChild g part lane alloc entry i ch).placeAll g part alloc entry (i + 1) lanes rest
  | _, _, _ => s

/-- The largest allocation that a child of a bin asks for (01 R32). -/
def Bin.alloc (b : Bin) : Nat := b.children.foldl (fun acc c => max acc c.alloc) 16

/-- A context runs: it is neither saving nor saved nor restoring. -/
def State.running (s : State) (ctx : Nat) : Bool := (s.ctx ctx).state == .running

/-- A readmission is pending on a core (01 R33). -/
def State.readmitting (s : State) (g : Nat) : Bool :=
  (s.threadsOf g).any fun (_, t) => t.susp == some .starved && s.running t.ctxid

/-- The partition in which a closed bin can be placed now (01 R32, R33, R35, R44). A bin waits while a readmission is pending,
but for the threads that the core, starved in this cycle too, is suspending one by one (log 27). -/
def State.binPlace (s : State) (g : Nat) (b : Bin) : Option Nat :=
  let c := s.core g
  let k := b.children.length
  let ranges := (b.children.filter fun ch => ch.range.isSome).length
  if !b.opened && !b.offered && s.running b.ctxid && s.hasFrames g k && ranges + c.slots.length ≤ 32
      && (c.starved || !s.readmitting g) then
    (List.range Config.parts).find? fun p => k ≤ (s.lanesFor g p b.alloc).length
  else none

/-- The closed bin that a record becomes on its core, keyed by its entry (01 R58). -/
def StealRec.bin (r : StealRec) (cycle : Nat) : Bin :=
  { entry := r.entry, ctxid := r.ctxid, opened := false, children := r.children, timer := 0, order := cycle, born := cycle,
    offered := false }

/-- Committed records of a core's inbound queue take free bins, oldest first; those of a context that is being saved stay in the
queue (01 R58, R59; 18 R390). -/
def State.binInbound (s : State) (g : Nat) : Nat → State
  | 0 => s
  | fuel + 1 =>
    let c := s.core g
    match c.inbound.find? fun x => x.committed && s.running x.record.ctxid, c.freeBin with
    | some x, some i =>
      State.binInbound (s.setCore g { c with bins := c.bins.put i (x.record.bin s.cycle),
                                             inbound := c.inbound.filter fun y => y.record.id != x.record.id }) g fuel
    | _, _ => s

/-- Free bins of a core go to the committed records that wait for one (01 R58). -/
def State.binWaiting (s : State) (g : Nat) : State := s.binInbound g 16

/-- The same on every core. -/
def State.binAllWaiting (s : State) : State := s.cores.keys.foldl State.binWaiting s

/-- BIN_PLACE (01 R32): a closed bin is placed whole, in the lowest-numbered partition that qualifies. Children of one bin that
carry different handler entries: the spec does not say whose is set where the context has no resident thread: DESIGN CHOICE, the
first child's (07 R165; log 59). -/
def execBinPlace (core bin : Nat) (s : State) : Host.Outcome State Fault Refusal :=
  match (s.core core).bins.get bin with
  | none => .next s
  | some b =>
    match s.binPlace core b with
    | none => .next s
    | some p =>
      let lanes := s.lanesFor core p b.alloc
      let s1 := s.carryHandler core b.ctxid ((b.children.head?).elim 0 Child.handler)
      let s2 := s1.placeAll core p b.alloc b.entry 0 lanes b.children
      .next (((s2.onCore core fun c => { c with bins := c.bins.del bin, starved := false, starve := 0, servedAt := some s.cycle }).binWaiting core).incoming core)

/-- A child's completion recorded in its parent frame (01 R41). -/
def Frame.completed (f : Frame) (ordinal : Nat) (c : Completion) : Frame :=
  let f1 := { f with live := f.live - 1, stamp := some (max c.stamp (f.stamp.getD 0)) }
  match c.kind with
  | .ok => f1
  | .killed => { f1 with nkill := min 0xFFFF (f1.nkill + 1) }
  | .fault =>
    if f1.fvalid then { f1 with nfault := min 0xFFFF (f1.nfault + 1) }
    else { f1 with nfault := min 0xFFFF (f1.nfault + 1), fvalid := true, frec := c.report, fseq := ordinal }

/-- A frame whose completion has been delivered is free (01 R20, R38). -/
def State.freeFrame (s : State) (k : FrameRef) : State :=
  (({ s with frames := s.frames.del k }).onCore (coreOf k) fun c => { c with evicted := c.evicted.del (indexOf k) }).applyHeld (coreOf k)

/-- The core that sends a completion (01 R41). -/
def Sender.gcore : Sender → Nat
  | .frame k => coreOf k
  | .core g => g

/-- The frame that sent a completion is free once it is delivered (01 R20). -/
def State.delivered (s : State) : Sender → State
  | .frame k => s.freeFrame k
  | .core _ => s

/-- What follows when LIVE of a frame may have reached 0 (01 R20, R21): an owner that has ended completes, one that waits
in EXIT ends, one that waits in AWAIT goes on. A suspended owner that waits in EXIT ends after it returns. -/
def State.liveZero (s : State) (k : FrameRef) : State :=
  match s.frames.get k with
  | none => s
  | some f =>
    if f.live ≠ 0 then s
    else if f.ended.isSome then s.finishFrame k
    else
      match s.threads.get k with
      | none => s
      | some t =>
        match t.run with
        | .await true _ => if t.resident then s.finishExit k else s
        | .await false d => (s.awaitReturn k d).wake k
        | _ => s

/-- A thread is back from a suspension: what fell due meanwhile and ends it does so (01 R20). One that its record has ended is gone. -/
def State.cameBack (s : State) (k : FrameRef) : State := if (s.threads.get k).isSome then (s.liveZero k).meetFailed k else s

/-- The distributor's entry of a child on another die (01 R61). -/
def State.remoteEntry (s : State) (parent : FrameRef) (ordinal : Nat) : Bool :=
  (s.dist (dieOf (coreOf parent))).children.any fun (p, o, _) => p == parent && o == ordinal

/-- A child's entry leaves the table of its parent's die, and REMOTE falls (01 R39, R61). -/
def State.dropRemote (s : State) (parent : FrameRef) (ordinal : Nat) : State :=
  if s.remoteEntry parent ordinal then
    (s.onDist (dieOf (coreOf parent)) fun d =>
      { d with children := d.children.filter fun (p, o, _) => !(p == parent && o == ordinal) }).onFrame parent
      fun f => { f with remote := f.remote - 1 }
  else s

/-- A completion applied to a parent frame (01 R41, R61). -/
def State.applyCompletion (s : State) (parent : FrameRef) (ordinal : Nat) (c : Completion) : State :=
  ((s.dropRemote parent ordinal).onFrame parent fun f => f.completed ordinal c).liveZero parent

/-- The first message that a test accepts, and the rest in their order. -/
def takeMsg (p : Msg → Bool) : List Msg → Option (Msg × List Msg)
  | [] => none
  | m :: rest =>
    if p m then some (m, rest)
    else
      match takeMsg p rest with
      | none => none
      | some (x, r) => some (x, m :: r)

/-- Of the messages that a test ranks, the one of lowest rank, the oldest among equals, and the rest in their order. -/
def takeLowest (rank : Msg → Option Nat) (l : List Msg) : Option (Msg × List Msg) :=
  match bestOf (fun a b => a < b) (l.filterMap rank) with
  | none => none
  | some r => takeMsg (fun m => rank m == some r) l

/-- A completion counts in its parent's frame unless the parent's die is lost; one from another die counts only while the table
lists the child, which after a loss has been completed as killed (01 R61). -/
def State.stillOwed (s : State) (parent : FrameRef) (ordinal : Nat) (sender : Sender) : Bool :=
  !(s.dist (dieOf (coreOf parent))).lost
    && (dieOf sender.gcore == dieOf (coreOf parent) || s.remoteEntry parent ordinal)

/-- COMPLETION (01 R41): of the completions on their way to a frame, that of the lowest sending core is applied, the oldest of
that core first, and the child's frame is free. -/
def execCompletion (key : Nat) (s : State) : Host.Outcome State Fault Refusal :=
  match takeLowest (fun m => match m with | .completion p _ _ x => if p = key then some x.gcore else none | _ => none) s.net with
  | some (.completion p o c x, rest) =>
    let s1 := ({ s with net := rest }).delivered x
    .next (if s1.stillOwed p o x then s1.applyCompletion p o c else s1)
  | _ => .next s

/-- The most recently spawned thread of a core in waiting-grow or waiting-await, of a running context (01 R56). -/
def State.starveVictim (s : State) (g : Nat) : Option (FrameRef × Thread) :=
  bestOf (fun x y => y.2.spawnSeq < x.2.spawnSeq) ((s.threadsOf g).filter fun (_, t) =>
    t.resident && t.quiet && t.boundary && s.running t.ctxid && (match t.run with | .grow _ => true | .await _ _ => true | _ => false))

/-- STARVE (01 R56, 18 R388): a starved core suspends one thread. With none left to suspend the core is resolved as far as it can
be, and its threads may be readmitted (log 27). -/
def execStarve (core : Nat) (s : State) : Host.Outcome State Fault Refusal :=
  let c := s.core core
  if c.starve < 1024 then .next s
  else
    let s1 := s.setCore core { c with starve := 1023, starved := true }
    match s1.starveVictim core with
    | none => .next (s.setCore core { c with starve := 0, starved := false })
    | some (k, t) =>
      match s1.poolAlloc t.ctxid (recordSize t.alloc) with
      | none => .next ((s1.onCore core fun c => { c with poolWait := true }).countAt core 18)
      | some a => .next ((s1.suspend k a .starved).regrant [(k, t)])

/-- A suspended thread returns to its lane. It may return to another context of it (01 R17), and the spec does not say to which:
DESIGN CHOICE, the lane's lowest free one (01 R56; log 54). -/
def State.unsuspend (s : State) (k : FrameRef) : State :=
  match s.threads.get k with
  | none => s
  | some t =>
    let cx := (s.freeContext (coreOf k) t.part t.lane).getD 0
    let s1 := s.onThread k fun t => { t with susp := none, cx := cx, wait := 0, stall := s.cycle + max 1 t.stall }
    ((s1.onFrame k fun f => { f with octx := cx }).poolReleased k).incoming (coreOf k)

/-- A thread can be readmitted now (01 R56 step 3): in spawn order within its lane. A core that is suspending threads readmits none,
but one that cannot, its pool being full (18 R388; log 27). -/
def State.canReadmit (s : State) (k : FrameRef) (t : Thread) : Bool :=
  let g := coreOf k
  t.susp == some .starved && s.running t.ctxid && (!(s.core g).starved || (s.core g).poolWait)
    && (s.freeContext g t.part t.lane).isSome && t.alloc ≤ s.freeRegs g t.part t.lane
    && !((s.threadsOf g).any fun (_, x) =>
      x.susp == some .starved && x.part == t.part && x.lane == t.lane && x.spawnSeq < t.spawnSeq)

/-- READMIT (01 R56): a thread suspended by the starvation rule is readmitted when its lane can hold it. -/
def execReadmit (key : Nat) (s : State) : Host.Outcome State Fault Refusal :=
  match s.threads.get key with
  | none => .next s
  | some t =>
    if s.canReadmit key t then 
      .next ((((s.unsuspend key).onCore (coreOf key) fun c => { c with servedAt := some s.cycle }).cameBack key).regrant [(key, t)])
    else .next s

end Sys2Proof.Machine
end

