-- ==== Sys2Proof/Machine/FutureOps.lean ====
section
/-! DEFINITION. The future table and its instructions: opcodes 0x6A and 0x6B (01 R45, R46; 09 R240 to R242). -/

namespace Sys2Proof.Machine

/-- Entries of the future table. -/
def futureCount : Nat := 2 ^ 24

def State.future (s : State) (i : Nat) : Future := s.futures.getD i Future.reset

/-- The lowest-numbered freed entry at or above i, over a table in rising order (01 R45). -/
def lowestFreed (i : Nat) : Tbl Future → Nat
  | [] => i
  | (k, f) :: rest => if k = i then (if f.state.isNone then i else lowestFreed (i + 1) rest) else i

/-- The entry that a handle names, or none for a stale handle (09 R240). -/
def State.handleEntry (s : State) (h : Nat) : Option (Nat × Future) :=
  let i := h % 2 ^ 24
  let f := s.future i
  if h / 2 ^ 24 = 0 ∨ f.gen ≠ h / 2 ^ 24 ∨ f.state.isNone then none else some (i, f)

/-- A number with tag N32. -/
def n32 (v : Nat) : RegVal := (BitVec.ofNat 32 v, .n32)

/-- The four registers of FGET and FPOLL (09 R242). -/
def futureRegs (v : Nat) (status : Nat) : List RegVal := splitRegs 2 v .raw ++ [n32 status, n32 0]

/-- FNEW and FNEW.WAIT (09 R241): the lowest freed entry becomes empty with its next generation. -/
def fnewOp (d : Reg) (wait : Bool) : Member := fun s is k t acc =>
  match operands s is.members t [] [(d.val, 2)] with
  | .error e => .error e
  | .ok _ =>
    if wait && t.trapped then .error (.fault codeHandler 0)
    else
      let i := lowestFreed 0 acc.futures
      if futureCount ≤ i then
        if wait then .error .hold else .ok (acc.onThread k fun t => t.putAll d.val [n32 0, n32 4] none, .next)
      else
        let gen := if (acc.future i).gen = 255 then 1 else (acc.future i).gen + 1
        let acc1 := { acc with futures := acc.futures.put i { gen := gen, state := some none, waiters := [], stamp := 0 } }
        .ok (acc1.onThread k fun t => t.putAll d.val [n32 (gen * 2 ^ 24 + i), n32 0] none, .next)

/-- FNEW. -/
def execFnew (d : Reg) (s : State) : Host.Outcome State Fault Refusal := runGroup (fnewOp d false) s
/-- FNEW.WAIT. -/
def execFnewWait (d : Reg) (s : State) : Host.Outcome State Fault Refusal := runGroup (fnewOp d true) s

/-- The register that a waiter's result goes to. -/
def Thread.futureDest (t : Thread) : Nat :=
  match t.run with
  | .future _ d => d
  | _ => 0

/-- A waiter of an entry is released with a value and a status; an OK return receives the setter's edge (09 R242; 12 R283). -/
def State.releaseWaiter (s : State) (k : FrameRef) (v status stamp : Nat) : State :=
  match s.threads.get k with
  | none => s
  | some t =>
    let s1 := s.give k t.futureDest (futureRegs v status)
    (if status = 0 then s1.receive k stamp else s1).wake k

/-- FSET (09 R241): the setter's edge goes out before the value reaches the entry. -/
def execFset (d a b : Reg) (s : State) : Host.Outcome State Fault Refusal :=
  runGroup (fun s is k t acc =>
    match operands s is.members t [ownSrc a 1 (some tagsInt), ownSrc b 2 none] [(d.val, 1)] with
    | .error e => .error e
    | .ok v =>
      let acc1 := acc.outgoing k
      let put := fun (s : State) (status : Nat) => s.onThread k fun t => t.putAll d.val [n32 status] none
      match acc1.handleEntry (argW v 0).toNat with
      | none => .ok (put acc1 2, .next)
      | some (i, f) =>
        if f.state ≠ some none then .ok (put acc1 3, .next)
        else
          let stamp := acc1.timeOf k
          let f' : Future := { f with state := some (some (BitVec.ofNat 64 (argN v 1))), waiters := [], stamp := stamp }
          let acc2 := { acc1 with futures := acc1.futures.put i f' }
          .ok (put (f.waiters.foldl (fun s w => s.releaseWaiter w (argN v 1) 0 stamp) acc2) 0, .next)) s

/-- FFREE (09 R241): waiters are released with STALE_HANDLE. -/
def execFfree (d a : Reg) (s : State) : Host.Outcome State Fault Refusal :=
  runGroup (fun s is k t acc =>
    match operands s is.members t [ownSrc a 1 (some tagsInt)] [(d.val, 1)] with
    | .error e => .error e
    | .ok v =>
      let put := fun (s : State) (status : Nat) => s.onThread k fun t => t.putAll d.val [n32 status] none
      match acc.handleEntry (argW v 0).toNat with
      | none => .ok (put acc 2, .next)
      | some (i, f) =>
        let acc1 := { acc with futures := acc.futures.put i { gen := f.gen, state := none, waiters := [], stamp := 0 } }
        .ok (put (f.waiters.foldl (fun s w => s.releaseWaiter w 0 2 0) acc1) 0, .next)) s

/-- FGET and FPOLL (09 R242). -/
def fgetOp (d a : Reg) (wait : Bool) : Member := fun s is k t acc =>
  match operands s is.members t [ownSrc a 1 (some tagsInt)] [(d.val, 4)] with
  | .error e => .error e
  | .ok v =>
    let h := (argW v 0).toNat
    let put := fun (s : State) (x status : Nat) => s.onThread k fun t => t.putAll d.val (futureRegs x status) none
    if wait && t.trapped then .error (.fault codeHandler 0)
    else
      match acc.handleEntry h with
      | none => .ok (put acc 0 2, .next)
      | some (i, f) =>
        match f.state with
        | some (some x) => .ok ((put acc x.toNat 0).receive k f.stamp, .next)
        | _ =>
          if wait then
            .ok (({ acc with futures := acc.futures.put i { f with waiters := f.waiters ++ [k] } }).onThread k fun t =>
              { t with run := .future h (t.index d.val) }, .next)
          else .ok (put acc 0 1, .next)

/-- FGET. -/
def execFget (d a : Reg) (s : State) : Host.Outcome State Fault Refusal := runGroup (fgetOp d a true) s
/-- FPOLL. -/
def execFpoll (d a : Reg) (s : State) : Host.Outcome State Fault Refusal := runGroup (fgetOp d a false) s

end Sys2Proof.Machine
end

