-- ==== Sys2Proof/Machine/GrainOps.lean ====
section
/-! DEFINITION. Grain blocks, GWIN and GDEC: opcodes 0x70 and 0x71 (03 R88 to R90; 10 R259 to R261). -/

namespace Sys2Proof.Machine

/-- Bits and bytes of a Grain stream (03 R88, R89). -/
def grainBits : GMode → Nat
  | .g1 => 256
  | .g15 => 384

def grainBytes : GMode → Nat
  | .g1 => 32
  | .g15 => 48

/-- o(i) of 03 R88. -/
def grainOffset (m : GMode) (i : Nat) : Nat :=
  match m with
  | .g1 => i
  | .g15 => i + i / 2

/-- q of 03 R90 for a window of 16 stream bits. -/
def grainQ (w : Nat) : Int :=
  let m := (w * 0xB5A3 + 0x3C61) % 2 ^ 16
  ((m % 16 + m / 16 % 16 + m / 256 % 16 + m / 4096 : Nat) : Int) - 30

/-- The window of weight i in a stream read as a number, bit k of weight 2^k (03 R88, R90). -/
def grainWindow (m : GMode) (stream i : Nat) : Nat :=
  let n := grainBits m
  ((List.range 16).map fun j => stream / 2 ^ ((grainOffset m i + j) % n) % 2 * 2 ^ j).sum

/-- The value of weight i of a block (03 R90); a zero is +0. -/
def grainValue (m : GMode) (stream scale i : Nat) : Machine.Num :=
  let v := Num.mul (Num.ofInt (grainQ (grainWindow m stream i)) (-3)) (s10Decode scale)
  if v.isZero then .fin false 0 0 else v

/-- A thread's read of n bytes of g from any address, in pieces that lie each in one line; one that begins at or beyond 2^57 is
BAD_ADDR (09 R205), and the fault address is that of the access. -/
def State.globBytes (s : State) (k : FrameRef) (t : Thread) (va n : Nat) : State × Except Stop (List Byte) :=
  (pieces va n).foldl (fun (acc : State × Except Stop (List Byte)) (a, m) =>
    match acc.2 with
    | .error e => (acc.1, .error e)
    | .ok bs =>
      if 2 ^ 57 ≤ a then (acc.1, .error (.fault 0x0030 va))
      else
      match acc.1.globLoad k t a m with
      | (s1, .error (.fault c _)) => (s1, .error (.fault c va))
      | (s1, .error e) => (s1, .error e)
      | (s1, .ok more) => (s1, .ok (bs ++ more))) (s, .ok [])

/-- GWIN (10 R260). -/
def execGwin (mode : GMode) (w : Fin 8) (a b : Reg) (s : State) : Host.Outcome State Fault Refusal :=
  runGroup (fun s is k t acc =>
    match operands s is.members t [ownSrc a 4 (some tagsAddr), ownSrc b 1 (some tagsInt)] [] with
    | .error e => .error e
    | .ok v =>
      let group := argN v 0
      let j := (argW v 1).toNat
      let n := grainBytes mode
      let va := (group % 2 ^ 64 + n * j) % 2 ^ 64
      let sa := (group / 2 ^ 64 + 10 * j / 8) % 2 ^ 64
      if t.gwins.any (fun q => q.w == w.val) then .error .hold
      else if t.trapped then .error (.fault codeHandler 0)
      else if 2 ^ 57 ≤ va then .error (.fault 0x0030 va)
      else if va % 16 ≠ 0 then .error (.fault 0x0045 va)
      else
        match acc.globBytes k t va n with
        | (acc1, .error e) => acc1.fails is k e
        | (acc1, .ok stream) =>
          if 2 ^ 57 ≤ sa then acc1.fails is k (.fault 0x0030 sa)
          else
            match acc1.globBytes k t sa 2 with
            | (acc2, .error e) => acc2.fails is k e
            | (acc2, .ok sc) =>
              let scale := leNat sc / 2 ^ (10 * j % 8) % 2 ^ 10
              let (id, acc3) := acc2.fresh
              .ok (acc3.onThread k fun t => { t with gwins := t.gwins ++ [⟨id, w.val, mode, stream, scale⟩] }, .next)) s

/-- GWIN_COMPLETE (10 R260): the window register of the thread's partition takes the block. -/
def execGwinComplete (key id : Nat) (s : State) : Host.Outcome State Fault Refusal :=
  match s.threads.get key with
  | none => .next s
  | some t =>
    match t.gwins.find? fun q => q.id == id with
    | none => .next s
    | some q =>
      let s1 := s.onThread key fun t => { t with gwins := t.gwins.filter fun x => x.id != id }
      let win : GrainWin := ⟨q.stream, q.scale, q.mode⟩
      .next ((s1.onCore (coreOf key) fun c => { c with wins := c.wins.put (8 * t.part + q.w) win }).drain key)

/-- GDEC (10 R261). -/
def execGdec (d a : Reg) (w : Fin 8) (s : State) : Host.Outcome State Fault Refusal :=
  runGroup (regOpE [ownSrc a 1 (some tagsInt)] d.val 1 none (fun _ _ => true) fun s k t v =>
    if t.gwins.any (fun q => q.w == w.val) then .error .hold
    else
      match (s.core (coreOf k)).wins.get (8 * t.part + w.val) with
      | none => .error (.fault 0x0046 0)
      | some g => .ok [(exactF32 (grainValue g.mode (leNat g.stream) g.scale ((argW v 0).toNat % 256)), .f32)]) s

end Sys2Proof.Machine
end

