-- ==== Sys2Proof/Machine/MatrixEngine.lean ====
section
/-! DEFINITION. The matrix engine: sign meets, tile operations and slot commands: opcodes 0x6C to 0x6F (03 R91 to R93; 10 R248
to R258). -/

namespace Sys2Proof.Machine

/-- Width of an engine format (10 R248). -/
def engWidth : Nat → Nat
  | 0 | 1 => 16
  | 2 | 3 | 7 => 8
  | 4 | 5 => 6
  | 6 | 8 => 4
  | _ => 32

/-- The floating format of an engine format code. -/
def engFloat : Nat → FloatFmt
  | 0 => .fp16
  | 1 => .bf16
  | 2 => .e4m3
  | 3 => .e5m2
  | 4 => .e3m2
  | 5 => .e2m3
  | 6 => .e2m1
  | _ => .fp32

/-- The value of an element of an engine format (03 R77, R78). -/
def engNum (fmt c : Nat) : Machine.Num :=
  if fmt = 7 ∨ fmt = 8 then Num.ofInt (signExt c (engWidth fmt)) 0 else (engFloat fmt).decode c

/-- An operand of a descriptor: its offset and core selector. -/
structure TileRef where
  off : Nat
  sel : Nat
  deriving DecidableEq, Repr

/-- A tile-op descriptor (10 R250). -/
structure TileDesc where
  afmt : Nat
  bfmt : Nat
  gmode : Nat
  iacc : Bool
  slot : Nat
  queue : Nat
  m : Nat
  n : Nat
  k : Nat
  kskip : Nat
  a : TileRef
  astride : Nat
  b : TileRef
  bstride : Nat
  sa : Option TileRef
  sb : Option TileRef
  gsc : TileRef
  deriving DecidableEq, Repr

/-- The offset and selector of an operand word. -/
def tileRef (w : Nat) : TileRef := ⟨bitsOf w 17 0, bitsOf w 20 18⟩

/-- The fields of a descriptor's bytes (10 R250). -/
def tileDesc (d : List Byte) : TileDesc :=
  let w := fun (i : Nat) => recNat d (4 * i) 4
  { afmt := bitsOf (w 0) 3 0, bfmt := bitsOf (w 0) 7 4, gmode := bitsOf (w 0) 8 8, iacc := testBit (w 0) 9,
    slot := bitsOf (w 0) 15 10, queue := bitsOf (w 0) 19 16, m := bitsOf (w 1) 6 0 + 1, n := bitsOf (w 1) 14 8 + 1,
    k := bitsOf (w 1) 26 16 + 1, kskip := bitsOf (w 2) 15 0, a := tileRef (w 3), astride := bitsOf (w 4) 17 0,
    b := tileRef (w 5), bstride := bitsOf (w 6) 17 0, sa := if testBit (w 7) 21 then some (tileRef (w 7)) else none,
    sb := if testBit (w 8) 21 then some (tileRef (w 8)) else none, gsc := tileRef (w 9) }

/-- The bits of a descriptor that must be 0 (10 R250). -/
def tileReserved (d : List Byte) : Nat :=
  let w := fun (i : Nat) => recNat d (4 * i) 4
  bitsOf (w 0) 31 20 + bitsOf (w 1) 7 7 + bitsOf (w 1) 15 15 + bitsOf (w 1) 31 27 + bitsOf (w 2) 31 16 + bitsOf (w 3) 31 21
    + bitsOf (w 4) 31 18 + bitsOf (w 5) 31 21 + bitsOf (w 6) 31 18 + bitsOf (w 7) 31 22 + bitsOf (w 8) 31 22
    + bitsOf (w 9) 31 21 + recNat d 40 24

/-- K-steps of a descriptor (10 R251). -/
def TileDesc.steps (d : TileDesc) : Nat := ceilDiv d.k 128

/-- The K-steps that are not skipped, ascending. -/
def TileDesc.live (d : TileDesc) : List Nat := (List.range d.steps).filter fun s => !testBit d.kskip s

/-- Grain mode of a descriptor. -/
def TileDesc.grain (d : TileDesc) : GMode := if d.gmode = 0 then .g1 else .g15

/-- One past the last K position of a step. -/
def TileDesc.kEnd (d : TileDesc) (s : Nat) : Nat := min d.k (128 * s + 128)

/-- One past the last byte read of a dense operand whose rows start `stride` apart, over the live steps. -/
def TileDesc.denseEnd (d : TileDesc) (off stride rows w : Nat) : Nat :=
  match d.live.getLast? with
  | none => 0
  | some s => off + (rows - 1) * stride + ceilDiv (d.kEnd s * w) 8

/-- One past the last byte of the Grain streams and scales read: the highest block of the last live step. -/
def TileDesc.grainEnds (d : TileDesc) : Nat × Nat :=
  match d.live.getLast? with
  | none => (0, 0)
  | some s =>
    let b := 64 * s + (d.n - 1) / 2
    (d.b.off + grainBytes d.grain * (b + 1), d.gsc.off + ceilDiv (10 * b + 10) 8)

/-- A descriptor that 10 R252 refuses, judged for the signing thread. -/
def tileInvalid (s : State) (k : FrameRef) (t : Thread) (bytes : List Byte) : Bool :=
  let d := tileDesc bytes
  let isInt := fun (f : Nat) => f == 7 || f == 8
  let bad := fun (r : TileRef) => (selectCore s k t r.sel).isNone
  let grain := d.bfmt == 9
  tileReserved bytes != 0 || 8 < d.afmt || 9 < d.bfmt || (!grain && d.gmode != 0) || (grain && d.bstride != 0)
    || (!grain && d.gsc.off != 0)
    || d.a.off % 16 != 0 || d.astride % 16 != 0 || d.b.off % 16 != 0 || d.bstride % 16 != 0
    || d.sa.any (fun r => r.off % 4 != 0) || d.sb.any (fun r => r.off % 4 != 0)
    || (bitsOf (recNat bytes 28 4) 17 0) % 4 != 0 || (bitsOf (recNat bytes 32 4) 17 0) % 4 != 0
    || d.astride < ceilDiv (d.k * engWidth d.afmt) 8 || (!grain && d.bstride < ceilDiv (d.k * engWidth d.bfmt) 8)
    || d.kskip / 2 ^ d.steps != 0
    || (d.iacc && (!isInt d.afmt || !isInt d.bfmt || d.sa.isSome || d.sb.isSome))
    || bad d.a || bad d.b || d.sa.any bad || d.sb.any bad || (grain && bad d.gsc)
    || Config.spadSize < d.denseEnd d.a.off d.astride d.m (engWidth d.afmt)
    || (if grain then Config.spadSize < d.grainEnds.1 || Config.spadSize < d.grainEnds.2
        else Config.spadSize < d.denseEnd d.b.off d.bstride d.n (engWidth d.bfmt))
    || d.sa.any (fun r => Config.spadSize < r.off + 4 * d.m * d.steps)
    || d.sb.any (fun r => Config.spadSize < r.off + 4 * d.steps)

/-- MSIGN (10 R253). Whether a signature whose descriptor names another core's scratchpad is the signer's access to it under 01 R53 is
not stated (09 R206 speaks of any access, R227 of a copy): DESIGN CHOICE, it is none, the engine making the accesses (log 66). -/
def execMsign (d a : Reg) (m : Fin 32) (s : State) : Host.Outcome State Fault Refusal :=
  runGroup (fun s is k t acc =>
    match operands s is.members t [ownSrc a 1 (some tagsAddr)] [(d.val, 1)] with
    | .error e => .error e
    | .ok v =>
      let e := (argW v 0).toNat
      let g := coreOf k
      if t.trapped then .error (.fault codeHandler 0)
      else if Config.spadSize ≤ e then .error (.fault 0x0031 e)
      else if e % 64 ≠ 0 then .error (.fault 0x0040 e)
      else
        match arriveFault (acc.meet g m.val) t m.val [.sign] with
        | some c => .error (.fault c 0)
        | none =>
          match (acc.meet g m.val).bind Meet.err with
          | some c => .error (.fault c e)
          | none =>
            let x := (acc.meet g m.val).getD (Meet.fresh .sign)
            let acc1 := acc.outgoing k
            match acc1.checkedRead (.spad g) e 64 with
            | (acc2, none) => acc2.fails is k (.fault codeMemUe e)
            | (_, some desc) =>
            let fills := x.arrivals + 1 = x.members
            if tileInvalid acc1 k t desc then acc1.fails is k (.fault 0x0040 e)
            else if !x.desc.isEmpty ∧ x.desc ≠ desc then
              (acc1.meetError g m.val 0x0041).fails is k (.fault 0x0041 e)
            else if fills ∧ !acc1.queueRoom (clusterOf g) (descQueue desc) then .error .hold
            else
              let stamp := acc1.timeOf k
              let sign := fun (x : Meet) =>
                { x with desc := desc, far := if x.desc.isEmpty then facing acc1 k t else x.far,
                         launch := if x.desc.isEmpty then t.launch else x.launch,
                         arrivals := x.arrivals + 1, stamp := max x.stamp stamp }
              let acc2 := acc1.onThread k fun t => { t.putAll d.val [phaseReg x.phase] none with arrived := setBit t.arrived m.val }
              .ok ((acc2.onMeet g m.val sign).checkMeet g m.val, .next)) s

/-- SIGN_ENQUEUE (10 R253). -/
def execSignEnqueue (core meet : Nat) (s : State) : Host.Outcome State Fault Refusal := .next (s.signEnqueue core meet)

/-- A command entered in a queue, with its thread waiting (10 R256 to R258). -/
def State.command (s : State) (k : FrameRef) (t : Thread) (q : Nat) (op : EngOp) : State :=
  let e : EngEntry := { op := op, gcore := coreOf k, far := none, meet := 0, waiter := some k, step := 0, begun := false,
                        stamp := s.timeOf k, launch := t.launch }
  ((s.landStores k).enqueue (clusterOf (coreOf k)) q e).onThread k fun t => { t with run := .engine .command }

/-- MZERO (10 R256). -/
def execMzero (mode : IMode) (q : Fin 16) (slot : Fin 64) (s : State) : Host.Outcome State Fault Refusal :=
  runGroup (fun _ _ k t acc =>
    if !acc.queueRoom (clusterOf (coreOf k)) q.val then .error .hold
    else if t.trapped then .error (.fault codeHandler 0)
    else .ok (acc.command k t q.val (.zero slot.val mode), .next)) s

/-- Output formats of MSTORE: every code but Grain and the unassigned (10 R248). -/
def storeFmt (f : Nat) : Bool := f ≤ 11 && f != 9

/-- MSTORE (10 R257). -/
def execMstore (d a b : Reg) (sat : Bool) (r : Rnd) (s : State) : Host.Outcome State Fault Refusal :=
  runGroup (fun s is k t acc =>
    match operands s is.members t [ownSrc a 1 (some tagsAddr), ownSrc b 1 (some tagsInt), ownSrc d 1 (some tagsInt)] [] with
    | .error e => .error e
    | .ok v =>
      let e := (argW v 0).toNat
      let c := (argW v 1).toNat
      let st := (argW v 2).toNat
      let fmt := bitsOf c 13 10
      let rows := bitsOf c 20 14 + 1
      let row := ceilDiv ((bitsOf c 27 21 + 1) * engWidth fmt) 8
      if t.trapped then .error (.fault codeHandler 0)
      else if Config.spadSize ≤ e then .error (.fault 0x0031 e)
      else if bitsOf c 31 28 ≠ 0 ∨ !storeFmt fmt then .error (.fault 0x0043 e)
      else if sat ∧ fmt ≠ 0 ∧ fmt ≠ 1 ∧ fmt ≠ 3 then .error (.fault 0x0043 e)
      else if e % 16 ≠ 0 ∨ st % 16 ≠ 0 ∨ st < row then .error (.fault 0x0043 e)
      else if Config.spadSize < e + (rows - 1) * st + row then .error (.fault 0x0031 e)
      else if !acc.queueRoom (clusterOf (coreOf k)) (bitsOf c 9 6) then .error .hold
      else .ok (acc.command k t (bitsOf c 9 6) (.store (bitsOf c 5 0) e c st r sat), .next)) s

/-- MSCALE (10 R258). -/
def execMscale (a b : Reg) (s : State) : Host.Outcome State Fault Refusal :=
  runGroup (fun s is k t acc =>
    match operands s is.members t [ownSrc a 1 (some tagsAddr), ownSrc b 1 (some tagsInt)] [] with
    | .error e => .error e
    | .ok v =>
      let e := (argW v 0).toNat
      let c := (argW v 1).toNat
      if t.trapped then .error (.fault codeHandler 0)
      else if Config.spadSize ≤ e then .error (.fault 0x0031 e)
      else if bitsOf c 31 11 ≠ 0 then .error (.fault 0x0043 e)
      else if e % 16 ≠ 0 then .error (.fault 0x0043 e)
      else if Config.spadSize < e + 512 then .error (.fault 0x0031 e)
      else if !acc.queueRoom (clusterOf (coreOf k)) (bitsOf c 9 6) then .error .hold
      else .ok (acc.command k t (bitsOf c 9 6) (.scale (bitsOf c 5 0) e (testBit c 10)), .next)) s

/-- An accumulator slot of a cluster. -/
def Cluster.slot (c : Cluster) (i : Nat) : AccSlot := c.slots.getD i AccSlot.reset

/-- Element (m, n) of a slot. -/
def AccSlot.at_ (a : AccSlot) (m n : Nat) : Word := a.elems.getD (128 * m + n) 0

/-- Sets an element of a slot. -/
def AccSlot.set_ (a : AccSlot) (m n : Nat) (v : Word) : AccSlot := { a with elems := a.elems.putD (128 * m + n) v 0 }

/-- Changes every element of some rows and columns. -/
def AccSlot.change (a : AccSlot) (rows cols : Nat) (f : Nat → Nat → Word → Word) : AccSlot :=
  (List.range (rows * cols)).foldl (fun acc i => acc.set_ (i / cols) (i % cols) (f (i / cols) (i % cols) (a.at_ (i / cols) (i % cols)))) a

/-- The scratchpad that an operand of a cluster's tile operation names (10 R206, R250). -/
def tileCore (cl : Nat) (far : Option Nat) (r : TileRef) : Nat :=
  coreOfCluster (if r.sel < 4 then cl else far.getD cl) (r.sel % 4)

/-- The bytes of that scratchpad. -/
def State.tileSpad (s : State) (cl : Nat) (far : Option Nat) (r : TileRef) : Tbl Byte := (s.core (tileCore cl far r)).spad

/-- A(m, k) of 10 R251. -/
def State.tileA (s : State) (cl : Nat) (far : Option Nat) (d : TileDesc) (m k : Nat) : Machine.Num :=
  let w := engWidth d.afmt
  engNum d.afmt (readBits (s.tileSpad cl far d.a) (d.a.off + m * d.astride) (w * k) w)

/-- B(k, n) of 10 R251. -/
def State.tileB (s : State) (cl : Nat) (far : Option Nat) (d : TileDesc) (k n : Nat) : Machine.Num :=
  if d.bfmt = 9 then
    let b := 64 * (k / 128) + n / 2
    let stream := readNat (s.tileSpad cl far d.b) (d.b.off + grainBytes d.grain * b) (grainBytes d.grain)
    grainValue d.grain stream (readBits (s.tileSpad cl far d.gsc) d.gsc.off (10 * b) 10) (128 * (n % 2) + k % 128)
  else
    let w := engWidth d.bfmt
    engNum d.bfmt (readBits (s.tileSpad cl far d.b) (d.b.off + n * d.bstride) (w * k) w)

/-- A row scale or a tile scale: the FP32 at a position of its array, or 1.0 (03 R91, 10 R251). -/
def State.tileScale (s : State) (cl : Nat) (far : Option Nat) (r : Option TileRef) (i : Nat) : Nat :=
  match r with
  | none => 0x3F800000
  | some r => readNat (s.tileSpad cl far r) (r.off + 4 * i) 4

/-- The exact sum of a K-step's products (03 R91, R92). -/
def State.tileSum (s : State) (cl : Nat) (far : Option Nat) (d : TileDesc) (step m n : Nat) : Machine.Num :=
  ((span (128 * step) (d.kEnd step - 128 * step)).map fun k => Num.mul (s.tileA cl far d m k) (s.tileB cl far d k n)).foldl
    (Num.add false) (.fin false 0 0)

/-- An integer sum of a K-step (03 R93). -/
def numInt (x : Machine.Num) : Int := x.scaled 0

/-- One K-step applied to a slot (03 R91, R93). -/
def State.tileStep (s : State) (cl : Nat) (far : Option Nat) (d : TileDesc) (step : Nat) (a : AccSlot) : AccSlot :=
  let f := FloatFmt.fp32
  a.change d.m d.n fun m n old =>
    let p := s.tileSum cl far d step m n
    if d.iacc then old + BitVec.ofInt 32 (numInt p)
    else
      let g := f.mulOp .rn false (s.tileScale cl far d.sa (m * d.steps + step)) (s.tileScale cl far d.sb step)
      let p' := f.mulOp .rn false (f.round RMode.rn false p) g
      BitVec.ofNat 32 (f.addOp .rn false old.toNat p')

/-- An element of a slot as MSTORE reads it (10 R257). -/
def slotNum (mode : IMode) (x : Word) : Machine.Num :=
  match mode with
  | .f32 => f32 x
  | .s32 => Num.ofInt x.toInt 0

/-- The code that MSTORE writes for an element (10 R257; 03 R85 to R87). FP32 of an FP32 slot and S32 of an S32 slot are
exact. -/
def storeCode (fmt : Nat) (r : RMode) (sat : Bool) (mode : IMode) (x : Word) : Nat :=
  if (fmt = 10 ∧ mode = .f32) ∨ (fmt = 11 ∧ mode = .s32) then x.toNat
  else
    match fmt with
    | 7 => wrap (roundInt r (-128) 127 (slotNum mode x)) 8
    | 8 => wrap (roundInt r (-8) 7 (slotNum mode x)) 4
    | 11 => wrap (roundInt r (-(2 ^ 31)) (2 ^ 31 - 1) (slotNum mode x)) 32
    | _ => (engFloat fmt).round r sat (slotNum mode x)

/-- A row of MSTORE as bytes: the elements packed, and the bits beyond them 0 (10 R257). -/
def storeRow (a : AccSlot) (m cols fmt : Nat) (r : Rnd) (sat : Bool) : List Byte :=
  let w := engWidth fmt
  let v := ((List.range cols).map fun n => storeCode fmt (RMode.at r (n % 32) a.phase) sat a.mode (a.at_ m n) * 2 ^ (w * n)).sum
  leBytes (ceilDiv (cols * w) 8) v

/-- The slot that an entry uses. -/
def EngEntry.slot (e : EngEntry) : Nat :=
  match e.op with
  | .tile d => (tileDesc d).slot
  | .zero n _ => n
  | .store n _ _ _ _ _ => n
  | .scale n _ _ => n

/-- The queue of a cluster that the rotation serves next, with its head entry (10 R255). -/
def Cluster.nextTurn (c : Cluster) : Option (Nat × EngEntry) :=
  let held := fun (q slot : Nat) => c.queues.any fun (j, l) => j != q && (l.head?).any fun e => e.begun && e.slot == slot
  ((List.range 16).map fun i => (c.rotor + i) % 16).findSome? fun q =>
    match (c.queues.getD q []).head? with
    | none => none
    | some e => if held q e.slot then none else some (q, e)

/-- The head of a queue changes, or leaves. -/
def State.onHeadEntry (s : State) (cl q : Nat) (e : Option EngEntry) : State :=
  s.onCluster cl fun c =>
    let rest := (c.queues.getD q []).drop 1
    let l := match e with
      | some e => e :: rest
      | none => rest
    { c with queues := c.queues.putD q l [], rotor := (q + 1) % 16 }

/-- Changes a slot of a cluster. -/
def State.setSlot (s : State) (cl i : Nat) (a : AccSlot) : State := s.onCluster cl fun c => { c with slots := c.slots.put i a }

/-- A waiting thread goes on when its command's turn is done. -/
def State.release (s : State) (w : Option FrameRef) : State :=
  match w with
  | none => s
  | some k =>
    match s.threads.get k with
    | some t => if t.run = .engine .command then s.wake k else s
    | none => s

/-- The bytes that a K-step reads: for each piece its operand, offset and length (10 R250, R251). -/
def TileDesc.reads (d : TileDesc) (step : Nat) : List (TileRef × Nat × Nat) :=
  let ks := d.kEnd step - 128 * step
  let row := fun (r : TileRef) (w stride i : Nat) => (r, r.off + i * stride + w * (128 * step) / 8, (w * ks + 7) / 8)
  let bs := if d.bfmt = 9 then
      (List.range ((d.n + 1) / 2)).flatMap fun i =>
        let b := 64 * step + i
        [(d.b, d.b.off + grainBytes d.grain * b, grainBytes d.grain),
         (d.gsc, d.gsc.off + 10 * b / 8, (10 * b % 8 + 10 + 7) / 8)]
    else (List.range d.n).map (row d.b (engWidth d.bfmt) d.bstride)
  (List.range d.m).map (row d.a (engWidth d.afmt) d.astride) ++ bs
    ++ d.sa.elim [] (fun r => (List.range d.m).map fun i => (r, r.off + 4 * (i * d.steps + step), 4))
    ++ d.sb.elim [] (fun r => [(r, r.off + 4 * step, 4)])

/-- Where a K-step first reads uncorrectable data: the core and the offset (10 R254). -/
def State.tileBad (s : State) (cl : Nat) (far : Option Nat) (d : TileDesc) (step : Nat) : Option (Nat × Nat) :=
  (d.reads step).findSome? fun (r, a, n) =>
    let g := tileCore cl far r
    if s.placeBad (.spad g) a n then some (g, a) else none

/-- The scratchpads that a K-step reads wake their dies (20 R407). -/
def State.wakeTiles (s : State) (cl : Nat) (far : Option Nat) (d : TileDesc) (step : Nat) : State :=
  (d.reads step).foldl (fun acc (r, _, _) => acc.wakeFor (.spad (tileCore cl far r))) s

/-- A turn of a tile operation (10 R255). -/
def State.tileTurn (s : State) (cl q : Nat) (e : EngEntry) (d : TileDesc) : State :=
  let a := (s.cluster cl).slot d.slot
  if !e.begun ∧ d.iacc ≠ (a.mode == .s32) then (s.onHeadEntry cl q none).meetError e.gcore e.meet 0x0042
  else
    let todo := d.live.filter fun x => e.step ≤ x
    match todo with
    | [] => (s.onHeadEntry cl q none).completePhase e.gcore e.meet
    | step :: rest =>
      let s := s.wakeTiles cl e.far d step
      match s.tileBad cl e.far d step with
      | some (g, a) => ((s.placeError (.spad g) a).onHeadEntry cl q none).meetError e.gcore e.meet 0x0042
      | none =>
      let s1 := s.setSlot cl d.slot (s.tileStep cl e.far d step a)
      if rest.isEmpty then (s1.onHeadEntry cl q none).completePhase e.gcore e.meet
      else s1.onHeadEntry cl q (some { e with step := step + 1, begun := true })

/-- SERVICE_TURN (10 R255 to R258): one K-step of a tile operation, or one command. -/
def execServiceTurn (cl : Nat) (s : State) : Host.Outcome State Fault Refusal :=
  let c := s.cluster cl
  match c.nextTurn with
  | none => .next s
  | some (q, e) =>
    match e.op with
    | .tile bytes => .next (s.tileTurn cl q e (tileDesc bytes))
    | .zero i mode => .next (((s.setSlot cl i ⟨mode, 0, []⟩).onHeadEntry cl q none).release e.waiter)
    | .store i at_ w st r sat =>
      let a := c.slot i
      let fmt := bitsOf w 13 10
      let cols := bitsOf w 27 21 + 1
      let s1 := (List.range (bitsOf w 20 14 + 1)).foldl (fun (acc : State) m =>
        acc.placeWrite (.spad e.gcore) (at_ + m * st) (storeRow a m cols fmt r sat)) s
      let s2 := if r = .rdi then s1.setSlot cl i { a with phase := (a.phase + 1) % 32 } else s1
      .next ((s2.onHeadEntry cl q none).release e.waiter)
    | .scale i at_ axis =>
      let a := c.slot i
      let s1 := s.onHeadEntry cl q none
      if a.mode = .s32 then
        match e.waiter with
        | some k => .next (s1.faultThread k 0x0044 0)
        | none => .next s1
      else
        match s1.checkedRead (.spad e.gcore) at_ 512, e.waiter with
        | (s2, none), some k => .next (s2.faultThread k codeMemUe at_)
        | (s2, none), none => .next s2
        | (_, some _), _ =>
        let vec := fun (j : Nat) => readNat (s.core e.gcore).spad (at_ + 4 * j) 4
        let a' := a.change 128 128 fun m n x =>
          BitVec.ofNat 32 (FloatFmt.fp32.mulOp .rn false x.toNat (vec (if axis then n else m)))
        .next ((s1.setSlot cl i a').release e.waiter)

end Sys2Proof.Machine
end

