-- ==== Sys2Proof/Machine/Carver.lean ====
section
/-! DEFINITION. The Carver: opcode 0x72 and its service (10 R262 to R265). -/

namespace Sys2Proof.Machine

/-- The Carver request of a record, with the id and stamp of the caller, or none where 10 R263 refuses it. -/
def carveRequest (s : State) (k : FrameRef) (t : Thread) (r : List Byte) (id stamp : Nat) : Option CarveJob :=
  let w := recNat r 32 4
  let wsrc := recNat r 0 8
  let dstream := recNat r 8 8
  let dscale := recNat r 16 8
  let bfirst := recNat r 24 4
  let count := recNat r 28 4
  let spare := wsrc / 2 ^ 57 + dstream / 2 ^ 57 + dscale / 2 ^ 57 + bfirst / 2 ^ 24 + count / 2 ^ 24 + w / 2 ^ 6 + recNat r 36 28
  if spare ≠ 0 ∨ wsrc % 16 ≠ 0 ∨ dstream % 16 ≠ 0 ∨ bfirst % 4 ≠ 0 ∨ count % 4 ≠ 0 ∨ count = 0
      ∨ !s.countsBytes (coreOf k) (bitsOf w 5 1) then none
  else
    some { id := id, gcore := coreOf k, launch := t.launch, ctxid := t.ctxid, wsrc := wsrc, dstream := dstream, dscale := dscale,
           bfirst := bfirst, count := count, mode := if testBit w 0 then .g15 else .g1, meet := bitsOf w 5 1, next := 0,
           scales := [], stamp := stamp }

/-- CARVE (10 R262, R263): held while the Carver's queue of 64 is full. -/
def execCarve (a : Reg) (s : State) : Host.Outcome State Fault Refusal :=
  runGroup (fun s is k t acc =>
    match operands s is.members t [ownSrc a 1 (some tagsAddr)] [] s.fuses.carver with
    | .error e => .error e
    | .ok v =>
      let e := (argW v 0).toNat
      if 64 ≤ acc.carver.length then .error .hold
      else if t.trapped then .error (.fault codeHandler 0)
      else if Config.spadSize ≤ e then .error (.fault 0x0031 e)
      else if e % 64 ≠ 0 then .error (.fault 0x0047 e)
      else
        let acc1 := acc.outgoing k
        let (id, acc2) := acc1.fresh
        match acc2.checkedRead (.spad (coreOf k)) e 64 with
        | (acc3, none) => acc3.fails is k (.fault codeMemUe e)
        | (_, some record) =>
        match carveRequest acc2 k t record id (acc2.timeOf k) with
        | none => acc1.fails is k (.fault 0x0047 e)
        | some j => .ok ({ acc2 with carver := acc2.carver ++ [j] }, .next)) s

/-- The value of an S10 code in units of 2^-149. -/
def scaleUnits (c : Nat) : Nat := if c / 16 = 0 then 0 else (16 + c % 16) * 2 ^ (c / 16 + 114)

/-- The codes of S10 with distinct values, ascending. -/
def scaleCodes : List Nat := 0 :: span 0x10 0x3F0

/-- The distance of 15 S from 4 X: fifteen times that of S from X / 3.75. -/
def scaleMiss (x c : Nat) : Nat := ((15 * scaleUnits c : Int) - 4 * x).natAbs

/-- Step 1 of 10 R264: the S10 code nearest to X / 3.75, ties to the smaller value; X in units of 2^-149. -/
def carveScale (x : Nat) : Nat := (bestOf (fun a b => scaleMiss x a < scaleMiss x b) scaleCodes).getD 0

/-- The least cost of reaching each of the 2^15 states, the last 15 bits written, with the bits of the sequence that costs it:
bit k has weight 2^k. -/
abbrev Trellis := Array (Option (Nat × Nat))

/-- The better of two ways of reaching a state: least cost, then the smaller sequence (10 R264 step 3). -/
def betterPath (a b : Option (Nat × Nat)) : Option (Nat × Nat) :=
  match a, b with
  | none, _ => b
  | _, none => a
  | some (c, p), some (d, q) => if d < c ∨ (d = c ∧ q < p) then b else a

/-- Every state after one more bit, number n of the sequence, where each window costs `cost`. -/
def trellisStep (cost : Nat → Nat) (n : Nat) (t : Trellis) : Trellis :=
  Array.ofFn (n := 2 ^ 15) fun (ns : Fin (2 ^ 15)) =>
    let way := fun (low : Nat) =>
      let w := 2 * ns.val + low
      (t.getD (w % 2 ^ 15) none).map fun (c, p) => (c + cost w, p + w / 2 ^ 15 * 2 ^ n)
    betterPath (way 0) (way 1)

/-- The cost of a window for a weight (10 R264 step 2), in units of 2^-298. -/
def windowCost (scale : Nat) (x : Int) (w : Nat) : Nat :=
  let d := grainQ w * (scaleUnits scale / 8 : Nat) - x
  (d * d).toNat

/-- The trellis over the weights from number i, whose window's last bit is number n. In G15 a bit without a window follows
every odd weight (03 R88). -/
def trellisRun (mode : GMode) (scale : Nat) : Nat → Nat → List Int → Trellis → Trellis
  | _, _, [], t => t
  | i, n, x :: rest, t =>
    let t1 := trellisStep (windowCost scale x) n t
    if mode = .g15 ∧ i % 2 = 1 then trellisRun mode scale (i + 1) (n + 2) rest (trellisStep (fun _ => 0) (n + 1) t1)
    else trellisRun mode scale (i + 1) (n + 1) rest t1

/-- The first pass of 10 R264 step 4: the last 15 bits of the best sequence without a wrap. -/
def carveSigma (mode : GMode) (scale : Nat) (xs : List Int) : Nat :=
  let t := trellisRun mode scale 0 15 xs (Array.ofFn (n := 2 ^ 15) fun (s : Fin (2 ^ 15)) => some (0, s.val))
  match t.toList.foldl betterPath none with
  | some (_, p) => p / 2 ^ grainBits mode % 2 ^ 15
  | none => 0

/-- The second pass of 10 R264 step 5: the best tail-biting stream that starts with given bits. -/
def carveStream (mode : GMode) (scale sigma : Nat) (xs : List Int) : Nat :=
  let t := trellisRun mode scale 0 15 xs
    (Array.ofFn (n := 2 ^ 15) fun (s : Fin (2 ^ 15)) => if s.val = sigma then some (0, s.val) else none)
  match t.getD sigma none with
  | some (_, p) => p % 2 ^ grainBits mode
  | none => 0

/-- The output of the Carver for a block of weights: the stream and the scale code (10 R264). -/
def carveBlock (mode : GMode) (ws : List Word) : Nat × Nat :=
  let xs := ws.map fun w => (f32 w).scaled (-149)
  let scale := carveScale (xs.foldl (fun acc x => max acc x.natAbs) 0)
  if scale = 0 then (0, 0) else (carveStream mode scale (carveSigma mode scale xs) xs, scale)

/-- The FP32 words of some bytes. -/
def wordsOf (bs : List Byte) (n : Nat) : List Word := (List.range n).map fun i => BitVec.ofNat 32 (recNat bs (4 * i) 4)

/-- A failed Carver request: its meet takes the error, and no later block is written (10 R265). -/
def State.carveFails (s : State) (j : CarveJob) (code : Nat) : State :=
  let s1 := { s with carver := s.carver.drop 1 }
  if s1.countsBytes j.gcore j.meet then s1.meetError j.gcore j.meet code else s1

/-- Bytes of a request written and counted down its meet (10 R265), or none where the write fails. -/
def State.carveWrite (s : State) (j : CarveJob) (va : Nat) (bs : List Byte) : State × Bool :=
  match s.engineWrite ⟨j.gcore, j.ctxid, j.launch, false⟩ va bs with
  | (s1, .error _) => (s1, false)
  | (s1, .ok _) => (if s1.countsBytes j.gcore j.meet then s1.countDown j.gcore j.meet bs.length j.stamp else s1, true)

/-- CARVER_REQUEST (10 R264, R265): the oldest request's next block is read, encoded and written; the last block of a group
of four writes the group's five scale bytes (log 29). -/
def execCarverRequest (s : State) : Host.Outcome State Fault Refusal :=
  match s.carver with
  | [] => .next s
  | j :: rest =>
    let n := grainBytes j.mode
    let blk := j.bfirst + j.next
    match s.engineRead ⟨j.gcore, j.ctxid, j.launch, false⟩ (j.wsrc + 1024 * j.next) 1024 with
    | (s1, .error _) => .next (s1.carveFails j 0x0026)
    | (s1, .ok bs) =>
      let ws := wordsOf bs 256
      if ws.any fun w => f32 w == .nan || f32 w == .inf true || f32 w == .inf false then .next (s1.carveFails j 0x0048)
      else
        let out := carveBlock j.mode ws
        match s1.carveWrite j (j.dstream + n * blk) (leBytes n out.1) with
        | (s2, false) => .next (s2.carveFails j 0x0026)
        | (s2, true) =>
          let scales := j.scales ++ [out.2]
          let last := j.next % 4 = 3
          let five := leBytes 5 ((scales.zipIdx.map fun (c, i) => c * 2 ^ (10 * i)).sum)
          match (if last then s2.carveWrite j (j.dscale + 10 * (blk - 3) / 8) five else (s2, true)) with
          | (s3, false) => .next (s3.carveFails j 0x0026)
          | (s3, true) =>
            let j' := { j with next := j.next + 1, scales := if last then [] else scales }
            .next { s3 with carver := if j'.next = j.count then rest else j' :: rest }

end Sys2Proof.Machine
end

