-- ==== Sys2Proof/Machine/Render.lean ====
section
/-! DEFINITION. Patches and buckets: the instructions of opcodes 0x76 to 0x78 and what the distributors do with buckets
(10 R266 to R271; 16 R331 to R338, R350, R360, R361, R366). -/

namespace Sys2Proof.Machine

/-- Bucket side in pixels (16 R331). -/
def Render.side (r : Render) : Nat := 16 * 2 ^ r.bsize

/-- Columns and rows of buckets, and their number (16 R332). -/
def Render.bx (r : Render) : Nat := ceilDiv r.width r.side
def Render.by_ (r : Render) : Nat := ceilDiv r.height r.side
def Render.total (r : Render) : Nat := r.bx * r.by_

/-- A bucket of a render launch: one that the table does not list is unopened and stands at its first owner (16 R360). -/
def State.bucket (s : State) (r : Render) (b : Nat) : Bucket :=
  r.buckets.getD b { state := .unopened, owner := b % s.fuses.dies, list := [], pending := 0, zeroAt := none, carried := [] }

/-- Changes a bucket. -/
def State.onBucket (s : State) (launch b : Nat) (f : Bucket → Bucket) : State :=
  s.onRender launch fun r => { r with buckets := r.buckets.put b (f (s.bucket r b)) }

/-- The floor of a finite number. -/
def numFloor (x : Machine.Num) : Int :=
  match x with
  | .fin s m e => (if 0 ≤ e then (Num.fin s m e).scaled 0 else (Num.fin s m e).scaled e / (2 : Int) ^ (-e).toNat)
  | _ => 0

/-- The pixels of one axis that an interval of a bound touches: the first and the last (16 R333). -/
def boundAxis (lo hi : Word) (extent : Nat) : Option (Nat × Nat) :=
  let a := f32 lo
  let b := f32 hi
  let zero := Num.fin false 0 0
  let size := Num.ofInt extent 0
  if a == .nan || b == .nan || b.lt a || b.lt zero || !a.lt size then none
  else
    let first := if a.lt zero then 0 else (numFloor a).toNat
    let last := if b.lt size then min (extent - 1) (numFloor b).toNat else extent - 1
    some (first, last)

/-- The pixels that a bound touches: first and last column, first and last row. -/
def Render.touches (r : Render) (bound : List Word) : Option (Nat × Nat × Nat × Nat) :=
  match boundAxis (bound.getD 0 0) (bound.getD 2 0) r.width, boundAxis (bound.getD 1 0) (bound.getD 3 0) r.height with
  | some (x0, x1), some (y0, y1) => some (x0, x1, y0, y1)
  | _, _ => none

/-- The buckets that a bound touches, in scan order. -/
def Render.bucketsOf (r : Render) (bound : List Word) : List Nat :=
  match r.touches bound with
  | none => []
  | some (x0, x1, y0, y1) =>
    (span (y0 / r.side) (y1 / r.side + 1 - y0 / r.side)).flatMap fun y =>
      (span (x0 / r.side) (x1 / r.side + 1 - x0 / r.side)).map fun x => y * r.bx + x

/-- The render launch of a thread (10 R266). -/
def State.renderOf (s : State) (t : Thread) : Option Render := s.renders.get t.launch

/-- The cluster has a bucket open, or a BOPEN that waits (10 R268). -/
def Cluster.bucketBusy (c : Cluster) : Bool := c.bucket.isSome || c.opening.isSome

/-- A thread of a render launch begins a rendering instruction: in state trapped it is refused, and without a render launch
(10 R266, R276). -/
def renderCheck (s : State) (t : Thread) : Except Stop Render :=
  if t.trapped then .error (.fault codeHandler 0)
  else
    match s.renderOf t with
    | none => .error (.fault 0x0050 0)
    | some r => .ok r

/-- PSUB (10 R267): the record's header is read, and the patch goes to the first bucket that its bound touches. The result
comes with the listing. -/
def execPsub (d a : Reg) (s : State) : Host.Outcome State Fault Refusal :=
  runGroup (fun s is k t acc =>
    match operands s is.members t [ownSrc a 2 (some tagsAddr)] [(d.val, 1)] with
    | .error e => .error e
    | .ok v =>
      let va := argN v 0
      match renderCheck acc t with
      | .error e => .error e
      | .ok r =>
        if 2 ^ 57 ≤ va then .error (.fault 0x0030 va)
        else if va % 512 ≠ 0 then .error (.fault 0x0053 va)
        else
          match acc.translate (t.who k) va 1 .read with
          | (acc1, .error c) => acc1.fails is k (.fault c va)
          | (acc1, .ok tr) =>
            if !acc1.observes tr then acc1.fails is k (.fault 0x0054 va)
            else
              match acc1.globLoad k t va 36 with
              | (acc2, .error e) => acc2.fails is k e
              | (acc2, .ok head) =>
                let bound := (List.range 4).map fun i => BitVec.ofNat 32 (recNat head (16 + 4 * i) 4)
                match r.bucketsOf bound with
                | [] => .ok (acc2.startLoad k d.val [n32 0xFFFFFFFF] none, .next)
                | b :: others =>
                  let (id, acc3) := acc2.fresh
                  let e : PatchEntry :=
                    { patch := va, u0 := 0, u1 := 0x3F800000, v0 := 0, v1 := 0x3F800000, depth := bitsOf (recNat head 0 4) 5 2,
                      parent := 0, stamp := acc3.timeOf k }
                  let i := t.index d.val
                  .ok ((acc3.onThread k fun t => { t with pend := t.pend ++ [(i, id)] }).send
                    (.listPatch (b % s.fuses.dies) t.launch b e others k i id), .next)) s

/-- A load in flight with a number of its own completes with VARIABLE_RESULT. -/
def State.answer (s : State) (k : FrameRef) (d id v : Nat) : State :=
  s.onThread k fun t => { t with loads := t.loads ++ [⟨id, [(d, n32 v)], none, none⟩] }

/-- The count of unopened buckets of a launch that a die owns (16 R360). -/
def State.unopened (s : State) (launch v : Nat) : Nat :=
  match s.renders.get launch with
  | none => 0
  | some r => ((List.range r.total).filter fun b => (s.bucket r b).owner == v && (s.bucket r b).state == .unopened).length

/-- A distributor reports its count of unopened buckets to the other distributors (16 R360). -/
def State.reportCount (s : State) (launch v : Nat) : State :=
  ((List.range s.fuses.dies).filter (· != v)).foldl (fun acc w => acc.send (.countReport w launch v (s.unopened launch v))) s

/-- No unopened bucket of a launch remains on any die, and none is in transit (10 R268 step 3). -/
def State.noneLeft (s : State) (r : Render) : Bool :=
  (List.range r.total).all fun b => (s.bucket r b).state == .opened || (s.bucket r b).state == .closed

/-- The openable buckets of a die, ascending (16 R350). One whose last PENDING decrement falls in this cycle becomes openable at the
end of it (16 R369). -/
def State.openable (s : State) (r : Render) (v : Nat) : List Nat :=
  (List.range r.total).filter fun b =>
    (s.bucket r b).owner == v && (s.bucket r b).state == .unopened && (s.bucket r b).pending == 0
      && (s.bucket r b).zeroAt != some s.cycle

/-- PATCH_LISTING (10 R267; 16 R337, R338): the oldest PSUB on its way to a distributor reaches it. An open or closed bucket
lists nothing. -/
def execPatchListing (die : Nat) (s : State) : Host.Outcome State Fault Refusal :=
  match takeMsg (fun m => match m with | .listPatch v _ _ _ _ _ _ _ => v == die | _ => false) s.net with
  | some (.listPatch _ launch b e others k d id, rest) =>
    let s0 := { s with net := rest }
    match s0.renders.get launch with
    | none => .next s0
    | some r =>
      let x := s0.bucket r b
      if x.state = .opened ∨ x.state = .closed then .next ((s0.count (s0.physDie die) 7).answer k d id (b + 2 ^ 31))
      else
        let p := r.nextPatch
        let s1 := s0.onRender launch fun r =>
          { r with nextPatch := p + 1, patches := r.patches.put p { bucket := b, receivers := others, entries := 1, released := false } }
        let s2 := s1.onBucket launch b fun x => { x with list := x.list ++ [{ e with parent := p }] }
        let s3 := others.foldl (fun acc o => acc.send (.pendingUp (o % s.fuses.dies) launch o)) s2
        .next (s3.answer k d id b)
  | _ => .next s

/-- A bucket that is not opened takes messages; an opened one ignores counts. -/
def Bucket.waiting (b : Bucket) : Bool := b.state == .unopened || b.state == .moving

/-- PENDING_INCREMENT (16 R337). -/
def execPendingIncrement (die : Nat) (s : State) : Host.Outcome State Fault Refusal :=
  match takeMsg (fun m => match m with | .pendingUp v _ _ => v == die | _ => false) s.net with
  | some (.pendingUp _ launch b, rest) =>
    .next (State.onBucket { s with net := rest } launch b fun x => if x.waiting then { x with pending := x.pending + 1 } else x)
  | _ => .next s

/-- The address of visible-point slot j of sample i of a pixel (16 R358). -/
def slotAddr (r : Render) (c : Cluster) (x y i j : Nat) : Nat :=
  c.rast.sbase + 16 * (c.rast.vpn * (c.deck.length * (y * r.width + x) + i) + j)

/-- The pixels of a bucket: first column, one past the last, first row, one past the last (16 R332). -/
def Render.pixels (r : Render) (b : Nat) : Nat × Nat × Nat × Nat :=
  let x := b % r.bx * r.side
  let y := b / r.bx * r.side
  (x, min r.width (x + r.side), y, min r.height (y + r.side))

/-- Who the units of a cluster make their accesses for. -/
def OpenBucket.who (s : State) (cl : Nat) (o : OpenBucket) : Who :=
  ⟨(s.clusterCores cl).headD (coreOfCluster cl 0), o.ctxid, o.launch, false⟩

/-- Changes the open bucket of a cluster. -/
def State.onOpen (s : State) (cl : Nat) (f : OpenBucket → OpenBucket) : State :=
  s.onCluster cl fun c => { c with bucket := c.bucket.map f }

/-- The attempt of a cluster's open bucket fails (16 R364). -/
def State.failAttempt (s : State) (cl : Nat) : State := s.onOpen cl fun o => { o with failing := true }

/-- The slots of a bucket's pixels, pixel by pixel (16 R350 step 1). -/
def slotsOf (r : Render) (c : Cluster) (b : Nat) : List Nat :=
  let (x0, x1, y0, y1) := r.pixels b
  (span y0 (y1 - y0)).flatMap fun y => (span x0 (x1 - x0)).flatMap fun x =>
    (List.range c.deck.length).flatMap fun i => (List.range c.rast.vpn).map fun j => slotAddr r c x y i j

/-- A slot written empty; a write that fails fails the attempt, or is left out where the bucket's work has ended (16 R365). -/
def State.zeroSlot (s : State) (cl : Nat) (o : OpenBucket) (a : Nat) : State :=
  match s.engineWrite (o.who s cl) a (List.replicate 16 0) with
  | (s1, .ok _) => s1
  | (s1, .error _) => if o.lost then s1 else s1.failAttempt cl

/-- Every slot of the open bucket's pixels written as 16 zero bytes (16 R350 step 1, R365). -/
def State.zeroSlots (s : State) (cl : Nat) : State :=
  match (s.cluster cl).bucket with
  | none => s
  | some o =>
    match s.renders.get o.launch with
    | none => s
    | some r => (slotsOf r (s.cluster cl) o.bucket).foldl (fun acc a => acc.zeroSlot cl o a) s

/-- A bucket opened on a cluster for the thread that asked (10 R268, 16 R350). -/
def State.openBucket (s : State) (cl : Nat) (k : FrameRef) (stamp d launch b : Nat) (t : Thread) : State :=
  match s.renders.get launch with
  | none => s
  | some r =>
    let x := s.bucket r b
    let top := x.list.foldl (fun acc e => max acc e.stamp) 0
    let o : OpenBucket :=
      { launch := launch, bucket := b, list := x.list, asOpened := x.list, asCarried := x.carried, carried := x.carried, grids := [],
        nextSeq := 1, usedBlocks := [], dropped := 0, retried := false, failing := false, killed := false, lost := false,
        lgroup := t.lgroup, ctxid := t.ctxid, stamp := stamp, endStamp := max stamp top, sent := [] }
    let s1 := s.onBucket launch b fun x => { x with state := .opened, list := [], carried := [] }
    let s2 := s1.onCluster cl fun c => { c with bucket := some o, opening := none }
    (((s2.zeroSlots cl).reportCount launch x.owner).give k d [n32 b]).wake k

/-- A waiting BOPEN of a cluster is served from its own die's distributor, or told that no bucket is left (10 R268). -/
def State.serveOpen (s : State) (cl : Nat) : State :=
  match (s.cluster cl).opening with
  | none => s
  | some (k, stamp) =>
    match s.threads.get k with
    | none => s
    | some t =>
      match t.run, s.renders.get t.launch with
      | .engine (.bopen d), some r =>
        match s.openable r (cl / 9) with
        | b :: _ => s.openBucket cl k stamp d t.launch b t
        | [] =>
          if s.noneLeft r then ((s.onCluster cl fun c => { c with opening := none }).give k d [n32 0xFFFFFFFF]).wake k else s
      | _, _ => s

/-- The clusters of a die with a BOPEN that waits and whose context runs. -/
def State.askers (s : State) (v : Nat) : List Nat :=
  (span (9 * v) 9).filter fun cl => (s.cluster cl).opening.any fun (k, _) => (s.threads.get k).any fun t => s.running t.ctxid

/-- The waiting BOPENs of a die are served in order of cluster. -/
def State.serveDie (s : State) (v : Nat) : State := (s.askers v).foldl (fun acc cl => acc.serveOpen cl) s

/-- One PENDING count fewer. -/
def Bucket.lowered (x : Bucket) (cycle : Nat) : Bucket :=
  if x.waiting then { x with pending := x.pending - 1, zeroAt := if x.pending ≤ 1 then some cycle else x.zeroAt } else x

/-- PENDING_DECREMENT (16 R348): a bucket whose count falls to 0 may be opened from the next cycle on, also for a BOPEN that waits
(16 R369). -/
def execPendingDecrement (die : Nat) (s : State) : Host.Outcome State Fault Refusal :=
  match takeMsg (fun m => match m with | .pendingDown v _ _ => v == die | _ => false) s.net with
  | some (.pendingDown _ launch b, rest) =>
    .next (State.onBucket { s with net := rest } launch b fun x => x.lowered s.cycle)
  | _ => .next s

/-- BOPEN (10 R268). -/
def execBopen (d : Reg) (s : State) : Host.Outcome State Fault Refusal :=
  runGroup (fun s is k t acc =>
    match operands s is.members t [] [(d.val, 1)] with
    | .error e => .error e
    | .ok _ =>
      let cl := clusterOf (coreOf k)
      match renderCheck acc t with
      | .error e => .error e
      | .ok _ =>
        if (acc.cluster cl).bucketBusy then .error (.fault 0x0055 0)
        else
          let acc1 := acc.onCluster cl fun c => { c with opening := some (k, acc.timeOf k) }
          .ok ((acc1.onThread k fun t => { t with run := .engine (.bopen (t.index d.val)) }).serveOpen cl, .next)) s

/-- A finite FP32 value. -/
def finite32 (w : Word) : Bool :=
  match f32 w with
  | .fin _ _ _ => true
  | _ => false

/-- The camera block of an image, or none where a value breaks its meaning (16 R366). -/
def camBlock (img : List Byte) : Option CamBlock :=
  let w := fun (i : Nat) => (BitVec.ofNat 32 (recNat img (4 * i) 4) : Word)
  let zero := Num.fin false 0 0
  if finite32 (w 0) && finite32 (w 1) && finite32 (w 2) && finite32 (w 3) && finite32 (w 4) && !(f32 (w 4)).lt zero
      && finite32 (w 5) && finite32 (w 6) && zero.lt (f32 (w 6)) && (f32 (w 6)).lt (f32 (w 7)) then
    some ⟨w 0, w 1, w 2, w 3, w 4, w 5, w 6, w 7⟩
  else none

/-- The dicer block of an image, or none where a value breaks its meaning (16 R366); reserved bits are ignored (00 R11). -/
def diceBlock (img : List Byte) : Option DiceBlock :=
  let vbase := recNat img 0 4 % 2 ^ 23
  let kib := recNat img 4 4 % 2 ^ 10
  let spill := recNat img 8 8 % 2 ^ 57
  let blocks := recNat img 16 4 % 2 ^ 24
  if vbase % 1024 = 0 ∧ 1 ≤ kib ∧ kib ≤ 512 ∧ vbase + 1024 * kib ≤ Config.vaultSize ∧ spill % 1024 = 0 then
    some ⟨vbase, kib, spill, blocks⟩
  else none

/-- The rasteriser block of an image, or none where a value breaks its meaning (16 R366). -/
def rastBlock (img : List Byte) : Option RastBlock :=
  let sbase := recNat img 0 8 % 2 ^ 57
  let vpn := recNat img 8 4 % 2 ^ 3
  if sbase % 16 = 0 ∧ 1 ≤ vpn ∧ vpn ≤ 4 then some ⟨sbase, vpn⟩ else none

/-- A CAM that waits for the old arena takes its image once the arena holds nothing (16 R366), or ends with RENDER_BUSY where a bucket
is open by then (10 R270). A suspended one keeps its command until it is back (10 R277). -/
def State.camWake (s : State) (cl : Nat) : State :=
  if !(s.cluster cl).spillUsed.isEmpty then s
  else
    s.threads.foldl (fun acc (k, t) =>
      match t.run with
      | .engine (.camDice img) =>
        if clusterOf (coreOf k) = cl ∧ t.resident then
          if (acc.cluster cl).bucketBusy then acc.faultThread k 0x0051 0
          else
          (match diceBlock img with
           | some b => (acc.onCluster cl fun c => { c with dice := b }).wake k
           | none => acc)
        else acc
      | _ => acc) s

/-- Blocks of a cluster's spill arena are released. -/
def State.freeSpill (s : State) (cl : Nat) (blocks : List Nat) : State :=
  (s.onCluster cl fun c => { c with spillUsed := c.spillUsed.filter fun q => !blocks.contains q }).camWake cl

/-- A receiver has rastered or dropped a carried grid; the last one releases the copy's blocks (16 R348). -/
def State.dropCarried (s : State) (launch id b : Nat) : State :=
  match (s.renders.get launch).bind fun r => r.carried.find? fun c => c.id == id with
  | none => s
  | some c =>
    let refs := c.refs.filter (· != b)
    let keep := fun (l : List Carried) =>
      if refs.isEmpty then l.filter (fun x => x.id != id) else l.map fun x => if x.id = id then { x with refs := refs } else x
    let s1 := s.onRender launch fun r => { r with carried := keep r.carried }
    if refs.isEmpty then s1.freeSpill c.cl c.blocks else s1

/-- The bucket open on a cluster is complete: nothing is listed, and every grid has been rastered or dropped (16 R352). -/
def OpenBucket.complete (o : OpenBucket) : Bool := o.list.isEmpty && o.grids.isEmpty && o.carried.isEmpty && !o.failing

/-- The carried grids that an open bucket received are released there. They are kept until its work ends, for a retry
(16 R348, R364; log 31). -/
def State.dropAllCarried (s : State) (cl : Nat) (o : OpenBucket) : State :=
  (o.asCarried.foldl (fun acc id => acc.dropCarried o.launch id o.bucket) s).onOpen cl fun o => { o with asCarried := [] }

/-- The threads of a cluster that wait in BCLOSE for a bucket, each with the register that takes the result. -/
def State.closers (s : State) (cl launch b : Nat) : List (FrameRef × Nat) :=
  s.threads.filterMap fun (k, t) => match t.run with
    | .engine (.bclose c d) => if clusterOf (coreOf k) == cl && t.launch == launch && c == b then some (k, d) else none
    | _ => none

/-- A complete bucket answers every BCLOSE that waits on it: its memory is released, and each thread receives the count and the
bucket completion edge (16 R352, R367). -/
def State.closeCheck (s : State) (cl : Nat) : State :=
  match (s.cluster cl).bucket with
  | none => s
  | some o =>
    if !o.complete then s
    else
      let s := s.dropAllCarried cl o
      match s.closers cl o.launch o.bucket with
      | [] => s
      | ks =>
        let s1 := (s.onBucket o.launch o.bucket fun x => { x with state := .closed }).onCluster cl fun c => { c with bucket := none }
        let s2 := s1.onRender o.launch fun r => { r with patches := r.patches.filter fun (_, p) => p.bucket != o.bucket }
        ks.foldl (fun acc (k, d) =>
          ((acc.give k d [n32 (o.dropped % 2 ^ 24 + 2 ^ 31 * bit o.lost)]).receive k o.endStamp).wake k) s2

/-- BCLOSE (10 R269). -/
def execBclose (d a : Reg) (s : State) : Host.Outcome State Fault Refusal :=
  runGroup (fun s is k t acc =>
    match operands s is.members t [ownSrc a 1 (some tagsInt)] [(d.val, 1)] with
    | .error e => .error e
    | .ok v =>
      let cl := clusterOf (coreOf k)
      match renderCheck acc t with
      | .error e => .error e
      | .ok _ =>
        let b := (argW v 0).toNat
        if (acc.cluster cl).bucket.any fun o => o.launch == t.launch && o.bucket == b then
          .ok ((acc.onThread k fun t => { t with run := .engine (.bclose b (t.index d.val)) }).closeCheck cl, .next)
        else .error (.fault 0x0056 0)) s

/-- CAM (10 R270). The order of RENDER_BUSY among its refusals is not stated: DESIGN CHOICE, after SPACE_RANGE and the alignment of e,
before the values of the image (log 72). -/
def execCam (a : Reg) (blk : Blk) (s : State) : Host.Outcome State Fault Refusal :=
  runGroup (fun s is k t acc =>
    match operands s is.members t [ownSrc a 1 (some tagsAddr)] [] with
    | .error e => .error e
    | .ok v =>
      let e := (argW v 0).toNat
      let cl := clusterOf (coreOf k)
      let n := if blk = .cam then 128 else 64
      match renderCheck acc t with
      | .error e => .error e
      | .ok _ =>
        if Config.spadSize ≤ e then .error (.fault 0x0031 e)
        else if e % 16 ≠ 0 then .error (.fault 0x0052 e)
        else if Config.spadSize < e + n then .error (.fault 0x0031 e)
        else if blk ≠ .cam ∧ (acc.cluster cl).bucketBusy then .error (.fault 0x0051 0)
        else
          let acc1 := acc.landStores k
          match acc1.checkedRead (.spad (coreOf k)) e n with
          | (acc2, none) => acc2.fails is k (.fault codeMemUe e)
          | (_, some img) =>
          let bad := acc1.fails is k (.fault 0x0052 e)
          match blk with
          | .cam =>
            (match camBlock img with
             | some b => .ok (acc1.onCluster cl fun c => { c with heldCam := some b }, .next)
             | none => bad)
          | .dice =>
            (match diceBlock img with
             | some b =>
               let old := (acc1.cluster cl).dice
               if (old.spill = b.spill ∧ old.blocks = b.blocks) ∨ (acc1.cluster cl).spillUsed = [] then
                 .ok (acc1.onCluster cl fun c => { c with dice := b }, .next)
               else .ok (acc1.onThread k fun t => { t with run := .engine (.camDice img) }, .next)
             | none => bad)
          | .rast =>
            (match rastBlock img with
             | some b => .ok (acc1.onCluster cl fun c => { c with rast := b }, .next)
             | none => bad)) s

/-- DECK (10 R271). The order of RENDER_BUSY among its refusals is not stated: DESIGN CHOICE, the last (log 72). -/
def execDeck (a b : Reg) (s : State) : Host.Outcome State Fault Refusal :=
  runGroup (fun s is k t acc =>
    match operands s is.members t [ownSrc a 1 (some tagsAddr), ownSrc b 1 (some tagsInt)] [] with
    | .error e => .error e
    | .ok v =>
      let e := (argW v 0).toNat
      let n := (argW v 1).toNat
      let cl := clusterOf (coreOf k)
      match renderCheck acc t with
      | .error e => .error e
      | .ok _ =>
        if Config.spadSize ≤ e then .error (.fault 0x0031 e)
        else if n = 0 ∨ 64 < n then .error (.fault 0x0052 e)
        else if e % 16 ≠ 0 then .error (.fault 0x0052 e)
        else if Config.spadSize < e + 10 * n then .error (.fault 0x0031 e)
        else if (acc.cluster cl).bucketBusy then .error (.fault 0x0051 0)
        else
          let acc1 := acc.landStores k
          match acc1.checkedRead (.spad (coreOf k)) e (10 * n) with
          | (acc2, none) => acc2.fails is k (.fault codeMemUe e)
          | (_, some img) =>
          let deck := (List.range n).map fun i => (List.range 5).map fun j => recNat img (10 * i + 2 * j) 2
          .ok (acc1.onCluster cl fun c => { c with deck := deck }, .next)) s

/-- CARRY_RECEIVE (16 R348): a reference that reaches an opened or closed bucket is dropped there. -/
def execCarryReceive (die : Nat) (s : State) : Host.Outcome State Fault Refusal :=
  match takeMsg (fun m => match m with | .carry v _ _ _ => v == die | _ => false) s.net with
  | some (.carry _ launch b id, rest) =>
    let s0 := { s with net := rest }
    match s0.renders.get launch with
    | none => .next s0
    | some r =>
      if (s0.bucket r b).waiting then .next (s0.onBucket launch b fun x => { x with carried := x.carried ++ [id] })
      else .next ((s0.count (s0.physDie die) 12).dropCarried launch id b)
  | _ => .next s

/-- COUNT_REPORT (16 R360). -/
def execCountReport (die : Nat) (s : State) : Host.Outcome State Fault Refusal :=
  match takeMsg (fun m => match m with | .countReport v _ _ _ => v == die | _ => false) s.net with
  | some (.countReport _ launch v n, rest) =>
    .next (State.onDist { s with net := rest } die fun d => { d with reports := d.reports.put (4 * launch + v) n })
  | _ => .next s

/-- Distributors are numbered after the cores as the ends of a bucket record. -/
def distEnd (v : Nat) : Nat := 144 + v

/-- The other dies in the order in which a thief asks them: largest last report first, ties to the lower die (16 R361). -/
def State.stealOrder (s : State) (launch v : Nat) : List Nat :=
  let n := fun (w : Nat) => (s.dist v).reports.getD (4 * launch + w) 0
  sortBy (fun w => 2 ^ 24 - n w) ((List.range s.fuses.dies).filter fun w => w != v && !(s.dist w).lost)

/-- A victim hands over its highest-numbered openable bucket in the two phases of 01 R58 (16 R361). -/
def State.handBucket (s : State) (launch : Nat) (ctxid v w b : Nat) : State :=
  let (id, s1) := s.fresh
  let r : StealRec := { id := id, victim := distEnd w, thief := distEnd v, entry := 0, ctxid := ctxid, children := [],
                        half := false, bucket := some (launch, b) }
  let s2 := s1.onBucket launch b fun x => { x with state := .moving }
  let s3 := s2.onDist w fun d => { d with offers := d.offers ++ [⟨r, none, s.cycle, false⟩] }
  (s3.send (.stealRecord r)).reportCount launch w

/-- A bucket record of a launch is on its way to a distributor, which asks for no other (16 R361). -/
def State.bucketComing (s : State) (v launch : Nat) : Bool :=
  let mine := fun (r : StealRec) => r.thief == distEnd v && r.bucket.any fun b => b.1 == launch
  s.dists.any fun (_, d) => d.offers.any (fun o => mine o.record) || d.inbound.any fun i => mine i.record

/-- What a distributor can do for a BOPEN that waits on a cluster. -/
inductive OpenNeed where
  /-- A bucket of its own can be opened, or none is left. -/
  | serve
  /-- Another die hands over a bucket. -/
  | steal (launch ctxid from_ bucket : Nat)
  deriving DecidableEq, Repr

/-- A BOPEN that waits is served from its own die's buckets, or the other dies are asked in order for an openable one; the victim
gives its highest-numbered (16 R360, R361). -/
def State.openNeed (s : State) (v cl : Nat) : Option OpenNeed :=
  match ((s.cluster cl).opening).bind fun (k, _) => s.threads.get k with
  | none => none
  | some t =>
    match s.renders.get t.launch with
    | none => none
    | some r =>
      if !(s.openable r v).isEmpty || s.noneLeft r then some .serve
      else if s.bucketComing v t.launch then none
      else
        ((s.stealOrder t.launch v).find? fun w => !(s.openable r w).isEmpty).map fun w =>
          .steal t.launch t.ctxid w ((s.openable r w).getLast?.getD 0)

/-- The first BOPEN that waits at a distributor and is served from its own buckets, or told that none is left. -/
def State.ownNeed (s : State) (v : Nat) : Option Nat := (s.askers v).find? fun cl => s.openNeed v cl == some .serve

/-- BUCKET_STEAL (16 R360, R361): a distributor serves the first of its BOPENs that wait from its own buckets, or else asks the other
dies for the first for which one of them can do something; one that it can do nothing for holds back none of another launch. -/
def execBucketSteal (die : Nat) (s : State) : Host.Outcome State Fault Refusal :=
  match s.ownNeed die with
  | some cl => .next (s.serveOpen cl)
  | none =>
    match (s.askers die).findSome? fun cl => s.openNeed die cl with
    | some (.steal launch ctxid w b) => .next (s.handBucket launch ctxid die w b)
    | _ => .next s

end Sys2Proof.Machine
end

