-- ==== Sys2Proof/Machine/Raster.lean ====
section
/-! DEFINITION. The dicer and the stochastic rasteriser (16 R334 to R359, R363 to R365, R412). -/

namespace Sys2Proof.Machine

/-- Round(x + y), Round(x - y), Round(x × y) and Round(x / y) of FP32 under .rn (16 R339). -/
def rAdd (x y : Word) : Word := BitVec.ofNat 32 (FloatFmt.fp32.addOp .rn false x.toNat y.toNat)
def rSub (x y : Word) : Word := BitVec.ofNat 32 (FloatFmt.fp32.subOp .rn false x.toNat y.toNat)
def rMul (x y : Word) : Word := BitVec.ofNat 32 (FloatFmt.fp32.mulOp .rn false x.toNat y.toNat)
def rDiv (x y : Word) : Word := toF32 .rn (Num.div (f32 x) (f32 y))

/-- Round(x × y + z), and Round(x × y - z). -/
def rFma (x y z : Word) : Word := BitVec.ofNat 32 (FloatFmt.fp32.fmaOp .rn false x.toNat y.toNat z.toNat)
def rFms (x y z : Word) : Word := toF32 .rn (Num.add false (Num.mul (f32 x) (f32 y)) (f32 z).negate)

/-- FSQRT, FSIN and FCOS of 08 R189. -/
def rSqrt (x : Word) : Word := transValue .sqrt (f32 x)
def rSin (x : Word) : Word := transValue .sin (f32 x)
def rCos (x : Word) : Word := transValue .cos (f32 x)

/-- An integer ratio over a power of two, rounded to FP32. -/
def rRatio (n : Nat) (e : Int) : Word := toF32 .rn (.fin false n e)

/-- A point of FP32 coordinates. -/
structure Point where
  x : Word
  y : Word
  z : Word
  deriving DecidableEq, Repr

/-- The point whose coordinates stand at an offset of a record. -/
def pointAt (r : List Byte) (off : Nat) : Point :=
  let w := fun (i : Nat) => (BitVec.ofNat 32 (recNat r (off + 4 * i) 4) : Word)
  ⟨w 0, w 1, w 2⟩

/-- A point as its 12 bytes. -/
def Point.bytes (p : Point) : List Byte := leBytes 4 p.x.toNat ++ leBytes 4 p.y.toNat ++ leBytes 4 p.z.toNat

/-- Proj (16 R349). -/
def CamBlock.proj (c : CamBlock) (p : Point) : Word × Word :=
  (rFma c.fx (rDiv p.x p.z) c.cx, rFma c.fy (rDiv p.y p.z) c.cy)

/-- A patch record as the dicer reads it (16 R334). -/
structure Patch where
  kind : Nat
  depth : Nat
  alloc : Nat
  matword : Word
  shader : Nat
  bound : List Word
  srate : Word
  reserved : Nat
  record : List Byte
  deriving DecidableEq, Repr

/-- The fields of a patch record (16 R334). -/
def patchOf (r : List Byte) : Patch :=
  let w0 := recNat r 0 4
  { kind := bitsOf w0 1 0, depth := bitsOf w0 5 2, alloc := 16 * (bitsOf w0 10 6 + 1), matword := BitVec.ofNat 32 (recNat r 4 4),
    shader := recNat r 8 8 % 2 ^ 57, bound := wordsOf (r.drop 16) 4, srate := BitVec.ofNat 32 (recNat r 32 4),
    reserved := bitsOf w0 31 11 + recNat r 8 8 / 2 ^ 57 + recNat r 36 92, record := r }

/-- A record that is not diced (16 R335). -/
def Patch.invalid (p : Patch) : Bool :=
  2 ≤ p.kind || 12 < p.depth || p.reserved != 0 || !entryAddress p.shader
    || !(finite32 p.srate && (Num.fin false 0 0).lt (f32 p.srate))

/-- Points of a net along u and along v. -/
def Patch.side (p : Patch) : Nat := if p.kind = 0 then 4 else 2

/-- Point (i, j) of a net, 0 at shutter open and 1 at its close (16 R334). -/
def Patch.point (p : Patch) (net i j : Nat) : Point := pointAt p.record (128 + 192 * net + 12 * (i + p.side * j))

/-- The length of one row or column of a net as projected (16 R340): the points' offsets in order. -/
def CamBlock.length (c : CamBlock) (pts : List Point) : Word :=
  ((pts.zip (pts.drop 1)).foldl (fun (l : Word) (a, b) =>
    let (x0, y0) := c.proj a
    let (x1, y1) := c.proj b
    let dx := rSub x1 x0
    let dy := rSub y1 y0
    rAdd l (rSqrt (rFma dy dy (rMul dx dx)))) 0)

/-- The larger of two lengths; a NaN counts as larger than any other (16 R340). -/
def longer (a b : Word) : Word :=
  if f32 a == .nan then a else if f32 b == .nan then b else if (f32 a).lt (f32 b) then b else a

/-- A count that stands for infinity: every finite estimate lies below it (16 R340). -/
def diceInf : Nat := 2 ^ 129

/-- max(1, ceiling) of a quotient; NaN and infinity give infinity (16 R340). -/
def diceCount (q : Word) : Nat :=
  match f32 q with
  | .fin s m e => max 1 (-(numFloor (.fin (!s) m e))).toNat
  | _ => diceInf

/-- The dice estimate of an entry (16 R340). -/
def diceEstimate (c : CamBlock) (p : Patch) (e : PatchEntry) : Nat × Nat :=
  let n := p.side
  let idx := List.range n
  let pts := [0, 1].flatMap fun net => idx.flatMap fun j => idx.map fun i => p.point net i j
  let near := pts.any fun q => (f32 q.z).lt (f32 c.znear) || f32 q.x == .nan || f32 q.y == .nan || f32 q.z == .nan
  if near then (diceInf, diceInf)
  else
    let rows := [0, 1].flatMap fun net => idx.map fun j => c.length (idx.map fun i => p.point net i j)
    let cols := [0, 1].flatMap fun net => idx.map fun i => c.length (idx.map fun j => p.point net i j)
    let scale := fun (ls : List Word) (a b : Word) => rMul (ls.foldl longer 0) (rSub b a)
    (diceCount (rDiv (scale rows e.u0 e.u1) p.srate), diceCount (rDiv (scale cols e.v0 e.v1) p.srate))

/-- The two halves of an entry split along u or v (16 R341). -/
def PatchEntry.halves (e : PatchEntry) (along : Bool) : List PatchEntry :=
  let half : Word := 0x3F000000
  if along then
    let m := rMul (rAdd e.u0 e.u1) half
    [{ e with u1 := m, depth := e.depth + 1 }, { e with u0 := m, depth := e.depth + 1 }]
  else
    let m := rMul (rAdd e.v0 e.v1) half
    [{ e with v1 := m, depth := e.depth + 1 }, { e with v0 := m, depth := e.depth + 1 }]

/-- Blocks of 1 KiB that a grid takes (16 R341). -/
def gridBlocks (nu nv : Nat) : Nat := ceilDiv ((nu + 1) * (nv + 1)) 16

/-- The parameters of a grid's columns or rows (16 R342). -/
def gridParams (a b : Word) (n : Nat) : List Word :=
  (List.range (n + 1)).map fun i =>
    if i = 0 then a else if i = n then b else rFma (rSub b a) (rDiv (toF32 .rn (Num.ofInt i 0)) (toF32 .rn (Num.ofInt n 0))) a

/-- Weights(s) of 16 R342. -/
def netWeights (kind : Nat) (s : Word) : List Word :=
  let one : Word := 0x3F800000
  let three : Word := 0x40400000
  let c := rSub one s
  if kind = 0 then
    let a := rMul c c
    let b := rMul s s
    let m := rMul s c
    [rMul a c, rMul three (rMul m c), rMul three (rMul m s), rMul b s]
  else [c, s]

/-- A weighted sum, its first product rounded and each further one fused (16 R342). -/
def weighted (ws xs : List Word) : Word :=
  match ws, xs with
  | w :: ws, x :: xs => (ws.zip xs).foldl (fun acc (w, x) => rFma w x acc) (rMul w x)
  | _, _ => 0

/-- A net's position at (u, v) (16 R342). -/
def Patch.eval (p : Patch) (net : Nat) (u v : Word) : Point :=
  let wu := netWeights p.kind u
  let wv := netWeights p.kind v
  let idx := List.range p.side
  let at_ := fun (f : Point → Word) => weighted wv (idx.map fun j => weighted wu (idx.map fun i => f (p.point net i j)))
  ⟨at_ Point.x, at_ Point.y, at_ Point.z⟩

/-- Component-wise rounded difference. -/
def Point.sub (p q : Point) : Point := ⟨rSub p.x q.x, rSub p.y q.y, rSub p.z q.z⟩

/-- The normal of 16 R343 from two difference vectors. -/
def normalOf (du dv : Point) : Point :=
  ⟨rFms du.y dv.z (rMul du.z dv.y), rFms du.z dv.x (rMul du.x dv.z), rFms du.x dv.y (rMul du.y dv.x)⟩

/-- The vertex records of a grid, in order of vertex (16 R342, R343). -/
def vertexRecords (p : Patch) (us vs : List Word) : List Byte :=
  let nu := us.length - 1
  let nv := vs.length - 1
  let p0 := fun (a b : Nat) => p.eval 0 (us.getD a 0) (vs.getD b 0)
  (List.range (nv + 1)).flatMap fun b => (List.range (nu + 1)).flatMap fun a =>
    let du := if a = nu then (p0 a b).sub (p0 (a - 1) b) else (p0 (a + 1) b).sub (p0 a b)
    let dv := if b = nv then (p0 a b).sub (p0 a (b - 1)) else (p0 a (b + 1)).sub (p0 a b)
    (p0 a b).bytes ++ (p.eval 1 (us.getD a 0) (vs.getD b 0)).bytes ++ (normalOf du dv).bytes
      ++ leBytes 4 (us.getD a 0).toNat ++ leBytes 4 (vs.getD b 0).toNat ++ leBytes 6 0 ++ leBytes 2 0x3C00 ++ leBytes 12 0

/-- The lowest n free blocks of some number, or none (16 R344). -/
def freeBlocks (used : List Nat) (total n : Nat) : Option (List Nat) :=
  let free := (List.range total).filter fun q => !used.contains q
  if n ≤ free.length then some (free.take n) else none

/-- The number of vertices of a grid. -/
def Grid.count (g : Grid) : Nat := (g.nu + 1) * (g.nv + 1)

/-- The blocks of a grid. -/
def Grid.blocks (g : Grid) : List Nat :=
  match g.mem with
  | .bucket b => b
  | .spill b => b

/-- The grid handle (16 R346). -/
def Grid.handle (g : Grid) : Nat :=
  match g.mem with
  | .bucket _ => g.seq
  | .spill _ => g.seq + 2 ^ 31

/-- The address of a vertex record: a k offset, or an address of g in the arena (16 R344). -/
def vertexAddr (base : Nat) (blocks : List Nat) (k : Nat) : Nat := base + 1024 * blocks.getD (k / 16) 0 + 64 * (k % 16)

/-- Changes a grid of the open bucket. -/
def State.onGrid (s : State) (cl seq : Nat) (f : Grid → Grid) : State :=
  s.onOpen cl fun o => { o with grids := o.grids.map fun g => if g.seq = seq then f g else g }

/-- A grid leaves the open bucket, and its blocks are released (16 R347). -/
def State.removeGrid (s : State) (cl : Nat) (g : Grid) : State :=
  let s1 := s.onOpen cl fun o => { o with grids := o.grids.filter fun x => x.seq != g.seq }
  match g.mem with
  | .bucket bs => s1.onOpen cl fun o => { o with usedBlocks := o.usedBlocks.filter fun q => !bs.contains q }
  | .spill bs => s1.freeSpill cl bs

/-- One grid fewer stands between a listed patch and the release of its receivers: the last one takes 1 from each receiver's
PENDING count, once (16 R348, R364). -/
def State.patchDone (s : State) (launch parent : Nat) : State :=
  match (s.renders.get launch).bind fun r => r.patches.get parent with
  | none => s
  | some p =>
    let less := s.onRender launch fun r => { r with patches := r.patches.update parent fun p =>
      { p with entries := p.entries - 1, released := p.released || decide (p.entries ≤ 1) } }
    if p.entries ≤ 1 ∧ !p.released then p.receivers.foldl (fun acc b => acc.send (.pendingDown (b % s.fuses.dies) launch b)) less
    else less

/-- The logical core of a cluster that takes a grid's frame and vertex threads (16 R345). -/
def State.gridCore (s : State) (cl seq : Nat) : Nat :=
  let l := s.clusterCores cl
  l.getD (seq % l.length) (coreOfCluster cl 0)

/-- A diced grid enters the open bucket: its records are written, and it takes a frame (16 R343 to R346). -/
def State.startGrid (s : State) (cl : Nat) (o : OpenBucket) (e : PatchEntry) (rest : List PatchEntry) (p : Patch) (nu nv : Nat)
    (mem : GridMem) : State :=
  let g := s.gridCore cl o.nextSeq
  let k := Config.frameSpan * g + (s.freeFrames g 1).headD 0
  let us := gridParams e.u0 e.u1 nu
  let vs := gridParams e.v0 e.v1 nv
  let grid : Grid :=
    { seq := o.nextSeq, nu := nu, nv := nv, us := us, vs := vs, rect := [e.u0, e.u1, e.v0, e.v1], mem := mem, matword := p.matword,
      bound := p.bound, shader := p.shader, alloc := p.alloc, parent := e.parent, frame := k, spawned := 0, shaded := false }
  let bytes := vertexRecords p us vs
  let frame := Frame.taken (.grid cl o.nextSeq) 0 g 0 0 0 o.launch o.lgroup o.ctxid
  let s1 := { s with frames := s.frames.put k frame }
  let s2 := s1.onOpen cl fun o =>
    { o with list := rest, nextSeq := o.nextSeq + 1, stamp := max o.stamp e.stamp, endStamp := max o.endStamp e.stamp,
             grids := o.grids ++ [grid] }
  let pieces := (grid.blocks.zipIdx).map fun (q, i) => (q, (bytes.drop (1024 * i)).take 1024)
  match mem with
  | .bucket bs =>
    let s3 := s2.onOpen cl fun o => { o with usedBlocks := o.usedBlocks ++ bs }
    pieces.foldl (fun acc (q, b) => acc.placeWrite (.vault cl) ((s.cluster cl).dice.vbase + 1024 * q) b) s3
  | .spill bs =>
    let s3 := s2.onCluster cl fun c => { c with spillUsed := c.spillUsed ++ bs }
    pieces.foldl (fun acc (q, b) =>
      match acc.engineWrite (o.who s cl) ((s.cluster cl).dice.spill + 1024 * q) b with
      | (s4, .ok _) => s4
      | (s4, .error _) => s4.failAttempt cl) s3

/-- An entry that gives no grid: it counts as one dropped grid (16 R335, R344, R363). -/
def State.dropEntry (s : State) (cl : Nat) (o : OpenBucket) (e : PatchEntry) (rest : List PatchEntry) (counter : Nat) : State :=
  let s1 := s.onOpen cl fun o => { o with list := rest, dropped := o.dropped + 1, stamp := max o.stamp e.stamp }
  (((s1.countAt ((o.who s cl).gcore) counter).patchDone o.launch e.parent)).closeCheck cl

/-- The split-or-spill rule applied to the head of the list (16 R341, R344). A grid waits for a free frame of its core
(01 R38) and, where its arena holds blocks, for room in the arena. -/
def State.diceHead (s : State) (cl : Nat) (o : OpenBucket) (e : PatchEntry) (rest : List PatchEntry) (p : Patch) : State :=
  let c := s.cluster cl
  let (nu, nv) := diceEstimate c.cam p e
  let split := fun (_ : Unit) =>
    (s.onRender o.launch fun r => { r with patches := r.patches.update e.parent fun x => { x with entries := x.entries + 1 } }).onOpen cl
      fun o => { o with list := e.halves (decide (nv ≤ nu)) ++ rest }
  if (16 < nu ∨ 16 < nv) ∧ e.depth < 12 then split ()
  else
    let nu' := min nu 16
    let nv' := min nv 16
    let n := gridBlocks nu' nv'
    let free := c.dice.kib - o.usedBlocks.length
    let framed := s.hasFrames (s.gridCore cl o.nextSeq) 1
    match freeBlocks o.usedBlocks c.dice.kib n with
    | some bs => if framed then s.startGrid cl o e rest p nu' nv' (.bucket bs) else s
    | none =>
      if e.depth < 12 ∧ 4 ≤ max nu' nv' ∧ ceilDiv n 2 + 1 ≤ free then split ()
      else
        match freeBlocks c.spillUsed c.dice.blocks n with
        | some bs => if framed then s.startGrid cl o e rest p nu' nv' (.spill bs) else s
        | none => if c.spillUsed.isEmpty then s.dropEntry cl o e rest 10 else s

/-- A vertex thread's child record (16 R345, R412). -/
def vertexChild (c : Cluster) (o : OpenBucket) (g : Grid) (handler k : Nat) : Child :=
  let addr := match g.mem with
    | .bucket bs => vertexAddr c.dice.vbase bs k
    | .spill bs => vertexAddr c.dice.spill bs k
  let u := g.us.getD (k % (g.nu + 1)) 0
  let v := g.vs.getD (k / (g.nu + 1)) 0
  { args := [n32 g.handle, n32 k, (u, .f32), (v, .f32), (g.matword, .raw), n32 addr, n32 (addr / 2 ^ 32), n32 o.bucket],
    alloc := g.alloc, check := false, range := none, parent := g.frame, ordinal := k, stamp := o.stamp, launch := o.launch,
    lgroup := o.lgroup, ctxid := o.ctxid, handler := handler, grid := g.handle }

/-- The handler entry that a vertex thread carries: that of the launch's context on the core that spawns it, and where the context
has no resident thread there, the launch packet's (07 R165; 16 R345; log 62). -/
def State.vertexHandler (s : State) (o : OpenBucket) (g : Nat) : Nat :=
  if (s.threadsOf g).any fun (_, t) => t.resident && t.ctxid == o.ctxid then (s.core g).handlers.getD o.ctxid 0
  else (s.launches.get o.launch).elim 0 Launch.handler

/-- Vertex threads of a grid spawned from the next vertex on while a bin takes them (16 R345). -/
def State.spawnVertices (s : State) (cl : Nat) (o : OpenBucket) (g : Grid) : Nat → Nat → State
  | 0, _ => s
  | n + 1, k =>
    match s.binChild (coreOf g.frame) g.shader (vertexChild (s.cluster cl) o g (s.vertexHandler o (coreOf g.frame)) k) with
    | none => s
    | some s1 =>
      let s2 := s1.onFrame g.frame fun f => { f with live := f.live + 1, nextseq := k + 1 }
      (s2.onGrid cl g.seq fun g => { g with spawned := k + 1 }).spawnVertices cl o g n (k + 1)

/-- DICE_ENTRY (16 R335, R339 to R346): the dicer goes on with the vertex threads of its last grid, or takes the head of the
list. -/
def execDiceEntry (cl : Nat) (s : State) : Host.Outcome State Fault Refusal :=
  match (s.cluster cl).bucket with
  | none => .next s
  | some o =>
    if o.failing || !s.running o.ctxid then .next s
    else
      match o.grids.find? fun g => g.spawned < g.count with
      | some g => .next (s.spawnVertices cl o g (g.count - g.spawned) g.spawned)
      | none =>
        match o.list with
        | [] => .next s
        | e :: rest =>
          match s.engineRead (o.who s cl) e.patch 512 with
          | (s1, .error _) => .next (s1.failAttempt cl)
          | (s1, .ok bytes) =>
            let p := patchOf bytes
            if p.invalid then .next (s1.dropEntry cl o e rest 8) else .next (s1.diceHead cl o e rest p)

/-- The bytes of a grid's vertex records, from bucket memory or from an arena; none where a read fails. -/
def State.readRecords (s : State) (cl : Nat) (who : Who) (mem : GridMem) (spill : Nat) : State × Option (List Byte) :=
  match mem with
  | .bucket bs =>
    bs.foldl (fun (acc : State × Option (List Byte)) q =>
      match acc.2 with
      | none => acc
      | some l =>
        match acc.1.checkedRead (.vault cl) ((s.cluster cl).dice.vbase + 1024 * q) 1024 with
        | (s1, b) => (s1, b.map (l ++ ·))) (s, some [])
  | .spill bs =>
    bs.foldl (fun (acc : State × Option (List Byte)) q =>
      match acc.2 with
      | none => acc
      | some l =>
        match acc.1.engineRead who (spill + 1024 * q) 1024 with
        | (s1, .ok b) => (s1, some (l ++ b))
        | (s1, .error _) => (s1, none)) (s, some [])

/-- Blocks of an arena written with bytes; false where a write fails. -/
def State.writeArena (s : State) (who : Who) (spill : Nat) (blocks : List Nat) (bytes : List Byte) : State × Bool :=
  (blocks.zipIdx).foldl (fun (acc : State × Bool) (q, i) =>
    match acc.1.engineWrite who (spill + 1024 * q) ((bytes.drop (1024 * i)).take 1024) with
    | (s1, .ok _) => (s1, acc.2)
    | (s1, .error _) => (s1, false)) (s, true)

/-- A shaded grid forwarded to the receivers of its patch as one carried grid (16 R348). A grid that the first attempt
forwarded is not forwarded again (16 R364). -/
def State.forward (s : State) (cl : Nat) (o : OpenBucket) (g : Grid) : State :=
  let receivers := ((s.renders.get o.launch).bind fun r => r.patches.get g.parent).elim [] PatchUse.receivers
  if receivers.isEmpty ∨ o.sent.contains (g.parent, g.rect) then s.patchDone o.launch g.parent
  else
    let c := s.cluster cl
    let drop := fun (s : State) => (s.countAt (o.who s cl).gcore 11).patchDone o.launch g.parent
    match freeBlocks c.spillUsed c.dice.blocks (gridBlocks g.nu g.nv) with
    | none => drop s
    | some bs =>
      match s.readRecords cl (o.who s cl) g.mem c.dice.spill with
      | (s1, none) => s1.failAttempt cl
      | (s1, some bytes) =>
        match s1.writeArena (o.who s cl) c.dice.spill bs bytes with
        | (s2, false) => s2.failAttempt cl
        | (s2, true) =>
          let id := ((s2.renders.get o.launch).elim 0 Render.nextCarried)
          let copy : Carried :=
            { id := id, cl := cl, blocks := bs, spill := c.dice.spill, nu := g.nu, nv := g.nv, matword := g.matword, bound := g.bound,
              origin := o.bucket, seq := g.seq, stamp := o.endStamp, refs := receivers }
          let s3 := s2.onRender o.launch fun r => { r with nextCarried := id + 1, carried := r.carried ++ [copy] }
          let s4 := s3.onCluster cl fun c => { c with spillUsed := c.spillUsed ++ bs }
          let s5 := s4.onOpen cl fun o => { o with sent := o.sent ++ [(g.parent, g.rect)] }
          (receivers.foldl (fun acc b => acc.send (.carry (b % s.fuses.dies) o.launch b id)) s5).patchDone o.launch g.parent

/-- GRID_COMPLETE (16 R347, R348): a grid whose vertex threads have all ended is dropped, or forwarded and shaded. -/
def execGridComplete (cl seq : Nat) (s : State) : Host.Outcome State Fault Refusal :=
  match (s.cluster cl).bucket with
  | none => .next s
  | some o =>
    match o.grids.find? fun g => g.seq == seq && g.spawned == g.count && !g.shaded with
    | none => .next s
    | some g =>
      match s.frames.get g.frame with
      | none => .next s
      | some f =>
        if f.live ≠ 0 ∨ o.failing then .next s
        else
          let s1 := (s.freeFrame g.frame).onOpen cl fun o => { o with endStamp := max o.endStamp (f.stamp.getD 0) }
          if f.nfault ≠ 0 ∨ f.nkill ≠ 0 then
            .next (((((s1.onOpen cl fun o => { o with dropped := o.dropped + 1 }).removeGrid cl g).patchDone o.launch g.parent)).closeCheck cl)
          else
            let o' := ((s1.cluster cl).bucket).getD o
            .next ((s1.onGrid cl seq fun g => { g with shaded := true }).forward cl o' g)

/-- What the rasteriser needs of one grid. -/
structure RasterGrid where
  nu : Nat
  nv : Nat
  matword : Word
  bound : List Word
  bytes : List Byte
  deriving DecidableEq, Repr

/-- Sample s of a pixel uses this entry of the deck (16 R353). -/
def deckIndex (px py s n : Nat) : Nat :=
  let p := 2 ^ Nat.log2 n
  let h := bitsOf ((px * 0x2C9B) ^^^ (py * 0x7A31)) 11 6
  if s < p then s ^^^ (h % p) else s

/-- A sample: its position, shutter fraction and lens offset (16 R353). -/
structure Sample where
  sx : Word
  sy : Word
  tau : Word
  lx : Word
  ly : Word
  deriving DecidableEq, Repr

/-- The sample that a deck entry gives at a pixel (16 R353). -/
def sampleOf (px py : Nat) (e : List Nat) : Sample :=
  let rho := rSqrt (rRatio (e.getD 2 0) (-16))
  let arg := rRatio (2 * e.getD 3 0) (-16)
  { sx := rRatio (px * 65536 + e.getD 0 0) (-16), sy := rRatio (py * 65536 + e.getD 1 0) (-16), tau := rRatio (e.getD 4 0) (-16),
    lx := rMul rho (rCos arg), ly := rMul rho (rSin arg) }

/-- A corner placed for a sample: X, Y and Z, and whether its z is at least ZNEAR (16 R355). -/
def placeCorner (c : CamBlock) (s : Sample) (rec_ : List Byte) : Point × Bool :=
  let p0 := pointAt rec_ 0
  let p1 := pointAt rec_ 12
  let q : Point := ⟨rFma s.tau (rSub p1.x p0.x) p0.x, rFma s.tau (rSub p1.y p0.y) p0.y, rFma s.tau (rSub p1.z p0.z) p0.z⟩
  let (x, y) := c.proj q
  let dist : Word := rSub q.z c.zf &&& 0x7FFFFFFF
  let r := rMul c.k (rDiv dist q.z)
  (⟨rFma r s.lx x, rFma r s.ly y, q.z⟩, f32 q.z != .nan && !(f32 q.z).lt (f32 c.znear))

/-- Edge of two corners at a point (16 R356). -/
def edgeAt (f g : Point) (px py : Word) : Word :=
  rFms (rSub g.x f.x) (rSub py f.y) (rMul (rSub g.y f.y) (rSub px f.x))

/-- An edge that owns its points (16 R356). -/
def edgeOwns (f g : Point) : Bool :=
  let zero := Num.fin false 0 0
  let dy := f32 (rSub g.y f.y)
  let dx := f32 (rSub g.x f.x)
  dy.lt zero || (dy.isZero && zero.lt dx)

/-- A triangle tested at a point: the depth of a hit (16 R356). -/
def triangleHit (c : CamBlock) (a b d : Point) (px py : Word) : Option Word :=
  let zero := Num.fin false 0 0
  let area := edgeAt a b d.x d.y
  let turn := (f32 area).lt zero
  let b' := if turn then d else b
  let d' := if turn then b else d
  let s := if turn then edgeAt a b' d'.x d'.y else area
  if !(zero.lt (f32 s)) then none
  else
    let e0 := edgeAt b' d' px py
    let e1 := edgeAt d' a px py
    let e2 := edgeAt a b' px py
    let inside := fun (e : Word) (f g : Point) => zero.lt (f32 e) || ((f32 e).isZero && edgeOwns f g)
    if inside e0 b' d' && inside e1 d' a && inside e2 a b' then
      let z := rDiv (rFma e2 d'.z (rFma e1 b'.z (rMul e0 a.z))) s
      let zn := f32 z
      if zn != .nan && !zn.lt (f32 c.znear) && !(f32 c.zfar).lt zn then some z else none
    else none

/-- The record of vertex (a, b) of a grid. -/
def RasterGrid.vertex (g : RasterGrid) (a b : Nat) : List Byte := (g.bytes.drop (64 * (a + b * (g.nu + 1)))).take 64

/-- A micropolygon tested for a sample: the visible point of a hit (16 R354 to R357). -/
def RasterGrid.hit (g : RasterGrid) (c : CamBlock) (s : Sample) (a b : Nat) : Option (List Byte) :=
  let r00 := g.vertex a b
  let r10 := g.vertex (a + 1) b
  let r01 := g.vertex a (b + 1)
  let r11 := g.vertex (a + 1) (b + 1)
  let cull := fun (r : List Byte) => testBit (recNat r 52 4) 0
  if cull r00 || cull r10 || cull r01 || cull r11 then none
  else
    let (q00, k0) := placeCorner c s r00
    let (q10, k1) := placeCorner c s r10
    let (q01, k2) := placeCorner c s r01
    let (q11, k3) := placeCorner c s r11
    if !(k0 && k1 && k2 && k3) then none
    else
      let z := match triangleHit c q00 q10 q11 s.sx s.sy with
        | some z => some z
        | none => triangleHit c q00 q11 q01 s.sx s.sy
      z.map fun z => leBytes 4 z.toNat ++ (r00.drop 44).take 8 ++ leBytes 4 (g.matword.toNat % 2 ^ 24 + 2 ^ 31)

/-- The hits of a grid on one sample, in ascending micropolygon index. -/
def RasterGrid.hits (g : RasterGrid) (c : CamBlock) (s : Sample) : List (List Byte) :=
  (List.range (g.nu * g.nv)).filterMap fun i => g.hit c s (i % g.nu) (i / g.nu)

/-- The depth of a visible point. -/
def pointZ (p : List Byte) : Machine.Num := f32 (BitVec.ofNat 32 (recNat p 0 4))

/-- Two points merged into one, the nearer first (16 R359). -/
def mergePoints (f g : List Byte) : List Byte :=
  let h := fun (p : List Byte) (i : Nat) => exactF32 (FloatFmt.fp16.decode (recNat p i 2))
  let k := rSub 0x3F800000 (h f 10)
  let out := fun (i : Nat) => leBytes 2 (FloatFmt.fp16.round RMode.rn false (f32 (rFma k (h g i) (h f i))))
  f.take 4 ++ out 4 ++ out 6 ++ out 8 ++ out 10 ++ f.drop 12

/-- A point inserted in the list of a sample, nearest first, after every point not farther; a list beyond VPN merges its two
farthest (16 R359). -/
def insertPoint (vpn : Nat) (l : List (List Byte)) (p : List Byte) : List (List Byte) :=
  let l1 := l.takeWhile (fun q => !(pointZ p).lt (pointZ q)) ++ [p] ++ l.dropWhile fun q => !(pointZ p).lt (pointZ q)
  if l1.length ≤ vpn then l1 else l1.take (vpn - 1) ++ [mergePoints (l1.getD (vpn - 1) []) (l1.getD vpn [])]

/-- The hits of a grid inserted in the slots of one sample (16 R358, R359); false where an access fails. -/
def State.insertHits (s : State) (who : Who) (a vpn : Nat) (hits : List (List Byte)) : State × Bool :=
  match s.engineRead who a (16 * vpn) with
  | (s1, .error _) => (s1, false)
  | (s1, .ok bytes) =>
    let slots := (List.range vpn).map fun j => (bytes.drop (16 * j)).take 16
    let old := slots.filter fun p => testBit (recNat p 12 4) 31
    let new := hits.foldl (insertPoint vpn) old
    match s1.engineWrite who a (new.flatMap id ++ List.replicate (16 * (vpn - new.length)) 0) with
    | (s2, .error _) => (s2, false)
    | (s2, .ok _) => (s2, true)

/-- The samples of a bucket's pixels that a bound touches, n to a pixel, row by row (16 R354). -/
def Render.tested (r : Render) (b n : Nat) (bound : List Word) : List (Nat × Nat × Nat) :=
  let (x0, x1, y0, y1) := r.pixels b
  match r.touches bound with
  | none => []
  | some (bx0, bx1, by0, by1) =>
    let xs := (span x0 (x1 - x0)).filter fun x => bx0 ≤ x && x ≤ bx1
    let ys := (span y0 (y1 - y0)).filter fun y => by0 ≤ y && y ≤ by1
    ys.flatMap fun y => xs.flatMap fun x => (List.range n).map fun i => (x, y, i)

/-- The hits of a grid on one sample, which a cluster's blocks and deck give (16 R353 to R357). -/
def RasterGrid.sampleHits (g : RasterGrid) (c : Cluster) (x y i : Nat) : List (List Byte) :=
  g.hits c.cam (sampleOf x y (c.deck.getD (deckIndex x y i c.deck.length) []))

/-- A grid rastered over the pixels of the open bucket that its bound touches (16 R354). -/
def State.rasterAll (s : State) (cl : Nat) (o : OpenBucket) (r : Render) (g : RasterGrid) : State :=
  let c := s.cluster cl
  (r.tested o.bucket c.deck.length g.bound).foldl (fun acc (x, y, i) =>
    match g.sampleHits c x y i with
    | [] => acc
    | hits =>
      match acc.insertHits (o.who s cl) (slotAddr r c x y i 0) c.rast.vpn hits with
      | (s1, true) => s1
      | (s1, false) => s1.failAttempt cl) s

/-- The first carried grid in raster order (16 R350). -/
def State.nextCarriedGrid (s : State) (o : OpenBucket) : Option Carried :=
  let all := ((s.renders.get o.launch).elim [] Render.carried).filter fun c => o.carried.contains c.id
  bestOf (fun x y => x.origin < y.origin || (x.origin == y.origin && x.seq < y.seq)) all

/-- The grid that the rasteriser takes next, if it is complete (16 R350): a carried grid, or the open bucket's own of least
SEQ. -/
def State.nextRaster (s : State) (o : OpenBucket) : Option (Carried ⊕ Grid) :=
  match s.nextCarriedGrid o with
  | some c => some (.inl c)
  | none =>
    match o.grids with
    | g :: _ => if g.shaded then some (.inr g) else none
    | [] => none

/-- RASTER_GRID (16 R350 to R359): the next complete grid in raster order is rastered, and its blocks are released. -/
def execRasterGrid (cl : Nat) (s : State) : Host.Outcome State Fault Refusal :=
  match (s.cluster cl).bucket with
  | none => .next s
  | some o =>
    match s.renders.get o.launch with
    | none => .next s
    | some r =>
      if o.failing || !s.running o.ctxid then .next s
      else
        let draw := fun (nu nv : Nat) (m : Word) (b : List Word) (mem : GridMem) (spill : Nat) =>
          match s.readRecords cl (o.who s cl) mem spill with
          | (s1, none) => s1.failAttempt cl
          | (s1, some bytes) => s1.rasterAll cl o r ⟨nu, nv, m, b, bytes⟩
        let failed := fun (s : State) => (s.cluster cl).bucket.any OpenBucket.failing
        match s.nextRaster o with
        | none => .next s
        | some (.inl c) =>
          let s1 := draw c.nu c.nv c.matword c.bound (.spill c.blocks) c.spill
          if failed s1 then .next s1
          else .next ((s1.onOpen cl fun o =>
            { o with carried := o.carried.filter (· != c.id), endStamp := max o.endStamp c.stamp }).closeCheck cl)
        | some (.inr g) =>
          let s1 := draw g.nu g.nv g.matword g.bound g.mem (s.cluster cl).dice.spill
          if failed s1 then .next s1 else .next ((s1.removeGrid cl g).closeCheck cl)

/-- SPILL_COPY (16 R351): the oldest spilled grid not yet copied moves into bucket memory once it is shaded and blocks are
free. -/
def execSpillCopy (cl : Nat) (s : State) : Host.Outcome State Fault Refusal :=
  match (s.cluster cl).bucket with
  | none => .next s
  | some o =>
    if o.failing || !s.running o.ctxid then .next s
    else
      match o.grids.find? fun g => match g.mem with | .spill _ => true | .bucket _ => false with
      | none => .next s
      | some g =>
        let c := s.cluster cl
        match freeBlocks o.usedBlocks c.dice.kib (gridBlocks g.nu g.nv) with
        | none => .next s
        | some bs =>
          if !g.shaded then .next s
          else
            match s.readRecords cl (o.who s cl) g.mem c.dice.spill with
            | (s1, none) => .next (s1.failAttempt cl)
            | (s1, some bytes) =>
              let s2 := (bs.zipIdx).foldl (fun acc (q, i) =>
                acc.placeWrite (.vault cl) (c.dice.vbase + 1024 * q) ((bytes.drop (1024 * i)).take 1024)) s1
              let s3 := s2.onOpen cl fun o => { o with usedBlocks := o.usedBlocks ++ bs }
              .next ((s3.onGrid cl g.seq fun g => { g with mem := .bucket bs }).freeSpill cl g.blocks)

/-- The blocks and frames of an attempt are released (16 R364 step 3). -/
def State.clearAttempt (s : State) (cl : Nat) (o : OpenBucket) : State :=
  let spilled := o.grids.flatMap fun g => match g.mem with | .spill bs => bs | .bucket _ => []
  let s1 := o.grids.foldl (fun acc g => if g.shaded then acc else acc.freeFrame g.frame) s
  (s1.onOpen cl fun o => { o with grids := [], usedBlocks := [] }).freeSpill cl spilled

/-- Every vertex thread of an attempt has ended (16 R364 step 2). -/
def State.attemptOver (s : State) (o : OpenBucket) : Bool :=
  o.grids.all fun g => g.shaded || ((s.frames.get g.frame).elim true fun f => f.live == 0)

/-- The entries of a bucket whose work ends release their receivers (16 R362, R365). -/
def State.releasePatches (s : State) (launch : Nat) (es : List PatchEntry) : State :=
  es.foldl (fun acc e => State.patchDone (acc.onRender launch fun r =>
    { r with patches := r.patches.update e.parent fun p => { p with entries := 1 } }) launch e.parent) s

/-- BUCKET_RETRY (16 R364, R365; 18 R387): a failed attempt whose vertex threads have ended starts again from the list as
opened; a second failure ends the bucket's work; a killed launch's bucket is released. -/
def execBucketRetry (cl : Nat) (s : State) : Host.Outcome State Fault Refusal :=
  match (s.cluster cl).bucket with
  | none => .next s
  | some o =>
    if !o.failing || !s.attemptOver o then .next s
    else
      let s1 := s.clearAttempt cl o
      if o.killed then .next ((s1.dropAllCarried cl o).onCluster cl fun c => { c with bucket := none })
      else if o.retried then
        let s2 := (s1.releasePatches o.launch o.asOpened).dropAllCarried cl o
        let s3 := s2.onOpen cl fun o => { o with list := [], carried := [], failing := false, lost := true }
        .next ((s3.zeroSlots cl).closeCheck cl)
      else
        let again := fun (p : PatchUse) => { p with entries := 1 }
        let s2 := s1.onRender o.launch fun r =>
          { r with patches := o.asOpened.foldl (fun acc e => acc.update e.parent again) r.patches }
        let s3 := s2.onOpen cl fun o =>
          { o with list := o.asOpened, carried := o.asCarried, nextSeq := 1, dropped := 0, retried := true, failing := false }
        .next ((s3.countAt (o.who s cl).gcore 13).zeroSlots cl)

end Sys2Proof.Machine
end

