-- ==== Sys2Proof/Machine/Rays.lean ====
section
/-! DEFINITION. The ray unit: TRACE and HITLD, opcodes 0x79 and 0x7A (10 R272 to R275). Every test is made on exact values: a
finite FP32 value is an integer of units of 2^-149. -/

namespace Sys2Proof.Machine

/-- An extended rational n / d, with d above 0. -/
inductive Ext where
  | ninf
  | fin (n : Int) (d : Nat)
  | pinf
  deriving DecidableEq, Repr

/-- Order of extended rationals. -/
def Ext.le (a b : Ext) : Bool :=
  match a, b with
  | .ninf, _ => true
  | _, .pinf => true
  | .fin n d, .fin m e => decide (n * e ≤ m * d)
  | _, _ => false

def Ext.max (a b : Ext) : Ext := if a.le b then b else a
def Ext.min (a b : Ext) : Ext := if a.le b then a else b

/-- The value of an FP32 pattern in units of 2^-149, for a finite one. -/
def units (w : Word) : Int := (f32 w).scaled (-149)

/-- A bound of t or of a box as an extended rational; NaN is none. -/
def extOf (w : Word) (d : Nat) : Option Ext :=
  match f32 w with
  | .nan => none
  | .inf true => some .ninf
  | .inf false => some .pinf
  | x => some (.fin (x.scaled (-149)) d)

/-- The quotient of a bound less an origin by a direction that is not 0. -/
def Ext.over (b : Ext) (o r : Int) : Ext :=
  match b with
  | .ninf => if 0 < r then .ninf else .pinf
  | .pinf => if 0 < r then .pinf else .ninf
  | .fin n _ => if 0 < r then .fin (n - o) r.natAbs else .fin (o - n) r.natAbs

/-- A ray: origin and direction in units of 2^-149, and the interval of t. -/
structure Ray where
  o : List Int
  r : List Int
  lo : Ext
  hi : Ext
  deriving DecidableEq, Repr

/-- The ray of a group of eight registers, or none where an input is NaN or a component infinite (10 R273). -/
def rayOf (ws : List Word) : Option Ray :=
  match extOf (ws.getD 6 0) (2 ^ 149), extOf (ws.getD 7 0) (2 ^ 149) with
  | some lo, some hi =>
    if (ws.take 6).all finite32 then some ⟨(ws.take 3).map units, ((ws.drop 3).take 3).map units, lo, hi⟩ else none
  | _, _ => none

/-- A box hit for some real t in an interval (10 R273). -/
def boxHit (ray : Ray) (hi : Ext) (box : List Word) : Bool :=
  let axis := fun (i : Nat) (acc : Option (Ext × Ext)) =>
    match acc, extOf (box.getD i 0) 1, extOf (box.getD (i + 3) 0) 1 with
    | some (lo, hi), some b0, some b1 =>
      let o := ray.o.getD i 0
      let r := ray.r.getD i 0
      if !b0.le b1 then none
      else if r = 0 then (if b0.le (.fin o 1) && (Ext.fin o 1).le b1 then some (lo, hi) else none)
      else
        let t0 := b0.over o r
        let t1 := b1.over o r
        some (lo.max (t0.min t1), hi.min (t0.max t1))
    | _, _, _ => none
  match axis 2 (axis 1 (axis 0 (some (ray.lo, hi)))) with
  | some (lo, hi) => lo.le hi && lo != .pinf && hi != .ninf
  | none => false

/-- The determinant of three columns. -/
def det3 (a b c : List Int) : Int :=
  let x := fun (l : List Int) => l.getD 0 0
  let y := fun (l : List Int) => l.getD 1 0
  let z := fun (l : List Int) => l.getD 2 0
  x a * (y b * z c - z b * y c) - y a * (x b * z c - z b * x c) + z a * (x b * y c - y b * x c)

/-- A hit: t, u and v over one denominator above 0, PRIM, the leaf's address and the triangle's position in it. -/
structure RayHit where
  t : Int
  u : Int
  v : Int
  d : Nat
  prim : Nat
  leaf : Nat
  index : Nat
  deriving DecidableEq, Repr

/-- A triangle record tested against a ray (10 R273). -/
def triHit (ray : Ray) (leaf index : Nat) (r : List Byte) : Option RayHit :=
  let ws := wordsOf r 9
  if !(ws.all finite32) then none
  else
    let p := fun (i : Nat) => ((ws.drop (3 * i)).take 3).map units
    let sub := fun (a b : List Int) => a.zipWith (· - ·) b
    let e1 := sub (p 1) (p 0)
    let e2 := sub (p 2) (p 0)
    let q := sub (p 0) ray.o
    let d := det3 ray.r e1 e2
    if d = 0 then none
    else
      let sg : Int := if 0 < d then 1 else -1
      let t := sg * det3 q e1 e2
      let u := -(sg * det3 ray.r q e2)
      let v := -(sg * det3 ray.r e1 q)
      let n := d.natAbs
      if 0 ≤ u ∧ 0 ≤ v ∧ u + v ≤ n ∧ ray.lo.le (.fin t n) ∧ (Ext.fin t n).le ray.hi then
        some ⟨t, u, v, n, recNat r 36 4, leaf, index⟩
      else none

/-- An entry met in depth-first order: a fault of its own with its address, or the hits of its triangles; and the boxes of its
path. -/
structure Met where
  fault : Option (Nat × Nat)
  box : Option (List Word)
  hits : List RayHit
  deriving DecidableEq, Repr

/-- An entry's bytes, read as the thread reads g, from sealed pages only (10 R274); or its fault code. -/
def State.readEntry (s : State) (k : FrameRef) (t : Thread) (va n : Nat) : State × Except Nat (List Byte) :=
  if 2 ^ 57 < va + n then (s, .error 0x0030)
  else
    (pieces va n).foldl (fun (acc : State × Except Nat (List Byte)) (a, m) =>
      match acc.2 with
      | .error _ => acc
      | .ok bs =>
        match acc.1.translate (t.who k) a m .read with
        | (s1, .error c) => (s1, .error c)
        | (s1, .ok tr) =>
          if !s1.observes tr then (s1, .error 0x0060)
          else
            match s1.globRead (coreOf k) tr m with
            | (s2, some more) => (s2, .ok (bs ++ more))
            | (s2, none) => (s2.uncorrectable (s2.homeDie tr.pa) 1, .error codeMemUe)) (s, .ok [])

/-- A child descriptor of a node (10 R272). -/
def childWord (r : List Byte) (j : Nat) : Nat := recNat r (96 + 8 * j) 8

/-- A malformed child descriptor (10 R274). -/
def childBad (w : Nat) : Bool :=
  let kind := bitsOf w 1 0
  let count := bitsOf w 6 2
  w / 2 ^ 57 != 0 || kind == 3 || (kind == 2 && count == 0) || (kind != 2 && count != 0) || (kind == 0 && bitsOf w 56 7 != 0)

/-- The entries met from a leaf: its triangles in record order (10 R272, R273). -/
def State.meetLeaf (s : State) (k : FrameRef) (t : Thread) (ray : Ray) (va count : Nat) (box : List Word) : State × Met :=
  match s.readEntry k t va (48 * count) with
  | (s1, .error c) => (s1, ⟨some (c, va), some box, []⟩)
  | (s1, .ok bs) =>
    let tri := fun (i : Nat) => (bs.drop (48 * i)).take 48
    if (List.range count).any fun i => recNat (tri i) 40 8 != 0 then (s1, ⟨some (0x0061, va), some box, []⟩)
    else (s1, ⟨none, some box, (List.range count).filterMap fun i => triHit ray va i (tri i)⟩)

/-- The reachable entries from a node, in depth-first order; `depth` is what is left of 32 levels (10 R273, R274). -/
def State.meetNode (k : FrameRef) (t : Thread) (ray : Option Ray) : Nat → State → Nat → Option (List Word) → State × List Met
  | 0, s, va, box => (s, [⟨some (0x0062, va), box, []⟩])
  | depth + 1, s, va, box =>
    match s.readEntry k t va 128 with
    | (s1, .error c) => (s1, [⟨some (c, va), box, []⟩])
    | (s1, .ok bs) =>
      if (List.range 4).any fun j => childBad (childWord bs j) then (s1, [⟨some (0x0061, va), box, []⟩])
      else
        (List.range 4).foldl (fun (acc : State × List Met) j =>
          let w := childWord bs j
          let b := wordsOf (bs.drop (24 * j)) 6
          let dest := bitsOf w 56 7 * 128
          match ray with
          | none => acc
          | some r =>
            if bitsOf w 1 0 = 0 ∨ !boxHit r r.hi b then acc
            else if bitsOf w 1 0 = 1 then
              let (s2, more) := State.meetNode k t ray depth acc.1 dest (some b)
              (s2, acc.2 ++ more)
            else if depth = 0 then (acc.1, acc.2 ++ [⟨some (0x0062, dest), some b, []⟩])
            else
              let (s2, m) := acc.1.meetLeaf k t r dest (bitsOf w 6 2) b
              (s2, acc.2 ++ [m])) (s1, [⟨none, box, []⟩])

/-- The hit of least t, then least PRIM, then the first (10 R273). -/
def nearest (hs : List RayHit) : Option RayHit :=
  bestOf (fun a b => decide (a.t * b.d < b.t * a.d) || (decide (a.t * b.d = b.t * a.d) && decide (a.prim < b.prim))) hs

/-- What a query ends with: the fault that an entry of E raises, or the hit or miss (10 R274). An entry that only lies beyond
t* is ignored. -/
def traceResult (ray : Option Ray) (any : Bool) (ms : List Met) : Except (Nat × Nat) (Option RayHit) :=
  match ray with
  | none =>
    match ms.findSome? Met.fault with
    | some f => .error f
    | none => .ok none
  | some r =>
    if any then
      match ms.find? fun m => m.fault.isSome || !m.hits.isEmpty with
      | none => .ok none
      | some m =>
        match m.fault with
        | some f => .error f
        | none => .ok m.hits.head?
    else
      let best := nearest (ms.flatMap Met.hits)
      let tEnd := best.elim r.hi fun h => Ext.fin h.t h.d
      let inE := fun (m : Met) => match m.box with
        | none => true
        | some b => boxHit r tEnd b
      match (ms.filter inE).findSome? Met.fault with
      | some f => .error f
      | none => .ok best

/-- A ratio rounded to FP32. -/
def ratio32 (n : Int) (d : Nat) : Word := if n = 0 then 0 else toF32 .rn (quotient (decide (n < 0)) n.natAbs d 0)

/-- The hit register (10 R275). -/
def hitWords (h : Option RayHit) : List Word :=
  match h with
  | none => List.replicate 8 0
  | some h =>
    let w := fun (n : Nat) => (BitVec.ofNat 32 n : Word)
    [1, w h.prim, ratio32 h.t h.d, ratio32 h.u h.d, ratio32 h.v h.d, w h.leaf, w (h.leaf / 2 ^ 32), w h.index]

/-- TRACE (10 R273 to R275). -/
def execTrace (d a b : Reg) (any : Bool) (s : State) : Host.Outcome State Fault Refusal :=
  runGroup (fun s is k t acc =>
    match operands s is.members t [ownSrc a 8 (some tagsF32), ownSrc b 2 (some tagsAddr)] [(d.val, 1)] (s.hasRays (coreOf k)) with
    | .error e => .error e
    | .ok v =>
      let root := argN v 1
      if t.trapped then .error (.fault codeHandler 0)
      else if 2 ^ 57 ≤ root then .error (.fault 0x0030 root)
      else if root % 128 ≠ 0 then .error (.fault 0x0061 root)
      else
        let ray := rayOf ((v.getD 0 []).map (·.1))
        let (acc1, ms) := State.meetNode k t ray 32 (acc.landStores k) root none
        match traceResult ray any ms with
        | .error (c, at_) => acc1.fails is k (.fault c at_)
        | .ok h =>
          .ok (acc1.onThread k fun t => { t.putAll d.val [n32 (bit h.isSome)] none with hit := hitWords h }, .next)) s

/-- HITLD (10 R275). -/
def execHitld (d : Reg) (f : Fin 8) (s : State) : Host.Outcome State Fault Refusal :=
  runGroup (regOpE [] d.val 1 none (fun s k => s.hasRays (coreOf k)) fun _ _ t _ =>
    .ok [(t.hit.getD f.val 0, if 2 ≤ f.val ∧ f.val ≤ 4 then .f32 else .n32)]) s

end Sys2Proof.Machine
end

