-- ==== Sys2Proof/Machine/Launch.lean ====
section
/-! DEFINITION. Queues, packets, the deal, the placement of launch groups and the completion of launches (18 R370 to R381). -/

namespace Sys2Proof.Machine

/-- Refusal codes (18 R374). -/
def refBadPacket : Nat := 0x0301
def refRender : Nat := 0x0302
def refNoVariant : Nat := 0x0303
def refDieBusy : Nat := 0x0304
def refNoCluster : Nat := 0x0305
def refNoPair : Nat := 0x0306
def refLeaseLarge : Nat := 0x0307
def refLeaseUnmapped : Nat := 0x0308
def refRegen : Nat := 0x0309

/-- QUEUE_BAD is counted on die 0, the base die that serves the host, whatever the die map says (00 R9; 20 R408). -/
def State.queueBad (s : State) : State := s.count 0 15

/-- Packets covered by a doorbell join those that wait: in the order of doorbells, those of one cycle by queue index (14 R330;
18 R371). -/
def placeBells (b : Bell) (n : Nat) (l : List Bell) : List Bell :=
  let first := fun (x : Bell) => x.cycle < b.cycle || (x.cycle == b.cycle && x.queue ≤ b.queue)
  l.filter first ++ List.replicate n b ++ l.filter fun x => !first x

/-- DOORBELL (18 R370, R371): a write of QUEUE_TAIL. Each packet that it covers is noted in the order of doorbells. -/
def execDoorbell (q tail : Nat) (s : State) : Host.Outcome State Fault Refusal :=
  let x := s.queue q
  if !x.enable then .next s
  else if tail < x.tail ∨ x.head + 2 ^ x.size < tail then .next s.queueBad
  else
    .next { s.onQueue q (fun x => { x with tail := tail }) with doorbells := placeBells ⟨s.cycle, q⟩ (tail - x.tail) s.doorbells }

/-- A queue takes one more packet: it is enabled, and TAIL stays within 2^SIZE of HEAD (18 R370). -/
def Queue.room (x : Queue) : Bool := x.enable && x.tail < x.head + 2 ^ x.size

/-- Physical address of packet k of a queue (18 R370). -/
def Queue.slot (x : Queue) (k : Nat) : Nat := x.base + 256 * (k % 2 ^ x.size)

/-- A mirrored packet stands in the standby's own ring as if written and doorbelled there; while its queue is not enabled, or its ring
is full, it waits, with those behind it (20 R405; log 24). -/
def State.mirrorPacket (s : State) (m : Nat × List Byte) : State :=
  let x := s.queue m.1
  if x.room && !s.mirrored.any (·.1 == m.1) then
    { (s.homeWrite (x.slot x.tail) m.2).onQueue m.1 (fun x => { x with tail := x.tail + 1 }) with
      doorbells := placeBells ⟨s.cycle, m.1⟩ 1 s.doorbells }
  else { s with mirrored := s.mirrored ++ [m] }

/-- The mirrored packets that wait are placed where there is room for them now. -/
def State.placeMirrored (s : State) : State := s.mirrored.foldl State.mirrorPacket { s with mirrored := [] }

/-- The fields SIZE and CTXID that a write of QUEUE_CTL sets while ENABLE is 0 (18 R370). -/
def Queue.fields (x : Queue) (v : Nat) : Queue := { x with size := min 16 (bitsOf v 4 0), ctxid := bitsOf v 13 8 }

/-- QUEUE_ENABLE (18 R370): a write of QUEUE_CTL with ENABLE 1. -/
def execQueueEnable (q v : Nat) (s : State) : Host.Outcome State Fault Refusal :=
  if (s.queue q).enable then .next s
  else
    .next (State.placeMirrored { s.onQueue q (fun x =>
              { x.fields v with enable := true, tail := 0, head := 0, seq := 0, dealtPrev := true, donePrev := true, last := none })
            with doorbells := s.doorbells.filter (·.queue != q) })

/-- QUEUE_DISABLE (18 R370): a write of QUEUE_CTL with ENABLE 0; packets doorbelled and not taken are never taken. -/
def execQueueDisable (q v : Nat) (s : State) : Host.Outcome State Fault Refusal :=
  if (s.queue q).enable then
    .next { s.onQueue q (fun x => { x with enable := false }) with doorbells := s.doorbells.filter (·.queue != q) }
  else .next (s.onQueue q fun x => x.fields v)

/-- The accesses of the management processor are made for a context, by no core (18 R374). -/
def mgmt (ctxid launch : Nat) : Who := ⟨Config.dieCores * Config.parts, ctxid, launch, false⟩

/-- Bytes of an address space as the management processor reads them. -/
def State.mgmtRead (s : State) (ctxid va n : Nat) : Option (List Byte) :=
  match (s.engineRead (mgmt ctxid (2 ^ 32)) va n).2 with
  | .ok bs => some bs
  | .error _ => none

/-- The same read counts and reports an uncorrectable error that it meets (20 R408); it leaves no other trace. -/
def State.noteMgmt (s : State) (ctxid va n : Nat) : State :=
  match s.engineRead (mgmt ctxid (2 ^ 32)) va n with
  | (s1, .error (c, _)) => if c = codeMemUe then s1 else s
  | _ => s

/-- A packet's word at an offset. -/
def pkW (p : List Byte) (off : Nat) : Nat := recNat p off 4

/-- G of a packet (18 R372). -/
def pkG (p : List Byte) : Nat := bitsOf (pkW p 0) 5 4 + 1

/-- A reserved bit of a packet is nonzero (18 R372). -/
def packetReserved (p : List Byte) : Bool :=
  bitsOf (pkW p 0) 31 18 != 0 || bitsOf (pkW p 4) 31 24 != 0 || bitsOf (pkW p 8) 31 11 != 0 || bitsOf (pkW p 12) 31 12 != 0
    || recNat p 16 8 / 2 ^ 57 != 0 || bitsOf (pkW p 24) 31 16 != 0 || bitsOf (pkW p 28) 31 17 != 0 || recNat p 32 8 / 2 ^ 57 != 0
    || recNat p 51 1 != 0 || bitsOf (pkW p 52) 31 17 != 0
    || (List.range 8).any fun i =>
      recNat p (96 + 16 * i) 8 % 2 ^ 12 != 0 || recNat p (96 + 16 * i) 8 / 2 ^ 57 != 0 || recNat p (104 + 16 * i) 8 % 2 ^ 12 != 0
        || recNat p (104 + 16 * i) 8 / 2 ^ 52 != 0

/-- A value of a packet lies outside its range, or its address or context is unusable (18 R372, R374). -/
def packetRange (s : State) (ctxid : Nat) (p : List Byte) : Bool :=
  let w0 := pkW p 0
  let kind := bitsOf w0 1 0
  let shape := bitsOf w0 3 2
  let groups := bitsOf (pkW p 4) 23 0
  let gsize := bitsOf (pkW p 8) 10 0
  let handler := recNat p 32 8
  let mult := if shape = 1 then pkG p else if shape = 2 then 2 * pkG p else 1
  2 ≤ kind || shape == 3 || (shape == 0 && pkG p != 1) || 8 < bitsOf w0 17 14 || groups == 0 || groups % mult != 0
    || gsize == 0 || 1024 < gsize || recNat p 16 8 % 16 != 0 || bitsOf (pkW p 24) 15 0 == 0
    || 256 < bitsOf (pkW p 28) 16 8 || 256 < bitsOf (pkW p 28) 7 0 + bitsOf (pkW p 28) 16 8
    || (handler != 0 && !entryAddress handler)
    || 128 < bitsOf (pkW p 52) 14 7 || 128 < bitsOf (pkW p 52) 6 0 + bitsOf (pkW p 52) 14 7
    || (kind == 0 && (bitsOf (pkW p 52) 16 15 != 0 || pkW p 56 != 0))
    || (s.ctx ctxid).root == 0 || (s.ctx ctxid).csa == 0

/-- A variant-list entry that breaks 18 R373. -/
def variantBad (e : List Byte) : Bool :=
  let image := recNat e 32 8
  let size := recNat e 40 4
  let start := recNat e 44 4
  (List.range 4).any (fun d => bitsOf (recNat e (8 * d) 8) 62 36 != 0) || image / 2 ^ 57 != 0 || image % 4096 != 0 || size == 0
    || size % 32 != 0 || start % 32 != 4 || size ≤ start

/-- A variant matches the harvest map (05 R133). -/
def variantMatches (s : State) (e : List Byte) : Bool :=
  (List.range 4).all fun d => testBit (recNat e (8 * d) 8) 63 || bitsOf (recNat e (8 * d) 8) 35 0 == s.enableMask d

/-- The entries of a variant list. -/
def variants (l : List Byte) (n : Nat) : List (List Byte) := (List.range n).map fun i => (l.drop (48 * i)).take 48

/-- The present dies that take deals: a lost one takes none (01 R61). -/
def State.dealDies (s : State) : List Nat := (List.range s.fuses.dies).filter fun v => !(s.dist v).lost

/-- The cluster list of a launch (18 R377). -/
def State.clusterList (s : State) (g : Nat) : List Nat :=
  (List.range 9).flatMap fun c => (s.dealDies.map fun v => 9 * v + c).filter fun cl => g ≤ (s.clusterCores cl).length

/-- The clusters that face each other across the boundary of two physical dies: those of die a with their partners on die b
(18 R378). -/
def facingPairs (pa pb : Nat) : List (Nat × Nat) :=
  let across := [(2, 0), (5, 3), (8, 6)]
  let down := [(6, 0), (7, 1), (8, 2)]
  let flip := fun (l : List (Nat × Nat)) => l.map fun (x, y) => (y, x)
  match pa, pb with
  | 0, 1 | 2, 3 => across
  | 1, 0 | 3, 2 => flip across
  | 0, 2 | 1, 3 => down
  | 2, 0 | 3, 1 => flip down
  | _, _ => []

/-- The facing-pair list of a launch (18 R378). -/
def State.pairList (s : State) (g : Nat) : List (Nat × Nat) :=
  (s.dealDies.flatMap fun a => (s.dealDies.filter (a < ·)).flatMap fun b =>
    (facingPairs (s.physDie a) (s.physDie b)).map fun (x, y) => (9 * a + x, 9 * b + y)).filter fun (x, y) =>
      g ≤ (s.clusterCores x).length && g ≤ (s.clusterCores y).length

/-- Logical core j of a cluster, modulo its enabled cores. -/
def State.logical (s : State) (cl j : Nat) : Nat := (s.clusterCores cl).getD (j % (s.clusterCores cl).length) 0

/-- The deal of a launch: SHAPE, G and the number of launch groups; barrier numbers start at `first` (18 R377, R378). -/
def State.deal (s : State) (shape g n first : Nat) : List GroupDeal :=
  match shape with
  | 0 =>
    let l := s.clusterList 1
    (List.range n).map fun i => ⟨i, s.logical (l.getD (i % l.length) 0) (i / l.length), i, none⟩
  | 1 =>
    let l := s.clusterList g
    (List.range n).map fun i =>
      let c := i / g
      ⟨i, s.logical (l.getD (c % l.length) 0) (c / l.length * g + i % g), c, some (first + c)⟩
  | _ =>
    let l := s.pairList g
    (List.range n).map fun i =>
      let p := i / (2 * g)
      let e := l.getD (p % l.length) (0, 0)
      let cl := if i % (2 * g) < g then e.1 else e.2
      ⟨i, s.logical cl (p / l.length * g + i % g), p, some (first + p)⟩

/-- The launch that a packet asks for, taken from a queue or issued by a regeneration; its id, its order and the cycle of its
doorbell are the caller's. -/
def packetLaunch (p : List Byte) (q addr ctxid order bell : Nat) (from_ : LaunchFrom) (entry image isize : Nat)
    (groups : List GroupDeal) : Launch :=
  let w0 := pkW p 0
  let ranges := ((List.range 8).map fun i => (recNat p (96 + 16 * i) 8, recNat p (104 + 16 * i) 8)).filter fun (_, n) => n != 0
  let leases := if ranges.isEmpty then [] else ranges ++ [(image, (isize + 4095) / 4096 * 4096)]
  { stage := .leasing, origin := from_, queue := q, packet := addr, ctxid := ctxid, render := bitsOf w0 1 0 == 1,
    debug := testBit w0 7, check := testBit w0 8, alloc := 16 * (bitsOf w0 13 9 + 1), nparam := bitsOf w0 17 14,
    gsize := bitsOf (pkW p 8) 10 0, vector := bitsOf (pkW p 12) 10 0, irq := testBit (pkW p 12) 11,
    spbase := bitsOf (pkW p 28) 7 0, spsize := bitsOf (pkW p 28) 16 8, handler := recNat p 32 8, slotmask := recNat p 40 8,
    qmask := recNat p 48 2, winmask := recNat p 50 1, vkbase := bitsOf (pkW p 52) 6 0, vksize := bitsOf (pkW p 52) 14 7,
    meetmask := recNat p 60 4, params := wordsOf (p.drop 64) 8, leases := leases, entry := entry, groups := groups, roots := 0,
    nfault := 0, nkill := 0, frec := FaultRec.none, fgroup := 0, stamp := 0, pins := [], order := order, bellAt := bell, waits := false }

/-- The check of a packet in the order of 18 R374: the refusal code, or the entry, the image and its size, and the deal. -/
def State.checkPacket (s : State) (ctxid first : Nat) (p : List Byte) : Except Nat (Nat × Nat × Nat × List GroupDeal) :=
  let w0 := pkW p 0
  let shape := bitsOf w0 3 2
  let count := bitsOf (pkW p 24) 15 0
  if packetReserved p || packetRange s ctxid p then .error refBadPacket
  else
    match s.mgmtRead ctxid (recNat p 16 8) (48 * count) with
    | none => .error refBadPacket
    | some l =>
      let vs := variants l count
      let width := bitsOf (pkW p 56) 15 0
      let height := bitsOf (pkW p 56) 31 16
      if vs.any variantBad then .error refBadPacket
      else if bitsOf w0 1 0 = 1 ∧ (width = 0 ∨ 32768 < width ∨ height = 0 ∨ 32768 < height ∨ bitsOf (pkW p 52) 16 15 = 3) then
        .error refRender
      else
        match vs.find? (variantMatches s) with
        | none => .error refNoVariant
        | some v =>
          let list := if shape = 2 then (s.pairList (pkG p)).length else (s.clusterList (pkG p)).length
          let deal := if list = 0 then [] else s.deal shape (pkG p) (bitsOf (pkW p 4) 23 0) first
          if deal.any fun g => testBit s.pkg.offline (dieOf g.gcore) then .error refDieBusy
          else if list = 0 then .error (if shape = 2 then refNoPair else refNoCluster)
          else .ok (recNat v 32 8 + recNat v 44 4, recNat v 32 8, recNat v 40 4, deal)

/-- The errors that the check of a packet meets in its variant list (20 R408). -/
def State.noteVariants (s : State) (ctxid : Nat) (p : List Byte) : State :=
  if packetReserved p || packetRange s ctxid p then s else s.noteMgmt ctxid (recNat p 16 8) (48 * bitsOf (pkW p 24) 15 0)

/-- STATE and CODE of a packet written by the device (18 R372). -/
def State.packetState (s : State) (addr state code : Nat) : State := s.homeWrite (addr + 224) (leBytes 4 (state + 2 ^ 16 * code))

/-- The packet before the next one of a queue: taken in this enabling, and last (18 R370, R371). -/
def Queue.awaits (x : Queue) (order : Nat) : Bool := x.last == some order

/-- A refused packet: nothing of it is created, and its queue goes on (18 R371, R374). -/
def State.refusePacket (s : State) (q addr order code : Nat) : State :=
  (s.packetState addr 3 code).onQueue q fun x => if x.awaits order then { x with dealtPrev := true, donePrev := true } else x

/-- A launch that is dealt: STATE 1, and its buckets, if it renders (18 R374; 16 R331). -/
def State.dealLaunch (s : State) (id : Nat) : State :=
  match s.launches.get id with
  | none => s
  | some l =>
    let s1 := s.onLaunch id fun l => { l with stage := .dealt }
    match l.origin with
    | .regen _ _ => s1
    | .queue =>
      let s2 := (s1.packetState l.packet 1 0).onQueue l.queue fun x =>
        if x.awaits l.order then { x with dealtPrev := true } else x
      if l.render then (List.range s.fuses.dies).foldl (fun acc v => acc.reportCount id v) s2 else s2

/-- A render launch's image and buckets (16 R331). -/
def packetRender (p : List Byte) : Render :=
  { width := bitsOf (pkW p 56) 15 0, height := bitsOf (pkW p 56) 31 16, bsize := bitsOf (pkW p 52) 16 15, buckets := [],
    patches := [], nextPatch := 0, carried := [], nextCarried := 0 }

/-- A packet's content checked, and refused or made a launch of a queue (18 R373, R374). A launch without a lease of a context
that runs is dealt at once (14 R325); the others wait. -/
def State.acceptPacket (s : State) (q addr id order bell : Nat) (p : List Byte) : State :=
  let ctxid := (s.queue q).ctxid
  match s.checkPacket ctxid s.nextId p with
  | .error c => (s.noteVariants ctxid p).refusePacket q addr order c
  | .ok (entry, image, isize, deal) =>
    let l := packetLaunch p q addr ctxid order bell .queue entry image isize deal
    let s1 := { s with nextId := s.nextId + deal.length + 1, launches := s.launches.put id l,
                       renders := if l.render then s.renders.put id (packetRender p) else s.renders }
    if l.leases.isEmpty && s.running ctxid then s1.dealLaunch id else s1

/-- The bytes of a ring slot, or none where it cannot be read (18 R371). -/
def State.slotBytes (s : State) (addr : Nat) : Option (List Byte) :=
  if s.capacity < addr + 256 ∨ s.bad addr 256 then none else some (readBytes s.mem addr 256)

/-- The next packet of a queue may be taken: its predecessor is dealt or refused, and complete under WAITPREV (18 R371). A
packet whose identifier is still that of an incomplete launch waits (log 33). -/
def State.takeable (s : State) (q : Nat) : Bool :=
  let x := s.queue q
  let wait := (s.slotBytes (x.slot x.head)).elim false fun p => testBit (pkW p 0) 6
  x.enable && x.dealtPrev && (!wait || x.donePrev) && (s.launches.get (2 ^ 24 * q + x.seq)).isNone

/-- The queue's counters after a packet is taken, as number `order` of all (18 R371). -/
def State.counted (s : State) (q order : Nat) : State :=
  s.onQueue q fun x =>
    { x with head := x.head + 1, seq := (x.seq + 1) % 2 ^ 24, dealtPrev := false, donePrev := false, last := some order }

/-- An active chip that another chip answers mirrors what it takes (20 R405). -/
def State.mirror (s : State) (m : MirrorOp) : State := if s.pkg.role ≠ 2 ∧ s.peers ≠ [] then s.emit (.mirrored m) else s

/-- PACKET_TAKE (18 R371): the first doorbelled packet that may be taken, in the order of doorbells. -/
def execPacketTake (s : State) : Host.Outcome State Fault Refusal :=
  match s.doorbells.find? fun b => s.takeable b.queue with
  | none => .next s
  | some b =>
    let q := b.queue
    let x := s.queue q
    let addr := x.slot x.head
    let (order, s0) := s.fresh
    let s1 := ({ s0 with doorbells := s0.doorbells.erase b }).counted q order
    match s.slotBytes addr with
    | some p => .next ((s1.acceptPacket q addr (2 ^ 24 * q + x.seq) order b.cycle p).mirror (.packet q p)).placeMirrored
    | none =>
      let s2 := s1.onCtx x.ctxid fun c => { c with err := refBadPacket }
      if s.capacity < addr + 256 then
        .next (s2.queueBad.onQueue q fun x => { x with dealtPrev := true, donePrev := true }).placeMirrored
      else .next ((s2.uncorrectable (s2.homeDie addr) 1).refusePacket q addr order refBadPacket).placeMirrored

/-- Two ranges of units overlap. -/
def overlap (a n b m : Nat) : Bool := 0 < n && 0 < m && a < b + m && b < a + n

/-- A launch holds its reservations on a core while any thread of it is resident or binned there, in a bin or in the inbound
steal queue (01 R19; 18 R380), and on every core of a cluster group or pair group of it until each member has ended (01 R51). A
context that is saved holds none. -/
def State.holds (s : State) (id g : Nat) : Bool :=
  ((s.threadsOf g).any fun (_, t) => t.resident && t.launch == id)
    || (s.core g).bins.any (fun (_, b) => b.children.any fun c => c.launch == id)
    || (s.core g).inbound.any (fun x => x.record.children.any fun c => c.launch == id)
    || (s.groups.any (fun (_, b) => b.launch == id && b.cores.contains g)
        && (s.launches.get id).any fun l => (s.ctx l.ctxid).state == .running || (s.ctx l.ctxid).state == .saving)

/-- A launch's reservations overlap none held on a core and its cluster by another launch (18 R380). -/
def State.reservable (s : State) (id g : Nat) : Bool :=
  match s.launches.get id with
  | none => true
  | some l =>
    let cl := clusterOf g
    s.launches.all fun (j, x) =>
      j == id
        || ((!s.holds j g || (!overlap l.spbase l.spsize x.spbase x.spsize && l.meetmask &&& x.meetmask == 0
              && l.winmask &&& x.winmask == 0))
            && (!((s.clusterCores cl).any fun h => s.holds j h)
              || (l.slotmask &&& x.slotmask == 0 && l.qmask &&& x.qmask == 0 && !overlap l.vkbase l.vksize x.vkbase x.vksize)))

/-- The launch group that a core places next: the earliest packet's, then the lowest index (18 R379). -/
def State.nextGroup (s : State) (g : Nat) : Option (Nat × GroupDeal) :=
  let all := s.launches.flatMap fun (id, l) =>
    if l.stage == .dealt && s.running l.ctxid then (l.groups.filter fun x => x.gcore == g).map fun x => (l.order, id, x) else []
  (bestOf (fun a b => a.1 < b.1 || (a.1 == b.1 && a.2.2.index < b.2.2.index)) all).map fun (_, id, x) => (id, x)

/-- Threads of a launch group that fall in a lane of a partition (18 R379). -/
def laneShare (gsize part lane : Nat) : Nat := ((List.range gsize).filter fun t => t % 128 == 32 * part + lane).length

/-- A lane holds n more threads of an allocation. -/
def State.laneFits (s : State) (g part lane n alloc : Nat) : Bool :=
  n == 0 || (n * alloc ≤ s.freeRegs g part lane
    && n ≤ ((List.range Config.contexts).filter fun c => (s.inContext g part lane c).isNone).length)

/-- A core can place a launch group now (18 R379, R380): its die is not lost (01 R61), no readmission is pending, and no bin of it
could be placed in this cycle, whether or not it then was. -/
def State.groupFits (s : State) (id : Nat) (l : Launch) (g : Nat) : Bool :=
  s.coreOn g && !(s.dist (dieOf g)).lost && !s.readmitting g && (s.core g).servedAt != some s.cycle && !(s.core g).bins.any (fun (_, b) => (s.binPlace g b).isSome) && s.hasFrames g l.gsize
    && s.reservable id g
    && (List.range Config.parts).all fun p => (List.range Config.lanes).all fun lane =>
      s.laneFits g p lane (laneShare l.gsize p lane) l.alloc

/-- One thread of a launch group placed (18 R379). -/
def State.placeRoot (s : State) (id : Nat) (l : Launch) (x : GroupDeal) (t : Nat) : State :=
  let g := x.gcore
  let part := t / 32 % 4
  let lane := t % 32
  let cx := (s.freeContext g part lane).getD 0
  let k := Config.frameSpan * g + (s.freeFrames g 1).headD 0
  let args := (l.params.take l.nparam).map fun w => ((w, .raw) : RegVal)
  let c := s.core g
  let th := { Thread.placed part lane cx l.entry l.alloc args l.check t x.index id 0 0 l.ctxid c.spawnSeq with
              group := x.group.map fun n => ⟨n, false, false⟩ }
  let f := Frame.taken .root 0 g part lane cx id x.index l.ctxid
  let s1 := s.setCore g { c with spawnSeq := c.spawnSeq + 1 }
  { s1 with threads := s1.threads.put k th, frames := s1.frames.put k f }

/-- A launch group placed whole (18 R379). -/
def State.placeGroup (s : State) (id : Nat) (l : Launch) (x : GroupDeal) : State :=
  let s1 := s.carryHandler x.gcore l.ctxid l.handler
  let s2 := (List.range l.gsize).foldl (fun acc t => acc.placeRoot id l x t) s1
  (s2.onLaunch id fun l => { l with roots := l.roots + l.gsize, groups := l.groups.filter fun y => y.index != x.index }).incoming
    x.gcore

/-- The barrier of a cluster group or pair group (01 R51, R52). -/
def groupBarrier (l : Launch) (id : Nat) (xs : List GroupDeal) : Barrier :=
  let cls := (xs.map fun x => clusterOf x.gcore).eraseDups
  { clusters := cls, cores := xs.map (·.gcore), live := cls.map fun cl => l.gsize * (xs.filter fun x => clusterOf x.gcore == cl).length,
    arrivals := cls.map fun _ => 0, done := [], stamp := 0, launch := id }

/-- LAUNCH_GROUP_PLACE (18 R379): a core places its next launch group; the members of a cluster group or pair group are placed
together, each first on its core. -/
def execLaunchGroupPlace (core : Nat) (s : State) : Host.Outcome State Fault Refusal :=
  match s.nextGroup core with
  | none => .next s
  | some (id, x) =>
    match s.launches.get id with
    | none => .next s
    | some l =>
      let xs := l.groups.filter fun y => y.unit == x.unit
      let ready := fun (y : GroupDeal) => s.groupFits id l y.gcore && (s.nextGroup y.gcore).any fun (j, z) => j == id && z.index == y.index
      if !(xs.all ready) then .next s
      else
        let s1 := xs.foldl (fun acc y => acc.placeGroup id l y) s
        match x.group with
        | none => .next s1
        | some n => .next { s1 with groups := s1.groups.put n (groupBarrier l id xs) }

/-- The first root fault record of a launch, as the words FREC and FADDR (18 R372). -/
def Launch.frecWord (l : Launch) : Nat :=
  if l.nfault = 0 then 0
  else l.frec.code + 2 ^ 16 * l.frec.core + 2 ^ 24 * l.frec.part + 2 ^ 26 * l.frec.lane + 2 ^ 31 * l.frec.ctx + 2 ^ 35 + 2 ^ 36 * l.fgroup

/-- The pins of a lease are given back; a launch that waits for a lease to end tries again (14 R325). -/
def State.unpin (s : State) (pins : List Nat) : State :=
  { s with launches := if pins.isEmpty then s.launches else s.launches.mapVals fun _ l => { l with waits := false },
           pages := pins.foldl (fun acc p => acc.update p fun x => { x with pins := x.pins - 1 }) s.pages }

/-- What the rendering units hold of a launch that is complete is released (log 32). -/
def State.endRender (s : State) (id : Nat) : State :=
  let copies := (s.renders.get id).elim [] Render.carried
  let s1 := copies.foldl (fun acc c => acc.freeSpill c.cl c.blocks) { s with renders := s.renders.del id }
  s.clusters.foldl (fun acc (cl, c) =>
    match c.bucket with
    | some o =>
      if o.launch = id then
        let spilled := o.grids.flatMap fun g => match g.mem with | .spill bs => bs | .bucket _ => []
        (acc.onCluster cl fun c => { c with bucket := none }).freeSpill cl spilled
      else acc
    | none => acc) s1

/-- A launch completes once every group is placed and every root completion delivered: its reservations and leases end, its
record is written with STATE last, and its vector is signalled (18 R381). A regeneration's launch stays for its manager
(14 R327). -/
def State.completeLaunch (s : State) (id : Nat) : State :=
  match s.launches.get id with
  | none => s
  | some l =>
    if l.stage != .dealt || !l.groups.isEmpty || l.roots != 0 then s
    else
      match l.origin with
      | .regen _ _ => s
      | .queue =>
        let s1 := ({ s with launches := s.launches.del id }).unpin l.pins
        let s2 := if l.render then s1.endRender id else s1
        let s3 := s2.homeWrite (l.packet + 228) (leBytes 4 (l.nfault + 2 ^ 16 * l.nkill) ++ leBytes 8 l.frecWord
          ++ leBytes 8 l.frec.addr ++ leBytes 8 l.stamp)
        let s4 := (s3.packetState l.packet 2 0).onQueue l.queue fun x =>
          if x.awaits l.order then { x with donePrev := true } else x
        if l.irq then s4.signal l.vector else s4

/-- A root's completion recorded in its launch (18 R381). -/
def Launch.rooted (l : Launch) (lgroup : Nat) (c : Completion) : Launch :=
  let l1 := { l with roots := l.roots - 1, stamp := max l.stamp c.stamp }
  match c.kind with
  | .ok => l1
  | .killed => { l1 with nkill := min 0xFFFF (l1.nkill + 1) }
  | .fault =>
    let l2 := if l1.nfault = 0 then { l1 with frec := c.report, fgroup := lgroup } else l1
    { l2 with nfault := min 0xFFFF (l2.nfault + 1) }

/-- ROOT_COMPLETION (18 R381, 01 R41): of the root completions of a launch, that of the lowest sending core is delivered, the
oldest of that core first. -/
def execRootCompletion (launch : Nat) (s : State) : Host.Outcome State Fault Refusal :=
  match takeLowest (fun m => match m with | .rootCompletion l _ _ x => if l = launch then some x.gcore else none | _ => none) s.net with
  | some (.rootCompletion _ lgroup c x, rest) =>
    .next (((({ s with net := rest }).delivered x).onLaunch launch fun l => l.rooted lgroup c).completeLaunch launch)
  | _ => .next s

end Sys2Proof.Machine
end

