-- ==== Sys2Proof/Machine/Steal.lean ====
section
/-! DEFINITION. Stealing within a die and across dies, the remote-child tables, and the loss of a die (01 R57 to R61; 16 R361,
R362; 18 R382). -/

namespace Sys2Proof.Machine

/-- A ready thread whose stall count has elapsed, and whose issue no stop forbids: a pre-emption, a kill and a debugger stop let
it go on to its next boundary (01 R22, 05 R110). -/
def State.canIssue (s : State) (t : Thread) : Bool :=
  t.run == .ready && t.resident && !t.draining && t.deferred.isNone && t.stall ≤ s.cycle
    && ((s.running t.ctxid && !t.dying && t.stopping.isNone)
      || (((s.ctx t.ctxid).state == .saving || s.running t.ctxid) && !t.boundary))

/-- Cycles of the 4 µs and 200 µs bounds (01 R59, 18 R382). -/
def ackTime : Nat := micros 4
def longTime : Nat := micros 200

/-- The compute die of a virtual die is gated (20 R407). -/
def State.isGated (s : State) (v : Nat) : Bool := (s.die (s.physDie v)).gated

/-- A thread of a core has been eligible in this cycle (01 R22). -/
def State.active (s : State) (g : Nat) : Bool := (s.core g).activeAt == some s.cycle

/-- A core is idle, judged when the ports of the cycle have issued (01 R57). A thread that an edge of this cycle has given it, or has
made ready, counts as eligible. -/
def State.idle (s : State) (g : Nat) : Bool :=
  s.coreOn g && !(s.dist (dieOf g)).lost && !s.isGated (dieOf g) && !s.readmitting g
    && !s.active g && !(s.core g).edge && !((s.core g).bins.any fun (_, b) => (s.binPlace g b).isSome)

/-- The other cores of a core's die, from the next physical index on, wrapping (01 R57). -/
def State.victims (s : State) (g : Nat) : List Nat :=
  let all := s.dieCoreList (dieOf g)
  all.filter (g < ·) ++ all.filter (· < g)

/-- The other present dies from a die on, wrapping (18 R382). -/
def State.otherDies (s : State) (v : Nat) : List Nat :=
  let all := (List.range s.fuses.dies).filter fun w => !(s.dist w).lost
  all.filter (v < ·) ++ all.filter (· < v)

/-- A core's request moves on at its distributor to the next die, or is refused by every die (18 R382). -/
def State.nextDie (s : State) (g : Nat) : State :=
  let v := dieOf g
  match (s.dist v).asking.find? fun (c, _) => c == g with
  | some (_, w :: rest) =>
    (s.onDist v fun d => { d with asking := d.asking.map fun (c, l) => if c = g then (c, rest) else (c, l) }).send (.distRequest w v g s.cycle)
  | _ =>
    (s.onDist v fun d => { d with asking := d.asking.filter fun (c, _) => c != g }).onCore g
      fun c => { c with seek := .retry s.cycle }

/-- A core asks its die's distributor (01 R57, 18 R382). -/
def State.askDist (s : State) (g : Nat) : State :=
  let v := dieOf g
  let s1 := s.onCore g fun c => { c with seek := .distributor }
  (s1.onDist v fun d => { d with asking := d.asking.filter (fun (c, _) => c != g) ++ [(g, s.otherDies v)] }).nextDie g

/-- A request goes on to the next core of the die, or to the distributor (01 R57). -/
def State.askNext (s : State) (g : Nat) : List Nat → State
  | v :: rest => (s.onCore g fun c => { c with seek := .asking v rest }).send (.workRequest v g)
  | [] => s.askDist g

/-- A refusal moves a core's request on (01 R57, 18 R382). -/
def State.refused (s : State) (g : Nat) : State :=
  match (s.core g).seek with
  | .asking _ rest => s.askNext g rest
  | .distributor => s.nextDie g
  | _ => s

/-- WORK_REQUEST (01 R57): an idle core asks the next core of its die. -/
def execWorkRequest (core : Nat) (s : State) : Host.Outcome State Fault Refusal :=
  if s.idle core && (s.core core).seek == .idle then .next (s.askNext core (s.victims core)) else .next s

/-- STEAL_RETRY (18 R382): a core that every die refused asks again after 4 µs, if it is still idle. -/
def execStealRetry (core : Nat) (s : State) : Host.Outcome State Fault Refusal :=
  match (s.core core).seek with
  | .retry since =>
    if s.cycle < since + ackTime then .next s
    else if s.idle core then .next (s.askNext core (s.victims core))
    else .next (s.onCore core fun c => { c with seek := .idle })
  | _ => .next s

/-- The bin that a victim gives: its oldest, of a context that runs (01 R57 step 1). The spec does not say what makes a bin the
oldest: DESIGN CHOICE, the cycle in which it was opened, or filled from a record, and among equals the lowest index (log 55). -/
def State.oldestBin (s : State) (g : Nat) : Option (Nat × Bin) :=
  bestOf (fun x y => x.2.born < y.2.born) ((s.core g).bins.filter fun (_, b) =>
    !b.offered && !b.children.isEmpty && s.running b.ctxid)

/-- The range slot that a victim splits: the largest, ties to the lower index (01 R37 step 1). One of a thread that a kill awaits is
not split (18 R387). -/
def State.splitSlot (s : State) (g : Nat) : Option (Nat × RangeSlot) :=
  bestOf (fun x y => y.2.hi - y.2.cur < x.2.hi - x.2.cur) ((s.core g).slots.filter fun (_, r) =>
    2 ≤ r.hi - r.cur && (s.threads.get r.thread).any fun t => s.running t.ctxid && !t.dying)

/-- A split of a core's largest slot would raise LIVE of the parent frame past its limit: the request waits until a child
completes (01 R40). -/
def State.splitHeld (s : State) (g : Nat) : Bool :=
  (s.oldestBin g).isNone && (s.core g).splitEn
    && (s.splitSlot g).any fun (_, r) => (s.frames.get r.thread).any fun f =>
      match f.owner with
      | .child parent _ => (s.frames.get parent).any fun p => liveLimit ≤ p.live
      | _ => false

/-- A record offered by a core in the first phase of 01 R58. -/
def State.offer (s : State) (g : Nat) (r : StealRec) (bin : Option Nat) : State :=
  (s.onCore g fun c => { c with offers := c.offers ++ [⟨r, bin, s.cycle, false⟩] }).send (.stealRecord r)

/-- The sibling of a range split (01 R37; 12 R285). -/
def siblingOf (r : RangeSlot) (t : Thread) (f : Frame) (mid handler : Nat) : Option Child :=
  match f.owner with
  | .child parent _ =>
    some { args := r.args, alloc := r.alloc, check := t.check, range := some (mid, r.hi), parent := parent, ordinal := 0, stamp := r.stamp,
           launch := t.launch, lgroup := t.lgroup, ctxid := t.ctxid, handler := handler, grid := t.grid }
  | _ => none

/-- The remote-child table after a child moves from one die to another: its entry is made, moved or removed, and REMOTE
follows (01 R39, R61). -/
def State.moveChild (s : State) (to_ : Nat) (c : Child) : State :=
  let p := dieOf (coreOf c.parent)
  if to_ = p then s.dropRemote c.parent c.ordinal
  else if s.remoteEntry c.parent c.ordinal then
    s.onDist p fun d => { d with children := d.children.map fun (f, o, w) =>
      if f = c.parent ∧ o = c.ordinal then (f, o, to_) else (f, o, w) }
  else
    (s.onDist p fun d => { d with children := d.children ++ [(c.parent, c.ordinal, to_)] }).onFrame c.parent
      fun f => { f with remote := f.remote + 1 }

/-- The range slot of a suspended thread is written to its record again (09 R244). -/
def State.syncSlot (s : State) (k : FrameRef) : State :=
  match s.threads.get k, s.frames.get k with
  | some t, some f =>
    if t.susp.isNone || f.saveptr == 0 then s else s.pokes (f.saveptr + 168) ((Thread.recordSlot s k t).take 8)
  | _, _ => s

/-- A victim's range half (01 R37), or none. The sibling stands on the victim's die, which may be another than its parent's
(01 R61). -/
def State.splitRange (s : State) (g thief : Nat) : Option State :=
  match s.splitSlot g with
  | none => none
  | some (i, r) =>
    match s.threads.get r.thread, s.frames.get r.thread with
    | some t, some f =>
      let mid := r.cur + ceilDiv (r.hi - r.cur) 2
      match siblingOf r t f mid (s.handler r.thread t) with
      | none => none
      | some ch =>
        match s.frames.get ch.parent with
        | none => none
        | some pf =>
          let (id, s1) := s.fresh
          let s2 := s1.onFrame ch.parent fun f => { f with live := f.live + 1, nextseq := (f.nextseq + 1) % 2 ^ 28 }
          let s3 := (s2.onCore g fun c => { c with slots := c.slots.put i { r with hi := mid } }).syncSlot r.thread
          let child : Child := { ch with ordinal := pf.nextseq }
          some ((s3.moveChild (dieOf g) child).offer g { id := id, victim := g, thief := thief, entry := r.entry, ctxid := t.ctxid,
                                                         children := [child], half := true, bucket := none } none)
    | _, _ => none

/-- A core's answer to a request: its oldest bin, a range half, or nothing (01 R57). -/
def State.give? (s : State) (g thief : Nat) : Option State :=
  match s.oldestBin g with
  | some (i, b) =>
    let (id, s1) := s.fresh
    let s2 := s1.onCore g fun c =>
      { c with bins := c.bins.update i fun b => { b with offered := true },
               servedAt := if (s.binPlace g b).isSome then some s.cycle else c.servedAt }
    some (s2.offer g { id := id, victim := g, thief := thief, entry := b.entry, ctxid := b.ctxid, children := b.children,
                       half := false, bucket := none } (some i))
  | none => if (s.core g).splitEn then s.splitRange g thief else none

/-- WORK_REQUEST_ANSWER (01 R57): a victim answers the oldest request that has reached it. -/
def execWorkRequestAnswer (victim : Nat) (s : State) : Host.Outcome State Fault Refusal :=
  match takeMsg (fun m => match m with | .workRequest v _ => v == victim | _ => false) s.net with
  | some (.workRequest _ asker, rest) =>
    let s1 := { s with net := rest }
    .next ((s1.give? victim asker).getD (s1.refused asker))
  | _ => .next s

/-- A request that a distributor has been asked waits for a split that is held (01 R40). -/
def State.dieHeld (s : State) (die : Nat) : Bool :=
  ((s.dieCoreList die).find? fun g => (s.oldestBin g).isSome || ((s.core g).splitEn && (s.splitSlot g).isSome)).any s.splitHeld

/-- DISTRIBUTOR_REQUEST (18 R382): of the requests that have reached a distributor, the first to come, of those of one cycle that of
the lowest die, is put to the cores in ascending order; the first record offered ends it. -/
def execDistributorRequest (die : Nat) (s : State) : Host.Outcome State Fault Refusal :=
  match takeLowest (fun m => match m with | .distRequest v asker _ since => if v = die then some (4 * since + asker) else none | _ => none) s.net with
  | some (.distRequest _ _ core _, rest) =>
    let s1 := { s with net := rest }
    let found := if (s1.dist die).lost then none else (s1.dieCoreList die).findSome? fun g => s1.give? g core
    .next (found.getD (s1.refused core))
  | _ => .next s

/-- A thief accepts a record when its queue of eight has room, its die is not lost, and no reservation conflicts (01 R58,
R61; 18 R380). One whose children have all been killed on their way is not accepted (18 R387). -/
def State.accepts (s : State) (r : StealRec) : Bool :=
  !r.children.isEmpty && s.coreOn r.thief && !(s.dist (dieOf r.thief)).lost
    && ((s.core r.thief).inbound.filter fun x => !x.own).length < 8
    && r.children.all fun c => s.reservable c.launch r.thief

/-- STEAL_RECORD (01 R58; 16 R361): a record reaches its thief, which replies ACK or REFUSE. -/
def execStealRecord (thief : Nat) (s : State) : Host.Outcome State Fault Refusal :=
  match takeMsg (fun m => match m with | .stealRecord r => r.thief == thief | _ => false) s.net with
  | some (.stealRecord r, rest) =>
    let s1 := { s with net := rest }
    let x : Inbound := ⟨r, false, false⟩
    if 144 ≤ thief then
      (if (s1.dist (thief - 144)).lost then .next (s1.send (.refuse r.victim r.id thief))
       else .next ((s1.onDist (thief - 144) fun d => { d with inbound := d.inbound ++ [x] }).send (.ack r.victim r.id thief)))
    else if s1.accepts r then
      .next ((s1.onCore thief fun c => { c with inbound := c.inbound ++ [x] }).send (.ack r.victim r.id thief))
    else .next (s1.send (.refuse r.victim r.id thief))
  | _ => .next s

/-- The offers of a core or a distributor. -/
def State.offersOf (s : State) (agent : Nat) : List Offer :=
  if 144 ≤ agent then (s.dist (agent - 144)).offers else (s.core agent).offers

/-- An offer leaves its victim. -/
def State.dropOffer (s : State) (agent id : Nat) : State :=
  let keep := fun (o : Offer) => o.record.id != id
  if 144 ≤ agent then s.onDist (agent - 144) fun d => { d with offers := d.offers.filter keep }
  else s.onCore agent fun c => { c with offers := c.offers.filter keep }

/-- Where a core's section of a context's save lies (18 R384). -/
def State.savedAt (s : State) (ctx g : Nat) : Option Nat := (s.ctx ctx).savedCoreAt.get g

/-- A bin that stands in the save of a context changes there, or leaves it (01 R58, R59). -/
def State.onSavedBin (s : State) (ctx g i : Nat) (f : Bin → Option Bin) : State :=
  let here := fun (x : Nat × Nat × Bin) => x.1 == g && x.2.1 == i
  match (s.ctx ctx).savedBins.find? here, s.savedAt ctx g with
  | some (_, _, b), some a =>
    (s.onCtx ctx fun c => { c with savedBins := c.savedBins.filterMap fun x => if here x then (f b).map fun y => (g, i, y) else some x }).pokes
      (a + 0x1900 + 4160 * i) (Bin.record (f b))
  | _, _ => s

/-- The inbound records of a core that stand in the save of a context. -/
def State.savedQueue (s : State) (ctx g : Nat) : List Inbound :=
  (s.ctx ctx).savedInbound.filterMap fun (h, x) => if h = g then some x else none

/-- The inbound queue of a core in the save of a context changes: the eight records of its section are written again (01 R59;
18 R384). -/
def State.onSavedInbound (s : State) (ctx g : Nat) (f : List Inbound → List Inbound) : State :=
  let q := f (s.savedQueue ctx g)
  let s1 := s.onCtx ctx fun c => { c with savedInbound := c.savedInbound.filter (fun (h, _) => h != g) ++ q.map fun x => (g, x) }
  match s.savedAt ctx g with
  | none => s1
  | some a =>
    (List.range 8).foldl (fun acc i =>
      acc.pokes (a + 0x11D00 + 4160 * i) ((q[i]?).elim (Bin.record none) fun x => binRecord x.record.entry 2 0 x.record.children)) s1

/-- A context's records stand in its save. -/
def State.stored (s : State) (ctx : Nat) : Bool := (s.ctx ctx).state == .saved || (s.ctx ctx).state == .restoring

/-- A child whose steal record is lost with its thief completes as killed (01 R59, R61). -/
def State.loseChild (s : State) (parent : FrameRef) (ordinal : Nat) : State :=
  (s.countAt (coreOf parent) 19).applyCompletion parent ordinal ⟨.killed, FaultRec.none, 0⟩

/-- The distributor that takes what a lost bucket owes: the bucket's first owner, or the lowest die not lost. -/
def State.bucketHeir (s : State) (b : Nat) : Nat :=
  if (s.dist (b % s.fuses.dies)).lost then (s.dealDies).headD 0 else b % s.fuses.dies

/-- A bucket record lost after ACK is lost whole, and counted once (16 R362): its entries' receivers are released, its carried grids
dropped. One that is not in transit has been lost before. -/
def State.loseBucket (s : State) (launch b : Nat) : State :=
  match (s.renders.get launch).bind fun r => r.buckets.get b with
  | none => s
  | some x =>
    if x.state != .moving then s else
    let s1 := (s.releasePatches launch x.list).onBucket launch b fun x => { x with state := .closed, list := [], carried := [] }
    (x.carried.foldl (fun acc id => acc.dropCarried launch id b) s1).count (s.physDie (s.bucketHeir b)) 14

/-- The victim discards its copy of a record that has been acknowledged (01 R58 step 3; 16 R361). A thief lost since it sent ACK
has lost the record (01 R59; 16 R362). -/
def State.discardCopy (s : State) (o : Offer) : State :=
  let r := o.record
  let s1 := s.dropOffer r.victim r.id
  match r.bucket with
  | some (launch, b) =>
    if (s.dist (r.thief - 144)).lost then s1.loseBucket launch b else s1.onBucket launch b fun x => { x with owner := r.thief - 144 }
  | none =>
    let s2 := match o.bin with
      | some i =>
        if s1.stored r.ctxid then s1.onSavedBin r.ctxid r.victim i fun _ => none
        else (s1.onCore r.victim fun c => { c with bins := c.bins.del i }).binWaiting r.victim
      | none => s1
    if dieOf r.victim = dieOf r.thief then s2
    else
      let s3 := r.children.foldl (fun acc c => acc.moveChild (dieOf r.thief) c) s2
      if (s.dist (dieOf r.thief)).lost then
        r.children.foldl (fun acc c => if acc.remoteEntry c.parent c.ordinal then acc.loseChild c.parent c.ordinal else acc) s3
      else s3

/-- ACK (01 R58, R59): an acknowledged record leaves its victim, which replies COMMIT; a late ACK is answered with REVOKE. -/
def execAck (victim : Nat) (s : State) : Host.Outcome State Fault Refusal :=
  match takeMsg (fun m => match m with | .ack v _ _ => v == victim | _ => false) s.net with
  | some (.ack _ id thief, rest) =>
    let s1 := { s with net := rest }
    match (s1.offersOf victim).find? fun o => o.record.id == id with
    | some o => .next ((s1.discardCopy o).send (.commit thief id victim))
    | none => .next (s1.send (.revoke thief id victim))
  | _ => .next s

/-- The inbound records of a core, and those of it that stand in saves, change (01 R58, R59). -/
def State.onInbound (s : State) (g : Nat) (id : Nat) (f : List Inbound → List Inbound) : State :=
  let s1 := s.onCore g fun c => { c with inbound := f c.inbound }
  s.ctxs.keys.foldl (fun acc ctx =>
    if (acc.savedQueue ctx g).any fun x => x.record.id == id then acc.onSavedInbound ctx g f else acc) s1

/-- COMMIT (01 R58, R59; 16 R361): the thief bins the record as a closed bin when one is free; a record in a save is committed
there, and a bucket stands at its new owner. A lost thief takes nothing: a bucket is lost, and a record's children have completed as
killed. -/
def execCommit (thief : Nat) (s : State) : Host.Outcome State Fault Refusal :=
  match takeMsg (fun m => match m with | .commit t _ _ => t == thief | _ => false) s.net with
  | some (.commit _ id _, rest) =>
    let s1 := { s with net := rest }
    if 144 ≤ thief then
      let v := thief - 144
      match (s1.dist v).inbound.find? fun x => x.record.id == id with
      | none => .next s1
      | some x =>
        let s2 := s1.onDist v fun d => { d with inbound := d.inbound.filter fun y => y.record.id != id }
        match x.record.bucket with
        | none => .next s2
        | some (launch, b) =>
          if (s1.dist v).lost then .next (s2.loseBucket launch b)
          else .next (((s2.onBucket launch b fun y => { y with state := .unopened }).reportCount launch v).serveDie v)
    else if (s1.dist (dieOf thief)).lost then .next (s1.onInbound thief id fun q => q.filter fun x => x.record.id != id)
    else
      let s2 := (s1.onInbound thief id fun q => q.map fun x => if x.record.id = id then { x with committed := true } else x).onCore thief
        fun c => { c with seek := .idle }
      .next (s2.binWaiting thief)
  | _ => .next s

/-- A victim reinstates a record (01 R58): a bin is as it was, and free where a kill has left none of its children; a range half becomes a closed bin, or waits for one. -/
def State.reinstate (s : State) (o : Offer) : State :=
  let r := o.record
  let s1 := s.dropOffer r.victim r.id
  let held : Inbound := ⟨r, true, true⟩
  match r.bucket, o.bin with
  | some (launch, b), _ => (s1.onBucket launch b fun x => { x with state := .unopened }).reportCount launch (r.victim - 144)
  | none, some i =>
    let back := fun (b : Bin) => if b.children.isEmpty then none else some { b with offered := false }
    if s1.stored r.ctxid then s1.onSavedBin r.ctxid r.victim i back
    else
      (s1.onCore r.victim fun c =>
        { c with bins := match (c.bins.get i).bind back with
            | some b => c.bins.put i b
            | none => c.bins.del i }).binWaiting r.victim
  | none, none =>
    if r.children.isEmpty then s1
    else if s1.stored r.ctxid then s1.onSavedInbound r.ctxid r.victim fun q => q ++ [held]
    else (s1.onCore r.victim fun c => { c with inbound := c.inbound ++ [held] }).binWaiting r.victim

/-- REFUSE (01 R57, R58): the victim reinstates the record, and the thief's request goes on. -/
def execRefuse (victim : Nat) (s : State) : Host.Outcome State Fault Refusal :=
  match takeMsg (fun m => match m with | .refuse v _ _ => v == victim | _ => false) s.net with
  | some (.refuse _ id thief, rest) =>
    let s1 := { s with net := rest }
    let s2 := match (s1.offersOf victim).find? fun o => o.record.id == id with
      | some o => s1.reinstate o
      | none => s1
    .next (if 144 ≤ thief then s2 else s2.refused thief)
  | _ => .next s

/-- How long a victim waits for ACK: toward a gated die, 200 µs (01 R59). -/
def State.ackBound (s : State) (thief : Nat) : Nat :=
  if s.isGated (if 144 ≤ thief then thief - 144 else dieOf thief) then longTime else ackTime

/-- ACK_TIMEOUT (01 R59): a record not acknowledged in time is reinstated. -/
def execAckTimeout (victim id : Nat) (s : State) : Host.Outcome State Fault Refusal :=
  match (s.offersOf victim).find? fun o => o.record.id == id with
  | some o => if o.since + s.ackBound o.record.thief ≤ s.cycle then .next (s.reinstate o) else .next s
  | none => .next s

/-- REVOKE (01 R59): the thief discards a record acknowledged late. -/
def execRevoke (thief : Nat) (s : State) : Host.Outcome State Fault Refusal :=
  match takeMsg (fun m => match m with | .revoke t _ _ => t == thief | _ => false) s.net with
  | some (.revoke _ id _, rest) =>
    let s1 := { s with net := rest }
    let keep := fun (q : List Inbound) => q.filter fun x => x.record.id != id
    if 144 ≤ thief then .next (s1.onDist (thief - 144) fun d => { d with inbound := keep d.inbound })
    else .next ((s1.onInbound thief id keep).onCore thief fun c => { c with seek := .idle })
  | _ => .next s

/-- LIVENESS_PROBE (01 R61): a distributor probes the other present dies, which answer. A die that stops answering is a failure
from outside the model, which DIE_LOST names (log 6). -/
def execLivenessProbe (die : Nat) (s : State) : Host.Outcome State Fault Refusal :=
  .next ((s.otherDies die).foldl (fun acc w => acc.onDist w fun d => { d with answered := s.cycle }) s)

/-- A die is declared lost, and the loss broadcast to every distributor (01 R61). -/
def State.loseDie (s : State) (v : Nat) : State :=
  let s1 := s.onDist v fun d => { d with lost := true }
  (List.range s.fuses.dies).foldl (fun acc w => acc.send (.lossBroadcast w v)) s1

/-- DIE_LOST (01 R61): a die whose distributor has not answered for 200 µs is lost. -/
def execDieLost (die : Nat) (s : State) : Host.Outcome State Fault Refusal :=
  if die < s.fuses.dies ∧ !(s.dist die).lost then .next (s.loseDie die) else .next s

/-- The bucket records that a lost die had acknowledged and not received (16 R362). -/
def State.loseBuckets (s : State) (die lost : Nat) : State :=
  s.renders.foldl (fun acc (launch, r) =>
    r.buckets.foldl (fun acc (b, x) =>
      if x.state == .moving && x.owner == lost && s.bucketHeir b == die then acc.loseBucket launch b else acc) acc) s

/-- LOSS_BROADCAST (01 R61; 16 R362): a distributor completes every entry that names the lost die as killed. -/
def execLossBroadcast (die lost : Nat) (s : State) : Host.Outcome State Fault Refusal :=
  match takeMsg (fun m => match m with | .lossBroadcast v l => v == die && l == lost | _ => false) s.net with
  | some (_, rest) =>
    let s1 := { s with net := rest }
    let gone := (s1.dist die).children.filter fun (_, _, w) => w == lost
    let s2 := gone.foldl (fun acc (p, o, _) => acc.loseChild p o) s1
    .next (s2.loseBuckets die lost)
  | none => .next s

/-- A thread on a die that is reset is gone: it runs none of 01 R21. Its barrier counts it no more, and a root counts as
killed in its launch (log 35). -/
def State.vanish (s : State) (k : FrameRef) : State :=
  let s1 := match s.threads.get k with
    | some t =>
      let s0 := s.leaveBarrier k t
      let s0 := if t.pooled then s0.poolFreed else s0
      { s0 with threads := s0.threads.del k }
    | none => s
  let s2 := { s1 with futures := s1.futures.mapVals fun _ f => { f with waiters := f.waiters.filter (· != k) },
                      stores := s1.stores.filter fun x => x.thread != k }
  match s.frames.get k with
  | none => s2
  | some f =>
    let s3 := { s2 with frames := s2.frames.del k }
    match f.owner with
    | .root => s3.send (.rootCompletion f.launch f.lgroup ⟨.killed, FaultRec.none, 0⟩ (.core (coreOf k)))
    | _ => s3

/-- DIE_RESET (01 R59, R61): the cores, meets, slots and window registers of a die return to their reset state, and the die is
lost. -/
def execDieReset (die : Nat) (s : State) : Host.Outcome State Fault Refusal :=
  if s.fuses.dies ≤ die then .next s
  else
    let keys := (s.frames.keys ++ s.threads.keys.filter fun k => !s.frames.keys.contains k).filter fun k => dieOf (coreOf k) == die
    let s1 := keys.foldl State.vanish s
    let s2 := { s1 with cores := s1.cores.filter (fun (g, _) => dieOf g != die),
                        clusters := s1.clusters.filter fun (cl, _) => cl / 9 != die }
    let s3 := s2.onDist die fun d => { d with asking := [], children := [] }
    .next (s3.loseDie die)

/-- RETURN_TO_SERVICE (01 R61): a lost die returns with no resident thread, bin or inbound record. -/
def execReturnToService (die : Nat) (s : State) : Host.Outcome State Fault Refusal :=
  let empty := !(s.threads.any fun (k, t) => dieOf (coreOf k) == die && t.resident)
    && s.cores.all fun (g, c) => dieOf g != die || (c.bins.isEmpty && c.inbound.isEmpty)
  if (s.dist die).lost && empty then .next (s.onDist die fun d => { d with lost := false }) else .next s

end Sys2Proof.Machine
end

