-- ==== Sys2Proof/Machine/Residency.lean ====
section
/-! DEFINITION. L1 evictions, sweeps and replicas (12 R297, R304 to R306; 14 R316), and the residency manager: leases,
regeneration, aging, victims and the backing store (14 R325 to R329; 20 R395). -/

namespace Sys2Proof.Machine

/-- SWEEP_COMPLETE (12 R297). -/
def execSweepComplete (core : Nat) (s : State) : Host.Outcome State Fault Refusal :=
  .next (s.onCore core fun c => { c with sweeping := false })

/-- L1_EVICT (14 R316): a line leaves L1; its dirty bytes go home. -/
def execL1Evict (core line : Nat) (s : State) : Host.Outcome State Fault Refusal :=
  .next ((s.cleanLine core line).dropLine core line)

/-- A table entry as the manager reads it: one that reads as uncorrectable names nothing (log 61). -/
def State.entryAt (s : State) (a : Nat) : Nat := if s.bad a 8 then 0 else readNat s.mem a 8

/-- The entry at which the tables of an address end: its value, level and address. An entry that reads as uncorrectable names
nothing (14 R319; log 61). -/
def State.lastEntry (s : State) (va : Nat) : Nat → Nat → Nat × Nat × Nat
  | 0, t => (0, 1, t)
  | level + 1, t =>
    let a := t + 8 * bitsOf va (9 * (level + 1) + 11) (9 * (level + 1) + 3)
    let e := s.entryAt a
    if level = 0 ∨ testBit e 1 ∨ !testBit e 0 ∨ !s.tableOk (leafPa e) then (e, level + 1, a)
    else s.lastEntry va level (leafPa e)

/-- An entry is a leaf: LEAF is 1, at level 1, 2 or 3 (14 R318, R319). -/
def leafLevel (e level : Nat) : Bool := testBit e 1 && level ≤ 3

/-- The leaf-level entry of an address of a context: its value, level and address; none where the tables end before one. -/
def State.ctxLeaf (s : State) (ctx va : Nat) : Option (Nat × Nat × Nat) :=
  let x := s.lastEntry va 5 (s.ctx ctx).root
  if leafLevel x.1 x.2.1 then some x else none

/-- What a leaf-level entry says of its page (14 R319). -/
inductive Residence where
  | resident (pa : Nat)
  | backed (slot : Nat)
  | regenerable (index : Nat)
  deriving DecidableEq, Repr

/-- The residence of an entry, or none for an unmapped page (14 R319). -/
def residence (e : Nat) : Option Residence :=
  if testBit e 0 then some (.resident (leafPa e))
  else if leafRegen e then some (.regenerable (bitsOf e 27 12))
  else if bitsOf e 51 12 != 0 then some (.backed (bitsOf e 51 12 - 1))
  else none

/-- A leaf page of a lease: its virtual base, level, entry address, entry, its 4 KiB frames, and its residence. What the range
has of unmapped pages under one entry is one of these, with no residence. -/
structure LeafPage where
  va : Nat
  level : Nat
  at_ : Nat
  entry : Nat
  frames : Nat
  res : Option Residence
  deriving DecidableEq, Repr

/-- The leaf pages from an address to the end of a range (14 R325). The unmapped pages under one entry count as 4 KiB each
(log 37). -/
def State.leafPages (s : State) (ctx last : Nat) : Nat → Nat → List LeafPage
  | 0, _ => []
  | fuel + 1, va =>
    if last ≤ va then []
    else
      let (e, level, a) := s.lastEntry va 5 (s.ctx ctx).root
      let size := leafSize level
      let base := va / size * size
      let p : LeafPage := match if leafLevel e level then residence e else none with
        | some r => ⟨base, level, a, e, size / 4096, some r⟩
        | none => ⟨va, level, a, e, (min last (base + size) - va + 4095) / 4096, none⟩
      p :: s.leafPages ctx last fuel (base + size)

/-- The set P of a launch, without repeats (14 R325). -/
def State.leasePages (s : State) (l : Launch) : List LeafPage :=
  (l.leases.flatMap fun (b, n) => s.leafPages l.ctxid (b + n) (n / 4096 + 1) b).foldl
    (fun (acc : List LeafPage) (p : LeafPage) => if acc.any (fun q => q.at_ == p.at_ && q.va == p.va) then acc else acc ++ [p]) []

/-- The number of numbers that some intervals cover together, each given by its start and length, in ascending start. -/
def unionLength (l : List (Nat × Nat)) : Nat :=
  (l.foldl (fun (acc : Nat × Nat) (x : Nat × Nat) => (acc.1 + (x.1 + x.2 - max x.1 acc.2), max acc.2 (x.1 + x.2))) (0, 0)).1

/-- P counted in 4 KiB frames (14 R325): the pages, and the unmapped addresses, each counted once where ranges overlap. -/
def leaseFrames (ps : List LeafPage) : Nat :=
  ((ps.filter fun p => p.res.isSome).map LeafPage.frames).sum
    + unionLength (sortBy (·.1) ((ps.filter fun p => p.res.isNone).map fun p => (p.va / 4096, p.frames)))

/-- Every leaf-level entry under a table, with its virtual base, level and address, and the tables. -/
def State.leavesUnder (s : State) : Nat → Nat → Nat → List (Nat × Nat × Nat × Nat)
  | 0, _, _ => []
  | level + 1, t, va =>
    (List.range 512).flatMap fun i =>
      let a := t + 8 * i
      let e := s.entryAt a
      let v := va + i * 2 ^ (9 * (level + 1) + 3)
      if !testBit e 0 then []
      else if testBit e 1 then (if level < 3 then [(v, level + 1, a, e)] else [])
      else if s.tableOk (leafPa e) then s.leavesUnder level (leafPa e) v
      else []

/-- The slots of the backing store that the non-valid leaves under a table name: the first slot and their number (14 R319). -/
def State.slotsUnder (s : State) : Nat → Nat → List (Nat × Nat)
  | 0, _ => []
  | level + 1, t =>
    (List.range 512).flatMap fun i =>
      let e := s.entryAt (t + 8 * i)
      if !testBit e 0 && leafLevel e (level + 1) then
        match residence e with
        | some (.backed k) => [(k, leafSize (level + 1) / 4096)]
        | _ => []
      else if testBit e 0 && !testBit e 1 && s.tableOk (leafPa e) then s.slotsUnder level (leafPa e)
      else []

/-- The tables reached from a table. -/
def State.tablesUnder (s : State) : Nat → Nat → List Nat
  | 0, _ => []
  | level + 1, t =>
    t :: (List.range 512).flatMap fun i =>
      let e := s.entryAt (t + 8 * i)
      if testBit e 0 && !testBit e 1 && s.tableOk (leafPa e) then s.tablesUnder level (leafPa e) else []

/-- The contexts whose tables the manager keeps: those with a root. -/
def State.rooted (s : State) : List (Nat × Ctx) := s.ctxs.filter fun (_, c) => c.root != 0

/-- Every valid leaf of every context: context, virtual base, level, entry address and entry. -/
def State.allLeaves (s : State) : List (Nat × Nat × Nat × Nat × Nat) :=
  s.rooted.flatMap fun (c, x) => (s.leavesUnder 5 x.root 0).map fun (v, l, a, e) => (c, v, l, a, e)

/-- Ranges of device memory that hold tables, rings and save areas: never free frames (log 37). -/
def State.kept (s : State) : List (Nat × Nat) :=
  (s.rooted.flatMap fun (_, x) =>
      ((s.tablesUnder 5 x.root).map fun t => (t, 4096))
        ++ [(x.csa, 4096 * x.csalim), (x.susp, 4096 * x.susplim), (x.dbgrep, 65536)])
    ++ (s.queues.map fun (_, q) => (q.base, 256 * 2 ^ q.size))
    ++ [(s.pkg.regenbase, 64 * s.pkg.regenlim)]

/-- A frame of some size is free: no leaf maps it, it holds nothing that is kept, and every byte of it is 0 (14 R329; log 37). -/
def State.frameFree (s : State) (leaves : List (Nat × Nat × Nat × Nat × Nat)) (pa size : Nat) : Bool :=
  !(leaves.any fun (_, _, l, _, e) => overlap pa size (leafPa e) (leafSize l)) && !(s.kept.any fun (b, n) => overlap pa size b n)
    && !(s.mem.any fun (a, _) => pa ≤ a && a < pa + size)

/-- The lowest free frame of a size, below the firmware region. -/
def State.findFrame (s : State) (leaves : List (Nat × Nat × Nat × Nat × Nat)) (size : Nat) : Nat → Nat → Option Nat
  | 0, _ => none
  | fuel + 1, pa =>
    if s.pkg.fwbase < pa + size then none
    else if s.frameFree leaves pa size then some pa
    else s.findFrame leaves size fuel (pa + size)

/-- A free frame of a size (14 R325, R327). -/
def State.freePage (s : State) (size : Nat) : Option Nat := s.findFrame s.allLeaves size (s.pkg.fwbase / size + 1) 0

/-- A number of free frames lie at home on a physical die. -/
def State.framesOnDie (s : State) (leaves : List (Nat × Nat × Nat × Nat × Nat)) (die : Nat) : Nat → Nat → Nat → Bool
  | 0, _, n => n == 0
  | fuel + 1, pa, n =>
    if n = 0 then true
    else if s.pkg.fwbase < pa + 4096 then false
    else s.framesOnDie leaves die fuel (pa + 4096) (if s.homeDie pa == die && s.frameFree leaves pa 4096 then n - 1 else n)

/-- A replica of a page is due on a physical die: the threshold is reached, or a PREFETCH asked for it, and the die has a free
frame beside those that hold its replicas (12 R304; log 46). -/
def State.replicaDue (s : State) (die page : Nat) : Bool :=
  let d := s.die die
  !d.replicas.contains page && (d.replWanted.contains page || (0 < d.thresh && d.thresh ≤ d.remoteReads.getD page 0))
    && s.framesOnDie s.allLeaves die (s.pkg.fwbase / 4096 + 1) 0 (d.replicas.length + 1)

/-- REPLICA_MAKE (12 R304). -/
def execReplicaMake (die page : Nat) (s : State) : Host.Outcome State Fault Refusal :=
  if s.replicaDue die page then
    .next (s.onDie die fun d =>
      { d with replicas := d.replicas ++ [page], replWanted := d.replWanted.filter (· != page), remoteReads := d.remoteReads.del page,
               replMade := min 0xFFFF (d.replMade + 1) })
  else .next s

/-- REPLICA_DROP (12 R305). -/
def execReplicaDrop (die page : Nat) (s : State) : Host.Outcome State Fault Refusal :=
  if (s.die die).replicas.contains page then
    .next (s.onDie die fun d =>
      { d with replicas := d.replicas.filter (· != page), replDropped := min 0xFFFF (d.replDropped + 1) })
  else .next s

/-- What the manager holds of a resident page. -/
def State.pageUse (s : State) (pa : Nat) : PageUse := s.pages.getD pa ⟨0, 0, 0, 0, none⟩

/-- The age of a page: the least among its frames (14 R328). -/
def State.pageAge (s : State) (pa size : Nat) : Nat :=
  (span (pa / 4096) (size / 4096)).foldl (fun acc f => min acc (s.agings - s.ages.getD f 0)) 255

/-- Some leaf names a slot of the backing store. -/
def State.slotNamed (s : State) (j : Nat) : Bool :=
  (s.rooted.flatMap fun (_, x) => s.slotsUnder 5 x.root).any fun (k, n) => k ≤ j && j < k + n

/-- A slot of the manager's range is free: it was never used, its page was read back, or no leaf names it any more, since
privileged software has freed the page (20 R395). -/
def State.slotFree (s : State) (j : Nat) : Bool := (s.backUsed.get j).isNone || !s.slotNamed j

/-- The addresses of pages that privileged software has freed are forgotten: what software puts into such a slot later lies where
the registers say (20 R395; log 37). -/
def State.dropFreed (s : State) : State := { s with backUsed := s.backUsed.filter fun (j, _) => s.slotNamed j }

/-- The lowest run of n free slots of the manager's range (20 R395; log 37). -/
def State.freeSlot (s : State) (n : Nat) : Option Nat :=
  (span s.pkg.backrsv (s.pkg.backpages - s.pkg.backrsv)).find? fun k => k + n ≤ s.pkg.backpages && (span k n).all s.slotFree

/-- Some lease pins a frame of a page (14 R325). -/
def State.pinned (s : State) (pa size : Nat) : Bool :=
  s.pages.any fun (p, u) => u.pins != 0 && overlap pa size p (leafSize u.level)

/-- The regeneration index of a leaf that the manager wrote; none for one that software wrote, whatever its REGEN bit, there or
over the manager's (14 R326). -/
def State.regenOf (s : State) (ctx va e : Nat) : Option Nat :=
  let u := s.pageUse (leafPa e)
  if u.ctxid = ctx ∧ u.va = va then (u.regen.filter fun x => x.2 == e).map (·.1) else none

/-- A leaf page that may be released: resident in device memory below the firmware region, not pinned, and regenerable or with
room in the backing store (14 R328, 20 R395). -/
def State.releasable (s : State) (ctx va level e : Nat) : Bool :=
  let pa := leafPa e
  let size := leafSize level
  pa + size ≤ s.pkg.fwbase && !s.pinned pa size && ((s.regenOf ctx va e).isSome || (s.freeSlot (size / 4096)).isSome)

/-- The next victim, outside a set of pages: regenerable pages first, then greatest age, then the lower address (14 R328). -/
def State.victim (s : State) (keep : List LeafPage) : Option (Nat × Nat) :=
  let can := s.allLeaves.filter fun (c, v, l, a, e) => s.releasable c v l e && !(keep.any fun p => p.at_ == a)
  let rank := fun (x : Nat × Nat × Nat × Nat × Nat) =>
    let (c, v, l, _, e) := x
    (if (s.regenOf c v e).isSome then 0 else 1, 255 - s.pageAge (leafPa e) (leafSize l), leafPa e)
  let before := fun (x y : Nat × Nat × Nat × Nat × Nat) =>
    let (a, b, c) := rank x
    let (a', b', c') := rank y
    a < a' || (a == a' && (b < b' || (b == b' && c < c')))
  (bestOf before can).map fun (c, v, _, _, _) => (c, v)

/-- What the residency manager does next for the launch at the head (14 R325). -/
inductive Need where
  | deal (launch : Nat)
  | refuse (launch code : Nat)
  | read (ctx va : Nat)
  | regen (launch va index : Nat)
  | victim (ctx va : Nat)
  | wait
  deriving DecidableEq, Repr

/-- The launch at the head: one without a lease first, which nothing holds, then a regeneration's, then the one whose doorbell
arrived first, in queue-index order within a cycle; one whose context does not run holds the later ones (14 R325, R327, R330). -/
def State.leaseHead (s : State) : Option (Nat × Launch) :=
  let waiting := s.launches.filter fun (_, l) => l.stage == .leasing
  let runs := fun (x : Nat × Launch) => s.running x.2.ctxid
  match waiting.find? fun x => x.2.leases.isEmpty && runs x with
  | some x => some x
  | none =>
    match waiting.find? fun (_, l) => l.origin != .queue with
    | some x => if runs x then some x else none
    | none =>
      if s.launches.any fun (_, l) => l.origin != .queue then none
      else
        let first := bestOf (fun x y => x.2.bellAt < y.2.bellAt || (x.2.bellAt == y.2.bellAt
          && (x.2.queue < y.2.queue || (x.2.queue == y.2.queue && x.2.order < y.2.order)))) (waiting.filter fun x => !x.2.leases.isEmpty)
        first.bind fun x => if runs x then some x else none

/-- A frame of a size, or how one is to be got (14 R325 step 3). -/
def State.frameNeed (s : State) (id size : Nat) (p : List LeafPage) (found : Need) : Need :=
  if (s.freePage size).isSome then found
  else
    match s.victim p with
    | some (c, v) => .victim c v
    | none => if s.launches.any fun (j, l) => j != id && !l.pins.isEmpty then .wait else .refuse id refLeaseLarge

/-- A page of the backing store cannot be read back: it names a slot at or beyond PAGES, and the manager has not written it there
itself (20 R395). -/
def State.beyondStore (s : State) (slot n : Nat) : Bool :=
  s.pkg.backpages < slot + n && !(span slot n).all fun j => (s.backUsed.get j).isSome

/-- The manager's next act for the head: the count of P against LEASECAP, then the pages that are not resident; one that waits for a
lease to end does so (14 R325, R327; 20 R395). -/
def State.leaseNeed (s : State) : Option Need :=
  (s.leaseHead.filter fun x => !x.2.waits).map fun (id, l) =>
    let p := s.leasePages l
    if s.pkg.leasecap < leaseFrames p then .refuse id refLeaseLarge
    else if p.any fun x => x.res.isNone then .refuse id refLeaseUnmapped
    else
      let absent := p.find? fun x => match x.res with
        | some (.resident _) => false
        | _ => true
      match absent with
      | none => .deal id
      | some x =>
        match x.res with
        | some (.backed k) =>
          if s.beyondStore k (leafSize x.level / 4096) then .refuse id refLeaseUnmapped
          else s.frameNeed id (leafSize x.level) p (.read l.ctxid x.va)
        | some (.regenerable i) =>
          if l.origin != .queue || s.pkg.regenbase == 0 || s.pkg.regenlim ≤ i then .refuse id refRegen
          else s.frameNeed id (leafSize x.level) p (.regen id x.va i)
        | _ => .deal id

/-- A leaf entry rewritten at home by the manager. -/
def State.setLeaf (s : State) (at_ e : Nat) : State := s.pokes at_ (leBytes 8 e)

/-- An entry with its address field replaced, and its V and REGEN bits set as given. -/
def leafWith (e field : Nat) (valid regen : Bool) : Nat :=
  let rest := e - e % 2 + (if valid then 1 else 0)
  let cleared := rest - leafPa rest - (if leafRegen rest then 2 ^ 10 else 0)
  cleared + 4096 * field + (if regen then 2 ^ 10 else 0)

/-- The frames of a page are released: accesses in flight complete, dirty bytes go home, replicas and L1 lines leave, every
byte becomes 0, and the append records of the page's frames are cleared (12 R306, 14 R329; 09 R221). -/
def State.releaseFrames (s : State) (pa size : Nat) : State :=
  let s1 := (s.stores.foldl State.landStore { s with stores := [] }).cleanRange pa size
  let s2 := s1.invalidate pa size
  { s2 with mem := s2.mem.filter (fun (a, _) => a < pa || pa + size ≤ a),
            poison := s2.poison.filter (fun a => a < pa || pa + size ≤ a),
            appends := s2.appends.filter (fun (a, _) => outside pa size a), pages := s2.pages.del pa }

/-- FRAME_RELEASE (12 R306, 14 R329): privileged software frees a frame. -/
def execFrameRelease (pa : Nat) (s : State) : Host.Outcome State Fault Refusal :=
  .next (s.dropFreed.releaseFrames (pa / 4096 * 4096) 4096)

/-- VICTIM_RELEASE (14 R329): a resident page that may be released is made non-resident. What it holds of uncorrectable data is
not passed on marked (20 R408; log 61). -/
def execVictimRelease (ctx va : Nat) (s : State) : Host.Outcome State Fault Refusal :=
  match s.ctxLeaf ctx va with
  | none => .next s
  | some (e, level, a) =>
    if !testBit e 0 || !s.releasable ctx va level e then .next s
    else
      let pa := leafPa e
      let size := leafSize level
      let slot := (s.freeSlot (size / 4096)).getD 0
      let regen := s.regenOf ctx va e
      let e' := match regen with
        | some i => leafWith e i false true
        | none => leafWith e (slot + 1) false false
      let s1 := (s.setLeaf a e').dropTranslations (s.ctx ctx).root false va
      let s2 := (s1.stores.foldl State.landStore { s1 with stores := [] }).cleanRange pa size
      let s3 := match regen with
        | some _ => s2
        | none =>
          let put := fun (acc : State) (j : Nat) =>
            let bus := acc.pkg.backbase + 4096 * (slot + j)
            let acc1 := { acc with backing := writeBytes acc.backing bus (acc.soundBytes (pa + 4096 * j) 4096),
                                   backUsed := acc.backUsed.put (slot + j) bus }
            acc1.noteBad (pa + 4096 * j) 4096
          (List.range (size / 4096)).foldl put s2
      .next (s3.releaseFrames pa size)

/-- BACKING_READ (14 R325, 20 R395): a page of the backing store is read back into a free frame, and its manager's slots become
free. -/
def execBackingRead (ctx va : Nat) (s : State) : Host.Outcome State Fault Refusal :=
  match s.ctxLeaf ctx va with
  | none => .next s
  | some (e, level, a) =>
    match residence e, s.freePage (leafSize level) with
    | some (.backed k), some pa =>
      let n := leafSize level / 4096
      let bring := fun (acc : State) (j : Nat) =>
        let bus := (s.backUsed.get (k + j)).getD (s.pkg.backbase + 4096 * (k + j))
        let acc1 := acc.pokes (pa + 4096 * j) (readBytes s.backing bus 4096)
        { acc1 with backUsed := acc1.backUsed.del (k + j) }
      .next (((List.range n).foldl bring s).setLeaf a (leafWith e (pa / 4096) true false))
    | _, _ => .next s

/-- A launch that waits for its lease is refused (14 R325, 18 R374); a regeneration's refusal is that of its outer lease. -/
def State.refuseLease (s : State) (id code : Nat) : State :=
  match s.launches.get id with
  | none => s
  | some l =>
    let s1 := { s with launches := s.launches.del id, renders := s.renders.del id }
    match l.origin with
    | .queue => s1.refusePacket l.queue l.packet l.order code
    | .regen outer _ =>
      match s1.launches.get outer with
      | none => s1
      | some o => ({ s1 with launches := s1.launches.del outer, renders := s1.renders.del outer }).refusePacket o.queue o.packet o.order refRegen

/-- A page of a regeneration goes back to its non-valid form (14 R327). -/
def State.unregen (s : State) (ctx va : Nat) : State :=
  match s.ctxLeaf ctx va with
  | some (e, level, a) =>
    let pa := leafPa e
    match s.regenOf ctx va e with
    | some i =>
      (((s.setLeaf a (leafWith e i false true)).dropTranslations (s.ctx ctx).root false va)).releaseFrames pa (leafSize level)
    | none => s
  | none => s

/-- The identifier of the launch that regenerates a page for another (log 38). -/
def regenId (outer : Nat) : Nat := 2 ^ 31 + outer % 2 ^ 31

/-- A regeneration entry that the manager cannot take: it reads as uncorrectable, or a reserved bit of it is set, which 14 R327
does not let pass silently (00 R11; log 38). -/
def State.regenBad (s : State) (at_ : Nat) : Bool :=
  s.bad at_ 64 || 2 ^ 57 ≤ readNat s.mem at_ 8 || (readBytes s.mem (at_ + 16) 48).any (· != 0)

/-- A regeneration begins: a free frame is mapped and pinned, and a launch is issued from the template, whose first four parameters are
the page's address and the key (14 R327). -/
def State.startRegen (s : State) (id va index : Nat) : State :=
  match s.launches.get id, s.ctxLeaf ((s.launches.get id).elim 0 Launch.ctxid) va with
  | some l, some (e, level, a) =>
    let at_ := s.pkg.regenbase + 64 * index
    let template := readNat s.mem at_ 8
    if s.regenBad at_ then (s.noteBad at_ 64).refuseLease id refRegen
    else
    match s.freePage (leafSize level), s.mgmtRead l.ctxid template 256 with
    | some pa, some p =>
      match s.checkPacket l.ctxid s.nextId p with
      | .error _ => (s.noteVariants l.ctxid p).refuseLease id refRegen
      | .ok (entry, image, isize, deal) =>
        let leaf := leafWith e (pa / 4096) true true
        let s1 := s.setLeaf a leaf
        let s2 := { s1 with pages := s1.pages.put pa ⟨l.ctxid, va, level, 1, some (index, leaf)⟩, nextId := s1.nextId + deal.length + 1 }
        let w := fun (v : Nat) => [(BitVec.ofNat 32 v : Word), BitVec.ofNat 32 (v / 2 ^ 32)]
        let x := packetLaunch p 0 0 l.ctxid s.nextId 0 (.regen id va) entry image isize deal
        let own := if x.leases.isEmpty then [(image, (isize + 4095) / 4096 * 4096)] else x.leases
        let x' := { x with params := w va ++ w (readNat s.mem (at_ + 8) 8) ++ x.params.drop 4, nparam := max 4 x.nparam, leases := own ++ [(va, leafSize level)] }
        { s2 with launches := s2.launches.put (regenId id) x',
                  renders := if x.render then s2.renders.put (regenId id) (packetRender p) else s2.renders }
    | _, _ => (s.noteMgmt l.ctxid template 256).refuseLease id refRegen
  | _, _ => s

/-- LEASE_GRANT (14 R325, R327): the launch at the head is granted its lease and dealt, refused, or made to wait until a lease ends, or a page that it needs
begins to be regenerated. An entry that reads as uncorrectable is counted and reported (20 R408). -/
def execLeaseGrant (s : State) : Host.Outcome State Fault Refusal :=
  match s.leaseNeed with
  | some (.deal id) =>
    match s.launches.get id with
    | none => .next s
    | some l =>
      let pas := (s.leasePages l).map fun p => (leafPa p.entry, p)
      let pin := fun (acc : Tbl PageUse) (x : Nat × LeafPage) =>
        let old := acc.getD x.1 ⟨l.ctxid, x.2.va, x.2.level, 0, none⟩
        acc.put x.1 { old with pins := old.pins + 1 }
      let s1 := { s with pages := pas.foldl pin s.pages }
      .next ((s1.onLaunch id fun l => { l with pins := pas.map (·.1) }).dealLaunch id)
  | some (.refuse id code) =>
    let page := match (s.launches.get id).map Launch.origin with
      | some (.regen outer va) => some ((s.launches.get outer).elim 0 Launch.ctxid, va)
      | _ => none
    let lost := ((s.launches.get id).elim [] s.leasePages).filter fun p => p.res.isNone
    let s1 := (lost.foldl (fun acc p => acc.noteBad p.at_ 8) s).refuseLease id code
    .next (page.elim s1 fun (c, va) => s1.unregen c va)
  | some (.regen id va i) => .next (s.startRegen id va i)
  | some .wait => .next (s.leaseHead.elim s fun x => s.onLaunch x.1 fun l => { l with waits := true })
  | _ => .next s

/-- REGENERATION_END (14 R327): a regeneration's launch has ended; its page stays, or with a fault or a kill goes back and the
outer lease is refused. -/
def execRegenerationEnd (s : State) : Host.Outcome State Fault Refusal :=
  let ended := fun (l : Launch) => l.origin != .queue && l.stage == .dealt && l.groups.isEmpty && l.roots == 0
  match s.launches.find? fun (_, l) => ended l with
  | none => .next s
  | some (id, l) =>
    match l.origin with
    | .queue => .next s
    | .regen outer va =>
      let s0 := ({ s with launches := s.launches.del id }).unpin l.pins
      let s1 := if l.render then s0.endRender id else s0
      if l.nfault = 0 ∧ l.nkill = 0 then
        match s1.ctxLeaf l.ctxid va with
        | some (e, _, _) => .next (s1.unpin [leafPa e])
        | none => .next s1
      else .next ((s1.unregen l.ctxid va).refuseLease outer refRegen)

/-- AGING_SWEEP (14 R328). -/
def execAgingSweep (s : State) : Host.Outcome State Fault Refusal :=
  let n := s.agings + 1
  .next { s with agings := n, agedAt := s.cycle, ages := s.access.foldl (fun acc f => acc.put f n) s.ages, access := [] }

end Sys2Proof.Machine
end

