-- ==== Sys2Proof/Machine/Preempt.lean ====
section
/-! DEFINITION. Pre-emption and the context save area, kills, and debugger stops (01 R62, R64; 07 R168; 18 R383 to R389). -/

namespace Sys2Proof.Machine

/-- The code of the tag of register i of a run of tags, two to a byte. -/
def tagCode (s : State) (a i : Nat) : Nat :=
  let b := (readByte s.mem (a + i / 2)).toNat
  if i % 2 = 0 then b % 16 else b / 16

/-- Tag of register i of a run of tags. A thread whose record holds the reserved code 0xF ends as it comes back
(`State.recordReserved`), so what stands for it here reaches no program. -/
def tagAt (s : State) (a i : Nat) : Tag := (Tag.ofCode (tagCode s a i)).getD .raw

/-- A thread record of an allocation names the reserved tag 0xF (03 R73). -/
def State.recordTags (s : State) (a alloc : Nat) : Bool :=
  (List.range 16).any (fun i => tagCode s (a + 128) i == 15)
    || (List.range alloc).any fun i => tagCode s (a + 192 + 4 * alloc) i == 15

/-- A reserved bit of a thread record is set, or the reserved tag is named (18 R385; 03 R73). Neither passes silently (00 R11), and
18 R386 does not say what happens: DESIGN CHOICE, the thread ends with ILLEGAL_OP as it comes back, as 18 R389 ends one whose
record is changed where it may not be (log 64). -/
def State.recordReserved (s : State) (a alloc : Nat) : Bool :=
  readNat s.mem (a + 8) 8 / 2 ^ 37 != 0 || readNat s.mem (a + 28) 4 != 0 || readNat s.mem (a + 184) 8 != 0 || s.recordTags a alloc

/-- A thread with the contents of its record (18 R385, R386, R389): PC, resume point, trap registers and bank, hit register, and
registers. -/
def Thread.fromRecord (s : State) (a : Nat) (t : Thread) : Thread :=
  let w := fun (off : Nat) => (BitVec.ofNat 32 (readNat s.mem (a + off) 4) : Word)
  let bank := (List.range 16).map fun i => ((w (64 + 4 * i), tagAt s (a + 128) i) : RegVal)
  let regs := (List.range t.alloc).map fun i => ((w (192 + 4 * i), tagAt s (a + 192 + 4 * t.alloc) i) : RegVal)
  let t1 := { t with regs := [], pc := readNat s.mem a 8 % 2 ^ 57, resFirst := readNat s.mem (a + 32) 8,
                     resInst := readNat s.mem (a + 40) 8, trapaddr := readNat s.mem (a + 48) 8, trapcode := readNat s.mem (a + 56) 4,
                     trapinst := w 60, hit := (List.range 8).map fun i => w (136 + 4 * i) }
  commitFrom (commitFrom t1 0 regs) Config.trapBank bank

/-- The order of records in a save or a report: global core, partition, lane and context (18 R386, R389). -/
def recordRank (k : FrameRef) (t : Thread) : Nat := ((coreOf k * 4 + t.part) * 32 + t.lane) * 16 + t.cx

/-- PREEMPT (18 R384): acts only on a context that runs. -/
def execPreempt (ctx : Nat) (s : State) : Host.Outcome State Fault Refusal :=
  if s.running ctx then
    let ask := fun (t : Thread) => if t.ctxid = ctx ∧ t.resident then t.askStop else t
    .next { s.onCtx ctx (fun c => { c with state := .saving }) with threads := s.threads.mapVals fun _ t => ask t }
  else .next s

/-- The resident threads of a context. -/
def State.ctxThreads (s : State) (ctx : Nat) : List (FrameRef × Thread) :=
  s.threads.filter fun (_, t) => t.ctxid == ctx && t.resident

/-- Every thread of the context has reached its boundary, and its accesses and copies are complete (01 R62; 09 R244). Steal records
may be in transit: what comes of them is applied to the save (01 R59). -/
def State.readyToSave (s : State) (ctx : Nat) : Bool :=
  (s.ctx ctx).state == .saving
    && (s.ctxThreads ctx).all (fun (_, t) => t.boundary && t.quiet && !t.draining)
    && !(s.stores.any fun x => (s.threads.get x.thread).any fun t => t.ctxid == ctx)
    && s.cores.all fun (_, c) => !(c.copies.any fun j => j.ctxid == ctx)

/-- The launches of a context. -/
def State.launchesOf (s : State) (ctx : Nat) : List (Nat × Launch) := s.launches.filter fun (_, l) => l.ctxid == ctx

/-- The launches of a context that hold reservations, with the core of each (18 R380). -/
def State.reserved (s : State) (ctx : Nat) : List (Nat × Nat) :=
  (s.launchesOf ctx).flatMap fun (id, _) => (s.allCores.filter fun g => s.holds id g).map fun g => (id, g)

/-- The global core of a queued entry belongs to the context. -/
def State.entryCtx (s : State) (ctx : Nat) (e : EngEntry) : Bool := (s.launches.get e.launch).any fun l => l.ctxid == ctx

/-- The cores that have a section in the save (18 R384). -/
def State.saveCores (s : State) (ctx : Nat) : List Nat :=
  s.allCores.filter fun g =>
    (s.ctxThreads ctx).any (fun (k, _) => coreOf k == g) || (s.core g).bins.any (fun (_, b) => b.ctxid == ctx)
      || (s.core g).inbound.any (fun x => x.record.ctxid == ctx) || (s.reserved ctx).any (fun (_, c) => c == g)
      || (s.cluster (clusterOf g)).queues.any fun (_, q) => q.any fun e => e.gcore == g && s.entryCtx ctx e

/-- The vault range of a cluster in a save: the smallest that covers the context's reservations there. -/
def State.saveVault (s : State) (ctx cl : Nat) : Nat × Nat :=
  let rs := (s.reserved ctx).filterMap fun (id, g) =>
    if clusterOf g = cl then
      (s.launches.get id).bind fun l => if l.vksize = 0 then none else some (l.vkbase * 65536, (l.vkbase + l.vksize) * 65536)
    else none
  match rs with
  | [] => (0, 0)
  | (lo, hi) :: rest => rest.foldl (fun (a : Nat × Nat) (b : Nat × Nat) => (min a.1 b.1, max a.2 b.2)) (lo, hi)

/-- The layout of a save: offsets of the sections of its cores and clusters, of the distributor areas and of each thread's
record, and its size (18 R384; the order of the parts is log 39). -/
structure SaveLayout where
  cores : Tbl Nat
  clusters : Tbl Nat
  distrib : Nat
  threads : List (FrameRef × Nat)
  first : Nat
  size : Nat
  deriving DecidableEq, Repr

/-- Offsets of parts of given sizes, one after another, and the end. -/
def layOut (at_ : Nat) : List (Nat × Nat) → List (Nat × Nat) × Nat
  | [] => ([], at_)
  | (k, n) :: rest =>
    let r := layOut (at_ + n) rest
    ((k, at_) :: r.1, r.2)

/-- The layout of a context's save. -/
def State.saveLayout (s : State) (ctx : Nat) : SaveLayout :=
  let gs := s.saveCores ctx
  let cls := (gs.map clusterOf).eraseDups
  let index := 4096 + 16 * (gs.length + cls.length)
  let (cores, e1) := layOut ((index + 4095) / 4096 * 4096) (gs.map fun g => (g, 0x5A000))
  let vault := fun (cl : Nat) => (s.saveVault ctx cl).2 - (s.saveVault ctx cl).1
  let (clusters, e2) := layOut e1 (cls.map fun cl => (cl, 0x413000 + (vault cl + 4095) / 4096 * 4096))
  let first := e2 + 4 * 0x100000
  let (threads, e3) := layOut first ((sortBy (fun (k, t) => recordRank k t) (s.ctxThreads ctx)).map fun (k, t) => (k, recordSize t.alloc))
  { cores := cores, clusters := clusters, distrib := e2, threads := threads, first := first, size := e3 }

/-- A meet as its 128 bytes (18 R384). -/
def Meet.bytes (m : Meet) : List Byte :=
  let mode := match m.mode with
    | .count => 0
    | .reconv => 1
    | .bytes => 2
    | .sign => 3
  leBytes 8 (mode + 4 + 8 * bit m.err.isSome + 2 ^ 4 * m.phase + 2 ^ 20 * m.members + 2 ^ 32 * m.arrivals + 2 ^ 44 * bit m.expected
      + 2 ^ 48 * m.err.getD 0)
    ++ leBytes 8 (wrap m.count 48) ++ leBytes 8 m.stamp ++ List.replicate 40 0
    ++ m.desc ++ List.replicate (64 - m.desc.length) 0

/-- A window register as its 64 bytes (18 R384). -/
def GrainWin.bytes (w : GrainWin) : List Byte :=
  (w.stream ++ List.replicate (48 - w.stream.length) 0) ++ leBytes 2 (w.scale + 2 ^ 10 * (match w.mode with | .g1 => 0 | .g15 => 1) + 2 ^ 11)
    ++ List.replicate 14 0

/-- Bytes of a scratchpad or a vault as a save takes them: an uncorrectable byte is dropped, and a free value stands in its place
(20 R408; log 61). -/
def State.soundCells (s : State) (t : Tbl Byte) (bad : List Nat) : List (Nat × List Byte) :=
  (t.filter fun (a, _) => !bad.contains a).map (fun (a, b) => (a, [b])) ++ bad.map fun a => (a, [Config.freeByte (s.free + a)])

/-- The core section of a context, as pieces at offsets (18 R384). -/
def State.coreSection (s : State) (ctx g : Nat) : List (Nat × List Byte) :=
  let c := s.core g
  [(0, leBytes 8 ((c.heldHandlers.get ctx).getD (c.handlers.getD ctx 0))), (8, leBytes 4 c.spawnctl), (16, leBytes 8 (s.frameBase g)), (24, leBytes 4 c.frameLim)]
    ++ c.meets.map (fun (m, x) => (0x100 + 128 * m, x.bytes))
    ++ c.wins.map (fun (i, w) => (0x1100 + 64 * i, w.bytes))
    ++ (c.bins.filter (fun (_, b) => b.ctxid == ctx)).map (fun (i, b) => (0x1900 + 4160 * i, Bin.record (some b)))
    ++ (((c.inbound.filter fun x => x.record.ctxid == ctx).take 8).zipIdx.map fun (x, i) =>
        (0x11D00 + 4160 * i, binRecord x.record.entry 2 0 x.record.children))
    ++ (s.soundCells c.spad c.bad).map fun (a, b) => (0x1A000 + a, b)

/-- An entry of a group queue as its 128 bytes (18 R384). -/
def State.entryBytes (s : State) (e : EngEntry) : List Byte :=
  let body := match e.op with
    | .tile d => d
    | .zero slot m => leBytes 8 (slot + 64 * (match m with | .f32 => 0 | .s32 => 1))
    | .store _ a c st r sat => leBytes 16 (a + 2 ^ 32 * c + 2 ^ 64 * st + 2 ^ 96 * (Rnd.code r) + 2 ^ 100 * bit sat)
    | .scale slot a axis => leBytes 8 (a + 2 ^ 32 * slot + 2 ^ 40 * bit axis)
  let kind := match e.op with
    | .tile _ => 0
    | .zero _ _ => 1
    | .store _ _ _ _ _ _ => 2
    | .scale _ _ _ => 3
  let who := (e.waiter.bind fun k => (s.threads.get k).map fun t => t.where_ k % 2 ^ 19).getD 0
  (body ++ List.replicate (64 - body.length) 0) ++ leBytes 8 (kind + 4 * e.step + 64 * (physOf e.gcore % 4) + 256 * e.meet)
    ++ leBytes 8 e.stamp ++ leBytes 8 who ++ List.replicate 40 0

/-- The cluster section of a context, as pieces at offsets (18 R384). -/
def State.clusterSection (s : State) (ctx cl : Nat) : List (Nat × List Byte) :=
  let c := s.cluster cl
  let (lo, hi) := s.saveVault ctx cl
  let mode := fun (a : AccSlot) => match a.mode with | .f32 => 0 | .s32 => 1
  c.slots.map (fun (i, a) => (8 * i, leBytes 8 (mode a + 2 * a.phase)))
    ++ [(0x200, leBytes 4 lo), (0x204, leBytes 4 hi)]
    ++ c.queues.flatMap (fun (q, es) =>
        ((es.filter (s.entryCtx ctx)).zipIdx.map fun (e, p) => (0x1000 + 512 * q + 128 * p, s.entryBytes e)))
    ++ c.slots.flatMap (fun (i, a) => a.elems.map fun (j, w) => (0x13000 + 65536 * i + 4 * j, leBytes 4 w.toNat))
    ++ ((s.soundCells c.vault c.bad).filter fun (a, _) => lo ≤ a && a < hi).map fun (a, b) => (0x413000 + (a - lo), b)

/-- The children of a context in a core's bins and inbound queue. -/
def Core.childrenOf (c : Core) (ctx : Nat) : List Child :=
  ((c.bins.filter fun (_, b) => b.ctxid == ctx).flatMap fun (_, b) => b.children)
    ++ (c.inbound.filter fun x => x.record.ctxid == ctx).flatMap fun x => x.record.children

/-- The largest stamp of a context (18 R384): of its threads, resident or in the suspension pool, of the completions that its frames
have taken, of its children that are not placed, of its meets, and of its queue entries. -/
def State.largestStamp (s : State) (ctx : Nat) : Nat :=
  let meets := (s.reserved ctx).flatMap fun (id, g) =>
    (((s.core g).meets).filter fun (m, _) => testBit ((s.launches.get id).elim 0 Launch.meetmask) m).map fun (_, x) => x.stamp
  let all := ((s.threads.filter fun (_, t) => t.ctxid == ctx).map fun (k, _) => s.timeOf k)
    ++ ((s.frames.filter fun (_, f) => f.ctxid == ctx).map fun (_, f) => f.stamp.getD 0)
    ++ (s.cores.flatMap fun (_, c) => (c.childrenOf ctx).map Child.stamp) ++ meets
    ++ s.clusters.flatMap fun (_, c) => c.queues.flatMap fun (_, es) => (es.filter (s.entryCtx ctx)).map EngEntry.stamp
  all.foldl max 0

/-- The header and indexes of a save (18 R384). -/
def State.saveHeader (s : State) (ctx : Nat) (l : SaveLayout) : List (Nat × List Byte) :=
  let top := s.largestStamp ctx
  let index := fun (at_ : Nat) (t : Tbl Nat) => t.zipIdx.map fun ((g, off), i) => (at_ + 16 * i, leBytes 8 off ++ leBytes 8 g)
  let c2 := 4096 + 16 * l.cores.length
  [(0, leBytes 4 0x01415343 ++ leBytes 2 1 ++ leBytes 2 ctx ++ leBytes 8 top ++ leBytes 4 l.cores.length ++ leBytes 4 l.clusters.length
      ++ leBytes 8 l.threads.length ++ leBytes 8 4096 ++ leBytes 8 c2 ++ leBytes 8 l.first ++ leBytes 8 l.size
      ++ ((List.range 4).flatMap fun d => leBytes 8 (s.enableMask d)) ++ leBytes 8 l.distrib)]
    ++ index 4096 l.cores ++ index c2 l.clusters

/-- The uncorrectable bytes that a save met in scratchpads and vaults are counted and reported (20 R408). -/
def State.noteSaved (s : State) (l : SaveLayout) : State :=
  let s1 := l.cores.foldl (fun acc (g, _) => if (s.core g).bad.isEmpty then acc else acc.uncorrectable (s.physDie (dieOf g)) 3) s
  let s2 := l.clusters.foldl (fun acc (cl, _) => if (s.cluster cl).bad.isEmpty then acc else acc.uncorrectable (s.physDie (cl / 9)) 3) s1
  { s2 with free := s2.free + 2 ^ 23 }

/-- The save area written: every byte that no piece gives is 0. -/
def State.writeSave (s : State) (ctx : Nat) (l : SaveLayout) : State :=
  let base := (s.ctx ctx).csa
  let shift := fun (off : Nat) (ps : List (Nat × List Byte)) => ps.map fun (a, b) => (off + a, b)
  let parts := s.saveHeader ctx l ++ l.cores.flatMap (fun (g, off) => shift off (s.coreSection ctx g))
    ++ l.clusters.flatMap (fun (cl, off) => shift off (s.clusterSection ctx cl))
    ++ l.threads.map fun (k, off) => (off, (s.threads.get k).elim [] fun t => t.record s k)
  let blank := { s with mem := s.mem.filter (fun (a, _) => a < base || base + l.size ≤ a),
                        poison := s.poison.filter fun a => a < base || base + l.size ≤ a }
  (parts.foldl (fun acc (a, b) => acc.pokes (base + a) b) blank).noteSaved l

/-- The spill blocks of a cluster that a context's grids and carried grids occupy (16 R344, R348). -/
def State.spillOf (s : State) (ctx cl : Nat) : List Nat :=
  let open_ := match (s.cluster cl).bucket with
    | some o => if o.ctxid = ctx then o.grids.flatMap fun g => (match g.mem with | .spill bs => bs | .bucket _ => []) else []
    | none => []
  open_ ++ (s.launchesOf ctx).flatMap fun (id, _) =>
    ((s.renders.get id).elim [] Render.carried).flatMap fun c => if c.cl = cl then c.blocks else []

/-- What a save holds of a cluster's dicer and rasteriser (16 R368), with a camera block that CAM has loaded in the same cycle. -/
def State.unitBlocks (s : State) (ctx cl : Nat) : UnitBlocks :=
  let c := s.cluster cl
  { cam := c.heldCam.getD c.cam, dice := c.dice, rast := c.rast, deck := c.deck, spill := s.spillOf ctx cl }

/-- What a context holds of the units leaves them for its save: bins, inbound records, range slots, queue entries, open buckets,
and what its launches reserve (01 R62, 18 R384, R386). -/
def State.takeUnits (s : State) (ctx : Nat) (l : SaveLayout) : State :=
  let res := s.reserved ctx
  let mask := fun (g : Nat) (f : Launch → Nat) =>
    (res.filter fun (_, c) => c == g).foldl (fun acc (id, _) => acc ||| (s.launches.get id).elim 0 f) 0
  let mine := fun (b : Bin) => b.ctxid == ctx
  let slotOf := fun (r : RangeSlot) => (s.threads.get r.thread).any fun t => t.ctxid == ctx
  let parts_ : List (Tbl Bin × List Inbound × Tbl RangeSlot × Tbl Meet × Nat) := s.cores.map fun (g, c) =>
    (c.bins.filter (fun (_, b) => mine b), c.inbound.filter (fun (x : Inbound) => x.record.ctxid == ctx), c.slots.filter (fun (_, r) => slotOf r),
      c.meets.filter (fun (m, _) => testBit (mask g Launch.meetmask) m), g)
  let saved := fun (x : Ctx) =>
    { x with savedBins := parts_.flatMap fun (b, _, _, _, g) => b.map fun (i, y) => (g, i, y)
             savedInbound := parts_.flatMap fun (_, n, _, _, g) => n.map fun y => (g, y)
             savedSlots := parts_.flatMap fun (_, _, r, _, g) => r.map fun (i, y) => (g, i, y)
             savedMeets := parts_.flatMap fun (_, _, _, m, g) => m.map fun (i, y) => (g, i, y)
             savedEntries := s.clusters.flatMap fun (cl, c) => c.queues.flatMap fun (q, es) =>
               (es.filter (s.entryCtx ctx)).map fun e => (cl, q, e)
             savedBuckets := s.clusters.filterMap fun (cl, c) => c.bucket.bind fun o => if o.ctxid = ctx then some (cl, o) else none
             savedOpening := s.clusters.filterMap fun (cl, c) => c.opening.bind fun o =>
               if (s.threads.get o.1).any (fun t => t.ctxid == ctx) then some (cl, o) else none
             savedBlocks := (s.clusters.filter fun (cl, _) => (l.clusters.get cl).isSome || !(s.spillOf ctx cl).isEmpty).map
               fun (cl, _) => (cl, s.unitBlocks ctx cl)
             savedRes := res
             savedCoreAt := l.cores.map fun (g, off) => (g, (s.ctx ctx).csa + off)
             savedClusterAt := l.clusters.map fun (cl, off) => (cl, (s.ctx ctx).csa + off) }
  let coreLeft := fun (g : Nat) (c : Core) =>
    { c with bins := c.bins.filter fun (_, b) => !mine b
             inbound := c.inbound.filter fun x => x.record.ctxid != ctx
             slots := c.slots.filter fun (_, r) => !slotOf r
             meets := c.meets.filter fun (m, _) => !testBit (mask g Launch.meetmask) m }
  let clusterLeft := fun (cl : Nat) (c : Cluster) =>
    { c with spillUsed := c.spillUsed.filter fun b => !(s.spillOf ctx cl).contains b
             queues := c.queues.mapVals fun _ es => es.filter fun e => !s.entryCtx ctx e
             bucket := c.bucket.bind fun o => if o.ctxid = ctx then none else some o
             opening := c.opening.bind fun o => if (s.threads.get o.1).any (fun t => t.ctxid == ctx) then none else some o }
  { s.onCtx ctx saved with cores := s.cores.mapVals coreLeft, clusters := s.clusters.mapVals clusterLeft }

/-- A thread saved to the area: its record is there, and its context and registers are free (01 R62 step 2). -/
def State.saveThread (s : State) (k : FrameRef) (addr : Nat) : State :=
  (s.onThread k fun t => { t with susp := some .saved, held := false, stopAt := none, bank := [], stall := t.stall - s.cycle }).onFrame k
    fun f => { f with saveptr := addr }

/-- The frames of a context are written to their frame areas, which hold every one of them as it stands (01 R43, R62). -/
def State.saveFrames (s : State) (ctx : Nat) : State :=
  (s.frames.filter fun (_, f) => f.ctxid == ctx).foldl (fun acc (k, _) => acc.writeBack k) s

/-- A context goes on without a save: it waits for no boundary any more (18 R384). -/
def State.unsave (s : State) (ctx : Nat) : State :=
  let go := fun (t : Thread) =>
    if t.ctxid = ctx ∧ t.resident ∧ !t.dying ∧ t.stopping.isNone then { t with stopAt := none } else t
  { s.onCtx ctx (fun c => { c with state := .running, err := 0x030A }) with threads := s.threads.mapVals fun _ t => go t }

/-- RESUME (18 R386): acts only on a saved context. -/
def execResume (ctx : Nat) (s : State) : Host.Outcome State Fault Refusal :=
  if (s.ctx ctx).state = .saved then .next (s.onCtx ctx fun c => { c with state := .restoring }) else .next s

/-- The threads of a context's save. -/
def State.savedThreads (s : State) (ctx : Nat) : List (FrameRef × Thread) :=
  s.threads.filter fun (_, t) => t.ctxid == ctx && t.susp == some .saved

/-- Threads of a list fit the free registers of each lane together. -/
def State.regsFit (s : State) (ts : List (FrameRef × Thread)) : Bool :=
  ts.all fun (k, t) =>
    (ts.map fun (j, u) => if coreOf j = coreOf k ∧ u.part = t.part ∧ u.lane = t.lane then u.alloc else 0).sum
      ≤ s.freeRegs (coreOf k) t.part t.lane

/-- Every reservation, context and register allocation that a restoration needs is free (18 R386). -/
def State.canRestore (s : State) (ctx : Nat) : Bool :=
  let c := s.ctx ctx
  let ts := s.savedThreads ctx
  c.state == .restoring
    && ts.all (fun (k, t) => s.coreOn (coreOf k) && (s.inContext (coreOf k) t.part t.lane t.cx).isNone)
    && s.regsFit ts
    && c.savedRes.all (fun (id, g) => s.reservable id g)
    && c.savedBins.all (fun (g, i, _) => ((s.core g).bins.get i).isNone)
    && c.savedSlots.all (fun (g, i, _) => ((s.core g).slots.get i).isNone)
    && c.savedInbound.all (fun (g, _) =>
      (((s.core g).inbound ++ (c.savedInbound.filter fun (h, _) => h == g).map (·.2)).filter fun x => !x.own).length ≤ 8)
    && c.savedEntries.all (fun (cl, q, _) =>
      ((s.cluster cl).queues.getD q []).length + (c.savedEntries.filter fun (d, p, _) => d == cl && p == q).length ≤ 4)
    && c.savedBuckets.all (fun (cl, _) => !(s.cluster cl).bucketBusy)
    && c.savedOpening.all fun (cl, _) => !(s.cluster cl).bucketBusy

/-- Bytes of a save area between two addresses, by their distance from a base, as a restoration reads them (18 R386; log 61). -/
def State.savedCells (s : State) (base lo hi : Nat) : List (Nat × Byte) :=
  let inside := fun (a : Nat) => base + lo ≤ a && a < base + hi
  (s.mem.filter fun (a, _) => inside a && !s.poison.contains a).map (fun (a, b) => (a - base, b))
    ++ (s.poison.filter inside).map fun a => (a - base, Config.freeByte (s.free + (a - base)))

/-- The reserved scratchpad of a core comes back from its section (18 R386). -/
def State.restoreSpad (s : State) (at_ g : Nat) (l : Launch) : State :=
  let lo := 1024 * l.spbase
  let hi := lo + 1024 * l.spsize
  let new := s.savedCells (at_ + 0x1A000) lo hi
  (s.onCore g fun c =>
    { c with spad := new.foldl (fun acc (a, b) => writeByte acc a b) (c.spad.filter fun (a, _) => a < lo || hi ≤ a),
             bad := c.bad.filter (outside lo (hi - lo)) }).noteBad (at_ + 0x1A000 + lo) (hi - lo)

/-- The reserved vault units of a cluster come back from its section (18 R386). -/
def State.restoreVault (s : State) (at_ cl : Nat) (l : Launch) : State :=
  let lo := 65536 * l.vkbase
  let hi := lo + 65536 * l.vksize
  let vlo := recNat (s.soundBytes (at_ + 0x200) 4) 0 4
  let base := at_ + 0x413000
  let new := (s.savedCells base (lo - vlo) (hi - vlo)).map fun (a, b) => (a + vlo, b)
  (s.onCluster cl fun c =>
    { c with vault := new.foldl (fun acc (a, b) => writeByte acc a b) (c.vault.filter fun (a, _) => a < lo || hi ≤ a),
             bad := c.bad.filter (outside lo (hi - lo)) }).noteBad (base + (lo - vlo)) (hi - lo)

/-- A meet as its 128 bytes give it: none where ASSIGNED is 0; what they do not hold is the meet's as it was saved (18 R384). -/
def Meet.ofRecord (bs : List Byte) (old : Meet) : Option Meet :=
  let w := recNat bs 0 8
  let mode := match w % 4 with
    | 0 => MeetMode.count
    | 1 => .reconv
    | 2 => .bytes
    | _ => .sign
  if testBit w 2 then
    some { old with mode := mode, err := if testBit w 3 then some (bitsOf w 63 48) else none, phase := bitsOf w 19 4,
                    members := bitsOf w 31 20, arrivals := bitsOf w 43 32, expected := testBit w 44,
                    count := signExt (recNat bs 8 8 % 2 ^ 48) 48, stamp := recNat bs 16 8,
                    desc := if old.desc.isEmpty then [] else (bs.drop 64).take 64 }
  else none

/-- A window register as its 64 bytes give it: none where VALID is 0 (18 R384). -/
def GrainWin.ofRecord (bs : List Byte) : Option GrainWin :=
  let w := recNat bs 48 2
  let mode : GMode := if testBit w 10 then .g15 else .g1
  if testBit w 11 then some ⟨bs.take (grainBytes mode), bitsOf w 9 0, mode⟩ else none

/-- The units of a table that a mask reserves come back, and one that a section holds none of is as after reset (18 R386). -/
def restoreTbl {α : Type} (t : Tbl α) (is : List Nat) (f : Nat → Option α) : Tbl α :=
  is.foldl (fun acc i => match f i with
    | some x => acc.put i x
    | none => acc.del i) t

/-- The core section of a context restored: what its launches reserve, its bins and inbound records (18 R386 step 3). -/
def State.restoreCore (s : State) (ctx g at_ : Nat) : State :=
  let c := s.ctx ctx
  let ls := c.savedRes.filterMap fun (id, h) => if h = g then s.launches.get id else none
  let s1 := ls.foldl (fun acc l => acc.restoreSpad at_ g l) s
  let bytes := fun (off n : Nat) => s1.soundBytes (at_ + off) n
  let reserved := fun (f : Launch → Nat) (i : Nat) => ls.any fun l => testBit (f l) i
  let oldMeet := fun (m : Nat) =>
    (((c.savedMeets.find? fun (h, n, _) => h == g && n == m)).map fun (_, _, x) => x).getD (Meet.fresh .count)
  let inbound := (s1.savedQueue ctx g).zipIdx.map fun (x, i) =>
    if i < 8 then
      let bs := bytes (0x11D00 + 4160 * i) 4160
      { x with record := { x.record with entry := bitsOf (recNat bs 0 8) 56 0, children := childrenOf bs x.record.children } }
    else x
  let bins := c.savedBins.filterMap fun (h, i, b) => if h = g then some (i, b.ofRecord (bytes (0x1900 + 4160 * i) 4160)) else none
  (s1.onCore g fun y =>
    { y with handlers := y.handlers.put ctx (recNat (bytes 0 8) 0 8)
             meets := restoreTbl y.meets ((List.range 32).filter (reserved Launch.meetmask)) fun m =>
               Meet.ofRecord (bytes (0x100 + 128 * m) 128) (oldMeet m)
             wins := restoreTbl y.wins ((List.range 32).filter fun i => reserved Launch.winmask (i % 8)) fun i =>
               GrainWin.ofRecord (bytes (0x1100 + 64 * i) 64)
             bins := bins.foldl (fun acc (i, b) => acc.put i b) y.bins
             inbound := y.inbound ++ inbound }).noteBad at_ 0x1A000

/-- A queued entry as its 128 bytes give it: the descriptor of a tile operation, its next step, meet and stamp; the rest is the
entry's as it was saved (18 R384). -/
def EngEntry.ofRecord (bs : List Byte) (old : EngEntry) : EngEntry :=
  let w := recNat bs 64 8
  let op := match old.op with
    | .tile _ => EngOp.tile (bs.take 64)
    | op => op
  { old with op := op, step := bitsOf w 5 2, meet := bitsOf w 12 8, stamp := recNat bs 72 8 }

/-- An accumulator slot as a cluster section gives it (18 R384). -/
def State.slotFrom (s : State) (at_ i : Nat) : AccSlot :=
  let w := recNat (s.soundBytes (at_ + 8 * i) 8) 0 8
  let base := at_ + 0x13000 + 65536 * i
  let word := fun (acc : Tbl Word) (j : Nat) =>
    let x := leNat (s.soundBytes (base + 4 * j) 4)
    if x = 0 then acc else acc.put j (BitVec.ofNat 32 x)
  let listed := ((s.savedCells base 0 65536).map fun (a, _) => a / 4).eraseDups
  { mode := if testBit w 0 then .s32 else .f32, phase := bitsOf w 5 1, elems := listed.foldl word [] }

/-- The cluster section of a context restored: what its launches reserve, its queue entries, and the state of the dicer and the
rasteriser; the rotation of the engine begins at queue 0 (10 R255; 16 R368; 18 R386 step 2). -/
def State.restoreCluster (s : State) (ctx cl at_ : Nat) : State :=
  let c := s.ctx ctx
  let ls := c.savedRes.filterMap fun (id, h) => if clusterOf h = cl then s.launches.get id else none
  let s1 := ls.foldl (fun acc l => acc.restoreVault at_ cl l) s
  let slots := (List.range 64).filter fun i => ls.any fun l => testBit l.slotmask i
  let s2 := slots.foldl (fun acc i => acc.setSlot cl i (s1.slotFrom at_ i)) s1
  let mine := fun (q : Nat) => (c.savedEntries.filter fun (d, p, _) => d == cl && p == q).map fun (_, _, e) => e
  let s3 := (List.range 16).foldl (fun acc q =>
    (mine q).zipIdx.foldl (fun acc (e, p) => acc.enqueue cl q (e.ofRecord (s1.soundBytes (at_ + 0x1000 + 512 * q + 128 * p) 128))) acc) s2
  let blocks := fun (y : Cluster) => match (c.savedBlocks.find? fun (d, _) => d == cl) with
    | some (_, b) =>
      { y with cam := b.cam, heldCam := none, dice := b.dice, rast := b.rast, deck := b.deck }
    | none => y
  (s3.onCluster cl fun y => { blocks y with rotor := 0 }).noteBad at_ 0x3000

/-- The units of a context restored, clusters and then cores (18 R386 steps 2 and 3). Range slots and spill blocks come back on every
core and cluster, those of threads in the suspension pool and of units without a section among them. -/
def State.restoreUnits (s : State) (ctx : Nat) : State :=
  let c := s.ctx ctx
  let s1 := c.savedClusterAt.foldl (fun acc (cl, a) => acc.restoreCluster ctx cl a) s
  let s2 := c.savedCoreAt.foldl (fun acc (g, a) => acc.restoreCore ctx g a) s1
  let held := fun (acc : State) (x : Nat × UnitBlocks) =>
    acc.onCluster x.1 fun y => { y with spillUsed := y.spillUsed.filter (fun i => !x.2.spill.contains i) ++ x.2.spill }
  let slot := fun (acc : State) (x : Nat × Nat × RangeSlot) =>
    acc.onCore x.1 fun y => { y with slots := y.slots.put x.2.1 x.2.2 }
  let s3 := c.savedBuckets.foldl (fun acc (cl, o) => acc.onCluster cl fun y => { y with bucket := some o })
    (c.savedSlots.foldl slot (c.savedBlocks.foldl held s2))
  let s4 := c.savedOpening.foldl (fun acc (cl, o) => acc.onCluster cl fun y => { y with opening := some o }) s3
  s4.onCtx ctx fun x =>
    { x with savedBins := [], savedInbound := [], savedSlots := [], savedMeets := [],
             savedEntries := [], savedBuckets := [], savedOpening := [], savedBlocks := [], savedRes := [],
             savedCoreAt := [], savedClusterAt := [] }

/-- The counters of a saved thread as its record gives them (18 R385, R386). -/
def Thread.countersFrom (s : State) (a : Nat) (t : Thread) : Thread :=
  let w := readNat s.mem a 8
  let x := readNat s.mem (a + 8) 8
  { t with trapped := testBit w 61, check := testBit w 62, winbase := 16 * bitsOf x 9 5, phase := bitsOf x 14 10, wait := bitsOf x 23 15,
           winstat := bitsOf x 35 33, members := readNat s.mem (a + 16) 4, arrived := readNat s.mem (a + 20) 4 }

/-- The range slot of a restored thread takes cur and hi from the thread's record (18 R385). -/
def State.restoreSlot (s : State) (k : FrameRef) (a : Nat) : State :=
  match (s.threads.get k).bind Thread.slot with
  | none => s
  | some i =>
    s.onCore (coreOf k) fun c =>
      { c with slots := c.slots.update i fun r => { r with cur := readNat s.mem (a + 168) 4, hi := readNat s.mem (a + 172) 4 } }

/-- A saved thread comes back to its lane and context, with its saved counters (18 R386). A record that reads as uncorrectable
ends it (01 R66; log 61), and so does one with a reserved bit or tag (log 64). A stop that waited for it waits for ten more
instructions. -/
def State.restoreThread (s : State) (k : FrameRef) : State :=
  match s.frames.get k, s.threads.get k with
  | some f, some t =>
    let a := f.saveptr
    let back := fun (t : Thread) => { (t.fromRecord s a).countersFrom s a with susp := none, stall := s.cycle + max 1 t.stall }
    let ask := fun (t : Thread) => if t.dying || t.stopping.isSome then t.askStop else t
    let s1 := (s.onThread k fun t => ask (back t)).restoreSlot k a
    let s2 := s1.onFrame k fun f => { f with saveptr := 0 }
    if s.bad a (recordSize t.alloc) then (s2.noteBad a (recordSize t.alloc)).faultThread k codeMemUe 0
    else if s.recordReserved a t.alloc then s2.faultThread k codeIllegal 0
    else s2
  | _, _ => s

/-- Children taken out of a steal record, and what is left of it. -/
def StealRec.without (p : Child → Bool) (r : StealRec) : StealRec := { r with children := r.children.filter fun c => !p c }

/-- A record that holds no child any more; a bucket's holds none. -/
def StealRec.void (r : StealRec) : Bool := r.bucket.isNone && r.children.isEmpty

/-- The children of a launch that stand nowhere as a thread, each with the core that holds it: in bins, in inbound queues, as range
halves kept by their victims, and in saves (01 R19, 18 R387). -/
def State.pendingChildren (s : State) (mine : Child → Bool) : List (Nat × Child) :=
  let offered := s.cores.flatMap fun (_, c) => c.offers.map fun o => o.record.id
  let at_ := fun (g : Nat) (l : List Child) => (l.filter mine).map fun c => (g, c)
  s.cores.flatMap (fun (g, c) =>
      c.bins.flatMap (fun (_, b) => at_ g b.children)
        ++ (c.offers.filter fun o => o.record.half).flatMap (fun o => at_ g o.record.children)
        ++ (c.inbound.filter fun x => !offered.contains x.record.id).flatMap fun x => at_ g x.record.children)
    ++ s.ctxs.flatMap fun (_, c) =>
      c.savedBins.flatMap (fun (g, _, b) => at_ g b.children)
        ++ (c.savedInbound.filter fun (_, x) => !offered.contains x.record.id).flatMap fun (g, x) => at_ g x.record.children

/-- The children of a killed launch end where they stand, each with the stamp of its spawn edge (18 R387; 12 R289). A record in
transit that is left empty goes on, and its thief refuses it; the bin that it is a copy of stays its own until then. -/
def State.killChildren (s : State) (id : Nat) : State :=
  let mine := fun (c : Child) => c.launch == id
  let gone := s.pendingChildren mine
  let core := fun (c : Core) =>
    { c with bins := (c.bins.mapVals fun _ b => { b with children := b.children.filter fun x => !mine x }).filter fun (_, b) =>
               b.offered || !b.children.isEmpty
             inbound := (c.inbound.map fun x => { x with record := x.record.without mine }).filter fun x => !x.record.void
             offers := c.offers.map fun o => { o with record := o.record.without mine } }
  let ctx := fun (c : Ctx) =>
    { c with savedBins := (c.savedBins.map fun (g, i, b) => (g, i, { b with children := b.children.filter fun x => !mine x })).filter
               fun (_, _, b) => b.offered || !b.children.isEmpty
             savedInbound := (c.savedInbound.map fun (g, x) => (g, { x with record := x.record.without mine })).filter fun (_, x) =>
               !x.record.void }
  let net := s.net.map fun m => match m with
    | .stealRecord r => .stealRecord (r.without mine)
    | m => m
  let s1 := { s with cores := s.cores.mapVals (fun _ c => core c), ctxs := s.ctxs.mapVals (fun _ c => ctx c), net := net }
  let report := fun (acc : State) (x : Nat × Child) => acc.endChild x.1 x.2
  (gone.foldl report s1).binAllWaiting

/-- A thread killed: a ready or trapped one at its boundary, any other at once (18 R387 step 2). -/
def State.killThread (s : State) (k : FrameRef) : State :=
  match s.threads.get k with
  | none => s
  | some t =>
    if t.run != .ready || t.boundary || !t.resident then s.endThread k .killed FaultRec.none
    else s.onThread k fun t => { t.askStop with dying := true }

/-- A completion changed to that of a killed thread (01 R20, R41). -/
def Completion.asKilled (c : Completion) : Completion := { c with kind := .killed, report := FaultRec.none }

/-- The threads of a launch that have ended, and whose completions are not delivered yet, are killed too: their completions say so
(01 R20). -/
def State.killEnded (s : State) (id : Nat) : State :=
  let mine := fun (k : FrameRef) => (s.frames.get k).any fun f => f.launch == id
  let net := s.net.map fun m => match m with
    | .completion p o c (.frame k) => if mine k then .completion p o c.asKilled (.frame k) else m
    | .rootCompletion l g c x => if l = id then .rootCompletion l g c.asKilled x else m
    | m => m
  { s with net := net,
           frames := s.frames.mapVals fun _ f => if f.launch = id then { f with ended := f.ended.map Completion.asKilled } else f }

/-- The kill of one launch (18 R387): its undealt groups count as killed roots, its threads end killed at their boundaries or at
once, and its children end where they stand. -/
def State.killLaunch (s : State) (id : Nat) : State :=
  match s.launches.get id with
  | none => s
  | some l =>
    let s1 := s.onLaunch id fun l =>
      { l with stage := .dealt, groups := [], nkill := min 0xFFFF (l.nkill + l.gsize * l.groups.length) }
    let s2 := if l.stage = .leasing ∧ l.origin = .queue then
        s1.onQueue l.queue fun x => if x.awaits l.order then { x with dealtPrev := true } else x
      else s1
    let s3 := (s2.killEnded id).killChildren id
    let s4 := (s3.threads.filter fun (_, t) => t.launch == id).foldl (fun acc (k, _) => acc.killThread k) s3
    let stop := fun (c : Cluster) => { c with bucket := c.bucket.map fun o =>
      if o.launch = id then { o with failing := true, killed := true } else o }
    ({ s4 with clusters := s4.clusters.mapVals fun _ c => stop c }).completeLaunch id

/-- A kill written to a context: of one launch or of all; without one to kill, ERR takes NO_LAUNCH. A kill written while STATE is
not 0 is held (18 R387). -/
def State.killCtx (s : State) (ctx : Nat) (id : Option Nat) : State :=
  if !s.running ctx then s.onCtx ctx fun c => { c with kills := c.kills ++ [id] }
  else
    match (s.launchesOf ctx).filter fun (j, _) => id.all (· == j) with
    | [] => s.onCtx ctx fun c => { c with err := 0x030B }
    | ls => ls.foldl (fun acc (j, _) => acc.killLaunch j) s

/-- The kills that were held while a context did not run (18 R387). -/
def State.applyKills (s : State) (ctx : Nat) : State :=
  (s.ctx ctx).kills.foldl (fun acc id => acc.killCtx ctx id) (s.onCtx ctx fun c => { c with kills := [] })

/-- CONTEXT_SAVE (01 R62, 18 R384): an area that is too small refuses the save, and issuing resumes. -/
def execContextSave (ctx : Nat) (s : State) : Host.Outcome State Fault Refusal :=
  if !s.readyToSave ctx then .next s
  else
    let s0 := { s with threads := s.threads.mapVals fun _ t => if t.ctxid == ctx && t.resident then t.settle else t }
    let l := s0.saveLayout ctx
    let c := s0.ctx ctx
    if 4096 * c.csalim < l.size then .next (((s.unsave ctx).applyKills ctx).binAllWaiting)
    else
      let ts := s0.ctxThreads ctx
      let s1 := (s0.writeSave ctx l).takeUnits ctx l
      let s2 := l.threads.foldl (fun acc (k, off) => acc.saveThread k (c.csa + off)) s1
      let s3 := (s2.saveFrames ctx).onCtx ctx fun c => { c with state := .saved }
      .next (s3.binAllWaiting.regrant ts)

/-- KILL: every launch of the context (18 R387). -/
def execKill (ctx : Nat) (s : State) : Host.Outcome State Fault Refusal := .next (s.killCtx ctx none)

/-- CTX_KILL: one launch of the context (18 R387). -/
def execCtxKill (ctx launch : Nat) (s : State) : Host.Outcome State Fault Refusal := .next (s.killCtx ctx (some launch))

/-- RESTORE (18 R386): once all that the context needs is free, its units and threads come back together, and kills that were
held are applied. -/
def execRestore (ctx : Nat) (s : State) : Host.Outcome State Fault Refusal :=
  if !s.canRestore ctx then .next s
  else
    let ts := s.savedThreads ctx
    let gs := (s.ctx ctx).savedCoreAt.map (·.1)
    let s1 := ts.foldl (fun acc (k, _) => acc.restoreThread k) (s.restoreUnits ctx)
    let rank := fun (k : FrameRef) => (s1.threads.get k).elim 0 (recordRank k)
    let s2 := { s1 with futures := s1.futures.mapVals fun _ f => { f with waiters := sortBy rank f.waiters } }
    let s3 := gs.foldl (fun acc g => acc.incoming g) s2
    let s4 := s3.onCtx ctx fun c => { c with state := .running }
    let s5 := ts.foldl (fun acc (k, _) => (acc.cameBack k).camWake (clusterOf (coreOf k))) s4
    .next ((s5.binAllWaiting.regrant ts).applyKills ctx)

/-- The threads that a stop of a launch takes: on one core, or on all (01 R64, 18 R389). -/
def State.markStop (s : State) (launch : Nat) (core : Option Nat) (stop : Nat) : State :=
  let mine := fun (k : FrameRef) (t : Thread) =>
    t.launch == launch && t.resident && t.stopping.isNone && core.all (· == coreOf k)
  { s with threads := s.threads.mapVals fun k t => if mine k t then { t.askStop with stopping := some stop } else t }

/-- A stop made by the debugger (18 R389). -/
def State.makeStop (s : State) (ctx launch cause : Nat) (core : Option Nat) (who : Option (Nat × Nat × Nat × Nat)) : State :=
  let (id, s1) := s.fresh
  let stop : DebugStop := { id := id, cause := cause, launch := launch, who := who, reported := false }
  (s1.onCtx ctx fun c => { c with stops := c.stops ++ [stop] }).markStop launch core id

/-- BRK (07 R168, 18 R389): a debugger stop of the launch group where the launch is debugged, a fault otherwise. Where several
members of one issue group execute the same BRK the spec does not say how many stops there are: DESIGN CHOICE, one for each member,
of which all after the first find no thread left to stop and report none (log 56). -/
def execBrk (s : State) : Host.Outcome State Fault Refusal :=
  runGroup (fun _ _ k t acc =>
    if (acc.launches.get t.launch).any Launch.debug then
      .ok (acc.makeStop t.ctxid t.launch 1 (some (coreOf k)) (some (coreOf k, t.part, t.lane, t.cx)), .next)
    else .error (.fault codeBreakpoint 0)) s

/-- STOP (18 R389): a write of CTX_DBGCTL.STOP that names a launch. -/
def execStop (ctx launch : Nat) (s : State) : Host.Outcome State Fault Refusal :=
  if (s.launches.get launch).any fun l => l.ctxid == ctx && l.debug then .next (s.makeStop ctx launch 2 none none)
  else .next (s.onCtx ctx fun c => { c with err := 0x030B })

/-- The threads that still wait to be suspended by a stop. -/
def State.stopping (s : State) (id : Nat) : List (FrameRef × Thread) := s.threads.filter fun (_, t) => t.stopping == some id

/-- The threads that a stop has suspended, in the order of its report (18 R389). -/
def State.stoppedBy (s : State) (id : Nat) : List (FrameRef × Thread) :=
  sortBy (fun (k, t) => recordRank k t) (s.threads.filter fun (_, t) => t.susp == some (.debug id))

/-- Threads suspended into the pool one after another, or none where the pool has no room for all (18 R388). What they have written
goes home: the aperture's reads see it (18 R389 point 5). -/
def State.poolAll (s : State) (ctx id : Nat) : List (FrameRef × Thread) → Option State
  | [] => some s
  | (k, t) :: rest =>
    match s.poolAlloc ctx (recordSize t.alloc) with
    | none => none
    | some a => ((s.suspend k a (.debug id)).outgoing k).poolAll ctx id rest

/-- A stop whose threads have all reached their boundaries suspends them when the pool has room. While the context is being saved, or
is saved, the stop waits (18 R388). -/
def State.suspendStop (s : State) (ctx id : Nat) : Option State :=
  if !s.running ctx then none else
  match s.stopping id with
  | [] => none
  | ts => if ts.all fun (_, t) => t.boundary && t.quiet then (s.poolAll ctx id ts).map fun s1 => s1.regrant ts else none

/-- The report of a stop (18 R389). -/
def State.stopReport (s : State) (x : DebugStop) : List Byte :=
  let ts := s.stoppedBy x.id
  let who := x.who.elim 0 fun (g, p, l, c) => g + 2 ^ 8 * p + 2 ^ 10 * l + 2 ^ 15 * c
  leBytes 4 x.cause ++ leBytes 4 x.launch ++ leBytes 4 ts.length ++ leBytes 4 (bit (decide (8184 < ts.length))) ++ leBytes 8 who
    ++ List.replicate 40 0 ++ ((ts.take 8184).flatMap fun (k, _) => leBytes 8 ((s.frames.get k).elim 0 Frame.saveptr))

/-- STOP_REPORT (18 R388, R389): stops whose threads can be suspended suspend them; without a report pending, the oldest stop
that has suspended its groups is reported. -/
def execStopReport (ctx : Nat) (s : State) : Host.Outcome State Fault Refusal :=
  let s1 := (s.ctx ctx).stops.foldl (fun acc x => (acc.suspendStop ctx x.id).getD acc) s
  let c := s1.ctx ctx
  match c.stops.find? fun x => (s1.stopping x.id).isEmpty with
  | some x =>
    if c.stopped then .next s1
    else
      let s2 := (s1.pokes c.dbgrep (s1.stopReport x)).onCtx ctx fun c =>
        { c with stopped := true, stops := c.stops.map fun y => if y.id = x.id then { y with reported := true } else y }
      .next (if c.irq then s2.signal c.vector else s2)
  | none => .next s1

/-- The record that a stop wrote has been changed where the host may not change it (18 R389 point 3). -/
def State.recordAltered (s : State) (k : FrameRef) (t : Thread) (a : Nat) : Bool :=
  let head := { t with pc := readNat s.mem a 8 % 2 ^ 57 }.recordHead s.cycle
  readBytes s.mem a 32 != head || readBytes s.mem (a + 168) 24 != Thread.recordSlot s k t

/-- A stopped thread resumes from its record (18 R389), on a die that is awake (20 R407). One that reads as uncorrectable ends it
(01 R66; log 61), and so does one that names the reserved tag (log 64). -/
def State.resumeThread (s : State) (k : FrameRef) : State :=
  match s.threads.get k, s.frames.get k with
  | some t, some f =>
    let bad := s.recordAltered k t f.saveptr || s.recordTags f.saveptr t.alloc
    let s1 := ((s.onThread k fun t => t.fromRecord s f.saveptr).unsuspend k).wakeDie (dieOf (coreOf k))
    if s.bad f.saveptr (recordSize t.alloc) then (s1.noteBad f.saveptr (recordSize t.alloc)).faultThread k codeMemUe 0
    else if bad then s1.faultThread k codeIllegal 0
    else (s1.cameBack k).camWake (clusterOf (coreOf k))
  | _, _ => s

/-- The threads of a report can all be held by their lanes. -/
def State.canResume (s : State) (ts : List (FrameRef × Thread)) : Bool :=
  s.regsFit ts && ts.all fun (k, t) =>
    (ts.filter fun (j, u) => coreOf j == coreOf k && u.part == t.part && u.lane == t.lane).length
      ≤ ((List.range Config.contexts).filter fun c => (s.inContext (coreOf k) t.part t.lane c).isNone).length

/-- DBG_RESUME (18 R389 point 4): the groups of the current report resume together, once their lanes can hold them. -/
def execDbgResume (ctx : Nat) (s : State) : Host.Outcome State Fault Refusal :=
  let c := s.ctx ctx
  match c.stops.find? DebugStop.reported with
  | none => .next s
  | some x =>
    let ts := s.stoppedBy x.id
    if !s.canResume ts || !s.running ctx then .next (s.onCtx ctx fun c => { c with resuming := true })
    else
      let s1 := (ts.foldl (fun acc (k, _) => acc.resumeThread k) s).regrant ts
      .next (s1.onCtx ctx fun c => { c with stopped := false, resuming := false, stops := c.stops.filter fun y => y.id != x.id })

end Sys2Proof.Machine
end

