-- ==== Sys2Proof/Machine/Display.lean ====
section
/-! DEFINITION. Mileposts and frame edges, the display heads, swaps, and the hot standby's test (20 R401 to R405). -/

namespace Sys2Proof.Machine

/-- The physical die that carries the heads and the genlock input (00 R4). -/
def State.headDie (s : State) : Nat := if s.fuses.dies ≤ 2 then 1 else 3

/-- LATE counts a swap that took effect late (20 R402); what a count past its 16 bits holds is not stated (log 40). -/
def State.countLate (s : State) (h : Nat) : State :=
  if (s.head h).late < 0xFFFF then s.onHead h fun x => { x with late := x.late + 1 }
  else { s.onHead h (fun x => { x with late := leNat [Config.freeByte s.free, Config.freeByte (s.free + 1)] }) with free := s.free + 2 }

/-- A write of DISP_SWAPADDR (20 R404). -/
def State.writeSwapAddr (s : State) (h v : Nat) : State := s.onHead h fun x => { x with swapAddr := v % 2 ^ 52 }

/-- A write of DISP_SWAPMP: a swap is written, late when its edge has come (20 R404). -/
def State.writeSwapMp (s : State) (h v : Nat) : State :=
  s.onHead h fun x => { x with swapMp := v, swap := some (decide (v ≤ s.pkg.milepost)), swapAt := s.cycle }

/-- Nanoseconds from a head's edge to pixel period `n` of line `y` (20 R403). -/
def Head.pixelTime (x : Head) (y n : Nat) : Nat := (y * x.htotal + n) * 1000000 / x.khz

/-- The head drives its stream, and a frame has started on it (20 R403). -/
def Head.driving (x : Head) : Bool := x.en && x.linkup && x.khz != 0 && x.framed

/-- The frame in hand has active lines that are not read yet. -/
def Head.inFrame (x : Head) : Bool := x.driving && x.line < x.vactive

/-- Line VTOTAL − 1 of the frame in hand is complete at a nanosecond, or there is no frame (20 R403). -/
def Head.frameOver (x : Head) (now : Nat) : Bool := !x.driving || x.start + x.pixelTime x.vtotal 0 ≤ now

/-- Pixel periods of the frame in hand that have passed: the line, and the place in it. -/
def Head.beam (x : Head) (now : Nat) : Nat × Nat :=
  let n := (now - x.start) * x.khz / 1000000
  (n / x.htotal, n % x.htotal)

/-- The levels of horizontal and vertical sync that a head drives (20 R402, R403): the pulse has the level of its polarity, and
what is not the pulse has the other. -/
def Head.sync (x : Head) (now : Nat) : Bool × Bool :=
  let (y, n) := x.beam now
  let hs := x.hactive + x.hstart ≤ n && n < x.hactive + x.hstart + x.hwidth
  let vs := x.vstart ≤ y && y < x.vstart + x.vwidth
  (hs == x.hpol, vs == x.vpol)

/-- The sync levels of a head that drives its stream. -/
def State.syncOf (s : State) (h : Nat) : Option (Bool × Bool) :=
  if (s.head h).driving then some ((s.head h).sync s.nanos) else none

/-- The head takes an edge: its frame starts, and the buffer of a swap that took effect at the edge is shown (20 R402, R404). -/
def State.takeEdge (s : State) (h : Nat) (swap : Option (Nat × Bool)) : State :=
  let s1 := s.onHead h fun x => { x with start := s.nanos, framed := true, edge := none, line := 0, column := 0 }
  match swap with
  | none => s1
  | some (addr, late) =>
    let s2 := s1.onHead h fun x => { x with base := addr }
    if late then s2.countLate h else s2

/-- A swap of a head takes effect at the edge at which the milepost becomes `m`. One written in the cycle of the edge that it
names, or after it, waits for the next edge (20 R404, R409). -/
def Head.swapDue (x : Head) (cycle m : Nat) : Bool :=
  match x.swap with
  | none => false
  | some true => x.swapAt != cycle
  | some false => x.swapAt != cycle && x.swapMp == m

/-- A head at an edge: a swap that is due takes effect, and where the frame in hand is not complete the edge waits, with the swap,
for the end of line VTOTAL − 1 (20 R403, R404). -/
def State.headEdge (s : State) (m h : Nat) : State :=
  let x := s.head h
  let due := x.swapDue s.cycle m
  let swap := if due then some (x.swapAddr, x.swap == some true) else x.edge.getD none
  let left := if due then none else if x.swapAt = s.cycle ∧ x.swapMp ≤ m ∧ x.swap ≠ none then some true else x.swap
  let s1 := s.onHead h fun x => { x with swap := left }
  if x.frameOver s.nanos then s1.takeEdge h swap else s1.onHead h fun x => { x with edge := some swap }

/-- The last READY that counts at an edge: one that arrives in the cycle of the edge is counted after the test (20 R405). -/
def State.readyAtEdge (s : State) : Option Nat := if s.readyAt = s.cycle then s.readyBefore else s.lastReady

/-- The standby's test at edge `m` (20 R405): the last READY names a milepost below m − MARGIN. -/
def State.standbyTest (s : State) (m : Nat) : State :=
  if s.pkg.role = 2 ∧ !s.pkg.took ∧ s.readyAtEdge.any (fun r => r + s.pkg.margin < m) then
    { ((s.onPkg fun p => { p with took := true }).emit .takeoverPin).signal s.pkg.vector with takeover := true }
  else s

/-- EN of a head set: its link starts training (20 R403). -/
def State.enableHead (s : State) (h : Nat) : State :=
  if h < s.fuses.heads ∧ !(s.head h).en then
    s.onHead h fun x => { x with en := true, linkup := false, framed := false, edge := none, line := 0, column := 0 }
  else s

/-- EN of a head cleared: it drives nothing (20 R403). With its frame ends the wait of an edge, and a swap that took effect there has its
effect (20 R404). -/
def State.disableHead (s : State) (h : Nat) : State :=
  (((s.head h).edge).elim s (s.takeEdge h)).onHead h fun x => { x with en := false, linkup := false, framed := false, edge := none, line := 0, column := 0 }

/-- A takeover acts at the next edge: the standby drives the heads that the active chip drove; the active chip clears EN on
every head and is deposed (20 R405). -/
def State.takeoverEdge (s : State) : State :=
  if !s.takeover then s
  else if s.pkg.role = 2 then
    ((List.range s.fuses.heads).filter (testBit s.peerHeads)).foldl State.enableHead { s with takeover := false }
  else
    let s1 := (List.range s.fuses.heads).foldl State.disableHead { s with takeover := false }
    (s1.onPkg fun p => { p with deposed := true }).signal s.pkg.vector

/-- A frame edge at which the milepost becomes `m` (20 R401, R404, R405). -/
def State.edge (s : State) (m : Nat) : State :=
  let s1 := s.onPkg fun p => { p with milepost := m }
  let s2 := (List.range s.fuses.heads).foldl (fun acc h => acc.headEdge m h) s1
  s2.takeoverEdge.standbyTest m

/-- The frame period; a period of 0 counts as 1 ns (log 40). -/
def State.period (s : State) : Nat := max 1 s.pkg.period

/-- This chip makes its own edges: it is the master without genlock, or has no master (20 R401). -/
def State.ownEdges (s : State) : Bool := if s.pkg.role = 0 then !s.pkg.genlock else !s.pkg.locked

/-- An edge of this chip's timebase is due (20 R401). -/
def State.edgeDue (s : State) : Bool := s.pkg.stage == 7 && s.ownEdges && s.nextEdge ≤ s.nanos

/-- The master's edge is sent to every chip (20 R401). -/
def State.sendEdge (s : State) : State := if s.pkg.role = 0 ∧ s.peers ≠ [] then s.emit (.milepost s.pkg.milepost) else s

/-- An edge of this chip's own timebase, if one is due. -/
def State.ownEdge (s : State) : State :=
  if s.edgeDue then { (s.edge (s.pkg.milepost + 1)).sendEdge with nextEdge := s.nextEdge + s.period } else s

/-- A head has an edge that waited for the end of its frame, which has come (20 R403). -/
def State.edgeWaits (s : State) (h : Nat) : Bool :=
  h < s.fuses.heads && (s.head h).edge.isSome && (s.head h).frameOver s.nanos

/-- The heads whose waiting edge is due take it. -/
def State.waitedEdges (s : State) : State :=
  ((List.range s.fuses.heads).filter s.edgeWaits).foldl (fun acc h => acc.takeEdge h ((s.head h).edge.getD none)) s

/-- FRAME_EDGE (20 R401, R403): an edge every CW_PERIOD nanoseconds of the timebase, and the edges that the heads take at the end of
a frame. -/
def execFrameEdge (s : State) : Host.Outcome State Fault Refusal := .next s.waitedEdges.ownEdge

/-- GENLOCK_EDGE (20 R401): the master with GENLOCK takes its edges from the input. -/
def execGenlockEdge (s : State) : Host.Outcome State Fault Refusal :=
  if s.pkg.role = 0 ∧ s.pkg.genlock then
    .next { (s.edge (s.pkg.milepost + 1)).sendEdge with nextEdge := s.nanos + s.period }
  else .next s

/-- A port carries traffic while it is up; mileposts are lost when every port is down or retraining (20 R401). -/
def State.reachesMaster (s : State) : Bool := s.pkg.ports.any (· == 1)

/-- The next own edge moved toward the master's by at most `most`: the edges are `ahead` nanoseconds apart, the master's being
the nearer one before or after (20 R401). -/
def slew (period next now most : Nat) : Nat :=
  let ahead := (next - now) % period
  if ahead = 0 then next
  else if 2 * ahead ≤ period then next - min most ahead
  else next + min most (period - ahead)

/-- The distance of the own edges from the master's, whose edge is now. -/
def edgeGap (period next now : Nat) : Nat :=
  let ahead := (next - now) % period
  min ahead (period - ahead)

/-- The edges of every milepost after this chip's up to a value: none is skipped (20 R401). -/
def State.edgesTo (s : State) (n : Nat) : State :=
  (List.range (n - s.pkg.milepost)).foldl (fun acc i => acc.edge (s.pkg.milepost + 1 + i)) s

/-- MILEPOST (20 R401): a chip that is LOCKED applies the master's value at the edge, with every value between; one that is not moves
its own edges toward the master's, by at most NS / 1,024, and is LOCKED when they lie within 1 µs, from this edge on (log 41). -/
def execMilepost (n : Nat) (s : State) : Host.Outcome State Fault Refusal :=
  if s.pkg.role = 0 ∨ !s.reachesMaster then .next s
  else if s.pkg.locked then
    if s.pkg.milepost < n then .next { s.edgesTo n with nextEdge := s.nanos + s.period } else .next s
  else if edgeGap s.period s.nextEdge s.nanos ≤ 1000 then
    .next { State.edgesTo (s.onPkg fun p => { p with locked := true }) n with nextEdge := s.nanos + s.period }
  else .next { s with nextEdge := slew s.period s.nextEdge s.nanos (s.period / 1024) }

/-- DISP_ENABLE (20 R403): EN of a head written from 0 to 1. -/
def execDispEnable (h : Nat) (s : State) : Host.Outcome State Fault Refusal := .next (s.enableHead h)

/-- Lanes and rate that train, in units of 0.1 Gbit/s for each lane (20 R402). -/
def Head.linkRate (x : Head) : Option Nat :=
  if x.lanes ≠ 1 ∧ x.lanes ≠ 2 ∧ x.lanes ≠ 4 then none
  else
    match x.rate with
    | 0 => some (100 * x.lanes)
    | 1 => some (135 * x.lanes)
    | 2 => some (200 * x.lanes)
    | _ => none

/-- The stream fits what the lanes carry under 128b/132b coding (20 R403; log 40). -/
def Head.fits (x : Head) : Bool :=
  match x.linkRate with
  | none => false
  | some r => x.khz * (if x.depth then 30 else 24) * 132 ≤ r * 100000 * 128

/-- LINKUP (20 R403): the link of a head with EN finishes training; one that fails, or whose mode does not fit, drives nothing.
The stream's first frame starts at the next edge (20 R402). -/
def execLinkup (h : Nat) (trained : Bool) (s : State) : Host.Outcome State Fault Refusal :=
  let x := s.head h
  if h < s.fuses.heads ∧ x.en ∧ !x.linkup ∧ trained ∧ x.fits then
    .next (s.onHead h fun x => { x with linkup := true, framed := false, line := 0, column := 0, edge := none })
  else .next s

/-- READY (20 R405): the standby receives READY. -/
def execReady (m : Nat) (s : State) : Host.Outcome State Fault Refusal :=
  let s1 := s.ownEdge
  if s1.pkg.role = 2 then
    .next { s1 with lastReady := some m, readyAt := s1.cycle,
                    readyBefore := if s1.readyAt = s1.cycle then s1.readyBefore else s1.lastReady }
  else .next s1

/-- TAKEOVER_INPUT (20 R405): an active chip whose takeover input is asserted acts at its next edge. -/
def execTakeoverInput (s : State) : Host.Outcome State Fault Refusal :=
  let s1 := s.ownEdge
  if s1.pkg.role = 2 then .next s1 else .next { s1 with takeover := true }

/-- A pixel with the bits that its depth ignores cleared (20 R403). -/
def pixelOf (depth : Bool) (w : Word) : Word := if depth then w &&& 0x3FFFFFFF#32 else w &&& 0xFFFFFF#32

/-- 128-byte reads of a line: ⌈4 × HACTIVE / 128⌉ (20 R402, R403). -/
def Head.chunks (x : Head) : Nat := (x.hactive + 31) / 32

/-- The read in hand is followed by the next one of the line, or of the next line (20 R403). -/
def State.advance (s : State) (h : Nat) : State :=
  s.onHead h fun x => if x.column + 1 < x.chunks then { x with column := x.column + 1 } else { x with column := 0, line := x.line + 1 }

/-- SCANOUT_READ (20 R402, R403): the next 128 bytes of the buffer being shown, at home; uncorrectable data shows black. A
buffer beyond device memory has no stated content (log 40). -/
def execScanoutRead (h : Nat) (s : State) : Host.Outcome State Fault Refusal :=
  let x := s.head h
  if h < s.fuses.heads ∧ x.inFrame then
    let a := x.base + x.line * x.pitch + 128 * x.column
    let n := min 32 (x.hactive - 32 * x.column)
    let word := fun (f : Nat → Byte) (i : Nat) => pixelOf x.depth (BitVec.ofNat 32 (leNat ((span (4 * i) 4).map f)))
    if s.capacity < a + 128 then
      let s1 := { s with free := s.free + 128 }
      .next ((s1.onHead h fun x => { x with shown := (List.range n).map (word fun j => Config.freeByte (s.free + j)) }).advance h)
    else if s.bad a 128 then
      let s1 := (s.uncorrectable (s.homeDie a) 1).count s.headDie 17
      .next ((s1.onHead h fun x => { x with shown := List.replicate n 0 }).advance h)
    else .next ((s.onHead h fun x => { x with shown := (List.range n).map (word fun j => readByte s.mem (a + j)) }).advance h)
  else .next s

/-- The next read of a head is due: its time in the frame has come (20 R403). -/
def State.scanoutDue (s : State) (h : Nat) : Bool :=
  let x := s.head h
  h < s.fuses.heads && x.inFrame
    && x.start + x.pixelTime (x.vtotal - x.vactive + x.line) (32 * x.column) ≤ s.nanos

end Sys2Proof.Machine
end

