-- ==== Sys2Proof/Machine/Registers.lean ====
section
/-! DEFINITION. The host's register window, the die map, and the aperture (00 R10, R11; 14 R314, R325; 18 R370, R375, R376;
20 R391 to R393, R400, R402, R407, R408). -/

namespace Sys2Proof.Machine

/-- A register of the register window: its block and its offset there (20 R392). -/
inductive HostReg where
  | pkg (off : Nat)
  | cw (off : Nat)
  | disp (head off : Nat)
  | queue (q off : Nat)
  | ctx (c off : Nat)
  | die (v off : Nat)
  deriving DecidableEq, Repr

/-- Offsets and widths in bytes of the registers of each block (20 R392). -/
def pkgRegs : List (Nat × Nat) :=
  [(0x00, 4), (0x08, 8), (0x10, 8), (0x18, 4), (0x1C, 4), (0x20, 8), (0x28, 8), (0x30, 8), (0x38, 4), (0x3C, 4), (0x40, 8),
    (0x48, 8), (0x50, 8)]
def cwRegs : List (Nat × Nat) := [(0x0, 4), (0x4, 4), (0x8, 8), (0x10, 4)]
def dispRegs : List (Nat × Nat) :=
  [(0x00, 4), (0x04, 4), (0x08, 8), (0x10, 8), (0x18, 8), (0x20, 4), (0x24, 4), (0x28, 4), (0x2C, 4), (0x30, 4), (0x34, 4),
    (0x38, 4)]
def queueRegs : List (Nat × Nat) := [(0x00, 8), (0x08, 4), (0x10, 4), (0x18, 4)]
def ctxRegs : List (Nat × Nat) :=
  [(0x00, 8), (0x08, 8), (0x10, 8), (0x18, 4), (0x20, 4), (0x28, 8), (0x30, 4), (0x38, 8), (0x40, 8)]
def dieRegs : List (Nat × Nat) :=
  [(0x00, 8), (0x08, 4), (0x0C, 4), (0x10, 4), (0x14, 4), (0x18, 4), (0x1C, 4), (0x20, 4), (0x24, 4), (0x28, 4), (0x30, 4),
    (0x34, 4), (0x38, 8), (0x40, 8), (0x48, 4), (0x4C, 4), (0x50, 8)]

/-- The register of a block that holds an offset: its own offset and width. -/
def regIn (l : List (Nat × Nat)) (o : Nat) : Option (Nat × Nat) := l.find? fun (r, w) => r ≤ o && o < r + w

/-- The register that an offset of the windows names, with its width and the offset in it: the register window, and from 64 MiB
on the doorbell pages of BAR 2, each with QUEUE_TAIL at its offset 0 and nothing else (20 R391, R392; log 43). -/
def hostReg (off : Nat) : Option (HostReg × Nat × Nat) :=
  let named := fun (l : List (Nat × Nat)) (o : Nat) (f : Nat → HostReg) => (regIn l o).map fun (r, w) => (f r, w, o - r)
  if off < 0x100 then named pkgRegs off .pkg
  else if off < 0x140 then named cwRegs (off - 0x100) .cw
  else if off < 0x400 then none
  else if off < 0x500 then named dispRegs (off % 0x40) (.disp ((off - 0x400) / 0x40))
  else if off < 0x10000 then none
  else if off < 0x10800 then named queueRegs (off % 0x20) (.queue ((off - 0x10000) / 0x20))
  else if off < 0x20000 then none
  else if off < 0x22000 then named ctxRegs (off % 0x80) (.ctx ((off - 0x20000) / 0x80))
  else if off < 0x100000 then none
  else if off < 0x140000 then
    let v := (off - 0x100000) / 0x10000
    let o := off % 0x10000
    if o < 0x100 then named dieRegs o (.die v)
    else if o < 0x200 then some (.die v (o / 4 * 4), 4, o % 4)
    else none
  else if 0x4000000 ≤ off ∧ off < 0x4040000 ∧ off % 0x1000 < 4 then some (.queue ((off - 0x4000000) / 0x1000) 0x10, 4, off % 4)
  else none

/-- What an access of the window reaches (20 R392). -/
inductive HostAccess where
  | unsupported
  | nothing
  | whole (r : HostReg)
  | low (r : HostReg)
  | high (r : HostReg)
  deriving DecidableEq, Repr

/-- The access rules of 20 R392. A doorbell page holds its alias at offset 0; an access of any other offset of it, of any size, reads 0
or is ignored (20 R391). -/
def hostAccess (off size : Nat) : HostAccess :=
  if 0x4000000 ≤ off ∧ (0x4040000 ≤ off ∨ 4 ≤ off % 0x1000) then .nothing
  else if (size ≠ 4 ∧ size ≠ 8) ∨ off % size ≠ 0 then .unsupported
  else
    match hostReg off with
    | none => .nothing
    | some (r, w, i) => if w = size then .whole r else if size = 8 then .unsupported else if i = 0 then .low r else .high r

/-- The block of a virtual die shows the physical die that it maps to, where that is present (18 R375). -/
def State.shownDie (s : State) (v : Nat) : Option Nat :=
  if v < s.fuses.dies ∧ s.physDie v < s.fuses.dies then some (s.physDie v) else none

/-- Bits of a Bool list, lowest first. -/
def packBits : List Bool → Nat
  | [] => 0
  | b :: rest => (if b then 1 else 0) + 2 * packBits rest

/-- DIE_L2P byte j: the physical index of logical core j, with VALID (18 R375). -/
def State.l2pByte (s : State) (v j : Nat) : Nat :=
  match (s.dieCoreList v)[j]? with
  | some g => 64 + physOf g
  | none => 0

/-- The RAS counters of a physical die: 15 and 16 are on die 0 only, the base die that serves the host, and the block of the virtual
die that maps to it shows them (00 R9; 18 R375; 20 R408). -/
def rasListed (p k : Nat) : Bool := k ≤ 19 && k != 9 && (p == 0 || (k != 15 && k != 16))

/-- A register of a die block (14 R304, R316, R320; 18 R375; 20 R407, R408). -/
def State.readDie (s : State) (v p off : Nat) : Nat :=
  let d := s.die p
  if 0x100 ≤ off then (if rasListed p ((off - 0x100) / 4) then d.ras.getD ((off - 0x100) / 4) 0 else 0)
  else if off = 0 then s.enableMask v
  else if off < 0x30 then
    let j := off - 0x08
    s.l2pByte v j + 2 ^ 8 * s.l2pByte v (j + 1) + 2 ^ 16 * s.l2pByte v (j + 2) + 2 ^ 24 * s.l2pByte v (j + 3)
  else
    match off with
    | 0x30 => d.thresh + 2 ^ 8 * bit d.eager
    | 0x34 => d.replMade + 2 ^ 16 * d.replDropped
    | 0x38 => d.missLocal
    | 0x40 => d.missRemote
    | 0x48 => d.contBad
    | 0x4C => bit d.autogate + 2 * d.idleUs + 2 ^ 17 * bit d.gated
    | _ => d.sweeps

/-- A register of a display head (20 R402). -/
def Head.readReg (x : Head) (off : Nat) : Nat :=
  match off with
  | 0x00 => bit x.en + 2 * bit x.depth
  | 0x04 => x.pitch
  | 0x08 => x.base
  | 0x10 => x.swapAddr
  | 0x18 => x.swapMp
  | 0x20 => x.late + 2 ^ 16 * bit x.linkup
  | 0x24 => x.hactive + 2 ^ 16 * x.htotal
  | 0x28 => x.hstart + 2 ^ 16 * x.hwidth + 2 ^ 31 * bit x.hpol
  | 0x2C => x.vactive + 2 ^ 16 * x.vtotal
  | 0x30 => x.vstart + 2 ^ 16 * x.vwidth + 2 ^ 31 * bit x.vpol
  | 0x34 => x.khz
  | _ => x.lanes + 8 * x.rate

/-- CW_STAT.PORTS: two bits for each port (20 R400). -/
def packPorts : List PortState → Nat
  | [] => 0
  | p :: rest => p + 4 * packPorts rest

/-- A register of the package block or of Causeway (14 R325; 18 R376; 20 R392, R396, R400). -/
def State.readPkg (s : State) (off : Nat) : Nat :=
  let p := s.pkg
  match off with
  | 0x00 => p.phys + 2 ^ 8 * p.offline + 2 ^ 16 * p.mapErr
  | 0x08 => p.leasecap
  | 0x10 => p.regenbase
  | 0x18 => p.regenlim
  | 0x1C => p.ageperiod
  | 0x20 => 2 ^ 36 * p.apbase
  | 0x28 => p.backbase
  | 0x30 => p.backpages
  | 0x38 => p.stage + 2 ^ 4 * p.slot + 2 ^ 5 * p.bootDie + 2 ^ 16 * p.bootErr
  | 0x3C => p.rasvec + 2 ^ 11 * bit p.rasen
  | 0x40 => p.fwbase
  | 0x48 => p.futbase
  | _ => p.backrsv

def State.readCw (s : State) (off : Nat) : Nat :=
  let p := s.pkg
  match off with
  | 0x0 => p.chipid + 2 ^ 3 * p.role + 2 ^ 5 * bit p.genlock + 2 ^ 6 * p.margin + 2 ^ 8 * p.vector
  | 0x4 => p.period
  | 0x8 => p.milepost
  | _ => packPorts p.ports + 2 ^ 16 * bit p.locked + 2 ^ 17 * bit p.took + 2 ^ 18 * bit p.deposed

/-- STATE codes of CTX_CTL (18 R370). -/
def CtxState.code : CtxState → Nat
  | .running => 0
  | .saving => 1
  | .saved => 2
  | .restoring => 3

/-- A register of an execution context (18 R370): write-only fields read 0. -/
def Ctx.readReg (c : Ctx) (off : Nat) : Nat :=
  match off with
  | 0x00 => c.root
  | 0x08 => c.csa
  | 0x10 => c.csalim
  | 0x18 => 2 ^ 2 * c.state.code + 2 ^ 16 * c.err
  | 0x28 => c.susp
  | 0x30 => c.susplim
  | 0x38 => c.dbgrep
  | 0x40 => 2 ^ 2 * bit c.stopped + 2 ^ 3 * c.vector + 2 ^ 14 * bit c.irq
  | _ => 0

/-- A register of a launch queue (18 R370). -/
def Queue.readReg (x : Queue) (off : Nat) : Nat :=
  match off with
  | 0x00 => x.base
  | 0x08 => x.size + 2 ^ 5 * bit x.enable + 2 ^ 8 * x.ctxid
  | 0x18 => x.head % 2 ^ 32
  | _ => 0

/-- What a read of a register of the window returns (00 R10, R11; 20 R392). Reads change no state. -/
def State.readReg (s : State) (r : HostReg) : Nat :=
  match r with
  | .pkg o => s.readPkg o
  | .cw o => s.readCw o
  | .disp h o => if h < s.fuses.heads then (s.head h).readReg o else 0
  | .queue q o => (s.queue q).readReg o
  | .ctx c o => (s.ctx c).readReg o
  | .die v o => (s.shownDie v).elim 0 fun p => s.readDie v p o

/-- A read of the window: none where it completes with Unsupported Request, and where nothing answers, since of a package whose
boot failed only PKG_BOOTSTAT does (20 R392, R396). -/
def State.readWindow (s : State) (off size : Nat) : Option Nat :=
  if s.pkg.stage ≠ 7 ∧ off ≠ 0x38 then none
  else
  match hostAccess off size with
  | .unsupported => none
  | .nothing => some 0
  | .whole r => some (s.readReg r)
  | .low r => some (s.readReg r % 2 ^ 32)
  | .high r => some (s.readReg r / 2 ^ 32)

/-- The context has resident threads on a virtual die whose mapping a write changes (18 R376). -/
def State.residentOn (s : State) (changed : Nat → Bool) : Bool :=
  s.threads.any fun (k, t) => t.resident && changed (dieOf (coreOf k))

/-- The physical die of a virtual die under a written PHYS. -/
def mapOf (phys v : Nat) : Nat := bitsOf phys (2 * v + 1) (2 * v)

/-- A write of PHYS is refused with DIE_BUSY (18 R376). -/
def State.mapRefused (s : State) (phys : Nat) : Bool :=
  let dies := List.range s.fuses.dies
  let changed := fun (v : Nat) => v < s.fuses.dies && mapOf phys v != s.physDie v
  let gone := fun (g : Nat) =>
    changed (dieOf g) && !testBit (s.fuses.enable.getD (mapOf phys (dieOf g)) 0) (physOf g)
  s.residentOn changed || s.ctxs.any (fun (_, c) => c.savedCoreAt.any fun (g, _) => gone g)
    || dies.any (fun v => s.fuses.dies ≤ mapOf phys v)
    || dies.any fun v => dies.any fun w => v != w && mapOf phys v == mapOf phys w

/-- The contents of the units of a core that move with its physical die. -/
def Core.contents (a b : Core) : Core :=
  { a with spad := b.spad, bad := b.bad, l1 := b.l1, gen := b.gen, sinceSweep := b.sinceSweep, sweeping := b.sweeping, edge := b.edge,
           wins := b.wins, tlb := [] }

/-- The contents of the units of a cluster that move with its physical die. -/
def Cluster.contents (a b : Cluster) : Cluster := { a with vault := b.vault, bad := b.bad, slots := b.slots }

/-- The units of the package under another map: what a physical die holds is found under its new virtual number (18 R375,
R376; log 42). -/
def State.remap (s : State) (phys : Nat) : State :=
  let was := fun (v : Nat) => ((List.range s.fuses.dies).find? fun w => s.physDie w == mapOf phys v).getD v
  let oldCore := fun (g : Nat) => Config.dieCores * was (dieOf g) + physOf g
  let oldCl := fun (cl : Nat) => 9 * was (cl / 9) + cl % 9
  let moved := (List.range (Config.dieCores * s.fuses.dies)).filter fun g =>
    oldCore g != g && ((s.cores.get g).isSome || (s.cores.get (oldCore g)).isSome)
  let movedCl := (List.range (9 * s.fuses.dies)).filter fun cl =>
    oldCl cl != cl && ((s.clusters.get cl).isSome || (s.clusters.get (oldCl cl)).isSome)
  let s1 := moved.foldl (fun acc g => acc.onCore g fun c => c.contents (s.core (oldCore g))) s
  let s2 := movedCl.foldl (fun acc cl => acc.onCluster cl fun c => c.contents (s.cluster (oldCl cl))) s1
  s2.onPkg fun p => { p with phys := phys }

/-- A write of PKG_DIEMAP (18 R376): a write that changes PHYS may be refused whole. -/
def State.writeDiemap (s : State) (v : Nat) : State :=
  let phys := bitsOf v 7 0
  if phys ≠ s.pkg.phys ∧ s.mapRefused phys then s.onPkg fun p => { p with mapErr := 0x0304 }
  else
    let s1 := if phys = s.pkg.phys then s else s.remap phys
    s1.onPkg fun p => { p with offline := bitsOf v 11 8, mapErr := 0 }

/-- DIEMAP_WRITE (18 R376). -/
def execDiemapWrite (v : Nat) (s : State) : Host.Outcome State Fault Refusal := .next (s.writeDiemap v)

/-- The next state of an outcome, or the state before it. -/
def nextOr (o : Host.Outcome State Fault Refusal) (s : State) : State :=
  match o with
  | .next t => t
  | _ => s

/-- A write of a package register (14 R325; 20 R392): read-only fields and reserved ones ignore it. -/
def State.writePkg (s : State) (off v : Nat) : State :=
  match off with
  | 0x00 => s.writeDiemap v
  | 0x10 => s.onPkg fun p => { p with regenbase := v % 2 ^ 52 }
  | 0x18 => s.onPkg fun p => { p with regenlim := v % 2 ^ 17 }
  | 0x1C => s.onPkg fun p => { p with ageperiod := max 1 v }
  | 0x20 => s.onPkg fun p => { p with apbase := bitsOf v 51 36 }
  | 0x28 => s.dropFreed.onPkg fun p => { p with backbase := bitsOf v 63 12 * 2 ^ 12 }
  | 0x30 => s.dropFreed.onPkg fun p => { p with backpages := v % 2 ^ 40 }
  | 0x3C => s.onPkg fun p => { p with rasvec := bitsOf v 10 0, rasen := testBit v 11 }
  | 0x50 => s.dropFreed.onPkg fun p => { p with backrsv := v % 2 ^ 40 }
  | _ => s

/-- A write of a Causeway register (20 R400). -/
def State.writeCw (s : State) (off v : Nat) : State :=
  match off with
  | 0x0 => s.onPkg fun p =>
      { p with chipid := bitsOf v 2 0, role := bitsOf v 4 3, genlock := testBit v 5, margin := bitsOf v 7 6, vector := bitsOf v 18 8 }
  | 0x4 => s.onPkg fun p => { p with period := v }
  | 0x10 => s.onPkg fun p => { p with took := p.took && !testBit v 17, deposed := p.deposed && !testBit v 18 }
  | _ => s

/-- The timing of a head, whose writes are ignored while EN is 1 (20 R403). -/
def Head.writeTiming (x : Head) (off v : Nat) : Head :=
  if x.en then x
  else
    match off with
    | 0x24 => { x with hactive := bitsOf v 15 0, htotal := bitsOf v 31 16 }
    | 0x28 => { x with hstart := bitsOf v 15 0, hwidth := bitsOf v 30 16, hpol := testBit v 31 }
    | 0x2C => { x with vactive := bitsOf v 15 0, vtotal := bitsOf v 31 16 }
    | 0x30 => { x with vstart := bitsOf v 15 0, vwidth := bitsOf v 30 16, vpol := testBit v 31 }
    | 0x34 => { x with khz := v }
    | 0x38 => { x with lanes := bitsOf v 2 0, rate := bitsOf v 5 3 }
    | _ => x

/-- A write of a register of a head (20 R402 to R404). The active chip mirrors DISP_SWAPADDR and DISP_SWAPMP (20 R405). -/
def State.writeDisp (s : State) (h off v : Nat) : State :=
  match off with
  | 0x00 =>
    let s1 := s.onHead h fun x => { x with depth := testBit v 1 }
    if testBit v 0 then s1.enableHead h else s1.disableHead h
  | 0x04 => s.onHead h fun x => { x with pitch := v % 2 ^ 24 }
  | 0x08 => s
  | 0x10 => (s.writeSwapAddr h v).mirror (.swapAddr h v)
  | 0x18 => (s.ownEdge.writeSwapMp h v).mirror (.swapMp h v)
  | 0x20 => s.onHead h fun x => { x with late := packBits ((List.range 16).map fun i => testBit x.late i && !testBit v i) }
  | _ => s.onHead h fun x => x.writeTiming off v

/-- A write of a register of a queue (18 R370). -/
def State.writeQueue (s : State) (q off v : Nat) : State :=
  match off with
  | 0x00 => s.onQueue q fun x => if x.enable then x else { x with base := bitsOf v 51 12 * 2 ^ 12 }
  | 0x08 => nextOr (if testBit v 5 then execQueueEnable q v s else execQueueDisable q v s) s
  | 0x10 => nextOr (execDoorbell q v s) s
  | _ => s

/-- A context's launches are incomplete. -/
def State.busyCtx (s : State) (c : Nat) : Bool := s.launches.any fun (_, l) => l.ctxid == c

/-- A write of CTX_CTL: PREEMPT, RESUME and KILL (18 R384, R386, R387). -/
def State.writeCtxCtl (s : State) (c v : Nat) : State :=
  let s1 := if testBit v 0 then nextOr (execPreempt c s) s else s
  let s2 := if testBit v 1 then nextOr (execResume c s1) s1 else s1
  if testBit v 4 then nextOr (execKill c s2) s2 else s2

/-- A write of CTX_DBGCTL: VECTOR and IRQ, RESUME, and STOP of LAUNCH (18 R389). -/
def State.writeDbgctl (s : State) (c v : Nat) : State :=
  let s1 := s.onCtx c fun x => { x with vector := bitsOf v 13 3, irq := testBit v 14 }
  let s2 := if testBit v 0 then nextOr (execDbgResume c s1) s1 else s1
  if testBit v 1 then nextOr (execStop c (bitsOf v 63 32) s2) s2 else s2

/-- A write of a register of a context (18 R370, R388): those that a launch in hand rests on are kept while one is. -/
def State.writeCtx (s : State) (c off v : Nat) : State :=
  let idle := fun (f : Ctx → Ctx) => if s.busyCtx c then s else s.onCtx c f
  match off with
  | 0x00 => idle fun x => { x with root := bitsOf v 51 12 * 2 ^ 12 }
  | 0x08 => idle fun x => { x with csa := bitsOf v 51 12 * 2 ^ 12 }
  | 0x10 => s.onCtx c fun x => { x with csalim := v % 2 ^ 40 }
  | 0x18 => s.writeCtxCtl c v
  | 0x20 => nextOr (execCtxKill c v s) s
  | 0x28 => idle fun x => { x with susp := bitsOf v 51 12 * 2 ^ 12 }
  | 0x30 => idle fun x => { x with susplim := v }
  | 0x38 => s.onCtx c fun x => { x with dbgrep := bitsOf v 51 16 * 2 ^ 16 }
  | _ => s.writeDbgctl c v

/-- A write of a register of a die block (12 R304; 14 R316, R320; 20 R407, R408). -/
def State.writeDie (s : State) (p off w : Nat) : State :=
  if 0x100 ≤ off then
    if rasListed p ((off - 0x100) / 4) then s.onDie p fun d => { d with ras := d.ras.put ((off - 0x100) / 4) w } else s
  else
    match off with
    | 0x30 => s.onDie p fun d => { d with thresh := bitsOf w 7 0, eager := testBit w 8 }
    | 0x34 => s.onDie p fun d =>
        { d with replMade := packBits ((List.range 16).map fun i => testBit d.replMade i && !testBit w i)
                 replDropped := packBits ((List.range 16).map fun i => testBit d.replDropped i && !testBit w (16 + i)) }
    | 0x38 => s.onDie p fun d => { d with missLocal := w % 2 ^ 48 }
    | 0x40 => s.onDie p fun d => { d with missRemote := w % 2 ^ 48 }
    | 0x48 => s.onDie p fun d => { d with contBad := w }
    | 0x4C => s.onDie p fun d => { d with autogate := testBit w 0, idleUs := bitsOf w 16 1 }
    | 0x50 => s.onDie p fun d => { d with sweeps := w % 2 ^ 48 }
    | _ => s

/-- A write of a register (00 R10, R11). -/
def State.writeReg (s : State) (r : HostReg) (v : Nat) : State :=
  match r with
  | .pkg o => s.writePkg o v
  | .cw o => s.writeCw o v
  | .disp h o => if h < s.fuses.heads then s.writeDisp h o v else s
  | .queue q o => s.writeQueue q o v
  | .ctx c o => s.writeCtx c o v
  | .die d o => (s.shownDie d).elim s fun p => s.writeDie p o v

/-- REGISTER_WRITE (00 R10; 20 R392): a write of the register window. The low half of a 64-bit register waits for the high one
(log 43). -/
def execRegisterWrite (off size v : Nat) (s : State) : Host.Outcome State Fault Refusal :=
  match hostAccess off size with
  | .unsupported => .next (s.emit .unsupported)
  | .nothing => .next s
  | .whole r => .next (s.writeReg r (v % 2 ^ (8 * size)))
  | .low _ => .next { s with half := some (off, v % 2 ^ 32) }
  | .high r =>
    match s.half with
    | some (o, lo) =>
      if o + 4 = off then .next (({ s with half := none }).writeReg r (lo + 2 ^ 32 * (v % 2 ^ 32))) else .next (s.emit .unsupported)
    | none => .next (s.emit .unsupported)

/-- The physical address that an offset of the aperture reaches (20 R391, R392). -/
def State.apertureAt (s : State) (off : Nat) : Nat := 2 ^ 36 * s.pkg.apbase + off

/-- APERTURE_BAD is counted on die 0, the base die that serves the host, whatever the die map says (00 R9; 20 R393, R408). -/
def State.apertureBad (s : State) : State := s.count 0 16

/-- APERTURE_READ (20 R393): a read of n bytes at home. -/
def execApertureRead (off n : Nat) (s : State) : Host.Outcome State Fault Refusal :=
  let a := s.apertureAt off
  if s.capacity < a + n then .next (s.apertureBad.emit .unsupported)
  else if s.bad a n then .next ((s.uncorrectable (s.homeDie a) 1).emit .abort)
  else .next (s.emit (.apertureData (readBytes s.mem a n)))

/-- APERTURE_WRITE (20 R393): bytes written at home; those beyond device memory are discarded. -/
def execApertureWrite (off : Nat) (bytes : List Byte) (s : State) : Host.Outcome State Fault Refusal :=
  let a := s.apertureAt off
  let s1 := s.homeWrite a (bytes.take (s.capacity - a))
  .next (if s.capacity < a + bytes.length then s1.apertureBad else s1)

end Sys2Proof.Machine
end

