-- ==== Sys2Proof/Machine/Boot.lean ====
section
/-! DEFINITION. Package reset and the stages of boot (20 R396; 18 R375; 14 R313; log 3). -/

namespace Sys2Proof.Machine

/-- An image is used only if its check passes, which needs the reserved bits of its configuration word to be 0 (20 R396). -/
def BootImage.usable (i : BootImage) : Bool := i.passes && i.config.toNat / 2 == 0

/-- The image slot that stage 1 chooses, and its image. -/
def State.bootSlot (s : State) : Option (Nat × BootImage) :=
  match s.images with
  | a :: rest => if a.usable then some (0, a) else
    match rest with
    | b :: _ => if b.usable then some (1, b) else none
    | [] => none
  | [] => none

/-- The machine before the first stage: what is fused, flashed or outside the package, host memory among it, stays; all else is at its
reset state (log 2, log 3). -/
def State.cleared (s : State) : State :=
  { State.reset with fuses := s.fuses, images := s.images, bootFaults := s.bootFaults, peers := s.peers, outputs := s.outputs,
                     inputs := s.inputs, befalls := s.befalls, backing := s.backing, cycle := s.cycle, nextId := s.nextId, free := s.free }

/-- The boot map: virtual die v on physical die v (20 R396 stage 2). -/
def identityMap (dies : Nat) : Nat := packBits ((List.range dies).flatMap fun v => [testBit v 0, testBit v 1])

/-- Boot ends in stage 8; after stage 2 the map that it wrote stays (20 R396). -/
def State.bootFails (s : State) (slot err die : Nat) : State :=
  s.onPkg fun p =>
    { p with stage := 8, slot := slot, bootErr := err, bootDie := die, phys := if 3 ≤ err then identityMap s.fuses.dies else p.phys }

/-- Stages 4 to 7: timebases, WINCFG, the firmware region and what lies in it, the ports, and the windows (20 R396; 14 R313,
R325; log 3). -/
def State.bootLayout (s : State) (slot : Nat) (i : BootImage) : State :=
  let fwbase := s.capacity - 16 * 2 ^ 30
  let ports := (List.range s.fuses.ports).map fun p => if s.bootFaults.ports.contains p then 0 else 1
  let s1 := s.onPkg fun p =>
    { p with phys := identityMap s.fuses.dies, stage := 7, slot := slot, wincfg := testBit i.config.toNat 0, fwbase := fwbase,
             areabase := fwbase, futbase := fwbase + 12 * 2 ^ 30, leasecap := fwbase / 4096, ports := ports }
  let base := fun (d : Die) => { d with timeBase := (2 ^ 64 - s.nanos % 2 ^ 64) % 2 ^ 64 }
  let s2 := (List.range s.fuses.dies).foldl (fun acc v => acc.onDie v base) s1
  { s2 with nextEdge := s.nanos + s2.period, agedAt := s.cycle }

/-- PACKAGE_RESET (20 R396). -/
def execPackageReset (s : State) : Host.Outcome State Fault Refusal :=
  let s1 := s.cleared
  match s1.bootSlot with
  | none => .next (s1.bootFails 0 1 0)
  | some (slot, i) =>
    match s1.bootFaults.fuse, s1.bootFaults.dram, s1.bootFaults.link with
    | some d, _, _ => .next (s1.bootFails slot 2 d)
    | none, some d, _ => .next (s1.bootFails slot 3 d)
    | none, none, some d => .next (s1.bootFails slot 4 d)
    | none, none, none => .next (s1.bootLayout slot i)

end Sys2Proof.Machine
end

