-- ==== Sys2Proof/Machine/Spdm.lean ====
section
/-! DEFINITION. Attestation: the SPDM responders of the dies (20 R397, R398). The spec names the messages of SPDM 1.3 and their
contents; the layout of a message is taken from that standard, and digests, signatures, chains and images are opaque (log 20). -/

namespace Sys2Proof.Machine

/-- A message of the responder of a virtual die. A die that is not present has no instance. -/
def State.respond (s : State) (die : Nat) (bytes : List Byte) : Host.Outcome State Fault Refusal :=
  if (s.shownDie die).isSome then .next (s.emit (.spdm die bytes)) else .next s

/-- The header of an SPDM 1.3 message: version, code and two parameters. -/
def spdmHead (code p1 p2 : Nat) : List Byte := leBytes 1 0x13 ++ leBytes 1 code ++ leBytes 1 p1 ++ leBytes 1 p2

/-- An ERROR response. -/
def spdmError (code data : Nat) : List Byte := spdmHead 0x7F code data

/-- The chain of the responder of a virtual die: the identity is the physical die's. -/
def State.chainOf (s : State) (die : Nat) : List Byte := Config.chain (s.physDie die)

/-- Its SHA-384, 48 bytes. -/
def sha384 (m : List Byte) : List Byte := leBytes 48 (Config.sha384 m).toNat

/-- The responder's signature over a message, 96 bytes. -/
def State.signed (s : State) (die : Nat) (m : List Byte) : List Byte := leBytes 96 (Config.sign (s.physDie die) m).toNat

/-- Bytes that the spec leaves open. -/
def State.openBytes (s : State) (n : Nat) : List Byte := (span s.free n).map Config.freeByte

/-- GET_VERSION: 1.3 only (20 R397). -/
def execGetVersion (die : Nat) (s : State) : Host.Outcome State Fault Refusal :=
  s.respond die (leBytes 1 0x10 ++ leBytes 1 0x04 ++ leBytes 2 0 ++ leBytes 2 0x0100 ++ leBytes 2 0x1300)

/-- GET_CAPABILITIES: CERT_CAP, CHAL_CAP, and MEAS_CAP with signatures (20 R397). -/
def execGetCapabilities (die : Nat) (s : State) : Host.Outcome State Fault Refusal :=
  { s with free := s.free + 9 }.respond die
    (spdmHead 0x61 0 0 ++ leBytes 1 0 ++ s.openBytes 1 ++ leBytes 2 0 ++ leBytes 4 0x16 ++ (s.openBytes 9).drop 1)

/-- NEGOTIATE_ALGORITHMS: ECDSA over NIST P-384 with SHA-384 (20 R397). -/
def execNegotiateAlgorithms (die : Nat) (s : State) : Host.Outcome State Fault Refusal :=
  s.respond die (spdmHead 0x63 0 0 ++ leBytes 2 36 ++ leBytes 2 1 ++ leBytes 4 4 ++ leBytes 4 0x80 ++ leBytes 4 2 ++ leBytes 16 0)

/-- GET_DIGESTS: one chain, in slot 0 (20 R397). -/
def execGetDigests (die : Nat) (s : State) : Host.Outcome State Fault Refusal :=
  s.respond die (spdmHead 0x01 0 1 ++ sha384 (s.chainOf die))

/-- GET_CERTIFICATE: a portion of the chain in slot 0 (20 R397). -/
def execGetCertificate (die slot off len : Nat) (s : State) : Host.Outcome State Fault Refusal :=
  let c := s.chainOf die
  let part := (c.drop off).take len
  if slot = 0 ∧ off ≤ c.length then
    s.respond die (spdmHead 0x02 0 0 ++ leBytes 2 part.length ++ leBytes 2 (c.length - off - part.length) ++ part)
  else s.respond die (spdmError 0x01 0)

/-- CHALLENGE: the die signs (20 R397). The responder's nonce is open. -/
def execChallenge (die slot : Nat) (nonce : List Byte) (s : State) : Host.Outcome State Fault Refusal :=
  let body := spdmHead 0x03 0 1 ++ sha384 (s.chainOf die) ++ s.openBytes 32 ++ leBytes 2 0
  if slot = 0 then { s with free := s.free + 32 }.respond die (body ++ s.signed die (nonce ++ body)) else s.respond die (spdmError 0x01 0)

/-- One entry of the package report (20 R398). -/
def State.reportEntry (s : State) (v : Nat) : List Byte :=
  leBytes 1 v ++ leBytes 1 (s.physDie v) ++ leBytes 6 0 ++ leBytes 8 (s.enableMask v) ++ sha384 (s.chainOf v)

/-- The firmware in use on a base die: that of the image in the slot that boot chose, which carries its configuration word
(20 R396, R398). -/
def State.firmware (s : State) (die : Nat) : List Byte :=
  Config.firmware s.pkg.slot (s.physDie die) (s.images[s.pkg.slot]?.elim 0 BootImage.config)

/-- The measurements of a responder, by index (20 R398). -/
def State.measurements (s : State) (die : Nat) : List (Nat × List Byte) :=
  [(1, sha384 (s.firmware die)), (2, leBytes 8 (s.enableMask die)),
    (3, leBytes 1 s.pkg.phys ++ leBytes 1 s.fuses.part)]
    ++ (if die = 0 then [(0x10, ((List.range s.fuses.dies).filter fun v => (s.shownDie v).isSome).flatMap s.reportEntry)] else [])

/-- A measurement block: index, specification, size, and the DMTF form of the value. -/
def measBlock (m : Nat × List Byte) : List Byte :=
  leBytes 1 m.1 ++ leBytes 1 1 ++ leBytes 2 (m.2.length + 3) ++ leBytes 1 (min 3 m.1) ++ leBytes 2 m.2.length ++ m.2

/-- GET_MEASUREMENTS: operation 0 asks for the number of indices, 0xFF for every index, another for that index (20 R398). -/
def execGetMeasurements (die op : Nat) (s : State) : Host.Outcome State Fault Refusal :=
  let all := s.measurements die
  let chosen := if op = 0xFF then all else all.filter fun m => m.1 == op
  if op = 0 ∨ chosen ≠ [] then
    let record := if op = 0 then [] else chosen.flatMap measBlock
    let body := spdmHead 0x60 (if op = 0 then all.length else 0) 0 ++ leBytes 1 (if op = 0 then 0 else chosen.length)
      ++ leBytes 3 record.length ++ record ++ s.openBytes 32 ++ leBytes 2 0
    { s with free := s.free + 32 }.respond die (body ++ s.signed die body)
  else s.respond die (spdmError 0x01 0)

/-- UNSUPPORTED_REQUEST: ERROR with UnsupportedRequest (20 R397). -/
def execUnsupportedRequest (die code : Nat) (s : State) : Host.Outcome State Fault Refusal := s.respond die (spdmError 0x07 code)

end Sys2Proof.Machine
end

