-- ==== Sys2Proof/Machine/Causeway.lean ====
section
/-! DEFINITION. Causeway: accesses of other chips, ports, and the mirror that a standby receives (20 R399, R400, R405, R406). -/

namespace Sys2Proof.Machine

/-- Every store in flight takes its place: those that arrive in one cycle with another chip's write precede it (20 R400;
`State.heldBack`). -/
def State.landAll (s : State) : State := s.stores.foldl State.landStore { s with stores := [] }

/-- The indivisible step of an atomic of another chip at its home (20 R400, 09 R217). -/
def State.remoteAtomic (s : State) (a : Nat) (op : AtomOp) (b cmp : BitVec 64) : State × List Byte :=
  let w := if atomWide op then 8 else 4
  let old := readNat s.mem a w
  (s.homeWrite a (leBytes w (atomNew op old (b.toNat % 2 ^ (8 * w)) (cmp.toNat % 2 ^ (8 * w)))), leBytes w old)

/-- The offset of an access, and its bytes. -/
def remoteExtent : RemoteOp → Nat × Nat
  | .read off n => (off, n)
  | .write off bs => (off, bs.length)
  | .atomic off op _ _ => (off, if atomWide op then 8 else 4)

/-- REMOTE_ACCESS (20 R399, R400): served at home, then acknowledged. An offset beyond the capacity is not there; uncorrectable
data is not delivered. -/
def execRemoteAccess (chip : Nat) (op : RemoteOp) (s : State) : Host.Outcome State Fault Refusal :=
  let (off, n) := remoteExtent op
  if s.capacity < off + n then .next (s.emit .unsupported)
  else
    let s1 := s.landAll
    match op with
    | .write a bs => .next ((s1.homeWrite a bs).emit (.remoteAck chip))
    | .read a n =>
      if s1.bad a n then .next ((s1.uncorrectable (s1.homeDie a) 1).emit .abort)
      else .next (s1.emit (.remoteData chip (readBytes s1.mem a n)))
    | .atomic a op b cmp =>
      if s1.bad a n then .next ((s1.uncorrectable (s1.homeDie a) 1).emit .abort)
      else
        let r := s1.remoteAtomic a op b cmp
        .next (r.1.emit (.remoteData chip r.2))

/-- The milepost's master is lost: the chip makes its own edges (20 R401). -/
def State.loseMaster (s : State) : State :=
  if s.pkg.locked then { s.onPkg (fun p => { p with locked := false }) with nextEdge := max s.nextEdge s.nanos } else s

/-- The state of a port changed; the milepost's master is lost when no port is full (20 R401). -/
def State.setPort (s : State) (port : Nat) (v : PortState) : State :=
  let s1 := s.onPkg fun p => { p with ports := p.ports.set port v }
  if s1.reachesMaster then s1 else s1.loseMaster

/-- PORT_RETRAIN (20 R406): the first half, lanes 0 to 3, of a full port. -/
def execPortRetrain (port : Nat) (s : State) : Host.Outcome State Fault Refusal :=
  if s.pkg.ports.getD port 0 = 1 then .next (s.setPort port 2) else .next s

/-- PORT_RETRAIN_DONE (20 R406): after half A, half B retrains; then the port is full. -/
def execPortRetrainDone (port : Nat) (s : State) : Host.Outcome State Fault Refusal :=
  match s.pkg.ports.getD port 0 with
  | 2 => .next (s.setPort port 3)
  | 3 => .next (s.setPort port 1)
  | _ => .next s

/-- A store in flight goes by a port: the address at which its loss faults. -/
def Store.lostOn (port : Nat) (x : Store) : Option Nat :=
  match x.place with
  | .remote _ p va => if p = port then some va else none
  | _ => none

/-- A load in flight goes by a port: the address at which its loss faults. -/
def Load.lostOn (port : Nat) (x : Load) : Option Nat := (x.via.filter fun v => v.1 == port).map (·.2)

/-- The stores and loads in flight on a port that has gone down are lost, and their threads end with CW_LINK (20 R400). -/
def State.losePort (s : State) (port : Nat) : State :=
  let lost := (s.stores.filterMap fun x => (x.lostOn port).map fun va => (x.thread, va))
    ++ s.threads.filterMap fun (k, t) => (t.loads.findSome? (Load.lostOn port)).map fun va => (k, va)
  lost.foldl (fun acc (k, va) => (acc.onThread k Thread.settle).faultThread k 0x0071 va)
    { s with stores := s.stores.filter fun x => (x.lostOn port).isNone }

/-- PORT_DOWN (20 R400, R409): the port goes down, VECTOR is signalled, and the accesses in flight on it are lost. -/
def execPortDown (port : Nat) (s : State) : Host.Outcome State Fault Refusal :=
  if s.pkg.ports.getD port 0 = 0 then .next s else .next (((s.setPort port 0).losePort port).signal s.pkg.vector)

/-- PACKET_MIRROR (20 R405). -/
def execPacketMirror (m : MirrorOp) (s : State) : Host.Outcome State Fault Refusal :=
  if s.pkg.role ≠ 2 then .next s
  else
    match m with
    | .packet q bytes => .next (s.mirrorPacket (q, bytes))
    | .swapAddr h v => .next (s.writeSwapAddr h v)
    | .swapMp h v => .next (s.ownEdge.writeSwapMp h v)
    | .enables mask => .next { s with peerHeads := mask }

/-- What befalls the machine from outside (log 6). Corrected errors are counted by the die that finds them, and have no other
effect (01 R66, 20 R408). -/
def State.befall (s : State) : Outside → State
  | .corrected die k => if k = 0 ∨ k = 2 ∨ k = 4 then s.count die k else s
  | .decay (.spad g) a => s.onCore g fun c => { c with bad := insertBy id a (c.bad.filter (· != a)) }
  | .decay (.vault cl) a => s.onCluster cl fun c => { c with bad := insertBy id a (c.bad.filter (· != a)) }
  | .decay .home a => { s with poison := insertBy id a (s.poison.filter (· != a)) }
  | .decay (.remote _ _ _) _ => s
  | .hostMemory bus bytes => { s with backing := writeBytes s.backing bus bytes }
  | .masterLost => s.loseMaster

end Sys2Proof.Machine
end

