-- ==== Sys2Proof/Machine/Power.lean ====
section
/-! DEFINITION. The gating of compute dies (20 R407). -/

namespace Sys2Proof.Machine

/-- The virtual die that a message wakes: that of the compute die which receives it. What distributors and launch records
receive wakes none (20 R407). -/
def Msg.wakes : Msg → Option Nat
  | .completion parent _ _ _ => some (dieOf (coreOf parent))
  | .workRequest victim _ => some (dieOf victim)
  | .stealRecord r => if 144 ≤ r.thief then none else some (dieOf r.thief)
  | .ack victim _ _ | .refuse victim _ _ => if 144 ≤ victim then none else some (dieOf victim)
  | .commit thief _ _ | .revoke thief _ _ => if 144 ≤ thief then none else some (dieOf thief)
  | .distRequest die _ _ _ => some die
  | .barrierDone _ cl => some (cl / 9)
  | .rootCompletion _ _ _ _ | .listPatch _ _ _ _ _ _ _ _ | .pendingUp _ _ _ | .pendingDown _ _ _ | .carry _ _ _ _
  | .countReport _ _ _ _ | .lossBroadcast _ _ => none

/-- A compute die holds no resident thread, bin, inbound record, queued engine entry or open bucket (20 R407). -/
def State.dieIdle (s : State) (v : Nat) : Bool :=
  !(s.threads.any fun (k, t) => dieOf (coreOf k) == v && t.resident)
    && s.cores.all (fun (g, c) => dieOf g != v || (c.bins.isEmpty && c.inbound.isEmpty && c.copies.isEmpty))
    && s.clusters.all (fun (cl, c) => cl / 9 != v || (c.queues.all (fun (_, q) => q.isEmpty) && !c.bucketBusy))
    && s.carver.all fun j => dieOf j.gcore != v

/-- What a die is wanted for: a message, a deal, or the restoration of a context (20 R407). -/
def State.wanted (s : State) (v : Nat) : Bool :=
  s.net.any (fun m => m.wakes == some v)
    || s.launches.any (fun (_, l) => l.stage == .dealt && l.groups.any fun x => dieOf x.gcore == v)
    || s.threads.any fun (k, t) => dieOf (coreOf k) == v && t.susp == some .saved && (s.ctx t.ctxid).state == .restoring

/-- The gating of a die is due. -/
def State.gateDue (s : State) (v : Nat) : Bool :=
  match s.shownDie v with
  | none => false
  | some p =>
    let d := s.die p
    d.autogate && !d.gated && s.dieIdle v && !s.wanted v && d.idleSince + micros d.idleUs ≤ s.cycle

/-- DIE_GATE (20 R407): the die's dirty bytes are written home and every L1 line dropped. A wake message of the same cycle abandons
the gating, and so does an access (20 R409; `State.wakeDie`). -/
def execDieGate (v : Nat) (s : State) : Host.Outcome State Fault Refusal :=
  if s.gateDue v then
    let gs := s.cores.keys.filter fun g => dieOf g == v
    let s1 := gs.foldl State.flushCore s
    let s2 := gs.foldl (fun acc g => acc.onCore g fun c => { c with l1 := [] }) s1
    .next (s2.onDie (s.physDie v) fun d => { d with gated := true })
  else .next s

/-- DIE_WAKE (20 R407): a message for a gated die wakes it. -/
def execDieWake (v : Nat) (s : State) : Host.Outcome State Fault Refusal := .next (s.wakeDie v)

end Sys2Proof.Machine
end

