-- ==== Sys2Proof/Machine/Dispatch.lean ====
section
/-! DEFINITION. One arm for each instruction: a direct call of its meaning. -/

namespace Sys2Proof.Machine

def exec (i : Instr) (s : State) : Host.Outcome State Fault Refusal :=
  match i with
  | .add px d a b t => Sys2Proof.Machine.execAdd px d a b t s
  | .sub px d a b t => Sys2Proof.Machine.execSub px d a b t s
  | .add64 px d a b t => Sys2Proof.Machine.execAdd64 px d a b t s
  | .sub64 px d a b t => Sys2Proof.Machine.execSub64 px d a b t s
  | .addi px d a im => Sys2Proof.Machine.execAddi px d a im s
  | .mul px d a b t => Sys2Proof.Machine.execMul px d a b t s
  | .mulhi px d a b t => Sys2Proof.Machine.execMulhi px d a b t s
  | .mad px d a b t => Sys2Proof.Machine.execMad px d a b t s
  | .minI px d a b t => Sys2Proof.Machine.execMinI px d a b t s
  | .maxI px d a b t => Sys2Proof.Machine.execMaxI px d a b t s
  | .absI px d a => Sys2Proof.Machine.execAbsI px d a s
  | .neg px d a => Sys2Proof.Machine.execNeg px d a s
  | .andB px d a b => Sys2Proof.Machine.execAndB px d a b s
  | .orB px d a b => Sys2Proof.Machine.execOrB px d a b s
  | .xorB px d a b => Sys2Proof.Machine.execXorB px d a b s
  | .andn px d a b => Sys2Proof.Machine.execAndn px d a b s
  | .shl px d a b => Sys2Proof.Machine.execShl px d a b s
  | .shr px d a b => Sys2Proof.Machine.execShr px d a b s
  | .sha px d a b => Sys2Proof.Machine.execSha px d a b s
  | .rot px d a b => Sys2Proof.Machine.execRot px d a b s
  | .shlImm px d a n => Sys2Proof.Machine.execShlImm px d a n s
  | .shrImm px d a n => Sys2Proof.Machine.execShrImm px d a n s
  | .shaImm px d a n => Sys2Proof.Machine.execShaImm px d a n s
  | .rotImm px d a n => Sys2Proof.Machine.execRotImm px d a n s
  | .bfx px d a x l p => Sys2Proof.Machine.execBfx px d a x l p s
  | .bfi px d a l p => Sys2Proof.Machine.execBfi px d a l p s
  | .popc px d a => Sys2Proof.Machine.execPopc px d a s
  | .clz px d a => Sys2Proof.Machine.execClz px d a s
  | .brev px d a => Sys2Proof.Machine.execBrev px d a s
  | .cmp px d a b c => Sys2Proof.Machine.execCmp px d a b c s
  | .sel px d a b => Sys2Proof.Machine.execSel px d a b s
  | .mov px d a => Sys2Proof.Machine.execMov px d a s
  | .movB64 px d a => Sys2Proof.Machine.execMovB64 px d a s
  | .li d t im => Sys2Proof.Machine.execLi d t im s
  | .lea px d a b x x_s => Sys2Proof.Machine.execLea px d a b x x_s s
  | .br o => Sys2Proof.Machine.execBr o s
  | .call o => Sys2Proof.Machine.execCall o s
  | .bz a im => Sys2Proof.Machine.execBz a im s
  | .bnz a im => Sys2Proof.Machine.execBnz a im s
  | .jr a => Sys2Proof.Machine.execJr a s
  | .ret a => Sys2Proof.Machine.execRet a s
  | .jrB64 a => Sys2Proof.Machine.execJrB64 a s
  | .exitT => Sys2Proof.Machine.execExitT s
  | .yield => Sys2Proof.Machine.execYield s
  | .nop => Sys2Proof.Machine.execNop s
  | .winImm n => Sys2Proof.Machine.execWinImm n s
  | .winReg a => Sys2Proof.Machine.execWinReg a s
  | .growImm n => Sys2Proof.Machine.execGrowImm n s
  | .growReg a => Sys2Proof.Machine.execGrowReg a s
  | .shrinkImm n => Sys2Proof.Machine.execShrinkImm n s
  | .shrinkReg a => Sys2Proof.Machine.execShrinkReg a s
  | .trap a => Sys2Proof.Machine.execTrap a s
  | .brk => Sys2Proof.Machine.execBrk s
  | .eret => Sys2Proof.Machine.execEret s
  | .eretRetry => Sys2Proof.Machine.execEretRetry s
  | .sreg d x_s => Sys2Proof.Machine.execSreg d x_s s
  | .time d => Sys2Proof.Machine.execTime d s
  | .caps d k => Sys2Proof.Machine.execCaps d k s
  | .trapvec a => Sys2Proof.Machine.execTrapvec a s
  | .fadd px d a b f r => Sys2Proof.Machine.execFadd px d a b f r s
  | .fsub px d a b f r => Sys2Proof.Machine.execFsub px d a b f r s
  | .fmul px d a b f r => Sys2Proof.Machine.execFmul px d a b f r s
  | .ffma px d a b f r => Sys2Proof.Machine.execFfma px d a b f r s
  | .fmin px d a b f => Sys2Proof.Machine.execFmin px d a b f s
  | .fmax px d a b f => Sys2Proof.Machine.execFmax px d a b f s
  | .fcmp px d a b f c => Sys2Proof.Machine.execFcmp px d a b f c s
  | .fclass px d a => Sys2Proof.Machine.execFclass px d a s
  | .frcp px d a f => Sys2Proof.Machine.execFrcp px d a f s
  | .frsq px d a f => Sys2Proof.Machine.execFrsq px d a f s
  | .fsqrt px d a f => Sys2Proof.Machine.execFsqrt px d a f s
  | .fexp2 px d a f => Sys2Proof.Machine.execFexp2 px d a f s
  | .flog2 px d a f => Sys2Proof.Machine.execFlog2 px d a f s
  | .fsin px d a f => Sys2Proof.Machine.execFsin px d a f s
  | .fcos px d a f => Sys2Proof.Machine.execFcos px d a f s
  | .hadd2 px d a b f m r => Sys2Proof.Machine.execHadd2 px d a b f m r s
  | .hmul2 px d a b f m r => Sys2Proof.Machine.execHmul2 px d a b f m r s
  | .hfma2 px d a b f m r => Sys2Proof.Machine.execHfma2 px d a b f m r s
  | .cvtNarrow px d a k x_s r m => Sys2Proof.Machine.execCvtNarrow px d a k x_s r m s
  | .cvtWiden px d a k m => Sys2Proof.Machine.execCvtWiden px d a k m s
  | .cvtF2i px d a k r t => Sys2Proof.Machine.execCvtF2i px d a k r t s
  | .cvtI2f px d a k r t => Sys2Proof.Machine.execCvtI2f px d a k r t s
  | .cvtPackF16 px d a x_s r t => Sys2Proof.Machine.execCvtPackF16 px d a x_s r t s
  | .cvtUnpackF16 px d a t => Sys2Proof.Machine.execCvtUnpackF16 px d a t s
  | .cvtPackE px d a x_s r t => Sys2Proof.Machine.execCvtPackE px d a x_s r t s
  | .cvtUnpackE px d a t => Sys2Proof.Machine.execCvtUnpackE px d a t s
  | .cvtPackI8 px d a => Sys2Proof.Machine.execCvtPackI8 px d a s
  | .cvtUnpackI8 px d a => Sys2Proof.Machine.execCvtUnpackI8 px d a s
  | .tagOp px d a t => Sys2Proof.Machine.execTagOp px d a t s
  | .redadd px d a f r t => Sys2Proof.Machine.execRedadd px d a f r t s
  | .redmin px d a f r t => Sys2Proof.Machine.execRedmin px d a f r t s
  | .redmax px d a f r t => Sys2Proof.Machine.execRedmax px d a f r t s
  | .scan px d a x o f r t => Sys2Proof.Machine.execScan px d a x o f r t s
  | .vote px d a v => Sys2Proof.Machine.execVote px d a v s
  | .elect px d => Sys2Proof.Machine.execElect px d s
  | .electCond px d a => Sys2Proof.Machine.execElectCond px d a s
  | .members px d => Sys2Proof.Machine.execMembers px d s
  | .membersCount px d => Sys2Proof.Machine.execMembersCount px d s
  | .rankof px d => Sys2Proof.Machine.execRankof px d s
  | .rankofCond px d a => Sys2Proof.Machine.execRankofCond px d a s
  | .ldG d a o z => Sys2Proof.Machine.execLdG d a o z s
  | .ldGTyped d a o t => Sys2Proof.Machine.execLdGTyped d a o t s
  | .stG d a o z => Sys2Proof.Machine.execStG d a o z s
  | .ldS d a o z => Sys2Proof.Machine.execLdS d a o z s
  | .ldSTyped d a o t => Sys2Proof.Machine.execLdSTyped d a o t s
  | .stS d a o z => Sys2Proof.Machine.execStS d a o z s
  | .ldC d a b z => Sys2Proof.Machine.execLdC d a b z s
  | .stC d a b z => Sys2Proof.Machine.execStC d a b z s
  | .ldK d a b z => Sys2Proof.Machine.execLdK d a b z s
  | .stK d a b z => Sys2Proof.Machine.execStK d a b z s
  | .atom d a b op => Sys2Proof.Machine.execAtom d a b op s
  | .append d a b z => Sys2Proof.Machine.execAppend d a b z s
  | .seal d a => Sys2Proof.Machine.execSeal d a s
  | .sealComplete page => Sys2Proof.Machine.execSealComplete page s
  | .copy a => Sys2Proof.Machine.execCopy a s
  | .copyStart core => Sys2Proof.Machine.execCopyStart core s
  | .copyBytesLand core id dest n => Sys2Proof.Machine.execCopyBytesLand core id dest n s
  | .copyFailure core id => Sys2Proof.Machine.execCopyFailure core id s
  | .prefetch a o k => Sys2Proof.Machine.execPrefetch a o k s
  | .meetinit e m => Sys2Proof.Machine.execMeetinit e m s
  | .arrive d m => Sys2Proof.Machine.execArrive d m s
  | .wait a m => Sys2Proof.Machine.execWait a m s
  | .sync d m => Sys2Proof.Machine.execSync d m s
  | .phase d m => Sys2Proof.Machine.execPhase d m s
  | .expect m a => Sys2Proof.Machine.execExpect m a s
  | .cbar => Sys2Proof.Machine.execCbar s
  | .cbarRemote group => Sys2Proof.Machine.execCbarRemote group s
  | .join m => Sys2Proof.Machine.execJoin m s
  | .leave m => Sys2Proof.Machine.execLeave m s
  | .spawn l a b => Sys2Proof.Machine.execSpawn l a b s
  | .spawnr l a b => Sys2Proof.Machine.execSpawnr l a b s
  | .nexti d => Sys2Proof.Machine.execNexti d s
  | .await d => Sys2Proof.Machine.execAwait d s
  | .frameinfo d w => Sys2Proof.Machine.execFrameinfo d w s
  | .fnew d => Sys2Proof.Machine.execFnew d s
  | .fnewWait d => Sys2Proof.Machine.execFnewWait d s
  | .fset d a b => Sys2Proof.Machine.execFset d a b s
  | .ffree d a => Sys2Proof.Machine.execFfree d a s
  | .fget d a => Sys2Proof.Machine.execFget d a s
  | .fpoll d a => Sys2Proof.Machine.execFpoll d a s
  | .msign d a m => Sys2Proof.Machine.execMsign d a m s
  | .signEnqueue core meet => Sys2Proof.Machine.execSignEnqueue core meet s
  | .mzero e q x_s => Sys2Proof.Machine.execMzero e q x_s s
  | .mstore d a b x_s r => Sys2Proof.Machine.execMstore d a b x_s r s
  | .mscale a b => Sys2Proof.Machine.execMscale a b s
  | .serviceTurn cluster => Sys2Proof.Machine.execServiceTurn cluster s
  | .gwin g w a b => Sys2Proof.Machine.execGwin g w a b s
  | .gwinComplete key id => Sys2Proof.Machine.execGwinComplete key id s
  | .gdec d a w => Sys2Proof.Machine.execGdec d a w s
  | .carve a => Sys2Proof.Machine.execCarve a s
  | .carverRequest => Sys2Proof.Machine.execCarverRequest s
  | .psub d a => Sys2Proof.Machine.execPsub d a s
  | .bopen d => Sys2Proof.Machine.execBopen d s
  | .bclose d a => Sys2Proof.Machine.execBclose d a s
  | .cam a k => Sys2Proof.Machine.execCam a k s
  | .deck a b => Sys2Proof.Machine.execDeck a b s
  | .trace d a b y => Sys2Proof.Machine.execTrace d a b y s
  | .hitld d f => Sys2Proof.Machine.execHitld d f s
  | .sset a x_s => Sys2Proof.Machine.execSset a x_s s
  | .tlbinv a x_s => Sys2Proof.Machine.execTlbinv a x_s s
  | .tlbinvComplete key => Sys2Proof.Machine.execTlbinvComplete key s
  | .sfault a b => Sys2Proof.Machine.execSfault a b s
  | .xget d k => Sys2Proof.Machine.execXget d k s
  | .xput k a => Sys2Proof.Machine.execXput k a s
  | .variableResult key id => Sys2Proof.Machine.execVariableResult key id s
  | .binTimerExpire core bin => Sys2Proof.Machine.execBinTimerExpire core bin s
  | .binPlace core bin => Sys2Proof.Machine.execBinPlace core bin s
  | .starve core => Sys2Proof.Machine.execStarve core s
  | .readmit key => Sys2Proof.Machine.execReadmit key s
  | .workRequest core => Sys2Proof.Machine.execWorkRequest core s
  | .workRequestAnswer victim => Sys2Proof.Machine.execWorkRequestAnswer victim s
  | .stealRecord thief => Sys2Proof.Machine.execStealRecord thief s
  | .ack victim => Sys2Proof.Machine.execAck victim s
  | .commit thief => Sys2Proof.Machine.execCommit thief s
  | .refuse victim => Sys2Proof.Machine.execRefuse victim s
  | .ackTimeout victim id => Sys2Proof.Machine.execAckTimeout victim id s
  | .revoke thief => Sys2Proof.Machine.execRevoke thief s
  | .distributorRequest die => Sys2Proof.Machine.execDistributorRequest die s
  | .stealRetry core => Sys2Proof.Machine.execStealRetry core s
  | .completion key => Sys2Proof.Machine.execCompletion key s
  | .rootCompletion launch => Sys2Proof.Machine.execRootCompletion launch s
  | .frameEvict key => Sys2Proof.Machine.execFrameEvict key s
  | .livenessProbe die => Sys2Proof.Machine.execLivenessProbe die s
  | .dieLost die => Sys2Proof.Machine.execDieLost die s
  | .lossBroadcast die lost => Sys2Proof.Machine.execLossBroadcast die lost s
  | .sweepComplete core => Sys2Proof.Machine.execSweepComplete core s
  | .l1Evict core line => Sys2Proof.Machine.execL1Evict core line s
  | .replicaMake die page => Sys2Proof.Machine.execReplicaMake die page s
  | .replicaDrop die page => Sys2Proof.Machine.execReplicaDrop die page s
  | .leaseGrant => Sys2Proof.Machine.execLeaseGrant s
  | .regenerationEnd => Sys2Proof.Machine.execRegenerationEnd s
  | .backingRead ctx va => Sys2Proof.Machine.execBackingRead ctx va s
  | .agingSweep => Sys2Proof.Machine.execAgingSweep s
  | .victimRelease ctx va => Sys2Proof.Machine.execVictimRelease ctx va s
  | .patchListing die => Sys2Proof.Machine.execPatchListing die s
  | .pendingIncrement die => Sys2Proof.Machine.execPendingIncrement die s
  | .diceEntry cluster => Sys2Proof.Machine.execDiceEntry cluster s
  | .gridComplete cluster seq => Sys2Proof.Machine.execGridComplete cluster seq s
  | .carryReceive die => Sys2Proof.Machine.execCarryReceive die s
  | .pendingDecrement die => Sys2Proof.Machine.execPendingDecrement die s
  | .rasterGrid cluster => Sys2Proof.Machine.execRasterGrid cluster s
  | .spillCopy cluster => Sys2Proof.Machine.execSpillCopy cluster s
  | .countReport die => Sys2Proof.Machine.execCountReport die s
  | .bucketSteal die => Sys2Proof.Machine.execBucketSteal die s
  | .bucketRetry cluster => Sys2Proof.Machine.execBucketRetry cluster s
  | .doorbell q tail => Sys2Proof.Machine.execDoorbell q tail s
  | .queueEnable q v => Sys2Proof.Machine.execQueueEnable q v s
  | .queueDisable q v => Sys2Proof.Machine.execQueueDisable q v s
  | .packetTake => Sys2Proof.Machine.execPacketTake s
  | .launchGroupPlace core => Sys2Proof.Machine.execLaunchGroupPlace core s
  | .preempt ctx => Sys2Proof.Machine.execPreempt ctx s
  | .contextSave ctx => Sys2Proof.Machine.execContextSave ctx s
  | .resume ctx => Sys2Proof.Machine.execResume ctx s
  | .restore ctx => Sys2Proof.Machine.execRestore ctx s
  | .kill ctx => Sys2Proof.Machine.execKill ctx s
  | .ctxKill ctx launch => Sys2Proof.Machine.execCtxKill ctx launch s
  | .stop ctx launch => Sys2Proof.Machine.execStop ctx launch s
  | .stopReport ctx => Sys2Proof.Machine.execStopReport ctx s
  | .dbgResume ctx => Sys2Proof.Machine.execDbgResume ctx s
  | .diemapWrite v => Sys2Proof.Machine.execDiemapWrite v s
  | .registerWrite off size v => Sys2Proof.Machine.execRegisterWrite off size v s
  | .apertureRead off n => Sys2Proof.Machine.execApertureRead off n s
  | .apertureWrite off bytes => Sys2Proof.Machine.execApertureWrite off bytes s
  | .packageReset => Sys2Proof.Machine.execPackageReset s
  | .getVersion die => Sys2Proof.Machine.execGetVersion die s
  | .getCapabilities die => Sys2Proof.Machine.execGetCapabilities die s
  | .negotiateAlgorithms die => Sys2Proof.Machine.execNegotiateAlgorithms die s
  | .getDigests die => Sys2Proof.Machine.execGetDigests die s
  | .getCertificate die slot off len => Sys2Proof.Machine.execGetCertificate die slot off len s
  | .challenge die slot nonce => Sys2Proof.Machine.execChallenge die slot nonce s
  | .getMeasurements die op => Sys2Proof.Machine.execGetMeasurements die op s
  | .unsupportedRequest die code => Sys2Proof.Machine.execUnsupportedRequest die code s
  | .frameEdge => Sys2Proof.Machine.execFrameEdge s
  | .genlockEdge => Sys2Proof.Machine.execGenlockEdge s
  | .milepost n => Sys2Proof.Machine.execMilepost n s
  | .dispEnable head => Sys2Proof.Machine.execDispEnable head s
  | .linkup head trained => Sys2Proof.Machine.execLinkup head trained s
  | .ready m => Sys2Proof.Machine.execReady m s
  | .takeoverInput => Sys2Proof.Machine.execTakeoverInput s
  | .portRetrain port => Sys2Proof.Machine.execPortRetrain port s
  | .portDown port => Sys2Proof.Machine.execPortDown port s
  | .dieGate die => Sys2Proof.Machine.execDieGate die s
  | .dieWake die => Sys2Proof.Machine.execDieWake die s
  | .storeComplete key => Sys2Proof.Machine.execStoreComplete key s
  | .frameRelease pa => Sys2Proof.Machine.execFrameRelease pa s
  | .dieReset die => Sys2Proof.Machine.execDieReset die s
  | .returnToService die => Sys2Proof.Machine.execReturnToService die s
  | .remoteAccess chip op => Sys2Proof.Machine.execRemoteAccess chip op s
  | .packetMirror body => Sys2Proof.Machine.execPacketMirror body s
  | .portRetrainDone port => Sys2Proof.Machine.execPortRetrainDone port s
  | .scanoutRead head => Sys2Proof.Machine.execScanoutRead head s

end Sys2Proof.Machine
end

