-- ==== Sys2Proof/Machine/Fetch.lean ====
section
/-! DEFINITION. The choice of an issue group, and the fetch and decoding of its instruction (01 R22 to R24; 05 R97 to R105,
R411). -/

namespace Sys2Proof.Machine

/-- A thread that may be chosen in this cycle: its core runs, its stall count has elapsed, and no interlock has been found to
hold its next instruction (01 R22). -/
def State.candidate (s : State) (k : FrameRef) (t : Thread) : Bool :=
  s.canIssue t && !t.held && s.coreOn (coreOf k)

/-- Issue ports of the package: two for each partition of 144 cores (01 R18). -/
def portCount : Nat := 2 * Config.parts * 4 * Config.dieCores

/-- The issue port of a thread: ports are numbered by global core, partition and port (01 R18). -/
def portOf (k : FrameRef) (t : Thread) : Nat := (Config.parts * coreOf k + t.part) * 2 + t.cx % 2

/-- The candidates whose port has not chosen yet in this cycle. -/
def State.waitingPorts (s : State) : List (FrameRef × Thread) :=
  s.threads.filter fun (k, t) => s.candidate k t && s.port ≤ portOf k t

/-- The next port that chooses, with its candidates. -/
def State.nextPort (s : State) : Option (Nat × List (FrameRef × Thread)) :=
  let l := s.waitingPorts
  (bestOf (fun a b => a < b) (l.map fun (k, t) => portOf k t)).map fun p => (p, l.filter fun (k, t) => portOf k t == p)

/-- The larger wait counter, then the lower lane, then the lower context (01 R23 step 1). -/
def olderThread (x y : FrameRef × Thread) : Bool :=
  y.2.wait < x.2.wait || (x.2.wait == y.2.wait && (x.2.lane < y.2.lane || (x.2.lane == y.2.lane && x.2.cx < y.2.cx)))

/-- A program counter for selection: the address and the execution context (01 R23). -/
def pcKey (x : FrameRef × Thread) : Nat × Nat := (x.2.pc, x.2.ctxid)

/-- The program counter that a port chooses (01 R23). -/
def choosePc (l : List (FrameRef × Thread)) : Option (Nat × Nat) :=
  match bestOf olderThread (l.filter fun x => 256 ≤ x.2.wait) with
  | some x => some (pcKey x)
  | none =>
    let score := fun (p : Nat × Nat) =>
      let m := l.filter fun x => pcKey x == p
      (p, m.length, m.foldl (fun (acc : Nat) x => max acc x.2.wait) 0)
    let better := fun (x y : (Nat × Nat) × Nat × Nat) =>
      y.2.1 < x.2.1 || (x.2.1 == y.2.1 && (y.2.2 < x.2.2 || (x.2.2 == y.2.2 && x.1.1 < y.1.1)))
    (bestOf better ((l.map pcKey).eraseDups.map score)).map (·.1)

/-- The issue group at a program counter: one thread of each lane, in ascending lane (01 R24). -/
def groupAt (l : List (FrameRef × Thread)) (p : Nat × Nat) : List FrameRef :=
  let m := l.filter fun x => pcKey x == p
  ((List.range Config.lanes).filterMap fun lane => bestOf olderThread (m.filter fun x => x.2.lane == lane)).map (·.1)

/-- A member whose fetch, or whose word, ends it (05 R100, R102, R411). -/
def State.endFetch (s : State) (k : FrameRef) (code addr : Nat) : State := (s.onThread k Thread.settle).faultThread k code addr

/-- The bundle of a member, read as a load of 32 bytes (05 R102): its bytes, or the code that ends the thread. -/
def State.fetchBundle (s : State) (k : FrameRef) (t : Thread) : State × Except Nat (List Byte) :=
  let a := t.pc / 32 * 32
  if 2 ^ 57 ≤ a then (s, .error 0x0030)
  else
  match s.translate (t.who k) a 32 .fetch with
  | (s1, .error c) => (s1, .error c)
  | (s1, .ok tr) =>
    match s1.globRead (coreOf k) tr 32 with
    | (s2, some bs) => (s2, .ok bs)
    | (s2, none) => (s2.uncorrectable (s2.homeDie tr.pa) 1, .error codeMemUe)

/-- The fetches of a group, in ascending lane: the members that go on, and the bundle. -/
def State.fetchAll (s : State) : List FrameRef → State × List FrameRef × List Byte
  | [] => (s, [], [])
  | k :: rest =>
    match s.threads.get k with
    | none => s.fetchAll rest
    | some t =>
      match s.fetchBundle k t with
      | (s1, .error c) => (s1.endFetch k c (t.pc / 32 * 32)).fetchAll rest
      | (s1, .ok bs) =>
        let r := s1.fetchAll rest
        (r.1, k :: r.2.1, bs)

/-- The words of a bundle. -/
def bundleWord (bs : List Byte) (i : Nat) : Nat := recNat bs (4 * i) 4

/-- The stall count of a slot (05 R98). -/
def slotStall (bs : List Byte) (i : Nat) : Nat := bitsOf (bundleWord bs 0) (4 * i - 1) (4 * i - 4)

/-- The instruction that a group issues at a program counter, from its bundle: the instruction and its issue record, or the
code and address of the fault that ends every member (05 R98 to R105, R411). Where several checks fail at a resumed PC the spec
does not say which is reported: DESIGN CHOICE, a fetch fault first, then ILLEGAL_OP of the control word, then BAD_TARGET, then
ILLEGAL_OP of the instruction. A PC that was reached by fall-through, or by a transfer already checked, and whose preceding word reads as
a prefix only now, ends the thread with BAD_TARGET too, which R411 states of unchecked PCs only: DESIGN CHOICE (log 58). -/
def decodeBundle (bs : List Byte) (pc : Nat) (members : List FrameRef) : Except (Nat × Nat) (Instr × Issue) :=
  let p := pc % 32 / 4
  if bitsOf (bundleWord bs 0) 31 29 ≠ 0 then .error (codeIllegal, 0)
  else if pc % 4 ≠ 0 ∨ p = 0 ∨ (2 ≤ p ∧ isPrefixWord (bundleWord bs (p - 1))) then .error (codeTarget, pc)
  else
    match decodeGroup ((span p (8 - p)).map fun i => (bundleWord bs i, slotStall bs i)) with
    | .error _ => .error (codeIllegal, 0)
    | .ok (i, n) =>
      let q := p + n - 1
      .ok (i, { members := members, first := pc, inst := pc / 32 * 32 + 4 * q, word := BitVec.ofNat 32 (bundleWord bs q),
                stall := slotStall bs q, hint := testBit (bundleWord bs 0) 28 })

/-- The issue of a group up to its execution: the instruction, or none where no member is left. -/
def State.fetchGroup (s : State) (members : List FrameRef) (pc : Nat) : State × Option Instr :=
  match s.fetchAll members with
  | (s1, [], _) => (s1, none)
  | (s1, ks, bs) =>
    match decodeBundle bs pc ks with
    | .error (code, addr) => (ks.foldl (fun acc k => acc.endFetch k code addr) s1, none)
    | .ok (i, is) => ({ s1 with issue := some is }, some i)

end Sys2Proof.Machine
end

