-- ==== Sys2Proof/Machine/Events.lean ====
section
/-! DEFINITION. The events that the machine owes: which one is due next. Every latency that the spec leaves open is 0, and
events of one cycle follow its issues, in the order below (05 R116, 09 R232; log 5). -/

namespace Sys2Proof.Machine

/-- The first answer of a search over a list. -/
def firstOf {α β : Type} (l : List α) (f : α → Option β) : Option β := l.findSome? f

/-- The first event that one of some searches finds; later ones are not made. -/
def firstDue : List (Unit → Option Instr) → Option Instr
  | [] => none
  | f :: rest =>
    match f () with
    | some i => some i
    | none => firstDue rest

/-- The event that a message is. -/
def Msg.event : Msg → Instr
  | .completion parent _ _ _ => .completion parent
  | .rootCompletion launch _ _ _ => .rootCompletion launch
  | .workRequest victim _ => .workRequestAnswer victim
  | .stealRecord r => .stealRecord r.thief
  | .ack victim _ _ => .ack victim
  | .commit thief _ _ => .commit thief
  | .revoke thief _ _ => .revoke thief
  | .refuse victim _ _ => .refuse victim
  | .distRequest die _ _ _ => .distributorRequest die
  | .listPatch die _ _ _ _ _ _ _ => .patchListing die
  | .pendingUp die _ _ => .pendingIncrement die
  | .pendingDown die _ _ => .pendingDecrement die
  | .carry die _ _ _ => .carryReceive die
  | .countReport die _ _ _ => .countReport die
  | .lossBroadcast die lost => .lossBroadcast die lost
  | .barrierDone group _ => .cbarRemote group

/-- A message is received now: the remote phase of a barrier needs the messages of both clusters (01 R52), and a request waits
where its answer would split a range whose parent's LIVE is full (01 R37, R40). -/
def State.receivable (s : State) : Msg → Bool
  | .barrierDone group _ => (s.groups.get group).any fun b => b.clusters.length == 2 && b.clusters.all b.done.contains
  | .workRequest victim _ => !s.splitHeld victim
  | .distRequest die _ _ _ => !s.dieHeld die
  | _ => true

/-- A message that is received after all else of its cycle: a listing, a PENDING message or a report that meets the choice of a
bucket in one cycle comes after it, and of requests at one distributor the lower die's comes first (16 R361, R369; 18 R382,
R390). -/
def Msg.late : Msg → Bool
  | .listPatch _ _ _ _ _ _ _ _ | .pendingUp _ _ _ | .pendingDown _ _ _ | .countReport _ _ _ _ | .distRequest _ _ _ _ => true
  | _ => false

/-- The event of a message; one for a gated die wakes it first (20 R407). -/
def State.receipt (s : State) (m : Msg) : Instr :=
  match m.wakes with
  | some v => if s.isGated v then .dieWake v else m.event
  | none => m.event

/-- The oldest message, late or not, that is received now. -/
def State.dueMessage (s : State) (late : Bool) : Option Instr :=
  (s.net.find? fun m => m.late == late && s.receivable m).map s.receipt

/-- A PSUB that a cycle begins with is listed before the ports issue, so that no group reads a result of it that is not there yet
(05 R114; log 8). -/
def State.dueListing (s : State) : Option Instr :=
  if s.port = 0 then (s.net.find? fun m => match m with | .listPatch _ _ _ _ _ _ _ _ => true | _ => false).map s.receipt else none

/-- Stores reach their places, and threads that wait for them in EXIT go on (09 R215; 07 R158). -/
def State.dueStore (s : State) : Option Instr :=
  match s.stores with
  | x :: _ => some (.storeComplete x.thread)
  | [] => (s.threads.find? fun (k, t) => t.draining && !s.busy k t).map fun (k, _) => .storeComplete k

/-- The threads in the order of core, partition, port and lane, in which operations of one cycle follow one another (09 R232). -/
def State.inPortOrder (s : State) : List (FrameRef × Thread) :=
  sortBy (fun (k, t) => Config.lanes * portOf k t + t.lane) s.threads

/-- Results of loads and window fills arrive, and reads that waited for another member's result take effect (05 R107, R114;
10 R259, R260). -/
def State.dueResult (s : State) : Option Instr :=
  let l := s.inPortOrder
  firstDue [
    fun _ => firstOf l (fun (k, t) => if t.deferred.any s.landed then some (.variableResult k 0) else none),
    fun _ => firstOf l (fun (k, t) => t.loads.head?.map fun x => .variableResult k x.id),
    fun _ => firstOf l (fun (k, t) => (bestOf (fun a b => a < b) (t.gwins.map (·.id))).map fun id => .gwinComplete k id)]

/-- The copy engine of a core (09 R225 to R227). -/
def Core.dueCopy (c : Core) (g : Nat) : Option Instr :=
  match c.copies.find? fun j => j.started && (j.failed || j.dests.any (·.failed)) with
  | some j => some (.copyFailure g j.id)
  | none =>
    if c.copies.any fun j => !j.started then some (.copyStart g)
    else firstOf c.copies fun j => (j.dests.find? fun d => d.landed < j.total).map fun d => .copyBytesLand g j.id d.core 256

/-- A sign meet of a core enters its operation (10 R253). -/
def State.dueSign (s : State) (g : Nat) (c : Core) : Option Instr :=
  (c.meets.find? fun (_, x) => x.signed && s.queueRoom (clusterOf g) (descQueue x.desc)).map fun (m, _) => .signEnqueue g m

/-- The engines and caches of cores and clusters, append pages, TLBINV and the Carver. -/
def State.dueUnit (s : State) : Option Instr :=
  firstDue [
    fun _ => firstOf s.cores (fun (g, c) => c.dueCopy g),
    fun _ => firstOf s.cores (fun (g, c) => s.dueSign g c),
    fun _ => firstOf s.clusters (fun (cl, c) => if (c.nextTurn).isSome then some (.serviceTurn cl) else none),
    fun _ => firstOf s.appends (fun (p, r) => if r.closed && r.landed == r.tail && !r.sealed then some (.sealComplete p) else none),
    fun _ => firstOf s.threads (fun (k, t) => match t.run with
      | .engine (.tlbinv _ _) => some (.tlbinvComplete k)
      | _ => none),
    fun _ => firstOf s.cores (fun (g, c) => if c.sweeping then some (.sweepComplete g) else none),
    fun _ => firstOf s.cores (fun (g, _) => (s.evictDue g).map fun k => .frameEvict k),
    fun _ => (if s.carver.isEmpty then none else some .carverRequest),
    fun _ => firstOf s.dies (fun (p, d) =>
      ((d.replWanted ++ d.remoteReads.keys).find? fun page => s.replicaDue p page).map fun page => .replicaMake p page)]

/-- The closed bins of a core in the order of closing, then of index (01 R32). -/
def Core.closedBins (c : Core) : List (Nat × Bin) := sortBy (fun (_, b) => b.order) (c.bins.filter fun (_, b) => !b.opened)

/-- Readmissions, bins and launch groups of the cores (01 R31 to R33, R56; 18 R379). -/
def State.duePlacement (s : State) : Option Instr :=
  firstDue [
    fun _ => firstOf s.cores (fun (g, c) => (c.bins.find? fun (_, b) => b.opened && b.timer == 0 && !b.offered).map fun (i, _) => .binTimerExpire g i),
    fun _ => ((sortBy (fun (_, t) => t.spawnSeq) s.threads).find? fun (k, t) => s.canReadmit k t).map (fun (k, _) => .readmit k),
    fun _ => firstOf s.cores (fun (g, c) => (c.closedBins.find? fun (_, b) => (s.binPlace g b).isSome).map fun (i, _) => .binPlace g i),
    fun _ => firstOf s.cores (fun (g, c) => if 1024 ≤ c.starve && !c.poolWait then some (.starve g) else none)]

/-- A launch group can be placed with the other members of its cluster group or pair group (18 R379). -/
def State.placeable (s : State) (id : Nat) (l : Launch) (x : GroupDeal) : Bool :=
  (l.groups.filter fun y => y.unit == x.unit).all fun y =>
    s.groupFits id l y.gcore && (s.nextGroup y.gcore).any fun (j, z) => j == id && z.index == y.index

/-- Launches: groups placed, packets taken, leases, regenerations (14 R325 to R327; 18 R371, R379). -/
def State.dueLaunch (s : State) : Option Instr :=
  firstDue [
    fun _ => firstOf s.launches (fun (id, l) =>
      if l.stage == .dealt && s.running l.ctxid then
        (l.groups.find? fun x => s.isGated (dieOf x.gcore)).map (fun x => .dieWake (dieOf x.gcore))
          <|> ((l.groups.find? fun x => (s.nextGroup x.gcore).any (fun (j, z) => j == id && z.index == x.index) && s.placeable id l x)).map
            fun x => .launchGroupPlace x.gcore
      else none),
    fun _ => (if s.doorbells.any fun b => s.takeable b.queue then some .packetTake else none),
    fun _ => (if s.launches.any fun (_, l) => l.origin != .queue && l.stage == .dealt && l.groups.isEmpty && l.roots == 0 then
          some .regenerationEnd else none),
    fun _ => (match s.leaseNeed with
      | some (.deal _) | some (.refuse _ _) | some (.regen _ _ _) | some .wait => some .leaseGrant
      | some (.read c va) => some (.backingRead c va)
      | some (.victim c va) => some (.victimRelease c va)
      | _ => none)]

/-- An event changes the units of a cluster. -/
def changesCluster (o : Host.Outcome State Fault Refusal) (s : State) (cl : Nat) : Bool :=
  match o with
  | .next t => t.cluster cl != s.cluster cl
  | _ => false

/-- A distributor has a BOPEN that it can answer now, or for which another die can give it a bucket (16 R360, R361). -/
def State.stealDue (s : State) (v : Nat) : Bool := (s.askers v).any fun cl => (s.openNeed v cl).isSome

/-- The dicer and the rasteriser of a cluster (16 R341 to R351, R364), then the distributors, where an owner opens its bucket before
another die asks for it (16 R369). -/
def State.dueRender (s : State) : Option Instr :=
  firstDue [
    fun _ => firstOf s.clusters (fun (cl, c) =>
      match c.bucket with
      | none => none
      | some o =>
        if o.failing then (if s.attemptOver o then some (.bucketRetry cl) else none)
        else
          (o.grids.find? fun g => g.spawned == g.count && !g.shaded && (s.frames.get g.frame).any fun f => f.live == 0).map
              (fun g => .gridComplete cl g.seq)
            <|> (if s.running o.ctxid && (s.nextRaster o).isSome && (s.renders.get o.launch).isSome then some (.rasterGrid cl) else none)
            <|> (if changesCluster (execSpillCopy cl s) s cl then some (.spillCopy cl) else none)
            <|> (if changesCluster (execDiceEntry cl s) s cl then some (.diceEntry cl) else none)),
    fun _ => firstOf (List.range s.fuses.dies) fun v => if (s.ownNeed v).isSome then some (.bucketSteal v) else none,
    fun _ => firstOf (List.range s.fuses.dies) fun v => if s.stealDue v then some (.bucketSteal v) else none]

/-- Saves, restorations, kills and stops of contexts (01 R62, 18 R384 to R389). -/
def State.dueContext (s : State) : Option Instr :=
  firstDue [
    fun _ => firstOf s.ctxs (fun (c, x) =>
      if s.readyToSave c then some (.contextSave c)
      else if x.state == .restoring then
        ((s.threads.find? fun (k, t) => t.ctxid == c && t.susp == some .saved && s.isGated (dieOf (coreOf k))).map
            fun (k, _) => .dieWake (dieOf (coreOf k)))
          <|> (if s.canRestore c then some (.restore c) else none)
      else if x.stops.any (fun y => (s.suspendStop c y.id).isSome) || (!x.stopped && x.stops.any fun y => (s.stopping y.id).isEmpty) then
        some (.stopReport c)
      else if x.resuming && s.running c && x.stops.any fun y => y.reported && s.canResume (s.stoppedBy y.id) then some (.dbgResume c)
      else none),
    fun _ => (s.threads.find? fun (_, t) => t.dying && (t.boundary || !t.resident) && s.running t.ctxid).map
      fun (_, t) => .ctxKill t.ctxid t.launch]

/-- Events of the clock (01 R59, R61; 14 R328; 18 R382; 20 R401, R402, R407). -/
def State.dueTimer (s : State) : Option Instr :=
  let late := fun (o : Offer) => o.since + s.ackBound o.record.thief ≤ s.cycle
  let dies := (List.range s.fuses.dies).filter fun v => !(s.dist v).lost
  firstDue [
    fun _ => firstOf s.cores (fun (g, c) => (c.offers.find? late).map fun o => .ackTimeout g o.record.id),
    fun _ => firstOf s.dists (fun (v, d) => (d.offers.find? late).map fun o => .ackTimeout (distEnd v) o.record.id),
    fun _ => firstOf s.cores (fun (g, c) => match c.seek with
      | .retry since => if since + ackTime ≤ s.cycle then some (.stealRetry g) else none
      | _ => none),
    fun _ => firstOf dies (fun v =>
      if (s.otherDies v).any fun w => (s.dist w).answered + micros 20 ≤ s.cycle then some (.livenessProbe v) else none),
    fun _ => (if s.agedAt + micros (max 1 s.pkg.ageperiod) ≤ s.cycle then some .agingSweep else none),
    fun _ => firstOf (List.range s.fuses.heads) (fun h => if s.scanoutDue h then some (.scanoutRead h) else none),
    fun _ => (if s.edgeDue || (List.range s.fuses.heads).any s.edgeWaits then some .frameEdge else none),
    fun _ => firstOf (List.range s.fuses.dies) (fun v => if s.gateDue v then some (.dieGate v) else none)]

/-- Requests of idle cores, made while launches are incomplete (01 R57; log 5). -/
def State.dueRequest (s : State) : Option Instr :=
  if s.launches.isEmpty then none
  else (s.allCores.find? fun g => (s.core g).seek == .idle && s.idle g).map fun g => .workRequest g

/-- The next event that the machine owes, once the ports of the cycle have issued. -/
def State.dueEvent (s : State) : Option Instr :=
  firstDue [
    fun _ => s.dueStore,
    fun _ => s.dueResult,
    fun _ => s.dueUnit,
    fun _ => s.dueMessage false,
    fun _ => s.duePlacement,
    fun _ => s.dueLaunch,
    fun _ => s.dueRender,
    fun _ => s.dueContext,
    fun _ => s.dueTimer,
    fun _ => s.dueRequest,
    fun _ => s.dueMessage true]

/-- Inputs that a package answers whose boot has failed: only configuration space, which carries the SPDM instances, and a
reset (20 R396, R397). -/
def answersFailed : Instr → Bool
  | .packageReset | .getVersion _ | .getCapabilities _ | .negotiateAlgorithms _ | .getDigests _ | .getCertificate _ _ _ _
  | .challenge _ _ _ | .getMeasurements _ _ | .unsupportedRequest _ _ => true
  | _ => false

end Sys2Proof.Machine
end

