-- ==== Sys2Proof/Machine/Select.lean ====
section
/-! DEFINITION. What one step does: what comes from outside, the issue of one port, an event that is due once every port of the
cycle has issued, or the end of the cycle (01 R20 to R26; log 5). -/

namespace Sys2Proof.Machine

/-- The issue of a group, which may find interlocks. -/
def State.trial (s : State) (members : List FrameRef) (pc : Nat) : Host.Outcome State Fault Refusal :=
  match s.fetchGroup members pc with
  | (s1, none) => .next s1
  | (s1, some i) => exec i s1

/-- The members of a group that an interlock holds (01 R22). -/
def heldBy (o : Host.Outcome State Fault Refusal) (members : List FrameRef) : List FrameRef :=
  match o with
  | .next t => members.filter fun k => (t.threads.get k).any Thread.held
  | _ => []

/-- Threads found interlocked in this cycle. -/
def State.markHeld (s : State) (ks : List FrameRef) : State :=
  ks.foldl (fun acc k => acc.onThread k fun t => { t with held := true }) s

/-- The threads of a port whose own next instruction an interlock holds: they are not eligible (01 R22). -/
def State.interlocked (s : State) (l : List (FrameRef × Thread)) : List FrameRef :=
  match l with
  | [_] => []
  | l => (l.filter fun (k, t) => !(heldBy (s.trial [k] t.pc) [k]).isEmpty).map (·.1)

/-- Eligible threads of a port that another program counter or another thread of their lane has kept from issuing: their wait
counters (01 R22). -/
def State.passOver (s : State) (ks : List FrameRef) : State :=
  { s with threads := s.threads.mapVals fun k t => if ks.contains k then { t with wait := min 511 (t.wait + 1) } else t }

/-- A port has issued the group `ks` from the eligible threads `l` of its core (01 R22, R57). -/
def State.issued (s : State) (p : Nat) (l : List (FrameRef × Thread)) (ks : List FrameRef) : State :=
  let rest := (l.map (·.1)).filter fun k => !ks.contains k
  { (s.passOver rest).onCore (p / (2 * Config.parts)) (fun c => { c with activeAt := some s.cycle }) with port := p + 1 }

/-- A port issues a group of its eligible threads. Threads that an interlock holds, alone or behind another member of the group,
are set aside first, nothing having issued, and the port chooses among the rest (01 R22, R23). -/
def State.issuePort (s : State) (p : Nat) (l : List (FrameRef × Thread)) : Host.Outcome State Fault Refusal :=
  match s.interlocked l with
  | k :: ks => .next (s.markHeld (k :: ks))
  | [] =>
    match choosePc l with
    | none => .next { s with port := p + 1 }
    | some key =>
      let ks := groupAt l key
      let o := s.trial ks key.1
      match heldBy o ks with
      | [] =>
        match o with
        | .next t => .next (t.issued p l ks)
        | o => o
      | hs => .next (s.markHeld hs)

/-- The bins of a core after one more cycle (01 R31). -/
def State.agedBins (s : State) (c : Core) : Tbl Bin :=
  c.bins.mapVals fun _ b => if b.opened && !b.offered && s.running b.ctxid then { b with timer := b.timer - 1 } else b

/-- A thread waits for an engine, its context not being saved (01 R20). -/
def Thread.engaged (t : Thread) : Bool :=
  t.susp != some .saved && match t.run with
    | .engine _ => true
    | _ => false

/-- A memory, copy or engine operation of a core is in flight (01 R56). -/
def State.inFlight (s : State) (g : Nat) (c : Core) : Bool :=
  s.stores.any (fun x => coreOf x.thread == g)
    || (s.threadsOf g).any (fun (_, t) => !t.loads.isEmpty || !t.gwins.isEmpty || !t.pend.isEmpty || t.engaged)
    || !c.copies.isEmpty || s.carver.any (fun j => j.gcore == g)
    || (s.cluster (clusterOf g)).queues.any fun (_, q) => q.any fun e => e.gcore == g

/-- The conditions of starvation hold in this cycle (01 R56). -/
def State.starving (s : State) (g : Nat) (c : Core) : Bool :=
  !s.active g
    && ((s.threadsOf g).any (fun (_, t) => t.resident && match t.run with | .grow _ => true | _ => false)
      || c.bins.any fun (_, b) => !b.opened && !b.offered && (s.binPlace g b).isNone)
    && !s.inFlight g c && c.inbound.isEmpty

/-- A core after one more cycle: starvation is counted, and ends with its conditions (01 R56; log 27); handler entries and
SPLITEN that the cycle's instructions have written take effect (07 R165, R176). -/
def State.agedCore (s : State) (g : Nat) (c : Core) : Core :=
  let hungry := s.starving g c
  { c with bins := s.agedBins c, starve := if hungry then min 1024 (c.starve + 1) else 0, starved := c.starved && hungry,
           handlers := c.heldHandlers.foldl (fun acc (cx, e) => acc.put cx e) c.handlers, heldHandlers := [],
           splitEn := c.heldSplit.getD c.splitEn, heldSplit := none }

/-- A cluster after one more cycle: a camera block that CAM has loaded takes effect (10 R270). -/
def Cluster.aged (c : Cluster) : Cluster := { c with cam := c.heldCam.getD c.cam, heldCam := none }

/-- Byte-count phases that stand complete at the end of a cycle (09 R231). -/
def State.completeCounts (s : State) : State :=
  s.cores.foldl (fun acc (g, c) =>
    c.meets.foldl (fun acc (m, x) =>
      if x.mode == .bytes && x.expected && x.count == 0 && x.err.isNone then acc.completePhase g m else acc) acc) s

/-- The clocks that count a die's idleness (20 R407). -/
def State.agedDies (s : State) : State :=
  (List.range s.fuses.dies).foldl (fun acc v =>
    if s.dieIdle v && !s.wanted v then acc
    else acc.onDie (s.physDie v) fun d => { d with idleSince := s.cycle + 1 }) s

/-- The end of a cycle: bin timers, starvation, byte-count phases, the generations of the L1s, and what takes effect with the next
cycle. -/
def State.tick (s : State) : State :=
  let s1 := { s.agedDies with threads := s.threads.mapVals fun _ t => { t with held := false },
                              cores := s.cores.mapVals s.agedCore, clusters := s.clusters.mapVals fun _ c => c.aged }
  { s1.completeCounts.increments with cycle := s.cycle + 1, port := 0 }

/-- What the machine does by itself when nothing comes from outside: the ports issue in ascending number, then the events of the
cycle happen, then the cycle ends. -/
def State.advanceSelf (s : State) : Host.Outcome State Fault Refusal :=
  if s.port < portCount then
    match s.dueListing with
    | some i => exec i s
    | none =>
      match s.nextPort with
      | some (p, l) => s.issuePort p l
      | none => .next { s with port := portCount }
  else
    match s.dueEvent with
    | some i => exec i s
    | none => .next s.tick

/-- An access of another chip takes its place in the cycle in which it comes after all that the cores of this chip do in it
(20 R400). -/
def State.heldBack (s : State) (i : Instr) : Bool :=
  match i with
  | .remoteAccess _ _ => s.port < portCount || s.dueEvent.isSome
  | _ => false

/-- One step: boot, then what comes from outside, then the machine itself (20 R396). -/
def State.advanceOne (s : State) : Host.Outcome State Fault Refusal :=
  if s.pkg.stage = 0 then exec .packageReset s
  else
    match s.befalls with
    | e :: rest => .next (({ s with befalls := rest }).befall e)
    | [] =>
      match s.inputs with
      | i :: rest =>
        if s.pkg.stage = 8 ∧ !answersFailed i then .next { s with inputs := rest }
        else if s.heldBack i then s.advanceSelf
        else exec i { s with inputs := rest }
      | [] => if s.pkg.stage = 8 then .next { s with cycle := s.cycle + 1 } else s.advanceSelf

/-- Where withFetchWord places its page tables, and the bundle. -/
def probeTables : Nat := 0x40000000
def probeBundle : Nat := 0x1000

/-- The page tables of one 1 GiB page at virtual address 0, as addresses and entries. -/
def probeEntries : List (Nat × Nat) :=
  [(probeTables, probeTables + 0x1000 + 1), (probeTables + 0x1000, probeTables + 0x2000 + 1), (probeTables + 0x2000, 3)]

/-- The thread that withFetchWord places, in lane 0 of partition 0 of core 0. -/
def probeThread : Thread := { Thread.placed 0 0 0 (probeBundle + 4) 128 [] false 0 0 0 0 0 0 0 with wait := 511 }

/-- A state whose next step issues the instruction of some words: the package booted, no input or event due, a context with
one page, and one thread at the instruction (log 4). -/
def State.placeWords (s : State) (words : List Nat) : State :=
  let s1 := if s.pkg.stage = 7 then s else nextOr (execPackageReset s) s
  let code := leBytes 4 0 ++ words.flatMap (leBytes 4)
  let tables := probeEntries.foldl (fun acc (a, e) => writeNat acc a 8 e) s1.mem
  let s2 := (s1.onCtx 0 fun c => { c with root := probeTables }).onCore 0 fun c => { c with tlb := [], l1 := [] }
  { s2 with mem := writeBytes tables probeBundle code, inputs := [], befalls := [], issue := none, port := 0,
            threads := s2.threads.put 0 probeThread, frames := s2.frames.put 0 (Frame.taken .root 0 0 0 0 0 0 0 0) }

end Sys2Proof.Machine
end

