-- ==== Sys2Proof/Machine/Step.lean ====
section
/-! DEFINITION. One step of the machine, and the state whose next step runs a given instruction. -/

namespace Sys2Proof.Machine

/-- One step. -/
def step (s : State) : Host.Outcome State Fault Refusal := s.advanceOne

/-- The state with an instruction where the next step fetches (log 4). -/
def State.withFetchWord (s : State) (nbits w : Nat) : State := s.placeWords ((wordsOfBits nbits w).map (·.1))

end Sys2Proof.Machine
end

