-- ==== Sys2Proof/Safety.lean ====
section
/-! DEFINITION. The terms in which claims are stated: an issue group in hand, a member whose registers can be read, what an
instruction may change, and what a register holds afterwards. -/

namespace Sys2Proof.Machine

/-- An issue group is in hand: its members are placed threads, each named once (01 R24, 05 R116). -/
structure Issuing (s : State) (is : Issue) : Prop where
  inHand : s.issue = some is
  distinct : is.members.Nodup
  placed : ∀ k ∈ is.members, ∃ t, s.threads.get k = some t

/-- One thread alone is issued. -/
structure Alone (s : State) (is : Issue) (k : FrameRef) (t : Thread) : Prop where
  inHand : s.issue = some is
  members : is.members = [k]
  thread : s.threads.get k = some t

/-- The checks of 03 R71 on registers pass for a thread of the group, and its sources read as `vals` under 05 R107 and R114:
no result is in flight on a register of the instruction or on one that it reads of another member, and with the check on no fixed-latency writer is too close. -/
structure Readable (s : State) (is : Issue) (t : Thread) (srcs : List Src) (dst : List (Nat × Nat))
    (vals : List (List RegVal)) : Prop where
  sources : ∀ o ∈ srcs, o.pat = .own → ∀ i < o.n, t.inRange (o.name + i) = true
  dests : ∀ p ∈ dst, ∀ i < p.2, t.inRange (p.1 + i) = true
  free : ∀ p ∈ dst, ∀ i < p.2, t.pending (t.index (p.1 + i)) = false
  reads : srcs.mapM (readGroup s is.members t) = some vals
  arrived : awaited s is.members t srcs = []
  tags : ∀ p ∈ srcs.zip vals, ∀ v ∈ p.2, tagPasses p.1.tags v.2 = true
  spaced : t.check = true → ∀ o ∈ srcs, o.pat = .own → ∀ i < o.n, t.early (t.index (o.name + i)) = false

/-- The same checks pass for a thread that reads results in flight of other members through lane patterns (05 R114). -/
structure Awaiting (s : State) (is : Issue) (t : Thread) (srcs : List Src) (dst : List (Nat × Nat))
    (vals : List (List RegVal)) : Prop where
  sources : ∀ o ∈ srcs, o.pat = .own → ∀ i < o.n, t.inRange (o.name + i) = true
  dests : ∀ p ∈ dst, ∀ i < p.2, t.inRange (p.1 + i) = true
  free : ∀ p ∈ dst, ∀ i < p.2, t.pending (t.index (p.1 + i)) = false
  reads : srcs.mapM (readGroup s is.members t) = some vals
  later : awaited s is.members t srcs ≠ []
  tags : ∀ p ∈ srcs.zip vals, ∀ v ∈ p.2, tagPasses p.1.tags v.2 = true
  spaced : t.check = true → ∀ o ∈ srcs, o.pat = .own → ∀ i < o.n, t.early (t.index (o.name + i)) = false

/-- No thread of a core is suspended. -/
def State.coreResident (s : State) (g : Nat) : Prop := ∀ k t, s.threads.get k = some t → coreOf k = g → t.susp = none

/-- Only the threads of the issue group differ, and the issue is done: memory, every special register, every unit and every
other thread are as before. -/
def OnlyGroup (s s' : State) (is : Issue) : Prop :=
  s' = { s with threads := s'.threads, issue := none } ∧ ∀ k, k ∉ is.members → s'.threads.get k = s.threads.get k

/-- A thread after an instruction that sends it to `pc`: it has issued one more, its wait counter is cleared, its stall count is that of its slot and
one more under YIELD or a yield hint that applies (01 R22, R26; 05 R101, R104), and beside its registers, and what their bank shows
to window reads, nothing else differs from `v`. -/
def GoesTo (s : State) (is : Issue) (v : Thread) (yields : Bool) (pc : Nat) (u : Thread) : Prop :=
  u = { v with regs := u.regs, writes := u.writes, bank := u.bank, pc := pc, wait := 0, issued := v.issued + 1,
               stall := s.cycle + 1 + is.stall + (if yields = true ∨ (is.hint = true ∧ pc / 32 ≠ is.inst / 32) then 1 else 0) }

/-- The n registers from name d hold `rs`, and every other register what it held: by the latest writer in program order
(05 R109). A name counts where no other name of the group denotes the same register. -/
def Holds (t u : Thread) (d n : Nat) (rs : List RegVal) : Prop :=
  rs.length = n ∧
  (∀ i < n, (∀ j < n, t.index (d + j) = t.index (d + i) → j = i) → u.latest (t.index (d + i)) = rs.getD i blankReg) ∧
  (∀ r, (∀ i < n, r ≠ t.index (d + i)) → u.latest r = t.latest r)

/-- When the n registers from name d can be read (05 R106, R107): at once for a variable latency, else from count
distance L. -/
def Timed (is : Issue) (t u : Thread) (d n : Nat) (latency : Option Nat) : Prop :=
  ∀ i < n,
    (latency.getD 0 ≤ 1 + is.stall → u.reg (t.index (d + i)) = u.latest (t.index (d + i))) ∧
    (1 + is.stall < latency.getD 0 → u.early (t.index (d + i)) = true)

/-- What an instruction does to each member of its group: the sources it reads, the group of registers it writes with its
latency and the values it may write, when it has this effect, what else of the thread it changes, and where it goes. -/
structure Effect where
  srcs : List Src := []
  dest : Nat := 0
  regs : Nat := 0
  latency : Option Nat := none
  result : State → Issue → FrameRef → Thread → List (List RegVal) → List RegVal → Prop := fun _ _ _ _ _ rs => rs = []
  ready : State → Issue → FrameRef → Thread → List (List RegVal) → Prop := fun _ _ _ _ _ => True
  thread : State → Issue → FrameRef → Thread → List (List RegVal) → Thread := fun _ _ _ t _ => t
  yields : Bool := false
  pc : State → Issue → FrameRef → Thread → List (List RegVal) → Nat := fun _ is _ _ _ => nextPc is.inst

/-- The instruction i has the effect e in every issue group whose members all pass their register checks and meet its
condition, and it changes nothing else: no other thread, no memory, no special register, no unit. -/
def Does (i : Instr) (e : Effect) : Prop :=
  ∀ s is, Issuing s is →
    (∀ k ∈ is.members, ∀ t, s.threads.get k = some t →
      ∃ vals, Readable s is t e.srcs [(e.dest, e.regs)] vals ∧ e.ready s is k t vals) →
    ∃ s', exec i s = .next s' ∧ OnlyGroup s s' is ∧
      ∀ k ∈ is.members, ∀ t vals, s.threads.get k = some t → Readable s is t e.srcs [(e.dest, e.regs)] vals →
        ∃ u rs, s'.threads.get k = some u ∧ e.result s is k t vals rs ∧
          GoesTo s is (e.thread s is k t vals) e.yields (e.pc s is k t vals) u ∧
          Holds t u e.dest e.regs rs ∧ Timed is t u e.dest e.regs e.latency

/-- The instruction i reads `srcs` and gives n registers from name d values that `result` allows, with a latency. -/
def Computes (i : Instr) (srcs : List Src) (d n : Nat) (latency : Option Nat)
    (result : State → Issue → FrameRef → Thread → List (List RegVal) → List RegVal → Prop) : Prop :=
  Does i { srcs := srcs, dest := d, regs := n, latency := latency, result := result }

/-- The thread k has ended with a fault: it is placed no more, and its frame holds the code and the address, which its
completion carries (01 R21, R39, R65). -/
def Faulted (s' : State) (k : FrameRef) (code addr : Nat) : Prop :=
  s'.threads.get k = none ∧ s'.issue = none ∧
    ∃ f c, s'.frames.get k = some f ∧ f.ended = some c ∧ c.kind = .fault ∧ c.report.code = code ∧ c.report.addr = addr % 2 ^ 57

/-- The instruction i ends a thread issued alone with a fault, whenever its registers can be read and `when_` holds. The frame
of a placed thread is taken (01 R38). -/
def FaultsWith (i : Instr) (srcs : List Src) (dst : List (Nat × Nat)) (when_ : State → Issue → FrameRef → Thread → List (List RegVal) → Prop)
    (code : Nat) (addr : List (List RegVal) → Nat := fun _ => 0) : Prop :=
  ∀ s is k t vals, Alone s is k t → (s.frames.get k).isSome = true → Readable s is t srcs dst vals → when_ s is k t vals →
    ∃ s', exec i s = .next s' ∧ Faulted s' k code (addr vals)

/-- A thread that is not in state trapped (05 R118). -/
def InUserState (_ : State) (_ : Issue) (_ : FrameRef) (t : Thread) (_ : List (List RegVal)) : Prop := t.trapped = false

/-- After an instruction of a thread issued alone: the thread went on to `pc` with what `v` says of it, and its registers hold
what they held. -/
def Continues (s s' : State) (is : Issue) (k : FrameRef) (v : Thread) (pc : Nat) : Prop :=
  ∃ u, s'.threads.get k = some u ∧ GoesTo s is v false pc u ∧ ∀ r, u.latest r = v.latest r

/-- The instruction i, issued by one thread alone whose registers can be read and where `when_` holds, leads to a next state of
which `post` holds. -/
def Leads (i : Instr) (srcs : List Src) (dst : List (Nat × Nat))
    (when_ : State → Issue → FrameRef → Thread → List (List RegVal) → Prop)
    (post : State → Issue → FrameRef → Thread → List (List RegVal) → State → Prop) : Prop :=
  ∀ s is k t vals, Alone s is k t → Readable s is t srcs dst vals → when_ s is k t vals →
    ∃ s', exec i s = .next s' ∧ post s is k t vals s'

/-- The thread k has ended: it is placed no more, and its frame holds how it ended, which its completion carries (01 R21). -/
def Ended (s' : State) (k : FrameRef) (kind : EndKind) : Prop :=
  s'.threads.get k = none ∧ s'.issue = none ∧ ∃ f c, s'.frames.get k = some f ∧ f.ended = some c ∧ c.kind = kind

/-- The queue of GROW requests of a thread's lane (07 R164). -/
def State.growQueue (s : State) (k : FrameRef) (t : Thread) : List FrameRef :=
  (s.core (coreOf k)).grows.getD (32 * t.part + t.lane) []

/-- No thread of the lane waits for registers. -/
def State.noneGrowing (s : State) (k : FrameRef) (t : Thread) : Prop := ∀ j ∈ s.growQueue k t, s.growing j = none

/-- The value v of WIN, GROW and SHRINK by register. -/
def windowArg (v : List (List RegVal)) : Nat := (argW v 0).toNat

/-- GROW to a total of v registers (01 R55, 07 R164): no effect within the allocation, a grant where no request of the lane waits
and the registers are free, and else a wait: also behind a request that does not fit, however small the own one. -/
def Grows (i : Instr) (srcs : List Src) (val : List (List RegVal) → Nat) : Prop :=
  Leads i srcs [] (fun _ _ _ t v => val v % 16 = 0 ∧ val v ≤ 512 ∧ val v ≤ t.alloc)
    (fun s is k t _ s' => OnlyGroup s s' is ∧ Continues s s' is k t (nextPc is.inst)) ∧
  Leads i srcs [] (fun s _ k t v => val v % 16 = 0 ∧ val v ≤ 512 ∧ t.alloc < val v ∧ t.susp = none ∧ k ∉ s.growQueue k t ∧
      s.noneGrowing k t ∧ val v - t.alloc ≤ s.freeRegs (coreOf k) t.part t.lane)
    (fun s is k t v s' => s' = { s with threads := s'.threads, cores := s'.cores, issue := none } ∧
      (∀ j, j ≠ k → s'.threads.get j = s.threads.get j) ∧
      Continues s s' is k { t with alloc := val v, run := .ready } (nextPc is.inst)) ∧
  Leads i srcs [] (fun s _ k t v => val v % 16 = 0 ∧ val v ≤ 512 ∧ t.alloc < val v ∧ t.susp = none ∧ k ∉ s.growQueue k t ∧
      s.noneGrowing k t ∧ s.freeRegs (coreOf k) t.part t.lane < val v - t.alloc)
    (fun s is k t v s' => s' = { s with threads := s'.threads, cores := s'.cores, issue := none } ∧
      (∀ j, j ≠ k → s'.threads.get j = s.threads.get j) ∧ s'.growQueue k t = s.growQueue k t ++ [k] ∧
      Continues s s' is k { t with run := .grow (val v) } (nextPc is.inst)) ∧
  Leads i srcs [] (fun s _ k t v => val v % 16 = 0 ∧ val v ≤ 512 ∧ t.alloc < val v ∧ t.susp = none ∧ k ∉ s.growQueue k t ∧
      ∃ before j after total w, s.growQueue k t = before ++ j :: after ∧ (∀ x ∈ before, s.growing x = none) ∧
        s.growing j = some (total, w) ∧ s.freeRegs (coreOf k) t.part t.lane < total - w.alloc)
    (fun s is k t v s' => s' = { s with threads := s'.threads, cores := s'.cores, issue := none } ∧
      (∀ j, j ≠ k → s'.threads.get j = s.threads.get j) ∧ s'.growQueue k t = s.growQueue k t ++ [k] ∧
      Continues s s' is k { t with run := .grow (val v) } (nextPc is.inst))

/-- SHRINK to v registers (01 R55): no effect from the allocation on; else the registers from v on go back and their contents
are lost, while the others keep theirs. No thread of the lane waits for them. -/
def Shrinks (i : Instr) (srcs : List Src) (val : List (List RegVal) → Nat) : Prop :=
  Leads i srcs [] (fun _ _ _ t v => val v % 16 = 0 ∧ 16 ≤ val v ∧ t.winbase < val v ∧ t.alloc ≤ val v)
    (fun s is k t _ s' => OnlyGroup s s' is ∧ Continues s s' is k t (nextPc is.inst)) ∧
  Leads i srcs [] (fun s _ k t v => val v % 16 = 0 ∧ 16 ≤ val v ∧ t.winbase < val v ∧ val v < t.alloc ∧ s.noneGrowing k t ∧
      t.run = .ready ∧ ∀ r, val v ≤ r → r < Config.trapBank → t.pending r = false)
    (fun s is k t v s' => OnlyGroup s s' is ∧ ∃ u, s'.threads.get k = some u ∧
      GoesTo s is { t with alloc := val v } false (nextPc is.inst) u ∧
      ∀ r, u.latest r = if val v ≤ r ∧ r < Config.trapBank then blankReg else t.latest r)

/-- The exact value of a finite number (03 R77). -/
def Num.val : Num → ℚ
  | .fin s m e => (if s then -1 else 1) * m * 2 ^ e
  | _ => 0

/-- A number that is neither NaN nor an infinity. -/
def Num.finite : Num → Bool
  | .fin _ _ _ => true
  | _ => false

/-- The value of a magnitude code of a format (03 R77); one past the largest finite code stands for the next power of two. -/
def FloatFmt.mag (f : FloatFmt) (k : Nat) : ℚ :=
  if k < 2 ^ f.mbits then (k : ℚ) * 2 ^ (1 - (f.bias : ℤ) - f.mbits)
  else ((2 ^ f.mbits + k % 2 ^ f.mbits : Nat) : ℚ) * 2 ^ (((k / 2 ^ f.mbits : Nat) : ℤ) - f.bias - f.mbits)

/-- The largest finite magnitude not above a. -/
def FloatFmt.Below (f : FloatFmt) (a : ℚ) (k : Nat) : Prop :=
  k ≤ f.maxCode ∧ f.mag k ≤ a ∧ ∀ j ≤ f.maxCode, f.mag j ≤ a → j ≤ k

/-- The smallest magnitude not below a, or the code past the finite ones where there is none. -/
def FloatFmt.Above (f : FloatFmt) (a : ℚ) (k : Nat) : Prop :=
  k ≤ f.maxCode + 1 ∧ (k ≤ f.maxCode → a ≤ f.mag k) ∧ ∀ j < k, f.mag j < a

/-- The magnitude nearest to a; of two equally near, the even code. -/
def FloatFmt.Nearest (f : FloatFmt) (a : ℚ) (k : Nat) : Prop :=
  k ≤ f.maxCode + 1 ∧ ∀ j ≤ f.maxCode + 1, j ≠ k → |f.mag k - a| < |f.mag j - a| ∨ |f.mag k - a| = |f.mag j - a| ∧ k % 2 = 0

/-- k is the magnitude code to which a, of the sign given, rounds under a mode (03 R81, R82, R86); the code past the finite
ones is overflow. Beyond the largest finite value dithering is .rn (03 R86; log 11, log 57). -/
def FloatFmt.Rounds (f : FloatFmt) (r : RMode) (neg : Bool) (a : ℚ) (k : Nat) : Prop :=
  match r.mode with
  | .rn => f.Nearest a k
  | .rz => f.Below a k
  | .ru => if neg then f.Below a k else f.Above a k
  | .rd => if neg then f.Above a k else f.Below a k
  | .rdi => (a ≤ f.mag f.maxCode →
      ∃ j, f.Below a j ∧ k = if (r.dither : ℤ) < ⌊32 * ((a - f.mag j) / (f.mag (j + 1) - f.mag j))⌋ then j + 1 else j) ∧
      (f.mag f.maxCode < a → f.Nearest a k)

/-- The sign bit of a code. -/
def FloatFmt.signBit (f : FloatFmt) (neg : Bool) : Nat := if neg then 2 ^ (f.ebits + f.mbits) else 0

/-- The code c of a nonzero exact value x rounded to a format (03 R82, R85): a value beyond the largest is an infinity, or the
largest where the format or .sat clamps. -/
def FloatFmt.RoundsTo (f : FloatFmt) (r : RMode) (sat : Bool) (x : ℚ) (c : Nat) : Prop :=
  ∃ k, f.Rounds r (x < 0) |x| k ∧
    c = f.signBit (x < 0) + if f.beyond = .clamp ∨ sat = true then min k f.maxCode else k

/-- p is the exact sum of a and b, with the special cases of 08 R185. -/
def Num.Sum (a b p : Num) : Prop :=
  ((a = .nan ∨ b = .nan ∨ ∃ s, a = .inf s ∧ b = .inf !s) → p = .nan) ∧
  (∀ s, a = .inf s ∧ (b = .inf s ∨ b.finite = true) ∨ b = .inf s ∧ a.finite = true → p = .inf s) ∧
  (a.finite = true → b.finite = true → p.finite = true ∧ p.val = a.val + b.val)

/-- p is the exact product of a and b, with the special cases of 08 R185; a zero product has the product of the signs. -/
def Num.Product (a b p : Num) : Prop :=
  ((a = .nan ∨ b = .nan ∨ (∃ s, a = .inf s ∧ b.isZero = true) ∨ ∃ s, b = .inf s ∧ a.isZero = true) → p = .nan) ∧
  ((a.finite = false ∧ a ≠ .nan ∧ b ≠ .nan ∧ b.isZero = false) ∨ (b.finite = false ∧ b ≠ .nan ∧ a ≠ .nan ∧ a.isZero = false) →
    p = .inf (a.neg != b.neg)) ∧
  (a.finite = true → b.finite = true → p.finite = true ∧ p.val = a.val * b.val ∧ p.neg = (a.neg != b.neg))

/-- c is the code of an exact result p, rounded once and then flushed with .ftz; an exact zero takes the sign given
(03 R82 to R85). -/
def FloatFmt.Delivers (f : FloatFmt) (r : RMode) (sat ftz zeroNeg : Bool) (p : Num) (c : Nat) : Prop :=
  (p = .nan → c = f.nan) ∧
  (∀ s, p = .inf s → c = f.signBit s + if f.beyond = .clamp ∨ sat = true then f.maxCode else f.maxCode + 1) ∧
  (p.finite = true → p.val = 0 → c = f.signBit zeroNeg) ∧
  (p.finite = true → p.val ≠ 0 → ∃ c0, f.RoundsTo r sat p.val c0 ∧ c = f.flush ftz c0)

/-- The sign of an exact zero sum: minus only for opposite-signed zeros under .rd (03 R82). -/
def zeroSum (r : Rnd) (a b : Num) : Bool := r == .rd && a.isZero && b.isZero && (a.neg != b.neg)

/-- A code as an instruction reads it, with .ftz (03 R83). -/
def FloatFmt.reads (f : FloatFmt) (ftz : Bool) (x : Nat) : Num := f.decode (f.flush ftz x)

/-- c is the sum, the product, or the fused multiply-add of codes, under a rounding mode and .ftz (08 R185). -/
def FloatFmt.IsSum (f : FloatFmt) (r : Rnd) (ftz : Bool) (x y c : Nat) : Prop :=
  ∃ p, Num.Sum (f.reads ftz x) (f.reads ftz y) p ∧
    f.Delivers (RMode.plain r) false ftz (zeroSum r (f.reads ftz x) (f.reads ftz y)) p c
def FloatFmt.IsDifference (f : FloatFmt) (r : Rnd) (ftz : Bool) (x y c : Nat) : Prop :=
  ∃ p, Num.Sum (f.reads ftz x) (f.reads ftz y).negate p ∧
    f.Delivers (RMode.plain r) false ftz (zeroSum r (f.reads ftz x) (f.reads ftz y).negate) p c
def FloatFmt.IsProduct (f : FloatFmt) (r : Rnd) (ftz : Bool) (x y c : Nat) : Prop :=
  ∃ p, Num.Product (f.reads ftz x) (f.reads ftz y) p ∧ f.Delivers (RMode.plain r) false ftz false p c
def FloatFmt.IsFused (f : FloatFmt) (r : Rnd) (ftz : Bool) (x y z c : Nat) : Prop :=
  ∃ q p, Num.Product (f.reads ftz x) (f.reads ftz y) q ∧ Num.Sum q (f.reads ftz z) p ∧
    f.Delivers (RMode.plain r) false ftz (zeroSum r q (f.reads ftz z)) p c

/-- a is less than b as a real value or an infinity. -/
def Num.Less : Num → Num → Prop
  | .inf s, .inf t => s = true ∧ t = false
  | .inf s, .fin _ _ _ => s = true
  | .fin _ _ _, .inf t => t = false
  | .fin a m e, .fin b n f => (Num.fin a m e).val < (Num.fin b n f).val
  | _, _ => False

/-- a and b are the same real value or the same infinity; -0 and +0 are. -/
def Num.Same : Num → Num → Prop
  | .inf s, .inf t => s = t
  | .fin a m e, .fin b n f => (Num.fin a m e).val = (Num.fin b n f).val
  | _, _ => False

/-- The order of FMIN and FMAX: that of the real values, with -0 below +0 (08 R186). -/
def Num.AtMost (a b : Num) : Prop := a.Less b ∨ a.Same b ∧ (b.isZero = true → b.neg = true → a.neg = true)

/-- c is the minimum, or the maximum, of two codes (08 R186). -/
def FloatFmt.IsMinMax (f : FloatFmt) (max ftz : Bool) (x y c : Nat) : Prop :=
  (f.reads ftz x = .nan → f.reads ftz y = .nan → c = f.nan) ∧
  (f.reads ftz x = .nan → f.reads ftz y ≠ .nan → c = f.flush ftz y) ∧
  (f.reads ftz x ≠ .nan → f.reads ftz y = .nan → c = f.flush ftz x) ∧
  (f.reads ftz x ≠ .nan → f.reads ftz y ≠ .nan → (c = f.flush ftz x ∨ c = f.flush ftz y) ∧
    (max = false → (f.decode c).AtMost (f.reads ftz x) ∧ (f.decode c).AtMost (f.reads ftz y)) ∧
    (max = true → (f.reads ftz x).AtMost (f.decode c) ∧ (f.reads ftz y).AtMost (f.decode c)))

/-- The conditions of FCMP (08 R187). -/
def FccHolds (c : FCc) (a b : Num) : Prop :=
  match c with
  | .eq => a.Same b
  | .ne => ¬ a.Same b
  | .lt => a.Less b
  | .le => a.Less b ∨ a.Same b
  | .gt => b.Less a
  | .ge => b.Less a ∨ a.Same b
  | .un => a = .nan ∨ b = .nan
  | .ord => a ≠ .nan ∧ b ≠ .nan

/-- The bit of FCLASS for an FP32 pattern (08 R188). -/
def IsClass (x : Word) (k : Nat) : Prop :=
  match f32 x with
  | .nan => k = if x.getLsbD 22 then 9 else 8
  | .inf s => k = if s then 0 else 7
  | .fin s m _ =>
    if m = 0 then k = if s then 3 else 4
    else if FloatFmt.fp32.subnormal x.toNat then k = if s then 2 else 5
    else k = if s then 1 else 6

/-- A result stated of the values read alone. -/
def Gives (P : List (List RegVal) → List RegVal → Prop) :
    State → Issue → FrameRef → Thread → List (List RegVal) → List RegVal → Prop := fun _ _ _ _ v rs => P v rs

/-- A result of one register with tag RAW. -/
def GivesRaw (P : List (List RegVal) → Word → Prop) :
    State → Issue → FrameRef → Thread → List (List RegVal) → List RegVal → Prop :=
  Gives fun v rs => ∃ r, rs = [(r, .raw)] ∧ P v r

/-- A result of one register with tag RAW from two sources, or one, of any tag, with latency 2. -/
def ComputesRaw2 (i : Instr) (px : Option Pats) (d a b : Reg) (P : Word → Word → Word → Prop) : Prop :=
  Computes i [srcA px a 1 none, srcB px b 1 none] d.val 1 (some (lat px 2)) (GivesRaw fun v r => P (argW v 0) (argW v 1) r)

def ComputesRaw1 (i : Instr) (px : Option Pats) (d a : Reg) (P : Word → Word → Prop) : Prop :=
  Computes i [srcA px a 1 none] d.val 1 (some (lat px 2)) (GivesRaw fun v r => P (argW v 0) r)

/-- The unsigned value of source i. -/
def argZ (v : List (List RegVal)) (i : Nat) : Int := (argW v i).toNat

/-- r is f of x and y, bit by bit (07 R143). -/
def Bitwise (f : Bool → Bool → Bool) (x y r : Word) : Prop := ∀ k < 32, r.getLsbD k = f (x.getLsbD k) (y.getLsbD k)

/-- The four shift kinds of 07 R144: r is x shifted by s. -/
def ShiftedLeft (x : Word) (s : Nat) (r : Word) : Prop := r.toNat = if s < 32 then x.toNat * 2 ^ s % 2 ^ 32 else 0
def ShiftedRight (x : Word) (s : Nat) (r : Word) : Prop := r.toNat = if s < 32 then x.toNat / 2 ^ s else 0
def ShiftedArith (x : Word) (s : Nat) (r : Word) : Prop :=
  r = if s < 32 then BitVec.ofInt 32 (x.toInt / 2 ^ s) else if x.getLsbD 31 then 0xFFFFFFFF else 0
def Rotated (x : Word) (s : Nat) (r : Word) : Prop := ∀ k < 32, r.getLsbD ((k + s) % 32) = x.getLsbD k

/-- The conditions of CMP (07 R148). -/
def CcHolds (c : Cc) (x y : Word) : Prop :=
  match c with
  | .eq => x = y
  | .ne => x ≠ y
  | .ltS => x.toInt < y.toInt
  | .leS => x.toInt ≤ y.toInt
  | .gtS => y.toInt < x.toInt
  | .geS => y.toInt ≤ x.toInt
  | .ltN => x.toNat < y.toNat
  | .leN => x.toNat ≤ y.toNat
  | .gtN => y.toNat < x.toNat
  | .geN => y.toNat ≤ x.toNat

/-- The value of an immediate: sign-extended without a prefix, as it stands with one, as a signed number (05 R112). -/
def immInt : Imm → Int
  | .short i => i.toInt
  | .long w => w.toInt

/-- An instruction of one FP32 result of latency 4 from two FP32 sources, as codes. -/
def ComputesF32 (i : Instr) (px : Option Pats) (d a b : Reg) (P : Nat → Nat → Nat → Prop) : Prop :=
  Computes i [srcA px a 1 (some tagsF32), srcB px b 1 (some tagsF32)] d.val 1 (some (lat px 4))
    (Gives fun v rs => ∃ r : Word, rs = [(r, .f32)] ∧ P (argW v 0).toNat (argW v 1).toNat r.toNat)

/-- An instruction of two packed elements from two sources. -/
def ComputesHalf (i : Instr) (px : Option Pats) (d a b : Reg) (m : Half) (P : Nat → Nat → Nat → Prop) : Prop :=
  Computes i [srcA px a 1 (some [halfTag m]), srcB px b 1 (some [halfTag m])] d.val 1 (some (lat px 4))
    (Gives fun v rs => ∃ r : Word, rs = [(r, halfTag m)] ∧
      ∀ j < 2, P (halfElem (argW v 0) j) (halfElem (argW v 1) j) (halfElem r j))

/-- k is the magnitude code nearest to the square root of v: v lies between the squares of the points half way to the codes on
either side, and of two equally near codes k is the even one. -/
def FloatFmt.NearestRoot (f : FloatFmt) (v : ℚ) (k : Nat) : Prop :=
  k ≤ f.maxCode ∧ ∀ j ≤ f.maxCode + 1,
    (j < k → ((f.mag j + f.mag k) / 2) ^ 2 < v ∨ ((f.mag j + f.mag k) / 2) ^ 2 = v ∧ k % 2 = 0) ∧
    (k < j → v < ((f.mag j + f.mag k) / 2) ^ 2 ∨ v = ((f.mag j + f.mag k) / 2) ^ 2 ∧ k % 2 = 0)

/-- The algebraic functions of an input that is no special one are correctly rounded (08 R189). -/
def TransRounded (t : Trans) (ftz : Bool) (a : Num) (r : Word) : Prop :=
  a.finite = true →
    (t = .rcp → a.val ≠ 0 → ∃ c, FloatFmt.fp32.RoundsTo RMode.rn false (1 / a.val) c ∧ r.toNat = FloatFmt.fp32.flush ftz c) ∧
    (t = .rsq → 0 < a.val → FloatFmt.fp32.NearestRoot (1 / a.val) r.toNat) ∧
    (t = .sqrt → 0 < a.val → FloatFmt.fp32.NearestRoot a.val r.toNat)

/-- The special inputs of the transcendentals, and their exact values (08 R189). -/
def TransSpecial (t : Trans) (a : Num) (r : Word) : Prop :=
  (a = .nan → r = 0x7FC00000) ∧
  (a = .inf false → r = match t with
    | .rcp | .rsq => 0
    | .sqrt | .exp2 | .log2 => 0x7F800000
    | .sin | .cos => 0x7FC00000) ∧
  (a = .inf true → r = match t with
    | .rcp => 0x80000000
    | .exp2 => 0
    | _ => 0x7FC00000) ∧
  (a.isZero = true → r = match t with
    | .rcp => if a.neg then 0xFF800000 else 0x7F800000
    | .rsq => 0x7F800000
    | .sqrt | .sin => 0
    | .exp2 | .cos => 0x3F800000
    | .log2 => 0xFF800000) ∧
  (a.finite = true → a.val < 0 → t = .rsq ∨ t = .sqrt ∨ t = .log2 → r = 0x7FC00000) ∧
  (a.finite = true → ∀ n : ℤ, a.val = n → (t = .exp2 → -126 ≤ n → n ≤ 127 → r.toNat = (n + 127).toNat * 2 ^ 23) ∧
    (t = .exp2 → 128 ≤ n → r = 0x7F800000) ∧ (t = .exp2 → n ≤ -150 → r = 0) ∧
    (t = .sin → r = 0) ∧ (t = .cos → r = if n % 2 = 0 then 0x3F800000 else 0xBF800000)) ∧
  (a.finite = true → ∀ n : ℤ, a.val = n + 1 / 2 →
    (t = .cos → r = 0) ∧ (t = .sin → r = if n % 2 = 0 then 0x3F800000 else 0xBF800000)) ∧
  (a.finite = true → t = .log2 → (a.val = 1 → r = 0) ∧ ∀ n : ℤ, a.val = 2 ^ n → (f32 r).finite = true ∧ (f32 r).val = n)

/-- An instruction of variable latency: a transcendental of an FP32 source. -/
def ComputesTrans (t : Trans) (i : Instr) (px : Option Pats) (d a : Reg) (ftz : Bool) : Prop :=
  Computes i [srcA px a 1 (some tagsF32)] d.val 1 none
    (Gives fun v rs => ∃ r : Word, rs = [(r, .f32)] ∧ r = transOp t ftz (argW v 0) ∧
      TransSpecial t (FloatFmt.fp32.reads ftz (argW v 0).toNat) r ∧
      TransRounded t ftz (FloatFmt.fp32.reads ftz (argW v 0).toNat) r)

/-- A code of S10 in the one form that producers write: zero, or an exponent above 0 (03 R79). -/
def IsS10 (c : Nat) : Prop := c = 0 ∨ 16 ≤ c ∧ c ≤ 0x3FF

/-- The code of S10 above c. -/
def s10Next (c : Nat) : Nat := if c = 0 then 16 else c + 1

/-- c is the largest code of S10 not above x. -/
def S10Below (x : ℚ) (c : Nat) : Prop := IsS10 c ∧ (s10Decode c).val ≤ x ∧ ∀ j, IsS10 j → (s10Decode j).val ≤ x → j ≤ c

/-- The code c of S10 to which a positive number rounds (03 R79, R81, R85, R86). A tie takes the even code, and zero before the
least other value (log 22). -/
def S10Rounds (r : RMode) (x : ℚ) (c : Nat) : Prop :=
  IsS10 c ∧
  match r.mode with
  | .rn => ∀ j, IsS10 j → j ≠ c → |(s10Decode c).val - x| < |(s10Decode j).val - x| ∨
      |(s10Decode c).val - x| = |(s10Decode j).val - x| ∧ c % 2 = 0 ∧ j ≠ 0
  | .rz | .rd => S10Below x c
  | .ru => (x ≤ (s10Decode 0x3FF).val → x ≤ (s10Decode c).val ∧ ∀ j, IsS10 j → x ≤ (s10Decode j).val → c ≤ j) ∧
      ((s10Decode 0x3FF).val < x → c = 0x3FF)
  | .rdi => ∃ a, S10Below x a ∧ (a = 0x3FF → c = 0x3FF) ∧
      (a ≠ 0x3FF → c = if (r.dither : ℤ) <
        ⌊32 * ((x - (s10Decode a).val) / ((s10Decode (s10Next a)).val - (s10Decode a).val))⌋ then s10Next a else a)

/-- The code c that a narrow format gives a number, with or without .sat (08 R191, 03 R79, R85). S10 has no sign: what is not
positive is 0. -/
def Narrows (m : NFmt) (r : RMode) (sat : Bool) (x : Num) (c : Nat) : Prop :=
  if m = .sc then
    (x = .nan → c = 0) ∧ (x = .inf false → c = 0x3FF) ∧ (x = .inf true → c = 0) ∧ (x.finite = true → x.val ≤ 0 → c = 0) ∧
      (x.finite = true → 0 < x.val → S10Rounds r x.val c)
  else m.float.Delivers r sat false false x c

/-- The FP32 pattern r is exactly the number x of a narrower format (08 R191, R194). -/
def Widens (x : Num) (r : Word) : Prop :=
  (x = .nan → r = 0x7FC00000) ∧ (∀ s, x = .inf s → r = if s then 0xFF800000 else 0x7F800000) ∧
  (x.finite = true → (f32 r).finite = true ∧ (f32 r).val = x.val ∧ (f32 r).neg = x.neg)

/-- n is a rational rounded to an integer (03 R81, R82, R86). -/
def IntRounds (r : RMode) (x : ℚ) (n : ℤ) : Prop :=
  match r.mode with
  | .rn => |x - n| ≤ 1 / 2 ∧ (|x - n| = 1 / 2 → n % 2 = 0)
  | .rz => n = if x < 0 then -⌊-x⌋ else ⌊x⌋
  | .ru => n = ⌈x⌉
  | .rd => n = ⌊x⌋
  | .rdi => |n| = (if (r.dither : ℤ) < ⌊32 * (|x| - ⌊|x|⌋)⌋ then ⌊|x|⌋ + 1 else ⌊|x|⌋) ∧ (n ≠ 0 → (n < 0 ↔ x < 0))

/-- n is what an integer format of a range holds of a number (03 R85). -/
def IntHolds (r : RMode) (lo hi : ℤ) (x : Num) (n : ℤ) : Prop :=
  (x = .nan → n = 0) ∧ (∀ s, x = .inf s → n = if s then lo else hi) ∧
  (x.finite = true → ∃ k, IntRounds r x.val k ∧ n = max lo (min hi k))

/-- A CVT: its sources, its destination group, and its result; its thread's dither phase advances under .rdi (03 R87). -/
def Converts (i : Instr) (px : Option Pats) (srcs : List Src) (d n : Nat) (r : Rnd)
    (P : Thread → List (List RegVal) → List RegVal → Prop) : Prop :=
  Does i { srcs := srcs, dest := d, regs := n, latency := some (lat px 5)
           result := fun _ _ _ t v rs => P t v rs
           thread := fun _ _ _ t _ => { t with phase := if r = .rdi then (t.phase + 1) % 32 else t.phase } }

/-- The value at a node of the tree of 03 R94 over lane positions, level l, node i: absent where every position is, one value
passed on where the other is absent (08 R197), else one operation. -/
def TreeValue {α : Type} (node : α → α → α → Prop) (pass : α → α) (v : Nat → Option α) : Nat → Nat → Option α → Prop
  | 0, i, r => r = v i
  | l + 1, i, r => ∃ a b, TreeValue node pass v l (2 * i) a ∧ TreeValue node pass v l (2 * i + 1) b ∧
      match a, b with
      | none, none => r = none
      | some x, none => r = some (pass x)
      | none, some y => r = some (pass y)
      | some x, some y => ∃ z, r = some z ∧ node x y z

/-- The operation of a node on two codes. -/
def NodeIs (f : FloatFmt) (c : Combine) (ftz : Bool) (r : Rnd) (x y z : Nat) : Prop :=
  match c with
  | .add => f.IsSum r ftz x y z
  | .min => f.IsMinMax false ftz x y z
  | .max => f.IsMinMax true ftz x y z

/-- The float add of the register-window configuration: the exact sum of the values present, rounded once (08 R200). -/
def ExactSumIs (f : FloatFmt) (ftz : Bool) (r : Rnd) (xs : List Nat) (z : Nat) : Prop :=
  let ns := xs.map (f.reads ftz)
  (xs = [] → z = f.signBit true) ∧
  ((.nan ∈ ns ∨ .inf false ∈ ns ∧ .inf true ∈ ns) → z = f.nan) ∧
  (∀ s, .nan ∉ ns → .inf s ∈ ns → .inf (!s) ∉ ns → z = f.signBit s + (f.maxCode + 1)) ∧
  (xs ≠ [] → (∀ n ∈ ns, n.finite = true) →
    ((ns.map Num.val).sum ≠ 0 → ∃ z0, f.RoundsTo (RMode.plain r) false (ns.map Num.val).sum z0 ∧ z = f.flush ftz z0) ∧
    ((ns.map Num.val).sum = 0 → z = f.signBit (r == .rd && ns.all Num.isZero && ns.any Num.neg && !ns.all Num.neg)))

/-- The combination z of the codes at the lane positions (03 R94, 08 R197, R200). -/
def FloatCombined (window : Bool) (f : FloatFmt) (c : Combine) (ftz : Bool) (r : Rnd) (l : List (Option Nat)) (z : Nat) : Prop :=
  (window = true → c = .add → ExactSumIs f ftz r (l.filterMap id) z) ∧
  (window = false ∨ c ≠ .add → ∃ o, TreeValue (NodeIs f c ftz r) (floatPass f ftz) (fun i => l.getD i none) 5 0 o ∧
    z = o.getD (floatIdentity f c))

/-- The combination of the integers present; the identity where there is none (03 R94, 08 R196). -/
def IntCombined (c : Combine) (t : XTy) (xs : List Word) (z : Word) : Prop :=
  match c with
  | .add => z = xs.sum
  | .min => (xs = [] → z = intIdentity c t) ∧ (xs ≠ [] → z ∈ xs) ∧ ∀ x ∈ xs, if t = .s32 then z.toInt ≤ x.toInt else z.toNat ≤ x.toNat
  | .max => (xs = [] → z = intIdentity c t) ∧ (xs ≠ [] → z ∈ xs) ∧ ∀ x ∈ xs, if t = .s32 then x.toInt ≤ z.toInt else x.toNat ≤ z.toNat

/-- The combination of the words at the lane positions: packed types combine each element by itself (08 R196). -/
def Combined (window : Bool) (t : XTy) (c : Combine) (ftz : Bool) (r : Rnd) (l : List (Option Word)) (z : Word) : Prop :=
  match t with
  | .s32 | .n32 => IntCombined c t (l.filterMap id) z
  | .f32 => FloatCombined window .fp32 c ftz r (l.map fun x => x.map BitVec.toNat) z.toNat
  | .f16 => ∀ j < 2, FloatCombined window .fp16 c ftz r (l.map fun x => x.map fun w => halfElem w j) (halfElem z j)
  | .bf16 => ∀ j < 2, FloatCombined window .bf16 c ftz r (l.map fun x => x.map fun w => halfElem w j) (halfElem z j)

/-- A reduction or a scan: every member reads its source, and its result combines the lanes that `keep` keeps (08 R196 to
R198). -/
def Reduces (i : Instr) (px : Option Pats) (d a : Reg) (t : XTy) (c : Combine) (ftz : Bool) (r : Rnd) (keep : Thread → Nat → Bool) :
    Prop :=
  Computes i [srcA px a 1 (some (crossTags t))] d.val 1 (some (lat px 10)) fun s is _ th _ rs =>
    ∃ z, rs = [(z, crossTag t)] ∧ Combined s.pkg.wincfg t c ftz r
      ((laneValues s is.members (srcA px a 1 none)).mapIdx fun i v => if keep th i then v else none) z

/-- The value that the member in lane j contributes, if there is one (08 R198). -/
def laneWord (s : State) (is : Issue) (px : Option Pats) (a : Reg) (j : Nat) : Option Word :=
  (laneValues s is.members (srcA px a 1 none)).getD j none

/-- The condition of the member in lane j holds. -/
def laneTrue (s : State) (is : Issue) (px : Option Pats) (a : Reg) (j : Nat) : Bool :=
  (laneWord s is px a j).any fun w => w != 0

/-- A member sits in lane j. -/
def laneHas (s : State) (is : Issue) (j : Nat) : Bool := decide (j < 32) && (memberIn s is.members j).isSome

/-- A condition as a result: 1 where it holds and else 0 (03 R70). -/
def Flag (p : Prop) (z : Word) : Prop := (p → z = 1) ∧ (¬ p → z = 0)

/-- A vote, election or rank of latency 6: one register with tag N32 (08 R199). -/
def Votes (i : Instr) (px : Option Pats) (d : Reg) (a : Option Reg) (P : State → Issue → Thread → Word → Prop) : Prop :=
  Does i { srcs := (a.map fun r => srcA px r 1 none).toList, dest := d.val, regs := 1, latency := some (lat px 6)
           ready := fun _ _ _ t _ => t.lane < 32
           result := fun s is _ t _ rs => ∃ z, rs = [(z, .n32)] ∧ P s is t z }

/-- The other threads are as before. -/
def OthersKept (s s' : State) (k : FrameRef) : Prop := ∀ j, j ≠ k → s'.threads.get j = s.threads.get j

/-- The registers that a load of n bytes gives: a little-endian value with tag RAW (09 R212, R215). -/
def RawValue (z : Size) (bs : List Byte) (rs : List RegVal) : Prop :=
  rs.length = z.regs ∧ (∀ r ∈ rs, r.2 = .raw) ∧ groupNat rs = leNat bs % 2 ^ (32 * z.regs)

/-- The registers that a typed load gives: signed, unsigned or packed, with the tag of its type (03 R76, R80). -/
def TypedValue (ty : LdTy) (bs : List Byte) (rs : List RegVal) : Prop :=
  rs.length = ty.regs ∧ (∀ r ∈ rs, r.2 = typeTag ty) ∧
  match ty with
  | .s8 => argZ [rs] 0 = signExt (leNat bs) 8 % 2 ^ 32
  | .s16 => argZ [rs] 0 = signExt (leNat bs) 16 % 2 ^ 32
  | .e3 | .e2 | .sc => groupNat rs = leNat bs % 2 ^ 30
  | _ => groupNat rs = leNat bs % 2 ^ (32 * ty.regs)

/-- A thread after an access to a place: one to another core's scratchpad is remembered (01 R53). -/
def Thread.accessed (k : FrameRef) (p : Place) (t : Thread) : Thread :=
  match p with
  | .spad g => if g = coreOf k then t else { t with group := t.group.map fun m => { m with foreign := true } }
  | _ => t

/-- A load is in flight: its registers wait for the result, which stands with the load, and hold what they held (05 R107). `via` is
the port of a load from another chip, and its address (20 R400). -/
def LoadInFlight (s b s' : State) (is : Issue) (k : FrameRef) (t : Thread) (d : Nat) (rs : List RegVal) (w : Option Nat)
    (via : Option (Nat × Nat) := none) : Prop :=
  s' = { b with threads := s'.threads, nextId := b.nextId + 1, issue := none } ∧ OthersKept s s' k ∧
  Continues s s' is k
    { t with loads := t.loads ++ [⟨b.nextId, rs.mapIdx fun i r => (t.index (d + i), r), w, via⟩],
             pend := t.pend ++ rs.mapIdx fun i _ => (t.index (d + i), b.nextId) } (nextPc is.inst)

/-- Where an access of s, c or k goes, if its offset lies in the extent (09 R204 to R206). -/
def spadPlace (off : Int) (_ : State) (k : FrameRef) (_ : Thread) (v : List (List RegVal)) : Option (Place × Nat) :=
  let e := argZ v 0 + off
  if 0 ≤ e ∧ e < 0x40000 then some (.spad (coreOf k), e.toNat) else none

def vaultPlace (off : Int) (_ : State) (k : FrameRef) (_ : Thread) (v : List (List RegVal)) : Option (Place × Nat) :=
  let e := argZ v 0 + off
  if 0 ≤ e ∧ e < 0x800000 then some (.vault (clusterOf (coreOf k)), e.toNat) else none

def clusterPlace (b : CSel) (s : State) (k : FrameRef) (t : Thread) (v : List (List RegVal)) : Option (Place × Nat) :=
  let e := argZ v 0 + (selValue b v).2
  match selectCore s k t (selValue b v).1 with
  | none => none
  | some g => if 0 ≤ e ∧ e < 0x40000 then some (.spad g, e.toNat) else none

/-- A load of s, c or k at an aligned offset: the thread's own stores reach their places first, and the load reads n bytes
there (09 R212, R214, R215). -/
def LocalLoad (i : Instr) (srcs : List Src) (d : Reg) (n m : Nat)
    (place : State → FrameRef → Thread → List (List RegVal) → Option (Place × Nat)) (value : List Byte → List RegVal → Prop) : Prop :=
  ∀ s is k t v p off, Alone s is k t → Readable s is t srcs [(d.val, m)] v → place s k t v = some (p, off) → off % n = 0 →
    ((s.landStores k).wakeFor p).placeBad p off n = false →
    ∃ s' rs, exec i s = .next s' ∧ value (((s.landStores k).wakeFor p).placeRead p off n) rs ∧
      LoadInFlight s ((s.landStores k).wakeFor p) s' is k (t.accessed k p) d.val rs none

/-- A store to s, c or k at an aligned offset: it is in flight to its place with n bytes of the data, and nothing else but its
thread changes (09 R212, R215). -/
def LocalStore (i : Instr) (srcs : List Src) (n : Nat)
    (place : State → FrameRef → Thread → List (List RegVal) → Option (Place × Nat)) (data : List (List RegVal) → Nat) : Prop :=
  ∀ s is k t v p off, Alone s is k t → Readable s is t srcs [] v → place s k t v = some (p, off) → off % n = 0 →
    ∃ s', exec i s = .next s' ∧
      s' = { s.wakeFor p with threads := s'.threads, stores := s.stores ++ [⟨k, p, off, leBytes n (data v), 0⟩], issue := none } ∧
      OthersKept s s' k ∧ Continues s s' is k (t.accessed k p) (nextPc is.inst)

/-- A load of g at an aligned canonical address that translates: it takes the bytes that the read of the translated address
finds (09 R204, R212, 14 R321). -/
def GlobalLoad (i : Instr) (a d : Reg) (off : Int) (n m : Nat) (value : List Byte → List RegVal → Prop) : Prop :=
  ∀ s is k t v (va : Nat) s1 tr, Alone s is k t → Readable s is t [ownSrc a 2 (some tagsAddr)] [(d.val, m)] v →
    (va : Int) = ((argN v 0 : Int) + off) % 2 ^ 64 → va < 2 ^ 57 → va % n = 0 →
    (s.landStores k).translate (t.who k) va n .read = (s1, .ok tr) →
    (∀ s2 bs, tr.attr ≠ attrDevice → s1.globRead (coreOf k) tr n = (s2, some bs) →
      ∃ s' rs, exec i s = .next s' ∧ value bs rs ∧ LoadInFlight s s2 s' is k t d.val rs none) ∧
    (tr.attr = attrDevice → tr.pa < Config.devRegs → s1.bad tr.pa n = false →
      ∃ s' rs, exec i s = .next s' ∧ value (readBytes s1.mem tr.pa n) rs ∧ LoadInFlight s s1 s' is k t d.val rs none)

/-- An access of n bytes to a DEVICE page reaches this chip's own memory at an offset: device memory, or its own range of Causeway
(14 R313; 20 R399). -/
def State.ownDevice (s : State) (pa n off : Nat) : Prop :=
  pa < Config.devRegs ∧ off = pa ∨
  Config.causeway ≤ pa ∧ pa < Config.causeway + 8 * 2 ^ 40 ∧ (pa - Config.causeway) / 2 ^ 40 = s.pkg.chipid ∧
    off = (pa - Config.causeway) % 2 ^ 40 ∧ off + n ≤ s.capacity

/-- It reaches an offset of another chip's memory, which is present and holds it (20 R399, R400). -/
def State.peerDevice (s : State) (pa n chip off : Nat) : Prop :=
  Config.causeway ≤ pa ∧ pa < Config.causeway + 8 * 2 ^ 40 ∧ chip = (pa - Config.causeway) / 2 ^ 40 ∧ chip ≠ s.pkg.chipid ∧
    off = (pa - Config.causeway) % 2 ^ 40 ∧ ∃ cap, s.peers.get chip = some cap ∧ off + n ≤ cap

/-- It names a chip that is absent, or lies beyond its chip's capacity (20 R400). -/
def State.absentDevice (s : State) (pa n : Nat) : Prop :=
  Config.causeway ≤ pa ∧ pa < Config.causeway + 8 * 2 ^ 40 ∧
    let chip := (pa - Config.causeway) / 2 ^ 40
    let off := (pa - Config.causeway) % 2 ^ 40
    (chip = s.pkg.chipid → s.capacity < off + n) ∧ (chip ≠ s.pkg.chipid → ∀ cap, s.peers.get chip = some cap → cap < off + n)

/-- A Causeway port that is not down (20 R400). -/
def State.portUp (s : State) : Prop := ∃ p < s.pkg.ports.length, s.pkg.ports.getD p 0 ≠ 0

/-- A load of g from a DEVICE page (12 R293; 20 R399, R400): it goes to its target past L1. What another chip answers is a free
value (log 16), and the load stays with the port that carries it until its result comes; an absent target ends the thread with CW_ABSENT, and one behind ports that are all down with CW_LINK. -/
def DeviceLoad (i : Instr) (a d : Reg) (off : Int) (n m : Nat) (value : List Byte → List RegVal → Prop) : Prop :=
  ∀ s is k t v (va : Nat) s1 tr, Alone s is k t → Readable s is t [ownSrc a 2 (some tagsAddr)] [(d.val, m)] v →
    (va : Int) = ((argN v 0 : Int) + off) % 2 ^ 64 → va < 2 ^ 57 → va % n = 0 →
    (s.landStores k).translate (t.who k) va n .read = (s1, .ok tr) → tr.attr = attrDevice →
    (∀ o, s1.ownDevice tr.pa n o → s1.bad o n = false →
      ∃ s' rs, exec i s = .next s' ∧ value (readBytes s1.mem o n) rs ∧ LoadInFlight s s1 s' is k t d.val rs none) ∧
    (∀ chip o, s1.peerDevice tr.pa n chip o → s1.portUp →
      let b := { s1 with free := s1.free + n, outputs := s1.outputs ++ [.remoteLoad chip o n] }
      ∃ s' rs port, exec i s = .next s' ∧ value ((span s1.free n).map Config.freeByte) rs ∧ s1.pkg.ports.getD port 0 ≠ 0 ∧
        LoadInFlight s b s' is k t d.val rs none (some (port, va))) ∧
    ((s.frames.get k).isSome = true →
      (s1.absentDevice tr.pa n → ∃ s', exec i s = .next s' ∧ Faulted s' k 0x0070 va) ∧
      (∀ chip o, s1.peerDevice tr.pa n chip o → ¬ s1.portUp → ∃ s', exec i s = .next s' ∧ Faulted s' k 0x0071 va))

/-- What the bank of register j holds in a cycle, counting each write from its own completion (08 R202; 05 R106): the value of the
newest write that has completed before the cycle; what stood before the oldest of those under way; the register itself where none is
dated. -/
def BankShows (t : Thread) (cycle j : Nat) (x : RegVal) : Prop :=
  ((∀ b ∈ t.bank, b.reg ≠ j) → x = t.reg j) ∧
  (∀ pre b post, t.bank = pre ++ b :: post → b.reg = j → b.done < cycle → (∀ y ∈ pre, y.reg = j → cycle ≤ y.done) → x = b.val) ∧
  ∀ pre b post, t.bank = pre ++ b :: post → b.reg = j → (∀ y ∈ post, y.reg ≠ j) → (∀ y ∈ t.bank, y.reg = j → cycle ≤ y.done) →
    x = b.old

/-- A read of the register window at an offset (08 R201 to R203): context `c` of lane `l` of partition `q` of the reader's core,
register j of its allocation. An empty context and a register beyond the allocation read as 0 and set EMPTY and BEYOND; else the
value is that of the latest write completed before the cycle of the issue, which log 16 names, and WOKEN is a free value. -/
def WindowValue (s : State) (g q l c j : Nat) (w : Word) (stat : Nat) : Prop :=
  (s.inContext g q l c = none → w = 0 ∧ stat = 1) ∧
  ∀ k t, s.inContext g q l c = some (k, t) →
    (t.alloc ≤ j → w = 0 ∧ stat = 2) ∧
    (j < t.alloc → (stat = 0 ∨ stat = 4) ∧ ∃ x, BankShows t s.cycle j x ∧ w = x.1)

/-- An access to the range of the register window that is no aligned untyped 32-bit load ends the thread with WINDOW_ACCESS and
the offset (08 R201). -/
def WindowAccess (i : Instr) (srcs : List Src) (dst : List (Nat × Nat)) (e : List (List RegVal) → Int) (ok : Int → Prop) : Prop :=
  FaultsWith i srcs dst (fun s _ _ _ v => s.pkg.wincfg = true ∧ 0x400000 ≤ e v ∧ e v < 0x800000 ∧ ok (e v)) 0x0039 fun v => (e v).toNat

/-- A byte of a place. -/
def State.placeByte (s : State) (p : Place) (a : Nat) : Byte :=
  match p with
  | .spad g => readByte (s.core g).spad a
  | .vault cl => readByte (s.cluster cl).vault a
  | .home => readByte s.mem a
  | .remote _ _ _ => 0

/-- The core holds a translation of an address for an execution context (14 R321, R323). -/
def State.translated (s : State) (who : Who) (va : Nat) : Prop :=
  ((s.core who.gcore).tlb.find? fun t => t.root == (s.ctx who.ctxid).root && decide (t.base ≤ va) && decide (va < t.base + t.size)).isSome = true

/-- Byte i of a copy, in row order, is read at address a of place p: an offset within the extent of s, c or k, or an address of g
that translates to memory held at home (09 R224, R226). -/
def CopyFrom (s : State) (core : Nat) (j : CopyJob) (i : Nat) (p : Place) (a : Nat) : Prop :=
  let x : Int := j.src + j.sstride * (i / j.len : Nat) + (i % j.len : Nat)
  match j.sspace with
  | .s => p = .spad core ∧ (a : Int) = x ∧ a < 0x40000
  | .c => p = .spad j.score ∧ (a : Int) = x ∧ a < 0x40000
  | .k => p = .vault (clusterOf core) ∧ (a : Int) = x ∧ a < 0x800000
  | .g | .append => p = .home ∧ ∃ (va : Nat) (tr : Tr), (va : Int) = x ∧ va < 2 ^ 57 ∧ s.translated ⟨core, j.ctxid, j.launch, false⟩ va ∧
      s.translate ⟨core, j.ctxid, j.launch, false⟩ va 1 .read = (s, .ok tr) ∧ tr.attr ≠ attrDevice ∧ a = tr.pa

/-- Byte i of a copy is written at address a of place p for destination core `dest`: rows of an append destination stand packed
behind its reservation (09 R226, R227). -/
def CopyTo (s : State) (core dest : Nat) (j : CopyJob) (i : Nat) (p : Place) (a : Nat) : Prop :=
  let x : Int := j.dst + j.dstride * (i / j.len : Nat) + (i % j.len : Nat)
  match j.dspace with
  | .s | .c => p = .spad dest ∧ (a : Int) = x ∧ a < 0x40000
  | .k => p = .vault (clusterOf core) ∧ (a : Int) = x ∧ a < 0x800000
  | .g => p = .home ∧ ∃ (va : Nat) (tr : Tr), (va : Int) = x ∧ va < 2 ^ 57 ∧ s.translated ⟨core, j.ctxid, j.launch, false⟩ va ∧
      s.translate ⟨core, j.ctxid, j.launch, false⟩ va 1 .write = (s, .ok tr) ∧ tr.attr ≠ attrDevice ∧ a = tr.pa
  | .append => p = .home ∧ ∃ page, j.page = some page ∧ a = page + j.reserved + i

/-- 09 R225 refuses a copy's record: a reserved field is set, a field lies outside its range, a space is unassigned, DMASK does not fit
DSPACE, a selector or a bit of DMASK names no core, or the meet that the copy counts down on its own core counts no bytes. -/
def CopyRefused (s : State) (k : FrameRef) (t : Thread) (r : List Byte) : Prop :=
  let w := leNat ((r.drop 32).take 4)
  let ss := w % 2 ^ 3
  let ds := w / 2 ^ 3 % 2 ^ 3
  let mask := w / 2 ^ 14 % 2 ^ 8
  2 ^ 57 ≤ leNat (r.take 8) ∨ 2 ^ 57 ≤ leNat ((r.drop 8).take 8) ∨ leNat ((r.drop 19).take 1) ≠ 0 ∨ leNat ((r.drop 22).take 2) ≠ 0 ∨
  2 ^ 22 ≤ w ∨ leNat ((r.drop 36).take 20) ≠ 0 ∨ leNat ((r.drop 16).take 3) = 0 ∨ leNat ((r.drop 20).take 2) = 0 ∨ 3 < ss ∨ 4 < ds ∨
  (ds = 2 ∧ mask = 0) ∨ (ds ≠ 2 ∧ mask ≠ 0) ∨ (ss = 2 ∧ selectCore s k t (w / 2 ^ 11 % 2 ^ 3) = none) ∨
  (∃ j < 8, testBit mask j = true ∧ selectCore s k t j = none) ∨
  ((ds ≠ 2 ∨ ∃ j < 8, testBit mask j = true ∧ selectCore s k t j = some (coreOf k)) ∧
    s.countsBytes (coreOf k) (w / 2 ^ 6 % 2 ^ 5) = false)

/-- A byte of a line of L1 as a read of n bytes finds it: from the line when it is current and holds them all, else dirty bytes
from the line and the others from memory (12 R293, R295). -/
def cachedByte (s : State) (g pa n i : Nat) : Byte :=
  match (s.core g).l1.get (pa / 128) with
  | none => readByte s.mem (pa + i)
  | some l =>
    if (l.stale (s.core g).gen = false ∧ ∀ j < n, l.holds.getLsbD (pa % 128 + j) = true) ∨ l.dirty.getLsbD (pa % 128 + i) = true
    then l.data.getD (pa % 128 + i) 0 else readByte s.mem (pa + i)

/-- A trap of an instruction of a thread issued alone: it enters state trapped at its context's handler, or ends with the trap's
code where it has none (07 R166). -/
def TrapsWith (i : Instr) (srcs : List Src) (dst : List (Nat × Nat))
    (when_ : State → Issue → FrameRef → Thread → List (List RegVal) → Prop) (code : Nat) (addr : List (List RegVal) → Nat) : Prop :=
  ∀ s is k t v, Alone s is k t → Readable s is t srcs dst v → when_ s is k t v →
    (t.trapped = false → s.handler k t ≠ 0 → ∃ s' u, exec i s = .next s' ∧ OnlyGroup s s' is ∧ s'.threads.get k = some u ∧
      u.trapped = true ∧ u.pc = s.handler k t ∧ u.trapcode = code ∧ u.trapaddr = addr v ∧ u.trapinst = is.word ∧
      u.resFirst = is.first ∧ u.resInst = is.inst ∧ u.pend = t.pend ∧ ∀ r, u.latest r = t.latest r) ∧
    ((s.frames.get k).isSome = true → t.trapped = true ∨ s.handler k t = 0 → ∃ s', exec i s = .next s' ∧ Faulted s' k code (addr v))

/-- The faults and traps of an access of n bytes to s, c or k whose offset is e: out of its extent it ends the thread, and
misaligned it traps, with the address of 09 R209 (09 R205, R214). A negative offset is shown modulo 2^57, which is the model's
choice (log 53). -/
def OffsetChecks (i : Instr) (srcs : List Src) (dst : List (Nat × Nat)) (extent n : Nat)
    (ok : State → FrameRef → Thread → List (List RegVal) → Prop) (e at_ : List (List RegVal) → Int) : Prop :=
  FaultsWith i srcs dst (fun s _ k t v => ok s k t v ∧ (e v < 0 ∨ (extent : Int) ≤ e v)) 0x0031 (fun v => wrap (at_ v) 57) ∧
  TrapsWith i srcs dst (fun s _ k t v => ok s k t v ∧ 0 ≤ e v ∧ e v < extent ∧ e v % n ≠ 0) 0x0101 (fun v => wrap (at_ v) 57)

/-- The faults and traps of an access of n bytes to g at base + off (09 R205, R214; 14 R321): an address beyond 57 bits ends the
thread with BAD_ADDR, a misaligned one traps, and one that does not translate ends it with the walk's code. -/
def GlobalChecks (i : Instr) (srcs : List Src) (dst : List (Nat × Nat)) (n : Nat) (off : Int) (kind : Kind) (landed : Bool) : Prop :=
  FaultsWith i srcs dst (fun _ _ _ _ v => 2 ^ 57 ≤ globAddr (argN v 0) off) 0x0030 (fun v => globAddr (argN v 0) off) ∧
  TrapsWith i srcs dst (fun _ _ _ _ v => globAddr (argN v 0) off < 2 ^ 57 ∧ globAddr (argN v 0) off % n ≠ 0) 0x0101
    (fun v => globAddr (argN v 0) off) ∧
  ∀ s is k t v s1 c, Alone s is k t → (s.frames.get k).isSome = true → Readable s is t srcs dst v →
    globAddr (argN v 0) off < 2 ^ 57 → globAddr (argN v 0) off % n = 0 →
    (if landed then s.landStores k else s).translate (t.who k) (globAddr (argN v 0) off) n kind = (s1, .error c) →
    ∃ s', exec i s = .next s' ∧ Faulted s' k c (globAddr (argN v 0) off)

/-- The address of a table's entry for an address at a level (14 R317). -/
def tableSlot (t level va : Nat) : Nat := t + 8 * (va / 2 ^ (9 * level + 3) % 512)

/-- A valid table entry of a level, and a valid leaf, that break no condition of 14 R318. -/
def IsTable (level e : Nat) : Prop := e % 4 = 1 ∧ 2 ≤ level ∧ e / 2 ^ 2 % 2 ^ 10 = 0 ∧ e / 2 ^ 52 % 2 ^ 12 = 0
def IsLeaf (level e : Nat) : Prop :=
  e % 4 = 3 ∧ level ≤ 3 ∧ e / 2 ^ 2 % 8 ≤ 4 ∧ e / 2 ^ 11 % 2 = 0 ∧ e / 2 ^ 53 % 2 ^ 11 = 0 ∧ e / 2 ^ 5 % 4 ≠ 3 ∧
    (e / 2 ^ 5 % 4 = 0 → e / 2 ^ 7 % 4 = 0) ∧ (e / 2 ^ 5 % 4 = 2 → e / 2 ^ 7 % 4 = 0 ∧ (e / 2 ^ 2 % 8 = 2 ∨ e / 2 ^ 2 % 8 = 3)) ∧
    leafPa e % 2 ^ (9 * level + 3) = 0

/-- The walk of an address comes to the table at address t of a level, from the root through valid table entries (14 R317,
R321). -/
inductive WalkComes (s : State) (die root va : Nat) : Nat → Nat → Prop
  | root : s.tableOk root = true → WalkComes s die root va 5 root
  | down (level t e : Nat) : WalkComes s die root va (level + 1) t → s.walkRead die (tableSlot t (level + 1) va) = some e →
      IsTable (level + 1) e → s.tableOk (leafPa e) = true → WalkComes s die root va level (leafPa e)

/-- A physical address lies in a region that its leaf may reach, a user leaf maps no frame area, and a die-local leaf names a present
die (14 R313, R314; 01 R43). -/
def State.reachable (s : State) (e pa : Nat) : Prop :=
  let attr := e / 2 ^ 2 % 8
  (pa < s.pkg.fwbase ∧ (e / 2 ^ 52 % 2 = 1 ∨
      ∀ x ∈ s.cores, ∀ b, x.2.frameBase = some b → ¬ (b ≤ pa ∧ pa < b + 64 * x.2.frameLim)) ∨
    s.pkg.fwbase ≤ pa ∧ pa < s.capacity ∧ e / 2 ^ 52 % 2 = 1 ∧ (attr = 0 ∨ attr = 1 ∨ attr = 4) ∨
    s.pkg.fwbase ≤ pa ∧ s.capacity ≤ pa ∧ Config.devRegs ≤ pa ∧ pa < 2 ^ 52 ∧ attr = 4) ∧
  (e / 2 ^ 5 % 4 = 1 → e / 2 ^ 7 % 4 < s.fuses.dies)

/-- An attribute refuses a kind of access with a code: of an APPEND page, as its record is sealed or not (09 R213, R217, R222;
14 R321). -/
def Refuses (kind : Kind) (attr : Nat) (sealed : Bool) (c : Nat) : Prop :=
  (kind = .fetch ∧ attr = 4 ∧ c = 0x0232) ∨
  ((kind = .write ∨ kind = .atomic) ∧ (attr = 3 ∨ attr = 2 ∧ sealed = true) ∧ c = 0x0033) ∨
  ((kind = .write ∨ kind = .atomic) ∧ attr = 2 ∧ sealed = false ∧ c = 0x0032) ∨
  (kind = .atomic ∧ attr = 4 ∧ c = 0x0037) ∨ (kind = .append ∧ attr ≠ 2 ∧ c = 0x0035)

/-- What a translation through leaf e answers, where the bytes that it maps start at b and have a size, its own page has size
`own`, and die-local bytes lie on a die (14 R314, R321, R322). -/
def LeafAnswers (s : State) (who : Who) (va : Nat) (kind : Kind) (e b size own die : Nat) (r : Except Nat Tr) : Prop :=
  let pa := b + va % size
  let page := pa / own * own
  let attr := e / 2 ^ 2 % 8
  let place := e / 2 ^ 5 % 4
  let sealed := (s.appends.getD page AppendRec.reset).sealed
  (e / 2 ^ 52 % 2 = 1 → who.trapped = false → r = .error 0x0230) ∧
  ((e / 2 ^ 52 % 2 = 1 → who.trapped = true) →
    (¬ s.reachable e pa → r = .error 0x0231) ∧
    (s.reachable e pa → (∀ c, Refuses kind attr sealed c → r = .error c) ∧
      ((∀ c, ¬ Refuses kind attr sealed c) →
        r = .ok ⟨pa, attr, if place = 1 then die else s.homeDie pa, place, va / own * own, page, own⟩)))

/-- The group of a contiguous leaf e at address a of a level is consistent and starts at b (14 R320). -/
def GroupHolds (s : State) (level a e b : Nat) : Prop :=
  let n := if level = 3 then 4 else 16
  let first := a - a % (8 * n)
  b % (n * 2 ^ (9 * level + 3)) = 0 ∧
  ∀ i < n, let x := readNat s.mem (first + 8 * i) 8
    (first + 8 * i = a ∨ s.bad (first + 8 * i) 8 = false) ∧ IsLeaf level x ∧ x / 2 ^ 9 % 2 = 1 ∧ x % 2 ^ 11 = e % 2 ^ 11 ∧
      x / 2 ^ 52 % 2 = e / 2 ^ 52 % 2 ∧ leafPa x = b + i * 2 ^ (9 * level + 3)

/-- A write to the scratchpad of core g alone: n bytes from address a hold `f` of their index, and every other byte what it held. -/
def SpadWritten (s s' : State) (g a n : Nat) (f : Nat → Byte) : Prop :=
  ∀ c x, readByte (s'.core c).spad x = if c = g ∧ a ≤ x ∧ x < a + n then f (x - a) else readByte (s.core c).spad x

/-- A meet of a core is as said; the core's other meets and the other cores' are as before. -/
def MeetBecomes (s s' : State) (g m : Nat) (x : Meet) : Prop :=
  s'.meet g m = some x ∧ ∀ g' m', (g' ≠ g ∨ m' ≠ m) → s'.meet g' m' = s.meet g' m'

/-- A phase of a meet is complete: its number has advanced, its arrivals are cleared, and every thread of the core that waited
in it goes on, with its FLOOR past the stamp (01 R49, 12 R299). -/
def PhaseCompleted (s s' : State) (g m : Nat) (x : Meet) (stamp : Nat) : Prop :=
  (∃ y, s'.meet g m = some y ∧ y.phase = (x.phase + 1) % 2 ^ 16 ∧ y.arrivals = 0 ∧ y.expected = false ∧ y.members = x.members ∧
    y.mode = x.mode ∧ y.past.get x.phase = some stamp) ∧
  ∀ j w, s.threads.get j = some w → coreOf j = g → w.susp = none → w.run = .meet m x.phase →
    (∃ u, s'.threads.get j = some u ∧ u.run = .ready ∧ u.wait = 0 ∧ testBit u.arrived m = false ∧ u.pc = w.pc ∧
      ∀ r, u.latest r = w.latest r) ∧
    ∀ f, s.frames.get j = some f → ∃ f', s'.frames.get j = some f' ∧ f'.floor = max f.floor (stamp + 1)

/-- The child record that a SPAWN makes (01 R30, R35; 12 R299). -/
def spawned (s : State) (k : FrameRef) (t : Thread) (f : Frame) (l : Fin 32) (v : List (List RegVal)) (range : Option (Nat × Nat)) :
    Child :=
  { args := (v.drop 1).flatten, alloc := 16 * (l.val + 1), check := t.check, range := range, parent := k, ordinal := f.nextseq,
    stamp := (s.outgoing k).timeOf k, launch := t.launch, lgroup := t.lgroup, ctxid := t.ctxid, handler := s.handler k t, grid := 0 }

/-- SPAWN or SPAWNR of a thread at an entry address: after the outgoing edge its child joins the open bin of its key, or opens the
lowest free one (log 54), and its frame counts it; with no room in its frame or no bin it is interlocked. The child of a thread that a
kill awaits is killed at once (01 R30, R31, R40; 09 R235, R236; 18 R387). -/
def Spawns (i : Instr) (srcs : List Src) (l : Fin 32) (range : List (List RegVal) → Option (Nat × Nat)) : Prop :=
  ∀ s is k t v f, Alone s is k t → Readable s is t srcs [] v → t.trapped = false → argN v 0 % 32 = 4 → argN v 0 < 2 ^ 57 →
    s.frames.get k = some f →
    (0xFFFFFF ≤ f.live → ∃ s', exec i s = .next s' ∧ OnlyGroup s s' is ∧ s'.threads.get k = some { t with held := true }) ∧
    (f.live < 0xFFFFFF →
    let b := s.outgoing k
    let c := s.core (coreOf k)
    let ch := spawned s k t f l v (range v)
    let after := fun (s' : State) => s'.mem = b.mem ∧ OthersKept s s' k ∧ Continues s s' is k t (nextPc is.inst) ∧
      s'.frames.get k = some { f with live := f.live + 1, nextseq := (f.nextseq + 1) % 2 ^ 28 } ∧
      ∀ j, j ≠ k → s'.frames.get j = s.frames.get j
    (t.dying = true → ∃ s', exec i s = .next s' ∧ after s' ∧ s'.cores = b.cores ∧
      s'.net = b.net ++ [.completion k f.nextseq ⟨.killed, FaultRec.none, ch.stamp⟩ (.core (coreOf k))]) ∧
    (t.dying = false → c.openBin (argN v 0) t.ctxid = none → ∀ n, c.freeBin = some n →
      ∃ s', exec i s = .next s' ∧ after s' ∧ (∀ j, j ≠ n → (s'.core (coreOf k)).bins.get j = c.bins.get j) ∧
        (s'.core (coreOf k)).bins.get n = some ⟨argN v 0, t.ctxid, true, [ch], c.binTimer, 0, s.cycle, false⟩) ∧
    (t.dying = false → ∀ n bin, c.openBin (argN v 0) t.ctxid = some n → c.bins.get n = some bin →
      ∃ s', exec i s = .next s' ∧ after s' ∧ (∀ j, j ≠ n → (s'.core (coreOf k)).bins.get j = c.bins.get j) ∧
        (bin.children.length ≠ 31 → (s'.core (coreOf k)).bins.get n = some { bin with children := bin.children ++ [ch] }) ∧
        (bin.children.length = 31 → (s'.core (coreOf k)).bins.get n =
          some { bin with children := bin.children ++ [ch], opened := false, timer := 0, order := s.cycle })) ∧
    (t.dying = false → c.openBin (argN v 0) t.ctxid = none → c.freeBin = none →
      ∃ s', exec i s = .next s' ∧ OnlyGroup s s' is ∧ s'.threads.get k = some { t with held := true }))

/-- The handle h names the entry j, whose state is x (09 R240). -/
def Names (s : State) (h j : Nat) (f : Future) (x : Option (BitVec 64)) : Prop :=
  j = h % 2 ^ 24 ∧ f = s.future j ∧ h / 2 ^ 24 ≠ 0 ∧ f.gen = h / 2 ^ 24 ∧ f.state = some x

/-- The handle h is stale: it names no entry made and not freed (09 R240). -/
def Stale (s : State) (h : Nat) : Prop :=
  h / 2 ^ 24 = 0 ∨ (s.future (h % 2 ^ 24)).gen ≠ h / 2 ^ 24 ∨ (s.future (h % 2 ^ 24)).state = none

/-- Every waiter of a future goes on, with a value and a status in the four registers that its FGET named (09 R242). -/
def Released (s s' : State) (ws : List FrameRef) (v status : Nat) : Prop :=
  ∀ w ∈ ws, ∀ t h d, s.threads.get w = some t → t.susp = none → t.run = .future h d →
    ∃ u, s'.threads.get w = some u ∧ u.run = .ready ∧ u.wait = 0 ∧ u.pc = t.pc ∧
      u.reg d = (BitVec.ofNat 32 v, .raw) ∧ u.reg (d + 1) = (BitVec.ofNat 32 (v / 2 ^ 32), .raw) ∧
      u.reg (d + 2) = (BitVec.ofNat 32 status, .n32) ∧ u.reg (d + 3) = (0, .n32) ∧
      ∀ r, r < d ∨ d + 4 ≤ r → u.latest r = t.latest r

/-- A future instruction that writes n registers and changes at most the entry j. -/
def FutureStep (s s' : State) (is : Issue) (k : FrameRef) (t : Thread) (d n : Nat) (rs : List RegVal) : Prop :=
  s'.frames = s.frames ∧ s'.cores = s.cores ∧ s'.mem = s.mem ∧
    ∃ u, s'.threads.get k = some u ∧ GoesTo s is t false (nextPc is.inst) u ∧ Holds t u d n rs

/-- None of the threads is suspended, so that what reaches them is written to no record. -/
def State.noneSuspended (s : State) (ks : List FrameRef) : Prop := ∀ k ∈ ks, ∀ t, s.threads.get k = some t → t.susp = none

/-- The entry that a command of a thread makes in its group's queue (10 R249, R256 to R258). -/
def commandEntry (s : State) (k : FrameRef) (t : Thread) (op : EngOp) : EngEntry :=
  { op := op, gcore := coreOf k, far := none, meet := 0, waiter := some k, step := 0, begun := false, stamp := s.timeOf k,
    launch := t.launch }

/-- The queues of a cluster's group after one entry has gone to the tail of queue q of cluster cl. -/
def Entered (b s' : State) (cl q : Nat) (e : EngEntry) : Prop :=
  ∀ c j, (s'.cluster c).queues.getD j [] = (b.cluster c).queues.getD j [] ++ if c = cl ∧ j = q then [e] else []

/-- A slot command: it takes a place in queue q of its group and its thread waits; with the queue full it is held (10 R249, R256
to R258). -/
def Commands (i : Instr) (srcs : List Src) (valid : List (List RegVal) → Prop) (q : List (List RegVal) → Nat)
    (op : List (List RegVal) → EngOp) : Prop :=
  Leads i srcs [] (fun s _ k t v => t.trapped = false ∧ valid v ∧ s.queueRoom (clusterOf (coreOf k)) (q v) = true)
    (fun s is k t v s' => s' = { s.landStores k with threads := s'.threads, clusters := s'.clusters, issue := none } ∧
      OthersKept s s' k ∧ Entered (s.landStores k) s' (clusterOf (coreOf k)) (q v) (commandEntry s k t (op v)) ∧
      Continues s s' is k { t with run := .engine .command } (nextPc is.inst)) ∧
  Leads i srcs [] (fun s _ k t v => t.trapped = false ∧ valid v ∧ s.queueRoom (clusterOf (coreOf k)) (q v) = false)
    (fun s is k t _ s' => OnlyGroup s s' is ∧ s'.threads.get k = some { t with held := true })

/-- The head of queue q of a cluster has been served and has left; the rotation goes on from the next queue (10 R255). -/
def Served (s s' : State) (cl q : Nat) : Prop :=
  (s'.cluster cl).rotor = (q + 1) % 16 ∧
    ∀ c j, (s'.cluster c).queues.getD j [] = if c = cl ∧ j = q then ((s.cluster c).queues.getD j []).drop 1 else (s.cluster c).queues.getD j []

/-- The thread of a command goes on, from the next cycle (10 R256 to R258; 12 R296). -/
def CommandDone (s s' : State) (w : Option FrameRef) : Prop :=
  (∀ j, w ≠ some j → s'.threads.get j = s.threads.get j) ∧
  ∀ k t, w = some k → s.threads.get k = some t → t.run = .engine .command → t.susp = none →
    s'.threads.get k = some { t with run := .ready, wait := 0, stall := max t.stall (s.cycle + 1) }

/-- The slots of a cluster: slot i is as said, and every other one as before. -/
def SlotBecomes (s s' : State) (cl i : Nat) (P : AccSlot → Prop) : Prop :=
  P ((s'.cluster cl).slot i) ∧ ∀ c j, (c ≠ cl ∨ j ≠ i) → (s'.cluster c).slot j = (s.cluster c).slot j

/-- c is the code that MSTORE writes for an element of a slot (10 R257; 03 R85 to R87). -/
def Stores (fmt : Nat) (r : RMode) (sat : Bool) (mode : IMode) (x : Word) (c : Nat) : Prop :=
  (fmt = 10 ∧ mode = .f32 ∨ fmt = 11 ∧ mode = .s32 → c = x.toNat) ∧
  (¬ (fmt = 10 ∧ mode = .f32 ∨ fmt = 11 ∧ mode = .s32) →
    (fmt = 7 → ∃ n, IntHolds r (-128) 127 (slotNum mode x) n ∧ signExt c 8 = n) ∧
    (fmt = 8 → ∃ n, IntHolds r (-8) 7 (slotNum mode x) n ∧ signExt c 4 = n) ∧
    (fmt = 11 → ∃ n, IntHolds r (-(2 ^ 31)) (2 ^ 31 - 1) (slotNum mode x) n ∧ signExt c 32 = n) ∧
    (fmt ∈ [0, 1, 2, 3, 4, 5, 6, 10] → (engFloat fmt).Delivers r sat false false (slotNum mode x) c))

/-- p is the exact sum of some numbers (03 R91, R92). -/
def Num.ListSum (ns : List Num) (p : Num) : Prop :=
  ((.nan ∈ ns ∨ .inf false ∈ ns ∧ .inf true ∈ ns) → p = .nan) ∧
  (∀ s, .nan ∉ ns → .inf s ∈ ns → .inf (!s) ∉ ns → p = .inf s) ∧
  ((∀ n ∈ ns, n.finite = true) → p.finite = true ∧ p.val = (ns.map Num.val).sum)

/-- p is the exact sum of the products A(m, k) B(k, n) over the positions of a K-step (03 R91, 10 R251). -/
def TileSumIs (s : State) (cl : Nat) (far : Option Nat) (d : TileDesc) (step m n : Nat) (p : Num) : Prop :=
  ∃ qs : List Num, qs.length = min d.k (128 * step + 128) - 128 * step ∧
    (∀ i < qs.length, Num.Product (s.tileA cl far d m (128 * step + i)) (s.tileB cl far d (128 * step + i) n) (qs.getD i .nan)) ∧
    Num.ListSum qs p

/-- An element of a slot after a K-step: the old value and the step's integer sum modulo 2^32, or the FP32 sum of the old value
and the rounded sum under the scales of the row and the step (03 R91, R93; 10 R251). -/
def TileElement (s : State) (cl : Nat) (far : Option Nat) (d : TileDesc) (step m n : Nat) (old new : Word) : Prop :=
  ∃ p, TileSumIs s cl far d step m n p ∧
    (d.iacc = true → d.afmt = 7 ∨ d.afmt = 8 → d.bfmt = 7 ∨ d.bfmt = 8 → ∃ z : ℤ, p.val = z ∧ new = old + BitVec.ofInt 32 z) ∧
    (d.iacc = false → ∃ c g e, FloatFmt.fp32.Delivers RMode.rn false false false p c ∧
      FloatFmt.fp32.IsProduct .rn false (s.tileScale cl far d.sa (m * d.steps + step)) (s.tileScale cl far d.sb step) g ∧
      FloatFmt.fp32.IsProduct .rn false c g e ∧ FloatFmt.fp32.IsSum .rn false old.toNat e new.toNat)

/-- q of a window of 16 stream bits: its hash's four nibbles, less 30 (03 R90). -/
def HashQ (z : Nat) : ℤ :=
  let h := (z * 0xB5A3 + 0x3C61) % 2 ^ 16
  ((h % 16 + h / 16 % 16 + h / 256 % 16 + h / 4096 : ℕ) : ℤ) - 30

/-- The offset of the window of weight i, and the bits of a block's stream (03 R88). -/
def windowAt (mode : GMode) (i : Nat) : Nat := if mode = .g1 then i else i + i / 2
def streamBits (mode : GMode) : Nat := if mode = .g1 then 256 else 384

/-- The cost of a bit sequence for 256 weights under a scale; bit k of the sequence has weight 2^k (10 R264 steps 2 and 3). -/
def streamCost (mode : GMode) (scale : ℚ) (x : Nat → ℚ) (y : Nat) : ℚ :=
  ((List.range 256).map fun i => ((HashQ (y / 2 ^ windowAt mode i % 2 ^ 16) : ℚ) / 8 * scale - x i) ^ 2).sum

/-- y has the property P at least cost, and is the smaller of two of equal cost (10 R264 step 3). -/
def Cheapest (cost : Nat → ℚ) (P : Nat → Prop) (y : Nat) : Prop := P y ∧ ∀ z, P z → cost y < cost z ∨ cost y = cost z ∧ y ≤ z

/-- t is the stream that 10 R264 steps 4 and 5 choose: without a wrap the best sequence of 15 further bits gives the first 15 bits,
and among the tail-biting streams that start with them t is the best. -/
def StreamChosen (mode : GMode) (scale : ℚ) (x : Nat → ℚ) (t : Nat) : Prop :=
  let n := streamBits mode
  ∃ y, Cheapest (streamCost mode scale x) (fun z => z < 2 ^ (n + 15)) y ∧
    Cheapest (fun z => streamCost mode scale x (z + 2 ^ n * (z % 2 ^ 15))) (fun z => z < 2 ^ n ∧ z % 2 ^ 15 = y / 2 ^ n) t

/-- A bound as an extended real lies at or below a point, or at or above it; NaN does neither (10 R273). -/
def Num.LeQ : Num → ℚ → Prop
  | .nan, _ => False
  | .inf s, _ => s = true
  | x, q => x.val ≤ q
def Num.GeQ : Num → ℚ → Prop
  | .nan, _ => False
  | .inf s, _ => s = false
  | x, q => q ≤ x.val

/-- A ray of eight registers meets a box of six: some t within its bounds puts o + t r inside the closed box (10 R273). -/
def MeetsBox (ws box : List Word) : Prop :=
  ∃ T : ℚ, (f32 (ws.getD 6 0)).LeQ T ∧ (f32 (ws.getD 7 0)).GeQ T ∧ ∀ c < 3,
    let x := (f32 (ws.getD c 0)).val + T * (f32 (ws.getD (3 + c) 0)).val
    (f32 (box.getD c 0)).LeQ x ∧ (f32 (box.getD (c + 3) 0)).GeQ x

/-- An FP32 pattern is a rational rounded to nearest; zero is +0 (10 R275). -/
def RatioIs (n : Int) (d : Nat) (w : Word) : Prop :=
  (n = 0 → w = 0) ∧ (n ≠ 0 → FloatFmt.fp32.RoundsTo RMode.rn false ((n : ℚ) / d) w.toNat)

/-- The n bytes at an offset of a message or a record hold a number, little-endian. -/
def readsAs (m : List Byte) (off n v : Nat) : Prop := leNat ((m.drop off).take n) = v

/-- A thread of a render launch outside state trapped (10 R266, R276). -/
def InRender (s : State) (t : Thread) (r : Render) : Prop := t.trapped = false ∧ s.renders.get t.launch = some r

/-- The pixels of one axis that an interval touches: those that it meets, where its ends are in order; infinite ends reach to the
image's edge (16 R333). -/
def PixelTouched (lo hi : Word) (extent px : Nat) : Prop :=
  px < extent ∧ ¬ (f32 hi).Less (f32 lo) ∧ (f32 lo).Less (.fin false (px + 1) 0) ∧ (f32 hi).GeQ px

/-- Round(x + y), Round(x - y), Round(x × y), Round(x × y + a) and Round(x × y - a) of 16 R339, as relations: FP32 under .rn. -/
def SumIs (x y z : Word) : Prop := FloatFmt.fp32.IsSum .rn false x.toNat y.toNat z.toNat
def DiffIs (x y z : Word) : Prop := FloatFmt.fp32.IsDifference .rn false x.toNat y.toNat z.toNat
def ProdIs (x y z : Word) : Prop := FloatFmt.fp32.IsProduct .rn false x.toNat y.toNat z.toNat
def FusedIs (x y a z : Word) : Prop := FloatFmt.fp32.IsFused .rn false x.toNat y.toNat a.toNat z.toNat
def FusedLessIs (x y a z : Word) : Prop :=
  ∃ q p, Num.Product (f32 x) (f32 y) q ∧ Num.Sum q (f32 a).negate p ∧ FloatFmt.fp32.Delivers RMode.rn false false false p z.toNat

/-- Round(x / y), with the special cases of 16 R339. -/
def QuotIs (x y z : Word) : Prop :=
  let a := f32 x
  let b := f32 y
  let signed : Word := if a.neg != b.neg then 0xFF800000 else 0x7F800000
  (a = .nan ∨ b = .nan ∨ (a.finite = false ∧ b.finite = false) ∨ (a.isZero = true ∧ b.isZero = true) → z = 0x7FC00000) ∧
  (a.finite = true → b.finite = false → b ≠ .nan → z = 0) ∧
  (a.isZero = true → b.finite = true → b.isZero = false → z = 0) ∧
  (a ≠ .nan → a.isZero = false → b.isZero = true → z = signed) ∧
  (a.finite = false → a ≠ .nan → b.finite = true → z = signed) ∧
  (a.finite = true → a.isZero = false → b.finite = true → b.isZero = false →
    FloatFmt.fp32.RoundsTo RMode.rn false (a.val / b.val) z.toNat)

/-- FSQRT(x) of 08 R189. -/
def RootIs (x z : Word) : Prop := TransSpecial .sqrt (f32 x) z ∧ TransRounded .sqrt false (f32 x) z

/-- Proj (16 R349). -/
def ProjIs (c : CamBlock) (p : Point) (x y : Word) : Prop :=
  ∃ i j, QuotIs p.x p.z i ∧ FusedIs c.fx i c.cx x ∧ QuotIs p.y p.z j ∧ FusedIs c.fy j c.cy y

/-- A run of segments, projected, adds its lengths to l in order (16 R340). -/
def LengthIs (c : CamBlock) : List Point → Word → Word → Prop
  | a :: b :: ps, l, len => ∃ x0 y0 x1 y1 dx dy m n r l', ProjIs c a x0 y0 ∧ ProjIs c b x1 y1 ∧ DiffIs x1 x0 dx ∧ DiffIs y1 y0 dy ∧
      ProdIs dx dx m ∧ FusedIs dy dy m n ∧ RootIs n r ∧ SumIs l r l' ∧ LengthIs c (b :: ps) l' len
  | _, l, len => len = l

/-- The largest of some lengths; a NaN counts as larger than any other (16 R340). -/
def LargestIs (ls : List Word) (m : Word) : Prop :=
  if ∃ l ∈ ls, f32 l = .nan then f32 m = .nan else m ∈ ls ∧ ∀ l ∈ ls, ¬ (f32 m).Less (f32 l)

/-- max(1, ceiling) of a quotient, which NaN and infinity make infinite (16 R340). -/
def CountIs (q : Word) (n : Nat) : Prop :=
  ((f32 q).finite = true → n = max 1 ⌈(f32 q).val⌉.toNat) ∧ ((f32 q).finite = false → n = diceInf)

/-- Control point (i, j) of a net of a patch record (16 R334). -/
def netPoint (r : List Byte) (side net i j : Nat) : Point :=
  let w := fun (c : Nat) => (BitVec.ofNat 32 (leNat ((r.drop ((if net = 0 then 128 else 320) + 12 * (i + side * j) + 4 * c)).take 4)) : Word)
  ⟨w 0, w 1, w 2⟩

/-- One of the two counts of a dice estimate: from the runs of points of both nets, and the ends of the entry's side (16 R340). -/
def SideCountIs (c : CamBlock) (runs : List (List Point)) (a b rate : Word) (n : Nat) : Prop :=
  ∃ ls l d m q, List.Forall₂ (fun pts len => LengthIs c pts 0 len) runs ls ∧ LargestIs ls l ∧ DiffIs b a d ∧ ProdIs l d m ∧
    QuotIs m rate q ∧ CountIs q n

/-- The dice estimate of an entry of a patch (16 R340). -/
def EstimateIs (c : CamBlock) (p : Patch) (e : PatchEntry) (nu nv : Nat) : Prop :=
  let side := if p.kind = 0 then 4 else 2
  let pts := fun (net : Nat) => netPoint p.record side net
  let nets := [0, 1].flatMap fun net => (List.range side).map fun i => (net, i)
  let near := ∃ net < 2, ∃ i < side, ∃ j < side, (f32 (pts net i j).z).Less (f32 c.znear) ∨ f32 (pts net i j).x = .nan ∨
    f32 (pts net i j).y = .nan ∨ f32 (pts net i j).z = .nan
  (near → nu = diceInf ∧ nv = diceInf) ∧
  (¬ near → SideCountIs c (nets.map fun (net, j) => (List.range side).map fun i => pts net i j) e.u0 e.u1 p.srate nu ∧
    SideCountIs c (nets.map fun (net, i) => (List.range side).map fun j => pts net i j) e.v0 e.v1 p.srate nv)

/-- The parameter of column or row i of n of a grid (16 R342). -/
def ParamIs (a b : Word) (i n : Nat) (u : Word) : Prop :=
  (i = 0 → u = a) ∧ (0 < i → i = n → u = b) ∧ (0 < i → i < n → ∃ d q, DiffIs b a d ∧ RatioIs i n q ∧ FusedIs d q a u)

/-- The weights of a net at a parameter (16 R342). -/
def WeightsAre (kind : Nat) (u : Word) (w : List Word) : Prop :=
  if kind = 0 then
    ∃ c a b m w0 t1 w1 t2 w2 w3, DiffIs 0x3F800000 u c ∧ ProdIs c c a ∧ ProdIs u u b ∧ ProdIs u c m ∧ ProdIs a c w0 ∧ ProdIs m c t1 ∧
      ProdIs 0x40400000 t1 w1 ∧ ProdIs m u t2 ∧ ProdIs 0x40400000 t2 w2 ∧ ProdIs b u w3 ∧ w = [w0, w1, w2, w3]
  else ∃ c, DiffIs 0x3F800000 u c ∧ w = [c, u]

/-- A weighted sum: its first product rounded, each further one fused (16 R342). -/
def MoreWeighted : List Word → List Word → Word → Word → Prop
  | w :: ws, x :: xs, acc, r => ∃ a, FusedIs w x acc a ∧ MoreWeighted ws xs a r
  | _, _, acc, r => r = acc
def WeightedIs (ws xs : List Word) (r : Word) : Prop :=
  ∃ a, ProdIs (ws.getD 0 0) (xs.getD 0 0) a ∧ MoreWeighted (ws.drop 1) (xs.drop 1) a r

/-- A coordinate of a net at (u, v): along u in each row, then along v (16 R342). -/
def CoordinateIs (p : Patch) (net : Nat) (u v : Word) (f : Point → Word) (r : Word) : Prop :=
  let side := if p.kind = 0 then 4 else 2
  ∃ wu wv rows, WeightsAre p.kind u wu ∧ WeightsAre p.kind v wv ∧
    List.Forall₂ (fun j x => WeightedIs wu ((List.range side).map fun i => f (netPoint p.record side net i j)) x) (List.range side) rows ∧
    WeightedIs wv rows r
def PositionIs (p : Patch) (net : Nat) (u v : Word) (q : Point) : Prop :=
  CoordinateIs p net u v Point.x q.x ∧ CoordinateIs p net u v Point.y q.y ∧ CoordinateIs p net u v Point.z q.z

/-- The component-wise difference of two points, rounded (16 R343). -/
def PointDiffIs (p q d : Point) : Prop := DiffIs p.x q.x d.x ∧ DiffIs p.y q.y d.y ∧ DiffIs p.z q.z d.z

/-- A normal of two difference vectors (16 R343). -/
def NormalIs (du dv n : Point) : Prop :=
  let part := fun (a b c d r : Word) => ∃ m, ProdIs c d m ∧ FusedLessIs a b m r
  part du.y dv.z du.z dv.y n.x ∧ part du.z dv.x du.x dv.z n.y ∧ part du.x dv.y du.y dv.x n.z

/-- A point of FP32 coordinates at an offset of a record. -/
def recPoint (r : List Byte) (off : Nat) : Point :=
  let w := fun (c : Nat) => (BitVec.ofNat 32 (leNat ((r.drop (off + 4 * c)).take 4)) : Word)
  ⟨w 0, w 1, w 2⟩

/-- The fields of the vertex record of column a and row b of a grid of nu columns and nv rows (16 R343); at gives the records. -/
def VertexIs (p : Patch) (us vs : List Word) (nu nv a b : Nat) (at_ : Nat → Nat → List Byte) : Prop :=
  let r := at_ a b
  let p0 := fun (i j : Nat) => recPoint (at_ i j) 0
  r.length = 64 ∧ PositionIs p 0 (us.getD a 0) (vs.getD b 0) (recPoint r 0) ∧ PositionIs p 1 (us.getD a 0) (vs.getD b 0) (recPoint r 12) ∧
  (∃ du dv, PointDiffIs (p0 (if a = nu then a else a + 1) b) (p0 (if a = nu then a - 1 else a) b) du ∧
    PointDiffIs (p0 a (if b = nv then b else b + 1)) (p0 a (if b = nv then b - 1 else b)) dv ∧ NormalIs du dv (recPoint r 24)) ∧
  readsAs r 36 4 (us.getD a 0).toNat ∧ readsAs r 40 4 (vs.getD b 0).toNat ∧ readsAs r 44 6 0 ∧ readsAs r 50 2 0x3C00 ∧ readsAs r 52 4 0 ∧
  readsAs r 56 8 0

/-- The sample that a deck entry gives at a pixel (16 R353). -/
def SampleIs (px py : Nat) (e : List Nat) (x : Sample) : Prop :=
  RatioIs (px * 65536 + e.getD 0 0 : Nat) 65536 x.sx ∧ RatioIs (py * 65536 + e.getD 1 0 : Nat) 65536 x.sy ∧
  (f32 x.tau).finite = true ∧ (f32 x.tau).val = (e.getD 4 0 : ℚ) / 65536 ∧
  ∃ u rho w : Word, RatioIs (e.getD 2 0) 65536 u ∧ RootIs u rho ∧ RatioIs (2 * e.getD 3 0 : Nat) 65536 w ∧
    ProdIs rho (transOp .cos false w) x.lx ∧ ProdIs rho (transOp .sin false w) x.ly

/-- A corner's position at a sample's time, one coordinate (16 R355). -/
def MovesTo (tau a b q : Word) : Prop := ∃ d, DiffIs b a d ∧ FusedIs tau d a q

/-- A corner placed for a sample, and whether its depth passes ZNEAR (16 R355). -/
def PlacedIs (c : CamBlock) (x : Sample) (r : List Byte) (q : Point) (ok : Bool) : Prop :=
  let p0 := recPoint r 0
  let p1 := recPoint r 12
  ∃ (m : Point) (u v d a k : Word), MovesTo x.tau p0.x p1.x m.x ∧ MovesTo x.tau p0.y p1.y m.y ∧ MovesTo x.tau p0.z p1.z m.z ∧
    (ok = true ↔ f32 m.z ≠ .nan ∧ ¬ (f32 m.z).Less (f32 c.znear)) ∧ ProjIs c m u v ∧ DiffIs m.z c.zf d ∧
    QuotIs (d &&& 0x7FFFFFFF) m.z a ∧ ProdIs c.k a k ∧ FusedIs k x.lx u q.x ∧ FusedIs k x.ly v q.y ∧ q.z = m.z

/-- Edge of two corners at a point; an edge that owns its points; and a point on an edge's side (16 R356). -/
def EdgeIs (f g : Point) (px py e : Word) : Prop :=
  ∃ dx dy a b m, DiffIs g.x f.x dx ∧ DiffIs g.y f.y dy ∧ DiffIs py f.y a ∧ DiffIs px f.x b ∧ ProdIs dy b m ∧ FusedLessIs dx a m e
def EdgeOwns (f g : Point) : Prop :=
  ∃ dx dy, DiffIs g.x f.x dx ∧ DiffIs g.y f.y dy ∧
    ((f32 dy).Less (.fin false 0 0) ∨ (f32 dy).isZero = true ∧ Num.Less (.fin false 0 0) (f32 dx))
def OnSide (e : Word) (f g : Point) : Prop := Num.Less (.fin false 0 0) (f32 e) ∨ (f32 e).isZero = true ∧ EdgeOwns f g

/-- A triangle whose area edge is s, tested at a point: the depth of a hit (16 R356). -/
def AreaTested (c : CamBlock) (a b d : Point) (px py s : Word) (z : Option Word) : Prop :=
  ∃ e0 e1 e2 z0 z1 z2 q, EdgeIs b d px py e0 ∧ EdgeIs d a px py e1 ∧ EdgeIs a b px py e2 ∧ ProdIs e0 a.z z0 ∧ FusedIs e1 b.z z0 z1 ∧
    FusedIs e2 d.z z1 z2 ∧ QuotIs z2 s q ∧
    let hit := Num.Less (.fin false 0 0) (f32 s) ∧ OnSide e0 b d ∧ OnSide e1 d a ∧ OnSide e2 a b ∧ f32 q ≠ .nan ∧
      ¬ (f32 q).Less (f32 c.znear) ∧ ¬ (f32 c.zfar).Less (f32 q)
    (hit → z = some q) ∧ (¬ hit → z = none)
def TriangleTested (c : CamBlock) (a b d : Point) (px py : Word) (z : Option Word) : Prop :=
  ∃ s, EdgeIs a b d.x d.y s ∧ (¬ (f32 s).Less (.fin false 0 0) → AreaTested c a b d px py s z) ∧
    ((f32 s).Less (.fin false 0 0) → ∃ s', EdgeIs a d b.x b.y s' ∧ AreaTested c a d b px py s' z)

/-- A micropolygon of four corner records tested for a sample: the visible point that a hit makes (16 R354 to R357). -/
def MicropolygonIs (c : CamBlock) (x : Sample) (r00 r10 r01 r11 : List Byte) (mat : Word) (h : Option (List Byte)) : Prop :=
  let culled := ∃ r ∈ [r00, r10, r01, r11], leNat ((r.drop 52).take 4) % 2 = 1
  (culled → h = none) ∧
  (¬ culled → ∃ q00 q10 q01 q11 k00 k10 k01 k11 z1 z2, PlacedIs c x r00 q00 k00 ∧ PlacedIs c x r10 q10 k10 ∧ PlacedIs c x r01 q01 k01 ∧
    PlacedIs c x r11 q11 k11 ∧ TriangleTested c q00 q10 q11 x.sx x.sy z1 ∧ TriangleTested c q00 q11 q01 x.sx x.sy z2 ∧
    ((k00 && k10 && k01 && k11) = false → h = none) ∧
    ((k00 && k10 && k01 && k11) = true →
      (z1 = none → z2 = none → h = none) ∧
      ∀ z, (z1 <|> z2) = some z → ∃ p, h = some p ∧ p.length = 16 ∧ readsAs p 0 4 z.toNat ∧ (p.drop 4).take 8 = (r00.drop 44).take 8 ∧
        readsAs p 12 4 (mat.toNat % 2 ^ 24 + 2 ^ 31)))

/-- What the slots of a sample hold once hits have been inserted among the valid points read from them (16 R358, R359). -/
def slotsAfter (vpn : Nat) (bytes : List Byte) (hits : List (List Byte)) : List Byte :=
  let old := ((List.range vpn).map fun j => (bytes.drop (16 * j)).take 16).filter fun p => leNat ((p.drop 12).take 4) / 2 ^ 31 % 2 == 1
  let new := hits.foldl (insertPoint vpn) old
  new.flatMap id ++ List.replicate (16 * (vpn - new.length)) 0

/-- The address of visible-point slot j of sample i of a pixel (16 R358). -/
def slotAt (r : Render) (c : Cluster) (x y i j : Nat) : Nat :=
  c.rast.sbase + 16 * (c.rast.vpn * (c.deck.length * (y * r.width + x) + i) + j)

/-- An address is that of a slot of a bucket's pixels (16 R332, R350, R358). -/
def SlotOf (r : Render) (c : Cluster) (b a : Nat) : Prop :=
  ∃ x y i j, x < r.width ∧ y < r.height ∧ b = y / r.side * r.bx + x / r.side ∧ i < c.deck.length ∧ j < c.rast.vpn ∧ a = slotAt r c x y i j

/-- Slots written empty one after another: a write that fails fails the attempt, or is left out where the bucket's work has ended
(16 R350 step 1, R363, R365). -/
inductive SlotsEmptied (cl : Nat) (o : OpenBucket) : State → List Nat → State → Prop
  | done (s : State) : SlotsEmptied cl o s [] s
  | write (s s1 s' : State) (a : Nat) (as : List Nat) : s.engineWrite (o.who s cl) a (List.replicate 16 0) = (s1, .ok ()) →
      SlotsEmptied cl o s1 as s' → SlotsEmptied cl o s (a :: as) s'
  | fail (s s1 s' : State) (a : Nat) (as : List Nat) (e : Nat × Nat) :
      s.engineWrite (o.who s cl) a (List.replicate 16 0) = (s1, .error e) →
      SlotsEmptied cl o (if o.lost then s1 else s1.onOpen cl fun o => { o with failing := true }) as s' →
      SlotsEmptied cl o s (a :: as) s'

/-- Two visible points made one: f's depth and source; colour and opacity composed (16 R359). -/
def MergedIs (f g p : List Byte) : Prop :=
  let half := fun (q : List Byte) (i : Nat) => FloatFmt.fp16.decode (leNat ((q.drop i).take 2))
  p.length = 16 ∧ p.take 4 = f.take 4 ∧ p.drop 12 = f.drop 12 ∧ ∃ fa k : Word, Widens (half f 10) fa ∧ DiffIs 0x3F800000 fa k ∧
    ∀ i ∈ [4, 6, 8, 10], ∃ fx gx v : Word, Widens (half f i) fx ∧ Widens (half g i) gx ∧ FusedIs k gx fx v ∧
      FloatFmt.fp16.Delivers RMode.rn false false false (f32 v) (leNat ((p.drop i).take 2))

/-- Only the units of a cluster and the threads of the issue group differ from b. -/
def ClusterOnly (b s' : State) (k : FrameRef) (cl : Nat) (f : Cluster → Cluster) : Prop :=
  s' = { b with threads := s'.threads, clusters := s'.clusters, issue := none } ∧ OthersKept b s' k ∧
    ∀ c, s'.cluster c = if c = cl then f (b.cluster c) else b.cluster c

/-- The parameters T, U, V of a ray and a triangle meet: o + T r = (1 - U - V) P0 + U P1 + V P2 (10 R273). -/
def RayMeets (ray : Ray) (p : Nat → List Int) (T U V : ℚ) : Prop :=
  ∀ c < 3, ((ray.o.getD c 0 : ℤ) : ℚ) + T * (ray.r.getD c 0 : ℤ) =
    (1 - U - V) * ((p 0).getD c 0 : ℤ) + U * ((p 1).getD c 0 : ℤ) + V * ((p 2).getD c 0 : ℤ)

/-- Order of an extended bound and a rational. -/
def Ext.AtMostQ : Ext → ℚ → Prop
  | .ninf, _ => True
  | .fin n d, T => (n : ℚ) / d ≤ T
  | .pinf, _ => False

def Ext.AtLeastQ : Ext → ℚ → Prop
  | .ninf, _ => False
  | .fin n d, T => T ≤ (n : ℚ) / d
  | .pinf, _ => True

/-- The child number i of a bin stands placed as thread k, with its frame (01 R17, R32, R38, R39; 12 R299). -/
def ChildPlaced (s s' : State) (b : Bin) (p lane i : Nat) (ch : Child) (k : FrameRef) : Prop :=
  s.frames.get k = none ∧ (∃ t, s'.threads.get k = some t ∧ t.run = .ready ∧ t.pc = b.entry ∧ t.alloc = b.alloc ∧ t.part = p ∧
    t.lane = lane ∧ t.tid = i ∧ t.seq = ch.ordinal ∧ t.launch = ch.launch ∧ t.lgroup = ch.lgroup ∧ t.ctxid = ch.ctxid ∧
    t.check = ch.check ∧ t.grid = ch.grid ∧ t.winbase = 0 ∧ t.wait = 0 ∧ t.phase = 0 ∧ t.members = 0 ∧ t.trapped = false ∧ t.susp = none ∧
    (∀ j, t.reg j = ch.args.getD j blankReg) ∧ (ch.range = none → t.slot = none)) ∧
  ∃ f, s'.frames.get k = some f ∧ f.owner = .child ch.parent ch.ordinal ∧ f.floor = ch.stamp + 1 ∧ f.live = 0 ∧ f.nfault = 0 ∧
    f.nkill = 0 ∧ f.nextseq = 0

/-- A frame in which a child's completion has been counted: LIVE falls, the counts rise to their limit, and the first fault is the
one recorded (01 R41). -/
def counted (f : Frame) (o : Nat) (c : Completion) : Frame :=
  let first := c.kind == .fault && !f.fvalid
  { f with live := f.live - 1, stamp := some (max c.stamp (f.stamp.getD 0)),
           nfault := if c.kind = .fault then min 0xFFFF (f.nfault + 1) else f.nfault,
           nkill := if c.kind = .killed then min 0xFFFF (f.nkill + 1) else f.nkill,
           fvalid := f.fvalid || first, frec := if first then c.report else f.frec, fseq := if first then o else f.fseq }

/-- The four registers of AWAIT: the counts, the record of the first fault, and the low half of its address (09 R238). -/
def AwaitValues (f : Frame) (rs : List RegVal) : Prop :=
  rs.length = 4 ∧ (∀ r ∈ rs, r.2 = .n32) ∧ groupNat rs % 2 ^ 32 = (f.nfault + 2 ^ 16 * f.nkill) % 2 ^ 32 ∧
  groupNat rs / 2 ^ 32 % 2 ^ 64 = (f.frec.code + 2 ^ 16 * f.frec.core + 2 ^ 24 * f.frec.part + 2 ^ 26 * f.frec.lane
    + 2 ^ 31 * f.frec.ctx + 2 ^ 35 * bit f.fvalid + 2 ^ 36 * f.fseq) % 2 ^ 64 ∧
  groupNat rs / 2 ^ 96 = f.frec.addr % 2 ^ 32

/-- The fields of a frame lie within their widths (01 R39). -/
def Frame.Fits (f : Frame) : Prop :=
  f.live < 2 ^ 24 ∧ f.nfault < 2 ^ 16 ∧ f.nkill < 2 ^ 16 ∧ f.frec.code < 2 ^ 16 ∧ f.frec.core < 2 ^ 8 ∧ f.frec.part < 2 ^ 2 ∧
  f.frec.lane < 2 ^ 5 ∧ f.frec.ctx < 2 ^ 4 ∧ f.fseq < 2 ^ 28 ∧ f.frec.addr < 2 ^ 57 ∧ f.floor < 2 ^ 64 ∧ f.ocore < 2 ^ 8 ∧
  f.opart < 2 ^ 2 ∧ f.olane < 2 ^ 5 ∧ f.octx < 2 ^ 4 ∧ f.nextseq < 2 ^ 28 ∧ f.saveptr < 2 ^ 57 ∧ f.remote < 2 ^ 32 ∧
  ∀ p o, f.owner = .child p o → coreOf p / 36 < 4

/-- Bits [lo + n - 1 : lo] of x hold v. -/
def FieldIs (x lo n v : Nat) : Prop := x / 2 ^ lo % 2 ^ n = v

/-- x is word w of a frame, field by field with its reserved bits 0 (01 R39). -/
def FrameWord (f : Frame) (w x : Nat) : Prop :=
  x < 2 ^ 64 ∧
  match w with
  | 0 => FieldIs x 0 24 f.live ∧ FieldIs x 24 1 1 ∧ FieldIs x 25 1 (bit f.exiting) ∧ FieldIs x 26 6 0 ∧ FieldIs x 32 16 f.nfault ∧
      FieldIs x 48 16 f.nkill
  | 1 => (∀ p o, f.owner = .child p o → FieldIs x 0 2 (coreOf p / 36) ∧ FieldIs x 2 6 (coreOf p % 36) ∧ FieldIs x 8 20 (p % 2 ^ 20) ∧
        FieldIs x 28 36 0) ∧ (f.owner = .root → FieldIs x 28 1 1 ∧ FieldIs x 29 35 0)
  | 2 => FieldIs x 0 16 f.frec.code ∧ FieldIs x 16 8 f.frec.core ∧ FieldIs x 24 2 f.frec.part ∧ FieldIs x 26 5 f.frec.lane ∧
      FieldIs x 31 4 f.frec.ctx ∧ FieldIs x 35 1 (bit f.fvalid) ∧ FieldIs x 36 28 f.fseq
  | 3 => FieldIs x 0 57 f.frec.addr ∧ FieldIs x 57 7 0
  | 4 => x = f.floor
  | 5 => FieldIs x 0 8 f.ocore ∧ FieldIs x 8 2 f.opart ∧ FieldIs x 10 5 f.olane ∧ FieldIs x 15 4 f.octx ∧
      FieldIs x 19 1 (bit f.awaiting) ∧ FieldIs x 20 12 0 ∧ FieldIs x 32 28 f.nextseq ∧ FieldIs x 60 4 0
  | 6 => FieldIs x 0 57 f.saveptr ∧ FieldIs x 57 7 0
  | 7 => FieldIs x 0 32 f.remote ∧ FieldIs x 32 32 0
  | _ => True

/-- The oldest message in transit to a frame, sent by the lowest core among those to it: it is delivered next (01 R41). -/
def NextCompletion (s : State) (p o : Nat) (c : Completion) (x : Sender) (rest : List Msg) : Prop :=
  s.net = .completion p o c x :: rest ∧ ∀ o' c' y, Msg.completion p o' c' y ∈ rest → x.gcore ≤ y.gcore
def NextRoot (s : State) (l n : Nat) (c : Completion) (x : Sender) (rest : List Msg) : Prop :=
  s.net = .rootCompletion l n c x :: rest ∧ ∀ n' c' y, Msg.rootCompletion l n' c' y ∈ rest → x.gcore ≤ y.gcore

/-- The table of remote children after records of children have moved to a die: each child has one entry there, or none where its
parent's frame lies; the entries of others are as before, and of the frames only REMOTE differs (01 R39, R61). -/
def ChildrenMoved (s s' : State) (cs : List Child) (die : Nat) : Prop :=
  (∀ c ∈ cs, ∀ w, (c.parent, c.ordinal, w) ∈ (s'.dist (dieOf (coreOf c.parent))).children ↔ w = die ∧ dieOf (coreOf c.parent) ≠ die) ∧
  (∀ v p o w, (∀ c ∈ cs, c.parent = p → c.ordinal = o → dieOf (coreOf p) ≠ v) →
    ((p, o, w) ∈ (s'.dist v).children ↔ (p, o, w) ∈ (s.dist v).children)) ∧
  ∀ j, (s'.frames.get j).map (fun f => { f with remote := 0 }) = (s.frames.get j).map fun f => { f with remote := 0 }

/-- Bits of a field of n bytes at an offset of a launch packet or of a variant-list entry (18 R372, R373). -/
def packetBits (p : List Byte) (off n hi lo : Nat) : Nat := leNat ((p.drop off).take n) / 2 ^ lo % 2 ^ (hi - lo + 1)

/-- The packet, or its context, breaks what 18 R372 and R374 ask of it before its variant list is read. -/
def PacketBad (s : State) (ctxid : Nat) (p : List Byte) : Prop :=
  let f := packetBits p
  let w := fun (off hi lo : Nat) => packetBits p off 4 hi lo
  let g := w 0 5 4 + 1
  let n := w 4 23 0
  (∃ x ∈ [w 0 31 18, w 4 31 24, w 8 31 11, w 12 31 12, f 16 8 63 57, w 24 31 16, w 28 31 17, f 32 8 63 57, f 51 1 7 0, w 52 31 17], x ≠ 0) ∨
  (∃ i < 8, ∃ x ∈ [f (96 + 16 * i) 8 11 0, f (96 + 16 * i) 8 63 57, f (104 + 16 * i) 8 11 0, f (104 + 16 * i) 8 63 52], x ≠ 0) ∨
  2 ≤ w 0 1 0 ∨ w 0 3 2 = 3 ∨ (w 0 3 2 = 0 ∧ g ≠ 1) ∨ 8 < w 0 17 14 ∨ n = 0 ∨ (w 0 3 2 = 1 ∧ n % g ≠ 0) ∨ (w 0 3 2 = 2 ∧ n % (2 * g) ≠ 0) ∨
  w 8 10 0 = 0 ∨ 1024 < w 8 10 0 ∨ f 16 8 3 0 ≠ 0 ∨ w 24 15 0 = 0 ∨ 256 < w 28 16 8 ∨ 256 < w 28 7 0 + w 28 16 8 ∨
  (f 32 8 63 0 ≠ 0 ∧ f 32 8 4 0 ≠ 4) ∨ 128 < w 52 14 7 ∨ 128 < w 52 6 0 + w 52 14 7 ∨
  (w 0 1 0 = 0 ∧ (w 52 16 15 ≠ 0 ∨ w 56 31 0 ≠ 0)) ∨ (s.ctx ctxid).root = 0 ∨ (s.ctx ctxid).csa = 0

/-- A variant-list entry breaks 18 R373. -/
def EntryBad (e : List Byte) : Prop :=
  let size := packetBits e 40 4 31 0
  (∃ d < 4, packetBits e (8 * d) 8 62 36 ≠ 0) ∨ packetBits e 32 8 63 57 ≠ 0 ∨ packetBits e 32 8 11 0 ≠ 0 ∨ size = 0 ∨ size % 32 ≠ 0 ∨
  packetBits e 44 4 4 0 ≠ 4 ∨ size ≤ packetBits e 44 4 31 0

/-- A variant-list entry matches the harvest map (05 R131, R133). -/
def EntryMatches (s : State) (e : List Byte) : Prop :=
  ∀ d < 4, packetBits e (8 * d) 8 63 63 = 1 ∨ packetBits e (8 * d) 8 35 0 = s.enableMask d

/-- The cluster list of a launch: by cluster number and then virtual die, of the present dies (18 R377). -/
def ClusterListIs (s : State) (g : Nat) (l : List Nat) : Prop :=
  (l.Pairwise fun x y => x % 9 < y % 9 ∨ x % 9 = y % 9 ∧ x / 9 < y / 9) ∧
  ∀ x, x ∈ l ↔ x / 9 < s.fuses.dies ∧ (s.dist (x / 9)).lost = false ∧ g ≤ (s.clusterCores x).length

/-- Cluster c of a physical die faces cluster d of another (18 R378). -/
def Faces (pa c pb d : Nat) : Prop :=
  ((pa, pb) ∈ [(0, 1), (2, 3)] ∧ c % 3 = 2 ∧ c = d + 2) ∨ ((pa, pb) ∈ [(1, 0), (3, 2)] ∧ d % 3 = 2 ∧ d = c + 2) ∨
  ((pa, pb) ∈ [(0, 2), (1, 3)] ∧ 6 ≤ c ∧ c = d + 6) ∨ ((pa, pb) ∈ [(2, 0), (3, 1)] ∧ 6 ≤ d ∧ d = c + 6)

/-- The facing-pair list of a launch, over pairs of present virtual dies (18 R378). -/
def PairListIs (s : State) (g : Nat) (l : List (Nat × Nat)) : Prop :=
  (l.Pairwise fun x y => x.1 / 9 < y.1 / 9 ∨ x.1 / 9 = y.1 / 9 ∧
    (x.2 / 9 < y.2 / 9 ∨ x.2 / 9 = y.2 / 9 ∧ x.1 % 9 < y.1 % 9)) ∧
  ∀ x y, (x, y) ∈ l ↔ x / 9 < y / 9 ∧ y / 9 < s.fuses.dies ∧ (s.dist (x / 9)).lost = false ∧ (s.dist (y / 9)).lost = false ∧
    Faces (s.physDie (x / 9)) (x % 9) (s.physDie (y / 9)) (y % 9) ∧ g ≤ (s.clusterCores x).length ∧ g ≤ (s.clusterCores y).length

/-- Logical core j of a cluster, modulo its enabled cores (18 R375, R377). -/
def coreNumber (s : State) (cl j : Nat) : Nat := (s.clusterCores cl).getD (j % (s.clusterCores cl).length) 0

/-- The deal of n launch groups of a SHAPE with G of them to a cluster group, and whether its list is empty; barriers are numbered
from `first` (18 R377, R378). -/
def DealIs (s : State) (shape g n first : Nat) (empty : Prop) (l : List GroupDeal) : Prop :=
  (shape ≠ 2 → ∃ cs, ClusterListIs s g cs ∧ (empty ↔ cs = []) ∧ (cs ≠ [] → l.length = n ∧ ∀ i < n,
    if shape = 0 then l[i]? = some ⟨i, coreNumber s (cs.getD (i % cs.length) 0) (i / cs.length), i, none⟩
    else
      let u := i / g
      l[i]? = some ⟨i, coreNumber s (cs.getD (u % cs.length) 0) (u / cs.length * g + i % g), u, some (first + u)⟩)) ∧
  (shape = 2 → ∃ ps, PairListIs s g ps ∧ (empty ↔ ps = []) ∧ (ps ≠ [] → l.length = n ∧ ∀ i < n,
    let u := i / (2 * g)
    let e := ps.getD (u % ps.length) (0, 0)
    l[i]? = some ⟨i, coreNumber s (if i % (2 * g) < g then e.1 else e.2) (u / ps.length * g + i % g), u, some (first + u)⟩))

/-- The check of a packet in the order of 18 R374: the code of the first check that fails, or the entry of its launch, the image and
its size, and the deal. -/
def Checked (s : State) (ctxid first : Nat) (p : List Byte) (r : Except Nat (Nat × Nat × Nat × List GroupDeal)) : Prop :=
  let w := fun (off hi lo : Nat) => packetBits p off 4 hi lo
  (PacketBad s ctxid p ∨ s.mgmtRead ctxid (packetBits p 16 8 63 0) (48 * w 24 15 0) = none → r = .error 0x0301) ∧
  ∀ l, ¬ PacketBad s ctxid p → s.mgmtRead ctxid (packetBits p 16 8 63 0) (48 * w 24 15 0) = some l →
    let e := fun (i : Nat) => (l.drop (48 * i)).take 48
    let size := fun (x : Nat) => x = 0 ∨ 32768 < x
    ((∃ i < w 24 15 0, EntryBad (e i)) → r = .error 0x0301) ∧
    ((∀ i < w 24 15 0, ¬ EntryBad (e i)) →
      let bad := w 0 1 0 = 1 ∧ (size (w 56 15 0) ∨ size (w 56 31 16) ∨ w 52 16 15 = 3)
      (bad → r = .error 0x0302) ∧
      (¬ bad → (∀ i < w 24 15 0, ¬ EntryMatches s (e i)) → r = .error 0x0303) ∧
      ∀ i < w 24 15 0, ¬ bad → EntryMatches s (e i) → (∀ j < i, ¬ EntryMatches s (e j)) →
        ∃ (deal : List GroupDeal) (empty : Prop), DealIs s (w 0 3 2) (w 0 5 4 + 1) (w 4 23 0) first empty deal ∧
          let busy := ¬ empty ∧ ∃ x ∈ deal, testBit s.pkg.offline (dieOf x.gcore) = true
          (busy → r = .error 0x0304) ∧ (empty → r = .error (if w 0 3 2 = 2 then 0x0306 else 0x0305)) ∧
          (¬ busy → ¬ empty → r = .ok (packetBits (e i) 32 8 63 0 + packetBits (e i) 44 4 31 0, packetBits (e i) 32 8 63 0,
            packetBits (e i) 40 4 31 0, deal)))

/-- A launch's fields as its packet gives them (18 R372). -/
def LaunchOf (p : List Byte) (l : Launch) : Prop :=
  let f := packetBits p
  let w := fun (off hi lo : Nat) => packetBits p off 4 hi lo
  l.render = decide (w 0 1 0 = 1) ∧ l.debug = decide (w 0 7 7 = 1) ∧ l.check = decide (w 0 8 8 = 1) ∧ l.alloc = 16 * (w 0 13 9 + 1) ∧
  l.nparam = w 0 17 14 ∧ l.gsize = w 8 10 0 ∧ l.vector = w 12 10 0 ∧ l.irq = decide (w 12 11 11 = 1) ∧ l.spbase = w 28 7 0 ∧
  l.spsize = w 28 16 8 ∧ l.handler = f 32 8 63 0 ∧ l.slotmask = f 40 8 63 0 ∧ l.qmask = f 48 2 15 0 ∧ l.winmask = f 50 1 7 0 ∧
  l.vkbase = w 52 6 0 ∧ l.vksize = w 52 14 7 ∧ l.meetmask = w 60 31 0 ∧ ∀ i < 8, l.params.getD i 0 = BitVec.ofNat 32 (w (64 + 4 * i) 31 0)

/-- The ranges that a packet leases, without and with that of its image (14 R324; 18 R373). -/
def leaseRanges (p : List Byte) : List (Nat × Nat) :=
  ((List.range 8).map fun i => (packetBits p (96 + 16 * i) 8 63 0, packetBits p (104 + 16 * i) 8 63 0)).filter fun x => x.2 != 0
def leasesOf (p : List Byte) (image isize : Nat) : List (Nat × Nat) :=
  if leaseRanges p = [] then [] else leaseRanges p ++ [(image, (isize + 4095) / 4096 * 4096)]

/-- n is the number of 4 KiB frames of the pages of a lease: those of its mapped pages, and its unmapped ones, each counted once
(14 R325). -/
def FramesOf (ps : List LeafPage) (n : Nat) : Prop :=
  ∃ us : List Nat, us.Nodup ∧ (∀ x, x ∈ us ↔ ∃ p ∈ ps, p.res = none ∧ p.va / 4096 ≤ x ∧ x < p.va / 4096 + p.frames) ∧
    n = ((ps.filter fun p => p.res.isSome).map LeafPage.frames).sum + us.length

/-- The threads of a launch group stand placed on its core (18 R379). -/
def GroupPlaced (s s' : State) (id : Nat) (l : Launch) (x : GroupDeal) (ks : List FrameRef) : Prop :=
  ks.length = l.gsize ∧ ks.Nodup ∧ ∀ i k, ks[i]? = some k → coreOf k = x.gcore ∧ s.frames.get k = none ∧
    (∃ t, s'.threads.get k = some t ∧ t.run = .ready ∧ t.pc = l.entry ∧ t.alloc = l.alloc ∧ t.part = i / 32 % 4 ∧ t.lane = i % 32 ∧
      t.tid = i ∧ t.lgroup = x.index ∧ t.launch = id ∧ t.seq = 0 ∧ t.ctxid = l.ctxid ∧ t.check = l.check ∧ t.susp = none ∧ t.winbase = 0 ∧
      t.phase = 0 ∧ (∀ n, x.group = some n → ∃ m, t.group = some m ∧ m.group = n ∧ m.barred = false) ∧ (x.group = none → t.group = none) ∧
      ∀ j, t.reg j = if j < l.nparam then ((l.params[j]?).map fun w => ((w, .raw) : RegVal)).getD blankReg else blankReg) ∧
    ∃ f, s'.frames.get k = some f ∧ f.owner = .root ∧ f.live = 0 ∧ f.launch = id ∧ f.lgroup = x.index ∧ f.floor = 0

/-- The record of a thread at an address (18 R385). -/
def RecordAt (s s' : State) (k : FrameRef) (t : Thread) (stall : Nat) (starved : Bool) (a : Nat) : Prop :=
  let rd := fun (off n : Nat) => readNat s'.mem (a + off) n
  let tag := fun (off i : Nat) => rd (off + i / 2) 1 / (if i % 2 = 0 then 1 else 16) % 16
  let grow := match t.run with
    | .grow n => n / 16 - 1
    | _ => 0
  let detail := match t.run with
    | .meet m p => m + 32 * p
    | .future h _ => h
    | _ => 0
  let slot := t.slot.bind (s.core (coreOf k)).slots.get
  rd 0 8 = t.pc % 2 ^ 57 + 2 ^ 57 * t.run.code + 2 ^ 61 * bit t.trapped + 2 ^ 62 * bit t.check + 2 ^ 63 * bit starved ∧
  rd 8 8 = (t.alloc / 16 - 1 + 2 ^ 5 * (t.winbase / 16) + 2 ^ 10 * t.phase + 2 ^ 15 * t.wait + 2 ^ 24 * min 15 stall + 2 ^ 28 * grow
    + 2 ^ 33 * t.winstat + 2 ^ 36 * bit t.slot.isSome) % 2 ^ 64 ∧
  rd 16 4 = t.members % 2 ^ 32 ∧ rd 20 4 = t.arrived % 2 ^ 32 ∧ rd 24 8 = detail % 2 ^ 64 ∧
  rd 32 8 = t.resFirst % 2 ^ 64 ∧ rd 40 8 = t.resInst % 2 ^ 64 ∧ rd 48 8 = t.trapaddr % 2 ^ 64 ∧ rd 56 4 = t.trapcode % 2 ^ 32 ∧
  rd 60 4 = t.trapinst.toNat ∧ 
  (∀ i < 16, rd (64 + 4 * i) 4 = (t.latest (Config.trapBank + i)).1.toNat ∧ tag 128 i = Tag.code (t.latest (Config.trapBank + i)).2) ∧
  (∀ i < 8, rd (136 + 4 * i) 4 = (t.hit.getD i 0).toNat) ∧
  rd 168 4 = (slot.elim 0 RangeSlot.cur) % 2 ^ 32 ∧ rd 172 4 = (slot.elim 0 RangeSlot.hi) % 2 ^ 32 ∧
  rd 176 8 = (coreOf k + 2 ^ 8 * t.part + 2 ^ 10 * t.lane + 2 ^ 15 * t.cx + 2 ^ 19 * indexOf k + 2 ^ 39 * t.spawnSeq) % 2 ^ 64 ∧ rd 184 8 = 0 ∧
  ∀ i < t.alloc, rd (192 + 4 * i) 4 = (t.latest i).1.toNat ∧ tag (192 + 4 * t.alloc) i = Tag.code (t.latest i).2

/-- A core is as said, and every other core as before. -/
def CoreBecomes (s s' : State) (g : Nat) (c : Core) : Prop := s'.core g = c ∧ ∀ j, j ≠ g → s'.core j = s.core j

/-- A distributor is as said, and every other one as before. -/
def DistBecomes (s s' : State) (v : Nat) (d : Dist) : Prop := s'.dist v = d ∧ ∀ j, j ≠ v → s'.dist j = s.dist j

/-- The children of a record stay on their own dies (01 R61). -/
def StealRec.within (r : StealRec) : Prop := dieOf r.victim = dieOf r.thief

/-- A swap of a head takes effect at an edge at which the milepost becomes m: it was written before this cycle, and names m or is
late (20 R404). -/
def Head.Swaps (x : Head) (cycle m : Nat) : Prop := x.swapAt ≠ cycle ∧ (x.swap = some true ∨ x.swap = some false ∧ x.swapMp = m)

/-- The head drives a stream, and line VTOTAL − 1 of its frame in hand is not complete at a nanosecond: VTOTAL lines of HTOTAL pixel
periods of 1 / (1,000 × KHZ) seconds have not passed (20 R403). -/
def Head.InFrame (x : Head) (now : Nat) : Prop :=
  x.en = true ∧ x.linkup = true ∧ x.khz ≠ 0 ∧ x.framed = true ∧ now < x.start + x.vtotal * x.htotal * 1000000 / x.khz

/-- Head h at an edge at which the milepost becomes m (20 R403, R404): a frame that is complete gives way to the next one, with the
buffer of a swap that is due; a swap written in the cycle of its edge is late; an edge within a frame waits for its end, with the
buffer of the swap that took effect. -/
def HeadAtEdge (s s' : State) (m h : Nat) : Prop :=
  let x := s.head h
  let y := s'.head h
  y.en = x.en ∧ y.swapAddr = x.swapAddr ∧ y.swapMp = x.swapMp ∧ (x.Swaps s.cycle m → y.swap = none) ∧
  (¬ x.InFrame s.nanos → y.line = 0 ∧ y.column = 0 ∧ y.start = s.nanos ∧ y.framed = true ∧ y.edge = none ∧
    (x.Swaps s.cycle m → y.base = x.swapAddr ∧ (x.swap = some true → x.late < 0xFFFF → y.late = x.late + 1) ∧
      (x.swap = some false → y.late = x.late)) ∧
    (¬ x.Swaps s.cycle m → x.edge = none → y.base = x.base ∧ y.late = x.late)) ∧
  (x.InFrame s.nanos → y.base = x.base ∧ y.late = x.late ∧ y.line = x.line ∧ y.start = x.start ∧
    (x.Swaps s.cycle m → y.edge = some (some (x.swapAddr, x.swap == some true))) ∧
    (¬ x.Swaps s.cycle m → y.edge = some (x.edge.getD none))) ∧
  (x.swapAt = s.cycle → x.swapMp ≤ m → x.swap ≠ none → y.swap = some true)

/-- The last READY that an edge counts: one that arrives in its cycle is counted after the test (20 R405). -/
def State.countedReady (s : State) : Option Nat := if s.readyAt = s.cycle then s.readyBefore else s.lastReady

/-- An edge at which the milepost becomes m: every head, a takeover made or seen before, and the standby's test (20 R401 to R405). -/
def EdgeMade (s s' : State) (m : Nat) : Prop :=
  s'.pkg.milepost = m ∧ s'.mem = s.mem ∧ s'.threads = s.threads ∧ s'.frames = s.frames ∧
  (s.takeover = false → ∀ h < s.fuses.heads, HeadAtEdge s s' m h) ∧
  (s.takeover = true → s.pkg.role ≠ 2 → (∀ h < s.fuses.heads, (s'.head h).en = false ∧ (s'.head h).linkup = false) ∧
    s'.pkg.deposed = true ∧ s'.takeover = false ∧ .msix s.pkg.vector ∈ s'.outputs) ∧
  (s.takeover = true → s.pkg.role = 2 → ∀ h < s.fuses.heads, (s'.head h).en = ((s.head h).en || testBit s.peerHeads h)) ∧
  (∀ r, s.pkg.role = 2 → s.pkg.took = false → s.countedReady = some r → r + s.pkg.margin < m →
    s'.pkg.took = true ∧ s'.takeover = true ∧ s'.outputs = s.outputs ++ [.takeoverPin, .msix s.pkg.vector]) ∧
  (∀ r, s.pkg.role = 2 → s.countedReady = some r → m ≤ r + s.pkg.margin → s'.pkg.took = s.pkg.took ∧ s'.outputs = s.outputs)

/-- The threads of a list that share a program counter of an execution context, and the longest wait among them (01 R23). -/
def atPc (l : List (FrameRef × Thread)) (key : Nat × Nat) : List (FrameRef × Thread) :=
  l.filter fun x => x.2.pc == key.1 && x.2.ctxid == key.2

def longestWait (l : List (FrameRef × Thread)) : Nat := l.foldl (fun (acc : Nat) x => max acc x.2.wait) 0

/-- The edges that heads have kept for the end of a frame, where that end has come (20 R403): the head's next frame starts, with the
buffer of the swap that took effect at the edge. -/
def WaitsTaken (s s' : State) : Prop :=
  s' = { s with heads := s'.heads, free := s'.free } ∧ ∀ h,
    let x := s.head h
    let y := s'.head h
    (h < s.fuses.heads → ¬ x.InFrame s.nanos → ∀ w, x.edge = some w →
      y = { x with start := s.nanos, framed := true, edge := none, line := 0, column := 0, base := w.elim x.base Prod.fst, late := y.late } ∧
      (∀ a, w = some (a, true) → x.late < 0xFFFF → y.late = x.late + 1) ∧ ((∀ a, w ≠ some (a, true)) → y.late = x.late)) ∧
    (s.fuses.heads ≤ h ∨ x.InFrame s.nanos ∨ x.edge = none → y = x)

/-- Nothing comes from outside in this step: no input stands, or the next is an access of another chip, which waits for the rest of
the cycle (20 R400). -/
def State.NoInput (s : State) : Prop := s.inputs = [] ∨ ∃ c a rest, s.inputs = .remoteAccess c a :: rest

/-- The issue of a group at a program counter, up to what it answers: the fetch ends every member, or the instruction runs (05 R97
to R105). -/
def Trial (s : State) (ks : List FrameRef) (pc : Nat) (o : Host.Outcome State Fault Refusal) : Prop :=
  (∃ s1, s.fetchGroup ks pc = (s1, none) ∧ o = .next s1) ∨ ∃ s1 i, s.fetchGroup ks pc = (s1, some i) ∧ o = exec i s1

/-- What an issue answers shows that an interlock holds a thread. -/
def HoldsBack (o : Host.Outcome State Fault Refusal) (k : FrameRef) : Prop :=
  ∃ s' t, o = .next s' ∧ s'.threads.get k = some t ∧ t.held = true

/-- A thread of several at a port whose own next instruction an interlock holds: it is not eligible (01 R22). -/
def HeldAlone (s : State) (l : List (FrameRef × Thread)) (k : FrameRef) : Prop :=
  2 ≤ l.length ∧ ∃ t o, (k, t) ∈ l ∧ Trial s [k] t.pc o ∧ HoldsBack o k

/-- Some threads are set aside for the rest of the cycle, and nothing else has happened. -/
def SetAside (s s' : State) (P : FrameRef → Prop) : Prop :=
  s' = { s with threads := s'.threads } ∧ ∀ j, (s.threads.get j = none → s'.threads.get j = none) ∧
    ∀ u, s.threads.get j = some u → ∃ w, s'.threads.get j = some w ∧ (P j → w = { u with held := true }) ∧ (¬ P j → w = u)

/-- After the issue of a group `ks` at port p from its eligible threads: what the instruction left, with the wait counter of each
eligible thread that did not issue raised, the core noted as active, and the next port (01 R22, R57). -/
def Issued (s' s2 : State) (p : Nat) (l : List (FrameRef × Thread)) (ks : List FrameRef) : Prop :=
  s2 = { s' with threads := s2.threads, cores := s2.cores, port := p + 1 } ∧
  s2.core (p / 8) = { s'.core (p / 8) with activeAt := some s'.cycle } ∧ (∀ g, g ≠ p / 8 → s2.core g = s'.core g) ∧
  ∀ j, s2.threads.get j = (s'.threads.get j).map fun t =>
    if j ∈ l.map Prod.fst ∧ j ∉ ks then { t with wait := min 511 (t.wait + 1) } else t

/-- What an instruction's bytes say at a slot of a bundle: its word, and the stall count that the control word gives it (05 R98). -/
def bundleSlot (bs : List Byte) (i : Nat) : Nat × Nat := (recNat bs (4 * i) 4, recNat bs 0 4 / 2 ^ (4 * i - 4) % 16)

end Sys2Proof.Machine
end

