-- ==== Sys2Proof/Certificates/Slice0/Obligations.lean ====
section
/-! DEFINITION. The statements for the provers. -/

open Sys2Proof Sys2Proof.Machine

/-- 07 R139 to R142: the 32-bit integer instructions write the exact result modulo 2^32 with the tag of their form, read through
whatever lane pattern, with latency 2 or 4 (two more under a pattern), and change nothing else. -/
def Obligations.IntegerArithmetic : Prop :=
  ∀ (px : Option Pats) (d a b : Reg) (ty : Ty) (im : Imm),
    Computes (.add px d a b ty) [srcA px a 1 (some tagsInt), srcB px b 1 (some tagsInt)] d.val 1 (some (lat px 2))
      (Gives fun v rs => rs = [(BitVec.ofInt 32 (argZ v 0 + argZ v 1), tyTag ty)]) ∧
    Computes (.sub px d a b ty) [srcA px a 1 (some tagsInt), srcB px b 1 (some tagsInt)] d.val 1 (some (lat px 2))
      (Gives fun v rs => rs = [(BitVec.ofInt 32 (argZ v 0 - argZ v 1), tyTag ty)]) ∧
    Computes (.addi px d a im) [srcA px a 1 (some tagsInt)] d.val 1 (some (lat px 2))
      (Gives fun v rs => rs = [(BitVec.ofInt 32 (argZ v 0 + immInt im), if (arg v 0).2 = .n32 then .n32 else .s32)]) ∧
    Computes (.mul px d a b ty) [srcA px a 1 (some tagsInt), srcB px b 1 (some tagsInt)] d.val 1 (some (lat px 4))
      (Gives fun v rs => rs = [(BitVec.ofInt 32 (tyVal ty (argW v 0) * tyVal ty (argW v 1)), tyTag ty)]) ∧
    Computes (.mulhi px d a b ty) [srcA px a 1 (some tagsInt), srcB px b 1 (some tagsInt)] d.val 1 (some (lat px 4))
      (Gives fun v rs => rs = [(BitVec.ofInt 32 (tyVal ty (argW v 0) * tyVal ty (argW v 1) / 2 ^ 32), tyTag ty)]) ∧
    Computes (.mad px d a b ty) [srcA px a 1 (some tagsInt), srcB px b 1 (some tagsInt), srcD px d 1 (some tagsInt)] d.val 1
      (some (lat px 4))
      (Gives fun v rs => rs = [(BitVec.ofInt 32 (tyVal ty (argW v 0) * tyVal ty (argW v 1) + argZ v 2), tyTag ty)]) ∧
    Computes (.minI px d a b ty) [srcA px a 1 (some tagsInt), srcB px b 1 (some tagsInt)] d.val 1 (some (lat px 2))
      (Gives fun v rs => rs = [(BitVec.ofInt 32 (min (tyVal ty (argW v 0)) (tyVal ty (argW v 1))), tyTag ty)]) ∧
    Computes (.maxI px d a b ty) [srcA px a 1 (some tagsInt), srcB px b 1 (some tagsInt)] d.val 1 (some (lat px 2))
      (Gives fun v rs => rs = [(BitVec.ofInt 32 (max (tyVal ty (argW v 0)) (tyVal ty (argW v 1))), tyTag ty)]) ∧
    Computes (.absI px d a) [srcA px a 1 (some tagsInt)] d.val 1 (some (lat px 2))
      (Gives fun v rs => rs = [(BitVec.ofInt 32 (|(argW v 0).toInt|), .s32)]) ∧
    Computes (.neg px d a) [srcA px a 1 (some tagsInt)] d.val 1 (some (lat px 2))
      (Gives fun v rs => rs = [(BitVec.ofInt 32 (-(argW v 0).toInt), .s32)])

/-- 07 R139, R150, R152: the pair forms write their 64-bit value to two registers, and MOV.b64 the two source registers. -/
def Obligations.PairForms : Prop :=
  ∀ (px : Option Pats) (d a b : Reg) (f : Bool) (sh : Fin 8),
    Computes (.add64 px d a b f) [srcA px a 2 (some tagsWide), srcB px b 2 (some tagsWide)] d.val 2 (some (lat px 3))
      (Gives fun v rs => groupNat rs = (argN v 0 + argN v 1) % 2 ^ 64 ∧ ∀ r ∈ rs, r.2 = .w64) ∧
    Computes (.sub64 px d a b f) [srcA px a 2 (some tagsWide), srcB px b 2 (some tagsWide)] d.val 2 (some (lat px 3))
      (Gives fun v rs => (groupNat rs : Int) = ((argN v 0 : Int) - argN v 1) % 2 ^ 64 ∧ ∀ r ∈ rs, r.2 = .w64) ∧
    Computes (.lea px d a b f sh) [srcA px a 2 (some tagsWide), srcB px b 1 (some tagsInt)] d.val 2 (some (lat px 3))
      (Gives fun v rs =>
        (groupNat rs : Int) = ((argN v 0 : Int) + (if f then (argW v 1).toInt else (argW v 1).toNat) * 2 ^ sh.val) % 2 ^ 64 ∧
          ∀ r ∈ rs, r.2 = .w64) ∧
    Computes (.movB64 px d a) [srcA px a 2 none] d.val 2 (some (lat px 3)) (Gives fun v rs => v = [rs])

/-- 07 R143 to R145: logic bit by bit, and shifts by register and by immediate, with the results of R144 for amounts of 32 and
more. -/
def Obligations.LogicAndShifts : Prop :=
  ∀ (px : Option Pats) (d a b : Reg) (n : Fin 32),
    ComputesRaw2 (.andB px d a b) px d a b (Bitwise fun p q => p && q) ∧
    ComputesRaw2 (.orB px d a b) px d a b (Bitwise fun p q => p || q) ∧
    ComputesRaw2 (.xorB px d a b) px d a b (Bitwise fun p q => p != q) ∧
    ComputesRaw2 (.andn px d a b) px d a b (Bitwise fun p q => p && !q) ∧
    ComputesRaw2 (.shl px d a b) px d a b (fun x y r => ShiftedLeft x y.toNat r) ∧
    ComputesRaw2 (.shr px d a b) px d a b (fun x y r => ShiftedRight x y.toNat r) ∧
    ComputesRaw2 (.sha px d a b) px d a b (fun x y r => ShiftedArith x y.toNat r) ∧
    ComputesRaw2 (.rot px d a b) px d a b (fun x y r => Rotated x y.toNat r) ∧
    ComputesRaw1 (.shlImm px d a n) px d a (fun x r => ShiftedLeft x n.val r) ∧
    ComputesRaw1 (.shrImm px d a n) px d a (fun x r => ShiftedRight x n.val r) ∧
    ComputesRaw1 (.shaImm px d a n) px d a (fun x r => ShiftedArith x n.val r) ∧
    ComputesRaw1 (.rotImm px d a n) px d a (fun x r => Rotated x n.val r)

/-- 07 R146, R147: bit fields within the word, population count, leading zeros and bit reversal. -/
def Obligations.BitFields : Prop :=
  ∀ (px : Option Pats) (d a : Reg) (sx : Bool) (l p : Fin 32), p.val + (l.val + 1) ≤ 32 →
    ComputesRaw1 (.bfx px d a sx l p) px d a (fun x r => ∀ k < 32,
      r.getLsbD k = if k ≤ l.val then x.getLsbD (p.val + k) else sx && x.getLsbD (p.val + l.val)) ∧
    Computes (.bfi px d a l p) [srcA px a 1 none, srcD px d 1 none] d.val 1 (some (lat px 2))
      (GivesRaw fun v r => ∀ k < 32,
        r.getLsbD k = if p.val ≤ k ∧ k ≤ p.val + l.val then (argW v 0).getLsbD (k - p.val) else (argW v 1).getLsbD k) ∧
    Computes (.popc px d a) [srcA px a 1 none] d.val 1 (some (lat px 2))
      (Gives fun v rs => rs = [(BitVec.ofNat 32 ((List.range 32).filter fun k => (argW v 0).getLsbD k).length, .n32)]) ∧
    Computes (.clz px d a) [srcA px a 1 none] d.val 1 (some (lat px 2))
      (Gives fun v rs => ∃ n ≤ 32, rs = [(BitVec.ofNat 32 n, .n32)] ∧ (∀ k < 32, 32 ≤ k + n → (argW v 0).getLsbD k = false) ∧
        (n < 32 → (argW v 0).getLsbD (31 - n) = true)) ∧
    ComputesRaw1 (.brev px d a) px d a (fun x r => ∀ k < 32, r.getLsbD (31 - k) = x.getLsbD k)

/-- 07 R148 to R151, 08 R195: compare, select, move, constants and TAG. -/
def Obligations.CompareSelectMove : Prop :=
  ∀ (px : Option Pats) (d a b : Reg) (c : Cc) (tag : Tag) (im : Imm),
    Computes (.cmp px d a b c) [srcA px a 1 (some tagsInt), srcB px b 1 (some tagsInt)] d.val 1 (some (lat px 2))
      (Gives fun v rs => (CcHolds c (argW v 0) (argW v 1) → rs = [(1, .n32)]) ∧
        (¬ CcHolds c (argW v 0) (argW v 1) → rs = [(0, .n32)])) ∧
    Computes (.sel px d a b) [srcA px a 1 none, srcB px b 1 none, srcD px d 1 none] d.val 1 (some (lat px 2))
      (Gives fun v rs => rs = [if argW v 2 = 0 then arg v 1 else arg v 0]) ∧
    Computes (.mov px d a) [srcA px a 1 none] d.val 1 (some (lat px 2)) (Gives fun v rs => v = [rs]) ∧
    Computes (.li d tag im) [] d.val 1 (some 2) (Gives fun _ rs => rs = [(BitVec.ofInt 32 (immInt im), tag)]) ∧
    Computes (.tagOp px d a tag) [srcA px a 1 none] d.val 1 (some (lat px 2)) (Gives fun v rs => rs = [(argW v 0, tag)])

/-- 07 R153 to R157: transfers of control. Each member decides and computes its target from its own registers; a target that 05
R103 accepts becomes its pc, a transfer not taken goes on to the next instruction, and CALL writes the link. A relative target that
leaves the 57-bit space wraps (the model's choice, log 68). 05 R103: a transfer may go to a multiple of 4 that is no control word and
whose preceding word in the bundle is no prefix; one that cannot be fetched is none (the model's choice, log 67). -/
def Obligations.Transfers : Prop :=
  (
    ∀ (o : BitVec 25) (a : Reg) (im : Imm),
      Does (.br o) {
        ready := fun s is k t _ => s.targetOk (t.who k) (relTarget is.inst o.toInt) = true
        pc := fun _ is _ _ _ => (((is.inst : Int) + 4 * o.toInt) % 2 ^ 57).toNat } ∧
      Does (.call o) {
        dest := 127, regs := 1, latency := some 2
        result := fun _ is _ _ _ rs => rs = [(BitVec.ofNat 32 (nextPc is.inst), .n32)]
        ready := fun s is k t _ => s.targetOk (t.who k) (relTarget is.inst o.toInt) = true
        pc := fun _ is _ _ _ => (((is.inst : Int) + 4 * o.toInt) % 2 ^ 57).toNat } ∧
      Does (.bz a im) {
        srcs := [ownSrc a 1 none]
        ready := fun s is k t v => argW v 0 = 0 → s.targetOk (t.who k) (relTarget is.inst (immInt im)) = true
        pc := fun _ is _ _ v => if argW v 0 = 0 then (((is.inst : Int) + 4 * immInt im) % 2 ^ 57).toNat else nextPc is.inst } ∧
      Does (.bnz a im) {
        srcs := [ownSrc a 1 none]
        ready := fun s is k t v => argW v 0 ≠ 0 → s.targetOk (t.who k) (relTarget is.inst (immInt im)) = true
        pc := fun _ is _ _ v => if argW v 0 ≠ 0 then (((is.inst : Int) + 4 * immInt im) % 2 ^ 57).toNat else nextPc is.inst } ∧
      Does (.jr a) {
        srcs := [ownSrc a 1 (some tagsWide)]
        ready := fun s is k t v => s.targetOk (t.who k) (is.inst / 2 ^ 32 * 2 ^ 32 + (argW v 0).toNat) = true
        pc := fun _ is _ _ v => is.inst / 2 ^ 32 * 2 ^ 32 + (argW v 0).toNat } ∧
      Does (.ret a) {
        srcs := [ownSrc a 1 (some tagsWide)]
        ready := fun s is k t v => s.targetOk (t.who k) (is.inst / 2 ^ 32 * 2 ^ 32 + (argW v 0).toNat) = true
        pc := fun _ is _ _ v => is.inst / 2 ^ 32 * 2 ^ 32 + (argW v 0).toNat } ∧
      Does (.jrB64 a) {
        srcs := [ownSrc a 2 (some tagsWide)]
        ready := fun s _ k t v => argN v 0 < 2 ^ 57 ∧ s.targetOk (t.who k) (argN v 0) = true
        pc := fun _ _ _ _ v => argN v 0 }) ∧
  (
    ∀ (s : State) (who : Who) (a : Nat),
      (a % 4 ≠ 0 ∨ a % 32 = 0 → s.targetOk who a = false) ∧
      (a % 32 = 4 → s.targetOk who a = true) ∧
      (∀ w, a % 4 = 0 → 8 ≤ a % 32 → s.peekWord who (a - 4) = some w →
        (s.targetOk who a = true ↔ w / 2 ^ 25 % 128 ≠ 0x7C ∧ w / 2 ^ 25 % 128 ≠ 0x7D)))

/-- 07 R159 to R161, 01 R26, R55: YIELD and NOP change nothing but the thread's progress, and WIN, by immediate (16 × N) and by
register, moves the window to a multiple of 16 within the allocation. -/
def Obligations.YieldNopWindow : Prop :=
  ∀ (n : Fin 64) (a : Reg),
    Does .nop {} ∧
    Does .yield { yields := true } ∧
    Does (.winImm n) {
      ready := fun _ _ _ t _ => 16 * n.val < t.alloc
      thread := fun _ _ _ t _ => { t with winbase := 16 * n.val } } ∧
    Does (.winReg a) {
      srcs := [ownSrc a 1 (some tagsInt)]
      ready := fun _ _ _ t v => (argW v 0).toNat % 16 = 0 ∧ (argW v 0).toNat < t.alloc
      thread := fun _ _ _ t v => { t with winbase := (argW v 0).toNat } }

/-- 07 R154 to R157: a transfer taken to an address that 05 R103 refuses has no effect; it ends the thread with BAD_TARGET and
the target as fault address. A relative target wraps modulo 2^57, and a word before it that cannot be fetched is no prefix (the model's
choices, logs 68 and 67). -/
def Obligations.BadTargets : Prop :=
  ∀ (o : BitVec 25) (a : Reg) (im : Imm),
    (∀ s is k t, Alone s is k t → (s.frames.get k).isSome = true → s.targetOk (t.who k) (relTarget is.inst o.toInt) = false →
      ∃ s' : State, exec (.br o) s = .next s' ∧ Faulted s' k 0x0006 (relTarget is.inst o.toInt)) ∧
    (∀ s is k t, Alone s is k t → (s.frames.get k).isSome = true → Readable s is t [] [(127, 1)] [] →
      s.targetOk (t.who k) (relTarget is.inst o.toInt) = false →
      ∃ s' : State, exec (.call o) s = .next s' ∧ Faulted s' k 0x0006 (relTarget is.inst o.toInt)) ∧
    (∀ s is k t v, Alone s is k t → (s.frames.get k).isSome = true → Readable s is t [ownSrc a 1 none] [] v →
      s.targetOk (t.who k) (relTarget is.inst (immInt im)) = false →
      (argW v 0 = 0 → ∃ s' : State, exec (.bz a im) s = .next s' ∧ Faulted s' k 0x0006 (relTarget is.inst (immInt im))) ∧
      (argW v 0 ≠ 0 → ∃ s' : State, exec (.bnz a im) s = .next s' ∧ Faulted s' k 0x0006 (relTarget is.inst (immInt im)))) ∧
    (∀ s is k t v, Alone s is k t → (s.frames.get k).isSome = true → Readable s is t [ownSrc a 1 (some tagsWide)] [] v →
      s.targetOk (t.who k) (is.inst / 2 ^ 32 * 2 ^ 32 + (argW v 0).toNat) = false →
      (∃ s' : State, exec (.jr a) s = .next s' ∧ Faulted s' k 0x0006 (is.inst / 2 ^ 32 * 2 ^ 32 + (argW v 0).toNat)) ∧
      (∃ s' : State, exec (.ret a) s = .next s' ∧ Faulted s' k 0x0006 (is.inst / 2 ^ 32 * 2 ^ 32 + (argW v 0).toNat))) ∧
    FaultsWith (.jrB64 a) [ownSrc a 2 (some tagsWide)] []
      (fun s _ k t v => 2 ^ 57 ≤ argN v 0 ∨ s.targetOk (t.who k) (argN v 0) = false) 0x0006 (fun v => argN v 0)

/-- 03 R72, 07 R171: SREG writes the special register chosen, with its tag. A supervisor register needs state trapped, and
%winstat that no window read is in flight (08 R203). 07 R172, R173: TIME writes the larger of the die's timebase and the
FLOOR of the thread's frame; CAPS the capability words, and 0 from index 6 on. -/
def Obligations.SpecialRegisterReads : Prop :=
  (
    ∀ (d : Reg) (r : Sreg),
      Does (.sreg d r) {
        dest := d.val, regs := if r.wide then 2 else 1, latency := some (if r = .time then 3 else 2)
        ready := fun _ _ _ t _ => (0x40 ≤ Sreg.code r → t.trapped = true) ∧
          (r = .winstat → ∀ l ∈ t.loads, l.window = none)
        result := fun s _ k t _ rs =>
          (∀ x ∈ rs, x.2 = if r.wide then .w64 else if r = .trapinst then .raw else .n32) ∧
          groupNat rs = (match r with
            | .tid => t.tid
            | .lane => t.lane
            | .part => t.part
            | .core => coreOf k % 36
            | .gcore => coreOf k
            | .cluster => coreOf k % 36 / 4
            | .die => coreOf k / 36
            | .ctx => t.cx
            | .frame => k % 2 ^ 20
            | .seq => t.seq
            | .grid => t.grid
            | .lgroup => t.lgroup
            | .launch => t.launch
            | .alloc => t.alloc
            | .winbase => t.winbase
            | .phase => t.phase
            | .winstat => t.winstat
            | .time => s.timeOf k
            | .mode => if t.trapped then 1 else 0
            | .spawnctl => (s.core (coreOf k)).binTimer +
                2 ^ 16 * (if (s.core (coreOf k)).heldSplit.getD (s.core (coreOf k)).splitEn then 1 else 0)
            | .framearea => (s.core (coreOf k)).heldBase.getD (s.frameBase (coreOf k))
            | .framelim => (s.core (coreOf k)).heldLim.getD (s.core (coreOf k)).frameLim
            | .trapcode => t.trapcode
            | .trappc => t.resInst
            | .trapaddr => t.trapaddr
            | .trapinst => t.trapinst.toNat) % 2 ^ (if r.wide then 64 else 32) }) ∧
  (
    (∀ d : Reg, Does (.time d) {
      dest := d.val, regs := 2, latency := some 3
      result := fun s _ k _ _ rs => (∀ x ∈ rs, x.2 = .w64) ∧
        ∀ f, s.frames.get k = some f → groupNat rs = max (s.timebase (coreOf k / 36)) f.floor % 2 ^ 64 }) ∧
    ∀ (d : Reg) (c : Fin 128), Does (.caps d c) {
      dest := d.val, regs := 1, latency := some 2
      result := fun s _ k _ _ rs => (∀ x ∈ rs, x.2 = .n32) ∧
        (6 ≤ c.val → groupNat rs = 0) ∧
        (c.val = 0 → groupNat rs % 2 = bit s.fuses.carver ∧ groupNat rs / 2 % 2 = bit (s.hasRays (coreOf k)) ∧
          groupNat rs / 4 % 2 = bit (s.allCores.any s.hasRays) ∧
          (s.fuses.heads ≤ 4 → s.fuses.ports ≤ 8 → s.fuses.dies ∈ [1, 2, 3, 4] →
            groupNat rs / 8 % 8 = s.fuses.heads ∧ groupNat rs / 64 % 16 = s.fuses.ports ∧
            groupNat rs / 2 ^ 10 % 4 = s.fuses.dies - 1 ∧ groupNat rs / 2 ^ 12 = bit s.pkg.wincfg)) ∧
        (c.val = 1 → groupNat rs % 2 ^ 8 = 1 ∧ (s.fuses.part < 2 ^ 8 → groupNat rs / 2 ^ 8 = s.fuses.part)) ∧
        (c.val = 2 → s.allCores.length < 2 ^ 16 →
          groupNat rs % 2 ^ 8 = countBits (s.enableMask (coreOf k / 36)) 36 ∧ groupNat rs / 2 ^ 16 = s.allCores.length) ∧
        (c.val = 3 → groupNat rs = s.enableMask (coreOf k / 36) % 2 ^ 32) ∧
        (c.val = 4 → groupNat rs = s.enableMask (coreOf k / 36) / 2 ^ 32 % 16) ∧
        (c.val = 5 → groupNat rs = s.fuses.memGb % 2 ^ 32) })

/-- 07 R166 to R168: TRAP outside state trapped, in a context with a handler, takes USER_TRAP: the code, the word, the operand
and the resume point are recorded, and the thread goes on in state trapped at the handler, after its stall count and, where it leaves a
bundle with a yield hint, one cycle more (05 R101). Its registers hold what they held. 07 R166: a trap of a thread in state trapped, or in a context without a handler, ends the thread with the trap's code
and address. -/
def Obligations.Traps : Prop :=
  (
    ∀ (a : Reg) s is k t v, Alone s is k t → Readable s is t [ownSrc a 1 none] [] v → t.trapped = false → s.handler k t ≠ 0 →
      ∃ s' u, exec (.trap a) s = .next s' ∧ OnlyGroup s s' is ∧ s'.threads.get k = some u ∧
        u = { t with regs := u.regs, writes := u.writes, trapped := true, pc := s.handler k t, trapcode := 0x0100,
                     trapaddr := (argW v 0).toNat, trapinst := is.word, resFirst := is.first, resInst := is.inst,
                     resReplaced := false, wait := 0,
                     stall := s.cycle + 1 + is.stall + (if is.hint = true ∧ s.handler k t / 32 ≠ is.inst / 32 then 1 else 0) } ∧
        ∀ r, u.latest r = t.latest r ∧ (t.writes.all (fun w => w.need ≤ 65) = true → u.reg r = t.latest r)) ∧
  (
    ∀ (a : Reg), FaultsWith (.trap a) [ownSrc a 1 none] [] (fun s _ k t _ => t.trapped = true ∨ s.handler k t = 0) 0x0100
      (fun v => (argW v 0).toNat))

/-- 07 R170: the return from state trapped: ERET to the instruction after the resume point's, ERET.RETRY to the first word of
its group, or to the address that SSET has put in its place. Nothing else of the thread changes. 05 R118, 07 R170, R174, 03
R72: outside state trapped, the privileged instructions and the supervisor selectors of SREG end the thread with PRIV_OP. -/
def Obligations.TrapReturnAndPrivilege : Prop :=
  (
    Does .eret {
      ready := fun s _ k t _ => t.trapped = true ∧ (t.resReplaced = true → s.targetOk (t.who k) t.resInst = true)
      thread := fun _ _ _ t _ => { t with trapped := false }
      pc := fun _ _ _ t _ => if t.resInst % 32 = 28 then t.resInst + 8 else t.resInst + 4 } ∧
    Does .eretRetry {
      ready := fun s _ k t _ => t.trapped = true ∧ (t.resReplaced = true → s.targetOk (t.who k) t.resInst = true)
      thread := fun _ _ _ t _ => { t with trapped := false }
      pc := fun _ _ _ t _ => if t.resReplaced then t.resInst else t.resFirst }) ∧
  (
    ∀ (a b d : Reg) (r : Sreg) (x : Sset) (sc : Scope) (n : Fin 128),
      FaultsWith .eret [] [] InUserState 0x0005 ∧ FaultsWith .eretRetry [] [] InUserState 0x0005 ∧
      FaultsWith (.trapvec a) [ownSrc a 2 (some tagsWide)] [] InUserState 0x0005 ∧
      FaultsWith (.sset a x) [ownSrc a (if x = .framearea then 2 else 1) none] [] InUserState 0x0005 ∧
      FaultsWith (.tlbinv a sc) [ownSrc a 2 (some tagsWide)] [] InUserState 0x0005 ∧
      FaultsWith (.sfault a b) [ownSrc a 1 (some tagsInt), ownSrc b 2 (some tagsWide)] [] InUserState 0x0005 ∧
      FaultsWith (.xget d n) [] [(d.val, 1)] (fun _ _ _ t _ => t.trapped = false ∧ t.winbase + n.val < t.alloc) 0x0005 ∧
      FaultsWith (.xput n a) [ownSrc a 1 none] [] (fun _ _ _ t _ => t.trapped = false ∧ t.winbase + n.val < t.alloc) 0x0005 ∧
      (0x40 ≤ Sreg.code r → FaultsWith (.sreg d r) [] [(d.val, if r.wide then 2 else 1)] InUserState 0x0005))

/-- 07 R165, R175, R176: in state trapped, TRAPVEC sets the handler entry of the thread's context on its core, and SSET the
spawn control registers, held while the core has a frame, or the low half of the resume point. 07 R165, R176, R181: traps and
split requests of the cycle of the write still use the old handler entry and SPLITEN; the end of the cycle puts the new ones in
force. -/
def Obligations.SupervisorWrites : Prop :=
  (∀ (s : State) (g : Nat), (s.core g).heldHandlers.keys.Nodup →
    (∀ cx, (s.tick.core g).handlers.getD cx 0 = ((s.core g).heldHandlers.get cx).getD ((s.core g).handlers.getD cx 0)) ∧
    (s.tick.core g).heldHandlers = [] ∧ (s.tick.core g).splitEn = (s.core g).heldSplit.getD (s.core g).splitEn ∧
    (s.tick.core g).heldSplit = none) ∧
  ∀ (a : Reg) s is k t, Alone s is k t → t.trapped = true →
    (∀ v, Readable s is t [ownSrc a 2 (some tagsWide)] [] v →
      (argN v 0 % 2 ^ 57 = 0 ∨ argN v 0 % 2 ^ 57 % 32 = 4) →
      ∃ s' u, exec (.trapvec a) s = .next s' ∧ s'.threads.get k = some u ∧
        s' = { s with threads := s'.threads, issue := none,
                      cores := s.cores.put (coreOf k) { s.core (coreOf k) with
                        heldHandlers := (s.core (coreOf k)).heldHandlers.put t.ctxid (argN v 0 % 2 ^ 57) } } ∧
        (∀ j, j ≠ k → s'.threads.get j = s.threads.get j) ∧
        GoesTo s is t false (nextPc is.inst) u ∧ ∀ r, u.latest r = t.latest r) ∧
    (∀ v, Readable s is t [ownSrc a 1 none] [] v →
      (∃ s' u, exec (.sset a .spawnctl) s = .next s' ∧ s'.threads.get k = some u ∧
        s' = { s with threads := s'.threads, issue := none,
                      cores := s.cores.put (coreOf k) { s.core (coreOf k) with
                        binTimer := max 16 ((argW v 0).toNat % 2 ^ 16), heldSplit := some ((argW v 0).getLsbD 16) } } ∧
        GoesTo s is t false (nextPc is.inst) u ∧ ∀ r, u.latest r = t.latest r) ∧
      (∃ s' u, exec (.sset a .framelim) s = .next s' ∧ s'.threads.get k = some u ∧
        let n := min 1048576 (max 4096 ((argW v 0).toNat % 2 ^ 21))
        (s.frames.any (fun f => coreOf f.1 == coreOf k) = true →
          (s'.core (coreOf k)).heldLim = some n ∧ (s'.core (coreOf k)).frameLim = (s.core (coreOf k)).frameLim) ∧
        (s.frames.any (fun f => coreOf f.1 == coreOf k) = false →
          (s'.core (coreOf k)).heldLim = none ∧ (s'.core (coreOf k)).frameLim = n) ∧
        s'.mem = s.mem ∧ GoesTo s is t false (nextPc is.inst) u ∧ ∀ r, u.latest r = t.latest r) ∧
      (∃ s' u, exec (.sset a .trappc) s = .next s' ∧ s'.threads.get k = some u ∧ OnlyGroup s s' is ∧
        let pc := t.resInst / 2 ^ 32 * 2 ^ 32 + (argW v 0).toNat
        GoesTo s is { t with resFirst := pc, resInst := pc, resReplaced := true } false (nextPc is.inst) u ∧
        ∀ r, u.latest r = t.latest r)) ∧
    (∀ v, Readable s is t [ownSrc a 2 none] [] v →
      ∃ s' u, exec (.sset a .framearea) s = .next s' ∧ s'.threads.get k = some u ∧
        let b := argN v 0 / 4096 % 2 ^ 40 * 4096
        (s.frames.any (fun f => coreOf f.1 == coreOf k) = true →
          (s'.core (coreOf k)).heldBase = some b ∧ (s'.core (coreOf k)).frameBase = (s.core (coreOf k)).frameBase) ∧
        (s.frames.any (fun f => coreOf f.1 == coreOf k) = false →
          (s'.core (coreOf k)).heldBase = none ∧ (s'.core (coreOf k)).frameBase = some b) ∧
        s'.mem = s.mem ∧ GoesTo s is t false (nextPc is.inst) u ∧ ∀ r, u.latest r = t.latest r)

/-- 07 R178 to R180: in state trapped, SFAULT ends the thread with the code and address given, TLBINV makes it wait, XGET reads
and XPUT writes a register through the user window. 07 R178, 14 R323: when every core has dropped the entries of TLBINV, no
core holds a translation of the address space that is named, or of the page of the address; the thread goes on in its
handler. Each walk cache drops all it holds, which may be more than the entries named (the model's choice, log 15). -/
def Obligations.SupervisorAccess : Prop :=
  (
    ∀ (a b d : Reg) (n : Fin 128) (sc : Scope),
      (∀ s is k t v, Alone s is k t → (s.frames.get k).isSome = true → t.trapped = true →
        Readable s is t [ownSrc a 1 (some tagsInt), ownSrc b 2 (some tagsWide)] [] v →
        ∃ s' : State, exec (.sfault a b) s = .next s' ∧
          Faulted s' k (if (argW v 0).toNat % 2 ^ 16 = 0 then t.trapcode else (argW v 0).toNat % 2 ^ 16) (argN v 1)) ∧
      (∀ s is k t v, Alone s is k t → t.trapped = true → Readable s is t [ownSrc a 2 (some tagsWide)] [] v →
        ∃ s' u, exec (.tlbinv a sc) s = .next s' ∧ s'.threads.get k = some u ∧
          u.run = .engine (.tlbinv (sc == .space) (argN v 0 % 2 ^ 57)) ∧ u.trapped = true ∧ u.pc = nextPc is.inst ∧
          (∀ j, j ≠ k → s'.threads.get j = s.threads.get j) ∧ (∀ x ∈ s'.stores, x.thread ≠ k)) ∧
      Does (.xget d n) {
        dest := d.val, regs := 1
        ready := fun _ _ _ t _ => t.trapped = true ∧ t.winbase + n.val < t.alloc ∧ t.pending (t.winbase + n.val) = false ∧
          (t.check = true → t.early (t.winbase + n.val) = false)
        result := fun _ _ _ t _ rs => rs = [t.reg (t.winbase + n.val)] } ∧
      (∀ s is k t v, Alone s is k t → Readable s is t [ownSrc a 1 none] [] v → t.trapped = true →
        t.winbase + n.val < t.alloc → t.pending (t.winbase + n.val) = false →
        ∃ s' u, exec (.xput n a) s = .next s' ∧ OnlyGroup s s' is ∧ s'.threads.get k = some u ∧
          GoesTo s is t false (nextPc is.inst) u ∧
          ∀ r, u.latest r = if r = t.winbase + n.val then arg v 0 else t.latest r)) ∧
  (
    ∀ s k t all va, s.threads.get k = some t → t.susp = none → t.run = .engine (.tlbinv all va) →
      ∃ s' : State, exec (.tlbinvComplete k) s = .next s' ∧
        s' = { s with threads := s'.threads, cores := s'.cores, dies := s'.dies } ∧
        (∀ j, s'.threads.get j = (s.threads.get j).map fun w => if j = k
          then { w with run := .ready, wait := 0, stall := max w.stall (s.cycle + 1) } else w) ∧
        (∀ g e, e ∈ (s'.core g).tlb ↔ e ∈ (s.core g).tlb ∧
          ¬ (e.root = (s.ctx t.ctxid).root ∧ (all = true ∨ e.base ≤ va ∧ va < e.base + e.size))) ∧
        ∀ p d, s'.dies.get p = some d → d.walks = [])

/-- 01 R55, 07 R160, R164: GROW and SHRINK by immediate (16 × N) and by register; a GROW that the lane cannot grant waits, behind those
of the lane that wait already, and in state trapped too (there the model's choice, log 52). 01 R55, 07 R161: a window or an allocation
outside its range ends the thread with REG_RANGE. -/
def Obligations.WindowsAndAllocation : Prop :=
  (
    ∀ (n : Fin 64) (a : Reg),
      Grows (.growImm n) [] (fun _ => 16 * n.val) ∧ Grows (.growReg a) [ownSrc a 1 (some tagsInt)] windowArg ∧
      Shrinks (.shrinkImm n) [] (fun _ => 16 * n.val) ∧ Shrinks (.shrinkReg a) [ownSrc a 1 (some tagsInt)] windowArg) ∧
  (
    ∀ (n : Fin 64) (a : Reg),
      FaultsWith (.winImm n) [] [] (fun _ _ _ t _ => t.alloc ≤ 16 * n.val) 0x0002 ∧
      FaultsWith (.winReg a) [ownSrc a 1 (some tagsInt)] [] (fun _ _ _ t v => windowArg v % 16 ≠ 0 ∨ t.alloc ≤ windowArg v) 0x0002 ∧
      FaultsWith (.growImm n) [] [] (fun _ _ _ _ _ => 512 < 16 * n.val) 0x0002 ∧
      FaultsWith (.growReg a) [ownSrc a 1 (some tagsInt)] [] (fun _ _ _ _ v => windowArg v % 16 ≠ 0 ∨ 512 < windowArg v) 0x0002 ∧
      FaultsWith (.shrinkImm n) [] [] (fun _ _ _ t _ => 16 * n.val ≤ t.winbase ∨ n.val = 0) 0x0002 ∧
      FaultsWith (.shrinkReg a) [ownSrc a 1 (some tagsInt)] []
        (fun _ _ _ t v => windowArg v % 16 ≠ 0 ∨ windowArg v ≤ t.winbase ∨ windowArg v < 16) 0x0002)

/-- 07 R158, 01 R20, R21, R53: EXIT waits for the thread's own accesses, then for its children; with none left the thread ends,
with CHILD_FAULT's record where a child faulted or was killed; a frame that holds no record (children that were killed) gives its own
place and address 0 (the model's choice, log 19). A member that 01 R53 does not let end faults with
CLUSTER_EXIT. 07 R168, 18 R389: BRK of a debugged launch makes a stop of every resident thread of the launch on the core, to
which no other stop has come, and the thread goes on to the next instruction; elsewhere it ends the thread with BREAKPOINT. -/
def Obligations.ExitAndBreakpoint : Prop :=
  (
    (Leads .exitT [] [] (fun s _ k t _ => (∀ g, t.group = some g → g.barred = true ∧ g.foreign = false) ∧ s.busy k t = true)
      fun s is k t _ s' => OnlyGroup s s' is ∧ s'.threads.get k = some { t with draining := true }) ∧
    (Leads .exitT [] [] (fun s _ k t _ => (∀ g, t.group = some g → g.barred = true ∧ g.foreign = false) ∧ s.busy k t = false ∧
        ∃ f, s.frames.get k = some f ∧ 0 < f.live)
      fun s _ k _ _ s' => s' = { s with threads := s'.threads, frames := s'.frames, issue := none } ∧
        (∀ j, j ≠ k → s'.threads.get j = s.threads.get j) ∧ (∃ u, s'.threads.get k = some u ∧ u.run = .await true 0) ∧
        ∀ j, s'.frames.get j = (s.frames.get j).map fun f => if j = k then { f with exiting := true } else f) ∧
    (Leads .exitT [] [] (fun s _ k t _ => (∀ g, t.group = some g → g.barred = true ∧ g.foreign = false) ∧ s.busy k t = false ∧
        ∃ f, s.frames.get k = some f ∧ f.live = 0 ∧ f.nfault = 0 ∧ f.nkill = 0)
      fun _ _ k _ _ s' => Ended s' k .ok) ∧
    (∀ s is k t f, Alone s is k t → s.frames.get k = some f → (∀ g, t.group = some g → g.barred = true ∧ g.foreign = false) →
      s.busy k t = false → f.live = 0 → f.nfault + f.nkill ≠ 0 →
      ∃ s' : State, exec .exitT s = .next s' ∧
        (f.fvalid = true → f.frec.addr < 2 ^ 57 → Faulted s' k f.frec.code f.frec.addr) ∧
        (f.fvalid = false → Faulted s' k 0x0010 0)) ∧
    FaultsWith .exitT [] [] (fun _ _ _ t _ => ∃ g, t.group = some g ∧ (g.barred = false ∨ g.foreign = true)) 0x0011) ∧
  (
    (Leads .brk [] [] (fun s _ _ t _ => ∃ l, s.launches.get t.launch = some l ∧ l.debug = true)
      fun s is k t _ s' =>
        s' = { s with threads := s'.threads, issue := none, nextId := s.nextId + 1,
                      ctxs := s.ctxs.put t.ctxid { s.ctx t.ctxid with
                        stops := (s.ctx t.ctxid).stops ++ [⟨s.nextId, 1, t.launch, some (coreOf k, t.part, t.lane, t.cx), false⟩] } } ∧
        (∀ j w, j ≠ k → s.threads.get j = some w →
          s'.threads.get j = some (if w.launch = t.launch ∧ coreOf j = coreOf k ∧ w.susp = none ∧ w.stopping = none
            then { w.askStop with stopping := some s.nextId } else w)) ∧
        (t.susp = none → t.stopping = none → Continues s s' is k { t.askStop with stopping := some s.nextId } (nextPc is.inst))) ∧
    FaultsWith .brk [] [] (fun s _ _ t _ => ∀ l, s.launches.get t.launch = some l → l.debug = false) 0x0012)

/-- 08 R185, R190, 03 R82 to R85: the FP32 and packed additions, multiplications and fused operations give the exact result
rounded once. Under .rn a value overflows from half a step beyond the largest on (the model's choice, log 57). -/
def Obligations.FloatArithmetic : Prop :=
  ∀ (px : Option Pats) (d a b : Reg) (f : Bool) (r : Rnd) (m : Half), r ≠ .rdi →
    ComputesF32 (.fadd px d a b f r) px d a b (FloatFmt.fp32.IsSum r f) ∧
    ComputesF32 (.fsub px d a b f r) px d a b (FloatFmt.fp32.IsDifference r f) ∧
    ComputesF32 (.fmul px d a b f r) px d a b (FloatFmt.fp32.IsProduct r f) ∧
    Computes (.ffma px d a b f r) [srcA px a 1 (some tagsF32), srcB px b 1 (some tagsF32), srcD px d 1 (some tagsF32)] d.val 1
      (some (lat px 4))
      (Gives fun v rs => ∃ c : Word, rs = [(c, .f32)] ∧
        FloatFmt.fp32.IsFused r f (argW v 0).toNat (argW v 1).toNat (argW v 2).toNat c.toNat) ∧
    ComputesHalf (.hadd2 px d a b f m r) px d a b m (m.float.IsSum r f) ∧
    ComputesHalf (.hmul2 px d a b f m r) px d a b m (m.float.IsProduct r f) ∧
    Computes (.hfma2 px d a b f m r)
      [srcA px a 1 (some [halfTag m]), srcB px b 1 (some [halfTag m]), srcD px d 1 (some [halfTag m])] d.val 1 (some (lat px 4))
      (Gives fun v rs => ∃ c : Word, rs = [(c, halfTag m)] ∧ ∀ j < 2,
        m.float.IsFused r f (halfElem (argW v 0) j) (halfElem (argW v 1) j) (halfElem (argW v 2) j) (halfElem c j))

/-- 08 R186 to R188: minimum, maximum, comparison and class of FP32 values. -/
def Obligations.FloatCompare : Prop :=
  ∀ (px : Option Pats) (d a b : Reg) (f : Bool) (c : FCc),
    ComputesF32 (.fmin px d a b f) px d a b (FloatFmt.fp32.IsMinMax false f) ∧
    ComputesF32 (.fmax px d a b f) px d a b (FloatFmt.fp32.IsMinMax true f) ∧
    Computes (.fcmp px d a b f c) [srcA px a 1 (some tagsF32), srcB px b 1 (some tagsF32)] d.val 1 (some (lat px 4))
      (Gives fun v rs => ∃ r : Word, rs = [(r, .n32)] ∧
        (FccHolds c (FloatFmt.fp32.reads f (argW v 0).toNat) (FloatFmt.fp32.reads f (argW v 1).toNat) → r = 1) ∧
        (¬ FccHolds c (FloatFmt.fp32.reads f (argW v 0).toNat) (FloatFmt.fp32.reads f (argW v 1).toNat) → r = 0)) ∧
    Computes (.fclass px d a) [srcA px a 1 (some tagsF32)] d.val 1 (some (lat px 4))
      (Gives fun v rs => ∃ k, IsClass (argW v 0) k ∧ rs = [(BitVec.ofNat 32 (2 ^ k), .n32)])

/-- 08 R189: the transcendentals: their special inputs, their values where those are exact, and the correctly rounded values of
FRCP, FRSQ and FSQRT. The other values of FEXP2, FLOG2, FSIN and FCOS are those of the model's brackets (log 12). Each completes
for every group whose sources can be read. -/
def Obligations.Transcendentals : Prop :=
  ∀ (px : Option Pats) (d a : Reg) (f : Bool),
    (∀ i ∈ [Instr.frcp px d a f, .frsq px d a f, .fsqrt px d a f, .fexp2 px d a f, .flog2 px d a f, .fsin px d a f, .fcos px d a f],
      ∀ s is, Issuing s is →
        (∀ k ∈ is.members, ∀ t, s.threads.get k = some t → ∃ v, Readable s is t [srcA px a 1 (some tagsF32)] [(d.val, 1)] v) →
        ∃ s' : State, exec i s = .next s') ∧
    ComputesTrans .rcp (.frcp px d a f) px d a f ∧ ComputesTrans .rsq (.frsq px d a f) px d a f ∧
    ComputesTrans .sqrt (.fsqrt px d a f) px d a f ∧ ComputesTrans .exp2 (.fexp2 px d a f) px d a f ∧
    ComputesTrans .log2 (.flog2 px d a f) px d a f ∧ ComputesTrans .sin (.fsin px d a f) px d a f ∧
    ComputesTrans .cos (.fcos px d a f) px d a f

/-- 08 R191 to R193: conversions of one element. 08 R194: conversions of whole words. Every element of a pack form uses the
phase held before it. The model's choices in them: where a rounding overflows under .rn (log 57) and under .rdi (log 11), the sign of a
zero that no rule gives (log 10), and the tie of S10 (log 22). -/
def Obligations.Conversions : Prop :=
  (
    ∀ (px : Option Pats) (d a : Reg) (k : Fin 8) (sat : Bool) (r : Rnd) (m : NFmt) (t : IFmt),
      (k.val < narrowCount m →
        Converts (.cvtNarrow px d a k sat r m) px [srcA px a 1 (some tagsF32), srcD px d 1 (some [narrowTag m])] d.val 1 r
          (fun th v rs => ∃ c x, Narrows m (RMode.at r ((narrowCount m * th.lane + k.val) % 32) th.phase) sat (f32 (argW v 0)) c ∧
            rs = [(x, narrowTag m)] ∧ ∀ j < 32, x.getLsbD j =
              if m.width * k.val ≤ j ∧ j < m.width * k.val + m.width then testBit c (j - m.width * k.val)
              else (argW v 1).getLsbD j && !(30 ≤ j && (m == .e3 || m == .e2 || m == .sc))) ∧
        Converts (.cvtWiden px d a k m) px [srcA px a 1 (some [narrowTag m])] d.val 1 .rn
          (fun _ v rs => ∃ x, rs = [(x, .f32)] ∧ Widens (m.decode (element (argW v 0) m.width k.val)) x)) ∧
      ((intWidth t = 32 → k.val = 0) → (t = .i8 → k.val < 4) →
        Converts (.cvtF2i px d a k r t) px
          (if intWidth t = 32 then [srcA px a 1 (some tagsF32)] else [srcA px a 1 (some tagsF32), srcD px d 1 (some [intTag t])])
          d.val 1 r
          (fun th v rs => ∃ n x, IntHolds (RMode.at r ((32 / intWidth t * th.lane + k.val) % 32) th.phase) (intRange t).1 (intRange t).2
              (f32 (argW v 0)) n ∧ rs = [(x, intTag t)] ∧ ∀ j < 32, x.getLsbD j =
                if intWidth t * k.val ≤ j ∧ j < intWidth t * k.val + intWidth t
                then (BitVec.ofInt 32 n).getLsbD (j - intWidth t * k.val) else (argW v 1).getLsbD j) ∧
        Converts (.cvtI2f px d a k r t) px [srcA px a 1 (some (if intWidth t = 32 then tagsInt else [intTag t]))] d.val 1 .rn
          (fun _ v rs => ∃ x : Word, rs = [(x, .f32)] ∧
            FloatFmt.fp32.Delivers (RMode.plain r) false false false (Machine.Num.ofInt (intElem t (argW v 0) k.val) 0) x.toNat))) ∧
  (
    ∀ (px : Option Pats) (d a : Reg) (sat : Bool) (r : Rnd) (h : Half) (e : E8),
      Converts (.cvtPackF16 px d a sat r h) px [srcA px a 2 (some tagsF32)] d.val 1 r
        (fun th v rs => ∃ x, rs = [(x, halfTag h)] ∧ ∀ k < 2,
          h.float.Delivers (RMode.at r ((2 * th.lane + k) % 32) th.phase) sat false false (f32 (argReg v k)) (element x 16 k)) ∧
      Converts (.cvtUnpackF16 px d a h) px [srcA px a 1 (some [halfTag h])] d.val 2 .rn
        (fun _ v rs => rs.length = 2 ∧ ∀ k < 2, (rs.getD k blankReg).2 = .f32 ∧
          Widens (h.float.decode (element (argW v 0) 16 k)) (rs.getD k blankReg).1) ∧
      Converts (.cvtPackE px d a sat r e) px [srcA px a 4 (some tagsF32)] d.val 1 r
        (fun th v rs => ∃ x, rs = [(x, e8Tag e)] ∧ ∀ k < 4,
          e.float.Delivers (RMode.at r ((4 * th.lane + k) % 32) th.phase) sat false false (f32 (argReg v k)) (element x 8 k)) ∧
      Converts (.cvtUnpackE px d a e) px [srcA px a 1 (some [e8Tag e])] d.val 4 .rn
        (fun _ v rs => rs.length = 4 ∧ ∀ k < 4, (rs.getD k blankReg).2 = .f32 ∧
          Widens (e.float.decode (element (argW v 0) 8 k)) (rs.getD k blankReg).1) ∧
      Converts (.cvtPackI8 px d a) px [srcA px a 4 (some tagsInt)] d.val 1 .rn
        (fun _ v rs => ∃ x, rs = [(x, .s8x4)] ∧ ∀ k < 4,
          signExt (element x 8 k) 8 = max (-128) (min 127 (argReg v k).toInt)) ∧
      Converts (.cvtUnpackI8 px d a) px [srcA px a 1 (some [.s8x4])] d.val 4 .rn
        (fun _ v rs => rs.length = 4 ∧ ∀ k < 4,
          rs.getD k blankReg = (BitVec.ofInt 32 (signExt (element (argW v 0) 8 k) 8), .s32)))

/-- 03 R94, R95, 08 R196 to R200: reductions and scans combine the values of the members present over the fixed tree, or by one
exact sum in the register-window configuration. 08 R199: votes, elections, membership and ranks. -/
def Obligations.CrossLane : Prop :=
  (
    ∀ (px : Option Pats) (d a : Reg) (f x : Bool) (r : Rnd) (t : XTy) (o : ScanOp),
      Reduces (.redadd px d a f r t) px d a t .add f r (fun _ _ => true) ∧
      Reduces (.redmin px d a f r t) px d a t .min f r (fun _ _ => true) ∧
      Reduces (.redmax px d a f r t) px d a t .max f r (fun _ _ => true) ∧
      Reduces (.scan px d a x o f r t) px d a t (match o with | .add => .add | .min => .min | .max => .max) f r
        (fun th i => if x then decide (i < th.lane) else decide (i ≤ th.lane))) ∧
  (
    ∀ (px : Option Pats) (d a : Reg),
      Votes (.vote px d a .any) px d (some a) (fun s is _ z => Flag (∃ j, laneTrue s is px a j = true) z) ∧
      Votes (.vote px d a .all) px d (some a) (fun s is _ z =>
        Flag (∀ j w, laneWord s is px a j = some w → w ≠ 0) z) ∧
      Votes (.vote px d a .ballot) px d (some a) (fun s is _ z => ∀ j < 32, z.getLsbD j = laneTrue s is px a j) ∧
      Votes (.vote px d a .uni) px d (some a) (fun s is _ z =>
        Flag (∀ i j v w, laneWord s is px a i = some v → laneWord s is px a j = some w → v = w) z) ∧
      Votes (.elect px d) px d none (fun s is t z => Flag (∀ j < t.lane, laneHas s is j = false) z) ∧
      Votes (.electCond px d a) px d (some a) (fun s is t z =>
        Flag (laneTrue s is px a t.lane = true ∧ ∀ j < t.lane, laneTrue s is px a j = false) z) ∧
      Votes (.members px d) px d none (fun s is _ z => ∀ j < 32, z.getLsbD j = laneHas s is j) ∧
      Votes (.membersCount px d) px d none (fun s is _ z => z.toNat = (List.range 32).countP (laneHas s is)) ∧
      Votes (.rankof px d) px d none (fun s is t z => z.toNat = (List.range t.lane).countP (laneHas s is)) ∧
      Votes (.rankofCond px d a) px d (some a) (fun s is t z => z.toNat = (List.range t.lane).countP (laneTrue s is px a)))

/-- 09 R204 to R206, R211, R212, R215: loads of s, c and k, untyped and typed. 09 R204 to R206, R211, R212, R215: stores to s, c
and k, of the low bytes of the group. 08 R201 to R203: reads of the register window by an aligned untyped 32-bit load, which find a
result in its register's bank when its latency has run in cycles from its issue, and WINDOW_ACCESS for every other access to its range.
The cycle that a window read samples is that of its own issue (the model's choice, log 16). -/
def Obligations.LocalAccesses : Prop :=
  (
    ∀ (d a : Reg) (o : Off8) (o6 : Off6) (z : Size) (ty : LdTy) (b : CSel) (c : BitVec 7),
      LocalLoad (.ldS d a o z) [ownSrc a 1 (some tagsAddr)] d (sizeBytes z) z.regs (spadPlace (off8 o)) (RawValue z) ∧
      LocalLoad (.ldSTyped d a o6 ty) [ownSrc a 1 (some tagsAddr)] d (typeBytes ty) ty.regs (spadPlace (off6 o6)) (TypedValue ty) ∧
      LocalLoad (.ldC d a b z) (ownSrc a 1 (some tagsAddr) :: selSrcs b) d (sizeBytes z) z.regs (clusterPlace b) (RawValue z) ∧
      LocalLoad (.ldK d a c z) [ownSrc a 1 (some tagsAddr)] d (sizeBytes z) z.regs (vaultPlace (16 * c.toInt)) (RawValue z)) ∧
  (
    ∀ (d a : Reg) (o : Off8) (z : Size) (b : CSel) (c : BitVec 7),
      LocalStore (.stS d a o z) [ownSrc a 1 (some tagsAddr), ownSrc d z.regs none] (sizeBytes z) (spadPlace (off8 o)) (fun v => argN v 1) ∧
      LocalStore (.stC d a b z) (ownSrc a 1 (some tagsAddr) :: (selSrcs b ++ [ownSrc d z.regs none])) (sizeBytes z) (clusterPlace b)
        (fun v => groupNat (v.getLastD [])) ∧
      LocalStore (.stK d a c z) [ownSrc a 1 (some tagsAddr), ownSrc d z.regs none] (sizeBytes z) (vaultPlace (16 * c.toInt))
        (fun v => argN v 1)) ∧
  (
    ∀ (d a : Reg) (o : Off8) s is k t v (q l c j : Nat), Alone s is k t →
      Readable s is t [ownSrc a 1 (some tagsAddr)] [(d.val, 1)] v → s.pkg.wincfg = true → q < 4 → l < 32 → c < 16 → j < 512 →
      argZ v 0 + off8 o = (0x400000 + q * 0x100000 + l * 0x8000 + c * 0x800 + 4 * j : Nat) →
      ∃ s' w stat, exec (.ldS d a o .b32) s = .next s' ∧ WindowValue s (coreOf k) q l c j w stat ∧
        LoadInFlight s { s with free := s.free + 1 } s' is k t d.val [(w, .raw)] (some stat)) ∧
  (
    ∀ (px : Option Pats) (d a : Reg) s is k t v, Alone s is k t → Readable s is t [srcA px a 1 none] [(d.val, 1)] v →
      (∀ b ∈ t.bank, b.reg ≠ t.index d.val) → (∀ w ∈ t.writes, w.reg ≠ t.index d.val) →
      ∃ s' u, exec (.mov px d a) s = .next s' ∧ s'.threads.get k = some u ∧
        ∀ c x, s.cycle < c → BankShows u c (t.index d.val) x →
          x = if c ≤ s.cycle + lat px 2 then t.reg (t.index d.val) else arg v 0) ∧
  (
    ∀ (d a : Reg) (o : Off8) (o6 : Off6) (z : Size) (ty : LdTy),
      WindowAccess (.ldS d a o z) [ownSrc a 1 (some tagsAddr)] [(d.val, z.regs)] (fun v => argZ v 0 + off8 o)
        (fun e => z ≠ .b32 ∨ e % 4 ≠ 0) ∧
      WindowAccess (.ldSTyped d a o6 ty) [ownSrc a 1 (some tagsAddr)] [(d.val, ty.regs)] (fun v => argZ v 0 + off6 o6) (fun _ => True) ∧
      WindowAccess (.stS d a o z) [ownSrc a 1 (some tagsAddr), ownSrc d z.regs none] [] (fun v => argZ v 0 + off8 o) (fun _ => True))

/-- 09 R212, R215, 14 R321: loads of g, untyped and typed, of device memory. 12 R293, 20 R399, R400: loads of DEVICE pages, of this
chip and of another one over Causeway. 12 R293, R295: what a read of a translated address
finds. A NORMAL page is read through L1, a STREAM page at home, and neither changes memory when no line has to leave. The model's
choices in them: this chip's own range of Causeway is its own memory (log 25), what another chip answers is free bytes (log 16), and
lines are stale from the cycle after an edge (log 13). -/
def Obligations.GlobalLoads : Prop :=
  (
    ∀ (d a : Reg) (o : Off8) (o6 : Off6) (z : Size) (ty : LdTy),
      GlobalLoad (.ldG d a o z) a d (off8 o) (sizeBytes z) z.regs (RawValue z) ∧
      GlobalLoad (.ldGTyped d a o6 ty) a d (off6 o6) (typeBytes ty) ty.regs (TypedValue ty) ∧
      DeviceLoad (.ldG d a o z) a d (off8 o) (sizeBytes z) z.regs (RawValue z) ∧
      DeviceLoad (.ldGTyped d a o6 ty) a d (off6 o6) (typeBytes ty) ty.regs (TypedValue ty)) ∧
  (
    ∀ (s : State) (g : Nat) (tr : Tr) (n : Nat), 0 < n → tr.pa % 128 + n ≤ 128 → (∀ i < n, tr.pa + i ∉ s.poison) →
      (s.observes tr = false → tr.attr = attrNormal →
        (∀ l i, (s.core g).l1.get (tr.pa / 128) = some l → l.dirty.getLsbD i = true → l.holds.getLsbD i = true) →
        (((s.core g).l1.get (tr.pa / 128)).isSome = true ∨ (s.core g).l1.length < 6144) →
        ∃ s2 bs, s.globRead g tr n = (s2, some bs) ∧ s2.mem = s.mem ∧ s2.threads = s.threads ∧
          bs = (List.range n).map fun i => cachedByte s g tr.pa n i) ∧
      (s.observes tr = false → tr.attr ≠ attrNormal → (∀ l, (s.core g).l1.get (tr.pa / 128) = some l → l.dirty = 0) →
        s.globRead g tr n = (s, some (readBytes s.mem tr.pa n))))

/-- 09 R212, R213, 12 R293: stores to g. A NORMAL page takes dirty bytes of L1, and home memory changes when they are written
back; a STREAM page's bytes are in flight to their home, and those of a DEVICE page to their target, of this chip or of another one
(20 R399, R400). This chip's own range of Causeway as its own memory is the model's choice (log 25), and so is the port that carries a
store to another chip, which is a free one of those not down (log 16). -/
def Obligations.GlobalStores : Prop :=
  ∀ (d a : Reg) (o : Off8) (z : Size) s is k t v (va : Nat) s1 tr, Alone s is k t →
    Readable s is t [ownSrc a 2 (some tagsAddr), ownSrc d z.regs none] [] v →
    (va : Int) = ((argN v 0 : Int) + off8 o) % 2 ^ 64 → va < 2 ^ 57 → va % sizeBytes z = 0 →
    s.translate (t.who k) va (sizeBytes z) .write = (s1, .ok tr) →
    let bs := leBytes (sizeBytes z) (argN v 1)
    let b := s1.landStores k
    (tr.attr = attrNormal → tr.pa % 128 + sizeBytes z ≤ 128 →
      (((b.core (coreOf k)).l1.get (tr.pa / 128)).isSome = true ∨ (b.core (coreOf k)).l1.length < 6144) →
      ∃ s' l, exec (.stG d a o z) s = .next s' ∧ s' = { b with threads := s'.threads, cores := s'.cores, issue := none } ∧
        OthersKept s s' k ∧ Continues s s' is k t (nextPc is.inst) ∧
        (s'.core (coreOf k)).l1.get (tr.pa / 128) = some l ∧
        (∀ i < 128, l.dirty.getLsbD i = true ↔ (tr.pa % 128 ≤ i ∧ i < tr.pa % 128 + sizeBytes z) ∨
          ∃ l0, (b.core (coreOf k)).l1.get (tr.pa / 128) = some l0 ∧ l0.dirty.getLsbD i = true) ∧
        ∀ i < sizeBytes z, l.data.getD (tr.pa % 128 + i) 0 = bs.getD i 0) ∧
    (tr.attr ≠ attrNormal → tr.attr ≠ attrDevice →
      ∃ s' : State, exec (.stG d a o z) s = .next s' ∧
        s' = { s1 with threads := s'.threads, stores := s1.stores ++ [⟨k, .home, tr.pa, bs, tr.home⟩], issue := none } ∧
        OthersKept s s' k ∧ Continues s s' is k t (nextPc is.inst)) ∧
    (tr.attr = attrDevice →
      (∀ x, s1.ownDevice tr.pa (sizeBytes z) x →
        ∃ s' : State, exec (.stG d a o z) s = .next s' ∧
          s' = { s1 with threads := s'.threads, stores := s1.stores ++ [⟨k, .home, x, bs, tr.home⟩], issue := none } ∧
          OthersKept s s' k ∧ Continues s s' is k t (nextPc is.inst)) ∧
      (∀ chip x, s1.peerDevice tr.pa (sizeBytes z) chip x → s1.portUp →
        ∃ s' port, exec (.stG d a o z) s = .next s' ∧ s1.pkg.ports.getD port 0 ≠ 0 ∧
          s' = { s1 with threads := s'.threads, stores := s1.stores ++ [⟨k, .remote chip port va, x, bs, tr.home⟩], issue := none } ∧
          OthersKept s s' k ∧ Continues s s' is k t (nextPc is.inst)) ∧
      ((s.frames.get k).isSome = true →
        (s1.absentDevice tr.pa (sizeBytes z) → ∃ s' : State, exec (.stG d a o z) s = .next s' ∧ Faulted s' k 0x0070 va) ∧
        (∀ chip x, s1.peerDevice tr.pa (sizeBytes z) chip x → ¬ s1.portUp →
          ∃ s' : State, exec (.stG d a o z) s = .next s' ∧ Faulted s' k 0x0071 va)))

/-- 09 R205, R209, R213, R214, 07 R166: the address checks of loads and stores, with their codes and fault addresses; the fault
address of a negative offset is the model's choice (log 53). 14 R317 to R322, R324: the translation of an address: the lease,
the walk through five levels, its codes, permissions and attributes, and contiguous groups. -/
def Obligations.AddressChecks : Prop :=
  (∀ (s : State) (who : Who) (va n : Nat) (kind : Kind),
    let root := (s.ctx who.ctxid).root
    let die := s.physDie (dieOf who.gcore)
    (s.leased who.launch va n = false → s.translate who va n kind = (s, .error 0x0233)) ∧
    (s.leased who.launch va n = true →
      (∀ e, (s.core who.gcore).tlb.find? (fun t => t.root == root && decide (t.base ≤ va) && decide (va < t.base + t.size)) = some e →
        ∃ r, s.translate who va n kind = (s, r) ∧
          LeafAnswers s who va kind e.leaf (leafPa e.leaf / e.size * e.size) e.size e.page e.die r) ∧
      (¬ s.translated who va →
        (s.tableOk root = false → s.translate who va n kind = (s, .error 0x0231)) ∧
        ∀ level t, WalkComes s die root va level t →
          let a := tableSlot t level va
          (s.walkRead die a = none → ∃ s' : State, s.translate who va n kind = (s', .error 0x0013)) ∧
          ∀ e, s.walkRead die a = some e →
            (e % 2 = 0 → s.translate who va n kind = (s, .error (0x0210 + level))) ∧
            (e % 2 = 1 → ¬ IsTable level e → ¬ IsLeaf level e → s.translate who va n kind = (s, .error (0x0220 + level))) ∧
            (IsTable level e → s.tableOk (leafPa e) = false → s.translate who va n kind = (s, .error 0x0231)) ∧
            (IsLeaf level e →
              let own := 2 ^ (9 * level + 3)
              let home := if e / 2 ^ 5 % 4 = 1 then s.physDie (e / 2 ^ 7 % 4) else 0
              (e / 2 ^ 9 % 2 = 0 → ∃ s' r, s.translate who va n kind = (s', r) ∧ s'.mem = s.mem ∧ s'.threads = s.threads ∧
                LeafAnswers s who va kind e (leafPa e) own own home r) ∧
              (∀ b, e / 2 ^ 9 % 2 = 1 → GroupHolds s level a e b →
                ∃ s' r, s.translate who va n kind = (s', r) ∧ s'.mem = s.mem ∧ s'.threads = s.threads ∧
                  LeafAnswers s who va kind e b ((if level = 3 then 4 else 16) * own) own home r) ∧
              (e / 2 ^ 9 % 2 = 1 → (∀ b, ¬ GroupHolds s level a e b) →
                ∃ s' r, s.translate who va n kind = (s', r) ∧ s'.mem = s.mem ∧ s'.threads = s.threads ∧
                  (s'.die die).contBad = min 0xFFFFFFFF ((s.die die).contBad + 1) ∧
                  LeafAnswers s who va kind e (leafPa e) own own home r))))) ∧
  ∀ (d a : Reg) (o : Off8) (o6 : Off6) (z : Size) (ty : LdTy) (b : CSel) (c : BitVec 7),
    OffsetChecks (.ldS d a o z) [ownSrc a 1 (some tagsAddr)] [(d.val, z.regs)] 0x40000 (sizeBytes z)
      (fun s _ _ _ => s.pkg.wincfg = false) (fun v => argZ v 0 + off8 o) (fun v => argZ v 0 + off8 o) ∧
    OffsetChecks (.ldSTyped d a o6 ty) [ownSrc a 1 (some tagsAddr)] [(d.val, ty.regs)] 0x40000 (typeBytes ty)
      (fun s _ _ _ => s.pkg.wincfg = false) (fun v => argZ v 0 + off6 o6) (fun v => argZ v 0 + off6 o6) ∧
    OffsetChecks (.stS d a o z) [ownSrc a 1 (some tagsAddr), ownSrc d z.regs none] [] 0x40000 (sizeBytes z)
      (fun s _ _ _ => s.pkg.wincfg = false) (fun v => argZ v 0 + off8 o) (fun v => argZ v 0 + off8 o) ∧
    OffsetChecks (.ldC d a b z) (ownSrc a 1 (some tagsAddr) :: selSrcs b) [(d.val, z.regs)] 0x40000 (sizeBytes z)
      (fun s k t v => (selectCore s k t (selValue b v).1).isSome = true) (fun v => argZ v 0 + (selValue b v).2)
      (fun v => pooledOff (selValue b v).1 (argZ v 0 + (selValue b v).2)) ∧
    OffsetChecks (.stC d a b z) (ownSrc a 1 (some tagsAddr) :: (selSrcs b ++ [ownSrc d z.regs none])) [] 0x40000 (sizeBytes z)
      (fun s k t v => (selectCore s k t (selValue b v).1).isSome = true) (fun v => argZ v 0 + (selValue b v).2)
      (fun v => pooledOff (selValue b v).1 (argZ v 0 + (selValue b v).2)) ∧
    OffsetChecks (.ldK d a c z) [ownSrc a 1 (some tagsAddr)] [(d.val, z.regs)] 0x800000 (sizeBytes z)
      (fun _ _ _ _ => True) (fun v => argZ v 0 + 16 * c.toInt) (fun v => argZ v 0 + 16 * c.toInt) ∧
    OffsetChecks (.stK d a c z) [ownSrc a 1 (some tagsAddr), ownSrc d z.regs none] [] 0x800000 (sizeBytes z)
      (fun _ _ _ _ => True) (fun v => argZ v 0 + 16 * c.toInt) (fun v => argZ v 0 + 16 * c.toInt) ∧
    GlobalChecks (.ldG d a o z) [ownSrc a 2 (some tagsAddr)] [(d.val, z.regs)] (sizeBytes z) (off8 o) .read true ∧
    GlobalChecks (.ldGTyped d a o6 ty) [ownSrc a 2 (some tagsAddr)] [(d.val, ty.regs)] (typeBytes ty) (off6 o6) .read true ∧
    GlobalChecks (.stG d a o z) [ownSrc a 2 (some tagsAddr), ownSrc d z.regs none] [] (sizeBytes z) (off8 o) .write false

/-- 09 R216 to R220: ATOM writes the new value at its home, where no frame lies, and returns the old one; the byte's line leaves
the core's L1. A misaligned ATOM ends the thread with ATOM_ALIGN, one beyond 57 bits with BAD_ADDR, and one that does not translate
with the walk's code. -/
def Obligations.Atomics : Prop :=
  ∀ (d a b : Reg) (op : AtomOp),
    let n := op.regs
    let tags := some (if n = 2 then tagsWide else tagsInt)
    let srcs := [ownSrc a 2 (some tagsAddr), ownSrc b n tags] ++ (if op = .cas32 ∨ op = .cas64 then [ownSrc d n tags] else [])
    (∀ s is k t v s1 tr, Alone s is k t → Readable s is t srcs [(d.val, n)] v → argN v 0 < 2 ^ 57 → argN v 0 % (4 * n) = 0 →
      (s.landStores k).translate (t.who k) (argN v 0) (4 * n) .atomic = (s1, .ok tr) →
      let c := s1.cleanLine (coreOf k) (tr.pa / 128)
      let old := readNat c.mem tr.pa (4 * n)
      let new := atomNew op old (argN v 1) (argN v 2)
      c.bad tr.pa (4 * n) = false → (∀ i < 4 * n, c.frameAt (tr.pa + i) = none) →
      ∃ s' u, exec (.atom d a b op) s = .next s' ∧ OthersKept s s' k ∧ s'.threads.get k = some u ∧
        (∀ x, readByte s'.mem x = if tr.pa ≤ x ∧ x < tr.pa + 4 * n then (leBytes (4 * n) new).getD (x - tr.pa) 0 else readByte c.mem x) ∧
        ((s'.core (coreOf k)).l1.get (tr.pa / 128)) = none ∧
        GoesTo s is t false (nextPc is.inst) u ∧
        ∃ rs, Holds t u d.val n rs ∧ groupNat rs = old ∧ ∀ r ∈ rs, r.2 = atomTag op (arg v 1).2) ∧
    FaultsWith (.atom d a b op) srcs [(d.val, n)] (fun _ _ _ _ v => argN v 0 < 2 ^ 57 ∧ argN v 0 % (4 * n) ≠ 0) 0x0036
      (fun v => argN v 0) ∧
    FaultsWith (.atom d a b op) srcs [(d.val, n)] (fun _ _ _ _ v => 2 ^ 57 ≤ argN v 0) 0x0030 (fun v => argN v 0) ∧
    (∀ s is k t v s1 c, Alone s is k t → (s.frames.get k).isSome = true → Readable s is t srcs [(d.val, n)] v → argN v 0 < 2 ^ 57 →
      argN v 0 % (4 * n) = 0 → (s.landStores k).translate (t.who k) (argN v 0) (4 * n) .atomic = (s1, .error c) →
      ∃ s' : State, exec (.atom d a b op) s = .next s' ∧ Faulted s' k c (argN v 0)) ∧
    (∀ old x cmp, old < 2 ^ (32 * n) → x < 2 ^ (32 * n) → atomNew op old x cmp = match op with
      | .add32 => (old + x) % 2 ^ 32
      | .add64 => (old + x) % 2 ^ 64
      | .and32 => old &&& x
      | .or32 | .or64 => old ||| x
      | .xor32 => old ^^^ x
      | .exch32 | .exch64 => x
      | .cas32 | .cas64 => if old = cmp then x else old
      | .minS32 => if signExt old 32 ≤ signExt x 32 then old else x
      | .maxS32 => if signExt old 32 ≤ signExt x 32 then x else old
      | .minN32 | .minN64 => if old ≤ x then old else x
      | .maxN32 | .maxN64 => if old ≤ x then x else old)

/-- 09 R221 to R223, R245: APPEND reserves aligned bytes at the page's tail, stores its data there and returns their address; SEAL
closes the page for the cycles after its own and returns when every byte has landed. An APPEND to a page of another attribute, and a
SEAL of one that is neither an append page nor sealed, ends with APPEND_ATTR; an address beyond 57 bits with BAD_ADDR, one that does not
translate with the walk's code (for APPEND, of the one byte at the address: the model's choice, log 70), and a SEAL in state trapped
with HANDLER_OP. -/
def Obligations.AppendAndSeal : Prop :=
  ∀ (d a b : Reg) (z : Size),
    (∀ s is k t v s1 tr, Alone s is k t → Readable s is t [ownSrc a 2 (some tagsAddr), ownSrc b z.regs none] [(d.val, 2)] v →
      argN v 0 < 2 ^ 57 → (s.landStores k).translate (t.who k) (argN v 0) 1 .append = (s1, .ok tr) →
      let n := sizeBytes z
      let r := s1.appendRec tr.pagePa
      let start := ceilDiv r.tail n * n
      ((s.frames.get k).isSome = true → r.closed = true → r.closedAt ≠ s.cycle →
        ∃ s' : State, exec (.append d a b z) s = .next s' ∧ Faulted s' k 0x0034 (argN v 0)) ∧
      ((r.closed = true → r.closedAt = s.cycle) →
      (start + n ≤ tr.pageSize → (∀ i < start + n, s1.frameAt (tr.pagePa + i) = none) →
        ∃ s' u rs, exec (.append d a b z) s = .next s' ∧ OthersKept s s' k ∧ s'.threads.get k = some u ∧
          s'.appendRec tr.pagePa = { r with tail := start + n, landed := r.landed + (start + n - r.tail) } ∧
          (∀ p, p ≠ tr.pagePa → s'.appends.get p = s1.appends.get p) ∧
          (∀ x, readByte s'.mem x =
            if tr.pagePa + r.tail ≤ x ∧ x < tr.pagePa + start then 0
            else if tr.pagePa + start ≤ x ∧ x < tr.pagePa + start + n then (leBytes n (argN v 1)).getD (x - (tr.pagePa + start)) 0
            else readByte s1.mem x) ∧
          GoesTo s is t false (nextPc is.inst) u ∧ Holds t u d.val 2 rs ∧ groupNat rs = (tr.pageVa + start) % 2 ^ 64) ∧
      (tr.pageSize < start + n →
        ∃ s' u rs, exec (.append d a b z) s = .next s' ∧ OthersKept s s' k ∧ s'.threads.get k = some u ∧ s'.mem = s1.mem ∧
          s'.appends = s1.appends ∧ GoesTo s is t false (nextPc is.inst) u ∧ Holds t u d.val 2 rs ∧ groupNat rs = 2 ^ 63))) ∧
    (∀ s is k t v s1 tr, Alone s is k t → Readable s is t [ownSrc a 2 (some tagsAddr)] [(d.val, 1)] v → t.trapped = false →
      argN v 0 < 2 ^ 57 → (s.landStores k).translate (t.who k) (argN v 0) 1 .read = (s1, .ok tr) →
      let r := s1.appendRec tr.pagePa
      (tr.attr = attrSealed ∨ tr.attr = attrAppend ∧ r.sealed = true →
        ∃ s' u, exec (.seal d a) s = .next s' ∧ s' = { s1 with threads := s'.threads, issue := none } ∧ OthersKept s s' k ∧
          s'.threads.get k = some u ∧ GoesTo s is t false (nextPc is.inst) u ∧ Holds t u d.val 1 [(1, .n32)]) ∧
      (tr.attr = attrAppend → r.sealed = false →
        ∃ s' : State, exec (.seal d a) s = .next s' ∧
          s' = { s1 with threads := s'.threads, appends := s1.appends.put tr.pagePa
                              (if r.closed then r else { r with closed := true, closedAt := s.cycle }), issue := none } ∧
          OthersKept s s' k ∧
          Continues s s' is k { t with run := .engine (.seal tr.pagePa (t.index d.val) (if r.closed then 1 else 0)) } (nextPc is.inst))) ∧
    FaultsWith (.append d a b z) [ownSrc a 2 (some tagsAddr), ownSrc b z.regs none] [(d.val, 2)] (fun _ _ _ _ v => 2 ^ 57 ≤ argN v 0)
      0x0030 (fun v => argN v 0) ∧
    FaultsWith (.seal d a) [ownSrc a 2 (some tagsAddr)] [(d.val, 1)] (fun _ _ _ t v => t.trapped = false ∧ 2 ^ 57 ≤ argN v 0) 0x0030
      (fun v => argN v 0) ∧
    FaultsWith (.seal d a) [ownSrc a 2 (some tagsAddr)] [(d.val, 1)] (fun _ _ _ t _ => t.trapped = true) 0x0008 ∧
    (∀ s is k t v, Alone s is k t → (s.frames.get k).isSome = true →
      Readable s is t [ownSrc a 2 (some tagsAddr), ownSrc b z.regs none] [(d.val, 2)] v → argN v 0 < 2 ^ 57 →
      (∀ s1 c, (s.landStores k).translate (t.who k) (argN v 0) 1 .append = (s1, .error c) →
        ∃ s' : State, exec (.append d a b z) s = .next s' ∧ Faulted s' k c (argN v 0)) ∧
      ∀ s1 tr, (s.landStores k).translate (t.who k) (argN v 0) 1 .read = (s1, .ok tr) → tr.attr ≠ attrAppend →
        ∃ s' : State, exec (.append d a b z) s = .next s' ∧ Faulted s' k 0x0035 (argN v 0)) ∧
    (∀ s is k t v, Alone s is k t → (s.frames.get k).isSome = true → Readable s is t [ownSrc a 2 (some tagsAddr)] [(d.val, 1)] v →
      t.trapped = false → argN v 0 < 2 ^ 57 →
      (∀ s1 c, (s.landStores k).translate (t.who k) (argN v 0) 1 .read = (s1, .error c) →
        ∃ s' : State, exec (.seal d a) s = .next s' ∧ Faulted s' k c (argN v 0)) ∧
      ∀ s1 tr, (s.landStores k).translate (t.who k) (argN v 0) 1 .read = (s1, .ok tr) → tr.attr ≠ attrAppend → tr.attr ≠ attrSealed →
        ∃ s' : State, exec (.seal d a) s = .next s' ∧ Faulted s' k 0x0035 (argN v 0)) ∧
    (∀ s page, (s.appendRec page).closed = true → (s.appendRec page).sealed = false →
      (s.appendRec page).landed = (s.appendRec page).tail →
      ∃ s' : State, exec (.sealComplete page) s = .next s' ∧ (s'.appendRec page).sealed = true ∧
        (∀ p, p ≠ page → s'.appends.get p = s.appends.get p) ∧
        (s.threads.keys.Nodup → ∀ k t i x, s.threads.get k = some t → t.run = .engine (.seal page i x) → t.susp = none →
          ∃ u, s'.threads.get k = some u ∧ u.run = .ready ∧ u.wait = 0 ∧ u.reg i = (BitVec.ofNat 32 x, .n32) ∧
            u.pc = t.pc ∧ ∀ r, r ≠ i → u.latest r = t.latest r))

/-- 09 R228: PREFETCH completes for every thread whose operands pass, changes no register and no byte that a program reads, whatever
place or core it is read through: a clean byte of the core's L1 may be read again from home, and a line that leaves a full L1 takes its
dirty bytes there. One whose address is beyond 57 bits, or does not translate, is discarded. 05 R107, R109, 08 R203, 09 R215, 12 R291: a
load's result reaches its registers, and a store its place; both complete in every state. 07 R158: a thread in EXIT discards the results
of its loads. 05 R114: an instruction that reads a result in flight of another member issues with its group and takes effect when that
result completes, and its stall count and latency count from then on. -/
def Obligations.PrefetchAndResults : Prop :=
  (
    ∀ (a : Reg) (o : Off8) (kind : PfKind) s is k t v, Alone s is k t → Readable s is t [ownSrc a 2 (some tagsAddr)] [] v →
      let g := coreOf k
      let va := globAddr (argN v 0) (off8 o)
      ∃ s' : State, exec (.prefetch a o kind) s = .next s' ∧ OthersKept s s' k ∧ Continues s s' is k t (nextPc is.inst) ∧
        s' = { s with threads := s'.threads, cores := s'.cores, dies := s'.dies, mem := s'.mem, poison := s'.poison, access := s'.access,
                      outputs := s'.outputs, free := s'.free, issue := none } ∧
        (∀ c x, readByte (s'.core c).spad x = readByte (s.core c).spad x ∧ (s'.core c).bad = (s.core c).bad) ∧
        (∀ c pa n i, i < n → cachedByte s' c pa n i = cachedByte s c pa n i ∨ cachedByte s' c pa n i = readByte s'.mem (pa + i)) ∧
        (∀ x, readByte s'.mem x = readByte s.mem x ∨ ∃ l, (s.core g).l1.get (x / 128) = some l ∧ l.dirty.getLsbD (x % 128) = true ∧
          readByte s'.mem x = l.data.getD (x % 128) 0) ∧
        ((s.core g).l1.length < 6144 ∨ kind ≠ .l1 → (∀ p x, s'.placeByte p x = s.placeByte p x) ∧ s'.poison = s.poison ∧
          ∀ c pa n i, i < n → cachedByte s' c pa n i = cachedByte s c pa n i ∨
            c = g ∧ (∃ l, (s.core g).l1.get (pa / 128) = some l ∧ l.stale (s.core g).gen = false ∧ l.dirty.getLsbD (pa % 128 + i) = false) ∧
              cachedByte s' c pa n i = readByte s.mem (pa + i)) ∧
        (2 ^ 57 ≤ va → OnlyGroup s s' is) ∧
        (va < 2 ^ 57 → ∀ s1 c, s.translate (t.who k) va 1 .prefetch = (s1, .error c) →
          s' = { s1 with threads := s'.threads, issue := none })) ∧
  (∀ s k id, (∃ s' : State, exec (.variableResult k id) s = .next s') ∧ ∃ s' : State, exec (.storeComplete k) s = .next s') ∧
  (
    (∀ s k t l, s.threads.get k = some t → t.deferred = none → t.loads.find? (fun x => x.id == l.id) = some l → t.draining = false →
      (l.results.map (·.1)).Nodup →
      ∃ s' u, exec (.variableResult k l.id) s = .next s' ∧ s' = { s with threads := s'.threads } ∧
        (∀ j, j ≠ k → s'.threads.get j = (s.threads.get j).map fun w => w.spared k (some l.id)) ∧
        s'.threads.get k = some u ∧
        u = { t with regs := u.regs, writes := u.writes, bank := u.bank, loads := t.loads.filter (fun x => x.id != l.id),
                     pend := t.pend.filter (fun p => p.2 != l.id), winstat := l.window.getD t.winstat } ∧
        (∀ p ∈ l.results, u.reg p.1 = p.2 ∧ u.latest p.1 = p.2) ∧
        ∀ r, r ∉ l.results.map (·.1) → u.latest r = t.latest r) ∧
    (∀ s k t l, s.threads.get k = some t → t.deferred = none → t.loads.find? (fun x => x.id == l.id) = some l → t.draining = true →
      (∃ x ∈ t.loads, x.id ≠ l.id) →
      ∃ s' : State, exec (.variableResult k l.id) s = .next s' ∧ s' = { s with threads := s'.threads } ∧
        s'.threads.get k = some { t with loads := t.loads.filter (fun x => x.id != l.id),
                                         pend := t.pend.filter (fun p => p.2 != l.id) }) ∧
    (∀ s k t id d, s.threads.get k = some t → t.deferred = some d → d.waits = [] → d.fault = none →
      ∃ s' u, exec (.variableResult k id) s = .next s' ∧ s' = { s with threads := s'.threads } ∧ OthersKept s s' k ∧
        s'.threads.get k = some u ∧
        GoesTo s d.issue { t with deferred := none, phase := d.phase } false (nextPc d.issue.inst) u ∧
        Holds t u d.name d.vals.length d.vals ∧ Timed d.issue t u d.name d.vals.length d.latency) ∧
    (∀ s k t id d code, s.threads.get k = some t → (s.frames.get k).isSome = true → s.issue = none → t.deferred = some d →
      d.waits = [] → d.fault = some code → ∃ s' : State, exec (.variableResult k id) s = .next s' ∧ Faulted s' k code 0) ∧
    (∀ (px : Option Pats) (d a : Reg) s is, Issuing s is →
      (∀ k ∈ is.members, ∀ t, s.threads.get k = some t → ∃ v,
        Readable s is t [srcA px a 1 none] [(d.val, 1)] v ∨ Awaiting s is t [srcA px a 1 none] [(d.val, 1)] v) →
      ∃ s' : State, exec (.mov px d a) s = .next s' ∧ OnlyGroup s s' is ∧
        ∀ k ∈ is.members, ∀ t v, s.threads.get k = some t → Awaiting s is t [srcA px a 1 none] [(d.val, 1)] v →
          let d' : Deferred := ⟨awaited s is.members t [srcA px a 1 none], is, none, d.val, [arg v 0], some (lat px 2), t.phase⟩
          s'.threads.get k = some { t with wait := 0, deferred := some d' }) ∧
    (∀ s k t x rest, s.threads.get k = some t → t.draining = false → s.stores = x :: rest → x.thread = k →
      ∃ s' : State, exec (.storeComplete k) s = .next s' ∧ s'.threads = s.threads ∧ s'.frames = s.frames ∧ s'.stores = rest ∧
        (∀ g, x.place = .spad g → s'.mem = s.mem ∧ ∀ c a, readByte (s'.core c).spad a =
          if c = g ∧ x.addr ≤ a ∧ a < x.addr + x.bytes.length then x.bytes.getD (a - x.addr) 0 else readByte (s.core c).spad a) ∧
        (∀ cl, x.place = .vault cl → s'.mem = s.mem ∧ ∀ c a, readByte (s'.cluster c).vault a =
          if c = cl ∧ x.addr ≤ a ∧ a < x.addr + x.bytes.length then x.bytes.getD (a - x.addr) 0 else readByte (s.cluster c).vault a) ∧
        (∀ chip port va, x.place = .remote chip port va →
          s'.mem = s.mem ∧ s'.outputs = s.outputs ++ [Output.remoteStore chip x.addr x.bytes]) ∧
        (x.place = .home → (∀ i < x.bytes.length, s.frameAt (x.addr + i) = none) → x.addr % 128 + x.bytes.length ≤ 128 →
          ∀ a, readByte s'.mem a =
            if x.addr ≤ a ∧ a < x.addr + x.bytes.length then x.bytes.getD (a - x.addr) 0 else readByte s.mem a)))

/-- 09 R224, R225: COPY captures the request that its record states, after the thread's outgoing edge, and waits while the
core's queue of 16 is full. A record that R225 refuses ends the thread with COPY_BAD_REQ and its offset. 08 R201: in the
register-window configuration a record in the window, or rows of s that touch it, end the thread with WINDOW_ACCESS. -/
def Obligations.CopyCaptures : Prop :=
  ∀ (a : Reg),
    (∀ s is k t v j, Alone s is k t → Readable s is t [ownSrc a 1 (some tagsAddr)] [] v →
      ((s.core (coreOf k)).copies.filter fun j => !j.started).length < 16 → t.trapped = false → (argW v 0).toNat < 0x40000 →
      (argW v 0).toNat % 64 = 0 →
      let b := s.outgoing k
      b.placeBad (.spad (coreOf k)) (argW v 0).toNat 64 = false →
      copyRequest { b with nextId := b.nextId + 1 } k t (argW v 0).toNat (readBytes (b.core (coreOf k)).spad (argW v 0).toNat 64)
        b.nextId (b.timeOf k) = some j →
      (∀ w, s.pkg.wincfg = true → j.windowed = some w → (s.frames.get k).isSome = true →
        ∃ s' : State, exec (.copy a) s = .next s' ∧ Faulted s' k 0x0039 w) ∧
      ((s.pkg.wincfg = true → j.windowed = none) → ∃ s' : State, exec (.copy a) s = .next s' ∧
        s' = { b with threads := s'.threads, nextId := b.nextId + 1, issue := none,
                      cores := b.cores.put (coreOf k) { b.core (coreOf k) with copies := (b.core (coreOf k)).copies ++ [j] } } ∧
        OthersKept s s' k ∧
        ∃ g, Continues s s' is k { t with group := g } (nextPc is.inst) ∧
          (t.group = none → g = none) ∧ ((∀ d ∈ j.dests, d.core = coreOf k) → j.sspace ≠ .c → g = t.group))) ∧
    (∀ j : CopyJob, 0 < j.len →
      let touches := fun (base : Nat) (stride : Int) (w : Int) => ∃ i < j.rows, base + stride * i ≤ w ∧ w < base + stride * i + j.len
      (∀ w, j.windowed = some w → 0x400000 ≤ w ∧ w < 0x800000 ∧
        (j.sspace = .s ∧ touches j.src j.sstride w ∨ j.dspace = .s ∧ touches j.dst j.dstride w)) ∧
      (j.windowed = none → ∀ w : Int, 0x400000 ≤ w → w < 0x800000 →
        (j.sspace = .s → ¬ touches j.src j.sstride w) ∧ (j.dspace = .s → ¬ touches j.dst j.dstride w))) ∧
    (∀ s k t e r id stamp j, copyRequest s k t e r id stamp = some j →
      j.src = leNat (r.take 8) ∧ j.dst = leNat ((r.drop 8).take 8) ∧ j.len = leNat ((r.drop 16).take 3) ∧ 0 < j.len ∧
      j.rows = leNat ((r.drop 20).take 2) ∧ 0 < j.rows ∧ j.sstride = signExt (leNat ((r.drop 24).take 4)) 32 ∧
      j.dstride = signExt (leNat ((r.drop 28).take 4)) 32 ∧ j.record = e ∧ j.stamp = stamp ∧ j.started = false) ∧
    (∀ s k t e r id stamp, copyRequest s k t e r id stamp = none ↔ CopyRefused s k t r) ∧
    (∀ s is k t v, Alone s is k t → (s.frames.get k).isSome = true → Readable s is t [ownSrc a 1 (some tagsAddr)] [] v →
      ((s.core (coreOf k)).copies.filter fun j => !j.started).length < 16 → t.trapped = false → (argW v 0).toNat < 0x40000 →
      (argW v 0).toNat % 64 = 0 →
      let b := s.outgoing k
      b.placeBad (.spad (coreOf k)) (argW v 0).toNat 64 = false →
      CopyRefused b k t (readBytes (b.core (coreOf k)).spad (argW v 0).toNat 64) →
      ∃ s' : State, exec (.copy a) s = .next s' ∧ Faulted s' k 0x0038 (argW v 0).toNat) ∧
    (∀ s is k t v, Alone s is k t → Readable s is t [ownSrc a 1 (some tagsAddr)] [] v →
      16 ≤ ((s.core (coreOf k)).copies.filter fun j => !j.started).length →
      ∃ s' : State, exec (.copy a) s = .next s' ∧ OnlyGroup s s' is ∧ s'.threads.get k = some { t with held := true }) ∧
    FaultsWith (.copy a) [ownSrc a 1 (some tagsAddr)] []
      (fun s _ k t _ => ((s.core (coreOf k)).copies.filter fun j => !j.started).length < 16 ∧ t.trapped = true) 0x0008 ∧
    FaultsWith (.copy a) [ownSrc a 1 (some tagsAddr)] []
      (fun s _ k t v => ((s.core (coreOf k)).copies.filter fun j => !j.started).length < 16 ∧ t.trapped = false ∧
        0x40000 ≤ (argW v 0).toNat ∧ ¬ (s.pkg.wincfg = true ∧ 0x400000 ≤ (argW v 0).toNat ∧ (argW v 0).toNat < 0x800000)) 0x0031
      (fun v => (argW v 0).toNat) ∧
    FaultsWith (.copy a) [ownSrc a 1 (some tagsAddr)] []
      (fun s _ k t v => ((s.core (coreOf k)).copies.filter fun j => !j.started).length < 16 ∧ t.trapped = false ∧
        s.pkg.wincfg = true ∧ 0x400000 ≤ (argW v 0).toNat ∧ (argW v 0).toNat < 0x800000) 0x0039 (fun v => (argW v 0).toNat) ∧
    FaultsWith (.copy a) [ownSrc a 1 (some tagsAddr)] []
      (fun s _ k t v => ((s.core (coreOf k)).copies.filter fun j => !j.started).length < 16 ∧ t.trapped = false ∧
        (argW v 0).toNat < 0x40000 ∧ (argW v 0).toNat % 64 ≠ 0) 0x0038 (fun v => (argW v 0).toNat)

/-- 09 R225 to R227: a queued copy starts; one to an append page reserves there and writes RESULT first. Its bytes land in row
order, between any spaces and rows and at each destination of a multicast, and count down the meet of their core. A failed source
sets the error flag of the meets of all destinations and ends the copy; a failed destination sets that of its own meet only. A
reservation in the cycle of the page's SEAL is admitted (log 69), and COPY_NOMEET counts once for each destination of a copy (log 71):
both are the model's choices. -/
def Obligations.CopyRuns : Prop :=
  (∀ s core j, (s.core core).copies.find? (fun j => !j.started) = some j → j.dspace ≠ .append →
    ∃ s' : State, exec (.copyStart core) s = .next s' ∧
      s' = { s with cores := s.cores.put core { s.core core with
        copies := (s.core core).copies.map fun x => if x.id = j.id then { x with started := true } else x } }) ∧
  (∀ s core j tr, (s.core core).copies.find? (fun j => !j.started) = some j → j.dspace = .append → j.dst < 2 ^ 57 →
    s.translated ⟨core, j.ctxid, j.launch, false⟩ j.dst →
    s.translate ⟨core, j.ctxid, j.launch, false⟩ j.dst 1 .append = (s, .ok tr) →
    let r := s.appendRec tr.pagePa
    let start := ceilDiv r.tail 16 * 16
    let n := ceilDiv (j.len * j.rows) 16 * 16
    let result := fun (s' : State) (v : Nat) => SpadWritten s s' core (j.record + 56) 8 fun i => (leBytes 8 v).getD i 0
    (r.closed = true → r.closedAt ≠ s.cycle → ∃ s' : State, exec (.copyStart core) s = .next s' ∧ s'.mem = s.mem ∧
      ∀ x ∈ (s'.core core).copies, x.id = j.id → x.started = true ∧ ∀ d ∈ x.dests, d.failed = true) ∧
    ((r.closed = true → r.closedAt = s.cycle) →
      (tr.pageSize < start + n → ∀ x, s.meet core j.meet = some x →
        ∃ s' : State, exec (.copyStart core) s = .next s' ∧ s'.mem = s.mem ∧ result s' (2 ^ 63) ∧
          (s'.core core).copies = (s.core core).copies.filter (fun x => x.id != j.id) ∧
          MeetBecomes s s' core j.meet
            { x with count := signExt (wrap (x.count - (j.len * j.rows : Nat)) 48) 48, stamp := max x.stamp j.stamp }) ∧
      (start + n ≤ tr.pageSize → (∀ i < start, s.frameAt (tr.pagePa + i) = none) →
        ∃ s' : State, exec (.copyStart core) s = .next s' ∧ result s' (tr.pageVa + start) ∧
          s'.appendRec tr.pagePa = { r with tail := start + n, landed := r.landed + (start - r.tail) } ∧
          (∀ x, readByte s'.mem x = if tr.pagePa + r.tail ≤ x ∧ x < tr.pagePa + start then 0 else readByte s.mem x) ∧
          (s'.core core).copies = (s.core core).copies.map fun x =>
            if x.id = j.id then { x with started := true, page := some tr.pagePa, reserved := start } else x))) ∧
  (∀ s core j d n, ((s.core core).copies.map (·.id)).Nodup → j ∈ (s.core core).copies → j.started = true → j.failed = false →
    (j.dests.map (·.core)).Nodup → d ∈ j.dests → d.failed = false → d.landed ≤ j.len * j.rows → j.base ≤ d.landed →
    (∀ p, (s.die p).gated = false) →
    let have_ := j.base + j.data.length
    let m := min n (j.len * j.rows - d.landed)
    let padded := j.dspace = .append ∧ d.landed + m = j.len * j.rows
    (∀ i, have_ ≤ i → i < d.landed + m → ∃ p a, CopyFrom s core j i p a ∧ s.placeBad p a 1 = false) →
    (∀ i, d.landed ≤ i → i < d.landed + m → ∃ p a, CopyTo s core d.core j i p a ∧ (p = .home → s.frameAt a = none)) →
    (padded → ∃ page, j.page = some page ∧ ∀ i, j.len * j.rows ≤ i → i < ceilDiv (j.len * j.rows) 16 * 16 →
      s.frameAt (page + j.reserved + i) = none) →
    ∃ s' : State, exec (.copyBytesLand core j.id d.core n) s = .next s' ∧ s'.threads = s.threads ∧
      (∀ i p a, d.landed ≤ i → i < d.landed + m → CopyTo s core d.core j i p a →
        (∀ i', i < i' → i' < d.landed + m → ¬ CopyTo s core d.core j i' p a) →
        (i < have_ → s'.placeByte p a = j.data.getD (i - j.base) 0) ∧
        (have_ ≤ i → ∀ q b, CopyFrom s core j i q b → s'.placeByte p a = s.placeByte q b)) ∧
      (padded → ∀ page i, j.page = some page → j.len * j.rows ≤ i → i < ceilDiv (j.len * j.rows) 16 * 16 →
        readByte s'.mem (page + j.reserved + i) = 0) ∧
      (∀ p a, (∀ i, d.landed ≤ i → i < d.landed + m → ¬ CopyTo s core d.core j i p a) →
        (padded → ∀ page i, j.page = some page → j.len * j.rows ≤ i → i < ceilDiv (j.len * j.rows) 16 * 16 →
          ¬ (p = .home ∧ a = page + j.reserved + i)) → s'.placeByte p a = s.placeByte p a) ∧
      (∀ x, s.meet d.core j.meet = some x → x.mode = .bytes →
        MeetBecomes s s' d.core j.meet { x with count := signExt (wrap (x.count - m) 48) 48, stamp := max x.stamp j.stamp }) ∧
      (s.countsBytes d.core j.meet = false → (∀ g y, s'.meet g y = s.meet g y) ∧ (d.noMeet = false → 0 < m →
        let p := s.physDie (dieOf d.core)
        (s'.die p).ras.getD 6 0 = min 0xFFFFFFFF ((s.die p).ras.getD 6 0 + 1))) ∧
      (s'.core core).copies.filter (fun x => x.id != j.id) = (s.core core).copies.filter (fun x => x.id != j.id) ∧
      ((∀ x ∈ j.dests, x.failed = false) →
        ((∀ x ∈ j.dests, x.core ≠ d.core → x.landed = j.len * j.rows) → d.landed + m = j.len * j.rows →
          ∀ x ∈ (s'.core core).copies, x.id ≠ j.id) ∧
        (d.landed + m < j.len * j.rows → ∃ x ∈ (s'.core core).copies, x.id = j.id ∧
          x.dests = j.dests.map fun y => if y.core = d.core
            then { d with landed := d.landed + m, noMeet := d.noMeet || !s.countsBytes d.core j.meet } else y))) ∧
  (∀ s core j d n, ((s.core core).copies.map (·.id)).Nodup → j ∈ (s.core core).copies → j.started = true → j.failed = false →
    (j.dests.map (·.core)).Nodup → d ∈ j.dests → d.failed = false → (∀ p, (s.die p).gated = false) →
    j.sspace = .s ∨ j.sspace = .c ∨ j.sspace = .k → j.base ≤ d.landed →
    j.base + j.data.length < d.landed + min n (j.len * j.rows - d.landed) → (∀ p a, ¬ CopyFrom s core j (j.base + j.data.length) p a) →
    ∃ s' : State, exec (.copyBytesLand core j.id d.core n) s = .next s' ∧ (∀ p a, s'.placeByte p a = s.placeByte p a) ∧
      ∃ x ∈ (s'.core core).copies, x.id = j.id ∧ x.failed = true) ∧
  (∀ s core j d x, (s.core core).copies = [j] → j.started = true → j.failed = true → j.dests = [d] → j.page = none →
    s.meet d.core j.meet = some x → x.mode = .bytes → x.err = none → s.meetWaiters d.core j.meet = [] →
    ∃ s' : State, exec (.copyFailure core j.id) s = .next s' ∧ (s'.core core).copies = [] ∧
      MeetBecomes s s' d.core j.meet { x with err := some 0x0026, desc := [], due := false } ∧ s'.mem = s.mem ∧
      s'.threads = s.threads) ∧
  (∀ s core j, (s.core core).copies = [j] → j.started = true → j.failed = true → j.page = none → (j.dests.map (·.core)).Nodup →
    (∀ d ∈ j.dests, s.meetWaiters d.core j.meet = []) →
    ∃ s' : State, exec (.copyFailure core j.id) s = .next s' ∧ (s'.core core).copies = [] ∧ s'.mem = s.mem ∧ s'.threads = s.threads ∧
      (∀ d ∈ j.dests, ∀ x, s.meet d.core j.meet = some x → x.mode = .bytes → x.err = none →
        s'.meet d.core j.meet = some { x with err := some 0x0026, desc := [], due := false }) ∧
      ∀ g m, (∀ d ∈ j.dests, d.core ≠ g ∨ m ≠ j.meet) → s'.meet g m = s.meet g m) ∧
  (∀ s core j d e x, (s.core core).copies = [j] → j.started = true → j.failed = false → j.dests = [d, e] → d.core ≠ e.core →
    d.failed = true → e.failed = false → e.landed < j.len * j.rows → s.meet d.core j.meet = some x → x.mode = .bytes → x.err = none →
    s.meetWaiters d.core j.meet = [] →
    ∃ s' : State, exec (.copyFailure core j.id) s = .next s' ∧ (∃ y, (s'.core core).copies = [y] ∧ y.dests = [e]) ∧
      MeetBecomes s s' d.core j.meet { x with err := some 0x0026, desc := [], due := false } ∧ s'.mem = s.mem ∧
      s'.threads = s.threads)

/-- 09 R229 to R233, 01 R47 to R50: the meets of a core: their making, membership, arrival, phases and byte counts. A LEAVE that
makes the arrivals equal the members completes the phase for those that remain, and in sign mode enters the operation that is due, or
leaves it waiting at the meet while its queue is full (10 R253); one by a thread that is no member has no effect. The operations on a meet
that is unassigned, full, of another mode, in use, or not their thread's end it with MEET_UNINIT, MEET_FULL, MEET_MODE, MEET_BUSY,
MEET_NOTMEMBER or MEET_TWICE. -/
def Obligations.Meets : Prop :=
  ∀ (d a : Reg) (m : Fin 32) (mode : MeetMode),
    Leads (.meetinit mode m) [] []
      (fun s _ k _ _ => (∀ x, s.meet (coreOf k) m.val = some x → x.members = 0) ∧ s.meetWaiters (coreOf k) m.val = [] ∧
        s.copyCounts (coreOf k) m.val = false ∧ s.tileInFlight (coreOf k) m.val = false)
      (fun s is k t _ s' => s' = { s with threads := s'.threads, cores := s'.cores, issue := none } ∧ OthersKept s s' k ∧
        MeetBecomes s s' (coreOf k) m.val ⟨mode, 0, 0, 0, 0, false, none, [], none, 0, false, false, 0, []⟩ ∧
        Continues s s' is k t (nextPc is.inst)) ∧
    (∀ s is k t x, Alone s is k t → s.meet (coreOf k) m.val = some x → x.mode ≠ .bytes → testBit t.members m.val = false →
      x.members < 2048 →
      ∃ s' : State, exec (.join m) s = .next s' ∧ s' = { s with threads := s'.threads, cores := s'.cores, issue := none } ∧ OthersKept s s' k ∧
        MeetBecomes s s' (coreOf k) m.val { x with members := x.members + 1 } ∧
        Continues s s' is k { t with members := setBit t.members m.val, arrived := clearBit t.arrived m.val } (nextPc is.inst)) ∧
    (∀ s is k t x, Alone s is k t → t.susp = none → s.meet (coreOf k) m.val = some x → x.mode = .bytes ∨ x.members - 1 = 0 ∧ x.due = false →
      testBit t.members m.val = true →
      ∃ s' : State, exec (.leave m) s = .next s' ∧ s' = { s with threads := s'.threads, cores := s'.cores, issue := none } ∧ OthersKept s s' k ∧
        MeetBecomes s s' (coreOf k) m.val
          { x with members := x.members - 1, arrivals := if testBit t.arrived m.val then x.arrivals - 1 else x.arrivals } ∧
        Continues s s' is k { t with members := clearBit t.members m.val, arrived := clearBit t.arrived m.val } (nextPc is.inst)) ∧
    (∀ s is k t x, Alone s is k t → t.susp = none → t.run = .ready → s.threads.keys.Nodup → s.meet (coreOf k) m.val = some x →
      x.mode = .count ∨ x.mode = .reconv → testBit t.members m.val = true → 1 < x.members →
      let y := { x with members := x.members - 1, arrivals := if testBit t.arrived m.val then x.arrivals - 1 else x.arrivals }
      (y.arrivals ≠ y.members →
        ∃ s' : State, exec (.leave m) s = .next s' ∧ s' = { s with threads := s'.threads, cores := s'.cores, issue := none } ∧
          OthersKept s s' k ∧ MeetBecomes s s' (coreOf k) m.val y ∧
          Continues s s' is k { t with members := clearBit t.members m.val, arrived := clearBit t.arrived m.val } (nextPc is.inst)) ∧
      (y.arrivals = y.members → x.err = none →
        ∃ s' u, exec (.leave m) s = .next s' ∧ (s.coreResident (coreOf k) → s'.mem = s.mem) ∧
          PhaseCompleted s s' (coreOf k) m.val y x.stamp ∧ s'.threads.get k = some u ∧
          testBit u.members m.val = false ∧ testBit u.arrived m.val = false ∧ u.run = .ready ∧ u.pc = nextPc is.inst ∧
          ∀ r, u.latest r = t.latest r)) ∧
    (∀ s is k t, Alone s is k t → t.susp = none → (s.meet (coreOf k) m.val).isSome = true → testBit t.members m.val = false →
      ∃ s' : State, exec (.leave m) s = .next s' ∧ OnlyGroup s s' is ∧ Continues s s' is k t (nextPc is.inst)) ∧
    (∀ s is k t x, Alone s is k t → t.susp = none → s.meet (coreOf k) m.val = some x → x.mode = .sign → testBit t.members m.val = true →
      let y := { x with members := x.members - 1, arrivals := if testBit t.arrived m.val then x.arrivals - 1 else x.arrivals }
      let q := (tileDesc x.desc).queue
      let due := x.entered = false ∧ x.desc ≠ [] ∧ x.err = none ∧ (x.due = true ∨ 0 < y.members ∧ y.arrivals = y.members)
      let after := fun (s' : State) (z : Meet) =>
        s' = { s with threads := s'.threads, cores := s'.cores, clusters := s'.clusters, issue := none } ∧ OthersKept s s' k ∧
        MeetBecomes s s' (coreOf k) m.val z ∧
        Continues s s' is k { t with members := clearBit t.members m.val, arrived := clearBit t.arrived m.val } (nextPc is.inst)
      (¬ due → ∃ s' : State, exec (.leave m) s = .next s' ∧ after s' y ∧ s'.clusters = s.clusters) ∧
      (due → s.queueRoom (clusterOf (coreOf k)) q = false →
        ∃ s' : State, exec (.leave m) s = .next s' ∧ after s' { y with due := true } ∧ s'.clusters = s.clusters) ∧
      (due → s.queueRoom (clusterOf (coreOf k)) q = true →
        ∃ s' : State, exec (.leave m) s = .next s' ∧ after s' { y with due := true, entered := true } ∧
          Entered s s' (clusterOf (coreOf k)) q { op := .tile x.desc, gcore := coreOf k, far := x.far, meet := m.val, waiter := none,
                                                  step := 0, begun := false, stamp := x.stamp, launch := x.launch })) ∧
    (∀ s is k t x, Alone s is k t → s.meet (coreOf k) m.val = some x → x.mode ≠ .bytes → testBit t.members m.val = true →
      ∃ s' : State, exec (.join m) s = .next s' ∧ OnlyGroup s s' is ∧ Continues s s' is k t (nextPc is.inst)) ∧
    (let unassigned := fun (s : State) (_ : Issue) (k : FrameRef) (t : Thread) (_ : List (List RegVal)) =>
        s.meet (coreOf k) m.val = none ∧ t.trapped = false;
      FaultsWith (.join m) [] [] unassigned 0x0020 ∧ FaultsWith (.leave m) [] [] unassigned 0x0020 ∧
      FaultsWith (.phase d m) [] [(d.val, 1)] unassigned 0x0020 ∧ FaultsWith (.arrive d m) [] [(d.val, 1)] unassigned 0x0020 ∧
      FaultsWith (.sync d m) [] [(d.val, 1)] unassigned 0x0020 ∧
      FaultsWith (.wait a m) [ownSrc a 1 (some tagsInt)] [] unassigned 0x0020 ∧
      FaultsWith (.expect m a) [ownSrc a 1 (some tagsInt)] [] unassigned 0x0020) ∧
    (let is_ := fun (P : Meet → Thread → Prop) (s : State) (_ : Issue) (k : FrameRef) (t : Thread) (_ : List (List RegVal)) =>
        t.trapped = false ∧ ∃ x, s.meet (coreOf k) m.val = some x ∧ P x t
      let other := fun (x : Meet) (_ : Thread) => x.mode ≠ .count ∧ x.mode ≠ .reconv
      let stranger := fun (x : Meet) (t : Thread) => (x.mode = .count ∨ x.mode = .reconv) ∧ testBit t.members m.val = false
      let twice := fun (x : Meet) (t : Thread) =>
        (x.mode = .count ∨ x.mode = .reconv) ∧ testBit t.members m.val = true ∧ testBit t.arrived m.val = true;
      FaultsWith (.join m) [] [] (is_ fun x _ => x.mode = .bytes) 0x0024 ∧
      FaultsWith (.join m) [] [] (is_ fun x t => x.mode ≠ .bytes ∧ testBit t.members m.val = false ∧ 2048 ≤ x.members) 0x0025 ∧
      FaultsWith (.expect m a) [ownSrc a 1 (some tagsInt)] [] (is_ fun x _ => x.mode ≠ .bytes) 0x0024 ∧
      FaultsWith (.arrive d m) [] [(d.val, 1)] (is_ other) 0x0024 ∧ FaultsWith (.sync d m) [] [(d.val, 1)] (is_ other) 0x0024 ∧
      FaultsWith (.arrive d m) [] [(d.val, 1)] (is_ stranger) 0x0022 ∧ FaultsWith (.sync d m) [] [(d.val, 1)] (is_ stranger) 0x0022 ∧
      FaultsWith (.arrive d m) [] [(d.val, 1)] (is_ twice) 0x0023 ∧ FaultsWith (.sync d m) [] [(d.val, 1)] (is_ twice) 0x0023 ∧
      FaultsWith (.meetinit mode m) [] [] (is_ fun x _ => 0 < x.members) 0x0021) ∧
    (∀ s is k t x v, Alone s is k t → Readable s is t [] [(d.val, 1)] v → s.meet (coreOf k) m.val = some x →
      ∃ s' u, exec (.phase d m) s = .next s' ∧ OnlyGroup s s' is ∧ s'.threads.get k = some u ∧ GoesTo s is t false (nextPc is.inst) u ∧
        Holds t u d.val 1 [(BitVec.ofNat 32 x.phase, .n32)]) ∧
    (∀ s is k t x v, Alone s is k t → Readable s is t [ownSrc a 1 (some tagsInt)] [] v → s.meet (coreOf k) m.val = some x →
      x.mode = .bytes →
      ∃ s' : State, exec (.expect m a) s = .next s' ∧ s' = { s with threads := s'.threads, cores := s'.cores, issue := none } ∧
        OthersKept s s' k ∧ Continues s s' is k t (nextPc is.inst) ∧
        MeetBecomes s s' (coreOf k) m.val
          { x with count := signExt (wrap (x.count + (argW v 0).toNat) 48) 48, expected := true }) ∧
    (∀ s is k t x v, Alone s is k t → Readable s is t [ownSrc a 1 (some tagsInt)] [] v → t.trapped = false →
      s.meet (coreOf k) m.val = some x →
      (x.phase = (argW v 0).toNat % 2 ^ 16 → x.err = none →
        ∃ s' : State, exec (.wait a m) s = .next s' ∧ OnlyGroup s s' is ∧
          Continues s s' is k { t with run := .meet m.val x.phase } (nextPc is.inst)) ∧
      (x.phase ≠ (argW v 0).toNat % 2 ^ 16 → ∃ s' : State, exec (.wait a m) s = .next s' ∧ OthersKept s s' k ∧ s'.mem = s.mem ∧
        Continues s s' is k t (nextPc is.inst) ∧
        ∀ f stamp, s.frames.get k = some f → x.past.get ((argW v 0).toNat % 2 ^ 16) = some stamp →
          ∃ f', s'.frames.get k = some f' ∧ f'.floor = max f.floor (stamp + 1)) ∧
      ((s.frames.get k).isSome = true → ∀ c, x.phase = (argW v 0).toNat % 2 ^ 16 → x.err = some c →
        ∃ s' : State, exec (.wait a m) s = .next s' ∧ Faulted s' k c 0))

/-- 09 R230, 01 R49, 12 R294, R299: an arrival of a member follows the thread's outgoing edge; the last one completes the phase
and wakes those that wait in it. SYNC waits in the phase it arrives in. -/
def Obligations.Arrivals : Prop :=
  ∀ (d : Reg) (m : Fin 32) s is k t x v, Alone s is k t → Readable s is t [] [(d.val, 1)] v → s.threads.keys.Nodup →
    t.susp = none → t.run = .ready →
    s.meet (coreOf k) m.val = some x → x.mode = .count ∨ x.mode = .reconv → testBit t.members m.val = true →
    testBit t.arrived m.val = false →
    let b := s.outgoing k
    let stamp := max x.stamp (b.timeOf k)
    (x.arrivals + 1 ≠ x.members →
      (∃ s' u, exec (.arrive d m) s = .next s' ∧ s'.mem = b.mem ∧ s'.frames = s.frames ∧ OthersKept s s' k ∧
        MeetBecomes s s' (coreOf k) m.val { x with arrivals := x.arrivals + 1, stamp := stamp } ∧
        s'.threads.get k = some u ∧ GoesTo s is { t with arrived := setBit t.arrived m.val } false (nextPc is.inst) u ∧
        Holds t u d.val 1 [(BitVec.ofNat 32 x.phase, .n32)]) ∧
      (t.trapped = false → ∃ s' u, exec (.sync d m) s = .next s' ∧ s'.mem = b.mem ∧ s'.frames = s.frames ∧ OthersKept s s' k ∧
        MeetBecomes s s' (coreOf k) m.val { x with arrivals := x.arrivals + 1, stamp := stamp } ∧
        s'.threads.get k = some u ∧
        GoesTo s is { t with arrived := setBit t.arrived m.val, run := .meet m.val x.phase } false (nextPc is.inst) u ∧
        Holds t u d.val 1 [(BitVec.ofNat 32 x.phase, .n32)])) ∧
    (x.arrivals + 1 = x.members → x.err = none →
      (∃ s' u, exec (.arrive d m) s = .next s' ∧ (s.coreResident (coreOf k) → s'.mem = b.mem) ∧ PhaseCompleted s s' (coreOf k) m.val x stamp ∧
        s'.threads.get k = some u ∧ testBit u.arrived m.val = false ∧ u.pc = nextPc is.inst ∧
        Holds t u d.val 1 [(BitVec.ofNat 32 x.phase, .n32)]) ∧
      (t.trapped = false → ∃ s' u, exec (.sync d m) s = .next s' ∧ (s.coreResident (coreOf k) → s'.mem = b.mem) ∧ PhaseCompleted s s' (coreOf k) m.val x stamp ∧
        s'.threads.get k = some u ∧ testBit u.arrived m.val = false ∧ u.run = .ready ∧ u.pc = nextPc is.inst ∧
        Holds t u d.val 1 [(BitVec.ofNat 32 x.phase, .n32)]))

/-- 01 R51, R52, 09 R234: CBAR of a thread in no group passes; of a member it is an arrival, and the last live member of a
cluster group releases all; a pair group is released when both clusters' local phases are complete. -/
def Obligations.ClusterBarriers : Prop :=
  (∀ s is k t, Alone s is k t → t.trapped = false → t.group = none →
    ∃ s' : State, exec .cbar s = .next s' ∧ s'.mem = (s.outgoing k).mem ∧ s'.frames = s.frames ∧ OthersKept s s' k ∧
      Continues s s' is k t (nextPc is.inst)) ∧
  (∀ s is k t gm b c, Alone s is k t → t.trapped = false → t.group = some gm → s.groups.get gm.group = some b → b.clusters = [c] →
    c = clusterOf (coreOf k) → b.done = [] → b.arrivals.length = 1 →
    (b.arrivals.getD 0 0 + 1 ≠ b.live.getD 0 0 →
      ∃ s' : State, exec .cbar s = .next s' ∧ s'.mem = (s.outgoing k).mem ∧ OthersKept s s' k ∧
        s'.groups.get gm.group = some { b with arrivals := [b.arrivals.getD 0 0 + 1], stamp := max b.stamp ((s.outgoing k).timeOf k) } ∧
        Continues s s' is k { t with run := .cbar } (nextPc is.inst)) ∧
    (b.arrivals.getD 0 0 + 1 = b.live.getD 0 0 → s.threads.keys.Nodup →
      ∃ s' : State, exec .cbar s = .next s' ∧
        ((∀ j w, s.threads.get j = some w → w.run = .cbar → w.susp = none) → s'.mem = (s.outgoing k).mem) ∧
        s'.groups.get gm.group = some { b with arrivals := [0], done := [], stamp := 0 } ∧
        ∀ j w gj, s.threads.get j = some w → j ≠ k → w.susp = none → w.run = .cbar → w.group = some gj → gj.group = gm.group →
          ∃ u, s'.threads.get j = some u ∧ u.run = .ready ∧ u.wait = 0 ∧ u.group = some ⟨gm.group, true, false⟩ ∧ u.pc = w.pc ∧
            ∀ r, u.latest r = w.latest r)) ∧
  (∀ s id b, s.groups.get id = some b → b.clusters.length = 2 → (∀ c ∈ b.clusters, c ∈ b.done) → s.threads.keys.Nodup →
    ∃ s' : State, exec (.cbarRemote id) s = .next s' ∧
      ((∀ j w, s.threads.get j = some w → w.run = .cbar → w.susp = none) → s'.mem = s.mem) ∧
      s'.groups.get id = some { b with arrivals := b.arrivals.map fun _ => 0, done := [], stamp := 0 } ∧
      ∀ j w gj, s.threads.get j = some w → w.susp = none → w.run = .cbar → w.group = some gj → gj.group = id →
        ∃ u, s'.threads.get j = some u ∧ u.run = .ready ∧ u.wait = 0 ∧ u.group = some ⟨id, true, false⟩ ∧ u.pc = w.pc ∧
          ∀ r, u.latest r = w.latest r)

/-- 01 R30, R31, R35, R40, 09 R235, R236: SPAWN and SPAWNR. A trapped thread's ends with HANDLER_OP, and an address that is no
entry with BAD_TARGET; a parent of 0xFFFFFF live children is interlocked. A free bin is the lowest (the model's choice, log 54). -/
def Obligations.SpawnChildren : Prop :=
  ∀ (l : Fin 32) (a b : Reg),
    Spawns (.spawn l a b) [ownSrc a 2 (some tagsAddr), ownSrc b 8 none] l (fun _ => none) ∧
    Spawns (.spawnr l a b) [ownSrc a 2 (some tagsAddr), ownSrc b 2 (some tagsInt), ⟨b.val + 2, 6, .own, none⟩] l
      (fun v => some ((argW v 1).toNat, ((v.getD 1 []).getD 1 blankReg).1.toNat)) ∧
    FaultsWith (.spawn l a b) [ownSrc a 2 (some tagsAddr), ownSrc b 8 none] [] (fun _ _ _ t _ => t.trapped = true) 0x0008 ∧
    FaultsWith (.spawn l a b) [ownSrc a 2 (some tagsAddr), ownSrc b 8 none] []
      (fun _ _ _ t v => t.trapped = false ∧ (argN v 0 % 32 ≠ 4 ∨ 2 ^ 57 ≤ argN v 0)) 0x0006 (fun v => argN v 0) ∧
    FaultsWith (.spawnr l a b) [ownSrc a 2 (some tagsAddr), ownSrc b 2 (some tagsInt), ⟨b.val + 2, 6, .own, none⟩] []
      (fun _ _ _ t _ => t.trapped = true) 0x0008 ∧
    FaultsWith (.spawnr l a b) [ownSrc a 2 (some tagsAddr), ownSrc b 2 (some tagsInt), ⟨b.val + 2, 6, .own, none⟩] []
      (fun _ _ _ t v => t.trapped = false ∧ (argN v 0 % 32 ≠ 4 ∨ 2 ^ 57 ≤ argN v 0)) 0x0006 (fun v => argN v 0)

/-- 01 R36, R42, 09 R237 to R239: NEXTI takes the next index of the thread's range, AWAIT returns the counts and the record of
the first fault at once or when the last child has completed, and FRAMEINFO reads a word of the frame, whose fields lie where 01 R39
lays them out. -/
def Obligations.RangesAndFrames : Prop :=
  ∀ (d : Reg) (w : Fin 8),
    (∀ s is k t n r v, Alone s is k t → Readable s is t [] [(d.val, 2)] v → t.slot = some n →
      (s.core (coreOf k)).slots.get n = some r →
      ∃ s' u, exec (.nexti d) s = .next s' ∧ OthersKept s s' k ∧ s'.threads.get k = some u ∧ GoesTo s is t false (nextPc is.inst) u ∧
        s' = { s with threads := s'.threads, cores := s'.cores, issue := none } ∧
        (r.cur < r.hi → (s'.core (coreOf k)).slots.get n = some { r with cur := r.cur + 1 } ∧
          Holds t u d.val 2 [(BitVec.ofNat 32 r.cur, .n32), (1, .n32)]) ∧
        (r.hi ≤ r.cur → (s'.core (coreOf k)).slots.get n = some r ∧
          Holds t u d.val 2 [(BitVec.ofNat 32 r.hi, .n32), (0, .n32)])) ∧
    (∀ s is k t f v, Alone s is k t → Readable s is t [] [(d.val, 4)] v → t.trapped = false → t.susp = none →
      s.frames.get k = some f →
      (f.live = 0 → ∃ s' u rs, exec (.await d) s = .next s' ∧ OthersKept s s' k ∧ s'.mem = s.mem ∧ s'.threads.get k = some u ∧
        GoesTo s is t false (nextPc is.inst) u ∧ Holds t u d.val 4 rs ∧ AwaitValues f rs ∧
        ∃ f', s'.frames.get k = some f' ∧ f'.nfault = 0 ∧ f'.nkill = 0 ∧ f'.fvalid = false ∧ f'.awaiting = false ∧
          ∀ st, f.stamp = some st → f'.floor = max f.floor (st + 1)) ∧
      (0 < f.live → ∃ s' : State, exec (.await d) s = .next s' ∧
        s' = { s with threads := s'.threads, frames := s'.frames, issue := none } ∧ OthersKept s s' k ∧
        s'.frames.get k = some { f with awaiting := true } ∧
        Continues s s' is k { t with run := .await false (t.index d.val) } (nextPc is.inst))) ∧
    Does (.frameinfo d w) {
      dest := d.val, regs := 2
      result := fun s _ k _ _ rs => (∀ r ∈ rs, r.2 = .w64) ∧
        ∀ f, s.frames.get k = some f → groupNat rs = f.words.getD w.val 0 % 2 ^ 64 ∧ (f.Fits → FrameWord f w.val (groupNat rs)) } ∧
    FaultsWith (.nexti d) [] [(d.val, 2)] (fun _ _ _ t _ => t.slot = none) 0x0027

/-- 01 R45, R46, 09 R240 to R242: futures. A new one is the lowest freed entry; it is set once, after the setter's outgoing edge; a set
releases those that wait in it, and freeing it releases them with STALE_HANDLE. -/
def Obligations.Futures : Prop :=
  ∀ (d a b : Reg),
    (∀ s is k t i v, Alone s is k t → Readable s is t [] [(d.val, 2)] v → Tbl.rising s.futures = true → i < 2 ^ 24 →
      (s.future i).state = none → (∀ j < i, (s.future j).state ≠ none) →
      let gen := if (s.future i).gen = 255 then 1 else (s.future i).gen + 1
      let made := fun (s' : State) => OthersKept s s' k ∧ s'.futures = s.futures.put i ⟨gen, some none, [], 0⟩ ∧
        FutureStep s s' is k t d.val 2 [(BitVec.ofNat 32 (gen * 2 ^ 24 + i), .n32), (0, .n32)]
      (∃ s' : State, exec (.fnew d) s = .next s' ∧ made s') ∧ (t.trapped = false → ∃ s' : State, exec (.fnewWait d) s = .next s' ∧ made s')) ∧
    (∀ s is k t v, Alone s is k t → Readable s is t [] [(d.val, 2)] v → Tbl.rising s.futures = true →
      (∀ j < 2 ^ 24, (s.future j).state ≠ none) →
      (∃ s' : State, exec (.fnew d) s = .next s' ∧ OnlyGroup s s' is ∧ FutureStep s s' is k t d.val 2 [(0, .n32), (4, .n32)]) ∧
      (t.trapped = false → ∃ s' : State, exec (.fnewWait d) s = .next s' ∧ OnlyGroup s s' is ∧
        s'.threads.get k = some { t with held := true })) ∧
    (∀ s is k t v, Alone s is k t → Readable s is t [ownSrc a 1 (some tagsInt), ownSrc b 2 none] [(d.val, 1)] v → t.run = .ready →
      let o := s.outgoing k
      (Stale s (argW v 0).toNat → ∃ s' : State, exec (.fset d a b) s = .next s' ∧ OnlyGroup o s' is ∧
        FutureStep o s' is k t d.val 1 [(2, .n32)]) ∧
      (∀ j f x, Names s (argW v 0).toNat j f (some x) → ∃ s' : State, exec (.fset d a b) s = .next s' ∧ OnlyGroup o s' is ∧
        FutureStep o s' is k t d.val 1 [(3, .n32)]) ∧
      (∀ j f, Names s (argW v 0).toNat j f none → f.waiters.Nodup → k ∉ f.waiters → s.noneSuspended f.waiters →
        ∃ s' u, exec (.fset d a b) s = .next s' ∧ s'.mem = o.mem ∧
        s'.future j = { f with state := some (some (BitVec.ofNat 64 (argN v 1))), waiters := [], stamp := o.timeOf k } ∧
        Released s s' f.waiters (argN v 1) 0 ∧ s'.threads.get k = some u ∧ GoesTo s is t false (nextPc is.inst) u ∧
        Holds t u d.val 1 [(0, .n32)])) ∧
    (∀ s is k t v, Alone s is k t → Readable s is t [ownSrc a 1 (some tagsInt)] [(d.val, 1)] v → t.run = .ready →
      (Stale s (argW v 0).toNat → ∃ s' : State, exec (.ffree d a) s = .next s' ∧ OnlyGroup s s' is ∧
        FutureStep s s' is k t d.val 1 [(2, .n32)]) ∧
      (∀ j f x, Names s (argW v 0).toNat j f x → f.waiters.Nodup → k ∉ f.waiters → s.noneSuspended f.waiters →
        ∃ s' u, exec (.ffree d a) s = .next s' ∧ s'.mem = s.mem ∧
        s'.future j = ⟨f.gen, none, [], 0⟩ ∧ Released s s' f.waiters 0 2 ∧
        s'.threads.get k = some u ∧ GoesTo s is t false (nextPc is.inst) u ∧ Holds t u d.val 1 [(0, .n32)])) ∧
    (∀ s is k t v, Alone s is k t → Readable s is t [ownSrc a 1 (some tagsInt)] [(d.val, 4)] v →
      (Stale s (argW v 0).toNat →
        (∃ s' : State, exec (.fpoll d a) s = .next s' ∧ OnlyGroup s s' is ∧
          FutureStep s s' is k t d.val 4 [(0, .raw), (0, .raw), (2, .n32), (0, .n32)]) ∧
        (t.trapped = false → ∃ s' : State, exec (.fget d a) s = .next s' ∧ OnlyGroup s s' is ∧
          FutureStep s s' is k t d.val 4 [(0, .raw), (0, .raw), (2, .n32), (0, .n32)])) ∧
      (∀ j f x, Names s (argW v 0).toNat j f (some x) →
        let rs : List RegVal := [(BitVec.ofNat 32 x.toNat, .raw), (BitVec.ofNat 32 (x.toNat / 2 ^ 32), .raw), (0, .n32), (0, .n32)]
        let read := fun (s' : State) => OthersKept s s' k ∧ s'.mem = s.mem ∧ s'.futures = s.futures ∧
          (∃ u, s'.threads.get k = some u ∧ GoesTo s is t false (nextPc is.inst) u ∧ Holds t u d.val 4 rs) ∧
          ∀ g, s.frames.get k = some g → ∃ g', s'.frames.get k = some g' ∧ g'.floor = max g.floor (f.stamp + 1)
        (∃ s' : State, exec (.fpoll d a) s = .next s' ∧ read s') ∧
        (t.trapped = false → ∃ s' : State, exec (.fget d a) s = .next s' ∧ read s')) ∧
      (∀ j f, Names s (argW v 0).toNat j f none →
        (∃ s' : State, exec (.fpoll d a) s = .next s' ∧ OnlyGroup s s' is ∧
          FutureStep s s' is k t d.val 4 [(0, .raw), (0, .raw), (1, .n32), (0, .n32)]) ∧
        (t.trapped = false → ∃ s' : State, exec (.fget d a) s = .next s' ∧ OthersKept s s' k ∧
          s' = { s with threads := s'.threads, futures := s.futures.put j { f with waiters := f.waiters ++ [k] }, issue := none } ∧
          Continues s s' is k { t with run := .future (argW v 0).toNat (t.index d.val) } (nextPc is.inst))))

/-- 10 R249, R255 to R258: MZERO, MSTORE and MSCALE enter their group's queue, and their turn clears a slot, writes its rows
converted to the output format, or scales it by a vector. -/
def Obligations.MatrixCommands : Prop :=
  (∀ (mode : IMode) (q : Fin 16) (slot : Fin 64),
    Commands (.mzero mode q slot) [] (fun _ => True) (fun _ => q.val) (fun _ => .zero slot.val mode)) ∧
  (∀ (d a b : Reg) (sat : Bool) (r : Rnd),
    Commands (.mstore d a b sat r) [ownSrc a 1 (some tagsAddr), ownSrc b 1 (some tagsInt), ownSrc d 1 (some tagsInt)]
      (fun v => let c := (argW v 1).toNat
        let fmt := c / 2 ^ 10 % 16
        let row := ceilDiv ((c / 2 ^ 21 % 128 + 1) * engWidth fmt) 8
        c < 2 ^ 28 ∧ fmt ≤ 11 ∧ fmt ≠ 9 ∧ (sat = true → fmt ∈ [0, 1, 3]) ∧ (argW v 0).toNat % 16 = 0 ∧ (argW v 2).toNat % 16 = 0 ∧
          row ≤ (argW v 2).toNat ∧ (argW v 0).toNat + c / 2 ^ 14 % 128 * (argW v 2).toNat + row ≤ 0x40000)
      (fun v => (argW v 1).toNat / 64 % 16)
      (fun v => .store ((argW v 1).toNat % 64) (argW v 0).toNat (argW v 1).toNat (argW v 2).toNat r sat)) ∧
  (∀ (a b : Reg),
    Commands (.mscale a b) [ownSrc a 1 (some tagsAddr), ownSrc b 1 (some tagsInt)]
      (fun v => (argW v 1).toNat < 2 ^ 11 ∧ (argW v 0).toNat % 16 = 0 ∧ (argW v 0).toNat + 512 ≤ 0x40000)
      (fun v => (argW v 1).toNat / 64 % 16)
      (fun v => .scale ((argW v 1).toNat % 64) (argW v 0).toNat ((argW v 1).getLsbD 10))) ∧
  (∀ s cl q e i mode, (s.cluster cl).nextTurn = some (q, e) → e.op = .zero i mode →
    (∀ k t, e.waiter = some k → s.threads.get k = some t → t.susp = none) →
    ∃ s' : State, exec (.serviceTurn cl) s = .next s' ∧ s' = { s with threads := s'.threads, clusters := s'.clusters } ∧ Served s s' cl q ∧
      SlotBecomes s s' cl i (fun a => a.mode = mode ∧ a.phase = 0 ∧ ∀ m n, a.at_ m n = 0) ∧
      CommandDone s s' e.waiter) ∧
  (∀ s cl q e i at_ w st r sat, (s.cluster cl).nextTurn = some (q, e) → e.op = .store i at_ w st r sat →
    let fmt := w / 2 ^ 10 % 16
    let rows := w / 2 ^ 14 % 128 + 1
    let cols := w / 2 ^ 21 % 128 + 1
    let a := (s.cluster cl).slot i
    let row := ceilDiv (cols * engWidth fmt) 8
    fmt ≤ 11 → fmt ≠ 9 → row ≤ st → (∀ k t, e.waiter = some k → s.threads.get k = some t → t.susp = none) →
    ∃ s' : State, exec (.serviceTurn cl) s = .next s' ∧ s'.mem = s.mem ∧ Served s s' cl q ∧
      SlotBecomes s s' cl i (fun x => x = { a with phase := if r = .rdi then (a.phase + 1) % 32 else a.phase }) ∧
      (∀ m < rows, ∀ n < cols, Stores fmt (RMode.at r (n % 32) a.phase) sat a.mode (a.at_ m n)
        (readBits (s'.core e.gcore).spad (at_ + m * st) (engWidth fmt * n) (engWidth fmt))) ∧
      (∀ m < rows, readBits (s'.core e.gcore).spad (at_ + m * st) (engWidth fmt * cols) (8 * row - engWidth fmt * cols) = 0) ∧
      (∀ g x, (g ≠ e.gcore ∨ ∀ m < rows, x < at_ + m * st ∨ at_ + m * st + row ≤ x) →
        readByte (s'.core g).spad x = readByte (s.core g).spad x) ∧
      CommandDone s s' e.waiter) ∧
  (∀ s cl q e i at_ axis, (s.cluster cl).nextTurn = some (q, e) → e.op = .scale i at_ axis →
    (∀ k t, e.waiter = some k → s.threads.get k = some t → t.susp = none) →
    s.placeBad (.spad e.gcore) at_ 512 = false →
    let a := (s.cluster cl).slot i
    (a.mode = .f32 → ∃ s' : State, exec (.serviceTurn cl) s = .next s' ∧ s' = { s with threads := s'.threads, clusters := s'.clusters } ∧
      Served s s' cl q ∧
      SlotBecomes s s' cl i (fun x => x.mode = a.mode ∧ x.phase = a.phase ∧ ∀ m < 128, ∀ n < 128,
        FloatFmt.fp32.IsProduct .rn false (a.at_ m n).toNat (readNat (s.core e.gcore).spad (at_ + 4 * (if axis then n else m)) 4)
          (x.at_ m n).toNat) ∧
      CommandDone s s' e.waiter) ∧
    (a.mode = .s32 → ∀ k t, e.waiter = some k → s.threads.get k = some t → (s.frames.get k).isSome = true → s.issue = none →
      ∃ s' : State, exec (.serviceTurn cl) s = .next s' ∧ Faulted s' k 0x0044 0))

/-- 10 R250 to R255, 03 R91 to R93: MSIGN captures a descriptor and signs; the last signature enters the operation in its queue;
each of its turns applies one K-step to the slot, and the last one completes the phase, which never completes once its error flag is
set. A turn that reads a scratchpad of a gated die wakes it (20 R407). That a signature does not count as its thread's access to another
core is the model's choice (log 66). -/
def Obligations.TileOperations : Prop :=
  (∀ (d a : Reg) (m : Fin 32) s is k t v x, Alone s is k t → Readable s is t [ownSrc a 1 (some tagsAddr)] [(d.val, 1)] v →
    t.trapped = false → (argW v 0).toNat < 0x40000 → (argW v 0).toNat % 64 = 0 → s.meet (coreOf k) m.val = some x → x.mode = .sign →
    testBit t.members m.val = true → testBit t.arrived m.val = false → x.err = none → x.entered = false → x.due = false →
    let b := s.outgoing k
    let desc := readBytes (b.core (coreOf k)).spad (argW v 0).toNat 64
    b.placeBad (.spad (coreOf k)) (argW v 0).toNat 64 = false → tileInvalid b k t desc = false →
    x.desc = [] ∨ x.desc = desc →
    let y := { x with desc := desc, far := if x.desc = [] then facing b k t else x.far,
                      launch := if x.desc = [] then t.launch else x.launch,
                      arrivals := x.arrivals + 1, stamp := max x.stamp (b.timeOf k) }
    let after := fun (s' : State) => s' = { b with threads := s'.threads, cores := s'.cores, clusters := s'.clusters, issue := none } ∧
      OthersKept s s' k ∧ ∃ u, s'.threads.get k = some u ∧
        GoesTo s is { t with arrived := setBit t.arrived m.val } false (nextPc is.inst) u ∧
        Holds t u d.val 1 [(BitVec.ofNat 32 x.phase, .n32)]
    (x.arrivals + 1 ≠ x.members → ∃ s' : State, exec (.msign d a m) s = .next s' ∧ after s' ∧ s'.clusters = b.clusters ∧
      MeetBecomes s s' (coreOf k) m.val y) ∧
    (x.arrivals + 1 = x.members → b.queueRoom (clusterOf (coreOf k)) (tileDesc desc).queue = true →
      ∃ s' : State, exec (.msign d a m) s = .next s' ∧ after s' ∧ MeetBecomes s s' (coreOf k) m.val { y with due := true, entered := true } ∧
        Entered b s' (clusterOf (coreOf k)) (tileDesc desc).queue
          { op := .tile desc, gcore := coreOf k, far := y.far, meet := m.val, waiter := none, step := 0, begun := false,
            stamp := y.stamp, launch := y.launch }) ∧
    (x.arrivals + 1 = x.members → b.queueRoom (clusterOf (coreOf k)) (tileDesc desc).queue = false →
      ∃ s' : State, exec (.msign d a m) s = .next s' ∧ OnlyGroup s s' is ∧ s'.threads.get k = some { t with held := true })) ∧
  (∀ s g m x, s.meet g m = some x → x.mode = .sign → x.entered = false → x.desc ≠ [] → x.err = none →
    x.due = true ∨ 0 < x.members ∧ x.arrivals = x.members → s.queueRoom (clusterOf g) (tileDesc x.desc).queue = true →
    ∃ s' : State, exec (.signEnqueue g m) s = .next s' ∧ s' = { s with cores := s'.cores, clusters := s'.clusters } ∧
      MeetBecomes s s' g m { x with due := true, entered := true } ∧
      Entered s s' (clusterOf g) (tileDesc x.desc).queue
        { op := .tile x.desc, gcore := g, far := x.far, meet := m, waiter := none, step := 0, begun := false, stamp := x.stamp,
          launch := x.launch }) ∧
  (∀ s cl q e bytes step rest, (s.cluster cl).nextTurn = some (q, e) → e.op = .tile bytes →
    let d := tileDesc bytes
    let a := (s.cluster cl).slot d.slot
    (e.begun = true ∨ d.iacc = (a.mode == .s32)) → (d.live.filter fun x => e.step ≤ x) = step :: rest →
    s.tileBad cl e.far d step = none → s.noneSuspended (s.meetWaiters e.gcore e.meet) →
    ∃ s' : State, exec (.serviceTurn cl) s = .next s' ∧ (rest ≠ [] ∨ s.coreResident e.gcore → s'.mem = s.mem) ∧
      SlotBecomes s s' cl d.slot (fun x => x.mode = a.mode ∧ x.phase = a.phase ∧
        (∀ m < d.m, ∀ n < d.n, TileElement s cl e.far d step m n (a.at_ m n) (x.at_ m n)) ∧
        ∀ m n, n < 128 → d.m ≤ m ∨ d.n ≤ n → x.at_ m n = a.at_ m n) ∧
      (rest ≠ [] → s' = { s with clusters := s'.clusters, cores := s'.cores, dies := s'.dies } ∧
        ((∀ p, s.isGated p = false ∧ s.gateNear p = false) → s'.cores = s.cores ∧ s'.dies = s.dies) ∧ (s'.cluster cl).rotor = (q + 1) % 16 ∧
        (s'.cluster cl).queues.getD q [] = { e with step := step + 1, begun := true } :: ((s.cluster cl).queues.getD q []).drop 1) ∧
      (rest = [] → Served s s' cl q ∧
        ∀ x, s.meet e.gcore e.meet = some x → s.threads.keys.Nodup →
          (x.err = none → PhaseCompleted s s' e.gcore e.meet x x.stamp) ∧
          (x.err ≠ none → s'.threads = s.threads ∧ s'.meet e.gcore e.meet = some x))) ∧
  (∀ s cl q e bytes x, (s.cluster cl).nextTurn = some (q, e) → e.op = .tile bytes → e.begun = false →
    (tileDesc bytes).iacc ≠ (((s.cluster cl).slot (tileDesc bytes).slot).mode == .s32) → s.meet e.gcore e.meet = some x →
    x.err = none → s.meetWaiters e.gcore e.meet = [] →
    ∃ s' : State, exec (.serviceTurn cl) s = .next s' ∧ Served s s' cl q ∧ MeetBecomes s s' e.gcore e.meet { x with err := some 0x0042, desc := [], due := false })

/-- 03 R88 to R90, 10 R259 to R261: GWIN reads a block of a Grain group, its completion fills the window register, and GDEC
gives a weight: eighths of the sum of the hashed nibbles of its 16-bit window, less 30, times the block's scale. -/
def Obligations.GrainWindows : Prop :=
  (∀ (mode : GMode) (w : Fin 8) (a b : Reg) s is k t v s1 s2 stream sc, Alone s is k t →
    Readable s is t [ownSrc a 4 (some tagsAddr), ownSrc b 1 (some tagsInt)] [] v →
    let n := if mode = .g1 then 32 else 48
    let j := (argW v 1).toNat
    let va := (argN v 0 % 2 ^ 64 + n * j) % 2 ^ 64
    let sa := (argN v 0 / 2 ^ 64 + 10 * j / 8) % 2 ^ 64
    (∀ q ∈ t.gwins, q.w ≠ w.val) → t.trapped = false → va < 2 ^ 57 → va % 16 = 0 → sa < 2 ^ 57 →
    s.globBytes k t va n = (s1, .ok stream) → s1.globBytes k t sa 2 = (s2, .ok sc) →
    ∃ s' : State, exec (.gwin mode w a b) s = .next s' ∧ s' = { s2 with threads := s'.threads, nextId := s2.nextId + 1, issue := none } ∧
      OthersKept s s' k ∧
      Continues s s' is k
        { t with gwins := t.gwins ++ [⟨s2.nextId, w.val, mode, stream, leNat sc / 2 ^ (10 * j % 8) % 2 ^ 10⟩] } (nextPc is.inst)) ∧
  (∀ s k t q, s.threads.get k = some t → t.draining = false → q ∈ t.gwins → (t.gwins.map GwinReq.id).Nodup →
    ∃ s' : State, exec (.gwinComplete k q.id) s = .next s' ∧ s' = { s with threads := s'.threads, cores := s'.cores } ∧
      OthersKept s s' k ∧ s'.threads.get k = some { t with gwins := t.gwins.filter fun x => x.id != q.id } ∧
      ∀ g i, (s'.core g).wins.get i =
        if g = coreOf k ∧ i = 8 * t.part + q.w then some ⟨q.stream, q.scale, q.mode⟩ else (s.core g).wins.get i) ∧
  (∀ (d a : Reg) (w : Fin 8), Does (.gdec d a w) {
    srcs := [ownSrc a 1 (some tagsInt)], dest := d.val, regs := 1
    ready := fun s _ k t _ => (∀ q ∈ t.gwins, q.w ≠ w.val) ∧ ((s.core (coreOf k)).wins.get (8 * t.part + w.val)).isSome = true
    result := fun s _ k t v rs => ∀ g, (s.core (coreOf k)).wins.get (8 * t.part + w.val) = some g → g.scale < 2 ^ 10 →
      let i := (argW v 0).toNat % 256
      let bits := if g.mode = .g1 then 256 else 384
      ∃ x : Word, rs = [(x, .f32)] ∧ ∃ z < 2 ^ 16,
        (∀ j < 16, testBit z j = testBit (leNat g.stream) (((if g.mode = .g1 then i else i + i / 2) + j) % bits)) ∧
        let h := (z * 0xB5A3 + 0x3C61) % 2 ^ 16
        let q : ℤ := ((h % 16 + h / 16 % 16 + h / 256 % 16 + h / 4096 : ℕ) : ℤ) - 30
        (f32 x).finite = true ∧ (f32 x).val = q / 8 * (s10Decode g.scale).val ∧ (q = 0 ∨ g.scale < 16 → x = 0) }) ∧
  ∀ (d a : Reg) (w : Fin 8), FaultsWith (.gdec d a w) [ownSrc a 1 (some tagsInt)] [(d.val, 1)]
    (fun s _ k t _ => (∀ q ∈ t.gwins, q.w ≠ w.val) ∧ (s.core (coreOf k)).wins.get (8 * t.part + w.val) = none) 0x0046

/-- 10 R262 to R265: CARVE puts its record's request in the Carver's queue of 64, and each turn of the Carver reads 1024 bytes
of weights and writes one block; the last of four blocks writes the scale bytes of the four (log 29). The bytes written count down
the meet. The scale is the S10 value nearest to a 3.75th of the largest magnitude, and the stream that of the two passes. A block
with NaN or an infinity, or an access that fails, fails the request with the meet's error. -/
def Obligations.CarverBlocks : Prop :=
  (∀ (a : Reg),
    (∀ s is k t v j, Alone s is k t → Readable s is t [ownSrc a 1 (some tagsAddr)] [] v → s.fuses.carver = true →
      s.carver.length < 64 → t.trapped = false → (argW v 0).toNat < 0x40000 → (argW v 0).toNat % 64 = 0 →
      let b := { s.outgoing k with nextId := s.nextId + 1 }
      b.placeBad (.spad (coreOf k)) (argW v 0).toNat 64 = false →
      carveRequest b k t (readBytes (b.core (coreOf k)).spad (argW v 0).toNat 64) s.nextId (b.timeOf k) = some j →
      ∃ s' : State, exec (.carve a) s = .next s' ∧ s' = { b with threads := s'.threads, carver := s.carver ++ [j], issue := none } ∧
        OthersKept s s' k ∧ Continues s s' is k t (nextPc is.inst)) ∧
    (∀ s is k t v, Alone s is k t → Readable s is t [ownSrc a 1 (some tagsAddr)] [] v → s.fuses.carver = true →
      64 ≤ s.carver.length → ∃ s' : State, exec (.carve a) s = .next s' ∧ OnlyGroup s s' is ∧ s'.threads.get k = some { t with held := true })) ∧
  (∀ s j rest s1 bs s2, s.carver = j :: rest →
    s.engineRead ⟨j.gcore, j.ctxid, j.launch, false⟩ (j.wsrc + 1024 * j.next) 1024 = (s1, .ok bs) →
    (∀ i < 256, (f32 (BitVec.ofNat 32 (leNat ((bs.drop (4 * i)).take 4)))).finite = true) →
    let out := carveBlock j.mode (wordsOf bs 256)
    let n := if j.mode = .g1 then 32 else 48
    let blk := j.bfirst + j.next
    s1.carveWrite j (j.dstream + n * blk) (leBytes n out.1) = (s2, true) →
    (j.next % 4 ≠ 3 → ∃ s' : State, exec .carverRequest s = .next s' ∧ s' = { s2 with carver := if j.next + 1 = j.count then rest
      else { j with next := j.next + 1, scales := j.scales ++ [out.2] } :: rest }) ∧
    (j.next % 4 = 3 → j.scales.length = 3 → (∀ c ∈ j.scales, c < 2 ^ 10) →
      ∀ five : List Byte, five.length = 5 → (∀ i < 4, leNat five / 2 ^ (10 * i) % 2 ^ 10 = (j.scales ++ [out.2]).getD i 0) →
      ∀ s3, s2.carveWrite j (j.dscale + 10 * (blk - 3) / 8) five = (s3, true) →
      ∃ s' : State, exec .carverRequest s = .next s' ∧ s' = { s3 with carver := if j.next + 1 = j.count then rest
        else { j with next := j.next + 1, scales := [] } :: rest })) ∧
  (∀ (s : State) (j : CarveJob) (va : Nat) (bs : List Byte) s1 u, s.engineWrite ⟨j.gcore, j.ctxid, j.launch, false⟩ va bs = (s1, .ok u) →
    (s1.countsBytes j.gcore j.meet = false → s.carveWrite j va bs = (s1, true)) ∧
    ∀ x, s1.meet j.gcore j.meet = some x → x.mode = .bytes → ∃ s2, s.carveWrite j va bs = (s2, true) ∧
      s2 = { s1 with cores := s2.cores } ∧
      MeetBecomes s1 s2 j.gcore j.meet
        { x with count := signExt (wrap (x.count - bs.length) 48) 48, stamp := max x.stamp j.stamp }) ∧
  (∀ (s : State) (who : Who) (va : Nat) (bs : List Byte) tr, 0 < bs.length → va % 4096 + bs.length ≤ 4096 → va < 2 ^ 57 →
    s.translated who va → s.translate who va bs.length .write = (s, .ok tr) → (∀ i < bs.length, s.frameAt (tr.pa + i) = none) →
    ∃ s' : State, s.engineWrite who va bs = (s', .ok ()) ∧ s'.threads = s.threads ∧ s'.cores = s.cores ∧
      ∀ x, readByte s'.mem x = if tr.pa ≤ x ∧ x < tr.pa + bs.length then bs.getD (x - tr.pa) 0 else readByte s.mem x) ∧
  (∀ s j rest s1 e x, s.carver = j :: rest →
    s.engineRead ⟨j.gcore, j.ctxid, j.launch, false⟩ (j.wsrc + 1024 * j.next) 1024 = (s1, .error e) →
    s1.meet j.gcore j.meet = some x → x.mode = .bytes → x.err = none → s1.meetWaiters j.gcore j.meet = [] →
    ∃ s' : State, exec .carverRequest s = .next s' ∧ s' = { s1 with carver := s1.carver.drop 1, cores := s'.cores } ∧
      MeetBecomes s1 s' j.gcore j.meet { x with err := some 0x0026, desc := [], due := false }) ∧
  (∀ s j rest s1 bs x, s.carver = j :: rest → s.engineRead ⟨j.gcore, j.ctxid, j.launch, false⟩ (j.wsrc + 1024 * j.next) 1024 = (s1, .ok bs) →
    (∃ i < 256, (f32 (BitVec.ofNat 32 (leNat ((bs.drop (4 * i)).take 4)))).finite = false) →
    s1.meet j.gcore j.meet = some x → x.mode = .bytes → x.err = none → s1.meetWaiters j.gcore j.meet = [] →
    ∃ s' : State, exec .carverRequest s = .next s' ∧ s' = { s1 with carver := rest, cores := s'.cores } ∧
      MeetBecomes s1 s' j.gcore j.meet { x with err := some 0x0048, desc := [], due := false }) ∧
  ∀ (mode : GMode) (ws : List Word), (∀ w ∈ ws, (f32 w).finite = true) →
    ∃ X : ℚ, (∀ w ∈ ws, |(f32 w).val| ≤ X) ∧ (X = 0 ∨ ∃ w ∈ ws, |(f32 w).val| = X) ∧
      (carveBlock mode ws).2 < 2 ^ 10 ∧
      (∀ c < 2 ^ 10, |(s10Decode (carveBlock mode ws).2).val - X / (15 / 4)| < |(s10Decode c).val - X / (15 / 4)| ∨
        |(s10Decode (carveBlock mode ws).2).val - X / (15 / 4)| = |(s10Decode c).val - X / (15 / 4)| ∧
          (s10Decode (carveBlock mode ws).2).val ≤ (s10Decode c).val) ∧
      ((s10Decode (carveBlock mode ws).2).val = 0 → carveBlock mode ws = (0, 0)) ∧
      (ws.length = 256 → (s10Decode (carveBlock mode ws).2).val ≠ 0 →
        StreamChosen mode (s10Decode (carveBlock mode ws).2).val (fun i => (f32 (ws.getD i 0)).val) (carveBlock mode ws).1)

/-- 10 R266 to R269, 16 R332, R333: PSUB sends its patch to the first bucket that the bound touches, or answers that there is
none; BOPEN opens the lowest openable bucket of its die, or waits, or answers that none is left; BCLOSE waits until its
bucket is complete and then answers, with every other BCLOSE of the bucket, with its dropped grids and takes its completion edge. -/
def Obligations.BucketInstructions : Prop :=
  (∀ (d a : Reg) s is k t v r s1 s2 tr head, Alone s is k t → Readable s is t [ownSrc a 2 (some tagsAddr)] [(d.val, 1)] v →
    InRender s t r → argN v 0 < 2 ^ 57 → argN v 0 % 512 = 0 → s.translate (t.who k) (argN v 0) 1 .read = (s1, .ok tr) →
    s1.observes tr = true → s1.globLoad k t (argN v 0) 36 = (s2, .ok head) →
    let bound := (List.range 4).map fun i => (BitVec.ofNat 32 (leNat ((head.drop (16 + 4 * i)).take 4)) : Word)
    (r.bucketsOf bound = [] →
      ∃ s' : State, exec (.psub d a) s = .next s' ∧ LoadInFlight s s2 s' is k t d.val [(0xFFFFFFFF, .n32)] none) ∧
    (∀ b others, r.bucketsOf bound = b :: others → ∃ s' e, exec (.psub d a) s = .next s' ∧
      s' = { s2 with threads := s'.threads, nextId := s2.nextId + 1, issue := none,
                     net := s2.net ++ [.listPatch (b % s.fuses.dies) t.launch b e others k (t.index d.val) s2.nextId] } ∧
      e.patch = argN v 0 ∧ e.u0 = 0 ∧ e.u1 = 0x3F800000 ∧ e.v0 = 0 ∧ e.v1 = 0x3F800000 ∧
      e.depth = leNat (head.take 4) / 4 % 16 ∧ OthersKept s s' k ∧
      Continues s s' is k { t with pend := t.pend ++ [(t.index d.val, s2.nextId)] } (nextPc is.inst))) ∧
  (∀ (r : Render) (x0 y0 x1 y1 : Word), 0 < r.width → 0 < r.height →
    (r.bucketsOf [x0, y0, x1, y1]).Pairwise (· < ·) ∧
    ∀ b, b ∈ r.bucketsOf [x0, y0, x1, y1] ↔ ∃ px py, PixelTouched x0 x1 r.width px ∧ PixelTouched y0 y1 r.height py ∧
      b = py / r.side * r.bx + px / r.side) ∧
  (∀ (d : Reg) s is k t v r, Alone s is k t → Readable s is t [] [(d.val, 1)] v → InRender s t r → t.susp = none →
    let cl := clusterOf (coreOf k)
    (s.cluster cl).bucketBusy = false →
    (∀ b rest, s.openable r (cl / 9) = b :: rest → t.run = .ready →
      ∃ s' u o r', exec (.bopen d) s = .next s' ∧ OthersKept s s' k ∧ s'.threads.get k = some u ∧
        GoesTo s is t false (nextPc is.inst) u ∧ Holds t u d.val 1 [(BitVec.ofNat 32 b, .n32)] ∧
        (s'.cluster cl).bucket = some o ∧ (s'.cluster cl).opening = none ∧ o.launch = t.launch ∧ o.bucket = b ∧
        o.list = (s.bucket r b).list ∧ o.carried = (s.bucket r b).carried ∧ o.grids = [] ∧ o.dropped = 0 ∧
        s'.renders.get t.launch = some r' ∧ (s'.bucket r' b).state = .opened ∧ (s'.bucket r' b).list = [] ∧
        (∀ j, j ≠ b → s'.bucket r' j = s.bucket r j) ∧
        ∃ o1 s2 as s3, s2.mem = s.mem ∧ s2.cores = s.cores ∧ s2.pkg = s.pkg ∧ s2.ctxs = s.ctxs ∧ s2.threads.keys = s.threads.keys ∧
          (∀ a, a ∈ as ↔ SlotOf r (s.cluster cl) b a) ∧ o1.lost = false ∧ o1.bucket = b ∧
          SlotsEmptied cl o1 s2 as s3 ∧ s'.mem = s3.mem) ∧
    (s.openable r (cl / 9) = [] → s.noneLeft r = true → t.run = .ready →
      ∃ s' u, exec (.bopen d) s = .next s' ∧ s' = { s with threads := s'.threads, clusters := s'.clusters, issue := none } ∧
        OthersKept s s' k ∧ s'.threads.get k = some u ∧ GoesTo s is t false (nextPc is.inst) u ∧
        Holds t u d.val 1 [(0xFFFFFFFF, .n32)] ∧ (s'.cluster cl).bucket = none ∧ (s'.cluster cl).opening = none) ∧
    (s.openable r (cl / 9) = [] → s.noneLeft r = false →
      ∃ s' : State, exec (.bopen d) s = .next s' ∧
        ClusterOnly s s' k cl (fun c => { c with opening := some (k, s.timeOf k) }) ∧
        Continues s s' is k { t with run := .engine (.bopen (t.index d.val)) } (nextPc is.inst))) ∧
  (∀ (d : Reg), FaultsWith (.bopen d) [] [(d.val, 1)]
    (fun s _ k t _ => (∃ r, InRender s t r) ∧ (s.cluster (clusterOf (coreOf k))).bucketBusy = true) 0x0055) ∧
  (∀ (d a : Reg) s is k t v r o, Alone s is k t → Readable s is t [ownSrc a 1 (some tagsInt)] [(d.val, 1)] v → InRender s t r →
    t.susp = none → (s.cluster (clusterOf (coreOf k))).bucket = some o → o.launch = t.launch → o.bucket = (argW v 0).toNat →
    (o.complete = false → ∃ s' : State, exec (.bclose d a) s = .next s' ∧ OnlyGroup s s' is ∧
      Continues s s' is k { t with run := .engine (.bclose o.bucket (t.index d.val)) } (nextPc is.inst)) ∧
    (o.complete = true → o.asCarried = [] → t.run = .ready → s.threads.keys.Nodup →
      let cl := clusterOf (coreOf k)
      let count : Word := BitVec.ofNat 32 (o.dropped % 2 ^ 24 + 2 ^ 31 * bit o.lost)
      let closes := fun (j : FrameRef) (w : Thread) (e : Nat) =>
        clusterOf (coreOf j) = cl ∧ w.launch = t.launch ∧ w.run = .engine (.bclose o.bucket e)
      ∃ s' u r', exec (.bclose d a) s = .next s' ∧ s'.threads.get k = some u ∧
        ((∀ j w e, s.threads.get j = some w → closes j w e → w.susp = none) → s'.mem = s.mem) ∧
        (∀ j w, j ≠ k → s.threads.get j = some w →
          ((∀ e, ¬ closes j w e) → s'.threads.get j = some w) ∧
          ∀ e, closes j w e → w.susp = none → ∃ y, s'.threads.get j = some y ∧ y.run = .ready ∧ y.wait = 0 ∧ y.pc = w.pc ∧
            y.reg e = (count, .n32) ∧ ∀ i, i ≠ e → y.latest i = w.latest i) ∧
        GoesTo s is t false (nextPc is.inst) u ∧
        Holds t u d.val 1 [(count, .n32)] ∧
        (s'.cluster (clusterOf (coreOf k))).bucket = none ∧
        s'.renders.get t.launch = some r' ∧ (s'.bucket r' o.bucket).state = .closed ∧
        ∀ f, s.frames.get k = some f → ∃ f', s'.frames.get k = some f' ∧ f'.floor = max f.floor (o.endStamp + 1))) ∧
  ∀ (d a : Reg), FaultsWith (.bclose d a) [ownSrc a 1 (some tagsInt)] [(d.val, 1)]
    (fun s _ k t v => (∃ r, InRender s t r) ∧ ∀ o, (s.cluster (clusterOf (coreOf k))).bucket = some o →
      o.launch ≠ t.launch ∨ o.bucket ≠ (argW v 0).toNat) 0x0056

/-- 10 R270 to R275, 16 R366: CAM and DECK load a cluster's unit blocks and sample deck from the scratchpad; a camera block is in
force from the next cycle on. TRACE finds the nearest hit, or with ANY the first in depth-first order: it visits every child whose
box the ray meets, tests every triangle of a leaf, and finds exactly those that the ray meets; and HITLD reads the hit register,
with the rounded T, U and V. -/
def Obligations.UnitBlocksAndRays : Prop :=
  (∀ (s : State) (cl : Nat), (s.tick.cluster cl).cam = (s.cluster cl).heldCam.getD (s.cluster cl).cam ∧
    (s.tick.cluster cl).heldCam = none) ∧
  (∀ (ws : List Word), ws.length = 8 →
    (rayOf ws = none ↔ (∃ i < 6, (f32 (ws.getD i 0)).finite = false) ∨ f32 (ws.getD 6 0) = .nan ∨ f32 (ws.getD 7 0) = .nan)) ∧
  (∀ ws ray box, rayOf ws = some ray → (boxHit ray ray.hi box = true ↔ MeetsBox ws box)) ∧
  (∀ (k : FrameRef) (t : Thread) (ws : List Word) (ray : Ray) (depth : Nat) (s : State) (va : Nat) (box : Option (List Word)) s1 bs,
    rayOf ws = some ray → s.readEntry k t va 128 = (s1, .ok bs) → (∀ j < 4, childBad (childWord bs j) = false) →
    ∃ (c : Nat → State) (m : Nat → List Met), c 0 = s1 ∧
      State.meetNode k t (some ray) (depth + 1) s va box = (c 4, ⟨none, box, []⟩ :: (m 0 ++ m 1 ++ m 2 ++ m 3)) ∧
      ∀ j < 4,
        let kind := childWord bs j % 4
        let b := wordsOf (bs.drop (24 * j)) 6
        let dest := childWord bs j / 2 ^ 7 % 2 ^ 50 * 128
        (kind = 0 ∨ ¬ MeetsBox ws b → c (j + 1) = c j ∧ m j = []) ∧
        (kind = 1 → MeetsBox ws b → State.meetNode k t (some ray) depth (c j) dest (some b) = (c (j + 1), m j)) ∧
        (kind = 2 → MeetsBox ws b → 0 < depth →
          ∃ x, (c j).meetLeaf k t ray dest (childWord bs j / 4 % 32) b = (c (j + 1), x) ∧ m j = [x]) ∧
        (kind = 2 → MeetsBox ws b → depth = 0 → m j = [⟨some (0x0062, dest), some b, []⟩])) ∧
  (∀ (k : FrameRef) (t : Thread) (ray : Ray) (s : State) (va n : Nat) (box : List Word) s1 bs,
    s.readEntry k t va (48 * n) = (s1, .ok bs) → (∀ i < n, leNat ((bs.drop (48 * i + 40)).take 8) = 0) →
    ∃ x, s.meetLeaf k t ray va n box = (s1, x) ∧ x.fault = none ∧ x.box = some box ∧
      ∀ h, h ∈ x.hits ↔ ∃ i < n, triHit ray va i ((bs.drop (48 * i)).take 48) = some h) ∧
  (∀ (a : Reg) s is k t v r, Alone s is k t → Readable s is t [ownSrc a 1 (some tagsAddr)] [] v → InRender s t r →
    (argW v 0).toNat % 16 = 0 →
    let e := (argW v 0).toNat
    let b := s.landStores k
    let w := fun (i : Nat) => (BitVec.ofNat 32 (readNat (b.core (coreOf k)).spad (e + 4 * i) 4) : Word)
    (e + 128 ≤ 0x40000 → b.placeBad (.spad (coreOf k)) e 128 = false →
      (∀ i < 8, (f32 (w i)).finite = true) → 0 ≤ (f32 (w 4)).val → 0 < (f32 (w 6)).val → (f32 (w 6)).val < (f32 (w 7)).val →
      ∃ s' : State, exec (.cam a .cam) s = .next s' ∧ Continues s s' is k t (nextPc is.inst) ∧
        ClusterOnly b s' k (clusterOf (coreOf k)) fun c => { c with heldCam := some ⟨w 0, w 1, w 2, w 3, w 4, w 5, w 6, w 7⟩ }) ∧
    (e + 64 ≤ 0x40000 → b.placeBad (.spad (coreOf k)) e 64 = false → (s.cluster (clusterOf (coreOf k))).bucketBusy = false →
      let vbase := (w 0).toNat % 2 ^ 23
      let kib := (w 1).toNat % 2 ^ 10
      let spill := readNat (b.core (coreOf k)).spad (e + 8) 8 % 2 ^ 57
      let blocks := (w 4).toNat % 2 ^ 24
      vbase % 1024 = 0 → 1 ≤ kib → kib ≤ 512 → vbase + 1024 * kib ≤ 0x800000 → spill % 1024 = 0 →
      (b.cluster (clusterOf (coreOf k))).spillUsed = [] →
      ∃ s' : State, exec (.cam a .dice) s = .next s' ∧ Continues s s' is k t (nextPc is.inst) ∧
        ClusterOnly b s' k (clusterOf (coreOf k)) fun c => { c with dice := ⟨vbase, kib, spill, blocks⟩ }) ∧
    (e + 64 ≤ 0x40000 → b.placeBad (.spad (coreOf k)) e 64 = false → (s.cluster (clusterOf (coreOf k))).bucketBusy = false →
      let sbase := readNat (b.core (coreOf k)).spad e 8 % 2 ^ 57
      let vpn := (w 2).toNat % 8
      sbase % 16 = 0 → 1 ≤ vpn → vpn ≤ 4 →
      ∃ s' : State, exec (.cam a .rast) s = .next s' ∧ Continues s s' is k t (nextPc is.inst) ∧
        ClusterOnly b s' k (clusterOf (coreOf k)) fun c => { c with rast := ⟨sbase, vpn⟩ })) ∧
  (∀ (a b : Reg) s is k t v r, Alone s is k t →
    Readable s is t [ownSrc a 1 (some tagsAddr), ownSrc b 1 (some tagsInt)] [] v → InRender s t r →
    let e := (argW v 0).toNat
    let n := (argW v 1).toNat
    let c := s.landStores k
    1 ≤ n → n ≤ 64 → e % 16 = 0 → e + 10 * n ≤ 0x40000 → (s.cluster (clusterOf (coreOf k))).bucketBusy = false →
    c.placeBad (.spad (coreOf k)) e (10 * n) = false →
    ∃ s' deck, exec (.deck a b) s = .next s' ∧ Continues s s' is k t (nextPc is.inst) ∧
      ClusterOnly c s' k (clusterOf (coreOf k)) (fun x => { x with deck := deck }) ∧ deck.length = n ∧
      ∀ i < n, (deck.getD i []).length = 5 ∧
        ∀ j < 5, (deck.getD i []).getD j 0 = readNat (c.core (coreOf k)).spad (e + 10 * i + 2 * j) 2) ∧
  (∀ (d a b : Reg) (any : Bool) s is k t v s1 ms h, Alone s is k t →
    Readable s is t [ownSrc a 8 (some tagsF32), ownSrc b 2 (some tagsAddr)] [(d.val, 1)] v → s.hasRays (coreOf k) = true →
    t.trapped = false → argN v 1 < 2 ^ 57 → argN v 1 % 128 = 0 →
    State.meetNode k t (rayOf ((v.getD 0 []).map (·.1))) 32 (s.landStores k) (argN v 1) none = (s1, ms) →
    traceResult (rayOf ((v.getD 0 []).map (·.1))) any ms = .ok h →
    ∃ s' u, exec (.trace d a b any) s = .next s' ∧ s' = { s1 with threads := s'.threads, issue := none } ∧ OthersKept s s' k ∧
      s'.threads.get k = some u ∧ GoesTo s is { t with hit := hitWords h } false (nextPc is.inst) u ∧
      Holds t u d.val 1 [(if h.isSome then 1 else 0, .n32)]) ∧
  (∀ (d a b : Reg) (any : Bool) s is k t v s1 ms c at_, Alone s is k t →
    Readable s is t [ownSrc a 8 (some tagsF32), ownSrc b 2 (some tagsAddr)] [(d.val, 1)] v → s.hasRays (coreOf k) = true →
    t.trapped = false → argN v 1 < 2 ^ 57 → argN v 1 % 128 = 0 → (s.frames.get k).isSome = true →
    State.meetNode k t (rayOf ((v.getD 0 []).map (·.1))) 32 (s.landStores k) (argN v 1) none = (s1, ms) →
    traceResult (rayOf ((v.getD 0 []).map (·.1))) any ms = .error (c, at_) →
    ∃ s' : State, exec (.trace d a b any) s = .next s' ∧ Faulted s' k c at_) ∧
  (∀ (ray : Ray) ms h, (∀ x ∈ ms.flatMap Met.hits, 0 < x.d) → traceResult (some ray) false ms = .ok (some h) →
    h ∈ ms.flatMap Met.hits ∧ ∀ x ∈ ms.flatMap Met.hits, (h.t : ℚ) / h.d ≤ (x.t : ℚ) / x.d ∧
      ((h.t : ℚ) / h.d = (x.t : ℚ) / x.d → h.prim ≤ x.prim)) ∧
  (∀ (ray : Ray) ms, traceResult (some ray) false ms = .ok none → ms.flatMap Met.hits = []) ∧
  (∀ (ray : Ray) ms, (∀ m ∈ ms, m.fault = none) → traceResult (some ray) true ms = .ok (ms.flatMap Met.hits).head?) ∧
  (∀ ws ray leaf i rec_ h, rayOf ws = some ray → triHit ray leaf i rec_ = some h →
    0 < h.d ∧ h.leaf = leaf ∧ h.index = i ∧ h.prim = leNat ((rec_.drop 36).take 4) ∧
      RayMeets ray (fun n => (((wordsOf rec_ 9).drop (3 * n)).take 3).map units) ((h.t : ℚ) / h.d) ((h.u : ℚ) / h.d) ((h.v : ℚ) / h.d) ∧
      (0 : ℚ) ≤ (h.u : ℚ) / h.d ∧ (0 : ℚ) ≤ (h.v : ℚ) / h.d ∧ (h.u : ℚ) / h.d + (h.v : ℚ) / h.d ≤ 1 ∧
      ray.lo.AtMostQ ((h.t : ℚ) / h.d) ∧ ray.hi.AtLeastQ ((h.t : ℚ) / h.d)) ∧
  (∀ ws ray leaf i rec_ (T U V : ℚ), rayOf ws = some ray → (∀ j < 9, (f32 ((wordsOf rec_ 9).getD j 0)).finite = true) →
    let p := fun n => (((wordsOf rec_ 9).drop (3 * n)).take 3).map units
    RayMeets ray p T U V → (∀ T' U' V', RayMeets ray p T' U' V' → T' = T ∧ U' = U ∧ V' = V) →
    (f32 (ws.getD 6 0)).LeQ T → (f32 (ws.getD 7 0)).GeQ T → 0 ≤ U → 0 ≤ V → U + V ≤ 1 →
    ∃ h, triHit ray leaf i rec_ = some h ∧ (h.t : ℚ) / h.d = T ∧ (h.u : ℚ) / h.d = U ∧ (h.v : ℚ) / h.d = V) ∧
  (∀ h : RayHit, 0 < h.d → RatioIs h.t h.d ((hitWords (some h)).getD 2 0) ∧ RatioIs h.u h.d ((hitWords (some h)).getD 3 0) ∧
    RatioIs h.v h.d ((hitWords (some h)).getD 4 0)) ∧
  (∀ h : RayHit, (hitWords (some h)).getD 0 0 = 1 ∧ (hitWords (some h)).getD 1 0 = BitVec.ofNat 32 h.prim ∧
    (hitWords (some h)).getD 5 0 = BitVec.ofNat 32 h.leaf ∧ (hitWords (some h)).getD 6 0 = BitVec.ofNat 32 (h.leaf / 2 ^ 32) ∧
    (hitWords (some h)).getD 7 0 = BitVec.ofNat 32 h.index) ∧
  (∀ i, (hitWords none).getD i 0 = 0) ∧
  ∀ (d : Reg) (f : Fin 8), Does (.hitld d f) {
    dest := d.val, regs := 1
    ready := fun s _ k _ _ => s.hasRays (coreOf k) = true
    result := fun _ _ _ t _ rs => rs = [(t.hit.getD f.val 0, if 2 ≤ f.val ∧ f.val ≤ 4 then .f32 else .n32)] }

/-- 10 R267, 16 R337, R338, R348, R360: what reaches the owner of a bucket: a patch is listed and counted at its receivers, or
refused by an opened bucket; counts go up and down while the bucket is unopened; references to carried grids are kept;
reports are remembered. The message stated of is the oldest in transit. -/
def Obligations.BucketMessages : Prop :=
  (∀ s die launch b e others k d id rest r t, s.net = .listPatch die launch b e others k d id :: rest →
    s.renders.get launch = some r → s.threads.get k = some t →
    ((s.bucket r b).state = .unopened ∨ (s.bucket r b).state = .moving →
      ∃ s' r', exec (.patchListing die) s = .next s' ∧
        s' = { s with net := rest ++ others.map (fun o => .pendingUp (o % s.fuses.dies) launch o), renders := s'.renders,
                      threads := s'.threads } ∧
        s'.renders.get launch = some r' ∧
        s'.bucket r' b = { s.bucket r b with list := (s.bucket r b).list ++ [{ e with parent := r.nextPatch }] } ∧
        (∀ j, j ≠ b → s'.bucket r' j = s.bucket r j) ∧
        r'.patches.get r.nextPatch = some ⟨b, others, 1, false⟩ ∧ r'.nextPatch = r.nextPatch + 1 ∧ OthersKept s s' k ∧
        s'.threads.get k = some { t with loads := t.loads ++ [⟨id, [(d, (BitVec.ofNat 32 b, .n32))], none, none⟩] }) ∧
    ((s.bucket r b).state = .opened ∨ (s.bucket r b).state = .closed →
      ∃ s' : State, exec (.patchListing die) s = .next s' ∧ s' = { s with net := rest, threads := s'.threads, dies := s'.dies } ∧
        OthersKept s s' k ∧
        s'.threads.get k = some { t with loads := t.loads ++ [⟨id, [(d, (BitVec.ofNat 32 (b + 2 ^ 31), .n32))], none, none⟩] })) ∧
  (∀ s die launch b rest r, s.net = .pendingUp die launch b :: rest → s.renders.get launch = some r →
    ∃ s' r', exec (.pendingIncrement die) s = .next s' ∧ s' = { s with net := rest, renders := s'.renders } ∧
      s'.renders.get launch = some r' ∧
      ∀ j, s'.bucket r' j = if j = b ∧ (s.bucket r b).waiting = true then { s.bucket r b with pending := (s.bucket r b).pending + 1 }
        else s.bucket r j) ∧
  (∀ s die launch b rest r, s.net = .pendingDown die launch b :: rest → s.renders.get launch = some r →
    ∃ s' r', exec (.pendingDecrement die) s = .next s' ∧ s' = { s with net := rest, renders := s'.renders } ∧
      s'.renders.get launch = some r' ∧
      ∀ j, s'.bucket r' j = if j = b ∧ (s.bucket r b).waiting = true then
        { s.bucket r b with pending := (s.bucket r b).pending - 1,
                            zeroAt := if (s.bucket r b).pending ≤ 1 then some s.cycle else (s.bucket r b).zeroAt }
        else s.bucket r j) ∧
  (∀ s die launch b id rest r, s.net = .carry die launch b id :: rest → s.renders.get launch = some r → 
    (s.bucket r b).waiting = true →
    ∃ s' r', exec (.carryReceive die) s = .next s' ∧ s' = { s with net := rest, renders := s'.renders } ∧
      s'.renders.get launch = some r' ∧
      ∀ j, s'.bucket r' j = if j = b then { s.bucket r b with carried := (s.bucket r b).carried ++ [id] } else s.bucket r j) ∧
  (∀ s die launch v n rest, s.net = .countReport die launch v n :: rest →
    ∃ s' : State, exec (.countReport die) s = .next s' ∧ s' = { s with net := rest, dists := s'.dists } ∧
      ∀ w, s'.dist w = if w = die then { s.dist die with reports := (s.dist die).reports.put (4 * launch + v) n } else s.dist w) ∧
  ∀ s die cl k stamp t r b rest, s.askers die = cl :: rest → (s.cluster cl).opening = some (k, stamp) → s.threads.get k = some t →
    (∃ d, t.run = .engine (.bopen d)) → cl / 9 = die → s.renders.get t.launch = some r → s.openable r die = [] →
    s.noneLeft r = false → s.bucketComing die t.launch = false →
    (∀ w, (s.openable r w).getLast? = some b → (s.stealOrder t.launch die).find? (fun w => !(s.openable r w).isEmpty) = some w →
      ∃ s' r', exec (.bucketSteal die) s = .next s' ∧ s'.threads = s.threads ∧ s'.mem = s.mem ∧ s'.renders.get t.launch = some r' ∧
        (s'.bucket r' b).state = .moving ∧ (∀ j, j ≠ b → s'.bucket r' j = s.bucket r j) ∧
        ∃ x : StealRec, x.thief = distEnd die ∧ x.victim = distEnd w ∧ x.bucket = some (t.launch, b) ∧ x.id = s.nextId ∧
          (∃ more, s'.net = s.net ++ Msg.stealRecord x :: more) ∧
          (s'.dist w).offers = (s.dist w).offers ++ [⟨x, none, s.cycle, false⟩]) ∧
    ((s.stealOrder t.launch die).find? (fun w => !(s.openable r w).isEmpty) = none → rest = [] →
      exec (.bucketSteal die) s = .next s)

/-- 16 R334 to R359, R363, R364: the dicer takes the head of the open bucket's list and drops, splits or dices it by its
estimate; it writes the vertex records and spawns a vertex thread for each vertex; a shaded grid is forwarded and rastered in its
turn over the samples of the bucket that its bound touches; spilled grids move to bucket memory; a failed attempt starts again,
with the carried grids as they were and SEQ from 1 (the model's choice, log 31). -/
def Obligations.Grids : Prop :=
  (∀ c p e, EstimateIs c p e (diceEstimate c p e).1 (diceEstimate c p e).2) ∧
  (∀ a b n i, 0 < n → n ≤ 16 → i ≤ n → (gridParams a b n).length = n + 1 ∧ ParamIs a b i n ((gridParams a b n).getD i 0)) ∧
  (∀ p us vs nu nv a b, 0 < nu → 0 < nv → us.length = nu + 1 → vs.length = nv + 1 → a ≤ nu → b ≤ nv →
    VertexIs p us vs nu nv a b fun i j => ((vertexRecords p us vs).drop (64 * (i + j * (nu + 1)))).take 64) ∧
  (∀ px py x n k, 2 ^ k ≤ n → n < 2 ^ (k + 1) → x < n →
    deckIndex px py x n = if x < 2 ^ k then x ^^^ (((px * 0x2C9B) ^^^ (py * 0x7A31)) / 2 ^ 6 % 2 ^ 6 % 2 ^ k) else x) ∧
  (∀ px py (e : List Nat), (∀ x ∈ e, x < 2 ^ 16) → SampleIs px py e (sampleOf px py e)) ∧
  (∀ (g : RasterGrid) c x y i, 64 * ((g.nu + 1) * (g.nv + 1)) ≤ g.bytes.length →
    let at_ := fun (a b : Nat) => (g.bytes.drop (64 * (a + b * (g.nu + 1)))).take 64
    let e := c.deck.getD (deckIndex x y i c.deck.length) []
    ∃ hs : List (Option (List Byte)), hs.length = g.nu * g.nv ∧ g.sampleHits c x y i = hs.filterMap id ∧
      ∀ a < g.nu, ∀ b < g.nv, ∃ h, hs[a + b * g.nu]? = some h ∧
        MicropolygonIs c.cam (sampleOf x y e) (at_ a b) (at_ (a + 1) b) (at_ a (b + 1)) (at_ (a + 1) (b + 1)) g.matword h) ∧
  (∀ (r : Render) b n x0 y0 x1 y1 x y i, b < r.total → 0 < r.width → 0 < r.height →
    ((x, y, i) ∈ r.tested b n [x0, y0, x1, y1] ↔ b = y / r.side * r.bx + x / r.side ∧ PixelTouched x0 x1 r.width x ∧
      PixelTouched y0 y1 r.height y ∧ i < n)) ∧
  (∀ vpn (l : List (List Byte)) p, (∀ q ∈ p :: l, q.length = 16 ∧ (pointZ q).finite = true) →
    (l.Pairwise fun a b => (pointZ a).val ≤ (pointZ b).val) → l.length = vpn → 0 < vpn →
    ∃ m f g q j, m ++ [f, g] = l.take j ++ p :: l.drop j ∧ (∀ a ∈ l.take j, (pointZ a).val ≤ (pointZ p).val) ∧
      (∀ a ∈ l.drop j, (pointZ p).val < (pointZ a).val) ∧ MergedIs f g q ∧ insertPoint vpn l p = m ++ [q]) ∧
  (∀ (s : State) (cl : Nat) (o : OpenBucket) (e : PatchEntry) (rest : List PatchEntry) (s1 : State) (bytes : List Byte), (s.cluster cl).bucket = some o → o.failing = false → s.running o.ctxid = true →
    (∀ g ∈ o.grids, g.count ≤ g.spawned) → o.list = e :: rest → s.engineRead (o.who s cl) e.patch 512 = (s1, .ok bytes) →
    (s1.cluster cl).bucket = some o → s1.frames = s.frames →
    let p := patchOf bytes
    (p.invalid = true → rest ≠ [] →
      ∃ s' : State, exec (.diceEntry cl) s = .next s' ∧ s'.mem = s1.mem ∧ s'.threads = s1.threads ∧ s'.frames = s.frames ∧
        (s'.cluster cl).bucket = some { o with list := rest, dropped := o.dropped + 1, stamp := max o.stamp e.stamp }) ∧
    (p.invalid = false → e.depth < 12 →
      (16 < (diceEstimate (s1.cluster cl).cam p e).1 ∨ 16 < (diceEstimate (s1.cluster cl).cam p e).2) →
      ∃ (s' : State) (a b : PatchEntry) (m : Word), exec (.diceEntry cl) s = .next s' ∧ s'.mem = s1.mem ∧ s'.threads = s1.threads ∧ s'.frames = s.frames ∧
        (s'.cluster cl).bucket = some { o with list := a :: b :: rest } ∧
        ((diceEstimate (s1.cluster cl).cam p e).2 ≤ (diceEstimate (s1.cluster cl).cam p e).1 →
          m = rMul (rAdd e.u0 e.u1) 0x3F000000 ∧ a = { e with u1 := m, depth := e.depth + 1 } ∧
          b = { e with u0 := m, depth := e.depth + 1 }) ∧
        ((diceEstimate (s1.cluster cl).cam p e).1 < (diceEstimate (s1.cluster cl).cam p e).2 →
          m = rMul (rAdd e.v0 e.v1) 0x3F000000 ∧ a = { e with v1 := m, depth := e.depth + 1 } ∧
          b = { e with v0 := m, depth := e.depth + 1 })) ∧
    (∀ (nu nv : Nat) (bs : List Nat) (f : Nat), p.invalid = false → diceEstimate (s1.cluster cl).cam p e = (nu, nv) → nu ≤ 16 → nv ≤ 16 → 0 < nu → 0 < nv →
      freeBlocks o.usedBlocks (s1.cluster cl).dice.kib (ceilDiv ((nu + 1) * (nv + 1)) 16) = some bs →
      s1.hasFrames (s1.gridCore cl o.nextSeq) 1 = true → s1.freeFrames (s1.gridCore cl o.nextSeq) 1 = [f] →
      ∃ (s' : State) (g : Grid) (fr : Frame) (o' : OpenBucket), exec (.diceEntry cl) s = .next s' ∧ s'.mem = s1.mem ∧ s'.threads = s1.threads ∧
        g.seq = o.nextSeq ∧ g.nu = nu ∧ g.nv = nv ∧ g.mem = .bucket bs ∧ g.us = gridParams e.u0 e.u1 nu ∧
        g.vs = gridParams e.v0 e.v1 nv ∧ g.frame = 2 ^ 20 * s1.gridCore cl o.nextSeq + f ∧ g.spawned = 0 ∧ g.shaded = false ∧
        (s'.cluster cl).bucket = some o' ∧ o'.list = rest ∧ o'.grids = o.grids ++ [g] ∧ o'.nextSeq = o.nextSeq + 1 ∧
        o'.usedBlocks = o.usedBlocks ++ bs ∧ o'.dropped = o.dropped ∧
        s'.frames.get g.frame = some fr ∧ fr.owner = .grid cl g.seq ∧ fr.live = 0 ∧
        ∀ i < g.count, readBytes (s'.cluster cl).vault (vertexAddr (s1.cluster cl).dice.vbase bs i) 64 =
          ((vertexRecords p g.us g.vs).drop (64 * i)).take 64)) ∧
  (∀ (s : State) cl o g s1 f, (s.cluster cl).bucket = some o → o.failing = false → s.running o.ctxid = true →
    o.grids.find? (fun g => g.spawned < g.count) = some g → g.spawned + 1 = g.count → (o.grids.map Grid.seq).Nodup →
    s.binChild (coreOf g.frame) g.shader (vertexChild (s.cluster cl) o g (s.vertexHandler o (coreOf g.frame)) g.spawned)
      = some s1 → s.frames.get g.frame = some f →
    ∃ s' o', exec (.diceEntry cl) s = .next s' ∧ s'.mem = s1.mem ∧ s'.threads = s1.threads ∧ s'.cores = s1.cores ∧
      s'.frames.get g.frame = some { f with live := f.live + 1, nextseq := g.count } ∧
      (s'.cluster cl).bucket = some o' ∧ o'.grids = o.grids.map fun x => if x.seq = g.seq then { x with spawned := g.count } else x) ∧
  (∀ (s : State) cl o g f, (s.cluster cl).bucket = some o → o.failing = false → g ∈ o.grids → g.spawned = g.count → g.shaded = false →
    (o.grids.map Grid.seq).Nodup → s.frames.get g.frame = some f → f.live = 0 → f.nfault = 0 → f.nkill = 0 →
    (∀ r, s.renders.get o.launch = some r → ∀ p, r.patches.get g.parent = some p → p.receivers = []) →
    ∃ s' o', exec (.gridComplete cl g.seq) s = .next s' ∧ s'.frames.get g.frame = none ∧ s'.threads = s.threads ∧
      (s'.cluster cl).bucket = some o' ∧ o'.dropped = o.dropped ∧
      o'.grids = o.grids.map fun x => if x.seq = g.seq then { x with shaded := true } else x) ∧
  (∀ (s : State) cl o g f, (s.cluster cl).bucket = some o → o.failing = false → g ∈ o.grids → g.spawned = g.count → g.shaded = false →
    (o.grids.map Grid.seq).Nodup → s.frames.get g.frame = some f → f.live = 0 → f.nfault ≠ 0 ∨ f.nkill ≠ 0 → o.list ≠ [] →
    ∃ s' o', exec (.gridComplete cl g.seq) s = .next s' ∧ s'.frames.get g.frame = none ∧
      (s'.cluster cl).bucket = some o' ∧ o'.dropped = o.dropped + 1 ∧ o'.grids = o.grids.filter fun x => x.seq != g.seq) ∧
  (∀ (s : State) cl o r g rest s1 bytes, (s.cluster cl).bucket = some o → s.renders.get o.launch = some r → o.failing = false →
    s.running o.ctxid = true → s.nextCarriedGrid o = none → o.grids = g :: rest → g.shaded = true → (o.grids.map Grid.seq).Nodup →
    s.readRecords cl (o.who s cl) g.mem (s.cluster cl).dice.spill = (s1, some bytes) →
    let rg : RasterGrid := ⟨g.nu, g.nv, g.matword, g.bound, bytes⟩
    let s2 := s1.rasterAll cl o r rg
    let c := s1.cluster cl
    (r.tested o.bucket c.deck.length g.bound = [] → s2 = s1) ∧
    (∀ x y i, r.tested o.bucket c.deck.length g.bound = [(x, y, i)] →
      (rg.sampleHits c x y i = [] → s2 = s1) ∧
      ∀ old s3 s4, rg.sampleHits c x y i ≠ [] → s1.engineRead (o.who s1 cl) (slotAt r c x y i 0) (16 * c.rast.vpn) = (s3, .ok old) →
        s3.engineWrite (o.who s1 cl) (slotAt r c x y i 0) (slotsAfter c.rast.vpn old (rg.sampleHits c x y i)) = (s4, .ok ()) →
        s2 = s4) ∧
    ((s2.cluster cl).bucket = some o → o.list ≠ [] →
    ∃ s' o', exec (.rasterGrid cl) s = .next s' ∧ (s'.cluster cl).bucket = some o' ∧ o'.grids = rest ∧ o'.list = o.list ∧
      (∀ bs, g.mem = .bucket bs → s'.mem = s2.mem ∧ o'.usedBlocks = o.usedBlocks.filter fun q => !bs.contains q))) ∧
  (∀ vpn (l : List (List Byte)) p, (∀ q ∈ p :: l, (pointZ q).finite = true) →
    (l.Pairwise fun a b => (pointZ a).val ≤ (pointZ b).val) → l.length < vpn →
    ∃ j, insertPoint vpn l p = l.take j ++ p :: l.drop j ∧ (∀ a ∈ l.take j, (pointZ a).val ≤ (pointZ p).val) ∧
      ∀ a ∈ l.drop j, (pointZ p).val < (pointZ a).val) ∧
  (∀ (s : State) cl o g sb bs s1 bytes, (s.cluster cl).bucket = some o → o.failing = false → s.running o.ctxid = true →
    o.grids.find? (fun g => match g.mem with | .spill _ => true | .bucket _ => false) = some g → g.mem = .spill sb → g.shaded = true →
    (o.grids.map Grid.seq).Nodup →
    freeBlocks o.usedBlocks (s.cluster cl).dice.kib (gridBlocks g.nu g.nv) = some bs →
    s.readRecords cl (o.who s cl) g.mem (s.cluster cl).dice.spill = (s1, some bytes) → (s1.cluster cl).bucket = some o →
    (∀ e ∈ s.threads, ∀ img, e.2.run ≠ .engine (.camDice img)) → s1.threads = s.threads →
    ∃ s' o', exec (.spillCopy cl) s = .next s' ∧ s'.threads = s.threads ∧ (s'.cluster cl).bucket = some o' ∧
      o'.usedBlocks = o.usedBlocks ++ bs ∧ o'.grids = o.grids.map (fun x => if x.seq = g.seq then { x with mem := .bucket bs } else x) ∧
      (s'.cluster cl).spillUsed = (s1.cluster cl).spillUsed.filter fun q => !sb.contains q) ∧
  (∀ (s : State) cl o r, (s.cluster cl).bucket = some o → s.renders.get o.launch = some r → o.failing = true → s.attemptOver o = true →
    o.killed = false → o.retried = false →
    ∃ s' o', exec (.bucketRetry cl) s = .next s' ∧ (s'.cluster cl).bucket = some o' ∧ o'.list = o.asOpened ∧
      o'.carried = o.asCarried ∧ o'.grids = [] ∧ o'.usedBlocks = [] ∧ o'.nextSeq = 1 ∧ o'.dropped = 0 ∧ o'.retried = true)

/-- 01 R31, R32, R35, R38, R56: a bin whose timer has run out closes; a closed bin is placed whole, one child in each lane; a
starved core suspends its newest waiting thread, whose record stands in the pool, and a suspended thread returns to its
lane. -/
def Obligations.BinsAndStarvation : Prop :=
  (∀ s core bin b, (s.core core).bins.get bin = some b → b.opened = true → b.timer = 0 →
    ∃ s' : State, exec (.binTimerExpire core bin) s = .next s' ∧ s' = { s with cores := s'.cores } ∧
      (s'.core core).bins.get bin = some { b with opened := false, order := s.cycle } ∧
      (∀ j, j ≠ bin → (s'.core core).bins.get j = (s.core core).bins.get j) ∧ ∀ g, g ≠ core → s'.core g = s.core g) ∧
  (∀ s core bin b p, (s.core core).bins.get bin = some b → s.binPlace core b = some p → b.children.length ≤ 32 →
    (s.core core).frameLim ≤ 2 ^ 20 → (∀ x ∈ (s.core core).inbound, x.committed = false) →
    ∃ (s' : State) (ks : List FrameRef), exec (.binPlace core bin) s = .next s' ∧ s'.mem = s.mem ∧ ks.length = b.children.length ∧ ks.Nodup ∧
      (∀ i ch k, b.children[i]? = some ch → ks[i]? = some k → coreOf k = core ∧
        ChildPlaced s s' b p ((s.lanesFor core p b.alloc).getD i 0) i ch k) ∧
      (∀ j, j ∉ ks → s'.threads.get j = s.threads.get j ∧ s'.frames.get j = s.frames.get j) ∧
      (∀ j, (s'.core core).bins.get j = if j = bin then none else (s.core core).bins.get j)) ∧
  (∀ s core k t f a, 1024 ≤ (s.core core).starve → (s.setCore core { s.core core with starve := 1023, starved := true }).starveVictim core = some (k, t) →
    s.threads.get k = some t → s.frames.get k = some f → coreOf k = core →
    (s.setCore core { s.core core with starve := 1023, starved := true }).poolAlloc t.ctxid (recordSize t.alloc) = some a →
    (∀ j ∈ s.growQueue k t, j = k) → t.alloc % 16 = 0 →
    ∃ (s' : State) (u : Thread), exec (.starve core) s = .next s' ∧ s'.threads.get k = some u ∧ OthersKept s s' k ∧ u.susp = some .starved ∧
      u.run = t.run ∧ u.pc = t.pc ∧ (∀ r, u.latest r = t.latest r) ∧ s'.frames.get k = some { f with saveptr := a } ∧
      (∀ j, j ≠ k → s'.frames.get j = s.frames.get j) ∧
      RecordAt s s' k t (t.stall - s.cycle) true a ∧
      ∀ x, (x < a ∨ a + recordSize t.alloc ≤ x) → readByte s'.mem x = readByte s.mem x) ∧
  ∀ s k t f n, s.threads.get k = some t → s.canReadmit k t = true → t.run = .grow n → s.frames.get k = some f →
    let back := fun (u : Thread) => { t with susp := none, cx := u.cx, wait := 0, stall := s.cycle + max 1 t.stall, alloc := u.alloc, run := u.run }
    let returns := fun (s' : State) (u : Thread) => exec (.readmit k) s = .next s' ∧ s'.threads.get k = some u ∧ OthersKept s s' k ∧
      s'.mem = s.mem ∧ u = back u ∧ s.freeContext (coreOf k) t.part t.lane = some u.cx ∧
      s'.frames.get k = some { f with octx := u.cx, saveptr := 0 }
    (s.growQueue k t = [k] → n ≤ s.freeRegs (coreOf k) t.part t.lane →
      ∃ s' u, returns s' u ∧ u.alloc = n ∧ u.run = .ready ∧ s'.growQueue k t = []) ∧
    (s.growQueue k t = [k] → s.freeRegs (coreOf k) t.part t.lane < n →
      ∃ s' u, returns s' u ∧ u.alloc = t.alloc ∧ u.run = .grow n ∧ s'.growQueue k t = [k])

/-- 01 R37, R57 to R59, R61, 18 R382: an idle core asks the other cores of its die in turn and then the distributors, which
serve requests in the order of their cycles and within a cycle the lower die first; a victim offers its oldest bin, or splits
its largest range and offers the upper half, and keeps a copy until the acknowledgement, upon which the children of a record for
another die enter that die in the remote-child tables; the thief takes the record when the commit comes; a refused or unanswered
record is the victim's again. The message stated of is the oldest in transit. Which bin is the oldest is the model's choice (log
55), and so is the allocation of the upper half, that of the range split (log 36). -/
def Obligations.Steals : Prop :=
  (∀ s g v rest, s.idle g = true → (s.core g).seek = .idle → s.victims g = v :: rest →
    ∃ s' : State, exec (.workRequest g) s = .next s' ∧ s' = { s with cores := s'.cores, net := s.net ++ [.workRequest v g] } ∧
      CoreBecomes s s' g { s.core g with seek := .asking v rest }) ∧
  (∀ s g since v rest, (s.core g).seek = .retry since → since + 4800 ≤ s.cycle → s.idle g = true → s.victims g = v :: rest →
    ∃ s' : State, exec (.stealRetry g) s = .next s' ∧ s' = { s with cores := s'.cores, net := s.net ++ [.workRequest v g] } ∧
      CoreBecomes s s' g { s.core g with seek := .asking v rest }) ∧
  (∀ s victim asker rest i b, s.net = .workRequest victim asker :: rest → s.oldestBin victim = some (i, b) →
    (s.core victim).bins.get i = some b →
    ∃ s' r, exec (.workRequestAnswer victim) s = .next s' ∧
      s' = { s with cores := s'.cores, nextId := s.nextId + 1, net := rest ++ [.stealRecord r] } ∧
      r = ⟨s.nextId, victim, asker, b.entry, b.ctxid, b.children, false, none⟩ ∧
      (s'.core victim).offers = (s.core victim).offers ++ [⟨r, some i, s.cycle, false⟩] ∧
      (s'.core victim).bins.get i = some { b with offered := true } ∧
      ∀ j, j ≠ i → (s'.core victim).bins.get j = (s.core victim).bins.get j) ∧
  (∀ s victim asker rest v w more, s.net = .workRequest victim asker :: rest → s.oldestBin victim = none →
    (s.core victim).splitEn = false → (s.core asker).seek = .asking v (w :: more) →
    ∃ s' : State, exec (.workRequestAnswer victim) s = .next s' ∧
      s' = { s with cores := s'.cores, net := rest ++ [.workRequest w asker] } ∧
      CoreBecomes s s' asker { s.core asker with seek := .asking w more }) ∧
  (∀ s victim asker rest i r t f p o pf, s.net = .workRequest victim asker :: rest → s.oldestBin victim = none →
    (s.core victim).splitEn = true → s.splitSlot victim = some (i, r) → (s.core victim).slots.get i = some r →
    s.threads.get r.thread = some t → t.susp = none → s.frames.get r.thread = some f → f.owner = .child p o →
    s.frames.get p = some pf → s.remoteEntry p pf.nextseq = false →
    let far := dieOf victim ≠ dieOf (coreOf p)
    let mid := r.cur + (r.hi - r.cur + 1) / 2
    2 ≤ r.hi - r.cur ∧
    (∀ j q w, (s.core victim).slots.get j = some q → s.threads.get q.thread = some w → s.running w.ctxid = true → w.dying = false →
      q.hi - q.cur ≤ r.hi - r.cur ∨ q.hi - q.cur < 2) ∧
    ∃ s' rec ch, exec (.workRequestAnswer victim) s = .next s' ∧
      s' = { s with cores := s'.cores, frames := s'.frames, dists := s'.dists, nextId := s.nextId + 1, net := rest ++ [.stealRecord rec] } ∧
      rec = ⟨s.nextId, victim, asker, r.entry, t.ctxid, [ch], true, none⟩ ∧ ch.range = some (mid, r.hi) ∧ ch.args = r.args ∧
      ch.alloc = r.alloc ∧ ch.check = t.check ∧ ch.parent = p ∧ ch.ordinal = pf.nextseq ∧ ch.stamp = r.stamp ∧ ch.launch = t.launch ∧
      ch.lgroup = t.lgroup ∧ ch.ctxid = t.ctxid ∧
      CoreBecomes s s' victim { s.core victim with slots := (s'.core victim).slots,
                                                   offers := (s.core victim).offers ++ [⟨rec, none, s.cycle, false⟩] } ∧
      (∀ j, (s'.core victim).slots.get j = if j = i then some { r with hi := mid } else (s.core victim).slots.get j) ∧
      (∀ j, s'.frames.get j = if j = p then some { pf with live := pf.live + 1, nextseq := (pf.nextseq + 1) % 2 ^ 28,
                                                           remote := if far then pf.remote + 1 else pf.remote }
        else s.frames.get j) ∧
      ∀ v, s'.dist v = if far ∧ v = dieOf (coreOf p) then
          { s.dist v with children := (s.dist v).children ++ [(p, pf.nextseq, dieOf victim)] } else s.dist v) ∧
  (∀ s die asker core since rest g more i b, s.net = .distRequest die asker core since :: rest → asker < 4 →
    (∀ a c n, Msg.distRequest die a c n ∈ rest → since < n ∨ since = n ∧ asker ≤ a) → (s.dist die).lost = false →
    s.dieCoreList die = g :: more → s.oldestBin g = some (i, b) → (s.core g).bins.get i = some b →
    ∃ s' r, exec (.distributorRequest die) s = .next s' ∧
      s' = { s with cores := s'.cores, nextId := s.nextId + 1, net := rest ++ [.stealRecord r] } ∧
      r = ⟨s.nextId, g, core, b.entry, b.ctxid, b.children, false, none⟩ ∧
      (s'.core g).bins.get i = some { b with offered := true }) ∧
  (∀ s r rest, s.net = .stealRecord r :: rest → r.thief < 144 → s.accepts r = true →
    ∃ s' : State, exec (.stealRecord r.thief) s = .next s' ∧
      s' = { s with cores := s'.cores, net := rest ++ [.ack r.victim r.id r.thief] } ∧
      CoreBecomes s s' r.thief { s.core r.thief with inbound := (s.core r.thief).inbound ++ [⟨r, false, false⟩] }) ∧
  (∀ s r rest, s.net = .stealRecord r :: rest → r.thief < 144 → s.accepts r = false →
    exec (.stealRecord r.thief) s = .next { s with net := rest ++ [.refuse r.victim r.id r.thief] }) ∧
  (∀ s o i rest, o.record.victim < 144 → s.net = .ack o.record.victim o.record.id o.record.thief :: rest →
    (s.core o.record.victim).offers.find? (fun x => x.record.id == o.record.id) = some o → o.record.bucket = none → o.bin = some i →
    s.stored o.record.ctxid = false → (∀ x ∈ (s.core o.record.victim).inbound, x.committed = false) →
    (o.record.within ∨ (s.dist (dieOf o.record.thief)).lost = false) →
    ∃ s' : State, exec (.ack o.record.victim) s = .next s' ∧
      s' = { s with cores := s'.cores, frames := s'.frames, dists := s'.dists,
                    net := rest ++ [.commit o.record.thief o.record.id o.record.victim] } ∧
      (o.record.within → s'.frames = s.frames ∧ s'.dists = s.dists) ∧
      (¬ o.record.within → ChildrenMoved s s' o.record.children (dieOf o.record.thief)) ∧
      CoreBecomes s s' o.record.victim { s.core o.record.victim with
        bins := (s.core o.record.victim).bins.del i
        offers := (s.core o.record.victim).offers.filter fun x => x.record.id != o.record.id }) ∧
  (∀ s victim id thief rest, victim < 144 → s.net = .ack victim id thief :: rest →
    (∀ x ∈ (s.core victim).offers, x.record.id ≠ id) →
    exec (.ack victim) s = .next { s with net := rest ++ [.revoke thief id victim] }) ∧
  (∀ s x id victim rest i, x.record.thief < 144 → s.net = .commit x.record.thief id victim :: rest → x.record.id = id →
    (s.core x.record.thief).inbound = [x] → (s.core x.record.thief).freeBin = some i → s.running x.record.ctxid = true →
    (s.dist (dieOf x.record.thief)).lost = false → (∀ c, ∀ y ∈ s.savedQueue c x.record.thief, y.record.id ≠ id) →
    ∃ s' : State, exec (.commit x.record.thief) s = .next s' ∧ s' = { s with cores := s'.cores, net := rest } ∧
      (s'.core x.record.thief).inbound = [] ∧ (s'.core x.record.thief).seek = .idle ∧
      (s'.core x.record.thief).bins.get i =
        some ⟨x.record.entry, x.record.ctxid, false, x.record.children, 0, s.cycle, s.cycle, false⟩ ∧
      ∀ j, j ≠ i → (s'.core x.record.thief).bins.get j = (s.core x.record.thief).bins.get j) ∧
  (∀ s o i b rest v w more, o.record.victim < 144 → o.record.thief < 144 → o.record.thief ≠ o.record.victim →
    s.net = .refuse o.record.victim o.record.id o.record.thief :: rest →
    (s.core o.record.victim).offers.find? (fun x => x.record.id == o.record.id) = some o → o.record.bucket = none → o.bin = some i →
    (s.core o.record.victim).bins.get i = some b → b.children ≠ [] → (s.core o.record.thief).seek = .asking v (w :: more) →
    s.stored o.record.ctxid = false →
    ∃ s' : State, exec (.refuse o.record.victim) s = .next s' ∧
      s' = { s with cores := s'.cores, net := rest ++ [.workRequest w o.record.thief] } ∧
      (s'.core o.record.victim).bins.get i = some { b with offered := false } ∧
      (s'.core o.record.victim).offers = (s.core o.record.victim).offers.filter (fun x => x.record.id != o.record.id) ∧
      (s'.core o.record.thief).seek = .asking w more) ∧
  (∀ s o i b, o.record.victim < 144 → (s.core o.record.victim).offers.find? (fun x => x.record.id == o.record.id) = some o →
    o.record.bucket = none → o.bin = some i → (s.core o.record.victim).bins.get i = some b → b.children ≠ [] → s.stored o.record.ctxid = false →
    o.record.thief < 144 →
    o.since + (if (s.die (s.physDie (dieOf o.record.thief))).gated then 240000 else 4800) ≤ s.cycle →
    ∃ s' : State, exec (.ackTimeout o.record.victim o.record.id) s = .next s' ∧ s' = { s with cores := s'.cores } ∧
      (s'.core o.record.victim).bins.get i = some { b with offered := false } ∧
      (s'.core o.record.victim).offers = (s.core o.record.victim).offers.filter (fun x => x.record.id != o.record.id)) ∧
  ∀ s thief id victim rest, thief < 144 → s.net = .revoke thief id victim :: rest →
    (∀ c, ∀ y ∈ s.savedQueue c thief, y.record.id ≠ id) →
    ∃ s' : State, exec (.revoke thief) s = .next s' ∧ s' = { s with cores := s'.cores, net := rest } ∧
      CoreBecomes s s' thief { s.core thief with seek := .idle, inbound := (s.core thief).inbound.filter fun x => x.record.id != id }

/-- 01 R20, R21, R39, R41 to R43, R61, 18 R381: completions reach their parent's frame or their launch; the completion of the
last child wakes a parent in AWAIT with the counts and the record, ends one that waits in EXIT, and sends the completion that
waited for it; frames are written to the frame area; distributors probe each other; a lost die's children complete as killed,
and a die that is reset is lost until it returns to service. -/
def Obligations.CompletionsAndLoss : Prop :=
  (∀ s p o c k rest f, NextCompletion s p o c (.frame k) rest → s.frames.get p = some f → k ≠ p →
    (s.dist (dieOf (coreOf p))).lost = false →
    let near := dieOf (coreOf k) = dieOf (coreOf p)
    (near ∨ s.remoteEntry p o = true → 1 < f.live →
      ∃ s' : State, exec (.completion p) s = .next s' ∧ s'.mem = s.mem ∧ s'.threads = s.threads ∧ s'.net = rest ∧
        s'.frames.get k = none ∧ (∀ j, j ≠ k → j ≠ p → s'.frames.get j = s.frames.get j) ∧
        s'.frames.get p = some { counted f o c with remote := if s.remoteEntry p o then f.remote - 1 else f.remote } ∧
        ∀ w, (p, o, w) ∉ (s'.dist (dieOf (coreOf p))).children) ∧
    (¬ near → s.remoteEntry p o = false →
      ∃ s' : State, exec (.completion p) s = .next s' ∧ s'.mem = s.mem ∧ s'.threads = s.threads ∧ s'.net = rest ∧ s'.frames.get k = none ∧
        ∀ j, j ≠ k → s'.frames.get j = s.frames.get j) ∧
    (near → s.remoteEntry p o = false → f.live = 1 →
      (∀ e, f.ended = some e → ∃ s' m, exec (.completion p) s = .next s' ∧ s'.mem = s.mem ∧ s'.threads = s.threads ∧
        s'.net = rest ++ m ∧ s'.frames.get k = none ∧ s'.frames.get p = some (counted f o c) ∧
        let e' : Completion := { e with stamp := max e.stamp (max c.stamp (f.stamp.getD 0)) }
        (∀ q n, f.owner = .child q n → m = [.completion q n e' (.frame p)]) ∧
        (f.owner = .root → m = [.rootCompletion f.launch f.lgroup e' (.frame p)]) ∧ (∀ cl n, f.owner = .grid cl n → m = [])) ∧
      (∀ t d, f.ended = none → s.threads.get p = some t → t.susp = none → t.run = .await false d →
        ∃ s' u rs f', exec (.completion p) s = .next s' ∧ s'.mem = s.mem ∧ s'.net = rest ∧ OthersKept s s' p ∧
          s'.threads.get p = some u ∧ u.run = .ready ∧ u.wait = 0 ∧ u.pc = t.pc ∧ AwaitValues (counted f o c) rs ∧
          (∀ i < 4, some (u.reg (d + i)) = rs[i]?) ∧ (∀ i, i < d ∨ d + 4 ≤ i → u.latest i = t.latest i) ∧
          s'.frames.get k = none ∧ s'.frames.get p = some f' ∧ f'.live = 0 ∧ f'.nfault = 0 ∧ f'.nkill = 0 ∧ f'.fvalid = false ∧
          f'.awaiting = false ∧ f'.floor = max f.floor (max c.stamp (f.stamp.getD 0) + 1)) ∧
      (∀ t d q n, f.ended = none → s.threads.get p = some t → t.susp = none → t.run = .await true d → f.owner = .child q n →
        ∃ s' f' e, exec (.completion p) s = .next s' ∧ s'.threads.get p = none ∧ s'.frames.get k = none ∧
          s'.frames.get p = some f' ∧ f'.live = 0 ∧ f'.ended.isSome = true ∧ Msg.completion q n e (.frame p) ∈ s'.net ∧
          e.kind = if (counted f o c).nfault = 0 ∧ (counted f o c).nkill = 0 then .ok else .fault))) ∧
  (∀ s l n c k rest x, NextRoot s l n c (.frame k) rest → s.launches.get l = some x → 1 < x.roots →
    ∃ s' x', exec (.rootCompletion l) s = .next s' ∧ s'.mem = s.mem ∧ s'.threads = s.threads ∧ s'.frames.get k = none ∧
      s'.launches.get l = some x' ∧ x'.roots = x.roots - 1 ∧ x'.stamp = max x.stamp c.stamp ∧
      x'.nfault = (if c.kind = .fault then min 0xFFFF (x.nfault + 1) else x.nfault) ∧
      x'.nkill = (if c.kind = .killed then min 0xFFFF (x.nkill + 1) else x.nkill) ∧
      (c.kind = .fault → x.nfault = 0 → x'.frec = c.report ∧ x'.fgroup = n) ∧
      (c.kind ≠ .fault ∨ x.nfault ≠ 0 → x'.frec = x.frec ∧ x'.fgroup = x.fgroup)) ∧
  (∀ s l n c k rest x, NextRoot s l n c (.frame k) rest → s.launches.get l = some x → x.roots = 1 → x.groups = [] →
    x.stage = .dealt → x.origin = .queue → x.render = false → x.packet % 256 = 0 →
    (∀ i < 256, (({ s with net := rest } : State).freeFrame k).frameAt (x.packet + i) = none) →
    ∃ s' x', exec (.rootCompletion l) s = .next s' ∧ s'.launches.get l = none ∧ x' = x.rooted n c ∧
      readNat s'.mem (x.packet + 224) 4 = 2 ∧ readNat s'.mem (x.packet + 228) 4 = (x'.nfault + 2 ^ 16 * x'.nkill) % 2 ^ 32 ∧
      readNat s'.mem (x.packet + 232) 8 = x'.frecWord % 2 ^ 64 ∧ readNat s'.mem (x.packet + 240) 8 = x'.frec.addr % 2 ^ 64 ∧
      readNat s'.mem (x.packet + 248) 8 = x'.stamp % 2 ^ 64 ∧
      (x.irq = true → .msix x.vector ∈ s'.outputs)) ∧
  (∀ s k f, s.frames.get k = some f →
    ∃ s' : State, exec (.frameEvict k) s = .next s' ∧
      s' = { s with mem := s'.mem, poison := s'.poison, cores := s'.cores, free := s.free + 1 } ∧
      (∀ g, s'.core g = if g = coreOf k then { s.core g with evicted := (s.core g).evicted.put (indexOf k) f } else s.core g) ∧
      ∀ i < 8, readNat s'.mem (s.frameAddr k + 8 * i) 8 = f.words.getD i 0 % 2 ^ 64) ∧
  (∀ s v, ∃ s' : State, exec (.livenessProbe v) s = .next s' ∧ s' = { s with dists := s'.dists } ∧
    ∀ w, s'.dist w = if w ∈ s.otherDies v then { s.dist w with answered := s.cycle } else s.dist w) ∧
  (∀ s v, v < s.fuses.dies → (s.dist v).lost = false →
    ∃ s' : State, exec (.dieLost v) s = .next s' ∧
      s' = { s with dists := s'.dists, net := s.net ++ (List.range s.fuses.dies).map fun w => .lossBroadcast w v } ∧
      DistBecomes s s' v { s.dist v with lost := true }) ∧
  (∀ s die lost rest p o f, s.net = .lossBroadcast die lost :: rest → (s.dist die).children = [(p, o, lost)] →
    dieOf (coreOf p) = die → s.frames.get p = some f → 1 < f.live → s.renders = [] →
    ∃ s' : State, exec (.lossBroadcast die lost) s = .next s' ∧ s'.mem = s.mem ∧ s'.threads = s.threads ∧ s'.net = rest ∧
      (s'.dist die).children = [] ∧
      s'.frames.get p = some { f with live := f.live - 1, remote := f.remote - 1, nkill := min 0xFFFF (f.nkill + 1),
                                      stamp := some (f.stamp.getD 0) }) ∧
  (∀ s v, v < s.fuses.dies → s.groups = [] →
    ∃ s' : State, exec (.dieReset v) s = .next s' ∧ (s'.dist v).lost = true ∧ s'.mem = s.mem ∧
      (∀ k, dieOf (coreOf k) = v → s'.threads.get k = none ∧ s'.frames.get k = none) ∧
      (∀ g, dieOf g = v → s'.core g = Core.reset) ∧ (∀ cl, cl / 9 = v → s'.cluster cl = Cluster.reset) ∧
      ∀ g, dieOf g ≠ v → s'.core g = { s.core g with poolWait := (s'.core g).poolWait }) ∧
  ∀ s v, (s.dist v).lost = true → (∀ e ∈ s.threads, dieOf (coreOf e.1) = v → e.2.susp.isSome = true) →
    (∀ e ∈ s.cores, dieOf e.1 = v → e.2.bins = [] ∧ e.2.inbound = []) →
    ∃ s' : State, exec (.returnToService v) s = .next s' ∧ s' = { s with dists := s'.dists } ∧ DistBecomes s s' v { s.dist v with lost := false }

/-- 12 R296, R297, R304 to R306, 14 R316, R325 to R329, 20 R395: what the memory system and the residency manager do of
themselves: a core's generation goes on once for the incoming edges of a cycle, sweeps start and end, lines and replicas leave,
replicas are made, the sweep of access bits ages pages, frames are released as zeros, pages go to the backing store and come
back, leases are granted, refused (a lease beyond the cap before one with an unmapped page) or left waiting for another to end,
and a regenerated page stays. That the increment falls at the end of the cycle is the model's choice (log 13); which frame and
which slot is taken, and how unmapped pages count, is log 37. -/
def Obligations.Residency : Prop :=
  (∀ (s : State) g,
    let counted := fun (x : Meet) => x.mode = .bytes ∧ x.expected = true ∧ x.count = 0 ∧ x.err = none
    (s.tick.core g).edge = false ∧
    ((s.core g).edge = true → (s.tick.core g).gen = ((s.core g).gen + 1) % 16) ∧
    ((s.core g).edge = false → (∀ e ∈ s.cores, e.1 = g → ∀ x ∈ e.2.meets, ¬ counted x.2) → (s.tick.core g).gen = (s.core g).gen) ∧
    (∀ m x k t p, (s.core g).meets.get m = some x → counted x → s.threads.get k = some t → coreOf k = g → t.susp = none →
      t.run = .meet m p → (s.tick.core g).gen = ((s.core g).gen + 1) % 16) ∧
    ((s.core g).edge = true → (s.core g).sinceSweep = 14 →
      (s.tick.core g).sweeping = true ∧ (s.tick.core g).sinceSweep = 0 ∧
      ∀ line l, (s.tick.core g).l1.get line = some l → l.gen ≠ (s.tick.core g).gen → l.marked = true)) ∧
  (∀ s core, ∃ s' : State, exec (.sweepComplete core) s = .next s' ∧ s' = { s with cores := s'.cores } ∧
    CoreBecomes s s' core { s.core core with sweeping := false }) ∧
  (∀ s core line l, (s.core core).l1.get line = some l → (∀ i < 128, s.frameAt (128 * line + i) = none) →
    ∃ s' : State, exec (.l1Evict core line) s = .next s' ∧ s'.threads = s.threads ∧ s'.frames = s.frames ∧
      (∀ x, readByte s'.mem x =
        if 128 * line ≤ x ∧ x < 128 * line + 128 ∧ l.dirty.getLsbD (x - 128 * line) = true then l.data.getD (x - 128 * line) 0
        else readByte s.mem x) ∧
      (∀ j, (s'.core core).l1.get j = if j = line then none else (s.core core).l1.get j) ∧
      ∀ g, g ≠ core → s'.core g = s.core g) ∧
  (∀ s die page, s.replicaDue die page = true →
    ∃ s' : State, exec (.replicaMake die page) s = .next s' ∧ s' = { s with dies := s'.dies } ∧
      (s'.die die).replicas = (s.die die).replicas ++ [page] ∧ (s'.die die).replMade = min 0xFFFF ((s.die die).replMade + 1) ∧
      page ∉ (s'.die die).replWanted ∧ (s'.die die).remoteReads.get page = none ∧ ∀ p, p ≠ die → s'.die p = s.die p) ∧
  (∀ s die page, page ∈ (s.die die).replicas →
    ∃ s' : State, exec (.replicaDrop die page) s = .next s' ∧ s' = { s with dies := s'.dies } ∧
      (∀ p, p ∈ (s'.die die).replicas ↔ p ∈ (s.die die).replicas ∧ p ≠ page) ∧
      (s'.die die).replDropped = min 0xFFFF ((s.die die).replDropped + 1) ∧ ∀ p, p ≠ die → s'.die p = s.die p) ∧
  (∀ s, ∃ s' : State, exec .agingSweep s = .next s' ∧
    s' = { s with agings := s.agings + 1, agedAt := s.cycle, access := [], ages := s'.ages } ∧
    ∀ f, s'.ages.get f = if f ∈ s.access then some (s.agings + 1) else s.ages.get f) ∧
  (∀ s pa, s.stores = [] →
    let base := pa / 4096 * 4096
    ∃ s' : State, exec (.frameRelease pa) s = .next s' ∧ s'.threads = s.threads ∧ s'.frames = s.frames ∧
      (∀ x, readByte s'.mem x = if base ≤ x ∧ x < base + 4096 then 0 else readByte s.mem x) ∧
      (∀ x, base ≤ x → x < base + 4096 → s'.appends.get x = none) ∧ s'.pages.get base = none ∧
      (∀ d, ∀ p ∈ (s'.die d).replicas, 4096 * p + 4096 ≤ base ∨ base + 4096 ≤ 4096 * p) ∧
      ∀ g line, base < 128 * line + 128 → 128 * line < base + 4096 → (s'.core g).l1.get line = none) ∧
  (∀ s ctx va e a slot, s.ctxLeaf ctx va = some (e, 1, a) → e % 2 = 1 → s.releasable ctx va 1 e = true → s.stores = [] →
    (∀ g, (s.core g).l1 = []) → a + 8 ≤ leafPa e ∨ leafPa e + 4096 ≤ a → s.regenOf ctx va e = none → s.freeSlot 1 = some slot →
    (∀ x ∈ s.poison, x < leafPa e ∨ leafPa e + 4096 ≤ x) →
    ∃ s' : State, exec (.victimRelease ctx va) s = .next s' ∧ s'.threads = s.threads ∧
      readNat s'.mem a 8 = leafWith e (slot + 1) false false % 2 ^ 64 ∧
      s'.backUsed.get slot = some (s.pkg.backbase + 4096 * slot) ∧
      readBytes s'.backing (s.pkg.backbase + 4096 * slot) 4096 = readBytes s.mem (leafPa e) 4096 ∧
      ∀ x, (x < a ∨ a + 8 ≤ x) → readByte s'.mem x = if leafPa e ≤ x ∧ x < leafPa e + 4096 then 0 else readByte s.mem x) ∧
  (∀ s ctx va e a k pa bus, s.ctxLeaf ctx va = some (e, 1, a) → residence e = some (.backed k) → s.freePage 4096 = some pa →
    s.backUsed.get k = some bus → a + 8 ≤ pa ∨ pa + 4096 ≤ a →
    ∃ s' : State, exec (.backingRead ctx va) s = .next s' ∧ s'.threads = s.threads ∧ s'.backUsed.get k = none ∧
      readNat s'.mem a 8 = leafWith e (pa / 4096) true false % 2 ^ 64 ∧
      readBytes s'.mem pa 4096 = readBytes s.backing bus 4096 ∧
      ∀ x, (x < a ∨ a + 8 ≤ x) → (x < pa ∨ pa + 4096 ≤ x) → readByte s'.mem x = readByte s.mem x) ∧
  (∀ e field valid regen k, e < 2 ^ 64 → field < 2 ^ 40 → k < 64 →
    testBit (leafWith e field valid regen) k =
      if k = 0 then valid else if k = 10 then regen else if 12 ≤ k ∧ k < 52 then testBit field (k - 12) else testBit e k) ∧
  (∀ s id l ps, s.leaseNeed = some (.deal id) → s.launches.get id = some l → l.origin = .queue → l.render = false →
    s.leasePages l = ps → (s.queue l.queue).awaits l.order = true → (ps.map fun p => leafPa p.entry).Nodup → (∀ i < 4, s.frameAt (l.packet + 224 + i) = none) →
    ∃ s' l', exec .leaseGrant s = .next s' ∧ s'.launches.get id = some l' ∧ l' = { l with stage := .dealt, pins := l'.pins } ∧
      l'.pins = ps.map (fun p => leafPa p.entry) ∧
      (∀ p ∈ ps, ∃ u, s'.pages.get (leafPa p.entry) = some u ∧ u.pins = (s.pages.get (leafPa p.entry)).elim 0 PageUse.pins + 1) ∧
      (∀ x, x ∉ l'.pins → s'.pages.get x = s.pages.get x) ∧ readNat s'.mem (l.packet + 224) 4 = 1 ∧
      (s'.queue l.queue).dealtPrev = true) ∧
  (∀ s id code l, s.leaseNeed = some (.refuse id code) → s.launches.get id = some l → l.origin = .queue → code < 2 ^ 16 →
    (s.queue l.queue).awaits l.order = true → (∀ i < 4, s.frameAt (l.packet + 224 + i) = none) →
    ∃ s' : State, exec .leaseGrant s = .next s' ∧ s'.launches.get id = none ∧ s'.threads = s.threads ∧ s'.pages = s.pages ∧
      readNat s'.mem (l.packet + 224) 4 = 3 + 2 ^ 16 * code ∧
      (s'.queue l.queue).dealtPrev = true ∧ (s'.queue l.queue).donePrev = true) ∧
  (∀ (s : State) id l n, s.leaseHead = some (id, l) → FramesOf (s.leasePages l) n →
    (l.waits = true → s.leaseNeed = none) ∧
    (l.waits = false → s.pkg.leasecap < n → s.leaseNeed = some (.refuse id 0x0307)) ∧
    (l.waits = false → n ≤ s.pkg.leasecap → (∃ p ∈ s.leasePages l, p.res = none) → s.leaseNeed = some (.refuse id 0x0308))) ∧
  (∀ s id l, s.leaseHead = some (id, l) → s.launches.get id = some l → s.leaseNeed = some .wait →
    ∃ s' : State, exec .leaseGrant s = .next s' ∧ s' = { s with launches := s'.launches } ∧
      s'.launches.get id = some { l with waits := true } ∧ ∀ j, j ≠ id → s'.launches.get j = s.launches.get j) ∧
  ∀ s id l outer va e level a,
    (s.launches.find? fun (_, l) => l.origin != .queue && l.stage == .dealt && l.groups.isEmpty && l.roots == 0) = some (id, l) →
    l.origin = .regen outer va → l.render = false → l.nfault = 0 → l.nkill = 0 → s.ctxLeaf l.ctxid va = some (e, level, a) →
    leafPa e ∉ l.pins →
    ∃ s' : State, exec .regenerationEnd s = .next s' ∧ s' = { s with launches := s'.launches, pages := s'.pages } ∧
      s'.launches.get id = none ∧
      (∀ u, s.pages.get (leafPa e) = some u → s'.pages.get (leafPa e) = some { u with pins := u.pins - 1 }) ∧
      ∀ p u, p ∈ l.pins → l.pins.Nodup → s.pages.get p = some u → s'.pages.get p = some { u with pins := u.pins - 1 }

/-- 18 R370 to R379, 14 R325: doorbells, in the order of queues within a cycle, and the enabling of queues; the checks of a
packet, with leases, cluster groups, pair groups and rendering, and the launch groups that it is dealt into; a packet is taken
and refused with its code, dealt, or made to wait for its lease; a launch group is placed whole, with all the groups of its
cluster group or pair group, one thread for each of its members, in the partitions, lanes and registers that R379 gives.
BAD_PACKET for a HANDLER that is no entry, and leaving lost dies out of the deal, are the model's choices (log 34). -/
def Obligations.Launches : Prop :=
  (∀ s q tail, (s.queue q).enable = true → (s.queue q).tail ≤ tail → tail ≤ (s.queue q).head + 2 ^ (s.queue q).size →
    let first := fun (x : Bell) => decide (x.cycle < s.cycle ∨ x.cycle = s.cycle ∧ x.queue ≤ q)
    ∃ s' : State, exec (.doorbell q tail) s = .next s' ∧
      s' = { s with queues := s'.queues,
                    doorbells := s.doorbells.filter first ++ List.replicate (tail - (s.queue q).tail) ⟨s.cycle, q⟩
                      ++ s.doorbells.filter fun x => !first x } ∧
      s'.queue q = { s.queue q with tail := tail } ∧ ∀ j, j ≠ q → s'.queue j = s.queue j) ∧
  (∀ s q tail, (s.queue q).enable = true → tail < (s.queue q).tail ∨ (s.queue q).head + 2 ^ (s.queue q).size < tail →
    ∃ s' : State, exec (.doorbell q tail) s = .next s' ∧ s' = { s with dies := s'.dies } ∧
      (s'.die 0).ras.getD 15 0 = min 0xFFFFFFFF ((s.die 0).ras.getD 15 0 + 1)) ∧
  (∀ s q tail, (s.queue q).enable = false → exec (.doorbell q tail) s = .next s) ∧
  (∀ s q v, (s.queue q).enable = false → s.mirrored = [] →
    ∃ s' : State, exec (.queueEnable q v) s = .next s' ∧
      s' = { s with queues := s'.queues, doorbells := s.doorbells.filter (·.queue != q) } ∧
      s'.queue q = { base := (s.queue q).base, size := min 16 (v % 32), enable := true, ctxid := v / 2 ^ 8 % 64, tail := 0, head := 0,
                     seq := 0, dealtPrev := true, donePrev := true, last := none } ∧ ∀ j, j ≠ q → s'.queue j = s.queue j) ∧
  (∀ s q v, (s.queue q).enable = true →
    ∃ s' : State, exec (.queueDisable q v) s = .next s' ∧
      s' = { s with queues := s'.queues, doorbells := s.doorbells.filter (·.queue != q) } ∧
      s'.queue q = { s.queue q with enable := false } ∧ ∀ j, j ≠ q → s'.queue j = s.queue j) ∧
  (∀ s ctxid first p, Checked s ctxid first p (s.checkPacket ctxid first p)) ∧
  (∀ s bell p, s.doorbells.find? (fun b => s.takeable b.queue) = some bell → s.peers = [] → s.mirrored = [] →
    let q := bell.queue
    let x := s.queue q
    let at_ := x.base + 256 * (x.head % 2 ^ x.size)
    let id := 2 ^ 24 * q + x.seq
    let b := State.counted { s with doorbells := s.doorbells.erase bell, nextId := s.nextId + 1 } q s.nextId
    let y := fun (dealt done : Bool) =>
      { x with head := x.head + 1, seq := (x.seq + 1) % 2 ^ 24, last := some s.nextId, dealtPrev := dealt, donePrev := done }
    let takes := fun (s' : State) (dealt done : Bool) => exec .packetTake s = .next s' ∧ s'.threads = s.threads ∧
      s'.queue q = y dealt done ∧ s'.doorbells = s.doorbells.erase bell
    (∀ i < 4, s.frameAt (at_ + 224 + i) = none) →
    (s.slotBytes at_ = none → s.capacity < at_ + 256 →
      ∃ s' : State, takes s' true true ∧ s'.mem = s.mem ∧ (s'.ctx x.ctxid).err = 0x0301 ∧
        (s'.die 0).ras.getD 15 0 = min 0xFFFFFFFF ((s.die 0).ras.getD 15 0 + 1)) ∧
    (s.slotBytes at_ = none → at_ + 256 ≤ s.capacity →
      ∃ s' : State, takes s' true true ∧ (s'.ctx x.ctxid).err = 0x0301 ∧ readNat s'.mem (at_ + 224) 4 = 3 + 2 ^ 16 * 0x0301) ∧
    (∀ c, s.slotBytes at_ = some p → b.checkPacket x.ctxid (s.nextId + 1) p = .error c → c < 2 ^ 16 →
      ∃ s' : State, takes s' true true ∧ s'.launches = s.launches ∧ readNat s'.mem (at_ + 224) 4 = 3 + 2 ^ 16 * c) ∧
    (∀ entry image isize deal, s.slotBytes at_ = some p →
      b.checkPacket x.ctxid (s.nextId + 1) p = .ok (entry, image, isize, deal) →
      let now := leaseRanges p = [] ∧ s.running x.ctxid = true
      ∃ s' l, takes s' (decide now) false ∧ s'.launches.get id = some l ∧ LaunchOf p l ∧ l.origin = .queue ∧ l.queue = q ∧
        l.packet = at_ ∧ l.ctxid = x.ctxid ∧ l.entry = entry ∧ l.groups = deal ∧ l.roots = 0 ∧ l.nfault = 0 ∧ l.nkill = 0 ∧
        l.leases = leasesOf p image isize ∧ l.bellAt = bell.cycle ∧ l.order = s.nextId ∧
        (now → l.stage = .dealt ∧ readNat s'.mem (at_ + 224) 4 = 1) ∧ (¬ now → l.stage = .leasing ∧ s'.mem = s.mem) ∧
        (packetBits p 0 4 1 0 = 1 → s'.renders.get id =
          some ⟨packetBits p 56 4 15 0, packetBits p 56 4 31 16, packetBits p 52 4 16 15, [], [], 0, [], 0⟩) ∧
        (packetBits p 0 4 1 0 ≠ 1 → s'.renders = s.renders))) ∧
  ∀ s core id x l xs, s.nextGroup core = some (id, x) → s.launches.get id = some l → (l.groups.filter fun y => y.unit == x.unit) = xs →
    (xs.map GroupDeal.gcore).Nodup → (∀ y ∈ xs, (s.core y.gcore).frameLim ≤ 2 ^ 20) →
    let ready := fun (y : GroupDeal) => s.groupFits id l y.gcore = true ∧ ∃ z, s.nextGroup y.gcore = some (id, z) ∧ z.index = y.index
    ((∃ y ∈ xs, ¬ ready y) → exec (.launchGroupPlace core) s = .next s) ∧
    ((∀ y ∈ xs, ready y) → (∀ y ∈ xs, y.group = x.group) →
      ∃ (s' : State) (ks : GroupDeal → List FrameRef), exec (.launchGroupPlace core) s = .next s' ∧ s'.mem = s.mem ∧
        s'.launches.get id = some { l with roots := l.roots + l.gsize * xs.length,
                                           groups := l.groups.filter fun z => xs.all fun y => z.index != y.index } ∧
        (∀ y ∈ xs, GroupPlaced s s' id l y (ks y)) ∧
        (∀ j, (∀ y ∈ xs, j ∉ ks y) → s'.threads.get j = s.threads.get j ∧ s'.frames.get j = s.frames.get j) ∧
        (x.group = none → s'.groups = s.groups) ∧
        ∀ n, x.group = some n → ∃ b, s'.groups.get n = some b ∧ b.launch = id ∧ b.cores = xs.map GroupDeal.gcore ∧ b.clusters.Nodup ∧
          (∀ c, c ∈ b.clusters ↔ ∃ y ∈ xs, clusterOf y.gcore = c) ∧
          b.live = b.clusters.map (fun c => l.gsize * (xs.filter fun y => clusterOf y.gcore == c).length) ∧
          b.arrivals = b.clusters.map (fun _ => 0) ∧ b.done = [] ∧ b.stamp = 0)

/-- 01 R62, R64, 18 R384 to R389: the pre-emption of a context, its save with the contents of every thread's record and frame,
and its return; kills; and the stops of the debugger, their reports and the resumption. When a stop or a kill takes effect on a
thread that waits or that an interlock holds is the model's choice (Thread.boundary, log 44); so are the lay-out of what R384
and R385 leave open (log 18), the end of a thread whose record has a reserved bit or tag set (log 64), and what a record that
reads as uncorrectable does (log 61). -/
def Obligations.Contexts : Prop :=
  (∀ s c, s.running c = true → ∃ s' : State, exec (.preempt c) s = .next s' ∧ s' = { s with ctxs := s'.ctxs, threads := s'.threads } ∧
    s'.ctx c = { s.ctx c with state := .saving } ∧ (∀ j, j ≠ c → s'.ctx j = s.ctx j) ∧
    ∀ k, s'.threads.get k = (s.threads.get k).map fun t => if t.ctxid = c ∧ t.susp = none then t.askStop else t) ∧
  (∀ s c, (s.ctx c).state = .saved → ∃ s' : State, exec (.resume c) s = .next s' ∧ s' = { s with ctxs := s'.ctxs } ∧
    s'.ctx c = { s.ctx c with state := .restoring } ∧ ∀ j, j ≠ c → s'.ctx j = s.ctx j) ∧
  (∀ s c, s.readyToSave c = true →
    let b := { s with threads := s.threads.mapVals fun _ t => if t.ctxid == c && t.resident then t.settle else t }
    let csa := (s.ctx c).csa
    (4096 * (s.ctx c).csalim < (b.saveLayout c).size → (s.ctx c).kills = [] →
      ∃ s' : State, exec (.contextSave c) s = .next s' ∧ s' = { s with ctxs := s'.ctxs, threads := s'.threads, cores := s'.cores } ∧
      s'.ctx c = { s.ctx c with state := .running, err := 0x030A } ∧
      ((∀ e ∈ s.cores, ∀ x ∈ e.2.inbound, x.committed = false) → s'.cores = s.cores) ∧
      (∀ g x i, (s.core g).inbound = [x] → x.committed = true → x.record.ctxid = c → (s.core g).freeBin = some i →
        (s'.core g).inbound = [] ∧
        (s'.core g).bins.get i = some ⟨x.record.entry, c, false, x.record.children, 0, s.cycle, s.cycle, false⟩) ∧
      ∀ k, s'.threads.get k = (s.threads.get k).map fun t =>
        if t.ctxid = c ∧ t.susp = none ∧ t.dying = false ∧ t.stopping = none then { t with stopAt := none } else t) ∧
    ((b.saveLayout c).size ≤ 4096 * (s.ctx c).csalim → s.threads.keys.Nodup → (∀ e ∈ s.threads, e.2.alloc % 16 = 0) →
      (∀ j f, s.frames.get j = some f → f.ctxid = c → s.frameAddr j + 64 ≤ csa ∨ csa + (b.saveLayout c).size ≤ s.frameAddr j) →
      ∃ s' : State, exec (.contextSave c) s = .next s' ∧ (s'.ctx c).state = .saved ∧
      readNat s'.mem (s.ctx c).csa 4 = 0x01415343 ∧ readNat s'.mem ((s.ctx c).csa + 6) 2 = c % 2 ^ 16 ∧
      readNat s'.mem ((s.ctx c).csa + 24) 8 = (s.ctxThreads c).length % 2 ^ 64 ∧
      ∀ k t f, s.threads.get k = some t → t.ctxid = c → t.susp = none → s.frames.get k = some f →
        ∃ u f', s'.threads.get k = some u ∧ u.susp = some .saved ∧ u.pc = t.pc ∧ (∀ r, u.latest r = t.latest r) ∧
          s'.frames.get k = some f' ∧ csa ≤ f'.saveptr ∧ f'.saveptr + recordSize t.alloc ≤ csa + (b.saveLayout c).size ∧
          f'.saveptr % 64 = csa % 64 ∧ RecordAt s s' k t (t.stall - s.cycle) false f'.saveptr ∧
          ((∀ j g, j ≠ k → s.frames.get j = some g → g.ctxid = c →
              s.frameAddr j + 64 ≤ s.frameAddr k ∨ s.frameAddr k + 64 ≤ s.frameAddr j) → f.ctxid = c →
            ∀ i < 8, readNat s'.mem (s.frameAddr k + 8 * i) 8 = f'.words.getD i 0 % 2 ^ 64))) ∧
  (∀ s c k t f, s.canRestore c = true → ((s.savedThreads c).map Prod.fst).Nodup → (s.ctx c).kills = [] → s.threads.get k = some t →
    t.ctxid = c → t.susp = some .saved → t.run = .ready → t.alloc ≤ 512 → s.frames.get k = some f →
    (∀ e ∈ s.savedThreads c, ∀ g, s.frames.get e.1 = some g →
      s.bad g.saveptr (recordSize e.2.alloc) = false ∧ s.recordReserved g.saveptr e.2.alloc = false) →
    ∃ s' u, exec (.restore c) s = .next s' ∧ (s'.ctx c).state = .running ∧ s'.threads.get k = some u ∧ u.susp = none ∧ u.run = .ready ∧
      u.pc = readNat s.mem f.saveptr 8 % 2 ^ 57 ∧
      ∀ i < t.alloc, (u.reg i).1 = BitVec.ofNat 32 (readNat s.mem (f.saveptr + 192 + 4 * i) 4)) ∧
  (∀ s c id l k t, s.running c = true → s.launchesOf c = [(id, l)] → s.launches.get id = some l → l.roots ≠ 0 → s.issue = none →
    (s.threads.filter fun (_, t) => t.launch == id) = [(k, t)] → s.threads.get k = some t → (s.frames.get k).isSome = true →
    ∀ i, i = .kill c ∨ i = .ctxKill c id → ∃ s' l', exec i s = .next s' ∧ s'.launches.get id = some l' ∧ l'.groups = [] ∧
      l'.nkill = min 0xFFFF (l.nkill + l.gsize * l.groups.length) ∧
      (t.boundary = true ∨ t.resident = false ∨ t.run ≠ .ready → Ended s' k .killed) ∧
      (t.boundary = false → t.resident = true → t.run = .ready → s'.threads.get k = some { t.askStop with dying := true })) ∧
  (∀ s c id, s.running c = true → s.launchesOf c = [] → ∀ i, i = .kill c ∨ i = .ctxKill c id →
    ∃ s' : State, exec i s = .next s' ∧ s' = { s with ctxs := s'.ctxs } ∧ s'.ctx c = { s.ctx c with err := 0x030B }) ∧
  (∀ s c launch l, s.launches.get launch = some l → l.ctxid = c → l.debug = true →
    ∃ s' : State, exec (.stop c launch) s = .next s' ∧ s' = { s with threads := s'.threads, ctxs := s'.ctxs, nextId := s.nextId + 1 } ∧
      s'.ctx c = { s.ctx c with stops := (s.ctx c).stops ++ [⟨s.nextId, 2, launch, none, false⟩] } ∧
      ∀ k, s'.threads.get k = (s.threads.get k).map fun t =>
        if t.launch = launch ∧ t.susp = none ∧ t.stopping = none then { t.askStop with stopping := some s.nextId } else t) ∧
  (∀ s c x, (s.ctx c).stops = [x] → s.stopping x.id = [] → (s.ctx c).stopped = false →
    ∃ s' : State, exec (.stopReport c) s = .next s' ∧ s'.threads = s.threads ∧ (s'.ctx c).stopped = true ∧
      (s'.ctx c).stops = [{ x with reported := true }] ∧ readNat s'.mem (s.ctx c).dbgrep 4 = x.cause % 2 ^ 32 ∧
      readNat s'.mem ((s.ctx c).dbgrep + 4) 4 = x.launch % 2 ^ 32 ∧
      readNat s'.mem ((s.ctx c).dbgrep + 8) 4 = (s.stoppedBy x.id).length % 2 ^ 32 ∧
      s'.outputs = s.outputs ++ if (s.ctx c).irq then [.msix (s.ctx c).vector] else []) ∧
  (∀ s c x k t f a, (s.ctx c).stops = [x] → s.stopping x.id = [(k, t)] → s.threads.get k = some t → s.frames.get k = some f →
    t.boundary = true → t.quiet = true → s.running c = true → s.poolAlloc c (recordSize t.alloc) = some a → (s.growQueue k t).all (· == k) = true →
    ∃ s' u, exec (.stopReport c) s = .next s' ∧ s'.threads.get k = some u ∧ u.susp = some (.debug x.id) ∧ u.stopping = none ∧
      u.pc = t.pc ∧ s'.frames.get k = some { f with saveptr := a }) ∧
  (∀ s c k t f, s.canRestore c = true → s.savedThreads c = [(k, t)] → (s.ctx c).kills = [] → s.issue = none → s.threads.get k = some t →
    s.frames.get k = some f → s.bad f.saveptr (recordSize t.alloc) = false → s.recordReserved f.saveptr t.alloc = true →
    ∃ s' : State, exec (.restore c) s = .next s' ∧ Ended s' k .fault) ∧
  (∀ s c x k t f, (s.ctx c).stops = [x] → x.reported = true → s.stoppedBy x.id = [(k, t)] → s.threads.get k = some t →
    s.frames.get k = some f → s.canResume [(k, t)] = true → s.running c = true → s.recordAltered k t f.saveptr = false →
    s.recordTags f.saveptr t.alloc = false →
    t.run = .ready → t.alloc ≤ 512 → s.bad f.saveptr (recordSize t.alloc) = false →
    ∃ s' u, exec (.dbgResume c) s = .next s' ∧ (s'.ctx c).stopped = false ∧ (s'.ctx c).stops = [] ∧ s'.threads.get k = some u ∧
      u.susp = none ∧ u.run = .ready ∧ u.pc = readNat s.mem f.saveptr 8 % 2 ^ 57 ∧
      ∀ i < t.alloc, (u.reg i).1 = BitVec.ofNat 32 (readNat s.mem (f.saveptr + 192 + 4 * i) 4))

/-- 00 R10, R11, 18 R370, 20 R391 to R393, R396: the register window, with accesses that it does not support, offsets that name
no register, read-only and reserved bits, and 64-bit registers written in two halves; aperture accesses, made at home; and a
package reset, which ends in the stage that the images and the training results give. The numbering of the windows, and a high
half that follows no low half, are the model's choices (log 43); so are the die that counts an error (log 49), the silence of a
stage 8 (log 48), and what software's freed slots of the backing store are taken for (log 37). -/
def Obligations.HostWindow : Prop :=
  (∀ (s : State) off size v, (size ≠ 4 ∧ size ≠ 8) ∨ off % size ≠ 0 → off < 0x4000000 ∨ off < 0x4040000 ∧ off % 0x1000 < 4 →
    exec (.registerWrite off size v) s = .next { s with outputs := s.outputs ++ [Output.unsupported] } ∧ s.readWindow off size = none) ∧
  (∀ (s : State) off v, off % 4 = 0 → 0x114 ≤ off ∧ off < 0x400 ∨ 0x500 ≤ off ∧ off < 0x10000 ∨ 0x140000 ≤ off ∧ off < 0x4000000 →
    exec (.registerWrite off 4 v) s = .next s ∧ (s.pkg.stage = 7 → s.readWindow off 4 = some 0)) ∧
  (∀ (s : State) off size v, 0x4000000 ≤ off → 4 ≤ off % 0x1000 ∨ 0x4040000 ≤ off →
    exec (.registerWrite off size v) s = .next s ∧ (s.pkg.stage = 7 → s.readWindow off size = some 0)) ∧
  (∀ s : State, s.pkg.stage = 8 → (∀ off size, off ≠ 0x38 → s.readWindow off size = none) ∧
    s.readWindow 0x38 4 = some (8 + 2 ^ 4 * s.pkg.slot + 2 ^ 5 * s.pkg.bootDie + 2 ^ 16 * s.pkg.bootErr)) ∧
  (∀ (s : State) v, exec (.registerWrite 0x10 8 v) s = .next { s with pkg := { s.pkg with regenbase := v % 2 ^ 52 } } ∧
    exec (.registerWrite 0x18 4 v) s = .next { s with pkg := { s.pkg with regenlim := v % 2 ^ 17 } } ∧
    exec (.registerWrite 0x20 8 v) s = .next { s with pkg := { s.pkg with apbase := v / 2 ^ 36 % 2 ^ 16 } } ∧
    exec (.registerWrite 0x3C 4 v) s = .next { s with pkg := { s.pkg with rasvec := v % 2 ^ 11, rasen := v / 2 ^ 11 % 2 == 1 } } ∧
    exec (.registerWrite 0x104 4 v) s = .next { s with pkg := { s.pkg with period := v % 2 ^ 32 } } ∧
    exec (.registerWrite 0x08 8 v) s = .next s ∧ exec (.registerWrite 0x38 4 v) s = .next s ∧
    exec (.registerWrite 0x40 8 v) s = .next s ∧ exec (.registerWrite 0x48 8 v) s = .next s ∧
    exec (.registerWrite 0x108 8 v) s = .next s) ∧
  (∀ (s : State) off v,
    let store := fun (p : Pkg) => ∃ s' : State, exec (.registerWrite off 8 v) s = .next s' ∧
      s' = { s with pkg := p, backUsed := s'.backUsed } ∧ ∀ j, s'.backUsed.get j = if s.slotNamed j = true then s.backUsed.get j else none
    (off = 0x28 → store { s.pkg with backbase := v % 2 ^ 64 / 2 ^ 12 * 2 ^ 12 }) ∧
    (off = 0x30 → store { s.pkg with backpages := v % 2 ^ 40 }) ∧ (off = 0x50 → store { s.pkg with backrsv := v % 2 ^ 40 })) ∧
  (∀ (s : State) off v, off ∈ [0x10, 0x20, 0x28, 0x30, 0x50] →
    exec (.registerWrite off 4 v) s = .next { s with half := some (off, v % 2 ^ 32) } ∧
    (∀ o lo, s.half = some (o, lo) → o = off → exec (.registerWrite (off + 4) 4 v) s =
      exec (.registerWrite off 8 (lo + 2 ^ 32 * (v % 2 ^ 32))) { s with half := none }) ∧
    (s.half = none → exec (.registerWrite (off + 4) 4 v) s = .next { s with outputs := s.outputs ++ [Output.unsupported] })) ∧
  (∀ (s : State) v, exec (.registerWrite 0x00 4 v) s = exec (.diemapWrite (v % 2 ^ 32)) s) ∧
  (∀ (s : State) q v, q < 64 → exec (.registerWrite (0x10010 + 0x20 * q) 4 v) s = exec (.doorbell q (v % 2 ^ 32)) s ∧
    exec (.registerWrite (0x4000000 + 0x1000 * q) 4 v) s = exec (.doorbell q (v % 2 ^ 32)) s ∧
    (s.pkg.stage = 7 → s.readWindow (0x10010 + 0x20 * q) 4 = some 0 ∧ s.readWindow (0x4000000 + 0x1000 * q) 4 = some 0)) ∧
  (∀ (s : State) c v, c < 64 → exec (.registerWrite (0x20020 + 0x80 * c) 4 v) s = exec (.ctxKill c (v % 2 ^ 32)) s) ∧
  (∀ (s : State) q v, q < 64 → ∃ s' : State, exec (.registerWrite (0x10000 + 0x20 * q) 8 v) s = .next s' ∧ s' = { s with queues := s'.queues } ∧
    s'.queue q = (if (s.queue q).enable then s.queue q else { s.queue q with base := v / 2 ^ 12 % 2 ^ 40 * 2 ^ 12 }) ∧
    ∀ j, j ≠ q → s'.queue j = s.queue j) ∧
  (∀ (s : State) v p k w, v < 4 → s.shownDie v = some p → k < 64 →
    ∃ s' : State, exec (.registerWrite (0x100100 + 0x10000 * v + 4 * k) 4 w) s = .next s' ∧ s' = { s with dies := s'.dies } ∧
      (s'.die p).ras.getD k 0 = (if k ≤ 19 ∧ k ≠ 9 ∧ (p = 0 ∨ k ≠ 15 ∧ k ≠ 16) then w % 2 ^ 32 else (s.die p).ras.getD k 0) ∧
      ∀ j, j ≠ k → (s'.die p).ras.getD j 0 = (s.die p).ras.getD j 0) ∧
  (∀ (s : State) v o, s.pkg.stage = 7 → v < 4 → s.shownDie v = none → o < 0x10000 → o % 4 = 0 → s.readWindow (0x100000 + 0x10000 * v + o) 4 = some 0) ∧
  (∀ (s : State) off n, 2 ^ 36 * s.pkg.apbase + off + n ≤ s.capacity → (∀ i < n, 2 ^ 36 * s.pkg.apbase + off + i ∉ s.poison) →
    exec (.apertureRead off n) s =
      .next { s with outputs := s.outputs ++ [Output.apertureData (readBytes s.mem (2 ^ 36 * s.pkg.apbase + off) n)] }) ∧
  (∀ (s : State) off n i, 2 ^ 36 * s.pkg.apbase + off + n ≤ s.capacity → i < n → 2 ^ 36 * s.pkg.apbase + off + i ∈ s.poison →
    ∃ s' : State, exec (.apertureRead off n) s = .next s' ∧ s' = { s with dies := s'.dies, outputs := s'.outputs } ∧
      (s'.outputs = s.outputs ++ [Output.abort] ∨ s'.outputs = s.outputs ++ [Output.msix s.pkg.rasvec, Output.abort]) ∧
      (s.pkg.rasen = false → s'.outputs = s.outputs ++ [Output.abort]) ∧
      let h := s.homeDie (2 ^ 36 * s.pkg.apbase + off)
      (s'.die h).ras.getD 1 0 = min 0xFFFFFFFF ((s.die h).ras.getD 1 0 + 1)) ∧
  (∀ (s : State) off n, s.capacity < 2 ^ 36 * s.pkg.apbase + off + n →
    ∃ s' : State, exec (.apertureRead off n) s = .next s' ∧ s' = { s with dies := s'.dies, outputs := s.outputs ++ [Output.unsupported] } ∧
      (s'.die 0).ras.getD 16 0 = min 0xFFFFFFFF ((s.die 0).ras.getD 16 0 + 1)) ∧
  (∀ (s : State) off bs, let a := 2 ^ 36 * s.pkg.apbase + off
    (∀ i < bs.length, s.frameAt (a + i) = none) →
    ∃ s' : State, exec (.apertureWrite off bs) s = .next s' ∧ s' = { s with mem := s'.mem, poison := s'.poison, dies := s'.dies } ∧
      (∀ x, readByte s'.mem x = if a ≤ x ∧ x < min (a + bs.length) s.capacity then bs.getD (x - a) 0 else readByte s.mem x) ∧
      (∀ x, x ∈ s'.poison ↔ x ∈ s.poison ∧ ¬ (a ≤ x ∧ x < min (a + bs.length) s.capacity)) ∧
      (a + bs.length ≤ s.capacity → s'.dies = s.dies) ∧
      (s.capacity < a + bs.length →
        (s'.die 0).ras.getD 16 0 = min 0xFFFFFFFF ((s.die 0).ras.getD 16 0 + 1))) ∧
  ∀ (s : State), ∃ s' : State, exec .packageReset s = .next s' ∧ s'.threads = [] ∧ s'.frames = [] ∧ s'.launches = [] ∧ s'.fuses = s.fuses ∧
    s'.images = s.images ∧ s'.backing = s.backing ∧ (∀ q, s'.queue q = Queue.reset) ∧ (∀ c, s'.ctx c = Ctx.reset) ∧ s'.pkg.milepost = 0 ∧
    ((∀ x ∈ s.images.take 2, x.passes = false ∨ 2 ≤ x.config.toNat) → s'.pkg.stage = 8 ∧ s'.pkg.bootErr = 1) ∧
    (∀ slot x, s.images[slot]? = some x → x.passes = true → x.config.toNat < 2 → slot < 2 →
      (slot = 1 → ∀ y, s.images[0]? = some y → y.passes = false ∨ 2 ≤ y.config.toNat) →
      s'.pkg.slot = slot ∧
      (∀ d, s.bootFaults.fuse = some d → s'.pkg.stage = 8 ∧ s'.pkg.bootErr = 2 ∧ s'.pkg.bootDie = d) ∧
      (∀ d, s.bootFaults.fuse = none → s.bootFaults.dram = some d → s'.pkg.stage = 8 ∧ s'.pkg.bootErr = 3 ∧ s'.pkg.bootDie = d) ∧
      (∀ d, s.bootFaults.fuse = none → s.bootFaults.dram = none → s.bootFaults.link = some d →
        s'.pkg.stage = 8 ∧ s'.pkg.bootErr = 4 ∧ s'.pkg.bootDie = d) ∧
      (s.bootFaults.fuse = none → s.fuses.dies ≤ 4 → ∀ v < s.fuses.dies, s'.physDie v = v) ∧
      (s.bootFaults.fuse = none → s.bootFaults.dram = none → s.bootFaults.link = none → s.fuses.dies ≤ 4 →
        s'.pkg.stage = 7 ∧ s'.pkg.bootErr = 0 ∧ s'.pkg.wincfg = (x.config.toNat == 1) ∧
        s'.pkg.ports.length = s.fuses.ports ∧
        (∀ p < s.fuses.ports, s'.pkg.ports.getD p 0 = if p ∈ s.bootFaults.ports then 0 else 1) ∧
        (∀ v w, v < s.fuses.dies → w < s.fuses.dies → s'.timebase v = s'.timebase w)))

/-- 20 R397, R398: the responder of each present die answers each request with one message, and changes nothing else of the
machine. The contents that the spec gives are stated; the layout of the messages is that of SPDM 1.3 (log 20). -/
def Obligations.Attestation : Prop :=
  ∀ (s : State) (die p : Nat), s.shownDie die = some p → s.fuses.dies ≤ 4 →
    let answers := fun (i : Instr) (P : List Byte → Prop) => ∃ s' m, exec i s = .next s' ∧
      s' = { s with outputs := s.outputs ++ [Output.spdm die m], free := s'.free } ∧ P m
    let error := fun (i : Instr) (code data : Nat) => answers i fun m => m = [0x13, 0x7F, BitVec.ofNat 8 code, BitVec.ofNat 8 data]
    let chain := Config.chain p
    answers (.getVersion die) (fun m => m = [0x10, 0x04, 0, 0, 0, 1, 0x00, 0x13]) ∧
    answers (.getCapabilities die) (fun m => m.take 4 = [0x13, 0x61, 0, 0] ∧ readsAs m 8 4 0x16 ∧ m.length = 20) ∧
    answers (.negotiateAlgorithms die) (fun m => m.take 4 = [0x13, 0x63, 0, 0] ∧ readsAs m 12 4 0x80 ∧ readsAs m 16 4 2 ∧ m.length = 36) ∧
    answers (.getDigests die) (fun m => m.take 4 = [0x13, 0x01, 0, 1] ∧ m.drop 4 = leBytes 48 (Config.sha384 chain).toNat) ∧
    (∀ off len, off ≤ chain.length → answers (.getCertificate die 0 off len) fun m =>
      m.drop 8 = (chain.drop off).take len ∧ readsAs m 4 2 (min len (chain.length - off) % 2 ^ 16) ∧
      readsAs m 6 2 ((chain.length - off - min len (chain.length - off)) % 2 ^ 16)) ∧
    (∀ slot off len, slot ≠ 0 ∨ chain.length < off → error (.getCertificate die slot off len) 0x01 0) ∧
    (∀ nonce, answers (.challenge die 0 nonce) fun m => ∃ body, m = body ++ leBytes 96 (Config.sign p (nonce ++ body)).toNat ∧
      (body.drop 4).take 48 = leBytes 48 (Config.sha384 chain).toNat ∧ body.length = 86) ∧
    (∀ slot nonce, slot ≠ 0 → error (.challenge die slot nonce) 0x01 0) ∧
    (∀ code, error (.unsupportedRequest die code) 0x07 code) ∧
    let value := fun (k : Nat) (v : List Byte) =>
      k = 1 ∧ v = leBytes 48 (Config.sha384 (Config.firmware s.pkg.slot p ((s.images[s.pkg.slot]?).elim 0 BootImage.config))).toNat ∨
      k = 2 ∧ v = leBytes 8 (s.fuses.enable.getD p 0) ∨
      k = 3 ∧ v = [BitVec.ofNat 8 s.pkg.phys, BitVec.ofNat 8 s.fuses.part] ∨
      k = 0x10 ∧ die = 0 ∧ ∃ ds : List Nat, (∀ v, v ∈ ds ↔ (s.shownDie v).isSome = true) ∧ ds.Pairwise (· < ·) ∧ v.length = 64 * ds.length ∧
        ∀ i d q, ds[i]? = some d → s.shownDie d = some q → (v.drop (64 * i)).take 64 =
          [BitVec.ofNat 8 d, BitVec.ofNat 8 q, 0, 0, 0, 0, 0, 0] ++ leBytes 8 (s.fuses.enable.getD q 0) ++
            leBytes 48 (Config.sha384 (Config.chain q)).toNat
    let block := fun (k : Nat) (v : List Byte) =>
      [BitVec.ofNat 8 k, 1] ++ leBytes 2 (v.length + 3) ++ [BitVec.ofNat 8 (min 3 k)] ++ leBytes 2 v.length ++ v
    let signed := fun (m : List Byte) (n : Nat) (record : List Byte) => ∃ body, m = body ++ leBytes 96 (Config.sign p body).toNat ∧
      readsAs body 4 1 n ∧ readsAs body 5 3 record.length ∧ (body.drop 8).take record.length = record
    let indices := if die = 0 then [1, 2, 3, 0x10] else [1, 2, 3]
    (∀ k ∈ indices, answers (.getMeasurements die k) fun m => ∃ v, value k v ∧ signed m 1 (block k v)) ∧
    answers (.getMeasurements die 0xFF) (fun m => ∃ vs : List (Nat × List Byte), vs.map Prod.fst = indices ∧ (∀ x ∈ vs, value x.1 x.2) ∧
      signed m indices.length (vs.flatMap fun x => block x.1 x.2)) ∧
    answers (.getMeasurements die 0) (fun m => readsAs m 2 1 indices.length ∧ signed m 0 []) ∧
    ∀ k, k ∉ indices → k ≠ 0 → k ≠ 0xFF → error (.getMeasurements die k) 0x01 0

/-- 20 R401 to R405: frame edges from the timebase, from genlock and from the master, with the milepost, swaps, takeovers and
the standby's test; the training and the disabling of a head; READY and the takeover input; and the scanout of 128 bytes. How the
standby knows the heads (log 24), what no rule says of LATE, the period, the coding of a link and a buffer beyond memory (log 40),
and the edges of a chip that is not, or is newly, LOCKED (log 41) are the model's choices. -/
def Obligations.DisplayEdges : Prop :=
  (∀ s, ∃ s1 s', WaitsTaken s s1 ∧ exec .frameEdge s = .next s' ∧ (s.edgeDue = false → s' = s1) ∧
    (s.edgeDue = true → EdgeMade s1 s' (s.pkg.milepost + 1) ∧ s'.nextEdge = s.nextEdge + max 1 s.pkg.period)) ∧
  (∀ s : State, s.edgeDue = true ↔ s.pkg.stage = 7 ∧ (s.pkg.role = 0 ∧ s.pkg.genlock = false ∨ s.pkg.role ≠ 0 ∧ s.pkg.locked = false) ∧
    s.nextEdge ≤ s.cycle * 5 / 6) ∧
  (∀ s, s.pkg.role = 0 → s.pkg.genlock = true → ∃ s' : State, exec .genlockEdge s = .next s' ∧ EdgeMade s s' (s.pkg.milepost + 1)) ∧
  (∀ s, s.pkg.role ≠ 0 ∨ s.pkg.genlock = false → exec .genlockEdge s = .next s) ∧
  (∀ s n, s.pkg.role ≠ 0 → s.pkg.locked = true → 1 ∈ s.pkg.ports →
    (n = s.pkg.milepost + 1 → ∃ s' : State, exec (.milepost n) s = .next s' ∧ EdgeMade s s' n) ∧
    (s.pkg.milepost + 1 < n → ∃ s1 s', exec (.milepost (n - 1)) s = .next s1 ∧ exec (.milepost n) s = .next s' ∧ EdgeMade s1 s' n) ∧
    (n ≤ s.pkg.milepost → exec (.milepost n) s = .next s)) ∧
  (∀ s n, s.pkg.role ≠ 0 → s.pkg.locked = false → 1 ∈ s.pkg.ports →
    let gap := edgeGap (max 1 s.pkg.period) s.nextEdge s.nanos
    (gap ≤ 1000 → ∃ s' : State, exec (.milepost n) s = .next s' ∧ s'.pkg.locked = true ∧ s'.nextEdge = s.nanos + max 1 s.pkg.period ∧
      (n ≤ s.pkg.milepost → s' = { s with pkg := { s.pkg with locked := true }, nextEdge := s'.nextEdge }) ∧
      (n = s.pkg.milepost + 1 → EdgeMade s s' n) ∧
      (s.pkg.milepost + 1 < n → ∃ s1, exec (.milepost (n - 1)) s = .next s1 ∧ EdgeMade s1 s' n)) ∧
    (1000 < gap → ∃ s' : State, exec (.milepost n) s = .next s' ∧ s' = { s with nextEdge := s'.nextEdge } ∧
      s'.nextEdge ≤ s.nextEdge + max 1 s.pkg.period / 1024 ∧ s.nextEdge ≤ s'.nextEdge + max 1 s.pkg.period / 1024 ∧
      edgeGap (max 1 s.pkg.period) s'.nextEdge s.nanos = gap - max 1 s.pkg.period / 1024)) ∧
  (∀ s n, s.pkg.role = 0 ∨ 1 ∉ s.pkg.ports → exec (.milepost n) s = .next s) ∧
  (∀ s h, h < s.fuses.heads → (s.head h).en = false →
    ∃ s' : State, exec (.dispEnable h) s = .next s' ∧ s' = { s with heads := s'.heads } ∧
      s'.head h = { s.head h with en := true, linkup := false, framed := false, edge := none, line := 0, column := 0 } ∧
      ∀ j, j ≠ h → s'.head j = s.head j) ∧
  (∀ s h, (s.head h).en = true → exec (.dispEnable h) s = .next s) ∧
  (∀ s h v, h < s.fuses.heads → h < 4 → v % 2 = 0 →
    let x := s.head h
    ∃ (s' : State) (y : Head), exec (.registerWrite (0x400 + 0x40 * h) 4 v) s = .next s' ∧
      s' = { s with heads := s'.heads, free := s'.free } ∧ s'.head h = y ∧ (∀ j, j ≠ h → s'.head j = s.head j) ∧
      y.en = false ∧ y.linkup = false ∧ y.framed = false ∧ y.edge = none ∧ y.swap = x.swap ∧
      (∀ a late, x.edge = some (some (a, late)) → y.base = a ∧ (late = true → x.late < 0xFFFF → y.late = x.late + 1) ∧
        (late = false → y.late = x.late)) ∧
      (x.edge = none ∨ x.edge = some none → y.base = x.base ∧ y.late = x.late)) ∧
  (∀ s h t, h < s.fuses.heads → (s.head h).en = true → (s.head h).linkup = false →
    let x := s.head h
    (t = true → x.lanes ∈ [1, 2, 4] → x.rate ≤ 2 →
      x.khz * (if x.depth then 30 else 24) * 132 ≤ x.lanes * [100, 135, 200].getD x.rate 0 * 100000 * 128 →
      ∃ s' : State, exec (.linkup h t) s = .next s' ∧ s' = { s with heads := s'.heads } ∧ (s'.head h).linkup = true ∧
        (s'.head h).framed = false ∧ (s'.head h).en = true ∧ (s'.head h).base = x.base ∧ ∀ j, j ≠ h → s'.head j = s.head j) ∧
    (t = false ∨ x.lanes ∉ [1, 2, 4] ∨ 2 < x.rate ∨
      x.lanes * [100, 135, 200].getD x.rate 0 * 100000 * 128 < x.khz * (if x.depth then 30 else 24) * 132 →
      exec (.linkup h t) s = .next s)) ∧
  (∀ s h v, h < s.fuses.heads → h < 4 → (s.head h).en = true → ∀ o ∈ [0x24, 0x28, 0x2C, 0x30, 0x34, 0x38],
    ∃ s' : State, exec (.registerWrite (0x400 + 0x40 * h + o) 4 v) s = .next s' ∧ s' = { s with heads := s'.heads } ∧
      ∀ j, s'.head j = s.head j) ∧
  (∀ s h v, h < s.fuses.heads → h < 4 → s.edgeDue = false → s.peers = [] →
    ∃ s' : State, exec (.registerWrite (0x418 + 0x40 * h) 8 v) s = .next s' ∧ s' = { s with heads := s'.heads } ∧
      s'.head h = { s.head h with swapMp := v % 2 ^ 64, swap := some (decide (v % 2 ^ 64 ≤ s.pkg.milepost)), swapAt := s.cycle }) ∧
  (∀ s m, s.edgeDue = false → s.pkg.role = 2 → ∃ s' : State, exec (.ready m) s = .next s' ∧ s'.lastReady = some m ∧ s'.readyAt = s.cycle ∧
    s'.countedReady = s.countedReady ∧ s' = { s with lastReady := s'.lastReady, readyAt := s'.readyAt, readyBefore := s'.readyBefore }) ∧
  (∀ s, s.edgeDue = false → s.pkg.role ≠ 2 → exec .takeoverInput s = .next { s with takeover := true }) ∧
  (∀ (s : State) h, let x := s.head h
    let n := (s.nanos - x.start) * x.khz / 1000000
    (x.en = true → x.linkup = true → x.khz ≠ 0 → x.framed = true → ∃ hs vs, s.syncOf h = some (hs, vs) ∧
      (hs = x.hpol ↔ x.hactive + x.hstart ≤ n % x.htotal ∧ n % x.htotal < x.hactive + x.hstart + x.hwidth) ∧
      (vs = x.vpol ↔ x.vstart ≤ n / x.htotal ∧ n / x.htotal < x.vstart + x.vwidth)) ∧
    (x.en = false ∨ x.linkup = false ∨ x.khz = 0 ∨ x.framed = false → s.syncOf h = none)) ∧
  (∀ (s : State) h, h < s.fuses.heads →
    let x := s.head h
    x.en = true → x.linkup = true → x.khz ≠ 0 → x.framed = true → x.line < x.vactive →
    let a := x.base + x.line * x.pitch + 128 * x.column
    let n := min 32 (x.hactive - 32 * x.column)
    let moved := fun (y : Head) =>
      y = { x with shown := y.shown, column := y.column, line := y.line } ∧
      (x.column + 1 < (x.hactive + 31) / 32 → y.column = x.column + 1 ∧ y.line = x.line) ∧
      ((x.hactive + 31) / 32 ≤ x.column + 1 → y.column = 0 ∧ y.line = x.line + 1)
    (s.capacity < a + 128 → ∃ s' : State, exec (.scanoutRead h) s = .next s' ∧ s'.mem = s.mem ∧ s'.threads = s.threads ∧ moved (s'.head h) ∧
      (s'.head h).shown.length = n) ∧
    (a + 128 ≤ s.capacity → (∀ i < 128, a + i ∉ s.poison) → ∃ s' : State, exec (.scanoutRead h) s = .next s' ∧ s'.mem = s.mem ∧
      s'.threads = s.threads ∧ s'.dies = s.dies ∧ moved (s'.head h) ∧ (s'.head h).shown.length = n ∧
      ∀ i < n, ((s'.head h).shown.getD i 0).toNat = readNat s.mem (a + 4 * i) 4 % 2 ^ (if x.depth then 30 else 24)) ∧
    (∀ i < 128, a + 128 ≤ s.capacity → a + i ∈ s.poison → ∃ s' : State, exec (.scanoutRead h) s = .next s' ∧ s'.mem = s.mem ∧
      s'.threads = s.threads ∧ moved (s'.head h) ∧ (s'.head h).shown = List.replicate n 0 ∧
      (s'.die s.headDie).ras.getD 17 0 = min 0xFFFFFFFF ((s.die s.headDie).ras.getD 17 0 + 1))) ∧
  ∀ s h, s.fuses.heads ≤ h ∨ (s.head h).en = false ∨ (s.head h).linkup = false ∨ (s.head h).khz = 0 ∨ (s.head h).framed = false ∨
    (s.head h).vactive ≤ (s.head h).line → exec (.scanoutRead h) s = .next s

/-- 20 R399, R400, R405 to R407, 18 R376: the states of a Causeway port; accesses of another chip, made at home after the stores
that arrived with them; the mirror that a standby receives; the die map; and the gating and waking of compute dies. A mirrored packet
that finds no room waits (the model's choice, log 24); the loss of LOCKED with the ports is log 41, what moves with the die map log
42, and when a gating that an access abandons is due again log 65. -/
def Obligations.CausewayAndPower : Prop :=
  (∀ s port now next (i : Instr), s.pkg.ports.getD port 0 = now →
    (i = .portRetrain port ∧ now = 1 ∧ next = 2 ∨ i = .portRetrainDone port ∧ now = 2 ∧ next = 3 ∨
      i = .portRetrainDone port ∧ now = 3 ∧ next = 1) →
    ∃ s' : State, exec i s = .next s' ∧ s' = { s with pkg := s'.pkg, nextEdge := s'.nextEdge } ∧ s'.pkg.ports = s.pkg.ports.set port next ∧
      s'.pkg = { s.pkg with ports := s'.pkg.ports, locked := s.pkg.locked && s'.pkg.ports.any (· == 1) }) ∧
  (∀ s port, s.pkg.ports.getD port 0 ≠ 1 → exec (.portRetrain port) s = .next s) ∧
  (∀ s port, s.pkg.ports.getD port 0 ∉ [2, 3] → exec (.portRetrainDone port) s = .next s) ∧
  (∀ s port, s.pkg.ports.getD port 0 ≠ 0 → (∀ x ∈ s.stores, ∀ c va, x.place ≠ .remote c port va) →
    (∀ e ∈ s.threads, ∀ x ∈ e.2.loads, ∀ va, x.via ≠ some (port, va)) →
    ∃ s' : State, exec (.portDown port) s = .next s' ∧ s'.pkg.ports = s.pkg.ports.set port 0 ∧
    s'.outputs = s.outputs ++ [Output.msix s.pkg.vector] ∧ s'.mem = s.mem ∧ s'.threads = s.threads) ∧
  (∀ s port x c va t, s.pkg.ports.getD port 0 ≠ 0 → s.issue = none → s.stores = [x] → x.place = .remote c port va →
    s.threads.get x.thread = some t → (s.frames.get x.thread).isSome = true →
    (∀ e ∈ s.threads, ∀ y ∈ e.2.loads, ∀ va, y.via ≠ some (port, va)) →
    ∃ s' : State, exec (.portDown port) s = .next s' ∧ s'.pkg.ports = s.pkg.ports.set port 0 ∧ .msix s.pkg.vector ∈ s'.outputs ∧
      s'.stores = [] ∧ Faulted s' x.thread 0x0071 va) ∧
  (∀ s port x k t va, s.pkg.ports.getD port 0 ≠ 0 → s.issue = none → (∀ y ∈ s.stores, ∀ c va, y.place ≠ .remote c port va) →
    s.threads.get k = some t → (s.frames.get k).isSome = true → t.loads = [x] → x.via = some (port, va) →
    (∀ e ∈ s.threads, e.1 ≠ k → ∀ y ∈ e.2.loads, ∀ va, y.via ≠ some (port, va)) →
    ∃ s' : State, exec (.portDown port) s = .next s' ∧ s'.pkg.ports = s.pkg.ports.set port 0 ∧ .msix s.pkg.vector ∈ s'.outputs ∧
      Faulted s' k 0x0071 va) ∧
  (∀ s port, s.pkg.ports.getD port 0 = 0 → exec (.portDown port) s = .next s) ∧
  (∀ (s : State) chip a n, let b := s.landAll
    (a + n ≤ s.capacity → b.bad a n = false →
      exec (.remoteAccess chip (.read a n)) s = .next { b with outputs := b.outputs ++ [Output.remoteData chip (readBytes b.mem a n)] }) ∧
    (a + n ≤ s.capacity → b.bad a n = true → ∃ s' : State, exec (.remoteAccess chip (.read a n)) s = .next s' ∧
      s'.mem = b.mem ∧ .abort ∈ s'.outputs ∧ ∀ bs, .remoteData chip bs ∉ s'.outputs.drop b.outputs.length) ∧
    (s.capacity < a + n → exec (.remoteAccess chip (.read a n)) s = .next { s with outputs := s.outputs ++ [Output.unsupported] })) ∧
  (∀ (s : State) chip a bs, let b := s.landAll
    (a + bs.length ≤ s.capacity → (∀ i < bs.length, b.frameAt (a + i) = none) →
      ∃ s' : State, exec (.remoteAccess chip (.write a bs)) s = .next s' ∧
        s' = { b with mem := s'.mem, poison := s'.poison, outputs := b.outputs ++ [Output.remoteAck chip] } ∧
        ∀ x, readByte s'.mem x = if a ≤ x ∧ x < a + bs.length then bs.getD (x - a) 0 else readByte b.mem x) ∧
    (s.capacity < a + bs.length →
      exec (.remoteAccess chip (.write a bs)) s = .next { s with outputs := s.outputs ++ [Output.unsupported] })) ∧
  (∀ (s : State) chip a op x cmp, let b := s.landAll
    let w := if atomWide op then 8 else 4
    a + w ≤ s.capacity → b.bad a w = false → (∀ i < w, b.frameAt (a + i) = none) →
    ∃ s' : State, exec (.remoteAccess chip (.atomic a op x cmp)) s = .next s' ∧
      s' = { b with mem := s'.mem, poison := s'.poison, outputs := b.outputs ++ [Output.remoteData chip (readBytes b.mem a w)] } ∧
      readNat s'.mem a w = atomNew op (readNat b.mem a w) (x.toNat % 2 ^ (8 * w)) (cmp.toNat % 2 ^ (8 * w)) ∧
      ∀ y, (y < a ∨ a + w ≤ y) → readByte s'.mem y = readByte b.mem y) ∧
  (∀ s m, s.pkg.role ≠ 2 → exec (.packetMirror m) s = .next s) ∧
  (∀ s q bs, s.pkg.role = 2 → (s.queue q).enable = true → (s.queue q).tail < (s.queue q).head + 2 ^ (s.queue q).size →
    (∀ m ∈ s.mirrored, m.1 ≠ q) →
    let at_ := (s.queue q).base + 256 * ((s.queue q).tail % 2 ^ (s.queue q).size)
    let first := fun (x : Bell) => decide (x.cycle < s.cycle ∨ x.cycle = s.cycle ∧ x.queue ≤ q)
    (∀ i < bs.length, s.frameAt (at_ + i) = none) →
    ∃ s' : State, exec (.packetMirror (.packet q bs)) s = .next s' ∧ s'.threads = s.threads ∧
      s'.queue q = { s.queue q with tail := (s.queue q).tail + 1 } ∧
      s'.doorbells = s.doorbells.filter first ++ [⟨s.cycle, q⟩] ++ s.doorbells.filter (fun x => !first x) ∧
      ∀ x, readByte s'.mem x = if at_ ≤ x ∧ x < at_ + bs.length then bs.getD (x - at_) 0 else readByte s.mem x) ∧
  (∀ s q bs, s.pkg.role = 2 → (s.queue q).enable = false ∨ (s.queue q).head + 2 ^ (s.queue q).size ≤ (s.queue q).tail ∨ (∃ m ∈ s.mirrored, m.1 = q) →
    exec (.packetMirror (.packet q bs)) s = .next { s with mirrored := s.mirrored ++ [(q, bs)] }) ∧
  (∀ s q v bs, (s.queue q).enable = false → s.mirrored = [(q, bs)] → (∀ i < bs.length, s.frameAt ((s.queue q).base + i) = none) →
    ∃ s' : State, exec (.queueEnable q v) s = .next s' ∧ s'.mirrored = [] ∧ (s'.queue q).enable = true ∧ (s'.queue q).head = 0 ∧
      (s'.queue q).tail = 1 ∧ ⟨s.cycle, q⟩ ∈ s'.doorbells ∧
      ∀ x, readByte s'.mem x = if (s.queue q).base ≤ x ∧ x < (s.queue q).base + bs.length then bs.getD (x - (s.queue q).base) 0
        else readByte s.mem x) ∧
  (∀ s h v, s.pkg.role = 2 → s.edgeDue = false →
    (∃ s' : State, exec (.packetMirror (.swapAddr h v)) s = .next s' ∧ s' = { s with heads := s'.heads } ∧
      s'.head h = { s.head h with swapAddr := v % 2 ^ 52 }) ∧
    (∃ s' : State, exec (.packetMirror (.swapMp h v)) s = .next s' ∧ s' = { s with heads := s'.heads } ∧
      s'.head h = { s.head h with swapMp := v, swap := some (decide (v ≤ s.pkg.milepost)), swapAt := s.cycle }) ∧
    exec (.packetMirror (.enables v)) s = .next { s with peerHeads := v }) ∧
  (∀ s v, v % 2 ^ 8 = s.pkg.phys →
    exec (.diemapWrite v) s = .next { s with pkg := { s.pkg with offline := v / 2 ^ 8 % 2 ^ 4, mapErr := 0 } }) ∧
  (∀ s v, v % 2 ^ 8 ≠ s.pkg.phys → s.mapRefused (v % 2 ^ 8) = true →
    exec (.diemapWrite v) s = .next { s with pkg := { s.pkg with mapErr := 0x0304 } }) ∧
  (∀ (s : State) phys d k t, d < s.fuses.dies → phys / 4 ^ d % 4 ≠ s.physDie d → s.threads.get k = some t → t.resident = true →
    dieOf (coreOf k) = d → s.mapRefused phys = true) ∧
  (∀ (s : State) v, v % 2 ^ 8 ≠ s.pkg.phys → s.mapRefused (v % 2 ^ 8) = false →
    (∀ a b, a < s.fuses.dies → b < s.fuses.dies → s.physDie a = s.physDie b → a = b) →
    ∃ s' : State, exec (.diemapWrite v) s = .next s' ∧ s' = { s with pkg := s'.pkg, cores := s'.cores, clusters := s'.clusters } ∧
      s'.pkg = { s.pkg with phys := v % 2 ^ 8, offline := v / 2 ^ 8 % 2 ^ 4, mapErr := 0 } ∧
      ∀ a b i, a < s.fuses.dies → b < s.fuses.dies → s'.physDie a = s.physDie b → i < 36 →
        (s'.core (36 * a + i)).spad = (s.core (36 * b + i)).spad ∧ (s'.core (36 * a + i)).l1 = (s.core (36 * b + i)).l1) ∧
  (∀ (s : State) v, s.gateDue v = true ↔ ∃ p, s.shownDie v = some p ∧ (s.die p).autogate = true ∧ (s.die p).gated = false ∧
    s.dieIdle v = true ∧ s.wanted v = false ∧ (s.die p).idleSince + 1200 * (s.die p).idleUs ≤ s.cycle) ∧
  (∀ s v, s.gateDue v = true → ∃ s' : State, exec (.dieGate v) s = .next s' ∧ s'.threads = s.threads ∧ s'.frames = s.frames ∧
    (s'.die (s.physDie v)).gated = true ∧ (∀ g, dieOf g = v → (s'.core g).l1 = []) ∧
    (∀ g, dieOf g ≠ v → s'.core g = s.core g) ∧
    ∀ g line l i, dieOf g = v → (∀ c, c ≠ g → dieOf c = v → (s.core c).l1 = []) → (s.core g).l1.get line = some l → i < 128 →
      s.frameAt (128 * line + i) = none →
      readByte s'.mem (128 * line + i) = if l.dirty.getLsbD i then l.data.getD i 0 else readByte s.mem (128 * line + i)) ∧
  (∀ s v, s.gateDue v = false → exec (.dieGate v) s = .next s) ∧
  (∀ s v, (s.die (s.physDie v)).gated = true → ∃ s' : State, exec (.dieWake v) s = .next s' ∧ s' = { s with cores := s'.cores, dies := s'.dies } ∧
    (s'.die (s.physDie v)).gated = false ∧
    ∀ g ∈ s.dieCoreList v, (s'.core g).edge = true) ∧
  ∀ s v, (s.die (s.physDie v)).gated = false →
    let d := s.die (s.physDie v)
    (d.autogate = false ∨ s.cycle < d.idleSince + 1200 * d.idleUs → exec (.dieWake v) s = .next s) ∧
    (d.autogate = true → d.idleSince + 1200 * d.idleUs ≤ s.cycle → ∃ s' : State, exec (.dieWake v) s = .next s' ∧
      s' = { s with dies := s'.dies } ∧ s'.die (s.physDie v) = { d with idleSince := s.cycle + 1 } ∧
      ∀ p, p ≠ s.physDie v → s'.die p = s.die p)

/-- 01 R22 to R24: which ports choose, the program counter that a port chooses, and the issue group there: one thread of each
lane that has one, in ascending lane, the longest-waiting first. -/
def Obligations.IssueSelection : Prop :=
  (∀ (s : State) p l, s.nextPort = some (p, l) →
    (∀ x ∈ l, x ∈ s.threads ∧ s.candidate x.1 x.2 = true ∧ portOf x.1 x.2 = p) ∧ l ≠ [] ∧ s.port ≤ p ∧
    ∀ x ∈ s.threads, s.candidate x.1 x.2 = true → s.port ≤ portOf x.1 x.2 → p ≤ portOf x.1 x.2 ∧ (portOf x.1 x.2 = p → x ∈ l)) ∧
  (∀ l key, choosePc l = some key →
    ((∃ x ∈ l, 256 ≤ x.2.wait) → ∃ x ∈ l, x.2.pc = key.1 ∧ x.2.ctxid = key.2 ∧ 256 ≤ x.2.wait ∧
      ∀ y ∈ l, y.2.wait ≤ x.2.wait ∧ (y.2.wait = x.2.wait → x.2.lane ≤ y.2.lane ∧ (y.2.lane = x.2.lane → x.2.cx ≤ y.2.cx))) ∧
    ((∀ x ∈ l, x.2.wait < 256) → atPc l key ≠ [] ∧ ∀ y ∈ l,
      (atPc l (pcKey y)).length ≤ (atPc l key).length ∧
      ((atPc l (pcKey y)).length = (atPc l key).length → longestWait (atPc l (pcKey y)) ≤ longestWait (atPc l key) ∧
        (longestWait (atPc l (pcKey y)) = longestWait (atPc l key) → key.1 ≤ y.2.pc)))) ∧
  (∀ l, choosePc l = none ↔ l = []) ∧
  ∀ l key, ∃ xs : List (FrameRef × Thread), groupAt l key = xs.map Prod.fst ∧ xs.Pairwise (fun x y => x.2.lane < y.2.lane) ∧
    (∀ x ∈ xs, x ∈ atPc l key ∧ x.2.lane < 32 ∧ ∀ y ∈ atPc l key, y.2.lane = x.2.lane →
      y.2.wait ≤ x.2.wait ∧ (y.2.wait = x.2.wait → x.2.cx ≤ y.2.cx)) ∧
    ∀ y ∈ atPc l key, y.2.lane < 32 → ∃ x ∈ xs, x.2.lane = y.2.lane

/-- 01 R22 to R24, 05 R97 to R105: a step of a booted machine takes what comes from outside, else the input that is next, but for an
access of another chip, which waits for the end of the cycle (20 R400); else a listing that stands since an earlier cycle is
received, or the next port that has a thread issues: a thread that an interlock holds is set aside, and the port chooses among the
rest the instruction that the words of its bundle decode to. When every port has issued, the event that is due happens; with
nothing due the cycle ends. This order within a cycle is the model's choice (log 5), and so are the silence of a stage 8 (log 48) and
the order of the codes of a fetch that fails (log 58). -/
def Obligations.StepRunsDecoded : Prop :=
  (∀ s i rest, s.pkg.stage = 7 → s.befalls = [] → s.inputs = i :: rest →
    (∀ c a, i ≠ .remoteAccess c a) ∨ 1152 ≤ s.port ∧ s.dueEvent = none → step s = exec i { s with inputs := rest }) ∧
  (∀ s, s.pkg.stage = 8 → s.befalls = [] → s.inputs = [] → step s = .next { s with cycle := s.cycle + 1 }) ∧
  (∀ s e rest, s.pkg.stage ≠ 0 → s.befalls = e :: rest →
    let b := { s with befalls := rest }
    (∀ d k, e = .corrected d k → k ∈ [0, 2, 4] → ∃ s' : State, step s = .next s' ∧ s' = { b with dies := s'.dies } ∧
      (s'.die d).ras.getD k 0 = min 0xFFFFFFFF ((s.die d).ras.getD k 0 + 1) ∧ (∀ p, p ≠ d → s'.die p = s.die p) ∧
      ∀ j, j ≠ k → (s'.die d).ras.getD j 0 = (s.die d).ras.getD j 0) ∧
    (∀ d k, e = .corrected d k → k ∉ [0, 2, 4] → step s = .next b) ∧
    (∀ a, e = .decay .home a → ∃ s' : State, step s = .next s' ∧ s' = { b with poison := s'.poison } ∧ ∀ x, x ∈ s'.poison ↔ x = a ∨ x ∈ s.poison) ∧
    (∀ g a, e = .decay (.spad g) a → ∃ s' : State, step s = .next s' ∧ s' = { b with cores := s'.cores } ∧
      (s'.core g).spad = (s.core g).spad ∧ ∀ x, x ∈ (s'.core g).bad ↔ x = a ∨ x ∈ (s.core g).bad) ∧
    (∀ cl a, e = .decay (.vault cl) a → ∃ s' : State, step s = .next s' ∧ s' = { b with clusters := s'.clusters } ∧
      (s'.cluster cl).vault = (s.cluster cl).vault ∧ ∀ x, x ∈ (s'.cluster cl).bad ↔ x = a ∨ x ∈ (s.cluster cl).bad) ∧
    (∀ a bs, e = .hostMemory a bs → ∃ s' : State, step s = .next s' ∧ s' = { b with backing := s'.backing } ∧
      ∀ x, readByte s'.backing x = if a ≤ x ∧ x < a + bs.length then bs.getD (x - a) 0 else readByte s.backing x) ∧
    (e = .masterLost → ∃ s' : State, step s = .next s' ∧ s' = { b with pkg := s'.pkg, nextEdge := s'.nextEdge } ∧
      s'.pkg = { s.pkg with locked := false })) ∧
  (∀ s i, s.pkg.stage = 7 → s.befalls = [] → s.NoInput → s.port < 1152 → s.dueListing = some i → step s = exec i s) ∧
  (∀ s p l, s.pkg.stage = 7 → s.befalls = [] → s.NoInput → s.port < 1152 → s.dueListing = none → s.nextPort = some (p, l) →
    (∀ k, HeldAlone s l k → ∃ s' : State, step s = .next s' ∧ SetAside s s' (HeldAlone s l)) ∧
    ∀ key o, (∀ k, ¬ HeldAlone s l k) → choosePc l = some key → Trial s (groupAt l key) key.1 o →
      (∀ k ∈ groupAt l key, HoldsBack o k → ∃ s' : State, step s = .next s' ∧ SetAside s s' fun j => j ∈ groupAt l key ∧ HoldsBack o j) ∧
      (∀ s', o = .next s' → (∀ k ∈ groupAt l key, ¬ HoldsBack o k) → ∃ s2, step s = .next s2 ∧ Issued s' s2 p l (groupAt l key)) ∧
      ∀ r, o = .refused r → step s = .refused r) ∧
  (∀ s, s.pkg.stage = 7 → s.befalls = [] → s.NoInput → s.port < 1152 → s.dueListing = none → s.nextPort = none →
    step s = .next { s with port := 1152 }) ∧
  (∀ s i, s.pkg.stage = 7 → s.befalls = [] → s.NoInput → 1152 ≤ s.port → s.dueEvent = some i → step s = exec i s) ∧
  (∀ s, s.pkg.stage = 7 → s.befalls = [] → s.inputs = [] → 1152 ≤ s.port → s.dueEvent = none →
    (∀ c ∈ s.cores, ∀ m ∈ c.2.meets, m.2.mode = .bytes → m.2.expected = true → m.2.count = 0 → m.2.err.isSome = true) →
    ∃ s' : State, step s = .next s' ∧ s'.cycle = s.cycle + 1 ∧ s'.port = 0 ∧
      s' = { s with threads := s'.threads, cores := s'.cores, clusters := s'.clusters, dies := s'.dies, cycle := s'.cycle, port := s'.port } ∧
      (∀ k, s'.threads.get k = (s.threads.get k).map fun t => { t with held := false }) ∧
      (∀ g, (s'.core g).splitEn = (s.core g).heldSplit.getD (s.core g).splitEn ∧ (s'.core g).heldSplit = none) ∧
      ∀ cl, (s'.cluster cl).cam = (s.cluster cl).heldCam.getD (s.cluster cl).cam ∧ (s'.cluster cl).heldCam = none) ∧
  (∀ (s : State) k t, s.threads.get k = some t → 2 ^ 57 ≤ t.pc →
    s.fetchGroup [k] t.pc = (s.endFetch k 0x0030 (t.pc / 32 * 32), none)) ∧
  (∀ (s : State) k t c s1, s.threads.get k = some t → t.pc < 2 ^ 57 → s.translate (t.who k) (t.pc / 32 * 32) 32 .fetch = (s1, .error c) →
    s.fetchGroup [k] t.pc = (s1.endFetch k c (t.pc / 32 * 32), none)) ∧
  ∀ (s : State) k t bs s1 s2 tr, s.threads.get k = some t → t.pc < 2 ^ 57 →
    s.translate (t.who k) (t.pc / 32 * 32) 32 .fetch = (s1, .ok tr) → s1.globRead (coreOf k) tr 32 = (s2, some bs) →
    let p := t.pc % 32 / 4
    let fetched := s.fetchGroup [k] t.pc
    (recNat bs 0 4 / 2 ^ 29 = 0 → t.pc % 4 = 0 → p ≠ 0 → (2 ≤ p → isPrefixWord (bundleSlot bs (p - 1)).1 = false) →
      (∀ i n, decodeGroup ((List.range (8 - p)).map fun j => bundleSlot bs (p + j)) = .ok (i, n) →
        let q := bundleSlot bs (p + n - 1)
        fetched = ({ s2 with issue := some ⟨[k], t.pc, t.pc / 32 * 32 + 4 * (p + n - 1), BitVec.ofNat 32 q.1, q.2,
          recNat bs 0 4 / 2 ^ 28 % 2 == 1⟩ }, some i)) ∧
      (∀ e, decodeGroup ((List.range (8 - p)).map fun j => bundleSlot bs (p + j)) = .error e →
        fetched = (s2.endFetch k 0x0001 0, none))) ∧
    (recNat bs 0 4 / 2 ^ 29 ≠ 0 → bs.length = 32 → fetched = (s2.endFetch k 0x0001 0, none)) ∧
    (recNat bs 0 4 / 2 ^ 29 = 0 → t.pc % 4 ≠ 0 ∨ p = 0 ∨ 2 ≤ p ∧ isPrefixWord (bundleSlot bs (p - 1)).1 = true →
      fetched = (s2.endFetch k 0x0006 t.pc, none))

/-- Words of the encoding tables of 07 to 10, each with the instruction that it stands for. -/
def Obligations.EncodingWords : Prop :=
  decodeTableWord 32 0x04040005 = some (.addi none 1 0 (.short 5)) ∧
  decodeTableWord 64 (0xF8000024 + 2 ^ 32 * 0x040C1345) = some (.addi none 3 2 (.long 0x00012345)) ∧
  decodeTableWord 32 0x42000000 = some .exitT ∧ decodeTableWord 32 0x46000002 = some .eret ∧
  decodeTableWord 32 0x50284091 = some (.fadd none 10 8 9 false .rz) ∧
  decodeTableWord 32 0x847CA001 = some (.redmax none 31 20 false .rn .n32) ∧
  decodeTableWord 32 0xA87411F9 = some (.atom 29 2 31 .maxN32) ∧
  decodeTableWord 32 0xC8000003 = some (.join 3) ∧
  decodeTableWord 32 0xDA0000C5 = some (.mzero .f32 3 5) ∧
  decodeTableWord 32 0xEE5CA001 = some (.bclose 23 20)

/-- Decode and encode agree: the words of a well-formed instruction decode to it, with every operand at every value, whatever
the stall count of its last word and whatever follows it (05 R97 to R116). -/
def Obligations.DecodeOfEncode : Prop :=
  ∀ i w ws, check i = none → encode i = ws ++ [w] → (∀ x ∈ encode i, x < 2 ^ 32) ∧
    ∀ stall rest, decodeGroup (ws.map (fun x => (x, 0)) ++ (w, stall) :: rest) = .ok (i, ws.length + 1)

/-- Each group of words is one instruction's: what decodes to a well-formed instruction is that instruction's encoding (05 R97
to R119). -/
def Obligations.EncodeOfDecode : Prop :=
  ∀ ws i n, (∀ x ∈ ws, x.1 < 2 ^ 32) → decodeGroup ws = .ok (i, n) →
    check i = none ∧ encode i = (ws.take n).map Prod.fst ∧ 1 ≤ n ∧ n ≤ 3 ∧ n ≤ ws.length ∧ ∀ x ∈ ws.take (n - 1), x.2 = 0

/-- What reset leaves: the registers whose reset values 01, 12, 18 and 20 give, no thread, no frame, a memory in canonical form;
and the first step is the package reset, which boots. That the first step is the reset, the part and its images, and what the fields
hold before boot, are the model's choices (log 3). -/
def Obligations.ResetValues : Prop :=
  State.reset.threads = [] ∧ State.reset.frames = [] ∧ Memory.wf State.reset.mem = true ∧
  (∀ q, (State.reset.queue q).enable = false ∧ (State.reset.queue q).base = 0 ∧ (State.reset.queue q).size = 0) ∧
  (∀ c, (State.reset.ctx c).state = .running ∧ (State.reset.ctx c).root = 0 ∧ (State.reset.ctx c).err = 0 ∧ (State.reset.ctx c).irq = false) ∧
  (∀ g, (State.reset.core g).binTimer = 0x200 ∧ (State.reset.core g).splitEn = true ∧ (State.reset.core g).frameLim = 0x1000) ∧
  (∀ p, (State.reset.die p).thresh = 0x10 ∧ (State.reset.die p).eager = true ∧ (State.reset.die p).autogate = false ∧
    (State.reset.die p).idleUs = 1000 ∧ (State.reset.die p).gated = false ∧ ∀ k, (State.reset.die p).ras.getD k 0 = 0) ∧
  (∀ h, (State.reset.head h).en = false ∧ (State.reset.head h).linkup = false ∧ (State.reset.head h).base = 0 ∧
    (State.reset.head h).swap = none) ∧
  (∀ j, (State.reset.future j).gen = 0 ∧ (State.reset.future j).state = none) ∧
  State.reset.pkg.stage = 0 ∧ State.reset.pkg.ageperiod = 1000 ∧ State.reset.pkg.period = 16666667 ∧ State.reset.pkg.margin = 1 ∧
  State.reset.pkg.milepost = 0 ∧ State.reset.pkg.rasen = false ∧
  ∃ s' : State, step State.reset = .next s' ∧ s'.pkg.stage = 7 ∧ s'.pkg.slot = 0 ∧ s'.pkg.bootErr = 0 ∧ s'.pkg.wincfg = false ∧
    (∀ v < 4, s'.physDie v = v) ∧ s'.threads = [] ∧ Memory.wf s'.mem = true

/-- Memory stays in its canonical form, and the machine goes on: from every state whose memory has the form, a step leads to a
state whose memory has it, or is refused as a DEVICE access to a register that the spec does not place (log 17). -/
def Obligations.MemoryStaysCanonical : Prop :=
  ∀ s, Memory.wf s.mem = true →
    (∃ s' : State, step s = .next s' ∧ Memory.wf s'.mem = true) ∨
      ∃ pa, step s = .refused (.deviceRegisters pa) ∧ 0xF000000000000 ≤ pa ∧ (pa < 0xF800000000000 ∨ 0xF800000000000 + 2 ^ 43 ≤ pa)
end

