-- ==== Sys2Proof/Laws/Table.lean ====
section
/-! SUPPORT. Laws of tables and of memories: reading after writing, and the canonical form. -/

namespace Sys2Proof.Machine

variable {α : Type}

theorem Tbl.get_cons (j : Nat) (v : α) (t : Tbl α) (k : Nat) :
    Tbl.get ((j, v) :: t) k = if j = k then some v else Tbl.get t k := rfl

@[simp] theorem Tbl.get_nil (k : Nat) : Tbl.get ([] : Tbl α) k = none := rfl

@[simp] theorem Tbl.get_put_same (t : Tbl α) (k : Nat) (v : α) : Tbl.get (Tbl.put t k v) k = some v := by
  induction t with
  | nil => simp [Tbl.put, Tbl.get]
  | cons e t ih =>
    obtain ⟨j, w⟩ := e
    by_cases h1 : k < j
    · simp [Tbl.put, h1, Tbl.get]
    · by_cases h2 : k = j
      · simp [Tbl.put, h2, Tbl.get]
      · have h3 : ¬ j = k := fun h => h2 h.symm
        simp [Tbl.put, h1, h2, Tbl.get, h3, ih]

theorem Tbl.get_put_other (t : Tbl α) (k j : Nat) (v : α) (h : j ≠ k) : Tbl.get (Tbl.put t k v) j = Tbl.get t j := by
  have hk : ¬ k = j := fun e => h e.symm
  induction t with
  | nil => simp [Tbl.put, Tbl.get, hk]
  | cons e t ih =>
    obtain ⟨i, w⟩ := e
    by_cases h1 : k < i
    · simp [Tbl.put, h1, Tbl.get, hk]
    · by_cases h2 : k = i
      · subst h2; simp [Tbl.put, Tbl.get, hk]
      · simp [Tbl.put, h1, h2, Tbl.get, ih]

theorem Tbl.get_put (t : Tbl α) (k j : Nat) (v : α) :
    Tbl.get (Tbl.put t k v) j = if j = k then some v else Tbl.get t j := by
  by_cases h : j = k
  · subst h; simp
  · simp [h, Tbl.get_put_other t k j v h]

@[simp] theorem Tbl.get_del_same (t : Tbl α) (k : Nat) : Tbl.get (Tbl.del t k) k = none := by
  induction t with
  | nil => rfl
  | cons e t ih =>
    obtain ⟨j, w⟩ := e
    by_cases h : j = k <;> simp [Tbl.del, h, Tbl.get, ih]

theorem Tbl.get_del_other (t : Tbl α) (k j : Nat) (h : j ≠ k) : Tbl.get (Tbl.del t k) j = Tbl.get t j := by
  induction t with
  | nil => rfl
  | cons e t ih =>
    obtain ⟨i, w⟩ := e
    by_cases h1 : i = k
    · simp [Tbl.del, h1, Tbl.get, ih]
      intro e; exact absurd (e ▸ rfl) h
    · simp [Tbl.del, h1, Tbl.get, ih]

theorem Tbl.get_del (t : Tbl α) (k j : Nat) : Tbl.get (Tbl.del t k) j = if j = k then none else Tbl.get t j := by
  by_cases h : j = k
  · subst h; simp
  · simp [h, Tbl.get_del_other t k j h]

theorem Tbl.get_update (t : Tbl α) (k j : Nat) (f : α → α) :
    Tbl.get (Tbl.update t k f) j = if j = k then (Tbl.get t j).map f else Tbl.get t j := by
  induction t with
  | nil => simp [Tbl.update]
  | cons e t ih =>
    obtain ⟨i, w⟩ := e
    by_cases h1 : i = k
    · subst h1
      by_cases h2 : j = i
      · subst h2; simp [Tbl.update, Tbl.get]
      · have : ¬ i = j := fun e => h2 e.symm
        simp [Tbl.update, Tbl.get, h2, this]
    · by_cases h2 : i = j
      · subst h2; simp [Tbl.update, Tbl.get, h1]
      · by_cases h3 : j = k
        · subst h3; simp [Tbl.update, h1, Tbl.get, ih]
        · simp [Tbl.update, h1, Tbl.get, ih, h3]

@[simp] theorem Tbl.get_update_same (t : Tbl α) (k : Nat) (f : α → α) : Tbl.get (Tbl.update t k f) k = (Tbl.get t k).map f := by
  simp [Tbl.get_update]

theorem Tbl.get_update_other (t : Tbl α) (k j : Nat) (f : α → α) (h : j ≠ k) :
    Tbl.get (Tbl.update t k f) j = Tbl.get t j := by simp [Tbl.get_update, h]

theorem Tbl.get_mapVals (t : Tbl α) (f : Nat → α → α) (k : Nat) : Tbl.get (Tbl.mapVals t f) k = (Tbl.get t k).map (f k) := by
  induction t with
  | nil => rfl
  | cons e t ih =>
    obtain ⟨i, w⟩ := e
    by_cases h : i = k
    · subst h; simp [Tbl.mapVals, Tbl.get]
    · simp only [Tbl.mapVals, List.map_cons, Tbl.get, h, if_false]; exact ih

theorem Tbl.getD_putD [DecidableEq α] (t : Tbl α) (k j : Nat) (v d : α) :
    Tbl.getD (Tbl.putD t k v d) j d = if j = k then v else Tbl.getD t j d := by
  unfold Tbl.putD
  by_cases hv : v = d
  · subst hv
    by_cases h : j = k
    · subst h; simp [Tbl.getD]
    · simp [Tbl.getD, h, Tbl.get_del_other t k j h]
  · by_cases h : j = k
    · subst h; simp [hv, Tbl.getD]
    · simp [hv, h, Tbl.getD, Tbl.get_put_other t k j v h]

theorem Tbl.getD_put (t : Tbl α) (k j : Nat) (v d : α) :
    Tbl.getD (Tbl.put t k v) j d = if j = k then v else Tbl.getD t j d := by
  by_cases h : j = k
  · subst h; simp [Tbl.getD]
  · simp [Tbl.getD, h, Tbl.get_put_other t k j v h]

@[simp] theorem Tbl.getD_put_same (t : Tbl α) (k : Nat) (v d : α) : Tbl.getD (Tbl.put t k v) k d = v := by
  simp [Tbl.getD_put]

/-- The keys of a table after a change of one entry. -/
theorem Tbl.keys_update (t : Tbl α) (k : Nat) (f : α → α) : Tbl.keys (Tbl.update t k f) = Tbl.keys t := by
  induction t with
  | nil => rfl
  | cons e t ih =>
    obtain ⟨i, w⟩ := e
    by_cases h : i = k
    · simp [Tbl.update, h, Tbl.keys]
    · simpa [Tbl.update, h, Tbl.keys] using ih

/-- Rising tables by their keys. -/
theorem Tbl.rising_iff (t : Tbl α) : Tbl.rising t = true ↔ (Tbl.keys t).Pairwise (· < ·) := by
  induction t with
  | nil => simp [Tbl.rising, Tbl.keys]
  | cons e t ih =>
    obtain ⟨i, w⟩ := e
    cases t with
    | nil => simp [Tbl.rising, Tbl.keys]
    | cons e2 t2 =>
      obtain ⟨k, v⟩ := e2
      simp only [Tbl.rising, Bool.and_eq_true, decide_eq_true_eq, ih]
      constructor
      · rintro ⟨h1, h2⟩
        refine List.Pairwise.cons ?_ h2
        intro x hx
        simp only [List.map_cons, List.mem_cons] at hx
        rcases hx with rfl | hx
        · exact h1
        · have := (List.pairwise_cons.mp h2).1 x (by simpa [Tbl.keys] using hx)
          exact Nat.lt_trans h1 this
      · intro h
        have h' := List.pairwise_cons.mp h
        exact ⟨h'.1 k (by simp), h'.2⟩

theorem Tbl.mem_keys_put (t : Tbl α) (k : Nat) (v : α) (j : Nat) (h : j ∈ Tbl.keys (Tbl.put t k v)) :
    j = k ∨ j ∈ Tbl.keys t := by
  induction t with
  | nil => simpa [Tbl.put, Tbl.keys] using h
  | cons e t ih =>
    obtain ⟨i, w⟩ := e
    by_cases h1 : k < i
    · simpa [Tbl.put, h1, Tbl.keys] using h
    · by_cases h2 : k = i
      · simp [Tbl.put, h2, Tbl.keys] at h
        rcases h with h | h
        · exact Or.inl (h.trans h2.symm)
        · exact Or.inr (by simp [Tbl.keys, h])
      · simp only [Tbl.put, h1, h2, if_false, Tbl.keys, List.map_cons, List.mem_cons] at h
        rcases h with h | h
        · exact Or.inr (by simp [Tbl.keys, h])
        · rcases ih (by simpa [Tbl.keys] using h) with h' | h'
          · exact Or.inl h'
          · exact Or.inr (by simp [Tbl.keys] at h' ⊢; exact Or.inr h')

theorem Tbl.rising_put (t : Tbl α) (k : Nat) (v : α) (h : Tbl.rising t = true) : Tbl.rising (Tbl.put t k v) = true := by
  rw [Tbl.rising_iff] at h ⊢
  induction t with
  | nil => simp [Tbl.put, Tbl.keys]
  | cons e t ih =>
    obtain ⟨i, w⟩ := e
    have hc := List.pairwise_cons.mp h
    by_cases h1 : k < i
    · simp only [Tbl.put, h1, if_true]
      refine List.Pairwise.cons ?_ h
      intro x hx
      rcases List.mem_cons.mp hx with rfl | hx
      · exact h1
      · exact Nat.lt_trans h1 (hc.1 x hx)
    · by_cases h2 : k = i
      · subst h2; simpa [Tbl.put, Tbl.keys] using h
      · simp only [Tbl.put, h1, h2, if_false]
        refine List.Pairwise.cons ?_ (ih hc.2)
        intro x hx
        rcases Tbl.mem_keys_put t k v x hx with rfl | hx
        · show i < x; omega
        · exact hc.1 x hx

theorem Tbl.del_eq_filter (t : Tbl α) (k : Nat) : Tbl.del t k = t.filter fun e => !(e.1 == k) := by
  induction t with
  | nil => rfl
  | cons e t ih =>
    obtain ⟨i, w⟩ := e
    by_cases h : i = k <;> simp [Tbl.del, h, ih]

theorem Tbl.rising_filter (t : Tbl α) (p : Nat × α → Bool) (h : Tbl.rising t = true) : Tbl.rising (t.filter p) = true := by
  rw [Tbl.rising_iff] at h ⊢
  exact h.sublist (List.Sublist.map _ List.filter_sublist)

theorem Tbl.rising_del (t : Tbl α) (k : Nat) (h : Tbl.rising t = true) : Tbl.rising (Tbl.del t k) = true := by
  rw [Tbl.del_eq_filter]; exact Tbl.rising_filter t _ h

theorem Tbl.rising_update (t : Tbl α) (k : Nat) (f : α → α) (h : Tbl.rising t = true) : Tbl.rising (Tbl.update t k f) = true := by
  rw [Tbl.rising_iff] at h ⊢; rwa [Tbl.keys_update]

theorem Tbl.mem_put (t : Tbl α) (k : Nat) (v : α) (e : Nat × α) (h : e ∈ Tbl.put t k v) : e = (k, v) ∨ e ∈ t := by
  induction t with
  | nil => simpa [Tbl.put] using h
  | cons x t ih =>
    obtain ⟨i, w⟩ := x
    by_cases h1 : k < i
    · simpa [Tbl.put, h1] using h
    · by_cases h2 : k = i
      · simp [Tbl.put, h2] at h
        rcases h with h | h
        · exact Or.inl (by rw [h, h2])
        · exact Or.inr (by simp [h])
      · simp only [Tbl.put, h1, h2, if_false, List.mem_cons] at h
        rcases h with h | h
        · exact Or.inr (by simp [h])
        · rcases ih h with h' | h'
          · exact Or.inl h'
          · exact Or.inr (by simp [h'])

/-! The memory. -/

@[simp] theorem Memory.wf_nil : Memory.wf [] = true := by decide

/-- A write of one byte keeps the canonical form. -/
theorem writeByte_wf (m : Tbl Byte) (a : Nat) (b : Byte) (h : Memory.wf m = true) : Memory.wf (writeByte m a b) = true := by
  simp only [Memory.wf, Bool.and_eq_true, List.all_eq_true] at h ⊢
  unfold writeByte Tbl.putD
  by_cases hb : b = blankByte
  · simp only [hb, if_true]
    refine ⟨Tbl.rising_del m a h.1, ?_⟩
    intro e he
    rw [Tbl.del_eq_filter] at he
    exact h.2 e (List.mem_filter.mp he).1
  · simp only [hb, if_false]
    refine ⟨Tbl.rising_put m a b h.1, ?_⟩
    intro e he
    rcases Tbl.mem_put m a b e he with rfl | he
    · simpa using hb
    · exact h.2 e he

/-- A write of bytes keeps the canonical form. -/
theorem writeBytes_wf (m : Tbl Byte) (a : Nat) (bs : List Byte) (h : Memory.wf m = true) : Memory.wf (writeBytes m a bs) = true := by
  induction bs generalizing m a with
  | nil => exact h
  | cons b bs ih => exact ih _ _ (writeByte_wf m a b h)

theorem writeNat_wf (m : Tbl Byte) (a n v : Nat) (h : Memory.wf m = true) : Memory.wf (writeNat m a n v) = true :=
  writeBytes_wf m a _ h

/-- Removing entries keeps the canonical form. -/
theorem Memory.wf_filter (m : Tbl Byte) (p : Nat × Byte → Bool) (h : Memory.wf m = true) : Memory.wf (m.filter p) = true := by
  simp only [Memory.wf, Bool.and_eq_true, List.all_eq_true] at h ⊢
  exact ⟨Tbl.rising_filter m p h.1, fun e he => h.2 e (List.mem_filter.mp he).1⟩

theorem readByte_writeByte (m : Tbl Byte) (a j : Nat) (b : Byte) :
    readByte (writeByte m a b) j = if j = a then b else readByte m j := Tbl.getD_putD m a j b blankByte

/-- A write leaves every other byte as it was. -/
theorem readByte_writeBytes_outside (m : Tbl Byte) (a j : Nat) (bs : List Byte) (h : j < a ∨ a + bs.length ≤ j) :
    readByte (writeBytes m a bs) j = readByte m j := by
  induction bs generalizing m a with
  | nil => rfl
  | cons b bs ih =>
    simp only [List.length_cons] at h
    rw [writeBytes, ih _ _ (by omega), readByte_writeByte, if_neg (by omega)]

/-- A read after a write to the same place gives the byte written. -/
theorem readByte_writeBytes_inside (m : Tbl Byte) (a i : Nat) (bs : List Byte) (h : i < bs.length) :
    readByte (writeBytes m a bs) (a + i) = bs[i] := by
  induction bs generalizing m a i with
  | nil => simp at h
  | cons b bs ih =>
    cases i with
    | zero => rw [writeBytes, readByte_writeBytes_outside _ _ _ _ (by omega), Nat.add_zero, readByte_writeByte, if_pos rfl]; rfl
    | succ i =>
      have := ih (writeByte m a b) (a + 1) i (by simpa using h)
      rw [writeBytes, show a + (i + 1) = a + 1 + i by omega, this]; rfl

theorem readBytes_length (m : Tbl Byte) (a n : Nat) : (readBytes m a n).length = n := by
  induction n generalizing a with
  | zero => rfl
  | succ n ih => simp [readBytes, ih]

theorem readBytes_writeBytes_same (m : Tbl Byte) (a : Nat) (bs : List Byte) :
    readBytes (writeBytes m a bs) a bs.length = bs := by
  induction bs generalizing m a with
  | nil => rfl
  | cons b bs ih =>
    simp only [List.length_cons, readBytes]
    rw [show readByte (writeBytes m a (b :: bs)) a = b from readByte_writeBytes_inside m a 0 (b :: bs) (by simp)]
    rw [show writeBytes m a (b :: bs) = writeBytes (writeByte m a b) (a + 1) bs from rfl, ih]

@[simp] theorem leBytes_length (n v : Nat) : (leBytes n v).length = n := by
  induction n generalizing v with
  | zero => rfl
  | succ n ih => simp [leBytes, ih]

theorem leNat_leBytes (n v : Nat) : leNat (leBytes n v) = v % 256 ^ n := by
  induction n generalizing v with
  | zero => simp [leBytes, leNat, Nat.mod_one]
  | succ n ih =>
    rw [Nat.pow_succ, Nat.mul_comm (256 ^ n) 256, Nat.mod_mul]
    simp only [leBytes, leNat, ih, BitVec.toNat_ofNat]

end Sys2Proof.Machine
end

