-- ==== Sys2Proof/Laws/Registers.lean ====
section
/-! SUPPORT. Laws of registers: writers and their aging, groups of registers, and the checks on operands. -/

namespace Sys2Proof.Machine

/-- The value of a register from a list of writers, newest first, over the registers written. -/
def latestOf (ws : List Writer) (regs : Tbl RegVal) (i : Nat) : RegVal :=
  match ws.find? fun w => w.reg == i && !w.dead with
  | some w => w.val
  | none => regs.getD i blankReg

theorem Thread.latest_eq (t : Thread) (i : Nat) : t.latest i = latestOf t.writes t.regs i := rfl

theorem latestOf_cons (w : Writer) (ws : List Writer) (regs : Tbl RegVal) (i : Nat) :
    latestOf (w :: ws) regs i = if w.reg = i ∧ w.dead = false then w.val else latestOf ws regs i := by
  unfold latestOf
  by_cases h : w.reg = i
  · by_cases h2 : w.dead <;> simp [List.find?, h, h2]
  · have hb : (w.reg == i) = false := by simpa using h
    simp [List.find?, hb, h]

theorem latestOf_kill (ws : List Writer) (regs : Tbl RegVal) (r : Nat) (v : RegVal) (i : Nat) :
    latestOf (ws.map fun x => if x.reg = r then { x with dead := true } else x) (regs.putD r v blankReg) i
      = if i = r then v else latestOf ws regs i := by
  induction ws with
  | nil => simp only [List.map_nil, latestOf, List.find?_nil]; exact Tbl.getD_putD regs r i v blankReg
  | cons w ws ih =>
    rw [List.map_cons, latestOf_cons, latestOf_cons, ih]
    by_cases h : w.reg = r
    · by_cases hi : i = r
      · simp [h, hi]
      · have : ¬ w.reg = i := fun e => hi (e ▸ h)
        have h' : ¬ r = i := fun e => hi e.symm
        simp [h, hi, h']
    · by_cases hi : i = r
      · have : ¬ w.reg = i := fun e => h (e.trans hi)
        simp [h, hi]
      · simp [h, hi]

theorem latestOf_age (n : Nat) (ws : List Writer) (regs : Tbl RegVal) (i : Nat) :
    latestOf (ageWriters n ws regs).1 (ageWriters n ws regs).2 i = latestOf ws regs i := by
  induction ws with
  | nil => rfl
  | cons w ws ih =>
    by_cases hn : w.need ≤ 1 + n
    · by_cases hd : w.dead = true
      · rw [latestOf_cons]
        simp only [ageWriters, hn, if_true, hd]
        simpa using ih
      · simp only [ageWriters, hn, if_true, hd, Bool.false_eq_true, if_false]
        rw [latestOf_kill, latestOf_cons, ih]
        by_cases h : i = w.reg
        · simp [h, hd]
        · have : ¬ w.reg = i := fun e => h e.symm
          simp [h, this]
    · simp only [ageWriters, hn, if_false]
      rw [latestOf_cons, latestOf_cons, ih]

/-- Aging changes no register's latest value (05 R109). -/
@[simp] theorem Thread.latest_age (t : Thread) (n i : Nat) : (t.age n).latest i = t.latest i := latestOf_age n t.writes t.regs i

@[simp] theorem Thread.latest_settle (t : Thread) (i : Nat) : t.settle.latest i = t.latest i := latestOf_age 64 t.writes t.regs i

/-- A writer without the cycle from which its value stands in the register bank. -/
def Writer.undated (w : Writer) : Nat × RegVal × Nat × Bool := (w.reg, w.val, w.need, w.dead)

/-- Aging looks at no date. -/
theorem ageWriters_undated (n : Nat) (ws ws' : List Writer) (regs : Tbl RegVal)
    (h : ws.map Writer.undated = ws'.map Writer.undated) :
    (ageWriters n ws regs).2 = (ageWriters n ws' regs).2 ∧
      (ageWriters n ws regs).1.map Writer.undated = (ageWriters n ws' regs).1.map Writer.undated := by
  induction ws generalizing ws' with
  | nil => cases ws' with
    | nil => exact ⟨rfl, rfl⟩
    | cons w ws' => simp at h
  | cons w ws ih =>
    cases ws' with
    | nil => simp at h
    | cons w' ws' =>
      simp only [List.map_cons, List.cons.injEq] at h
      obtain ⟨h1, h2⟩ := ih ws' h.2
      obtain ⟨hr, hv, hn, hd⟩ : w.reg = w'.reg ∧ w.val = w'.val ∧ w.need = w'.need ∧ w.dead = w'.dead := by
        simpa [Writer.undated] using h.1
      have hk : ∀ (l l' : List Writer), l.map Writer.undated = l'.map Writer.undated →
          (l.map fun x => if x.reg = w.reg then { x with dead := true } else x).map Writer.undated
            = (l'.map fun x => if x.reg = w.reg then { x with dead := true } else x).map Writer.undated := by
        intro l l' hl
        have : ∀ l : List Writer, (l.map fun x => if x.reg = w.reg then { x with dead := true } else x).map Writer.undated
            = (l.map Writer.undated).map fun y => if y.1 = w.reg then (y.1, y.2.1, y.2.2.1, true) else y := by
          intro l
          rw [List.map_map, List.map_map]
          refine List.map_congr_left fun x _ => ?_
          by_cases hx : x.reg = w.reg <;> simp [Writer.undated, hx]
        rw [this, this, hl]
      simp only [ageWriters, ← hr, ← hv, ← hn, ← hd]
      split
      · split
        · exact ⟨h1, h2⟩
        · exact ⟨by rw [h1], hk _ _ h2⟩
      · exact ⟨h1, by simp [h2, Writer.undated]⟩

theorem Thread.dated_undated (t : Thread) (c : Nat) : (t.dated c).writes.map Writer.undated = t.writes.map Writer.undated := by
  unfold Thread.dated
  rw [List.map_map]
  refine List.map_congr_left fun w _ => ?_
  simp only [Function.comp_apply]
  split <;> rfl

/-- Dating changes no register's latest value (05 R109). -/
@[simp] theorem Thread.latest_dated (t : Thread) (c i : Nat) : (t.dated c).latest i = t.latest i := by
  rw [Thread.latest_eq, Thread.latest_eq]
  have hreg : (t.dated c).regs = t.regs := rfl
  rw [hreg]
  have h : ∀ ws ws' : List Writer, ws.map Writer.undated = ws'.map Writer.undated → latestOf ws t.regs i = latestOf ws' t.regs i := by
    intro ws
    induction ws with
    | nil => intro ws' h; cases ws' <;> simp_all
    | cons w ws ih =>
      intro ws' h
      cases ws' with
      | nil => simp at h
      | cons w' ws' =>
        simp only [List.map_cons, List.cons.injEq] at h
        obtain ⟨hr, hv, _, hd⟩ : w.reg = w'.reg ∧ w.val = w'.val ∧ w.need = w'.need ∧ w.dead = w'.dead := by
          simpa [Writer.undated] using h.1
        rw [latestOf_cons, latestOf_cons, ih ws' h.2, hr, hv, hd]
  exact h _ _ (t.dated_undated c)

/-- Aging after dating gives each register what it holds without it, and leaves the same writers to come. -/
theorem Thread.dated_age (t : Thread) (c n i : Nat) :
    ((t.dated c).age n).reg i = (t.age n).reg i ∧ ((t.dated c).age n).early i = (t.age n).early i := by
  obtain ⟨h1, h2⟩ := ageWriters_undated n _ _ t.regs (t.dated_undated c)
  refine ⟨congrArg (fun r => Tbl.getD r i blankReg) h1, ?_⟩
  have : ∀ ws : List Writer, (ws.any fun w => w.reg == i) = (ws.map Writer.undated).any fun y => y.1 == i := by
    intro ws; rw [List.any_map]; rfl
  show ((ageWriters n (t.dated c).writes t.regs).1.any fun w => w.reg == i) = ((ageWriters n t.writes t.regs).1.any fun w => w.reg == i)
  rw [this, this, h2]

theorem Thread.latest_fixed (t : Thread) (r : Nat) (v : RegVal) (l i : Nat) :
    (t.fixed r v l).latest i = if i = r then v else t.latest i := by
  rw [Thread.latest_eq, Thread.latest_eq]
  show latestOf (⟨r, v, l, false, none⟩ :: t.writes) t.regs i = _
  rw [latestOf_cons]
  by_cases h : i = r
  · simp [h]
  · have : ¬ r = i := fun e => h e.symm
    simp [h, this]

theorem Thread.latest_commit (t : Thread) (r : Nat) (v : RegVal) (i : Nat) :
    (t.commit r v).latest i = if i = r then v else t.latest i := latestOf_kill t.writes t.regs r v i

/-- One register written by `putAll`. -/
def Thread.putOne (t : Thread) (r : Nat) (v : RegVal) (latency : Option Nat) : Thread :=
  match latency with
  | some l => t.fixed r v l
  | none => t.commit r v

theorem Thread.latest_putOne (t : Thread) (r : Nat) (v : RegVal) (l : Option Nat) (i : Nat) :
    (t.putOne r v l).latest i = if i = r then v else t.latest i := by
  cases l with
  | none => exact t.latest_commit r v i
  | some l => exact t.latest_fixed r v l i

theorem Thread.putAll_cons (t : Thread) (d : Nat) (v : RegVal) (rest : List RegVal) (l : Option Nat) :
    t.putAll d (v :: rest) l = (t.putOne (t.index d) v l).putAll (d + 1) rest l := by
  cases l <;> rfl

@[simp] theorem Thread.putAll_nil (t : Thread) (d : Nat) (l : Option Nat) : t.putAll d [] l = t := rfl

@[simp] theorem Thread.index_putOne (t : Thread) (r : Nat) (v : RegVal) (l : Option Nat) (n : Nat) :
    (t.putOne r v l).index n = t.index n := by cases l <;> rfl

/-- What a group of writes leaves alone: everything but registers, writers and the bank. -/
theorem Thread.putAll_frame (vs : List RegVal) (t : Thread) (d : Nat) (l : Option Nat) :
    t.putAll d vs l =
      { t with regs := (t.putAll d vs l).regs, writes := (t.putAll d vs l).writes, bank := (t.putAll d vs l).bank } := by
  induction vs generalizing t d with
  | nil => rfl
  | cons v vs ih =>
    rw [Thread.putAll_cons, ih]
    cases l <;> rfl

theorem Thread.index_putAll (t : Thread) (d : Nat) (vs : List RegVal) (l : Option Nat) (n : Nat) :
    (t.putAll d vs l).index n = t.index n := by
  rw [Thread.putAll_frame]; rfl

theorem Thread.latest_putAll_other (vs : List RegVal) (t : Thread) (d : Nat) (l : Option Nat) (r : Nat)
    (h : ∀ i < vs.length, r ≠ t.index (d + i)) : (t.putAll d vs l).latest r = t.latest r := by
  induction vs generalizing t d with
  | nil => rfl
  | cons v vs ih =>
    rw [Thread.putAll_cons, ih]
    · rw [Thread.latest_putOne, if_neg]
      exact h 0 (by simp)
    · intro i hi
      rw [Thread.index_putOne, show d + 1 + i = d + (i + 1) by omega]
      exact h (i + 1) (by simp; omega)

theorem Thread.latest_putAll_same (vs : List RegVal) (t : Thread) (d : Nat) (l : Option Nat) (i : Nat) (hi : i < vs.length)
    (h : ∀ j < vs.length, t.index (d + j) = t.index (d + i) → j = i) :
    (t.putAll d vs l).latest (t.index (d + i)) = vs.getD i blankReg := by
  induction vs generalizing t d i with
  | nil => simp at hi
  | cons v vs ih =>
    rw [Thread.putAll_cons]
    cases i with
    | zero =>
      rw [Thread.latest_putAll_other, Thread.latest_putOne]
      · simp
      · intro j hj
        rw [Thread.index_putOne, show d + 1 + j = d + (j + 1) by omega]
        intro e
        have := h (j + 1) (by simp; omega) e.symm
        omega
    | succ i =>
      have := ih (t.putOne (t.index d) v l) (d + 1) i (by simpa using hi) (by
        intro j hj e
        rw [Thread.index_putOne, Thread.index_putOne, show d + 1 + j = d + (j + 1) by omega,
          show d + 1 + i = d + (i + 1) by omega] at e
        have := h (j + 1) (by simp; omega) e
        omega)
      rw [Thread.index_putOne, show d + 1 + i = d + (i + 1) by omega] at this
      rw [this]; rfl

/-- An early register: some writer of it stands. -/
theorem ageWriters_early (n : Nat) (ws : List Writer) (regs : Tbl RegVal) (i : Nat)
    (h : ∃ w ∈ ws, w.reg = i ∧ 1 + n < w.need) : (ageWriters n ws regs).1.any (fun w => w.reg == i) = true := by
  induction ws with
  | nil => simp at h
  | cons w ws ih =>
    by_cases hn : w.need ≤ 1 + n
    · have hex : ∃ w ∈ ws, w.reg = i ∧ 1 + n < w.need := by
        obtain ⟨x, hx, hr, hl⟩ := h
        rcases List.mem_cons.mp hx with rfl | hx
        · omega
        · exact ⟨x, hx, hr, hl⟩
      have := ih hex
      by_cases hd : w.dead = true
      · simpa only [ageWriters, hn, if_true, hd] using this
      · simp only [ageWriters, hn, if_true, hd, Bool.false_eq_true, if_false, List.any_map]
        rw [List.any_eq_true] at this ⊢
        obtain ⟨x, hx, hr⟩ := this
        refine ⟨x, hx, ?_⟩
        by_cases e : x.reg = w.reg <;> simp [e] <;> simpa [e] using hr
    · by_cases hr : w.reg = i
      · simp [ageWriters, hn, hr]
      · have hex : ∃ w ∈ ws, w.reg = i ∧ 1 + n < w.need := by
          obtain ⟨x, hx, h1, h2⟩ := h
          rcases List.mem_cons.mp hx with rfl | hx
          · exact absurd h1 hr
          · exact ⟨x, hx, h1, h2⟩
        simp only [ageWriters, hn, if_false, List.any_cons, ih hex, Bool.or_true]

/-- Once every later writer of a register has elapsed, a read gives its latest value. -/
theorem ageWriters_reg (n : Nat) (ws : List Writer) (regs : Tbl RegVal) (i : Nat)
    (h : ∃ pre w post, ws = pre ++ w :: post ∧ w.reg = i ∧ w.dead = false ∧ w.need ≤ 1 + n ∧ ∀ x ∈ pre, x.reg = i → x.need ≤ 1 + n) :
    (ageWriters n ws regs).2.getD i blankReg = latestOf ws regs i ∧
      ∀ x ∈ (ageWriters n ws regs).1, x.reg = i → x.dead = true := by
  obtain ⟨pre, w, post, rfl, hr, hd, hn, hp⟩ := h
  have key : ∀ x ∈ (ageWriters n (pre ++ w :: post) regs).1, x.reg = i → x.dead = true := by
    induction pre with
    | nil =>
      simp only [List.nil_append, ageWriters, hn, if_true, hd, Bool.false_eq_true, if_false]
      intro x hx hxi
      rw [List.mem_map] at hx
      obtain ⟨y, hy, rfl⟩ := hx
      by_cases e : y.reg = w.reg
      · simp [e]
      · simp only [e, if_false] at hxi; exact absurd (hxi.trans hr.symm) e
    | cons p pre ih =>
      have ih := ih (fun x hx => hp x (by simp [hx]))
      simp only [List.cons_append]
      by_cases hpn : p.need ≤ 1 + n
      · by_cases hpd : p.dead = true
        · simpa only [ageWriters, hpn, if_true, hpd] using ih
        · simp only [ageWriters, hpn, if_true, hpd, Bool.false_eq_true, if_false]
          intro x hx hxi
          rw [List.mem_map] at hx
          obtain ⟨y, hy, rfl⟩ := hx
          by_cases e : y.reg = p.reg
          · simp [e]
          · simp only [e, if_false] at hxi ⊢; exact ih y hy hxi
      · simp only [ageWriters, hpn, if_false]
        intro x hx hxi
        rcases List.mem_cons.mp hx with rfl | hx
        · exact absurd (hp p (by simp) hxi) hpn
        · exact ih x hx hxi
  refine ⟨?_, key⟩
  rw [← latestOf_age n]
  unfold latestOf
  rw [List.find?_eq_none.mpr]
  intro x hx
  by_cases e : x.reg = i
  · simp [e, key x hx e]
  · simp [e]

/-- A register whose writers are all overtaken keeps its value as they elapse. -/
theorem ageWriters_dead (n : Nat) (ws : List Writer) (regs : Tbl RegVal) (i : Nat) (h : ∀ x ∈ ws, x.reg = i → x.dead = true) :
    (ageWriters n ws regs).2.getD i blankReg = regs.getD i blankReg := by
  induction ws with
  | nil => rfl
  | cons w ws ih =>
    have ih := ih (fun x hx => h x (by simp [hx]))
    by_cases hn : w.need ≤ 1 + n
    · by_cases hd : w.dead = true
      · simpa only [ageWriters, hn, if_true, hd] using ih
      · simp only [ageWriters, hn, if_true, hd, Bool.false_eq_true, if_false]
        rw [Tbl.getD_putD, if_neg, ih]
        intro e
        exact hd (h w (by simp) e.symm)
    · simpa only [ageWriters, hn, if_false] using ih

theorem ageWriters_stays_dead (n : Nat) (ws : List Writer) (regs : Tbl RegVal) (i : Nat) (h : ∀ x ∈ ws, x.reg = i → x.dead = true) :
    ∀ x ∈ (ageWriters n ws regs).1, x.reg = i → x.dead = true := by
  induction ws with
  | nil => simp [ageWriters]
  | cons w ws ih =>
    have ih := ih (fun x hx => h x (by simp [hx]))
    by_cases hn : w.need ≤ 1 + n
    · by_cases hd : w.dead = true
      · simpa only [ageWriters, hn, if_true, hd] using ih
      · simp only [ageWriters, hn, if_true, hd, Bool.false_eq_true, if_false]
        intro x hx hxi
        rw [List.mem_map] at hx
        obtain ⟨y, hy, rfl⟩ := hx
        by_cases e : y.reg = w.reg
        · simp [e]
        · simp only [e, if_false] at hxi ⊢; exact ih y hy hxi
    · simp only [ageWriters, hn, if_false]
      intro x hx hxi
      rcases List.mem_cons.mp hx with rfl | hx
      · exact h w (by simp) hxi
      · exact ih x hx hxi

theorem latestOf_dead (ws : List Writer) (regs : Tbl RegVal) (i : Nat) (h : ∀ x ∈ ws, x.reg = i → x.dead = true) :
    latestOf ws regs i = regs.getD i blankReg := by
  unfold latestOf
  rw [List.find?_eq_none.mpr]
  intro x hx
  by_cases e : x.reg = i
  · simp [e, h x hx e]
  · simp [e]

/-- The writers that a fixed-latency group of writes adds. -/
theorem Thread.putAll_writes (vs : List RegVal) (t : Thread) (d l : Nat) :
    ∃ pre, (t.putAll d vs (some l)).writes = pre ++ t.writes ∧ (∀ x ∈ pre, x.need = l ∧ x.dead = false) ∧
      ∀ i < vs.length, ∃ x ∈ pre, x.reg = t.index (d + i) := by
  induction vs generalizing t d with
  | nil => exact ⟨[], rfl, by simp, by simp⟩
  | cons v vs ih =>
    obtain ⟨pre, h1, h2, h3⟩ := ih (t.putOne (t.index d) v (some l)) (d + 1)
    refine ⟨pre ++ [⟨t.index d, v, l, false, none⟩], ?_, ?_, ?_⟩
    · rw [Thread.putAll_cons, h1]; simp [Thread.putOne, Thread.fixed]
    · intro x hx
      rcases List.mem_append.mp hx with hx | hx
      · exact h2 x hx
      · simp at hx; subst hx; exact ⟨rfl, rfl⟩
    · intro i hi
      cases i with
      | zero => exact ⟨⟨t.index d, v, l, false, none⟩, by simp, rfl⟩
      | succ i =>
        obtain ⟨x, hx, hr⟩ := h3 i (by simpa using hi)
        refine ⟨x, by simp [hx], ?_⟩
        rw [hr, Thread.index_putOne, show d + 1 + i = d + (i + 1) by omega]

/-- After a group of writes at once, every writer of its registers is overtaken. -/
theorem Thread.putAll_none_dead (vs : List RegVal) (t : Thread) (d : Nat) :
    (∀ x ∈ (t.putAll d vs none).writes, ∀ i < vs.length, x.reg = t.index (d + i) → x.dead = true) ∧
      ∀ r, (∀ x ∈ t.writes, x.reg = r → x.dead = true) → ∀ x ∈ (t.putAll d vs none).writes, x.reg = r → x.dead = true := by
  induction vs generalizing t d with
  | nil => exact ⟨by simp, fun r h => h⟩
  | cons v vs ih =>
    rw [Thread.putAll_cons]
    obtain ⟨h1, h2⟩ := ih (t.putOne (t.index d) v none) (d + 1)
    have kill : ∀ r, (r = t.index d ∨ ∀ x ∈ t.writes, x.reg = r → x.dead = true) →
        ∀ x ∈ (t.putOne (t.index d) v none).writes, x.reg = r → x.dead = true := by
      intro r hr x hx hxr
      simp only [Thread.putOne, Thread.commit, List.mem_map] at hx
      obtain ⟨y, hy, rfl⟩ := hx
      by_cases e : y.reg = t.index d
      · simp [e]
      · simp only [e, if_false] at hxr ⊢
        rcases hr with hr | hr
        · exact absurd (hxr.trans hr) e
        · exact hr y hy hxr
    constructor
    · intro x hx i hi hxr
      cases i with
      | zero => exact h2 (t.index d) (kill _ (Or.inl rfl)) x hx hxr
      | succ i =>
        refine h1 x hx i (by simpa using hi) ?_
        rw [Thread.index_putOne, hxr, show d + 1 + i = d + (i + 1) by omega]
    · intro r hr x hx hxr
      exact h2 r (kill r (Or.inr hr)) x hx hxr

/-- Writers that have all elapsed leave every register at its latest value. -/
theorem ageWriters_all (n : Nat) (ws : List Writer) (regs : Tbl RegVal) (h : ∀ w ∈ ws, w.need ≤ 1 + n) :
    (ageWriters n ws regs).1 = [] := by
  induction ws with
  | nil => rfl
  | cons w ws ih =>
    have ih := ih (fun x hx => h x (by simp [hx]))
    have hn := h w (by simp)
    by_cases hd : w.dead = true
    · simp only [ageWriters, hn, if_true, hd, ih]
    · simp only [ageWriters, hn, if_true, hd, Bool.false_eq_true, if_false, ih, List.map_nil]

theorem Thread.settle_reg (t : Thread) (h : ∀ w ∈ t.writes, w.need ≤ 65) (r : Nat) : t.settle.reg r = t.latest r := by
  rw [← t.latest_settle r, Thread.latest_eq]
  have : t.settle.writes = [] := ageWriters_all 64 _ _ (by simpa using h)
  rw [this]; rfl

/-- When the registers of a group of writes can be read (05 R106, R107). -/
theorem Thread.putAll_timed (t : Thread) (d : Nat) (vs : List RegVal) (l : Option Nat) (n i : Nat) (hi : i < vs.length) :
    (l.getD 0 ≤ 1 + n → ((t.putAll d vs l).age n).reg (t.index (d + i)) = (t.putAll d vs l).latest (t.index (d + i))) ∧
      (1 + n < l.getD 0 → ((t.putAll d vs l).age n).early (t.index (d + i)) = true) := by
  cases l with
  | none =>
    refine ⟨fun _ => ?_, fun h => absurd h (by simp)⟩
    have hd : ∀ x ∈ (t.putAll d vs none).writes, x.reg = t.index (d + i) → x.dead = true :=
      fun x hx hr => (Thread.putAll_none_dead vs t d).1 x hx i hi hr
    rw [Thread.latest_eq, latestOf_dead _ _ _ hd]
    exact ageWriters_dead n _ _ _ hd
  | some l =>
    obtain ⟨pre, h1, h2, h3⟩ := Thread.putAll_writes vs t d l
    obtain ⟨x, hx, hr⟩ := h3 i hi
    obtain ⟨p1, p2, rfl⟩ := List.append_of_mem hx
    constructor
    · intro hl
      have hl : l ≤ 1 + n := hl
      refine (ageWriters_reg n _ _ _ ⟨p1, x, p2 ++ t.writes, by rw [h1]; simp, hr, (h2 x hx).2, by rw [(h2 x hx).1]; exact hl, ?_⟩).1
      intro y hy _
      rw [(h2 y (by simp [hy])).1]; exact hl
    · intro hl
      exact ageWriters_early n _ _ _ ⟨x, by rw [h1]; simp, hr, by rw [(h2 x hx).1]; exact hl⟩

/-- A readable instruction takes effect at once. -/
theorem Readable.finishes {s : State} {is : Issue} {t : Thread} {srcs : List Src} {dst : List (Nat × Nat)}
    {vals : List (List RegVal)} (h : Readable s is t srcs dst vals) (u : Thread) (d : Nat) (r : List RegVal) (l : Option Nat) :
    finishOp s is t srcs u d r l = (u.putAll d r l, .next) := by
  unfold finishOp; rw [h.arrived]

/-- The checks of `operands` pass for what `Readable` describes. -/
theorem Readable.operands {s : State} {is : Issue} {t : Thread} {srcs : List Src} {dst : List (Nat × Nat)}
    {vals : List (List RegVal)} (h : Readable s is t srcs dst vals) : operands s is.members t srcs dst = .ok vals := by
  unfold Machine.operands
  have h1 : ((srcs.filter fun o => o.pat == .own).all fun o => (List.range o.n).all fun i => t.inRange (o.name + i)) = true := by
    simp only [List.all_eq_true, List.mem_filter, List.mem_range, beq_iff_eq]
    exact fun o ho i hi => h.sources o ho.1 ho.2 i hi
  have h2 : (dst.all fun (r, n) => (List.range n).all fun i => t.inRange (r + i)) = true := by
    simp only [List.all_eq_true, List.mem_range]
    exact fun p hp i hi => h.dests p hp i hi
  have h3 : (dst.any fun (r, n) => (List.range n).any fun i => t.pending (t.index (r + i))) = false := by
    simp only [List.any_eq_false, List.any_eq_true, List.mem_range, not_exists, not_and]
    intro p hp i hi
    simp [h.free p hp i hi]
  have h4 : ((srcs.zip vals).all fun (o, vs) => vs.all fun v => tagPasses o.tags v.2) = true := by
    simp only [List.all_eq_true]
    exact fun p hp v hv => h.tags p hp v hv
  have h5 : (t.check && (srcs.filter fun o => o.pat == .own).any fun o => (List.range o.n).any fun i => t.early (t.index (o.name + i)))
      = false := by
    by_cases hc : t.check = true
    · simp only [hc, Bool.true_and, List.any_eq_false, List.any_eq_true, List.mem_range, List.mem_filter, beq_iff_eq, not_exists,
        not_and]
      intro o ho i hi
      simp [h.spaced hc o ho.1 ho.2 i hi]
    · simp [hc]
  simp only [h1, h2, h3, h.reads, h4, h5, Bool.not_true, Bool.false_eq_true, if_false]

/-- The checks that concern sources alone. -/
theorem Readable.operands_nil {s : State} {is : Issue} {t : Thread} {srcs : List Src} {dst : List (Nat × Nat)}
    {vals : List (List RegVal)} (h : Readable s is t srcs dst vals) : Machine.operands s is.members t srcs [] = .ok vals :=
  Readable.operands ⟨h.sources, by simp, by simp, h.reads, h.arrived, h.tags, h.spaced⟩

theorem mapM_forall₂ {α β : Type} (f : α → Option β) (l : List α) (l' : List β) (h : l.mapM f = some l') :
    List.Forall₂ (fun a b => f a = some b) l l' := by
  induction l generalizing l' with
  | nil => simp at h; subst h; exact .nil
  | cons a l ih =>
    simp only [List.mapM_cons, Option.bind_eq_bind, Option.bind_eq_some_iff, Option.pure_def, Option.some.injEq] at h
    obtain ⟨b, hb, bs, hbs, rfl⟩ := h
    exact .cons hb (ih bs hbs)

/-- Each source reads as many registers as it names. -/
theorem Readable.shape {s : State} {is : Issue} {t : Thread} {srcs : List Src} {dst : List (Nat × Nat)}
    {vals : List (List RegVal)} (h : Readable s is t srcs dst vals) : List.Forall₂ (fun o vs => vs.length = o.n) srcs vals := by
  refine (mapM_forall₂ _ _ _ h.reads).imp ?_
  intro o vs ho
  have := (mapM_forall₂ _ _ _ ho).length_eq
  simpa using this.symm

theorem Readable.shape1 {s : State} {is : Issue} {t : Thread} {o : Src} {dst : List (Nat × Nat)}
    {vals : List (List RegVal)} (h : Readable s is t [o] dst vals) : ∃ x, vals = [x] ∧ x.length = o.n := by
  have := h.shape
  cases this with | cons h1 h2 => cases h2; exact ⟨_, rfl, h1⟩

theorem Readable.shape2 {s : State} {is : Issue} {t : Thread} {o p : Src} {dst : List (Nat × Nat)}
    {vals : List (List RegVal)} (h : Readable s is t [o, p] dst vals) :
    ∃ x y, vals = [x, y] ∧ x.length = o.n ∧ y.length = p.n := by
  have := h.shape
  cases this with | cons h1 h2 => cases h2 with | cons h2 h3 => cases h3; exact ⟨_, _, rfl, h1, h2⟩

theorem groupNat_lt (l : List RegVal) : groupNat l < 2 ^ (32 * l.length) := by
  induction l with
  | nil => simp [groupNat]
  | cons r l ih =>
    simp only [groupNat, List.length_cons]
    have h1 := r.1.isLt
    rw [show 32 * (l.length + 1) = 32 + 32 * l.length by ring, Nat.pow_add]
    calc r.1.toNat + 2 ^ 32 * groupNat l < 2 ^ 32 + 2 ^ 32 * groupNat l := by omega
      _ = 2 ^ 32 * (groupNat l + 1) := by ring
      _ ≤ 2 ^ 32 * 2 ^ (32 * l.length) := Nat.mul_le_mul_left _ ih

@[simp] theorem splitRegs_length (n v : Nat) (t : Tag) : (splitRegs n v t).length = n := by
  induction n generalizing v with
  | zero => rfl
  | succ n ih => simp [splitRegs, ih]

theorem splitRegs_tag (n v : Nat) (t : Tag) : ∀ r ∈ splitRegs n v t, r.2 = t := by
  induction n generalizing v with
  | zero => simp [splitRegs]
  | succ n ih =>
    intro r hr
    rcases List.mem_cons.mp hr with rfl | hr
    · rfl
    · exact ih _ r hr

/-- A value split over registers is read back, up to their width. -/
theorem groupNat_splitRegs (n v : Nat) (t : Tag) : groupNat (splitRegs n v t) = v % 2 ^ (32 * n) := by
  induction n generalizing v with
  | zero => simp [splitRegs, groupNat, Nat.mod_one]
  | succ n ih =>
    simp only [splitRegs, groupNat, ih, BitVec.toNat_ofNat]
    rw [show 32 * (n + 1) = 32 + 32 * n by ring, Nat.pow_add, Nat.mod_mul]

theorem Readable.unique {s : State} {is : Issue} {t : Thread} {srcs : List Src} {dst : List (Nat × Nat)}
    {v w : List (List RegVal)} (h : Readable s is t srcs dst v) (h' : Readable s is t srcs dst w) : v = w := by
  have := h.reads.symm.trans h'.reads; simpa using this

end Sys2Proof.Machine
end

