-- ==== Sys2Proof/Laws/Group.lean ====
section
/-! SUPPORT. Laws of issue groups: what the running of a group does, for instructions that change only their threads and for
a thread issued alone. -/

namespace Sys2Proof.Machine

/-- A member's thread after an instruction that goes on. -/
theorem onThread_get (s : State) (k j : FrameRef) (f : Thread → Thread) :
    (s.onThread k f).threads.get j = if j = k then (s.threads.get j).map f else s.threads.get j :=
  Tbl.get_update s.threads k j f

@[simp] theorem onThread_get_same (s : State) (k : FrameRef) (f : Thread → Thread) :
    (s.onThread k f).threads.get k = (s.threads.get k).map f := by simp [onThread_get]

theorem onThread_get_other (s : State) (k j : FrameRef) (f : Thread → Thread) (h : j ≠ k) :
    (s.onThread k f).threads.get j = s.threads.get j := by simp [onThread_get, h]

/-- A group executing an instruction that changes only its own threads, and holds none. -/
theorem runMembers_threadOp (f : State → Issue → FrameRef → Thread → Except Stop (Thread × Go)) (s : State) (is : Issue)
    (out : FrameRef → Thread → Thread × Go) (ks : List FrameRef) :
    ks.Nodup →
    (∀ k ∈ ks, ∃ t, s.threads.get k = some t ∧ f s is k t = .ok (out k t) ∧ (out k t).2 ≠ .stay) →
    ∀ acc : State, (∀ k ∈ ks, acc.threads.get k = s.threads.get k) →
    ∃ acc', runMembers (threadOp f) s is ks acc = .ok acc' ∧ acc' = { acc with threads := acc'.threads } ∧
      (∀ k, k ∉ ks → acc'.threads.get k = acc.threads.get k) ∧
      ∀ k ∈ ks, ∀ t, s.threads.get k = some t → acc'.threads.get k = some (retire is s.cycle (out k t).2 (out k t).1) := by
  induction ks with
  | nil => intro _ _ acc _; exact ⟨acc, rfl, rfl, fun _ _ => rfl, by simp⟩
  | cons k ks ih =>
    intro hn hk acc ha
    obtain ⟨t, ht, hf, hgo⟩ := hk k (by simp)
    have hn' := List.nodup_cons.mp hn
    let acc1 := (acc.onThread k fun _ => (out k t).1).onThread k (retire is s.cycle (out k t).2)
    obtain ⟨acc', h1, h2, h3, h4⟩ := ih hn'.2 (fun j hj => hk j (by simp [hj])) acc1 (by
      intro j hj
      have hjk : j ≠ k := fun e => hn'.1 (e ▸ hj)
      simp only [acc1, onThread_get_other _ _ _ _ hjk]
      exact ha j (by simp [hj]))
    refine ⟨acc', ?_, ?_, ?_, ?_⟩
    · rw [← h1]
      simp only [runMembers, ha k (by simp), ht, threadOp, hf, acc1]
      simp [hgo]
    · rw [h2]; rfl
    · intro j hj
      have hjk : j ≠ k := fun e => hj (by simp [e])
      rw [h3 j (fun h => hj (by simp [h]))]
      simp only [acc1, onThread_get_other _ _ _ _ hjk]
    · intro j hj u hu
      rcases List.mem_cons.mp hj with rfl | hj
      · rw [h3 j hn'.1]
        rw [ht] at hu; cases hu
        simp [acc1, ha j (by simp), ht]
      · exact h4 j hj u hu

/-- What an issue group does with an instruction that changes only its own threads and holds none. -/
theorem runGroup_threadOp {s : State} {is : Issue} (h : Issuing s is)
    (f : State → Issue → FrameRef → Thread → Except Stop (Thread × Go)) (out : FrameRef → Thread → Thread × Go)
    (hf : ∀ k ∈ is.members, ∀ t, s.threads.get k = some t → f s is k t = .ok (out k t) ∧ (out k t).2 ≠ .stay) :
    ∃ s', runGroup (threadOp f) s = .next s' ∧ OnlyGroup s s' is ∧
      ∀ k ∈ is.members, ∀ t, s.threads.get k = some t → s'.threads.get k = some (retire is s.cycle (out k t).2 (out k t).1) := by
  obtain ⟨acc', h1, h2, h3, h4⟩ := runMembers_threadOp f s is out is.members h.distinct (fun k hk => by
    obtain ⟨t, ht⟩ := h.placed k hk
    exact ⟨t, ht, hf k hk t ht⟩) s (fun _ _ => rfl)
  refine ⟨{ acc' with issue := none }, ?_, ⟨?_, h3⟩, h4⟩
  · simp only [runGroup, h.inHand, h1]
  · rw [h2]

/-- Where a member goes. -/
def Go.target (is : Issue) : Go → Nat
  | .jump x => x
  | _ => nextPc is.inst

theorem GoesTo.retire (s : State) (is : Issue) (t v : Thread) (go : Go) (d : Nat) (vs : List RegVal) (l : Option Nat)
    (hgo : go ≠ .stay) (h : ∃ r w p, v = { t with regs := r, writes := w, pc := p }) :
    GoesTo s is t (go == .yield) (go.target is) (retire is s.cycle go (v.putAll d vs l)) := by
  obtain ⟨r, w, p, rfl⟩ := h
  obtain ⟨r, w, b, e⟩ : ∃ r' w' b', ({ t with regs := r, writes := w, pc := p } : Thread).putAll d vs l
      = { t with regs := r', writes := w', bank := b', pc := p } :=
    ⟨_, _, _, Thread.putAll_frame vs _ d l⟩
  rw [e]
  unfold GoesTo Machine.retire Thread.age Thread.dated
  cases go with
  | next => simp [Go.target]
  | jump x => simp [Go.target]
  | yield => simp [Go.target]
  | stay => exact absurd rfl hgo

/-- An instruction whose meaning changes its own thread to `base`, up to elapsed writers what its effect says, and then writes
a group of registers by `putAll`, does what its effect says. -/
theorem Does.ofBase {i : Instr} {e : Effect} (f : State → Issue → FrameRef → Thread → Except Stop (Thread × Go))
    (base : State → Issue → FrameRef → Thread → List (List RegVal) → Thread)
    (value : State → Issue → FrameRef → Thread → List (List RegVal) → List RegVal)
    (go : State → Issue → FrameRef → Thread → List (List RegVal) → Go)
    (hexec : ∀ s, exec i s = runGroup (threadOp f) s)
    (hf : ∀ s is k t vals, s.threads.get k = some t → e.ready s is k t vals → Readable s is t e.srcs [(e.dest, e.regs)] vals →
      f s is k t = .ok ((base s is k t vals).putAll e.dest (value s is k t vals) e.latency, go s is k t vals))
    (hgo : ∀ s is k t vals, e.ready s is k t vals → Readable s is t e.srcs [(e.dest, e.regs)] vals →
      go s is k t vals ≠ .stay ∧ (go s is k t vals == .yield) = e.yields ∧ (go s is k t vals).target is = e.pc s is k t vals)
    (hlen : ∀ s is k t vals, Readable s is t e.srcs [(e.dest, e.regs)] vals → (value s is k t vals).length = e.regs)
    (hres : ∀ s is k t vals, e.ready s is k t vals → Readable s is t e.srcs [(e.dest, e.regs)] vals →
      e.result s is k t vals (value s is k t vals))
    (hbase : ∀ s is k t vals, (∃ r w p, base s is k t vals = { e.thread s is k t vals with regs := r, writes := w, pc := p }) ∧
      (∀ r, (base s is k t vals).latest r = t.latest r) ∧ (0 < e.regs → ∀ m, (base s is k t vals).index m = t.index m)) :
    Does i e := by
  intro s is his hall
  let vals (t : Thread) : List (List RegVal) := ((e.srcs.mapM (readGroup s is.members t)).getD [])
  have hv : ∀ t w, Readable s is t e.srcs [(e.dest, e.regs)] w → vals t = w := by
    intro t w hw; simp [vals, hw.reads]
  obtain ⟨s', h1, h2, h3⟩ := runGroup_threadOp his f
    (fun k t => ((base s is k t (vals t)).putAll e.dest (value s is k t (vals t)) e.latency, go s is k t (vals t))) (by
      intro k hk t ht
      obtain ⟨w, hw, hr⟩ := hall k hk t ht
      rw [hv t w hw]
      exact ⟨hf s is k t w ht hr hw, (hgo s is k t w hr hw).1⟩)
  refine ⟨s', by rw [hexec, h1], h2, ?_⟩
  intro k hk t w ht hw
  obtain ⟨w', hw', hr⟩ := hall k hk t ht
  cases hw.unique hw'
  have h4 := h3 k hk t ht
  rw [hv t w hw] at h4
  have hl := hlen s is k t w hw
  obtain ⟨hg1, hg2, hg3⟩ := hgo s is k t w hr hw
  obtain ⟨hb, hlat, hidx⟩ := hbase s is k t w
  refine ⟨_, value s is k t w, h4, hres s is k t w hr hw, ?_, ⟨hl, ?_, ?_⟩, ?_⟩
  · have := GoesTo.retire s is (e.thread s is k t w) (base s is k t w) (go s is k t w) e.dest (value s is k t w) e.latency hg1 hb
    rwa [hg2, hg3] at this
  · intro j hj hinj
    show Thread.latest (Thread.age (Thread.dated _ _) _) _ = _
    have hi := hidx (by omega)
    rw [Thread.latest_age, Thread.latest_dated, ← hi, Thread.latest_putAll_same _ _ _ _ _ (by omega)]
    intro m hm he
    rw [hi, hi] at he
    exact hinj m (by omega) he
  · intro r hr'
    show Thread.latest (Thread.age (Thread.dated _ _) _) _ = _
    rw [Thread.latest_age, Thread.latest_dated, Thread.latest_putAll_other, hlat]
    intro m hm; rw [hidx (by omega)]; exact hr' m (by omega)
  · intro j hj
    have := Thread.putAll_timed (base s is k t w) e.dest (value s is k t w) e.latency is.stall j (by omega)
    rw [hidx (by omega)] at this
    have hd := Thread.dated_age ((base s is k t w).putAll e.dest (value s is k t w) e.latency) s.cycle is.stall (t.index (e.dest + j))
    refine ⟨fun h => ?_, fun h => hd.2.trans (this.2 h)⟩
    show Thread.reg (Thread.age (Thread.dated _ _) _) _ = Thread.latest (Thread.age (Thread.dated _ _) _) _
    rw [Thread.latest_age, Thread.latest_dated]; exact hd.1.trans (this.1 h)

/-- The case in which no writer elapses before the instruction's own. -/
theorem Does.of {i : Instr} {e : Effect} (f : State → Issue → FrameRef → Thread → Except Stop (Thread × Go))
    (value : State → Issue → FrameRef → Thread → List (List RegVal) → List RegVal)
    (go : State → Issue → FrameRef → Thread → List (List RegVal) → Go)
    (hexec : ∀ s, exec i s = runGroup (threadOp f) s)
    (hf : ∀ s is k t vals, s.threads.get k = some t → e.ready s is k t vals → Readable s is t e.srcs [(e.dest, e.regs)] vals →
      f s is k t = .ok ((e.thread s is k t vals).putAll e.dest (value s is k t vals) e.latency, go s is k t vals))
    (hgo : ∀ s is k t vals, e.ready s is k t vals → Readable s is t e.srcs [(e.dest, e.regs)] vals →
      go s is k t vals ≠ .stay ∧ (go s is k t vals == .yield) = e.yields ∧ (go s is k t vals).target is = e.pc s is k t vals)
    (hlen : ∀ s is k t vals, Readable s is t e.srcs [(e.dest, e.regs)] vals → (value s is k t vals).length = e.regs)
    (hres : ∀ s is k t vals, e.ready s is k t vals → Readable s is t e.srcs [(e.dest, e.regs)] vals →
      e.result s is k t vals (value s is k t vals))
    (hthread : ∀ s is k t vals, (∀ r, (e.thread s is k t vals).latest r = t.latest r) ∧
      (0 < e.regs → ∀ m, (e.thread s is k t vals).index m = t.index m)) :
    Does i e :=
  Does.ofBase f e.thread value go hexec hf hgo hlen hres fun s is k t vals => ⟨⟨_, _, _, rfl⟩, hthread s is k t vals⟩

/-- The case of `regOp`. -/
theorem Computes.ofRegOp {i : Instr} {srcs : List Src} {d n : Nat} {latency : Option Nat}
    {result : State → Issue → FrameRef → Thread → List (List RegVal) → List RegVal → Prop}
    (value : State → FrameRef → Thread → List (List RegVal) → List RegVal)
    (hexec : ∀ s, exec i s = runGroup (regOp srcs d n latency value) s)
    (hlen : ∀ s is k t vals, Readable s is t srcs [(d, n)] vals → (value s k t vals).length = n)
    (hres : ∀ s is k t vals, Readable s is t srcs [(d, n)] vals → result s is k t vals (value s k t vals)) :
    Computes i srcs d n latency result := by
  refine Does.of _ (fun s _ k t v => value s k t v) (fun _ _ _ _ _ => .next) hexec ?_ ?_ hlen
    (fun s is k t v _ h => hres s is k t v h) ?_
  · intro s is k t vals _ _ h
    simp [h.operands, h.finishes]
  · intro s is k t vals _ _; exact ⟨by simp, rfl, rfl⟩
  · intro s is k t vals; exact ⟨fun _ => rfl, fun _ _ => rfl⟩

/-- The case of `regOpE` whose own failure cases do not arise. -/
theorem Does.ofRegOpE {i : Instr} {srcs : List Src} {d n : Nat} {latency : Option Nat}
    {result : State → Issue → FrameRef → Thread → List (List RegVal) → List RegVal → Prop}
    {ready : State → Issue → FrameRef → Thread → List (List RegVal) → Prop}
    (body : State → FrameRef → Thread → List (List RegVal) → Except Stop (List RegVal))
    (value : State → FrameRef → Thread → List (List RegVal) → List RegVal)
    (hexec : ∀ s, exec i s = runGroup (regOpE srcs d n latency (fun _ _ => true) body) s)
    (hbody : ∀ s is k t vals, ready s is k t vals → Readable s is t srcs [(d, n)] vals → body s k t vals = .ok (value s k t vals))
    (hlen : ∀ s is k t vals, Readable s is t srcs [(d, n)] vals → (value s k t vals).length = n)
    (hres : ∀ s is k t vals, ready s is k t vals → Readable s is t srcs [(d, n)] vals → result s is k t vals (value s k t vals)) :
    Does i { srcs := srcs, dest := d, regs := n, latency := latency, result := result, ready := ready } := by
  refine Does.of _ (fun s _ k t v => value s k t v) (fun _ _ _ _ _ => .next) hexec ?_ ?_ hlen hres ?_
  · intro s is k t vals _ hr h
    simp [h.operands, hbody s is k t vals hr h]
  · intro s is k t vals _ _; exact ⟨by simp, rfl, rfl⟩
  · intro s is k t vals; exact ⟨fun _ => rfl, fun _ _ => rfl⟩

/-- The running of a thread issued alone, whose part of the instruction is done. -/
theorem runGroup_alone {s : State} {is : Issue} {k : FrameRef} {t : Thread} (h : Alone s is k t) (f : Member) (acc : State) (go : Go)
    (hf : f s is k t s = .ok (acc, go)) :
    runGroup f s = .next { (if go = .stay then acc else acc.onThread k (retire is s.cycle go)) with issue := none } := by
  simp only [runGroup, h.inHand, h.members, runMembers, h.thread, hf]

/-- The running of a thread issued alone, which stops. -/
theorem runGroup_alone_stop {s : State} {is : Issue} {k : FrameRef} {t : Thread} (h : Alone s is k t) (f : Member) (e : Stop)
    (acc : State) (hf : f s is k t s = .error e) (he : s.stopMember is k e = .ok acc) :
    runGroup f s = .next { acc with issue := none } := by
  simp only [runGroup, h.inHand, h.members, runMembers, h.thread, hf, he]

theorem Alone.issuing {s : State} {is : Issue} {k : FrameRef} {t : Thread} (h : Alone s is k t) : Issuing s is := by
  refine ⟨h.inHand, by simp [h.members], ?_⟩
  intro j hj
  rw [h.members] at hj
  simp at hj; subst hj
  exact ⟨t, h.thread⟩

end Sys2Proof.Machine
end

