-- ==== Sys2Proof/Laws/Memory.lean ====
section
/-! SUPPORT. Laws of caches, places and counters: an operation on them changes only memory, cores, clusters, dies, outputs and
the bookkeeping of pages; and it keeps the canonical form of the memory. -/

namespace Sys2Proof.Machine

/-- s' differs from s at most in memory, uncorrectable bytes, cores, clusters, dies, outputs, access bits and free values;
and if s's memory is canonical, so is that of s'. -/
def Below (s s' : State) : Prop :=
  (∃ mem poison cores clusters dies outputs access free,
    s' = { s with mem := mem, poison := poison, cores := cores, clusters := clusters, dies := dies, outputs := outputs,
                  access := access, free := free }) ∧
  (Memory.wf s.mem = true → Memory.wf s'.mem = true)

theorem Below.refl (s : State) : Below s s := ⟨⟨_, _, _, _, _, _, _, _, rfl⟩, id⟩

theorem Below.trans {a b c : State} (h : Below a b) (h' : Below b c) : Below a c := by
  obtain ⟨⟨_, _, _, _, _, _, _, _, rfl⟩, h1⟩ := h
  obtain ⟨⟨_, _, _, _, _, _, _, _, rfl⟩, h2⟩ := h'
  exact ⟨⟨_, _, _, _, _, _, _, _, rfl⟩, fun h => h2 (h1 h)⟩

theorem Below.foldl {α : Type} (f : State → α → State) (hf : ∀ s x, Below s (f s x)) (l : List α) (s : State) :
    Below s (l.foldl f s) := by
  induction l generalizing s with
  | nil => exact Below.refl s
  | cons x l ih => exact (hf s x).trans (ih _)

theorem Below.threads {a b : State} (h : Below a b) : b.threads = a.threads := by
  obtain ⟨⟨_, _, _, _, _, _, _, _, rfl⟩, -⟩ := h; rfl
theorem Below.frames {a b : State} (h : Below a b) : b.frames = a.frames := by
  obtain ⟨⟨_, _, _, _, _, _, _, _, rfl⟩, -⟩ := h; rfl
theorem Below.groups {a b : State} (h : Below a b) : b.groups = a.groups := by
  obtain ⟨⟨_, _, _, _, _, _, _, _, rfl⟩, -⟩ := h; rfl
theorem Below.launches {a b : State} (h : Below a b) : b.launches = a.launches := by
  obtain ⟨⟨_, _, _, _, _, _, _, _, rfl⟩, -⟩ := h; rfl
theorem Below.futures {a b : State} (h : Below a b) : b.futures = a.futures := by
  obtain ⟨⟨_, _, _, _, _, _, _, _, rfl⟩, -⟩ := h; rfl
theorem Below.appends {a b : State} (h : Below a b) : b.appends = a.appends := by
  obtain ⟨⟨_, _, _, _, _, _, _, _, rfl⟩, -⟩ := h; rfl
theorem Below.stores {a b : State} (h : Below a b) : b.stores = a.stores := by
  obtain ⟨⟨_, _, _, _, _, _, _, _, rfl⟩, -⟩ := h; rfl
theorem Below.net {a b : State} (h : Below a b) : b.net = a.net := by
  obtain ⟨⟨_, _, _, _, _, _, _, _, rfl⟩, -⟩ := h; rfl
theorem Below.ctxs {a b : State} (h : Below a b) : b.ctxs = a.ctxs := by
  obtain ⟨⟨_, _, _, _, _, _, _, _, rfl⟩, -⟩ := h; rfl
theorem Below.cycle {a b : State} (h : Below a b) : b.cycle = a.cycle := by
  obtain ⟨⟨_, _, _, _, _, _, _, _, rfl⟩, -⟩ := h; rfl
theorem Below.issue {a b : State} (h : Below a b) : b.issue = a.issue := by
  obtain ⟨⟨_, _, _, _, _, _, _, _, rfl⟩, -⟩ := h; rfl
theorem Below.wf {a b : State} (h : Below a b) (h' : Memory.wf a.mem = true) : Memory.wf b.mem = true := h.2 h'

theorem below_setCore (s : State) (g : Nat) (c : Core) : Below s (s.setCore g c) := ⟨⟨_, _, _, _, _, _, _, _, rfl⟩, id⟩
theorem below_onCore (s : State) (g : Nat) (f : Core → Core) : Below s (s.onCore g f) := ⟨⟨_, _, _, _, _, _, _, _, rfl⟩, id⟩
theorem below_onCluster (s : State) (g : Nat) (f : Cluster → Cluster) : Below s (s.onCluster g f) :=
  ⟨⟨_, _, _, _, _, _, _, _, rfl⟩, id⟩
theorem below_onDie (s : State) (g : Nat) (f : Die → Die) : Below s (s.onDie g f) := ⟨⟨_, _, _, _, _, _, _, _, rfl⟩, id⟩
theorem below_emit (s : State) (o : Output) : Below s (s.emit o) := ⟨⟨_, _, _, _, _, _, _, _, rfl⟩, id⟩
theorem below_free (s : State) (n : Nat) : Below s { s with free := n } := ⟨⟨_, _, _, _, _, _, _, _, rfl⟩, id⟩
theorem below_count (s : State) (d k : Nat) : Below s (s.count d k) := ⟨⟨_, _, _, _, _, _, _, _, rfl⟩, id⟩

theorem below_uncorrectable (s : State) (d k : Nat) : Below s (s.uncorrectable d k) := by
  unfold State.uncorrectable
  dsimp only
  split <;> split <;>
    first
      | exact (below_count s d k).trans ((below_onDie _ _ _).trans (below_emit _ _))
      | exact below_count s d k

theorem below_poke (s : State) (pa : Nat) (b : Byte) : Below s (s.poke pa b) :=
  ⟨⟨_, _, _, _, _, _, _, _, rfl⟩, writeByte_wf s.mem pa b⟩

theorem below_pokes (bs : List Byte) (s : State) (pa : Nat) : Below s (s.pokes pa bs) := by
  induction bs generalizing s pa with
  | nil => exact Below.refl s
  | cons b bs ih => exact (below_poke s pa b).trans (ih _ _)

theorem below_homeCells (s : State) (d : Nat) (l : List (Nat × Byte)) : Below s (s.homeCells d l) := by
  have h : Below s (l.foldl (fun (acc : State) (a, b) => if (s.frameAt a).isSome then acc else acc.poke a b) s) := by
    refine Below.foldl _ (fun acc x => ?_) l s
    show Below acc (if (s.frameAt x.1).isSome then acc else acc.poke x.1 x.2)
    split
    · exact Below.refl _
    · exact below_poke _ _ _
  unfold State.homeCells
  dsimp only
  split
  · exact h.trans (below_count _ _ _)
  · exact h

theorem below_homeWriteAt (s : State) (d pa : Nat) (bs : List Byte) : Below s (s.homeWriteAt d pa bs) := below_homeCells _ _ _
theorem below_homeWrite (s : State) (pa : Nat) (bs : List Byte) : Below s (s.homeWrite pa bs) := below_homeCells _ _ _

theorem below_accessed (s : State) (pa : Nat) : Below s (s.accessed pa) := by
  unfold State.accessed
  dsimp only
  split
  · exact Below.refl _
  · exact ⟨⟨_, _, _, _, _, _, _, _, rfl⟩, id⟩

theorem below_countFill (s : State) (g h : Nat) (p : Option Nat) : Below s (s.countFill g h p) := by
  unfold State.countFill; exact below_onDie _ _ _

theorem below_cleanLine (s : State) (g l : Nat) : Below s (s.cleanLine g l) := by
  unfold State.cleanLine
  dsimp only
  split
  · exact Below.refl _
  · split
    · exact Below.refl _
    · exact (below_homeCells _ _ _).trans (below_onCore _ _ _)

theorem below_dropLine (s : State) (g l : Nat) : Below s (s.dropLine g l) := below_onCore _ _ _

theorem below_makeRoom (s : State) (g l : Nat) : Below s (s.makeRoom g l) := by
  unfold State.makeRoom
  dsimp only
  split
  · exact Below.refl _
  · exact (below_free s _).trans ((below_cleanLine _ _ _).trans (below_dropLine _ _ _))

theorem below_fill (s : State) (g l h : Nat) (p : Option Nat) : Below s (s.fill g l h p) :=
  (below_setCore s _ _).trans ((below_countFill _ _ _ _).trans (below_accessed _ _))

theorem below_touch (s : State) (g l o n h : Nat) (p : Option Nat) : Below s (s.touch g l o n h p) := by
  unfold State.touch
  dsimp only
  split
  · split
    · exact Below.refl _
    · exact below_fill _ _ _ _ _
  · exact (below_makeRoom _ _ _).trans (below_fill _ _ _ _ _)

theorem below_readLine (s : State) (g pa n h : Nat) (p : Option Nat) : Below s (s.readLine g pa n h p).1 := by
  unfold State.readLine
  dsimp only
  split
  · exact below_touch _ _ _ _ _ _ _
  · split <;> exact below_touch _ _ _ _ _ _ _

theorem below_writeLine (s : State) (g pa h : Nat) (bs : List Byte) : Below s (s.writeLine g pa h bs) :=
  (below_makeRoom s _ _).trans (below_setCore _ _ _)

theorem below_flushCore (s : State) (g : Nat) : Below s (s.flushCore g) :=
  Below.foldl _ (fun s l => below_cleanLine s g l) _ s

theorem below_cleanBytes (s : State) (g pa n : Nat) : Below s (s.cleanBytes g pa n) :=
  Below.foldl _ (fun s l => below_cleanLine s g l) _ s

theorem below_updateLine (s : State) (g pa : Nat) (bs : List Byte) : Below s (s.updateLine g pa bs) := by
  unfold State.updateLine
  dsimp only
  split
  · exact Below.refl _
  · exact below_setCore _ _ _

theorem below_startSweep (s : State) (g : Nat) : Below s (s.startSweep g) :=
  (below_onCore _ _ _).trans (below_onDie _ _ _)

theorem below_incoming (s : State) (g : Nat) : Below s (s.incoming g) := below_onCore _ _ _

theorem below_increment (s : State) (g : Nat) : Below s (s.increment g) := by
  unfold State.increment
  dsimp only
  split
  · split
    · exact below_onCore _ _ _
    · exact (below_onCore _ _ _).trans (below_startSweep _ _)
  · exact Below.refl _

theorem below_increments (s : State) : Below s s.increments := Below.foldl _ (fun s g => below_increment s g) _ _

theorem below_wakeDie (s : State) (v : Nat) : Below s (s.wakeDie v) := by
  unfold State.wakeDie
  split
  · exact (below_onDie _ _ _).trans (Below.foldl _ (fun s g => below_incoming s g) _ _)
  · split
    · exact below_onDie _ _ _
    · exact Below.refl _

theorem below_wakeFor (s : State) (p : Place) : Below s (s.wakeFor p) := by
  cases p <;> first | exact below_wakeDie _ _ | exact Below.refl _

theorem below_invalidate (s : State) (pa n : Nat) : Below s (s.invalidate pa n) := ⟨⟨_, _, _, _, _, _, _, _, rfl⟩, id⟩

theorem below_cleanRange (s : State) (pa n : Nat) : Below s (s.cleanRange pa n) :=
  Below.foldl _ (fun _ g => Below.foldl _ (fun s l => below_cleanLine s g l) _ _) _ s

theorem below_placeError (s : State) (p : Place) (a : Nat) : Below s (s.placeError p a) := by
  cases p <;> first | exact below_uncorrectable _ _ _ | exact Below.refl _

theorem below_checkedRead (s : State) (p : Place) (a n : Nat) : Below s (s.checkedRead p a n).1 := by
  unfold State.checkedRead
  split
  · exact below_placeError _ _ _
  · exact Below.refl _

theorem below_placeWrite (s : State) (p : Place) (a : Nat) (bs : List Byte) : Below s (s.placeWrite p a bs) := by
  cases p
  · unfold State.placeWrite; exact below_onCore _ _ _
  · unfold State.placeWrite; exact below_onCluster _ _ _
  · exact below_homeWrite _ _ _
  · exact below_emit _ _

theorem below_landStore (s : State) (x : Store) : Below s (s.landStore x) := by
  unfold State.landStore
  split
  · exact Below.foldl _ (fun s p => (below_homeWriteAt s _ _ _).trans (below_updateLine _ _ _ _)) _ _
  · exact below_placeWrite _ _ _ _

/-- An access's walk installs translations only. -/
theorem below_walk {s s' : State} {who : Who} {va : Nat} {e : TlbEntry} (h : s.walk who va = .ok (s', e)) : Below s s' := by
  unfold State.walk at h
  dsimp only at h
  split at h
  · cases h
  · split at h
    · cases h
    · injection h with h
      injection h with h1 h2
      subst h1
      refine Below.trans ?_ ((below_onDie _ _ _).trans ((below_onCore _ _ _).trans (below_accessed _ _)))
      split
      · exact Below.foldl _ (fun s _ => below_uncorrectable s _ _) _ _
      · exact Below.refl _

theorem below_translate (s : State) (who : Who) (va n : Nat) (kind : Kind) : Below s (s.translate who va n kind).1 := by
  unfold State.translate
  dsimp only
  split
  · exact Below.refl _
  · split
    · dsimp only
      split
      · exact below_uncorrectable _ _ _
      · exact Below.refl _
    · rename_i s1 t h
      have hb : Below s s1 := by
        split at h
        · injection h with h; injection h with h1 h2; subst h1; exact Below.refl _
        · exact below_walk h
      split
      · exact hb
      · split
        · exact hb
        · split <;> exact hb

theorem below_globRead (s : State) (g : Nat) (t : Tr) (n : Nat) : Below s (s.globRead g t n).1 := by
  unfold State.globRead
  dsimp only
  generalize (if s.observes t = true then some (t.pagePa / 4096) else none) = page
  split
  · generalize (some [] : Option (List Byte)) = o
    generalize pieces t.pa n = l
    induction l generalizing s o with
    | nil => exact Below.refl _
    | cons x l ih =>
      rw [List.foldl_cons]
      cases o with
      | none => exact ih s none
      | some bs => exact (below_readLine s g x.1 x.2 t.home page).trans (ih _ _)
  · split <;> exact below_cleanBytes _ _ _ _

end Sys2Proof.Machine
end

