-- ==== Sys2Proof/Laws/Ending.lean ====
section
/-! SUPPORT. Laws of edges, meets, barriers and the end of a thread: which threads and frames remain, and what an ended thread
leaves in its frame. -/

namespace Sys2Proof.Machine

/-- The same threads are placed, the same frames taken, and a canonical memory stays canonical. -/
structure Tame (s s' : State) : Prop where
  threads : ∀ k, (s'.threads.get k).isSome = (s.threads.get k).isSome
  frames : ∀ k, (s'.frames.get k).isSome = (s.frames.get k).isSome
  wf : Memory.wf s.mem = true → Memory.wf s'.mem = true

theorem Tame.refl (s : State) : Tame s s := ⟨fun _ => rfl, fun _ => rfl, id⟩
theorem Tame.trans {a b c : State} (h : Tame a b) (h' : Tame b c) : Tame a c :=
  ⟨fun k => (h'.threads k).trans (h.threads k), fun k => (h'.frames k).trans (h.frames k), fun w => h'.wf (h.wf w)⟩
theorem Below.tame {a b : State} (h : Below a b) : Tame a b :=
  ⟨fun _ => by rw [h.threads], fun _ => by rw [h.frames], h.2⟩
theorem Tame.foldl {α : Type} (f : State → α → State) (hf : ∀ s x, Tame s (f s x)) (l : List α) (s : State) :
    Tame s (l.foldl f s) := by
  induction l generalizing s with
  | nil => exact Tame.refl s
  | cons x l ih => exact (hf s x).trans (ih _)

theorem tame_onThread (s : State) (k : FrameRef) (f : Thread → Thread) : Tame s (s.onThread k f) :=
  ⟨fun j => by rw [onThread_get]; split <;> simp, fun _ => rfl, id⟩
theorem tame_onFrame (s : State) (k : FrameRef) (f : Frame → Frame) : Tame s (s.onFrame k f) :=
  ⟨fun _ => rfl, fun j => by simp only [State.onFrame, Tbl.get_update]; split <;> simp, id⟩
theorem tame_send (s : State) (m : Msg) : Tame s (s.send m) := ⟨fun _ => rfl, fun _ => rfl, id⟩
theorem tame_groups (s : State) (g : Tbl Barrier) : Tame s { s with groups := g } := ⟨fun _ => rfl, fun _ => rfl, id⟩
theorem tame_futures (s : State) (g : Tbl Future) : Tame s { s with futures := g } := ⟨fun _ => rfl, fun _ => rfl, id⟩
theorem tame_stores (s : State) (l : List Store) : Tame s { s with stores := l } := ⟨fun _ => rfl, fun _ => rfl, id⟩
theorem tame_onCore (s : State) (g : Nat) (f : Core → Core) : Tame s (s.onCore g f) := (below_onCore s g f).tame
theorem tame_onCluster (s : State) (g : Nat) (f : Cluster → Cluster) : Tame s (s.onCluster g f) := (below_onCluster s g f).tame
theorem tame_onMeet (s : State) (g m : Nat) (f : Meet → Meet) : Tame s (s.onMeet g m f) := tame_onCore _ _ _

theorem below_merge (s : State) (a : Nat) (b : Byte) : Below s (s.merge a b) := by
  unfold State.merge
  split
  · exact Below.refl s
  · exact below_poke s a b

theorem below_merges (bs : List Byte) (s : State) (a : Nat) : Below s (s.merges a bs) := by
  induction bs generalizing s a with
  | nil => exact Below.refl s
  | cons b bs ih => exact (below_merge s a b).trans (ih _ _)

theorem tame_syncRecord (s : State) (k : FrameRef) (i n : Nat) : Tame s (s.syncRecord k i n) := by
  unfold State.syncRecord
  split
  · dsimp only
    split
    · exact Tame.refl _
    · refine ((below_merges _ _ _).trans (below_pokes _ _ _)).tame.trans (Tame.foldl _ (fun acc r => ?_) _ _)
      split
      · exact Tame.refl _
      · exact ((below_pokes _ _ _).trans (below_merge _ _ _)).tame
  · exact Tame.refl _

theorem tame_give (s : State) (k : FrameRef) (i : Nat) (vals : List RegVal) : Tame s (s.give k i vals) :=
  (tame_onThread s k _).trans (tame_syncRecord _ _ _ _)

theorem tame_wake (s : State) (k : FrameRef) : Tame s (s.wake k) := (tame_onThread s k _).trans (tame_syncRecord _ _ _ _)

theorem tame_raiseFloor (s : State) (k : FrameRef) (n : Nat) : Tame s (s.raiseFloor k n) := tame_onFrame _ _ _

theorem tame_receive (s : State) (k : FrameRef) (n : Nat) : Tame s (s.receive k n) :=
  (tame_raiseFloor s k n).trans (below_incoming _ _).tame

theorem tame_landStores (s : State) (k : FrameRef) : Tame s (s.landStores k) := by
  unfold State.landStores
  split
  · exact (tame_stores s []).trans (Tame.foldl _ (fun s x => (below_landStore s x).tame) _ _)
  · exact Tame.refl _

theorem tame_outgoing (s : State) (k : FrameRef) : Tame s (s.outgoing k) :=
  (tame_landStores s k).trans (below_flushCore _ _).tame

theorem tame_grantGrows (fuel : Nat) (s : State) (g part lane : Nat) : Tame s (s.grantGrows g part lane fuel) := by
  induction fuel generalizing s with
  | zero => exact Tame.refl s
  | succ n ih =>
    unfold State.grantGrows
    dsimp only
    split
    · exact Tame.refl s
    · split
      · exact Tame.refl s
      · split
        · exact (tame_onCore s _ _).trans ((tame_onThread _ _ _).trans ((tame_wake _ _).trans (ih _)))
        · exact Tame.refl s

theorem tame_mapThreads (s : State) (f : Nat → Thread → Thread) : Tame s { s with threads := s.threads.mapVals f } :=
  ⟨fun k => by simp [Tbl.get_mapVals], fun _ => rfl, id⟩

theorem tame_poolFreed (s : State) : Tame s s.poolFreed := ⟨fun _ => rfl, fun _ => rfl, id⟩

theorem tame_completePhase (s : State) (g m : Nat) : Tame s (s.completePhase g m) := by
  unfold State.completePhase
  split
  · exact Tame.refl s
  · split
    · exact Tame.refl s
    · exact (tame_onMeet s g m _).trans
        ((Tame.foldl _ (fun s k => (tame_onThread s k _).trans (tame_syncRecord _ k _ _)) _ _).trans
          (Tame.foldl _ (fun s k => (tame_receive s k _).trans (tame_wake _ k)) _ _))

theorem tame_signEnqueue (s : State) (g m : Nat) : Tame s (s.signEnqueue g m) := by
  unfold State.signEnqueue
  split
  · exact Tame.refl s
  · split
    · exact Tame.refl s
    · split
      · exact (tame_onCluster s _ _).trans (tame_onMeet _ _ _ _)
      · exact tame_onMeet s _ _ _

theorem tame_checkMeet (s : State) (g m : Nat) : Tame s (s.checkMeet g m) := by
  unfold State.checkMeet
  split
  · exact Tame.refl s
  · split
    · split
      · exact tame_completePhase s g m
      · exact Tame.refl s
    · split
      · exact tame_completePhase s g m
      · exact Tame.refl s
    · exact tame_signEnqueue s g m
    · exact Tame.refl s

theorem tame_leaveMeet (s : State) (k : FrameRef) (m : Nat) : Tame s (s.leaveMeet k m) := by
  unfold State.leaveMeet
  split
  · exact Tame.refl s
  · split
    · exact (tame_onThread s k _).trans ((tame_onMeet _ _ _ _).trans (tame_checkMeet _ _ _))
    · exact Tame.refl s

theorem tame_releaseBarrier (s : State) (id : Nat) : Tame s (s.releaseBarrier id) := by
  unfold State.releaseBarrier
  split
  · exact Tame.refl s
  · exact (tame_groups s _).trans
      (Tame.foldl _ (fun s k => (tame_receive s k _).trans ((tame_wake _ k).trans (tame_onThread _ _ _))) _ _)

theorem tame_checkBarrier (s : State) (id : Nat) : Tame s (s.checkBarrier id) := by
  unfold State.checkBarrier
  split
  · exact Tame.refl s
  · dsimp only
    split
    · exact Tame.refl s
    · split
      · split
        · exact Tame.refl s
        · exact tame_releaseBarrier s id
      · exact (tame_groups s _).trans (Tame.foldl _ (fun s cl => tame_send s _) _ _)

theorem tame_leaveBarrier (s : State) (k : FrameRef) (t : Thread) : Tame s (s.leaveBarrier k t) := by
  unfold State.leaveBarrier
  split
  · exact Tame.refl s
  · split
    · exact Tame.refl s
    · dsimp only
      split
      · exact tame_groups s _
      · exact (tame_groups s _).trans (tame_checkBarrier _ _)

theorem tame_leaveUnits (s : State) (k : FrameRef) (t : Thread) : Tame s (s.leaveUnits k t) := by
  unfold State.leaveUnits
  dsimp only
  split
  · exact tame_onCluster s _ _
  · exact tame_onCluster s _ _
  · exact Tame.refl s

/-- How endThread comes to its end: the state before the frame is closed has every thread but k, and every frame. -/
theorem endThread_eq (s : State) (k : FrameRef) (kind : EndKind) (report : FaultRec) (t : Thread) (ht : s.threads.get k = some t) :
    ∃ s7 : State, s.endThread k kind report =
        (s7.onFrame k fun f => { f with ended := some ⟨kind, report, s.timeOf k⟩, exiting := false, awaiting := false, saveptr := 0 }).finishFrame k ∧
      (∀ j, (s7.threads.get j).isSome = if j = k then false else (s.threads.get j).isSome) ∧
      (∀ j, (s7.frames.get j).isSome = (s.frames.get j).isSome) ∧ (Memory.wf s.mem = true → Memory.wf s7.mem = true) := by
  unfold State.endThread
  simp only [ht]
  have h1 : Tame s ((List.range 32).foldl (fun acc m => acc.leaveMeet k m) s) := Tame.foldl _ (fun s m => tame_leaveMeet s k m) _ _
  generalize (List.range 32).foldl (fun acc m => acc.leaveMeet k m) s = s1 at *
  have h2 := h1.trans (tame_leaveBarrier s1 k t)
  generalize s1.leaveBarrier k t = s2 at *
  have h3 := h2.trans (tame_futures s2 (s2.futures.mapVals fun _ f => { f with waiters := f.waiters.filter (· != k) }))
  generalize ({ s2 with futures := s2.futures.mapVals fun _ f => { f with waiters := f.waiters.filter (· != k) } } : State) = s3 at *
  have h4 := h3.trans ((tame_leaveUnits s3 k t).trans (tame_outgoing _ k))
  generalize (s3.leaveUnits k t).outgoing k = s4 at *
  generalize hs6 : ({ (s4.onCore (coreOf k) fun c =>
      { c with slots := (match t.slot with | some i => c.slots.del i | none => c.slots),
               grows := c.grows.mapVals fun _ q => q.filter (· != k) }) with
      threads := ((s4.onCore (coreOf k) fun c =>
      { c with slots := (match t.slot with | some i => c.slots.del i | none => c.slots),
               grows := c.grows.mapVals fun _ q => q.filter (· != k) }).threads.del k).mapVals fun _ t => t.spared k none } : State) = s6
  have h6 : ∀ s', Tame s6 s' → (∀ j, (s'.threads.get j).isSome = if j = k then false else (s.threads.get j).isSome) ∧
      (∀ j, (s'.frames.get j).isSome = (s.frames.get j).isSome) ∧ (Memory.wf s.mem = true → Memory.wf s'.mem = true) := by
    intro s' ht'
    subst hs6
    refine ⟨fun j => ?_, fun j => (ht'.frames j).trans (h4.frames j), fun w => ht'.wf (h4.wf w)⟩
    rw [ht'.threads]
    show (Tbl.get (Tbl.mapVals (Tbl.del s4.threads k) fun _ (t : Thread) => t.spared k none) j).isSome = _
    rw [Tbl.get_mapVals, Tbl.get_del]
    split
    · rfl
    · simpa using h4.threads j
  refine ⟨_, rfl, h6 _ ?_⟩
  split
  · exact tame_grantGrows _ _ _ _ _
  · split
    · exact tame_poolFreed _
    · exact Tame.refl _

theorem tame_finishFrame (s : State) (k : FrameRef) : Tame s (s.finishFrame k) := by
  unfold State.finishFrame
  split
  · exact Tame.refl s
  · split
    · exact Tame.refl s
    · split
      · dsimp only
        split
        · exact tame_send _ _
        · exact tame_send _ _
        · exact Tame.refl s
      · exact Tame.refl s

theorem finishFrame_frames (s : State) (k : FrameRef) : (s.finishFrame k).frames = s.frames := by
  unfold State.finishFrame
  split
  · rfl
  · split
    · rfl
    · split
      · dsimp only
        split <;> rfl
      · rfl

/-- The end of a thread keeps a canonical memory. -/
theorem wf_endThread (s : State) (k : FrameRef) (kind : EndKind) (report : FaultRec) (h : Memory.wf s.mem = true) :
    Memory.wf (s.endThread k kind report).mem = true := by
  cases ht : s.threads.get k with
  | none => unfold State.endThread; simp only [ht]; exact h
  | some t =>
    obtain ⟨s7, h1, -, -, h4⟩ := endThread_eq s k kind report t ht
    rw [h1]
    exact (tame_finishFrame _ _).wf (h4 h)

/-- An ended thread is placed no more, and its frame holds how it ended (01 R21). -/
theorem endThread_ended (s : State) (k : FrameRef) (kind : EndKind) (report : FaultRec) (t : Thread) (f : Frame)
    (ht : s.threads.get k = some t) (hf : s.frames.get k = some f) :
    (s.endThread k kind report).threads.get k = none ∧
      ∃ f', (s.endThread k kind report).frames.get k = some f' ∧ f'.ended = some ⟨kind, report, s.timeOf k⟩ := by
  obtain ⟨s7, h1, h2, h3, -⟩ := endThread_eq s k kind report t ht
  rw [h1]
  constructor
  · have := (tame_finishFrame (s7.onFrame k fun f => { f with ended := some ⟨kind, report, s.timeOf k⟩, exiting := false, awaiting := false, saveptr := 0 }) k).threads k
    rw [← Option.isNone_iff_eq_none, ← Option.not_isSome, this]
    show (!(s7.threads.get k).isSome) = true
    rw [h2]; simp
  · rw [finishFrame_frames]
    obtain ⟨f7, hf7⟩ := Option.isSome_iff_exists.mp ((h3 k).trans (by simp [hf]))
    refine ⟨{ f7 with ended := some ⟨kind, report, s.timeOf k⟩, exiting := false, awaiting := false, saveptr := 0 }, ?_, rfl⟩
    simp only [State.onFrame, Tbl.get_update_same, hf7, Option.map_some]

/-- A thread issued alone whose instruction meets a fault ends with it. -/
theorem faulted_of_error {s : State} {is : Issue} {k : FrameRef} {t : Thread} (h : Alone s is k t)
    (hf : (s.frames.get k).isSome = true) (f : Member) (code addr : Nat) (he : f s is k t s = .error (.fault code addr)) :
    ∃ s', runGroup f s = .next s' ∧ Faulted s' k code addr := by
  obtain ⟨fr, hfr⟩ := Option.isSome_iff_exists.mp hf
  refine ⟨_, runGroup_alone_stop h f _ _ he rfl, ?_⟩
  have ht : (s.onThread k Thread.settle).threads.get k = some t.settle := by simp [h.thread]
  have hf' : (s.onThread k Thread.settle).frames.get k = some fr := hfr
  obtain ⟨h1, f', h2, h3⟩ := endThread_ended (s.onThread k Thread.settle) k .fault (t.settle.faultRec k code addr) t.settle fr ht hf'
  have heq : (s.onThread k Thread.settle).faultThread k code addr
      = (s.onThread k Thread.settle).endThread k .fault (t.settle.faultRec k code addr) := by
    simp only [State.faultThread, ht]
  refine ⟨?_, rfl, f', _, ?_, h3, rfl, rfl, rfl⟩
  · show ((s.onThread k Thread.settle).faultThread k code addr).threads.get k = none
    rw [heq]; exact h1
  · show ((s.onThread k Thread.settle).faultThread k code addr).frames.get k = some f'
    rw [heq]; exact h2

/-- A thread issued alone whose instruction traps in state trapped, or in a context without a handler, ends with the trap's
code (07 R166). -/
theorem faulted_of_trap {s : State} {is : Issue} {k : FrameRef} {t : Thread} (h : Alone s is k t)
    (hf : (s.frames.get k).isSome = true) (f : Member) (code addr : Nat) (he : f s is k t s = .error (.trap code addr))
    (hn : t.trapped = true ∨ s.handler k t = 0) :
    ∃ s', runGroup f s = .next s' ∧ Faulted s' k code addr := by
  obtain ⟨fr, hfr⟩ := Option.isSome_iff_exists.mp hf
  refine ⟨_, runGroup_alone_stop h f _ _ he rfl, ?_⟩
  obtain ⟨h1, f', h2, h3⟩ := endThread_ended s k .fault (t.faultRec k code addr) t fr h.thread hfr
  have heq : s.takeTrap is k code addr = s.endThread k .fault (t.faultRec k code addr) := by
    have : (t.trapped || s.handler k t == 0) = true := by rcases hn with h | h <;> simp [h]
    simp only [State.takeTrap, h.thread, this, if_true, State.faultThread]
  refine ⟨?_, rfl, f', _, ?_, h3, rfl, rfl, rfl⟩
  · show (s.takeTrap is k code addr).threads.get k = none
    rw [heq]; exact h1
  · show (s.takeTrap is k code addr).frames.get k = some f'
    rw [heq]; exact h2

theorem FaultsWith.of {i : Instr} {srcs : List Src} {dst : List (Nat × Nat)}
    {when_ : State → Issue → FrameRef → Thread → List (List RegVal) → Prop} {code : Nat} {addr : List (List RegVal) → Nat} (f : Member)
    (hexec : ∀ s, exec i s = runGroup f s)
    (hf : ∀ s is k t vals, Alone s is k t → Readable s is t srcs dst vals → when_ s is k t vals →
      f s is k t s = .error (.fault code (addr vals))) : FaultsWith i srcs dst when_ code addr := by
  intro s is k t vals ha hfr hr hw
  rw [hexec]
  exact faulted_of_error ha hfr f code (addr vals) (hf s is k t vals ha hr hw)

end Sys2Proof.Machine
end

