-- ==== Sys2Proof/Laws/Rounding.lean ====
section
/-! SUPPORT. Laws of rounding: the codes that `roundMag` gives are those nearest, below or above the exact value. -/

namespace Sys2Proof.Machine

/-- The magnitude of n units at exponent step E. -/
theorem FloatFmt.mag_code (f : FloatFmt) (n E : Nat) (h : E = 0 ∨ 2 ^ f.mbits ≤ n) (hn : n ≤ 2 ^ (f.mbits + 1)) :
    f.mag (n + E * 2 ^ f.mbits) = n * 2 ^ ((E : ℤ) + 1 - f.bias - f.mbits) := by
  have hp : 0 < 2 ^ f.mbits := by positivity
  have h2 : 2 ^ (f.mbits + 1) = 2 * 2 ^ f.mbits := by ring
  have hz : (2 : ℚ) ≠ 0 := by norm_num
  unfold FloatFmt.mag
  split
  · rename_i hlt
    have hE : E = 0 := by
      rcases h with h | h
      · exact h
      · exfalso
        have := Nat.zero_le (E * 2 ^ f.mbits)
        omega
    subst hE; simp
  · rename_i hge
    rcases Nat.lt_or_ge n (2 ^ (f.mbits + 1)) with hlt | hge2
    · obtain ⟨r, hr, hlo⟩ : ∃ r, n = 2 ^ f.mbits + r ∧ r < 2 ^ f.mbits := by
        refine ⟨n - 2 ^ f.mbits, ?_, ?_⟩
        · rcases h with rfl | h
          · simp at hge; omega
          · omega
        · omega
      have e1 : n + E * 2 ^ f.mbits = r + 2 ^ f.mbits * (E + 1) := by rw [hr]; ring
      rw [e1, Nat.add_mul_mod_self_left, Nat.add_mul_div_left _ _ hp, Nat.mod_eq_of_lt hlo, Nat.div_eq_of_lt hlo, ← hr]
      congr 2; push_cast; ring
    · have hn2 : n = 2 * 2 ^ f.mbits := by omega
      have e1 : n + E * 2 ^ f.mbits = 2 ^ f.mbits * (E + 2) := by rw [hn2]; ring
      rw [e1, Nat.mul_mod_right, Nat.mul_div_cancel_left _ hp, hn2]
      push_cast
      rw [show ((E : ℤ) + 2 - f.bias - f.mbits) = ((E : ℤ) + 1 - f.bias - f.mbits) + 1 by ring, zpow_add₀ hz]
      ring

/-- Magnitudes rise with their codes. -/
theorem FloatFmt.mag_succ (f : FloatFmt) (k : Nat) : f.mag k < f.mag (k + 1) := by
  have hp : 0 < 2 ^ f.mbits := by positivity
  have h2 : 2 ^ (f.mbits + 1) = 2 * 2 ^ f.mbits := by ring
  obtain ⟨n, E, hk, hE, hn⟩ : ∃ n E, k = n + E * 2 ^ f.mbits ∧ (E = 0 ∨ 2 ^ f.mbits ≤ n) ∧ n < 2 ^ (f.mbits + 1) := by
    have hd := Nat.div_add_mod k (2 ^ f.mbits)
    have hm := Nat.mod_lt k hp
    rcases Nat.eq_zero_or_pos (k / 2 ^ f.mbits) with h0 | h0
    · exact ⟨k, 0, by simp, .inl rfl, by rw [h0] at hd; omega⟩
    · refine ⟨2 ^ f.mbits + k % 2 ^ f.mbits, k / 2 ^ f.mbits - 1, ?_, .inr (by omega), by omega⟩
      obtain ⟨d, hd'⟩ : ∃ d, k / 2 ^ f.mbits = d + 1 := ⟨_, (Nat.succ_pred_eq_of_pos h0).symm⟩
      rw [hd'] at hd ⊢
      have : 2 ^ f.mbits * (d + 1) = d * 2 ^ f.mbits + 2 ^ f.mbits := by ring
      simp only [Nat.add_sub_cancel]
      omega
  rw [hk, f.mag_code n E hE hn.le, show n + E * 2 ^ f.mbits + 1 = (n + 1) + E * 2 ^ f.mbits by ring,
    f.mag_code (n + 1) E (by omega) (by omega)]
  have : (0 : ℚ) < 2 ^ ((E : ℤ) + 1 - f.bias - f.mbits) := by positivity
  push_cast
  nlinarith

theorem FloatFmt.mag_strictMono (f : FloatFmt) : StrictMono f.mag := strictMono_nat_of_lt_succ f.mag_succ

/-- The magnitude code below a positive value, ignoring the largest finite one, and how far the value lies above it. -/
theorem FloatFmt.bracket (f : FloatFmt) (hb : 0 < f.mbits) (m : Nat) (e : Int) (hm : 0 < m) :
    ∃ k rem den : Nat, rem < den ∧ f.mag k ≤ m * 2 ^ e ∧ (m : ℚ) * 2 ^ e < f.mag (k + 1) ∧
      ((m : ℚ) * 2 ^ e - f.mag k) * den = rem * (f.mag (k + 1) - f.mag k) ∧
      ∀ r neg, roundUnits r neg m e (max (topExp m e - f.mbits) (1 - (f.bias : Int) - f.mbits)) +
        (max (topExp m e - f.mbits) (1 - (f.bias : Int) - f.mbits) + f.bias + f.mbits - 1).toNat * 2 ^ f.mbits
        = if roundsUp r neg k rem den then k + 1 else k := by
  have hz : (2 : ℚ) ≠ 0 := by norm_num
  have hlog1 : 2 ^ Nat.log2 m ≤ m := Nat.log2_self_le (by omega)
  have hlog2 : m < 2 ^ (Nat.log2 m + 1) := Nat.lt_log2_self
  generalize hq : max (topExp m e - f.mbits) (1 - (f.bias : Int) - f.mbits) = q
  obtain ⟨E, hE⟩ : ∃ E : Nat, (q + f.bias + f.mbits - 1) = E := ⟨(q + f.bias + f.mbits - 1).toNat, by omega⟩
  rw [hE, Int.toNat_natCast]
  have hqe : (E : ℤ) + 1 - f.bias - f.mbits = q := by omega
  have htop : topExp m e = (Nat.log2 m : ℤ) + e := rfl
  have hparity : ∀ n : Nat, (n + E * 2 ^ f.mbits) % 2 = n % 2 := by
    intro n
    obtain ⟨b, hb'⟩ : ∃ b, f.mbits = b + 1 := ⟨_, (Nat.succ_pred_eq_of_pos hb).symm⟩
    rw [hb', show n + E * 2 ^ (b + 1) = n + 2 * (E * 2 ^ b) by ring, Nat.add_mul_mod_self_left]
  have hup : ∀ r neg n rem den, roundsUp r neg (n + E * 2 ^ f.mbits) rem den = roundsUp r neg n rem den := by
    intro r neg n rem den
    unfold roundsUp
    rw [hparity]
  rcases le_or_gt q e with hle | hgt
  · -- the value is a whole number of units
    obtain ⟨d, hd⟩ : ∃ d : Nat, e - q = d := ⟨(e - q).toNat, by omega⟩
    have hn1 : m * 2 ^ d < 2 ^ (f.mbits + 1) := by
      have : Nat.log2 m + 1 + d ≤ f.mbits + 1 := by omega
      calc m * 2 ^ d < 2 ^ (Nat.log2 m + 1) * 2 ^ d := by gcongr
        _ = 2 ^ (Nat.log2 m + 1 + d) := by rw [← pow_add]
        _ ≤ _ := Nat.pow_le_pow_right (by norm_num) this
    have hn2 : E = 0 ∨ 2 ^ f.mbits ≤ m * 2 ^ d := by
      rcases Nat.eq_zero_or_pos E with h | h
      · exact .inl h
      · right
        have : f.mbits ≤ Nat.log2 m + d := by omega
        calc 2 ^ f.mbits ≤ 2 ^ (Nat.log2 m + d) := Nat.pow_le_pow_right (by norm_num) this
          _ = 2 ^ Nat.log2 m * 2 ^ d := by rw [pow_add]
          _ ≤ _ := by gcongr
    have hval : (m : ℚ) * 2 ^ e = ((m * 2 ^ d : Nat) : ℚ) * 2 ^ q := by
      push_cast
      rw [mul_assoc, ← zpow_natCast (2 : ℚ) d, ← zpow_add₀ hz]
      congr 2; omega
    have hpos : (0 : ℚ) < 2 ^ q := by positivity
    refine ⟨m * 2 ^ d + E * 2 ^ f.mbits, 0, 1, by norm_num, ?_, ?_, ?_, ?_⟩
    · rw [f.mag_code _ E hn2 hn1.le, hqe, hval]
    · rw [show m * 2 ^ d + E * 2 ^ f.mbits + 1 = (m * 2 ^ d + 1) + E * 2 ^ f.mbits by ring,
        f.mag_code (m * 2 ^ d + 1) E (by omega) (by omega), hqe, hval]
      push_cast; nlinarith
    · rw [f.mag_code _ E hn2 hn1.le, hqe, hval]; simp
    · intro r neg
      simp [roundUnits, hle, hd, roundsUp]
  · obtain ⟨d, hd⟩ : ∃ d : Nat, q - e = d := ⟨(q - e).toNat, by omega⟩
    have hden : 0 < 2 ^ d := by positivity
    have hdm := Nat.div_add_mod m (2 ^ d)
    have hmod := Nat.mod_lt m hden
    have hn1 : m / 2 ^ d < 2 ^ (f.mbits + 1) := by
      rw [Nat.div_lt_iff_lt_mul hden, ← pow_add]
      exact lt_of_lt_of_le hlog2 (Nat.pow_le_pow_right (by norm_num) (by omega))
    have hn2 : E = 0 ∨ 2 ^ f.mbits ≤ m / 2 ^ d := by
      rcases Nat.eq_zero_or_pos E with h | h
      · exact .inl h
      · right
        rw [Nat.le_div_iff_mul_le hden, ← pow_add]
        exact le_trans (Nat.pow_le_pow_right (by norm_num) (by omega)) hlog1
    have hpos : (0 : ℚ) < 2 ^ e := by positivity
    have hqv : (2 : ℚ) ^ q = 2 ^ d * 2 ^ e := by
      rw [← zpow_natCast (2 : ℚ) d, ← zpow_add₀ hz]; congr 1; omega
    have hm' : (m : ℚ) = 2 ^ d * (m / 2 ^ d : Nat) + (m % 2 ^ d : Nat) := by exact_mod_cast hdm.symm
    have hk1 : f.mag (m / 2 ^ d + E * 2 ^ f.mbits + 1) = ((m / 2 ^ d : Nat) + 1) * 2 ^ q := by
      rw [show m / 2 ^ d + E * 2 ^ f.mbits + 1 = (m / 2 ^ d + 1) + E * 2 ^ f.mbits by ring,
        f.mag_code (m / 2 ^ d + 1) E (by omega) (by omega), hqe]
      push_cast; ring
    have hk0 : f.mag (m / 2 ^ d + E * 2 ^ f.mbits) = (m / 2 ^ d : Nat) * 2 ^ q := by
      rw [f.mag_code _ E hn2 hn1.le, hqe]
    have hmodq : ((m % 2 ^ d : Nat) : ℚ) < 2 ^ d := by exact_mod_cast hmod
    refine ⟨m / 2 ^ d + E * 2 ^ f.mbits, m % 2 ^ d, 2 ^ d, hmod, ?_, ?_, ?_, ?_⟩
    · rw [hk0, hqv, hm']
      have : (0 : ℚ) ≤ (m % 2 ^ d : Nat) := by positivity
      nlinarith [mul_nonneg this hpos.le]
    · rw [hk1, hqv, hm']; nlinarith
    · rw [hk1, hk0, hqv]
      nth_rw 1 [hm']
      push_cast; ring
    · intro r neg
      have : ¬ q ≤ e := by omega
      simp only [roundUnits, this, if_false, hd, Int.toNat_natCast]
      rw [hup]
      split <;> ring

/-- The magnitude below a value between two neighbours. -/
theorem FloatFmt.below_of (f : FloatFmt) {a : ℚ} {k : Nat} (h1 : f.mag k ≤ a) (h2 : a < f.mag (k + 1)) :
    f.Below a (min k f.maxCode) := by
  refine ⟨min_le_right _ _, (f.mag_strictMono.monotone (min_le_left _ _)).trans h1, ?_⟩
  intro j hj hja
  have : j < k + 1 := f.mag_strictMono.lt_iff_lt.mp (lt_of_le_of_lt hja h2)
  omega

/-- The magnitude above a value that lies strictly between two neighbours. -/
theorem FloatFmt.above_of (f : FloatFmt) {a : ℚ} {k : Nat} (h1 : f.mag k < a) (h2 : a ≤ f.mag (k + 1)) :
    f.Above a (min (k + 1) (f.maxCode + 1)) := by
  refine ⟨min_le_right _ _, ?_, ?_⟩
  · intro hk
    have : min (k + 1) (f.maxCode + 1) = k + 1 := by omega
    rw [this]; exact h2
  · intro j hj
    exact lt_of_le_of_lt (f.mag_strictMono.monotone (by omega)) h1

/-- The magnitude above a representable value. -/
theorem FloatFmt.above_self (f : FloatFmt) (k : Nat) : f.Above (f.mag k) (min k (f.maxCode + 1)) := by
  refine ⟨min_le_right _ _, ?_, ?_⟩
  · intro hk
    have : min k (f.maxCode + 1) = k := by omega
    rw [this]
  · intro j hj
    exact f.mag_strictMono (by omega)

/-- The magnitude nearest to a value between two neighbours. -/
theorem FloatFmt.nearest_of (f : FloatFmt) {a : ℚ} {k : Nat} {up : Bool} (h1 : f.mag k ≤ a) (h2 : a < f.mag (k + 1))
    (hup : up = true → a - f.mag k ≥ f.mag (k + 1) - a ∧ (a - f.mag k = f.mag (k + 1) - a → k % 2 = 1))
    (hdn : up = false → a - f.mag k ≤ f.mag (k + 1) - a ∧ (a - f.mag k = f.mag (k + 1) - a → k % 2 = 0)) :
    f.Nearest a (min (if up then k + 1 else k) (f.maxCode + 1)) := by
  refine ⟨min_le_right _ _, ?_⟩
  intro j hj hjk
  have hmono := f.mag_strictMono
  rcases Nat.lt_or_ge (f.maxCode) (if up then k + 1 else k) with hbig | hsmall
  · -- overflow: every code lies below the value or at the code past the largest
    have hm : min (if up then k + 1 else k) (f.maxCode + 1) = f.maxCode + 1 := by omega
    rw [hm] at hjk ⊢
    have hjlt : j < f.maxCode + 1 := by omega
    have hj' : f.mag j < f.mag (f.maxCode + 1) := hmono hjlt
    cases up with
    | false =>
      simp only [Bool.false_eq_true, if_false] at hbig
      have : f.mag (f.maxCode + 1) ≤ f.mag k := hmono.monotone (by omega)
      left
      rw [abs_of_nonpos (by linarith), abs_of_nonpos (by linarith)]; linarith
    | true =>
      simp only [if_true] at hbig
      rcases Nat.lt_or_ge f.maxCode k with hk | hk
      · have : f.mag (f.maxCode + 1) ≤ f.mag k := hmono.monotone (by omega)
        left
        rw [abs_of_nonpos (by linarith), abs_of_nonpos (by linarith)]; linarith
      · have hkm : k = f.maxCode := by omega
        have hj2 : f.mag j ≤ f.mag k := hmono.monotone (by omega)
        obtain ⟨h3, h4⟩ := hup rfl
        rw [← hkm] at *
        rw [abs_of_nonneg (by linarith), abs_of_nonpos (by linarith)]
        rcases lt_or_eq_of_le (show f.mag (k + 1) - a ≤ -(f.mag j - a) by linarith) with h | h
        · exact .inl h
        · have h5 : f.mag j = f.mag k := by linarith
          have := h4 (by linarith)
          exact .inr ⟨h, by omega⟩
  · have hm : min (if up then k + 1 else k) (f.maxCode + 1) = if up then k + 1 else k := by omega
    rw [hm] at hjk ⊢
    cases up with
    | false =>
      simp only [Bool.false_eq_true, if_false] at hjk ⊢
      obtain ⟨h3, h4⟩ := hdn rfl
      rcases Nat.lt_or_ge j k with hlt | hgt
      · have := hmono hlt
        left
        rw [abs_of_nonpos (by linarith), abs_of_nonpos (by linarith)]; linarith
      · have : f.mag (k + 1) ≤ f.mag j := hmono.monotone (by omega)
        rw [abs_of_nonpos (by linarith), abs_of_nonneg (by linarith)]
        rcases lt_or_eq_of_le (show -(f.mag k - a) ≤ f.mag j - a by linarith) with h | h
        · exact .inl h
        · exact .inr ⟨h, h4 (by linarith)⟩
    | true =>
      simp only [if_true] at hjk ⊢
      obtain ⟨h3, h4⟩ := hup rfl
      rcases Nat.lt_or_ge (k + 1) j with hgt | hlt
      · have := hmono hgt
        left
        rw [abs_of_nonneg (by linarith), abs_of_nonneg (by linarith)]; linarith
      · have : f.mag j ≤ f.mag k := hmono.monotone (by omega)
        rw [abs_of_nonneg (by linarith), abs_of_nonpos (by linarith)]
        rcases lt_or_eq_of_le (show f.mag (k + 1) - a ≤ -(f.mag j - a) by linarith) with h | h
        · exact .inl h
        · have := h4 (by linarith)
          exact .inr ⟨h, by omega⟩

/-- `roundMag` is the rounding of 03 R81, R82, R85 and R86. -/
theorem FloatFmt.roundMag_rounds (f : FloatFmt) (hb : 0 < f.mbits) (r : RMode) (sat neg : Bool) (m : Nat) (e : Int) (hm : 0 < m) :
    ∃ k, f.Rounds r neg (m * 2 ^ e) k ∧
      f.roundMag r sat neg m e = if f.beyond = .clamp ∨ sat = true then min k f.maxCode else k := by
  obtain ⟨k, rem, den, hrem, h1, h2, h3, h4⟩ := f.bracket hb m e hm
  have hden : (0 : ℚ) < den := by exact_mod_cast (by omega : 0 < den)
  have hu : (0 : ℚ) < f.mag (k + 1) - f.mag k := by linarith
  generalize ha : (m : ℚ) * 2 ^ e = a at *
  have hrem0 : rem = 0 → a = f.mag k := by
    intro h0
    rw [h0] at h3
    simp at h3
    rcases h3 with h3 | h3
    · linarith
    · exact absurd h3 (by omega)
  have hrem1 : rem ≠ 0 → f.mag k < a := by
    intro h0
    have : (0 : ℚ) < rem := by exact_mod_cast Nat.pos_of_ne_zero h0
    have := mul_pos this hu
    rw [← h3] at this
    have := (pos_iff_pos_of_mul_pos this).mpr hden
    linarith
  unfold FloatFmt.roundMag FloatFmt.Rounds
  dsimp only
  simp only [h4]
  have hdn : ∀ (r : RMode), r.mode = .rz ∨ (r.mode = .ru ∧ neg = true) ∨ (r.mode = .rd ∧ neg = false) → roundsUp r neg k rem den = false := by
    intro r hr
    unfold roundsUp
    rcases hr with hr | ⟨hr, rfl⟩ | ⟨hr, rfl⟩ <;> simp [hr]
  have hab : ∀ (r : RMode), (r.mode = .ru ∧ neg = false) ∨ (r.mode = .rd ∧ neg = true) →
      f.Above a (min (if roundsUp r neg k rem den then k + 1 else k) (f.maxCode + 1)) := by
    intro r hr
    by_cases h0 : rem = 0
    · have : roundsUp r neg k rem den = false := by simp [roundsUp, h0]
      rw [this, hrem0 h0]
      simpa using f.above_self k
    · have : roundsUp r neg k rem den = true := by
        unfold roundsUp
        rcases hr with ⟨hr, rfl⟩ | ⟨hr, rfl⟩ <;> simp [hr, h0]
      rw [this]
      simpa using f.above_of (hrem1 h0) h2.le
  have hov : ∀ c : Nat, ¬ c ≤ f.maxCode → min c (f.maxCode + 1) = f.maxCode + 1 := by intro c hc; omega
  have hnear : ∀ dither, f.Nearest a (min (if roundsUp ⟨.rn, dither⟩ neg k rem den then k + 1 else k) (f.maxCode + 1)) := by
    intro dither
    refine f.nearest_of (up := roundsUp ⟨.rn, dither⟩ neg k rem den) h1 h2 ?_ ?_
    · intro hup
      unfold roundsUp at hup
      split at hup
      · cases hup
      · simp only [Bool.or_eq_true, decide_eq_true_eq, Bool.and_eq_true, beq_iff_eq] at hup
        have e1 : (a - f.mag k) * den = rem * (f.mag (k + 1) - f.mag k) := h3
        constructor
        · have : (den : ℚ) ≤ 2 * rem := by
            have : den ≤ 2 * rem := by omega
            exact_mod_cast this
          nlinarith
        · intro he
          rcases hup with h | h
          · exfalso
            have : (den : ℚ) < 2 * rem := by exact_mod_cast h
            nlinarith
          · exact h.2
    · intro hup
      have e1 : (a - f.mag k) * den = rem * (f.mag (k + 1) - f.mag k) := h3
      unfold roundsUp at hup
      split at hup
      · rename_i h0
        have := hrem0 h0
        constructor
        · linarith
        · intro he; exfalso; linarith
      · simp only [Bool.or_eq_false_iff, decide_eq_false_iff_not, Bool.and_eq_false_iff, beq_eq_false_iff_ne] at hup
        constructor
        · have : (2 * rem : ℚ) ≤ den := by
            have : 2 * rem ≤ den := by omega
            exact_mod_cast this
          nlinarith
        · intro he
          have : (2 * rem : ℚ) = den := by
            have h5 : (a - f.mag k) * 2 = f.mag (k + 1) - f.mag k := by linarith
            have h6 : (a - f.mag k) ≠ 0 := by intro h; rw [h] at h5; linarith
            have h7 : (a - f.mag k) * den = (a - f.mag k) * (2 * rem) := by rw [e1, ← h5]; ring
            exact (mul_left_cancel₀ h6 h7).symm
          have : 2 * rem = den := by exact_mod_cast this
          rcases hup.2 with h | h
          · exact absurd this h
          · omega
  rcases r with ⟨mode, dither⟩
  cases mode with
  | rn =>
    refine ⟨_, hnear dither, ?_⟩
    · simp only [FloatFmt.overflow, reduceCtorEq, if_false]
      generalize (if roundsUp ⟨.rn, dither⟩ neg k rem den = true then k + 1 else k) = c
      by_cases hc : c ≤ f.maxCode
      · rw [if_pos hc]; split <;> omega
      · rw [if_neg hc, hov _ hc]; split <;> omega
  | rz =>
    refine ⟨_, f.below_of h1 h2, ?_⟩
    simp only [hdn ⟨.rz, dither⟩ (.inl rfl), Bool.false_eq_true, if_false, FloatFmt.overflow, reduceCtorEq, false_and]
    split
    · split <;> omega
    · split <;> omega
  | ru =>
    cases neg with
    | true =>
      refine ⟨_, by simpa using f.below_of h1 h2, ?_⟩
      simp only [hdn ⟨.ru, dither⟩ (by simp), Bool.false_eq_true, if_false, FloatFmt.overflow, reduceCtorEq, false_and]
      split
      · split <;> omega
      · split <;> simp_all <;> omega
    | false =>
      refine ⟨_, by simpa using hab ⟨.ru, dither⟩ (by simp), ?_⟩
      simp only [FloatFmt.overflow, reduceCtorEq, false_and, if_false, Bool.false_eq_true]
      generalize (if roundsUp ⟨.ru, dither⟩ false k rem den = true then k + 1 else k) = c
      by_cases hc : c ≤ f.maxCode
      · rw [if_pos hc]; split <;> omega
      · rw [if_neg hc, hov _ hc]; split <;> omega
  | rd =>
    cases neg with
    | false =>
      refine ⟨_, by simpa using f.below_of h1 h2, ?_⟩
      simp only [hdn ⟨.rd, dither⟩ (by simp), Bool.false_eq_true, if_false, FloatFmt.overflow, reduceCtorEq, false_and]
      split
      · split <;> omega
      · split <;> simp_all <;> omega
    | true =>
      refine ⟨_, by simpa using hab ⟨.rd, dither⟩ (by simp), ?_⟩
      simp only [FloatFmt.overflow, reduceCtorEq, false_and, if_false, if_true]
      generalize (if roundsUp ⟨.rd, dither⟩ true k rem den = true then k + 1 else k) = c
      by_cases hc : c ≤ f.maxCode
      · rw [if_pos hc]; split <;> omega
      · rw [if_neg hc, hov _ hc]; split <;> omega
  | rdi =>
    by_cases hmax : a ≤ f.mag f.maxCode
    · have hk : k ≤ f.maxCode := f.mag_strictMono.le_iff_le.mp (h1.trans hmax)
      have hfl : ⌊32 * ((a - f.mag k) / (f.mag (k + 1) - f.mag k))⌋ = ((32 * rem / den : Nat) : ℤ) := by
        have : (a - f.mag k) / (f.mag (k + 1) - f.mag k) = rem / den := by
          rw [div_eq_div_iff (ne_of_gt hu) (ne_of_gt hden)]; exact h3
        rw [this]
        have e2 : (32 : ℚ) * (rem / den) = ((32 * rem : Nat) : ℚ) / (den : Nat) := by push_cast; ring
        rw [e2]
        exact Rat.floor_natCast_div_natCast _ _
      have hup : roundsUp ⟨.rdi, dither⟩ neg k rem den = decide ((dither : ℤ) < ((32 * rem / den : Nat) : ℤ)) := by
        unfold roundsUp
        split
        · rename_i h0; simp [h0]
        · simp only [Int.ofNat_lt]
      have hc : (if roundsUp ⟨.rdi, dither⟩ neg k rem den then k + 1 else k) ≤ f.maxCode := by
        rcases Nat.lt_or_eq_of_le hk with h | h
        · split <;> omega
        · have h5 : a = f.mag k := le_antisymm (h ▸ hmax) h1
          have h0 : rem = 0 := by
            by_contra h0
            exact absurd (hrem1 h0) (by rw [h5]; exact lt_irrefl _)
          simp [roundsUp, h0, hk]
      have hrn : (if roundsUp RMode.rn neg k rem den then k + 1 else k) ≤ f.maxCode := by
        rcases Nat.lt_or_eq_of_le hk with h | h
        · split <;> omega
        · have h5 : a = f.mag k := le_antisymm (h ▸ hmax) h1
          have h0 : rem = 0 := by
            by_contra h0
            exact absurd (hrem1 h0) (by rw [h5]; exact lt_irrefl _)
          simp [roundsUp, h0, hk]
      refine ⟨_, ⟨fun _ => ⟨k, ?_, rfl⟩, fun h => absurd hmax (not_le.mpr h)⟩, ?_⟩
      · have := f.below_of h1 h2
        rwa [min_eq_left hk] at this
      · simp only [if_true]
        rw [if_pos hrn, hup, hfl]
        rw [hup] at hc
        simp only [decide_eq_true_eq] at hc ⊢
        generalize (if (dither : ℤ) < ((32 * rem / den : Nat) : ℤ) then k + 1 else k) = c at *
        split <;> omega
    · have hk : f.maxCode ≤ k := by
        by_contra h
        exact hmax (h2.le.trans (f.mag_strictMono.monotone (by omega)))
      have hge : f.maxCode ≤ (if roundsUp ⟨.rdi, dither⟩ neg k rem den then k + 1 else k) := by split <;> omega
      have hge' : f.maxCode ≤ (if roundsUp RMode.rn neg k rem den then k + 1 else k) := by split <;> omega
      refine ⟨_, ⟨fun h => absurd h hmax, fun _ => hnear 0⟩, ?_⟩
      show _ = if _ then min (min (if roundsUp RMode.rn neg k rem den then k + 1 else k) (f.maxCode + 1)) f.maxCode
        else min (if roundsUp RMode.rn neg k rem den then k + 1 else k) (f.maxCode + 1)
      generalize (if roundsUp ⟨.rdi, dither⟩ neg k rem den = true then k + 1 else k) = c at *
      generalize (if roundsUp RMode.rn neg k rem den = true then k + 1 else k) = c' at *
      simp only [FloatFmt.overflow, if_true]
      by_cases hc : c' ≤ f.maxCode
      · have he : c' = f.maxCode := le_antisymm hc hge'
        rw [if_pos hc, he, Nat.min_eq_right hge]; split <;> simp
      · rw [if_neg hc, Nat.min_eq_right (by omega : f.maxCode + 1 ≤ c')]; split <;> simp

/-- The value of a finite number. -/
@[simp] theorem Num.val_fin (s : Bool) (m : Nat) (e : Int) : (Num.fin s m e).val = (if s then -1 else 1) * m * 2 ^ e := rfl

theorem Num.val_eq_zero (s : Bool) (m : Nat) (e : Int) : (Num.fin s m e).val = 0 ↔ m = 0 := by
  have : (2 : ℚ) ^ e ≠ 0 := by positivity
  cases s <;> simp [this]

theorem Num.val_neg (s : Bool) (m : Nat) (e : Int) (hm : m ≠ 0) : (Num.fin s m e).val < 0 ↔ s = true := by
  have h1 : (0 : ℚ) < m := by exact_mod_cast Nat.pos_of_ne_zero hm
  have h2 : (0 : ℚ) < 2 ^ e := by positivity
  have h3 := mul_pos h1 h2
  cases s <;> simp <;> linarith

theorem Num.val_abs (s : Bool) (m : Nat) (e : Int) : |(Num.fin s m e).val| = m * 2 ^ e := by
  have h3 : (0 : ℚ) ≤ m * 2 ^ e := by positivity
  cases s
  · simp only [Num.val_fin, Bool.false_eq_true, if_false, one_mul]; exact abs_of_nonneg h3
  · simp only [Num.val_fin, if_true, neg_mul, one_mul, abs_neg]; exact abs_of_nonneg h3

theorem Num.finite_iff (x : Num) : x.finite = true ↔ ∃ s m e, x = .fin s m e := by
  cases x <;> simp [Num.finite]

/-- A nonzero number rounded to a code (03 R82, R85). -/
theorem FloatFmt.round_roundsTo (f : FloatFmt) (hb : 0 < f.mbits) (r : RMode) (sat : Bool) (s : Bool) (m : Nat) (e : Int)
    (hm : m ≠ 0) : f.RoundsTo r sat (Num.fin s m e).val (f.round r sat (.fin s m e)) := by
  obtain ⟨k, h1, h2⟩ := f.roundMag_rounds hb r sat s m e (Nat.pos_of_ne_zero hm)
  refine ⟨k, ?_, ?_⟩
  · rw [Num.val_abs]
    have : decide ((Num.fin s m e).val < 0) = s := by
      rw [Bool.eq_iff_iff, decide_eq_true_eq]; exact Num.val_neg s m e hm
    rw [this]; exact h1
  · have : decide ((Num.fin s m e).val < 0) = s := by
      rw [Bool.eq_iff_iff, decide_eq_true_eq]; exact Num.val_neg s m e hm
    rw [this]
    simp only [FloatFmt.round, hm, if_false, h2, FloatFmt.signBit]

/-- What a scaled mantissa stands for. -/
theorem Num.scaled_val (s : Bool) (m : Nat) (e q : Int) (h : q ≤ e) :
    ((Num.fin s m e).scaled q : ℚ) * 2 ^ q = (Num.fin s m e).val := by
  have hz : (2 : ℚ) ≠ 0 := by norm_num
  obtain ⟨d, hd⟩ : ∃ d : Nat, e - q = d := ⟨(e - q).toNat, by omega⟩
  simp only [Num.scaled, hd, Int.toNat_natCast, Num.val_fin]
  have : (2 : ℚ) ^ e = 2 ^ d * 2 ^ q := by
    rw [← zpow_natCast (2 : ℚ) d, ← zpow_add₀ hz]; congr 1; omega
  rw [this]
  cases s <;> (push_cast; simp; ring)

theorem Num.ofInt_val (x e : Int) : (Num.ofInt x e).val = x * 2 ^ e := by
  simp only [Num.ofInt, Num.val_fin]
  congr 1
  rcases lt_or_ge x 0 with h | h
  · have : (x.natAbs : ℚ) = -x := by
      rw [Nat.cast_natAbs, abs_of_neg h]; push_cast; ring
    simp [h, this]
  · have : (x.natAbs : ℚ) = x := by
      rw [Nat.cast_natAbs, abs_of_nonneg h]
    simp [not_lt.mpr h, this]

/-- The sum of two numbers is exact. -/
theorem Num.add_sum (rd : Bool) (a b : Num) : Num.Sum a b (Num.add rd a b) := by
  refine ⟨?_, ?_, ?_⟩
  · rintro (rfl | rfl | ⟨s, rfl, rfl⟩)
    · rfl
    · cases a <;> rfl
    · cases s <;> rfl
  · rintro s (⟨rfl, rfl | h⟩ | ⟨rfl, h⟩)
    · simp [Num.add]
    · obtain ⟨t, m, e, rfl⟩ := (Num.finite_iff _).mp h; rfl
    · obtain ⟨t, m, e, rfl⟩ := (Num.finite_iff _).mp h; rfl
  · intro ha hb
    obtain ⟨s, m, e, rfl⟩ := (Num.finite_iff _).mp ha
    obtain ⟨t, n, g, rfl⟩ := (Num.finite_iff _).mp hb
    simp only [Num.add]
    split
    · rename_i h; obtain ⟨rfl, rfl⟩ := h
      exact ⟨rfl, by simp⟩
    · refine ⟨rfl, ?_⟩
      rw [Num.ofInt_val, ← Num.scaled_val s m e (min e g) (min_le_left _ _), ← Num.scaled_val t n g (min e g) (min_le_right _ _)]
      push_cast; ring

/-- The product of two numbers is exact. -/
theorem Num.mul_product (a b : Num) : Num.Product a b (Num.mul a b) := by
  have hz : (2 : ℚ) ≠ 0 := by norm_num
  refine ⟨?_, ?_, ?_⟩
  · rintro (rfl | rfl | ⟨s, rfl, h⟩ | ⟨s, rfl, h⟩)
    · rfl
    · cases a <;> rfl
    · cases b <;> simp_all [Num.isZero, Num.mul]
    · cases a <;> simp_all [Num.isZero, Num.mul]
  · rintro (⟨h1, h2, h3, h4⟩ | ⟨h1, h2, h3, h4⟩)
    · cases a <;> cases b <;> simp_all [Num.isZero, Num.mul, Num.finite, Num.neg]
    · cases a <;> cases b <;> simp_all [Num.isZero, Num.mul, Num.finite, Num.neg]
  · intro ha hb
    obtain ⟨s, m, e, rfl⟩ := (Num.finite_iff _).mp ha
    obtain ⟨t, n, g, rfl⟩ := (Num.finite_iff _).mp hb
    refine ⟨rfl, ?_, rfl⟩
    simp only [Num.mul, Num.val_fin, zpow_add₀ hz]
    cases s <;> cases t <;> (push_cast; simp; ring)

/-- A code that is zero, an infinity or a NaN is not flushed. -/
theorem FloatFmt.flush_of (f : FloatFmt) (ftz : Bool) (c : Nat) (h : f.subnormal c = false) : f.flush ftz c = c := by
  simp [FloatFmt.flush, h]

/-- The formats whose codes above the finite ones are an infinity and NaNs: FP32, FP16, BF16 (03 R77). -/
def FloatFmt.plain (f : FloatFmt) : Prop :=
  0 < f.mbits ∧ f.beyond = .infinite ∧ (∀ s, f.subnormal (f.signBit s) = false) ∧
  (∀ s, f.subnormal (f.signBit s + (f.maxCode + 1)) = false) ∧ f.subnormal f.nan = false

theorem FloatFmt.plain_fp32 : FloatFmt.fp32.plain := by
  refine ⟨by decide, rfl, ?_, ?_, by decide⟩ <;> intro s <;> cases s <;> decide
theorem FloatFmt.plain_fp16 : FloatFmt.fp16.plain := by
  refine ⟨by decide, rfl, ?_, ?_, by decide⟩ <;> intro s <;> cases s <;> decide
theorem FloatFmt.plain_bf16 : FloatFmt.bf16.plain := by
  refine ⟨by decide, rfl, ?_, ?_, by decide⟩ <;> intro s <;> cases s <;> decide

/-- A result rounded without .ftz. -/
theorem FloatFmt.round_delivers (f : FloatFmt) (hb : 0 < f.mbits) (r : RMode) (sat : Bool) (p : Num) :
    f.Delivers r sat false false p (f.round r sat p) := by
  refine ⟨?_, ?_, ?_, ?_⟩
  · rintro rfl; rfl
  · rintro s rfl; simp [FloatFmt.round, FloatFmt.signBit]
  · intro h h0
    obtain ⟨s, m, e, rfl⟩ := (Num.finite_iff _).mp h
    rw [Num.val_eq_zero] at h0
    simp [FloatFmt.round, h0, FloatFmt.signBit]
  · intro h h0
    obtain ⟨s, m, e, rfl⟩ := (Num.finite_iff _).mp h
    rw [Ne, Num.val_eq_zero] at h0
    exact ⟨_, f.round_roundsTo hb r sat s m e h0, by simp [FloatFmt.flush]⟩

/-- A product rounded and flushed. -/
theorem FloatFmt.mul_delivers (f : FloatFmt) (hf : f.plain) (r : Rnd) (ftz : Bool) (p : Num) :
    f.Delivers (RMode.plain r) false ftz false p (f.flush ftz (f.round (RMode.plain r) false p)) := by
  obtain ⟨hb, hi, hz, hinf, hn⟩ := hf
  refine ⟨?_, ?_, ?_, ?_⟩
  · rintro rfl
    exact f.flush_of ftz _ hn
  · rintro s rfl
    have : f.round (RMode.plain r) false (.inf s) = f.signBit s + (f.maxCode + 1) := by
      simp [FloatFmt.round, FloatFmt.signBit, hi]
    rw [this, f.flush_of ftz _ (hinf s)]; simp [hi]
  · intro h h0
    obtain ⟨s, m, e, rfl⟩ := (Num.finite_iff _).mp h
    rw [Num.val_eq_zero] at h0
    have : f.round (RMode.plain r) false (.fin s m e) = f.signBit false := by simp [FloatFmt.round, h0, FloatFmt.signBit]
    rw [this, f.flush_of ftz _ (hz false)]
  · intro h h0
    obtain ⟨s, m, e, rfl⟩ := (Num.finite_iff _).mp h
    rw [Ne, Num.val_eq_zero] at h0
    exact ⟨_, f.round_roundsTo hb _ false s m e h0, rfl⟩

/-- A sum rounded and flushed: an exact zero is -0 only for opposite-signed zeros under .rd (03 R82). -/
theorem FloatFmt.add_delivers (f : FloatFmt) (hf : f.plain) (r : Rnd) (ftz : Bool) (a b : Num) :
    f.Delivers (RMode.plain r) false ftz (zeroSum r a b) (Num.add (r == .rd) a b)
      (f.flush ftz (f.result r (Num.add (r == .rd) a b))) := by
  have hm := f.mul_delivers hf r ftz (Num.add (r == .rd) a b)
  obtain ⟨hb, hi, hz, hinf, hn⟩ := hf
  have hres : (∀ e, Num.add (r == .rd) a b ≠ .fin true 0 e) →
      f.result r (Num.add (r == .rd) a b) = f.round (RMode.plain r) false (Num.add (r == .rd) a b) := by
    intro h
    unfold FloatFmt.result
    split
    · rename_i e he; exact absurd he (h e)
    · rfl
  by_cases hneg : ∃ e, Num.add (r == .rd) a b = .fin true 0 e
  · -- only a sum of two zeros of opposite sign under .rd is a negative zero
    obtain ⟨e, he⟩ := hneg
    have hzs : zeroSum r a b = true := by
      revert he
      cases a <;> cases b <;> simp only [Num.add] <;> (try split) <;> simp_all [Num.ofInt, zeroSum, Num.isZero, Num.neg]
      all_goals (intro h; intros; try omega)
    have hr : r = .rd := by
      have := hzs
      simp only [zeroSum, Bool.and_eq_true, beq_iff_eq] at this
      exact this.1.1.1
    rw [he, hzs]
    refine ⟨by simp, by simp, ?_, ?_⟩
    · intro _ _
      simp only [FloatFmt.result, hr, if_true]
      have := hz true
      simp only [FloatFmt.signBit, if_true] at this ⊢
      exact f.flush_of ftz _ this
    · intro _ h0; exact absurd ((Num.val_eq_zero _ _ _).mpr rfl) h0
  · rw [hres (fun e he => hneg ⟨e, he⟩)]
    refine ⟨hm.1, hm.2.1, ?_, hm.2.2.2⟩
    intro h h0
    rw [hm.2.2.1 h h0]
    have hzs : zeroSum r a b = false := by
      by_contra hc
      simp only [Bool.not_eq_false] at hc
      simp only [zeroSum, Bool.and_eq_true, beq_iff_eq, bne_iff_ne] at hc
      obtain ⟨⟨⟨rfl, ha⟩, hb'⟩, hs⟩ := hc
      cases a <;> cases b <;> simp [Num.isZero] at ha hb'
      subst ha hb'
      exact hneg ⟨0, by simp [Num.add, Num.neg] at hs ⊢; exact hs⟩
    rw [hzs]

end Sys2Proof.Machine
end

