-- ==== Sys2Proof/Laws/State.lean ====
section
/-! SUPPORT. Laws of the updates of State: what each leaves in each field, and what the units' readers find afterwards. -/

namespace Sys2Proof.Machine

variable (s : State)

section setCore
variable (g : Nat) (c : Core)

@[simp] theorem State.setCore_fuses : (s.setCore g c).fuses = s.fuses := rfl
@[simp] theorem State.setCore_images : (s.setCore g c).images = s.images := rfl
@[simp] theorem State.setCore_bootFaults : (s.setCore g c).bootFaults = s.bootFaults := rfl
@[simp] theorem State.setCore_pkg : (s.setCore g c).pkg = s.pkg := rfl
@[simp] theorem State.setCore_queues : (s.setCore g c).queues = s.queues := rfl
@[simp] theorem State.setCore_ctxs : (s.setCore g c).ctxs = s.ctxs := rfl
@[simp] theorem State.setCore_launches : (s.setCore g c).launches = s.launches := rfl
@[simp] theorem State.setCore_renders : (s.setCore g c).renders = s.renders := rfl
@[simp] theorem State.setCore_threads : (s.setCore g c).threads = s.threads := rfl
@[simp] theorem State.setCore_frames : (s.setCore g c).frames = s.frames := rfl
@[simp] theorem State.setCore_cores : (s.setCore g c).cores = s.cores.put g c := rfl
@[simp] theorem State.setCore_clusters : (s.setCore g c).clusters = s.clusters := rfl
@[simp] theorem State.setCore_dies : (s.setCore g c).dies = s.dies := rfl
@[simp] theorem State.setCore_dists : (s.setCore g c).dists = s.dists := rfl
@[simp] theorem State.setCore_groups : (s.setCore g c).groups = s.groups := rfl
@[simp] theorem State.setCore_mem : (s.setCore g c).mem = s.mem := rfl
@[simp] theorem State.setCore_poison : (s.setCore g c).poison = s.poison := rfl
@[simp] theorem State.setCore_stores : (s.setCore g c).stores = s.stores := rfl
@[simp] theorem State.setCore_appends : (s.setCore g c).appends = s.appends := rfl
@[simp] theorem State.setCore_futures : (s.setCore g c).futures = s.futures := rfl
@[simp] theorem State.setCore_carver : (s.setCore g c).carver = s.carver := rfl
@[simp] theorem State.setCore_net : (s.setCore g c).net = s.net := rfl
@[simp] theorem State.setCore_doorbells : (s.setCore g c).doorbells = s.doorbells := rfl
@[simp] theorem State.setCore_pages : (s.setCore g c).pages = s.pages := rfl
@[simp] theorem State.setCore_agings : (s.setCore g c).agings = s.agings := rfl
@[simp] theorem State.setCore_agedAt : (s.setCore g c).agedAt = s.agedAt := rfl
@[simp] theorem State.setCore_ages : (s.setCore g c).ages = s.ages := rfl
@[simp] theorem State.setCore_access : (s.setCore g c).access = s.access := rfl
@[simp] theorem State.setCore_backing : (s.setCore g c).backing = s.backing := rfl
@[simp] theorem State.setCore_backUsed : (s.setCore g c).backUsed = s.backUsed := rfl
@[simp] theorem State.setCore_mirrored : (s.setCore g c).mirrored = s.mirrored := rfl
@[simp] theorem State.setCore_heads : (s.setCore g c).heads = s.heads := rfl
@[simp] theorem State.setCore_peers : (s.setCore g c).peers = s.peers := rfl
@[simp] theorem State.setCore_lastReady : (s.setCore g c).lastReady = s.lastReady := rfl
@[simp] theorem State.setCore_readyAt : (s.setCore g c).readyAt = s.readyAt := rfl
@[simp] theorem State.setCore_readyBefore : (s.setCore g c).readyBefore = s.readyBefore := rfl
@[simp] theorem State.setCore_peerHeads : (s.setCore g c).peerHeads = s.peerHeads := rfl
@[simp] theorem State.setCore_takeover : (s.setCore g c).takeover = s.takeover := rfl
@[simp] theorem State.setCore_nextEdge : (s.setCore g c).nextEdge = s.nextEdge := rfl
@[simp] theorem State.setCore_half : (s.setCore g c).half = s.half := rfl
@[simp] theorem State.setCore_outputs : (s.setCore g c).outputs = s.outputs := rfl
@[simp] theorem State.setCore_issue : (s.setCore g c).issue = s.issue := rfl
@[simp] theorem State.setCore_inputs : (s.setCore g c).inputs = s.inputs := rfl
@[simp] theorem State.setCore_befalls : (s.setCore g c).befalls = s.befalls := rfl
@[simp] theorem State.setCore_cycle : (s.setCore g c).cycle = s.cycle := rfl
@[simp] theorem State.setCore_port : (s.setCore g c).port = s.port := rfl
@[simp] theorem State.setCore_nextId : (s.setCore g c).nextId = s.nextId := rfl
@[simp] theorem State.setCore_free : (s.setCore g c).free = s.free := rfl

end setCore

section onCore
variable (g : Nat) (f : Core → Core)

@[simp] theorem State.onCore_fuses : (s.onCore g f).fuses = s.fuses := rfl
@[simp] theorem State.onCore_images : (s.onCore g f).images = s.images := rfl
@[simp] theorem State.onCore_bootFaults : (s.onCore g f).bootFaults = s.bootFaults := rfl
@[simp] theorem State.onCore_pkg : (s.onCore g f).pkg = s.pkg := rfl
@[simp] theorem State.onCore_queues : (s.onCore g f).queues = s.queues := rfl
@[simp] theorem State.onCore_ctxs : (s.onCore g f).ctxs = s.ctxs := rfl
@[simp] theorem State.onCore_launches : (s.onCore g f).launches = s.launches := rfl
@[simp] theorem State.onCore_renders : (s.onCore g f).renders = s.renders := rfl
@[simp] theorem State.onCore_threads : (s.onCore g f).threads = s.threads := rfl
@[simp] theorem State.onCore_frames : (s.onCore g f).frames = s.frames := rfl
@[simp] theorem State.onCore_cores : (s.onCore g f).cores = s.cores.put g (f (s.core g)) := rfl
@[simp] theorem State.onCore_clusters : (s.onCore g f).clusters = s.clusters := rfl
@[simp] theorem State.onCore_dies : (s.onCore g f).dies = s.dies := rfl
@[simp] theorem State.onCore_dists : (s.onCore g f).dists = s.dists := rfl
@[simp] theorem State.onCore_groups : (s.onCore g f).groups = s.groups := rfl
@[simp] theorem State.onCore_mem : (s.onCore g f).mem = s.mem := rfl
@[simp] theorem State.onCore_poison : (s.onCore g f).poison = s.poison := rfl
@[simp] theorem State.onCore_stores : (s.onCore g f).stores = s.stores := rfl
@[simp] theorem State.onCore_appends : (s.onCore g f).appends = s.appends := rfl
@[simp] theorem State.onCore_futures : (s.onCore g f).futures = s.futures := rfl
@[simp] theorem State.onCore_carver : (s.onCore g f).carver = s.carver := rfl
@[simp] theorem State.onCore_net : (s.onCore g f).net = s.net := rfl
@[simp] theorem State.onCore_doorbells : (s.onCore g f).doorbells = s.doorbells := rfl
@[simp] theorem State.onCore_pages : (s.onCore g f).pages = s.pages := rfl
@[simp] theorem State.onCore_agings : (s.onCore g f).agings = s.agings := rfl
@[simp] theorem State.onCore_agedAt : (s.onCore g f).agedAt = s.agedAt := rfl
@[simp] theorem State.onCore_ages : (s.onCore g f).ages = s.ages := rfl
@[simp] theorem State.onCore_access : (s.onCore g f).access = s.access := rfl
@[simp] theorem State.onCore_backing : (s.onCore g f).backing = s.backing := rfl
@[simp] theorem State.onCore_backUsed : (s.onCore g f).backUsed = s.backUsed := rfl
@[simp] theorem State.onCore_mirrored : (s.onCore g f).mirrored = s.mirrored := rfl
@[simp] theorem State.onCore_heads : (s.onCore g f).heads = s.heads := rfl
@[simp] theorem State.onCore_peers : (s.onCore g f).peers = s.peers := rfl
@[simp] theorem State.onCore_lastReady : (s.onCore g f).lastReady = s.lastReady := rfl
@[simp] theorem State.onCore_readyAt : (s.onCore g f).readyAt = s.readyAt := rfl
@[simp] theorem State.onCore_readyBefore : (s.onCore g f).readyBefore = s.readyBefore := rfl
@[simp] theorem State.onCore_peerHeads : (s.onCore g f).peerHeads = s.peerHeads := rfl
@[simp] theorem State.onCore_takeover : (s.onCore g f).takeover = s.takeover := rfl
@[simp] theorem State.onCore_nextEdge : (s.onCore g f).nextEdge = s.nextEdge := rfl
@[simp] theorem State.onCore_half : (s.onCore g f).half = s.half := rfl
@[simp] theorem State.onCore_outputs : (s.onCore g f).outputs = s.outputs := rfl
@[simp] theorem State.onCore_issue : (s.onCore g f).issue = s.issue := rfl
@[simp] theorem State.onCore_inputs : (s.onCore g f).inputs = s.inputs := rfl
@[simp] theorem State.onCore_befalls : (s.onCore g f).befalls = s.befalls := rfl
@[simp] theorem State.onCore_cycle : (s.onCore g f).cycle = s.cycle := rfl
@[simp] theorem State.onCore_port : (s.onCore g f).port = s.port := rfl
@[simp] theorem State.onCore_nextId : (s.onCore g f).nextId = s.nextId := rfl
@[simp] theorem State.onCore_free : (s.onCore g f).free = s.free := rfl

end onCore

section setCluster
variable (n : Nat) (c : Cluster)

@[simp] theorem State.setCluster_fuses : (s.setCluster n c).fuses = s.fuses := rfl
@[simp] theorem State.setCluster_images : (s.setCluster n c).images = s.images := rfl
@[simp] theorem State.setCluster_bootFaults : (s.setCluster n c).bootFaults = s.bootFaults := rfl
@[simp] theorem State.setCluster_pkg : (s.setCluster n c).pkg = s.pkg := rfl
@[simp] theorem State.setCluster_queues : (s.setCluster n c).queues = s.queues := rfl
@[simp] theorem State.setCluster_ctxs : (s.setCluster n c).ctxs = s.ctxs := rfl
@[simp] theorem State.setCluster_launches : (s.setCluster n c).launches = s.launches := rfl
@[simp] theorem State.setCluster_renders : (s.setCluster n c).renders = s.renders := rfl
@[simp] theorem State.setCluster_threads : (s.setCluster n c).threads = s.threads := rfl
@[simp] theorem State.setCluster_frames : (s.setCluster n c).frames = s.frames := rfl
@[simp] theorem State.setCluster_cores : (s.setCluster n c).cores = s.cores := rfl
@[simp] theorem State.setCluster_clusters : (s.setCluster n c).clusters = s.clusters.put n c := rfl
@[simp] theorem State.setCluster_dies : (s.setCluster n c).dies = s.dies := rfl
@[simp] theorem State.setCluster_dists : (s.setCluster n c).dists = s.dists := rfl
@[simp] theorem State.setCluster_groups : (s.setCluster n c).groups = s.groups := rfl
@[simp] theorem State.setCluster_mem : (s.setCluster n c).mem = s.mem := rfl
@[simp] theorem State.setCluster_poison : (s.setCluster n c).poison = s.poison := rfl
@[simp] theorem State.setCluster_stores : (s.setCluster n c).stores = s.stores := rfl
@[simp] theorem State.setCluster_appends : (s.setCluster n c).appends = s.appends := rfl
@[simp] theorem State.setCluster_futures : (s.setCluster n c).futures = s.futures := rfl
@[simp] theorem State.setCluster_carver : (s.setCluster n c).carver = s.carver := rfl
@[simp] theorem State.setCluster_net : (s.setCluster n c).net = s.net := rfl
@[simp] theorem State.setCluster_doorbells : (s.setCluster n c).doorbells = s.doorbells := rfl
@[simp] theorem State.setCluster_pages : (s.setCluster n c).pages = s.pages := rfl
@[simp] theorem State.setCluster_agings : (s.setCluster n c).agings = s.agings := rfl
@[simp] theorem State.setCluster_agedAt : (s.setCluster n c).agedAt = s.agedAt := rfl
@[simp] theorem State.setCluster_ages : (s.setCluster n c).ages = s.ages := rfl
@[simp] theorem State.setCluster_access : (s.setCluster n c).access = s.access := rfl
@[simp] theorem State.setCluster_backing : (s.setCluster n c).backing = s.backing := rfl
@[simp] theorem State.setCluster_backUsed : (s.setCluster n c).backUsed = s.backUsed := rfl
@[simp] theorem State.setCluster_mirrored : (s.setCluster n c).mirrored = s.mirrored := rfl
@[simp] theorem State.setCluster_heads : (s.setCluster n c).heads = s.heads := rfl
@[simp] theorem State.setCluster_peers : (s.setCluster n c).peers = s.peers := rfl
@[simp] theorem State.setCluster_lastReady : (s.setCluster n c).lastReady = s.lastReady := rfl
@[simp] theorem State.setCluster_readyAt : (s.setCluster n c).readyAt = s.readyAt := rfl
@[simp] theorem State.setCluster_readyBefore : (s.setCluster n c).readyBefore = s.readyBefore := rfl
@[simp] theorem State.setCluster_peerHeads : (s.setCluster n c).peerHeads = s.peerHeads := rfl
@[simp] theorem State.setCluster_takeover : (s.setCluster n c).takeover = s.takeover := rfl
@[simp] theorem State.setCluster_nextEdge : (s.setCluster n c).nextEdge = s.nextEdge := rfl
@[simp] theorem State.setCluster_half : (s.setCluster n c).half = s.half := rfl
@[simp] theorem State.setCluster_outputs : (s.setCluster n c).outputs = s.outputs := rfl
@[simp] theorem State.setCluster_issue : (s.setCluster n c).issue = s.issue := rfl
@[simp] theorem State.setCluster_inputs : (s.setCluster n c).inputs = s.inputs := rfl
@[simp] theorem State.setCluster_befalls : (s.setCluster n c).befalls = s.befalls := rfl
@[simp] theorem State.setCluster_cycle : (s.setCluster n c).cycle = s.cycle := rfl
@[simp] theorem State.setCluster_port : (s.setCluster n c).port = s.port := rfl
@[simp] theorem State.setCluster_nextId : (s.setCluster n c).nextId = s.nextId := rfl
@[simp] theorem State.setCluster_free : (s.setCluster n c).free = s.free := rfl

end setCluster

section onCluster
variable (n : Nat) (f : Cluster → Cluster)

@[simp] theorem State.onCluster_fuses : (s.onCluster n f).fuses = s.fuses := rfl
@[simp] theorem State.onCluster_images : (s.onCluster n f).images = s.images := rfl
@[simp] theorem State.onCluster_bootFaults : (s.onCluster n f).bootFaults = s.bootFaults := rfl
@[simp] theorem State.onCluster_pkg : (s.onCluster n f).pkg = s.pkg := rfl
@[simp] theorem State.onCluster_queues : (s.onCluster n f).queues = s.queues := rfl
@[simp] theorem State.onCluster_ctxs : (s.onCluster n f).ctxs = s.ctxs := rfl
@[simp] theorem State.onCluster_launches : (s.onCluster n f).launches = s.launches := rfl
@[simp] theorem State.onCluster_renders : (s.onCluster n f).renders = s.renders := rfl
@[simp] theorem State.onCluster_threads : (s.onCluster n f).threads = s.threads := rfl
@[simp] theorem State.onCluster_frames : (s.onCluster n f).frames = s.frames := rfl
@[simp] theorem State.onCluster_cores : (s.onCluster n f).cores = s.cores := rfl
@[simp] theorem State.onCluster_clusters : (s.onCluster n f).clusters = s.clusters.put n (f (s.cluster n)) := rfl
@[simp] theorem State.onCluster_dies : (s.onCluster n f).dies = s.dies := rfl
@[simp] theorem State.onCluster_dists : (s.onCluster n f).dists = s.dists := rfl
@[simp] theorem State.onCluster_groups : (s.onCluster n f).groups = s.groups := rfl
@[simp] theorem State.onCluster_mem : (s.onCluster n f).mem = s.mem := rfl
@[simp] theorem State.onCluster_poison : (s.onCluster n f).poison = s.poison := rfl
@[simp] theorem State.onCluster_stores : (s.onCluster n f).stores = s.stores := rfl
@[simp] theorem State.onCluster_appends : (s.onCluster n f).appends = s.appends := rfl
@[simp] theorem State.onCluster_futures : (s.onCluster n f).futures = s.futures := rfl
@[simp] theorem State.onCluster_carver : (s.onCluster n f).carver = s.carver := rfl
@[simp] theorem State.onCluster_net : (s.onCluster n f).net = s.net := rfl
@[simp] theorem State.onCluster_doorbells : (s.onCluster n f).doorbells = s.doorbells := rfl
@[simp] theorem State.onCluster_pages : (s.onCluster n f).pages = s.pages := rfl
@[simp] theorem State.onCluster_agings : (s.onCluster n f).agings = s.agings := rfl
@[simp] theorem State.onCluster_agedAt : (s.onCluster n f).agedAt = s.agedAt := rfl
@[simp] theorem State.onCluster_ages : (s.onCluster n f).ages = s.ages := rfl
@[simp] theorem State.onCluster_access : (s.onCluster n f).access = s.access := rfl
@[simp] theorem State.onCluster_backing : (s.onCluster n f).backing = s.backing := rfl
@[simp] theorem State.onCluster_backUsed : (s.onCluster n f).backUsed = s.backUsed := rfl
@[simp] theorem State.onCluster_mirrored : (s.onCluster n f).mirrored = s.mirrored := rfl
@[simp] theorem State.onCluster_heads : (s.onCluster n f).heads = s.heads := rfl
@[simp] theorem State.onCluster_peers : (s.onCluster n f).peers = s.peers := rfl
@[simp] theorem State.onCluster_lastReady : (s.onCluster n f).lastReady = s.lastReady := rfl
@[simp] theorem State.onCluster_readyAt : (s.onCluster n f).readyAt = s.readyAt := rfl
@[simp] theorem State.onCluster_readyBefore : (s.onCluster n f).readyBefore = s.readyBefore := rfl
@[simp] theorem State.onCluster_peerHeads : (s.onCluster n f).peerHeads = s.peerHeads := rfl
@[simp] theorem State.onCluster_takeover : (s.onCluster n f).takeover = s.takeover := rfl
@[simp] theorem State.onCluster_nextEdge : (s.onCluster n f).nextEdge = s.nextEdge := rfl
@[simp] theorem State.onCluster_half : (s.onCluster n f).half = s.half := rfl
@[simp] theorem State.onCluster_outputs : (s.onCluster n f).outputs = s.outputs := rfl
@[simp] theorem State.onCluster_issue : (s.onCluster n f).issue = s.issue := rfl
@[simp] theorem State.onCluster_inputs : (s.onCluster n f).inputs = s.inputs := rfl
@[simp] theorem State.onCluster_befalls : (s.onCluster n f).befalls = s.befalls := rfl
@[simp] theorem State.onCluster_cycle : (s.onCluster n f).cycle = s.cycle := rfl
@[simp] theorem State.onCluster_port : (s.onCluster n f).port = s.port := rfl
@[simp] theorem State.onCluster_nextId : (s.onCluster n f).nextId = s.nextId := rfl
@[simp] theorem State.onCluster_free : (s.onCluster n f).free = s.free := rfl

end onCluster

section onDie
variable (p : Nat) (f : Die → Die)

@[simp] theorem State.onDie_fuses : (s.onDie p f).fuses = s.fuses := rfl
@[simp] theorem State.onDie_images : (s.onDie p f).images = s.images := rfl
@[simp] theorem State.onDie_bootFaults : (s.onDie p f).bootFaults = s.bootFaults := rfl
@[simp] theorem State.onDie_pkg : (s.onDie p f).pkg = s.pkg := rfl
@[simp] theorem State.onDie_queues : (s.onDie p f).queues = s.queues := rfl
@[simp] theorem State.onDie_ctxs : (s.onDie p f).ctxs = s.ctxs := rfl
@[simp] theorem State.onDie_launches : (s.onDie p f).launches = s.launches := rfl
@[simp] theorem State.onDie_renders : (s.onDie p f).renders = s.renders := rfl
@[simp] theorem State.onDie_threads : (s.onDie p f).threads = s.threads := rfl
@[simp] theorem State.onDie_frames : (s.onDie p f).frames = s.frames := rfl
@[simp] theorem State.onDie_cores : (s.onDie p f).cores = s.cores := rfl
@[simp] theorem State.onDie_clusters : (s.onDie p f).clusters = s.clusters := rfl
@[simp] theorem State.onDie_dies : (s.onDie p f).dies = s.dies.put p (f (s.die p)) := rfl
@[simp] theorem State.onDie_dists : (s.onDie p f).dists = s.dists := rfl
@[simp] theorem State.onDie_groups : (s.onDie p f).groups = s.groups := rfl
@[simp] theorem State.onDie_mem : (s.onDie p f).mem = s.mem := rfl
@[simp] theorem State.onDie_poison : (s.onDie p f).poison = s.poison := rfl
@[simp] theorem State.onDie_stores : (s.onDie p f).stores = s.stores := rfl
@[simp] theorem State.onDie_appends : (s.onDie p f).appends = s.appends := rfl
@[simp] theorem State.onDie_futures : (s.onDie p f).futures = s.futures := rfl
@[simp] theorem State.onDie_carver : (s.onDie p f).carver = s.carver := rfl
@[simp] theorem State.onDie_net : (s.onDie p f).net = s.net := rfl
@[simp] theorem State.onDie_doorbells : (s.onDie p f).doorbells = s.doorbells := rfl
@[simp] theorem State.onDie_pages : (s.onDie p f).pages = s.pages := rfl
@[simp] theorem State.onDie_agings : (s.onDie p f).agings = s.agings := rfl
@[simp] theorem State.onDie_agedAt : (s.onDie p f).agedAt = s.agedAt := rfl
@[simp] theorem State.onDie_ages : (s.onDie p f).ages = s.ages := rfl
@[simp] theorem State.onDie_access : (s.onDie p f).access = s.access := rfl
@[simp] theorem State.onDie_backing : (s.onDie p f).backing = s.backing := rfl
@[simp] theorem State.onDie_backUsed : (s.onDie p f).backUsed = s.backUsed := rfl
@[simp] theorem State.onDie_mirrored : (s.onDie p f).mirrored = s.mirrored := rfl
@[simp] theorem State.onDie_heads : (s.onDie p f).heads = s.heads := rfl
@[simp] theorem State.onDie_peers : (s.onDie p f).peers = s.peers := rfl
@[simp] theorem State.onDie_lastReady : (s.onDie p f).lastReady = s.lastReady := rfl
@[simp] theorem State.onDie_readyAt : (s.onDie p f).readyAt = s.readyAt := rfl
@[simp] theorem State.onDie_readyBefore : (s.onDie p f).readyBefore = s.readyBefore := rfl
@[simp] theorem State.onDie_peerHeads : (s.onDie p f).peerHeads = s.peerHeads := rfl
@[simp] theorem State.onDie_takeover : (s.onDie p f).takeover = s.takeover := rfl
@[simp] theorem State.onDie_nextEdge : (s.onDie p f).nextEdge = s.nextEdge := rfl
@[simp] theorem State.onDie_half : (s.onDie p f).half = s.half := rfl
@[simp] theorem State.onDie_outputs : (s.onDie p f).outputs = s.outputs := rfl
@[simp] theorem State.onDie_issue : (s.onDie p f).issue = s.issue := rfl
@[simp] theorem State.onDie_inputs : (s.onDie p f).inputs = s.inputs := rfl
@[simp] theorem State.onDie_befalls : (s.onDie p f).befalls = s.befalls := rfl
@[simp] theorem State.onDie_cycle : (s.onDie p f).cycle = s.cycle := rfl
@[simp] theorem State.onDie_port : (s.onDie p f).port = s.port := rfl
@[simp] theorem State.onDie_nextId : (s.onDie p f).nextId = s.nextId := rfl
@[simp] theorem State.onDie_free : (s.onDie p f).free = s.free := rfl

end onDie

section onDist
variable (v : Nat) (f : Dist → Dist)

@[simp] theorem State.onDist_fuses : (s.onDist v f).fuses = s.fuses := rfl
@[simp] theorem State.onDist_images : (s.onDist v f).images = s.images := rfl
@[simp] theorem State.onDist_bootFaults : (s.onDist v f).bootFaults = s.bootFaults := rfl
@[simp] theorem State.onDist_pkg : (s.onDist v f).pkg = s.pkg := rfl
@[simp] theorem State.onDist_queues : (s.onDist v f).queues = s.queues := rfl
@[simp] theorem State.onDist_ctxs : (s.onDist v f).ctxs = s.ctxs := rfl
@[simp] theorem State.onDist_launches : (s.onDist v f).launches = s.launches := rfl
@[simp] theorem State.onDist_renders : (s.onDist v f).renders = s.renders := rfl
@[simp] theorem State.onDist_threads : (s.onDist v f).threads = s.threads := rfl
@[simp] theorem State.onDist_frames : (s.onDist v f).frames = s.frames := rfl
@[simp] theorem State.onDist_cores : (s.onDist v f).cores = s.cores := rfl
@[simp] theorem State.onDist_clusters : (s.onDist v f).clusters = s.clusters := rfl
@[simp] theorem State.onDist_dies : (s.onDist v f).dies = s.dies := rfl
@[simp] theorem State.onDist_dists : (s.onDist v f).dists = s.dists.put v (f (s.dist v)) := rfl
@[simp] theorem State.onDist_groups : (s.onDist v f).groups = s.groups := rfl
@[simp] theorem State.onDist_mem : (s.onDist v f).mem = s.mem := rfl
@[simp] theorem State.onDist_poison : (s.onDist v f).poison = s.poison := rfl
@[simp] theorem State.onDist_stores : (s.onDist v f).stores = s.stores := rfl
@[simp] theorem State.onDist_appends : (s.onDist v f).appends = s.appends := rfl
@[simp] theorem State.onDist_futures : (s.onDist v f).futures = s.futures := rfl
@[simp] theorem State.onDist_carver : (s.onDist v f).carver = s.carver := rfl
@[simp] theorem State.onDist_net : (s.onDist v f).net = s.net := rfl
@[simp] theorem State.onDist_doorbells : (s.onDist v f).doorbells = s.doorbells := rfl
@[simp] theorem State.onDist_pages : (s.onDist v f).pages = s.pages := rfl
@[simp] theorem State.onDist_agings : (s.onDist v f).agings = s.agings := rfl
@[simp] theorem State.onDist_agedAt : (s.onDist v f).agedAt = s.agedAt := rfl
@[simp] theorem State.onDist_ages : (s.onDist v f).ages = s.ages := rfl
@[simp] theorem State.onDist_access : (s.onDist v f).access = s.access := rfl
@[simp] theorem State.onDist_backing : (s.onDist v f).backing = s.backing := rfl
@[simp] theorem State.onDist_backUsed : (s.onDist v f).backUsed = s.backUsed := rfl
@[simp] theorem State.onDist_mirrored : (s.onDist v f).mirrored = s.mirrored := rfl
@[simp] theorem State.onDist_heads : (s.onDist v f).heads = s.heads := rfl
@[simp] theorem State.onDist_peers : (s.onDist v f).peers = s.peers := rfl
@[simp] theorem State.onDist_lastReady : (s.onDist v f).lastReady = s.lastReady := rfl
@[simp] theorem State.onDist_readyAt : (s.onDist v f).readyAt = s.readyAt := rfl
@[simp] theorem State.onDist_readyBefore : (s.onDist v f).readyBefore = s.readyBefore := rfl
@[simp] theorem State.onDist_peerHeads : (s.onDist v f).peerHeads = s.peerHeads := rfl
@[simp] theorem State.onDist_takeover : (s.onDist v f).takeover = s.takeover := rfl
@[simp] theorem State.onDist_nextEdge : (s.onDist v f).nextEdge = s.nextEdge := rfl
@[simp] theorem State.onDist_half : (s.onDist v f).half = s.half := rfl
@[simp] theorem State.onDist_outputs : (s.onDist v f).outputs = s.outputs := rfl
@[simp] theorem State.onDist_issue : (s.onDist v f).issue = s.issue := rfl
@[simp] theorem State.onDist_inputs : (s.onDist v f).inputs = s.inputs := rfl
@[simp] theorem State.onDist_befalls : (s.onDist v f).befalls = s.befalls := rfl
@[simp] theorem State.onDist_cycle : (s.onDist v f).cycle = s.cycle := rfl
@[simp] theorem State.onDist_port : (s.onDist v f).port = s.port := rfl
@[simp] theorem State.onDist_nextId : (s.onDist v f).nextId = s.nextId := rfl
@[simp] theorem State.onDist_free : (s.onDist v f).free = s.free := rfl

end onDist

section onQueue
variable (q : Nat) (f : Queue → Queue)

@[simp] theorem State.onQueue_fuses : (s.onQueue q f).fuses = s.fuses := rfl
@[simp] theorem State.onQueue_images : (s.onQueue q f).images = s.images := rfl
@[simp] theorem State.onQueue_bootFaults : (s.onQueue q f).bootFaults = s.bootFaults := rfl
@[simp] theorem State.onQueue_pkg : (s.onQueue q f).pkg = s.pkg := rfl
@[simp] theorem State.onQueue_queues : (s.onQueue q f).queues = s.queues.put q (f (s.queue q)) := rfl
@[simp] theorem State.onQueue_ctxs : (s.onQueue q f).ctxs = s.ctxs := rfl
@[simp] theorem State.onQueue_launches : (s.onQueue q f).launches = s.launches := rfl
@[simp] theorem State.onQueue_renders : (s.onQueue q f).renders = s.renders := rfl
@[simp] theorem State.onQueue_threads : (s.onQueue q f).threads = s.threads := rfl
@[simp] theorem State.onQueue_frames : (s.onQueue q f).frames = s.frames := rfl
@[simp] theorem State.onQueue_cores : (s.onQueue q f).cores = s.cores := rfl
@[simp] theorem State.onQueue_clusters : (s.onQueue q f).clusters = s.clusters := rfl
@[simp] theorem State.onQueue_dies : (s.onQueue q f).dies = s.dies := rfl
@[simp] theorem State.onQueue_dists : (s.onQueue q f).dists = s.dists := rfl
@[simp] theorem State.onQueue_groups : (s.onQueue q f).groups = s.groups := rfl
@[simp] theorem State.onQueue_mem : (s.onQueue q f).mem = s.mem := rfl
@[simp] theorem State.onQueue_poison : (s.onQueue q f).poison = s.poison := rfl
@[simp] theorem State.onQueue_stores : (s.onQueue q f).stores = s.stores := rfl
@[simp] theorem State.onQueue_appends : (s.onQueue q f).appends = s.appends := rfl
@[simp] theorem State.onQueue_futures : (s.onQueue q f).futures = s.futures := rfl
@[simp] theorem State.onQueue_carver : (s.onQueue q f).carver = s.carver := rfl
@[simp] theorem State.onQueue_net : (s.onQueue q f).net = s.net := rfl
@[simp] theorem State.onQueue_doorbells : (s.onQueue q f).doorbells = s.doorbells := rfl
@[simp] theorem State.onQueue_pages : (s.onQueue q f).pages = s.pages := rfl
@[simp] theorem State.onQueue_agings : (s.onQueue q f).agings = s.agings := rfl
@[simp] theorem State.onQueue_agedAt : (s.onQueue q f).agedAt = s.agedAt := rfl
@[simp] theorem State.onQueue_ages : (s.onQueue q f).ages = s.ages := rfl
@[simp] theorem State.onQueue_access : (s.onQueue q f).access = s.access := rfl
@[simp] theorem State.onQueue_backing : (s.onQueue q f).backing = s.backing := rfl
@[simp] theorem State.onQueue_backUsed : (s.onQueue q f).backUsed = s.backUsed := rfl
@[simp] theorem State.onQueue_mirrored : (s.onQueue q f).mirrored = s.mirrored := rfl
@[simp] theorem State.onQueue_heads : (s.onQueue q f).heads = s.heads := rfl
@[simp] theorem State.onQueue_peers : (s.onQueue q f).peers = s.peers := rfl
@[simp] theorem State.onQueue_lastReady : (s.onQueue q f).lastReady = s.lastReady := rfl
@[simp] theorem State.onQueue_readyAt : (s.onQueue q f).readyAt = s.readyAt := rfl
@[simp] theorem State.onQueue_readyBefore : (s.onQueue q f).readyBefore = s.readyBefore := rfl
@[simp] theorem State.onQueue_peerHeads : (s.onQueue q f).peerHeads = s.peerHeads := rfl
@[simp] theorem State.onQueue_takeover : (s.onQueue q f).takeover = s.takeover := rfl
@[simp] theorem State.onQueue_nextEdge : (s.onQueue q f).nextEdge = s.nextEdge := rfl
@[simp] theorem State.onQueue_half : (s.onQueue q f).half = s.half := rfl
@[simp] theorem State.onQueue_outputs : (s.onQueue q f).outputs = s.outputs := rfl
@[simp] theorem State.onQueue_issue : (s.onQueue q f).issue = s.issue := rfl
@[simp] theorem State.onQueue_inputs : (s.onQueue q f).inputs = s.inputs := rfl
@[simp] theorem State.onQueue_befalls : (s.onQueue q f).befalls = s.befalls := rfl
@[simp] theorem State.onQueue_cycle : (s.onQueue q f).cycle = s.cycle := rfl
@[simp] theorem State.onQueue_port : (s.onQueue q f).port = s.port := rfl
@[simp] theorem State.onQueue_nextId : (s.onQueue q f).nextId = s.nextId := rfl
@[simp] theorem State.onQueue_free : (s.onQueue q f).free = s.free := rfl

end onQueue

section onCtx
variable (c : Nat) (f : Ctx → Ctx)

@[simp] theorem State.onCtx_fuses : (s.onCtx c f).fuses = s.fuses := rfl
@[simp] theorem State.onCtx_images : (s.onCtx c f).images = s.images := rfl
@[simp] theorem State.onCtx_bootFaults : (s.onCtx c f).bootFaults = s.bootFaults := rfl
@[simp] theorem State.onCtx_pkg : (s.onCtx c f).pkg = s.pkg := rfl
@[simp] theorem State.onCtx_queues : (s.onCtx c f).queues = s.queues := rfl
@[simp] theorem State.onCtx_ctxs : (s.onCtx c f).ctxs = s.ctxs.put c (f (s.ctx c)) := rfl
@[simp] theorem State.onCtx_launches : (s.onCtx c f).launches = s.launches := rfl
@[simp] theorem State.onCtx_renders : (s.onCtx c f).renders = s.renders := rfl
@[simp] theorem State.onCtx_threads : (s.onCtx c f).threads = s.threads := rfl
@[simp] theorem State.onCtx_frames : (s.onCtx c f).frames = s.frames := rfl
@[simp] theorem State.onCtx_cores : (s.onCtx c f).cores = s.cores := rfl
@[simp] theorem State.onCtx_clusters : (s.onCtx c f).clusters = s.clusters := rfl
@[simp] theorem State.onCtx_dies : (s.onCtx c f).dies = s.dies := rfl
@[simp] theorem State.onCtx_dists : (s.onCtx c f).dists = s.dists := rfl
@[simp] theorem State.onCtx_groups : (s.onCtx c f).groups = s.groups := rfl
@[simp] theorem State.onCtx_mem : (s.onCtx c f).mem = s.mem := rfl
@[simp] theorem State.onCtx_poison : (s.onCtx c f).poison = s.poison := rfl
@[simp] theorem State.onCtx_stores : (s.onCtx c f).stores = s.stores := rfl
@[simp] theorem State.onCtx_appends : (s.onCtx c f).appends = s.appends := rfl
@[simp] theorem State.onCtx_futures : (s.onCtx c f).futures = s.futures := rfl
@[simp] theorem State.onCtx_carver : (s.onCtx c f).carver = s.carver := rfl
@[simp] theorem State.onCtx_net : (s.onCtx c f).net = s.net := rfl
@[simp] theorem State.onCtx_doorbells : (s.onCtx c f).doorbells = s.doorbells := rfl
@[simp] theorem State.onCtx_pages : (s.onCtx c f).pages = s.pages := rfl
@[simp] theorem State.onCtx_agings : (s.onCtx c f).agings = s.agings := rfl
@[simp] theorem State.onCtx_agedAt : (s.onCtx c f).agedAt = s.agedAt := rfl
@[simp] theorem State.onCtx_ages : (s.onCtx c f).ages = s.ages := rfl
@[simp] theorem State.onCtx_access : (s.onCtx c f).access = s.access := rfl
@[simp] theorem State.onCtx_backing : (s.onCtx c f).backing = s.backing := rfl
@[simp] theorem State.onCtx_backUsed : (s.onCtx c f).backUsed = s.backUsed := rfl
@[simp] theorem State.onCtx_mirrored : (s.onCtx c f).mirrored = s.mirrored := rfl
@[simp] theorem State.onCtx_heads : (s.onCtx c f).heads = s.heads := rfl
@[simp] theorem State.onCtx_peers : (s.onCtx c f).peers = s.peers := rfl
@[simp] theorem State.onCtx_lastReady : (s.onCtx c f).lastReady = s.lastReady := rfl
@[simp] theorem State.onCtx_readyAt : (s.onCtx c f).readyAt = s.readyAt := rfl
@[simp] theorem State.onCtx_readyBefore : (s.onCtx c f).readyBefore = s.readyBefore := rfl
@[simp] theorem State.onCtx_peerHeads : (s.onCtx c f).peerHeads = s.peerHeads := rfl
@[simp] theorem State.onCtx_takeover : (s.onCtx c f).takeover = s.takeover := rfl
@[simp] theorem State.onCtx_nextEdge : (s.onCtx c f).nextEdge = s.nextEdge := rfl
@[simp] theorem State.onCtx_half : (s.onCtx c f).half = s.half := rfl
@[simp] theorem State.onCtx_outputs : (s.onCtx c f).outputs = s.outputs := rfl
@[simp] theorem State.onCtx_issue : (s.onCtx c f).issue = s.issue := rfl
@[simp] theorem State.onCtx_inputs : (s.onCtx c f).inputs = s.inputs := rfl
@[simp] theorem State.onCtx_befalls : (s.onCtx c f).befalls = s.befalls := rfl
@[simp] theorem State.onCtx_cycle : (s.onCtx c f).cycle = s.cycle := rfl
@[simp] theorem State.onCtx_port : (s.onCtx c f).port = s.port := rfl
@[simp] theorem State.onCtx_nextId : (s.onCtx c f).nextId = s.nextId := rfl
@[simp] theorem State.onCtx_free : (s.onCtx c f).free = s.free := rfl

end onCtx

section onHead
variable (h : Nat) (f : Head → Head)

@[simp] theorem State.onHead_fuses : (s.onHead h f).fuses = s.fuses := rfl
@[simp] theorem State.onHead_images : (s.onHead h f).images = s.images := rfl
@[simp] theorem State.onHead_bootFaults : (s.onHead h f).bootFaults = s.bootFaults := rfl
@[simp] theorem State.onHead_pkg : (s.onHead h f).pkg = s.pkg := rfl
@[simp] theorem State.onHead_queues : (s.onHead h f).queues = s.queues := rfl
@[simp] theorem State.onHead_ctxs : (s.onHead h f).ctxs = s.ctxs := rfl
@[simp] theorem State.onHead_launches : (s.onHead h f).launches = s.launches := rfl
@[simp] theorem State.onHead_renders : (s.onHead h f).renders = s.renders := rfl
@[simp] theorem State.onHead_threads : (s.onHead h f).threads = s.threads := rfl
@[simp] theorem State.onHead_frames : (s.onHead h f).frames = s.frames := rfl
@[simp] theorem State.onHead_cores : (s.onHead h f).cores = s.cores := rfl
@[simp] theorem State.onHead_clusters : (s.onHead h f).clusters = s.clusters := rfl
@[simp] theorem State.onHead_dies : (s.onHead h f).dies = s.dies := rfl
@[simp] theorem State.onHead_dists : (s.onHead h f).dists = s.dists := rfl
@[simp] theorem State.onHead_groups : (s.onHead h f).groups = s.groups := rfl
@[simp] theorem State.onHead_mem : (s.onHead h f).mem = s.mem := rfl
@[simp] theorem State.onHead_poison : (s.onHead h f).poison = s.poison := rfl
@[simp] theorem State.onHead_stores : (s.onHead h f).stores = s.stores := rfl
@[simp] theorem State.onHead_appends : (s.onHead h f).appends = s.appends := rfl
@[simp] theorem State.onHead_futures : (s.onHead h f).futures = s.futures := rfl
@[simp] theorem State.onHead_carver : (s.onHead h f).carver = s.carver := rfl
@[simp] theorem State.onHead_net : (s.onHead h f).net = s.net := rfl
@[simp] theorem State.onHead_doorbells : (s.onHead h f).doorbells = s.doorbells := rfl
@[simp] theorem State.onHead_pages : (s.onHead h f).pages = s.pages := rfl
@[simp] theorem State.onHead_agings : (s.onHead h f).agings = s.agings := rfl
@[simp] theorem State.onHead_agedAt : (s.onHead h f).agedAt = s.agedAt := rfl
@[simp] theorem State.onHead_ages : (s.onHead h f).ages = s.ages := rfl
@[simp] theorem State.onHead_access : (s.onHead h f).access = s.access := rfl
@[simp] theorem State.onHead_backing : (s.onHead h f).backing = s.backing := rfl
@[simp] theorem State.onHead_backUsed : (s.onHead h f).backUsed = s.backUsed := rfl
@[simp] theorem State.onHead_mirrored : (s.onHead h f).mirrored = s.mirrored := rfl
@[simp] theorem State.onHead_heads : (s.onHead h f).heads = s.heads.put h (f (s.head h)) := rfl
@[simp] theorem State.onHead_peers : (s.onHead h f).peers = s.peers := rfl
@[simp] theorem State.onHead_lastReady : (s.onHead h f).lastReady = s.lastReady := rfl
@[simp] theorem State.onHead_readyAt : (s.onHead h f).readyAt = s.readyAt := rfl
@[simp] theorem State.onHead_readyBefore : (s.onHead h f).readyBefore = s.readyBefore := rfl
@[simp] theorem State.onHead_peerHeads : (s.onHead h f).peerHeads = s.peerHeads := rfl
@[simp] theorem State.onHead_takeover : (s.onHead h f).takeover = s.takeover := rfl
@[simp] theorem State.onHead_nextEdge : (s.onHead h f).nextEdge = s.nextEdge := rfl
@[simp] theorem State.onHead_half : (s.onHead h f).half = s.half := rfl
@[simp] theorem State.onHead_outputs : (s.onHead h f).outputs = s.outputs := rfl
@[simp] theorem State.onHead_issue : (s.onHead h f).issue = s.issue := rfl
@[simp] theorem State.onHead_inputs : (s.onHead h f).inputs = s.inputs := rfl
@[simp] theorem State.onHead_befalls : (s.onHead h f).befalls = s.befalls := rfl
@[simp] theorem State.onHead_cycle : (s.onHead h f).cycle = s.cycle := rfl
@[simp] theorem State.onHead_port : (s.onHead h f).port = s.port := rfl
@[simp] theorem State.onHead_nextId : (s.onHead h f).nextId = s.nextId := rfl
@[simp] theorem State.onHead_free : (s.onHead h f).free = s.free := rfl

end onHead

section onThread
variable (k : FrameRef) (f : Thread → Thread)

@[simp] theorem State.onThread_fuses : (s.onThread k f).fuses = s.fuses := rfl
@[simp] theorem State.onThread_images : (s.onThread k f).images = s.images := rfl
@[simp] theorem State.onThread_bootFaults : (s.onThread k f).bootFaults = s.bootFaults := rfl
@[simp] theorem State.onThread_pkg : (s.onThread k f).pkg = s.pkg := rfl
@[simp] theorem State.onThread_queues : (s.onThread k f).queues = s.queues := rfl
@[simp] theorem State.onThread_ctxs : (s.onThread k f).ctxs = s.ctxs := rfl
@[simp] theorem State.onThread_launches : (s.onThread k f).launches = s.launches := rfl
@[simp] theorem State.onThread_renders : (s.onThread k f).renders = s.renders := rfl
@[simp] theorem State.onThread_threads : (s.onThread k f).threads = s.threads.update k f := rfl
@[simp] theorem State.onThread_frames : (s.onThread k f).frames = s.frames := rfl
@[simp] theorem State.onThread_cores : (s.onThread k f).cores = s.cores := rfl
@[simp] theorem State.onThread_clusters : (s.onThread k f).clusters = s.clusters := rfl
@[simp] theorem State.onThread_dies : (s.onThread k f).dies = s.dies := rfl
@[simp] theorem State.onThread_dists : (s.onThread k f).dists = s.dists := rfl
@[simp] theorem State.onThread_groups : (s.onThread k f).groups = s.groups := rfl
@[simp] theorem State.onThread_mem : (s.onThread k f).mem = s.mem := rfl
@[simp] theorem State.onThread_poison : (s.onThread k f).poison = s.poison := rfl
@[simp] theorem State.onThread_stores : (s.onThread k f).stores = s.stores := rfl
@[simp] theorem State.onThread_appends : (s.onThread k f).appends = s.appends := rfl
@[simp] theorem State.onThread_futures : (s.onThread k f).futures = s.futures := rfl
@[simp] theorem State.onThread_carver : (s.onThread k f).carver = s.carver := rfl
@[simp] theorem State.onThread_net : (s.onThread k f).net = s.net := rfl
@[simp] theorem State.onThread_doorbells : (s.onThread k f).doorbells = s.doorbells := rfl
@[simp] theorem State.onThread_pages : (s.onThread k f).pages = s.pages := rfl
@[simp] theorem State.onThread_agings : (s.onThread k f).agings = s.agings := rfl
@[simp] theorem State.onThread_agedAt : (s.onThread k f).agedAt = s.agedAt := rfl
@[simp] theorem State.onThread_ages : (s.onThread k f).ages = s.ages := rfl
@[simp] theorem State.onThread_access : (s.onThread k f).access = s.access := rfl
@[simp] theorem State.onThread_backing : (s.onThread k f).backing = s.backing := rfl
@[simp] theorem State.onThread_backUsed : (s.onThread k f).backUsed = s.backUsed := rfl
@[simp] theorem State.onThread_mirrored : (s.onThread k f).mirrored = s.mirrored := rfl
@[simp] theorem State.onThread_heads : (s.onThread k f).heads = s.heads := rfl
@[simp] theorem State.onThread_peers : (s.onThread k f).peers = s.peers := rfl
@[simp] theorem State.onThread_lastReady : (s.onThread k f).lastReady = s.lastReady := rfl
@[simp] theorem State.onThread_readyAt : (s.onThread k f).readyAt = s.readyAt := rfl
@[simp] theorem State.onThread_readyBefore : (s.onThread k f).readyBefore = s.readyBefore := rfl
@[simp] theorem State.onThread_peerHeads : (s.onThread k f).peerHeads = s.peerHeads := rfl
@[simp] theorem State.onThread_takeover : (s.onThread k f).takeover = s.takeover := rfl
@[simp] theorem State.onThread_nextEdge : (s.onThread k f).nextEdge = s.nextEdge := rfl
@[simp] theorem State.onThread_half : (s.onThread k f).half = s.half := rfl
@[simp] theorem State.onThread_outputs : (s.onThread k f).outputs = s.outputs := rfl
@[simp] theorem State.onThread_issue : (s.onThread k f).issue = s.issue := rfl
@[simp] theorem State.onThread_inputs : (s.onThread k f).inputs = s.inputs := rfl
@[simp] theorem State.onThread_befalls : (s.onThread k f).befalls = s.befalls := rfl
@[simp] theorem State.onThread_cycle : (s.onThread k f).cycle = s.cycle := rfl
@[simp] theorem State.onThread_port : (s.onThread k f).port = s.port := rfl
@[simp] theorem State.onThread_nextId : (s.onThread k f).nextId = s.nextId := rfl
@[simp] theorem State.onThread_free : (s.onThread k f).free = s.free := rfl

end onThread

section onFrame
variable (k : FrameRef) (f : Frame → Frame)

@[simp] theorem State.onFrame_fuses : (s.onFrame k f).fuses = s.fuses := rfl
@[simp] theorem State.onFrame_images : (s.onFrame k f).images = s.images := rfl
@[simp] theorem State.onFrame_bootFaults : (s.onFrame k f).bootFaults = s.bootFaults := rfl
@[simp] theorem State.onFrame_pkg : (s.onFrame k f).pkg = s.pkg := rfl
@[simp] theorem State.onFrame_queues : (s.onFrame k f).queues = s.queues := rfl
@[simp] theorem State.onFrame_ctxs : (s.onFrame k f).ctxs = s.ctxs := rfl
@[simp] theorem State.onFrame_launches : (s.onFrame k f).launches = s.launches := rfl
@[simp] theorem State.onFrame_renders : (s.onFrame k f).renders = s.renders := rfl
@[simp] theorem State.onFrame_threads : (s.onFrame k f).threads = s.threads := rfl
@[simp] theorem State.onFrame_frames : (s.onFrame k f).frames = s.frames.update k f := rfl
@[simp] theorem State.onFrame_cores : (s.onFrame k f).cores = s.cores := rfl
@[simp] theorem State.onFrame_clusters : (s.onFrame k f).clusters = s.clusters := rfl
@[simp] theorem State.onFrame_dies : (s.onFrame k f).dies = s.dies := rfl
@[simp] theorem State.onFrame_dists : (s.onFrame k f).dists = s.dists := rfl
@[simp] theorem State.onFrame_groups : (s.onFrame k f).groups = s.groups := rfl
@[simp] theorem State.onFrame_mem : (s.onFrame k f).mem = s.mem := rfl
@[simp] theorem State.onFrame_poison : (s.onFrame k f).poison = s.poison := rfl
@[simp] theorem State.onFrame_stores : (s.onFrame k f).stores = s.stores := rfl
@[simp] theorem State.onFrame_appends : (s.onFrame k f).appends = s.appends := rfl
@[simp] theorem State.onFrame_futures : (s.onFrame k f).futures = s.futures := rfl
@[simp] theorem State.onFrame_carver : (s.onFrame k f).carver = s.carver := rfl
@[simp] theorem State.onFrame_net : (s.onFrame k f).net = s.net := rfl
@[simp] theorem State.onFrame_doorbells : (s.onFrame k f).doorbells = s.doorbells := rfl
@[simp] theorem State.onFrame_pages : (s.onFrame k f).pages = s.pages := rfl
@[simp] theorem State.onFrame_agings : (s.onFrame k f).agings = s.agings := rfl
@[simp] theorem State.onFrame_agedAt : (s.onFrame k f).agedAt = s.agedAt := rfl
@[simp] theorem State.onFrame_ages : (s.onFrame k f).ages = s.ages := rfl
@[simp] theorem State.onFrame_access : (s.onFrame k f).access = s.access := rfl
@[simp] theorem State.onFrame_backing : (s.onFrame k f).backing = s.backing := rfl
@[simp] theorem State.onFrame_backUsed : (s.onFrame k f).backUsed = s.backUsed := rfl
@[simp] theorem State.onFrame_mirrored : (s.onFrame k f).mirrored = s.mirrored := rfl
@[simp] theorem State.onFrame_heads : (s.onFrame k f).heads = s.heads := rfl
@[simp] theorem State.onFrame_peers : (s.onFrame k f).peers = s.peers := rfl
@[simp] theorem State.onFrame_lastReady : (s.onFrame k f).lastReady = s.lastReady := rfl
@[simp] theorem State.onFrame_readyAt : (s.onFrame k f).readyAt = s.readyAt := rfl
@[simp] theorem State.onFrame_readyBefore : (s.onFrame k f).readyBefore = s.readyBefore := rfl
@[simp] theorem State.onFrame_peerHeads : (s.onFrame k f).peerHeads = s.peerHeads := rfl
@[simp] theorem State.onFrame_takeover : (s.onFrame k f).takeover = s.takeover := rfl
@[simp] theorem State.onFrame_nextEdge : (s.onFrame k f).nextEdge = s.nextEdge := rfl
@[simp] theorem State.onFrame_half : (s.onFrame k f).half = s.half := rfl
@[simp] theorem State.onFrame_outputs : (s.onFrame k f).outputs = s.outputs := rfl
@[simp] theorem State.onFrame_issue : (s.onFrame k f).issue = s.issue := rfl
@[simp] theorem State.onFrame_inputs : (s.onFrame k f).inputs = s.inputs := rfl
@[simp] theorem State.onFrame_befalls : (s.onFrame k f).befalls = s.befalls := rfl
@[simp] theorem State.onFrame_cycle : (s.onFrame k f).cycle = s.cycle := rfl
@[simp] theorem State.onFrame_port : (s.onFrame k f).port = s.port := rfl
@[simp] theorem State.onFrame_nextId : (s.onFrame k f).nextId = s.nextId := rfl
@[simp] theorem State.onFrame_free : (s.onFrame k f).free = s.free := rfl

end onFrame

section onLaunch
variable (l : Nat) (f : Launch → Launch)

@[simp] theorem State.onLaunch_fuses : (s.onLaunch l f).fuses = s.fuses := rfl
@[simp] theorem State.onLaunch_images : (s.onLaunch l f).images = s.images := rfl
@[simp] theorem State.onLaunch_bootFaults : (s.onLaunch l f).bootFaults = s.bootFaults := rfl
@[simp] theorem State.onLaunch_pkg : (s.onLaunch l f).pkg = s.pkg := rfl
@[simp] theorem State.onLaunch_queues : (s.onLaunch l f).queues = s.queues := rfl
@[simp] theorem State.onLaunch_ctxs : (s.onLaunch l f).ctxs = s.ctxs := rfl
@[simp] theorem State.onLaunch_launches : (s.onLaunch l f).launches = s.launches.update l f := rfl
@[simp] theorem State.onLaunch_renders : (s.onLaunch l f).renders = s.renders := rfl
@[simp] theorem State.onLaunch_threads : (s.onLaunch l f).threads = s.threads := rfl
@[simp] theorem State.onLaunch_frames : (s.onLaunch l f).frames = s.frames := rfl
@[simp] theorem State.onLaunch_cores : (s.onLaunch l f).cores = s.cores := rfl
@[simp] theorem State.onLaunch_clusters : (s.onLaunch l f).clusters = s.clusters := rfl
@[simp] theorem State.onLaunch_dies : (s.onLaunch l f).dies = s.dies := rfl
@[simp] theorem State.onLaunch_dists : (s.onLaunch l f).dists = s.dists := rfl
@[simp] theorem State.onLaunch_groups : (s.onLaunch l f).groups = s.groups := rfl
@[simp] theorem State.onLaunch_mem : (s.onLaunch l f).mem = s.mem := rfl
@[simp] theorem State.onLaunch_poison : (s.onLaunch l f).poison = s.poison := rfl
@[simp] theorem State.onLaunch_stores : (s.onLaunch l f).stores = s.stores := rfl
@[simp] theorem State.onLaunch_appends : (s.onLaunch l f).appends = s.appends := rfl
@[simp] theorem State.onLaunch_futures : (s.onLaunch l f).futures = s.futures := rfl
@[simp] theorem State.onLaunch_carver : (s.onLaunch l f).carver = s.carver := rfl
@[simp] theorem State.onLaunch_net : (s.onLaunch l f).net = s.net := rfl
@[simp] theorem State.onLaunch_doorbells : (s.onLaunch l f).doorbells = s.doorbells := rfl
@[simp] theorem State.onLaunch_pages : (s.onLaunch l f).pages = s.pages := rfl
@[simp] theorem State.onLaunch_agings : (s.onLaunch l f).agings = s.agings := rfl
@[simp] theorem State.onLaunch_agedAt : (s.onLaunch l f).agedAt = s.agedAt := rfl
@[simp] theorem State.onLaunch_ages : (s.onLaunch l f).ages = s.ages := rfl
@[simp] theorem State.onLaunch_access : (s.onLaunch l f).access = s.access := rfl
@[simp] theorem State.onLaunch_backing : (s.onLaunch l f).backing = s.backing := rfl
@[simp] theorem State.onLaunch_backUsed : (s.onLaunch l f).backUsed = s.backUsed := rfl
@[simp] theorem State.onLaunch_mirrored : (s.onLaunch l f).mirrored = s.mirrored := rfl
@[simp] theorem State.onLaunch_heads : (s.onLaunch l f).heads = s.heads := rfl
@[simp] theorem State.onLaunch_peers : (s.onLaunch l f).peers = s.peers := rfl
@[simp] theorem State.onLaunch_lastReady : (s.onLaunch l f).lastReady = s.lastReady := rfl
@[simp] theorem State.onLaunch_readyAt : (s.onLaunch l f).readyAt = s.readyAt := rfl
@[simp] theorem State.onLaunch_readyBefore : (s.onLaunch l f).readyBefore = s.readyBefore := rfl
@[simp] theorem State.onLaunch_peerHeads : (s.onLaunch l f).peerHeads = s.peerHeads := rfl
@[simp] theorem State.onLaunch_takeover : (s.onLaunch l f).takeover = s.takeover := rfl
@[simp] theorem State.onLaunch_nextEdge : (s.onLaunch l f).nextEdge = s.nextEdge := rfl
@[simp] theorem State.onLaunch_half : (s.onLaunch l f).half = s.half := rfl
@[simp] theorem State.onLaunch_outputs : (s.onLaunch l f).outputs = s.outputs := rfl
@[simp] theorem State.onLaunch_issue : (s.onLaunch l f).issue = s.issue := rfl
@[simp] theorem State.onLaunch_inputs : (s.onLaunch l f).inputs = s.inputs := rfl
@[simp] theorem State.onLaunch_befalls : (s.onLaunch l f).befalls = s.befalls := rfl
@[simp] theorem State.onLaunch_cycle : (s.onLaunch l f).cycle = s.cycle := rfl
@[simp] theorem State.onLaunch_port : (s.onLaunch l f).port = s.port := rfl
@[simp] theorem State.onLaunch_nextId : (s.onLaunch l f).nextId = s.nextId := rfl
@[simp] theorem State.onLaunch_free : (s.onLaunch l f).free = s.free := rfl

end onLaunch

section onRender
variable (l : Nat) (f : Render → Render)

@[simp] theorem State.onRender_fuses : (s.onRender l f).fuses = s.fuses := rfl
@[simp] theorem State.onRender_images : (s.onRender l f).images = s.images := rfl
@[simp] theorem State.onRender_bootFaults : (s.onRender l f).bootFaults = s.bootFaults := rfl
@[simp] theorem State.onRender_pkg : (s.onRender l f).pkg = s.pkg := rfl
@[simp] theorem State.onRender_queues : (s.onRender l f).queues = s.queues := rfl
@[simp] theorem State.onRender_ctxs : (s.onRender l f).ctxs = s.ctxs := rfl
@[simp] theorem State.onRender_launches : (s.onRender l f).launches = s.launches := rfl
@[simp] theorem State.onRender_renders : (s.onRender l f).renders = s.renders.update l f := rfl
@[simp] theorem State.onRender_threads : (s.onRender l f).threads = s.threads := rfl
@[simp] theorem State.onRender_frames : (s.onRender l f).frames = s.frames := rfl
@[simp] theorem State.onRender_cores : (s.onRender l f).cores = s.cores := rfl
@[simp] theorem State.onRender_clusters : (s.onRender l f).clusters = s.clusters := rfl
@[simp] theorem State.onRender_dies : (s.onRender l f).dies = s.dies := rfl
@[simp] theorem State.onRender_dists : (s.onRender l f).dists = s.dists := rfl
@[simp] theorem State.onRender_groups : (s.onRender l f).groups = s.groups := rfl
@[simp] theorem State.onRender_mem : (s.onRender l f).mem = s.mem := rfl
@[simp] theorem State.onRender_poison : (s.onRender l f).poison = s.poison := rfl
@[simp] theorem State.onRender_stores : (s.onRender l f).stores = s.stores := rfl
@[simp] theorem State.onRender_appends : (s.onRender l f).appends = s.appends := rfl
@[simp] theorem State.onRender_futures : (s.onRender l f).futures = s.futures := rfl
@[simp] theorem State.onRender_carver : (s.onRender l f).carver = s.carver := rfl
@[simp] theorem State.onRender_net : (s.onRender l f).net = s.net := rfl
@[simp] theorem State.onRender_doorbells : (s.onRender l f).doorbells = s.doorbells := rfl
@[simp] theorem State.onRender_pages : (s.onRender l f).pages = s.pages := rfl
@[simp] theorem State.onRender_agings : (s.onRender l f).agings = s.agings := rfl
@[simp] theorem State.onRender_agedAt : (s.onRender l f).agedAt = s.agedAt := rfl
@[simp] theorem State.onRender_ages : (s.onRender l f).ages = s.ages := rfl
@[simp] theorem State.onRender_access : (s.onRender l f).access = s.access := rfl
@[simp] theorem State.onRender_backing : (s.onRender l f).backing = s.backing := rfl
@[simp] theorem State.onRender_backUsed : (s.onRender l f).backUsed = s.backUsed := rfl
@[simp] theorem State.onRender_mirrored : (s.onRender l f).mirrored = s.mirrored := rfl
@[simp] theorem State.onRender_heads : (s.onRender l f).heads = s.heads := rfl
@[simp] theorem State.onRender_peers : (s.onRender l f).peers = s.peers := rfl
@[simp] theorem State.onRender_lastReady : (s.onRender l f).lastReady = s.lastReady := rfl
@[simp] theorem State.onRender_readyAt : (s.onRender l f).readyAt = s.readyAt := rfl
@[simp] theorem State.onRender_readyBefore : (s.onRender l f).readyBefore = s.readyBefore := rfl
@[simp] theorem State.onRender_peerHeads : (s.onRender l f).peerHeads = s.peerHeads := rfl
@[simp] theorem State.onRender_takeover : (s.onRender l f).takeover = s.takeover := rfl
@[simp] theorem State.onRender_nextEdge : (s.onRender l f).nextEdge = s.nextEdge := rfl
@[simp] theorem State.onRender_half : (s.onRender l f).half = s.half := rfl
@[simp] theorem State.onRender_outputs : (s.onRender l f).outputs = s.outputs := rfl
@[simp] theorem State.onRender_issue : (s.onRender l f).issue = s.issue := rfl
@[simp] theorem State.onRender_inputs : (s.onRender l f).inputs = s.inputs := rfl
@[simp] theorem State.onRender_befalls : (s.onRender l f).befalls = s.befalls := rfl
@[simp] theorem State.onRender_cycle : (s.onRender l f).cycle = s.cycle := rfl
@[simp] theorem State.onRender_port : (s.onRender l f).port = s.port := rfl
@[simp] theorem State.onRender_nextId : (s.onRender l f).nextId = s.nextId := rfl
@[simp] theorem State.onRender_free : (s.onRender l f).free = s.free := rfl

end onRender

section onPkg
variable (f : Pkg → Pkg)

@[simp] theorem State.onPkg_fuses : (s.onPkg f).fuses = s.fuses := rfl
@[simp] theorem State.onPkg_images : (s.onPkg f).images = s.images := rfl
@[simp] theorem State.onPkg_bootFaults : (s.onPkg f).bootFaults = s.bootFaults := rfl
@[simp] theorem State.onPkg_pkg : (s.onPkg f).pkg = f s.pkg := rfl
@[simp] theorem State.onPkg_queues : (s.onPkg f).queues = s.queues := rfl
@[simp] theorem State.onPkg_ctxs : (s.onPkg f).ctxs = s.ctxs := rfl
@[simp] theorem State.onPkg_launches : (s.onPkg f).launches = s.launches := rfl
@[simp] theorem State.onPkg_renders : (s.onPkg f).renders = s.renders := rfl
@[simp] theorem State.onPkg_threads : (s.onPkg f).threads = s.threads := rfl
@[simp] theorem State.onPkg_frames : (s.onPkg f).frames = s.frames := rfl
@[simp] theorem State.onPkg_cores : (s.onPkg f).cores = s.cores := rfl
@[simp] theorem State.onPkg_clusters : (s.onPkg f).clusters = s.clusters := rfl
@[simp] theorem State.onPkg_dies : (s.onPkg f).dies = s.dies := rfl
@[simp] theorem State.onPkg_dists : (s.onPkg f).dists = s.dists := rfl
@[simp] theorem State.onPkg_groups : (s.onPkg f).groups = s.groups := rfl
@[simp] theorem State.onPkg_mem : (s.onPkg f).mem = s.mem := rfl
@[simp] theorem State.onPkg_poison : (s.onPkg f).poison = s.poison := rfl
@[simp] theorem State.onPkg_stores : (s.onPkg f).stores = s.stores := rfl
@[simp] theorem State.onPkg_appends : (s.onPkg f).appends = s.appends := rfl
@[simp] theorem State.onPkg_futures : (s.onPkg f).futures = s.futures := rfl
@[simp] theorem State.onPkg_carver : (s.onPkg f).carver = s.carver := rfl
@[simp] theorem State.onPkg_net : (s.onPkg f).net = s.net := rfl
@[simp] theorem State.onPkg_doorbells : (s.onPkg f).doorbells = s.doorbells := rfl
@[simp] theorem State.onPkg_pages : (s.onPkg f).pages = s.pages := rfl
@[simp] theorem State.onPkg_agings : (s.onPkg f).agings = s.agings := rfl
@[simp] theorem State.onPkg_agedAt : (s.onPkg f).agedAt = s.agedAt := rfl
@[simp] theorem State.onPkg_ages : (s.onPkg f).ages = s.ages := rfl
@[simp] theorem State.onPkg_access : (s.onPkg f).access = s.access := rfl
@[simp] theorem State.onPkg_backing : (s.onPkg f).backing = s.backing := rfl
@[simp] theorem State.onPkg_backUsed : (s.onPkg f).backUsed = s.backUsed := rfl
@[simp] theorem State.onPkg_mirrored : (s.onPkg f).mirrored = s.mirrored := rfl
@[simp] theorem State.onPkg_heads : (s.onPkg f).heads = s.heads := rfl
@[simp] theorem State.onPkg_peers : (s.onPkg f).peers = s.peers := rfl
@[simp] theorem State.onPkg_lastReady : (s.onPkg f).lastReady = s.lastReady := rfl
@[simp] theorem State.onPkg_readyAt : (s.onPkg f).readyAt = s.readyAt := rfl
@[simp] theorem State.onPkg_readyBefore : (s.onPkg f).readyBefore = s.readyBefore := rfl
@[simp] theorem State.onPkg_peerHeads : (s.onPkg f).peerHeads = s.peerHeads := rfl
@[simp] theorem State.onPkg_takeover : (s.onPkg f).takeover = s.takeover := rfl
@[simp] theorem State.onPkg_nextEdge : (s.onPkg f).nextEdge = s.nextEdge := rfl
@[simp] theorem State.onPkg_half : (s.onPkg f).half = s.half := rfl
@[simp] theorem State.onPkg_outputs : (s.onPkg f).outputs = s.outputs := rfl
@[simp] theorem State.onPkg_issue : (s.onPkg f).issue = s.issue := rfl
@[simp] theorem State.onPkg_inputs : (s.onPkg f).inputs = s.inputs := rfl
@[simp] theorem State.onPkg_befalls : (s.onPkg f).befalls = s.befalls := rfl
@[simp] theorem State.onPkg_cycle : (s.onPkg f).cycle = s.cycle := rfl
@[simp] theorem State.onPkg_port : (s.onPkg f).port = s.port := rfl
@[simp] theorem State.onPkg_nextId : (s.onPkg f).nextId = s.nextId := rfl
@[simp] theorem State.onPkg_free : (s.onPkg f).free = s.free := rfl

end onPkg

section send
variable (m : Msg)

@[simp] theorem State.send_fuses : (s.send m).fuses = s.fuses := rfl
@[simp] theorem State.send_images : (s.send m).images = s.images := rfl
@[simp] theorem State.send_bootFaults : (s.send m).bootFaults = s.bootFaults := rfl
@[simp] theorem State.send_pkg : (s.send m).pkg = s.pkg := rfl
@[simp] theorem State.send_queues : (s.send m).queues = s.queues := rfl
@[simp] theorem State.send_ctxs : (s.send m).ctxs = s.ctxs := rfl
@[simp] theorem State.send_launches : (s.send m).launches = s.launches := rfl
@[simp] theorem State.send_renders : (s.send m).renders = s.renders := rfl
@[simp] theorem State.send_threads : (s.send m).threads = s.threads := rfl
@[simp] theorem State.send_frames : (s.send m).frames = s.frames := rfl
@[simp] theorem State.send_cores : (s.send m).cores = s.cores := rfl
@[simp] theorem State.send_clusters : (s.send m).clusters = s.clusters := rfl
@[simp] theorem State.send_dies : (s.send m).dies = s.dies := rfl
@[simp] theorem State.send_dists : (s.send m).dists = s.dists := rfl
@[simp] theorem State.send_groups : (s.send m).groups = s.groups := rfl
@[simp] theorem State.send_mem : (s.send m).mem = s.mem := rfl
@[simp] theorem State.send_poison : (s.send m).poison = s.poison := rfl
@[simp] theorem State.send_stores : (s.send m).stores = s.stores := rfl
@[simp] theorem State.send_appends : (s.send m).appends = s.appends := rfl
@[simp] theorem State.send_futures : (s.send m).futures = s.futures := rfl
@[simp] theorem State.send_carver : (s.send m).carver = s.carver := rfl
@[simp] theorem State.send_net : (s.send m).net = s.net ++ [m] := rfl
@[simp] theorem State.send_doorbells : (s.send m).doorbells = s.doorbells := rfl
@[simp] theorem State.send_pages : (s.send m).pages = s.pages := rfl
@[simp] theorem State.send_agings : (s.send m).agings = s.agings := rfl
@[simp] theorem State.send_agedAt : (s.send m).agedAt = s.agedAt := rfl
@[simp] theorem State.send_ages : (s.send m).ages = s.ages := rfl
@[simp] theorem State.send_access : (s.send m).access = s.access := rfl
@[simp] theorem State.send_backing : (s.send m).backing = s.backing := rfl
@[simp] theorem State.send_backUsed : (s.send m).backUsed = s.backUsed := rfl
@[simp] theorem State.send_mirrored : (s.send m).mirrored = s.mirrored := rfl
@[simp] theorem State.send_heads : (s.send m).heads = s.heads := rfl
@[simp] theorem State.send_peers : (s.send m).peers = s.peers := rfl
@[simp] theorem State.send_lastReady : (s.send m).lastReady = s.lastReady := rfl
@[simp] theorem State.send_readyAt : (s.send m).readyAt = s.readyAt := rfl
@[simp] theorem State.send_readyBefore : (s.send m).readyBefore = s.readyBefore := rfl
@[simp] theorem State.send_peerHeads : (s.send m).peerHeads = s.peerHeads := rfl
@[simp] theorem State.send_takeover : (s.send m).takeover = s.takeover := rfl
@[simp] theorem State.send_nextEdge : (s.send m).nextEdge = s.nextEdge := rfl
@[simp] theorem State.send_half : (s.send m).half = s.half := rfl
@[simp] theorem State.send_outputs : (s.send m).outputs = s.outputs := rfl
@[simp] theorem State.send_issue : (s.send m).issue = s.issue := rfl
@[simp] theorem State.send_inputs : (s.send m).inputs = s.inputs := rfl
@[simp] theorem State.send_befalls : (s.send m).befalls = s.befalls := rfl
@[simp] theorem State.send_cycle : (s.send m).cycle = s.cycle := rfl
@[simp] theorem State.send_port : (s.send m).port = s.port := rfl
@[simp] theorem State.send_nextId : (s.send m).nextId = s.nextId := rfl
@[simp] theorem State.send_free : (s.send m).free = s.free := rfl

end send

section emit
variable (o : Output)

@[simp] theorem State.emit_fuses : (s.emit o).fuses = s.fuses := rfl
@[simp] theorem State.emit_images : (s.emit o).images = s.images := rfl
@[simp] theorem State.emit_bootFaults : (s.emit o).bootFaults = s.bootFaults := rfl
@[simp] theorem State.emit_pkg : (s.emit o).pkg = s.pkg := rfl
@[simp] theorem State.emit_queues : (s.emit o).queues = s.queues := rfl
@[simp] theorem State.emit_ctxs : (s.emit o).ctxs = s.ctxs := rfl
@[simp] theorem State.emit_launches : (s.emit o).launches = s.launches := rfl
@[simp] theorem State.emit_renders : (s.emit o).renders = s.renders := rfl
@[simp] theorem State.emit_threads : (s.emit o).threads = s.threads := rfl
@[simp] theorem State.emit_frames : (s.emit o).frames = s.frames := rfl
@[simp] theorem State.emit_cores : (s.emit o).cores = s.cores := rfl
@[simp] theorem State.emit_clusters : (s.emit o).clusters = s.clusters := rfl
@[simp] theorem State.emit_dies : (s.emit o).dies = s.dies := rfl
@[simp] theorem State.emit_dists : (s.emit o).dists = s.dists := rfl
@[simp] theorem State.emit_groups : (s.emit o).groups = s.groups := rfl
@[simp] theorem State.emit_mem : (s.emit o).mem = s.mem := rfl
@[simp] theorem State.emit_poison : (s.emit o).poison = s.poison := rfl
@[simp] theorem State.emit_stores : (s.emit o).stores = s.stores := rfl
@[simp] theorem State.emit_appends : (s.emit o).appends = s.appends := rfl
@[simp] theorem State.emit_futures : (s.emit o).futures = s.futures := rfl
@[simp] theorem State.emit_carver : (s.emit o).carver = s.carver := rfl
@[simp] theorem State.emit_net : (s.emit o).net = s.net := rfl
@[simp] theorem State.emit_doorbells : (s.emit o).doorbells = s.doorbells := rfl
@[simp] theorem State.emit_pages : (s.emit o).pages = s.pages := rfl
@[simp] theorem State.emit_agings : (s.emit o).agings = s.agings := rfl
@[simp] theorem State.emit_agedAt : (s.emit o).agedAt = s.agedAt := rfl
@[simp] theorem State.emit_ages : (s.emit o).ages = s.ages := rfl
@[simp] theorem State.emit_access : (s.emit o).access = s.access := rfl
@[simp] theorem State.emit_backing : (s.emit o).backing = s.backing := rfl
@[simp] theorem State.emit_backUsed : (s.emit o).backUsed = s.backUsed := rfl
@[simp] theorem State.emit_mirrored : (s.emit o).mirrored = s.mirrored := rfl
@[simp] theorem State.emit_heads : (s.emit o).heads = s.heads := rfl
@[simp] theorem State.emit_peers : (s.emit o).peers = s.peers := rfl
@[simp] theorem State.emit_lastReady : (s.emit o).lastReady = s.lastReady := rfl
@[simp] theorem State.emit_readyAt : (s.emit o).readyAt = s.readyAt := rfl
@[simp] theorem State.emit_readyBefore : (s.emit o).readyBefore = s.readyBefore := rfl
@[simp] theorem State.emit_peerHeads : (s.emit o).peerHeads = s.peerHeads := rfl
@[simp] theorem State.emit_takeover : (s.emit o).takeover = s.takeover := rfl
@[simp] theorem State.emit_nextEdge : (s.emit o).nextEdge = s.nextEdge := rfl
@[simp] theorem State.emit_half : (s.emit o).half = s.half := rfl
@[simp] theorem State.emit_outputs : (s.emit o).outputs = s.outputs ++ [o] := rfl
@[simp] theorem State.emit_issue : (s.emit o).issue = s.issue := rfl
@[simp] theorem State.emit_inputs : (s.emit o).inputs = s.inputs := rfl
@[simp] theorem State.emit_befalls : (s.emit o).befalls = s.befalls := rfl
@[simp] theorem State.emit_cycle : (s.emit o).cycle = s.cycle := rfl
@[simp] theorem State.emit_port : (s.emit o).port = s.port := rfl
@[simp] theorem State.emit_nextId : (s.emit o).nextId = s.nextId := rfl
@[simp] theorem State.emit_free : (s.emit o).free = s.free := rfl

end emit

/-! A unit's reader after an update of its table: the unit named, and every other as it was. -/

@[simp] theorem State.core_onCore (g j : Nat) (f : Core → Core) :
    (s.onCore g f).core j = if j = g then f (s.core g) else s.core j := by
  simp only [State.core, State.onCore_cores, Tbl.getD_put]

@[simp] theorem State.core_setCluster (n : Nat) (c : Cluster) (j : Nat) : (s.setCluster n c).core j = s.core j := rfl
@[simp] theorem State.core_onCluster (n : Nat) (f : Cluster → Cluster) (j : Nat) : (s.onCluster n f).core j = s.core j := rfl
@[simp] theorem State.core_onDie (p : Nat) (f : Die → Die) (j : Nat) : (s.onDie p f).core j = s.core j := rfl
@[simp] theorem State.core_onDist (v : Nat) (f : Dist → Dist) (j : Nat) : (s.onDist v f).core j = s.core j := rfl
@[simp] theorem State.core_onQueue (q : Nat) (f : Queue → Queue) (j : Nat) : (s.onQueue q f).core j = s.core j := rfl
@[simp] theorem State.core_onCtx (c : Nat) (f : Ctx → Ctx) (j : Nat) : (s.onCtx c f).core j = s.core j := rfl
@[simp] theorem State.core_onHead (h : Nat) (f : Head → Head) (j : Nat) : (s.onHead h f).core j = s.core j := rfl
@[simp] theorem State.core_onThread (k : FrameRef) (f : Thread → Thread) (j : Nat) : (s.onThread k f).core j = s.core j := rfl
@[simp] theorem State.core_onFrame (k : FrameRef) (f : Frame → Frame) (j : Nat) : (s.onFrame k f).core j = s.core j := rfl
@[simp] theorem State.core_onLaunch (l : Nat) (f : Launch → Launch) (j : Nat) : (s.onLaunch l f).core j = s.core j := rfl
@[simp] theorem State.core_onRender (l : Nat) (f : Render → Render) (j : Nat) : (s.onRender l f).core j = s.core j := rfl
@[simp] theorem State.core_onPkg (f : Pkg → Pkg) (j : Nat) : (s.onPkg f).core j = s.core j := rfl
@[simp] theorem State.core_send (m : Msg) (j : Nat) : (s.send m).core j = s.core j := rfl
@[simp] theorem State.core_emit (o : Output) (j : Nat) : (s.emit o).core j = s.core j := rfl

@[simp] theorem State.cluster_onCluster (g j : Nat) (f : Cluster → Cluster) :
    (s.onCluster g f).cluster j = if j = g then f (s.cluster g) else s.cluster j := by
  simp only [State.cluster, State.onCluster_clusters, Tbl.getD_put]

@[simp] theorem State.cluster_setCore (x : Nat) (c : Core) (j : Nat) : (s.setCore x c).cluster j = s.cluster j := rfl
@[simp] theorem State.cluster_onCore (x : Nat) (f : Core → Core) (j : Nat) : (s.onCore x f).cluster j = s.cluster j := rfl
@[simp] theorem State.cluster_onDie (p : Nat) (f : Die → Die) (j : Nat) : (s.onDie p f).cluster j = s.cluster j := rfl
@[simp] theorem State.cluster_onDist (v : Nat) (f : Dist → Dist) (j : Nat) : (s.onDist v f).cluster j = s.cluster j := rfl
@[simp] theorem State.cluster_onQueue (q : Nat) (f : Queue → Queue) (j : Nat) : (s.onQueue q f).cluster j = s.cluster j := rfl
@[simp] theorem State.cluster_onCtx (c : Nat) (f : Ctx → Ctx) (j : Nat) : (s.onCtx c f).cluster j = s.cluster j := rfl
@[simp] theorem State.cluster_onHead (h : Nat) (f : Head → Head) (j : Nat) : (s.onHead h f).cluster j = s.cluster j := rfl
@[simp] theorem State.cluster_onThread (k : FrameRef) (f : Thread → Thread) (j : Nat) : (s.onThread k f).cluster j = s.cluster j := rfl
@[simp] theorem State.cluster_onFrame (k : FrameRef) (f : Frame → Frame) (j : Nat) : (s.onFrame k f).cluster j = s.cluster j := rfl
@[simp] theorem State.cluster_onLaunch (l : Nat) (f : Launch → Launch) (j : Nat) : (s.onLaunch l f).cluster j = s.cluster j := rfl
@[simp] theorem State.cluster_onRender (l : Nat) (f : Render → Render) (j : Nat) : (s.onRender l f).cluster j = s.cluster j := rfl
@[simp] theorem State.cluster_onPkg (f : Pkg → Pkg) (j : Nat) : (s.onPkg f).cluster j = s.cluster j := rfl
@[simp] theorem State.cluster_send (m : Msg) (j : Nat) : (s.send m).cluster j = s.cluster j := rfl
@[simp] theorem State.cluster_emit (o : Output) (j : Nat) : (s.emit o).cluster j = s.cluster j := rfl

@[simp] theorem State.die_onDie (g j : Nat) (f : Die → Die) :
    (s.onDie g f).die j = if j = g then f (s.die g) else s.die j := by
  simp only [State.die, State.onDie_dies, Tbl.getD_put]

@[simp] theorem State.die_setCore (x : Nat) (c : Core) (j : Nat) : (s.setCore x c).die j = s.die j := rfl
@[simp] theorem State.die_onCore (x : Nat) (f : Core → Core) (j : Nat) : (s.onCore x f).die j = s.die j := rfl
@[simp] theorem State.die_setCluster (n : Nat) (c : Cluster) (j : Nat) : (s.setCluster n c).die j = s.die j := rfl
@[simp] theorem State.die_onCluster (n : Nat) (f : Cluster → Cluster) (j : Nat) : (s.onCluster n f).die j = s.die j := rfl
@[simp] theorem State.die_onDist (v : Nat) (f : Dist → Dist) (j : Nat) : (s.onDist v f).die j = s.die j := rfl
@[simp] theorem State.die_onQueue (q : Nat) (f : Queue → Queue) (j : Nat) : (s.onQueue q f).die j = s.die j := rfl
@[simp] theorem State.die_onCtx (c : Nat) (f : Ctx → Ctx) (j : Nat) : (s.onCtx c f).die j = s.die j := rfl
@[simp] theorem State.die_onHead (h : Nat) (f : Head → Head) (j : Nat) : (s.onHead h f).die j = s.die j := rfl
@[simp] theorem State.die_onThread (k : FrameRef) (f : Thread → Thread) (j : Nat) : (s.onThread k f).die j = s.die j := rfl
@[simp] theorem State.die_onFrame (k : FrameRef) (f : Frame → Frame) (j : Nat) : (s.onFrame k f).die j = s.die j := rfl
@[simp] theorem State.die_onLaunch (l : Nat) (f : Launch → Launch) (j : Nat) : (s.onLaunch l f).die j = s.die j := rfl
@[simp] theorem State.die_onRender (l : Nat) (f : Render → Render) (j : Nat) : (s.onRender l f).die j = s.die j := rfl
@[simp] theorem State.die_onPkg (f : Pkg → Pkg) (j : Nat) : (s.onPkg f).die j = s.die j := rfl
@[simp] theorem State.die_send (m : Msg) (j : Nat) : (s.send m).die j = s.die j := rfl
@[simp] theorem State.die_emit (o : Output) (j : Nat) : (s.emit o).die j = s.die j := rfl

@[simp] theorem State.dist_onDist (g j : Nat) (f : Dist → Dist) :
    (s.onDist g f).dist j = if j = g then f (s.dist g) else s.dist j := by
  simp only [State.dist, State.onDist_dists, Tbl.getD_put]

@[simp] theorem State.dist_setCore (x : Nat) (c : Core) (j : Nat) : (s.setCore x c).dist j = s.dist j := rfl
@[simp] theorem State.dist_onCore (x : Nat) (f : Core → Core) (j : Nat) : (s.onCore x f).dist j = s.dist j := rfl
@[simp] theorem State.dist_setCluster (n : Nat) (c : Cluster) (j : Nat) : (s.setCluster n c).dist j = s.dist j := rfl
@[simp] theorem State.dist_onCluster (n : Nat) (f : Cluster → Cluster) (j : Nat) : (s.onCluster n f).dist j = s.dist j := rfl
@[simp] theorem State.dist_onDie (p : Nat) (f : Die → Die) (j : Nat) : (s.onDie p f).dist j = s.dist j := rfl
@[simp] theorem State.dist_onQueue (q : Nat) (f : Queue → Queue) (j : Nat) : (s.onQueue q f).dist j = s.dist j := rfl
@[simp] theorem State.dist_onCtx (c : Nat) (f : Ctx → Ctx) (j : Nat) : (s.onCtx c f).dist j = s.dist j := rfl
@[simp] theorem State.dist_onHead (h : Nat) (f : Head → Head) (j : Nat) : (s.onHead h f).dist j = s.dist j := rfl
@[simp] theorem State.dist_onThread (k : FrameRef) (f : Thread → Thread) (j : Nat) : (s.onThread k f).dist j = s.dist j := rfl
@[simp] theorem State.dist_onFrame (k : FrameRef) (f : Frame → Frame) (j : Nat) : (s.onFrame k f).dist j = s.dist j := rfl
@[simp] theorem State.dist_onLaunch (l : Nat) (f : Launch → Launch) (j : Nat) : (s.onLaunch l f).dist j = s.dist j := rfl
@[simp] theorem State.dist_onRender (l : Nat) (f : Render → Render) (j : Nat) : (s.onRender l f).dist j = s.dist j := rfl
@[simp] theorem State.dist_onPkg (f : Pkg → Pkg) (j : Nat) : (s.onPkg f).dist j = s.dist j := rfl
@[simp] theorem State.dist_send (m : Msg) (j : Nat) : (s.send m).dist j = s.dist j := rfl
@[simp] theorem State.dist_emit (o : Output) (j : Nat) : (s.emit o).dist j = s.dist j := rfl

@[simp] theorem State.queue_onQueue (g j : Nat) (f : Queue → Queue) :
    (s.onQueue g f).queue j = if j = g then f (s.queue g) else s.queue j := by
  simp only [State.queue, State.onQueue_queues, Tbl.getD_put]

@[simp] theorem State.queue_setCore (x : Nat) (c : Core) (j : Nat) : (s.setCore x c).queue j = s.queue j := rfl
@[simp] theorem State.queue_onCore (x : Nat) (f : Core → Core) (j : Nat) : (s.onCore x f).queue j = s.queue j := rfl
@[simp] theorem State.queue_setCluster (n : Nat) (c : Cluster) (j : Nat) : (s.setCluster n c).queue j = s.queue j := rfl
@[simp] theorem State.queue_onCluster (n : Nat) (f : Cluster → Cluster) (j : Nat) : (s.onCluster n f).queue j = s.queue j := rfl
@[simp] theorem State.queue_onDie (p : Nat) (f : Die → Die) (j : Nat) : (s.onDie p f).queue j = s.queue j := rfl
@[simp] theorem State.queue_onDist (v : Nat) (f : Dist → Dist) (j : Nat) : (s.onDist v f).queue j = s.queue j := rfl
@[simp] theorem State.queue_onCtx (c : Nat) (f : Ctx → Ctx) (j : Nat) : (s.onCtx c f).queue j = s.queue j := rfl
@[simp] theorem State.queue_onHead (h : Nat) (f : Head → Head) (j : Nat) : (s.onHead h f).queue j = s.queue j := rfl
@[simp] theorem State.queue_onThread (k : FrameRef) (f : Thread → Thread) (j : Nat) : (s.onThread k f).queue j = s.queue j := rfl
@[simp] theorem State.queue_onFrame (k : FrameRef) (f : Frame → Frame) (j : Nat) : (s.onFrame k f).queue j = s.queue j := rfl
@[simp] theorem State.queue_onLaunch (l : Nat) (f : Launch → Launch) (j : Nat) : (s.onLaunch l f).queue j = s.queue j := rfl
@[simp] theorem State.queue_onRender (l : Nat) (f : Render → Render) (j : Nat) : (s.onRender l f).queue j = s.queue j := rfl
@[simp] theorem State.queue_onPkg (f : Pkg → Pkg) (j : Nat) : (s.onPkg f).queue j = s.queue j := rfl
@[simp] theorem State.queue_send (m : Msg) (j : Nat) : (s.send m).queue j = s.queue j := rfl
@[simp] theorem State.queue_emit (o : Output) (j : Nat) : (s.emit o).queue j = s.queue j := rfl

@[simp] theorem State.ctx_onCtx (g j : Nat) (f : Ctx → Ctx) :
    (s.onCtx g f).ctx j = if j = g then f (s.ctx g) else s.ctx j := by
  simp only [State.ctx, State.onCtx_ctxs, Tbl.getD_put]

@[simp] theorem State.ctx_setCore (x : Nat) (c : Core) (j : Nat) : (s.setCore x c).ctx j = s.ctx j := rfl
@[simp] theorem State.ctx_onCore (x : Nat) (f : Core → Core) (j : Nat) : (s.onCore x f).ctx j = s.ctx j := rfl
@[simp] theorem State.ctx_setCluster (n : Nat) (c : Cluster) (j : Nat) : (s.setCluster n c).ctx j = s.ctx j := rfl
@[simp] theorem State.ctx_onCluster (n : Nat) (f : Cluster → Cluster) (j : Nat) : (s.onCluster n f).ctx j = s.ctx j := rfl
@[simp] theorem State.ctx_onDie (p : Nat) (f : Die → Die) (j : Nat) : (s.onDie p f).ctx j = s.ctx j := rfl
@[simp] theorem State.ctx_onDist (v : Nat) (f : Dist → Dist) (j : Nat) : (s.onDist v f).ctx j = s.ctx j := rfl
@[simp] theorem State.ctx_onQueue (q : Nat) (f : Queue → Queue) (j : Nat) : (s.onQueue q f).ctx j = s.ctx j := rfl
@[simp] theorem State.ctx_onHead (h : Nat) (f : Head → Head) (j : Nat) : (s.onHead h f).ctx j = s.ctx j := rfl
@[simp] theorem State.ctx_onThread (k : FrameRef) (f : Thread → Thread) (j : Nat) : (s.onThread k f).ctx j = s.ctx j := rfl
@[simp] theorem State.ctx_onFrame (k : FrameRef) (f : Frame → Frame) (j : Nat) : (s.onFrame k f).ctx j = s.ctx j := rfl
@[simp] theorem State.ctx_onLaunch (l : Nat) (f : Launch → Launch) (j : Nat) : (s.onLaunch l f).ctx j = s.ctx j := rfl
@[simp] theorem State.ctx_onRender (l : Nat) (f : Render → Render) (j : Nat) : (s.onRender l f).ctx j = s.ctx j := rfl
@[simp] theorem State.ctx_onPkg (f : Pkg → Pkg) (j : Nat) : (s.onPkg f).ctx j = s.ctx j := rfl
@[simp] theorem State.ctx_send (m : Msg) (j : Nat) : (s.send m).ctx j = s.ctx j := rfl
@[simp] theorem State.ctx_emit (o : Output) (j : Nat) : (s.emit o).ctx j = s.ctx j := rfl

@[simp] theorem State.head_onHead (g j : Nat) (f : Head → Head) :
    (s.onHead g f).head j = if j = g then f (s.head g) else s.head j := by
  simp only [State.head, State.onHead_heads, Tbl.getD_put]

@[simp] theorem State.head_setCore (x : Nat) (c : Core) (j : Nat) : (s.setCore x c).head j = s.head j := rfl
@[simp] theorem State.head_onCore (x : Nat) (f : Core → Core) (j : Nat) : (s.onCore x f).head j = s.head j := rfl
@[simp] theorem State.head_setCluster (n : Nat) (c : Cluster) (j : Nat) : (s.setCluster n c).head j = s.head j := rfl
@[simp] theorem State.head_onCluster (n : Nat) (f : Cluster → Cluster) (j : Nat) : (s.onCluster n f).head j = s.head j := rfl
@[simp] theorem State.head_onDie (p : Nat) (f : Die → Die) (j : Nat) : (s.onDie p f).head j = s.head j := rfl
@[simp] theorem State.head_onDist (v : Nat) (f : Dist → Dist) (j : Nat) : (s.onDist v f).head j = s.head j := rfl
@[simp] theorem State.head_onQueue (q : Nat) (f : Queue → Queue) (j : Nat) : (s.onQueue q f).head j = s.head j := rfl
@[simp] theorem State.head_onCtx (c : Nat) (f : Ctx → Ctx) (j : Nat) : (s.onCtx c f).head j = s.head j := rfl
@[simp] theorem State.head_onThread (k : FrameRef) (f : Thread → Thread) (j : Nat) : (s.onThread k f).head j = s.head j := rfl
@[simp] theorem State.head_onFrame (k : FrameRef) (f : Frame → Frame) (j : Nat) : (s.onFrame k f).head j = s.head j := rfl
@[simp] theorem State.head_onLaunch (l : Nat) (f : Launch → Launch) (j : Nat) : (s.onLaunch l f).head j = s.head j := rfl
@[simp] theorem State.head_onRender (l : Nat) (f : Render → Render) (j : Nat) : (s.onRender l f).head j = s.head j := rfl
@[simp] theorem State.head_onPkg (f : Pkg → Pkg) (j : Nat) : (s.onPkg f).head j = s.head j := rfl
@[simp] theorem State.head_send (m : Msg) (j : Nat) : (s.send m).head j = s.head j := rfl
@[simp] theorem State.head_emit (o : Output) (j : Nat) : (s.emit o).head j = s.head j := rfl

@[simp] theorem State.core_setCore (g j : Nat) (c : Core) : (s.setCore g c).core j = if j = g then c else s.core j := by
  simp only [State.core, State.setCore_cores, Tbl.getD_put]

@[simp] theorem State.cluster_setCluster (g j : Nat) (c : Cluster) :
    (s.setCluster g c).cluster j = if j = g then c else s.cluster j := by
  simp only [State.cluster, State.setCluster_clusters, Tbl.getD_put]

theorem State.get_onThread (k j : Nat) (f : Thread → Thread) :
    (s.onThread k f).threads.get j = if j = k then (s.threads.get j).map f else s.threads.get j := by
  simp only [State.onThread_threads, Tbl.get_update]

theorem State.get_onFrame (k j : Nat) (f : Frame → Frame) :
    (s.onFrame k f).frames.get j = if j = k then (s.frames.get j).map f else s.frames.get j := by
  simp only [State.onFrame_frames, Tbl.get_update]

theorem State.get_onLaunch (k j : Nat) (f : Launch → Launch) :
    (s.onLaunch k f).launches.get j = if j = k then (s.launches.get j).map f else s.launches.get j := by
  simp only [State.onLaunch_launches, Tbl.get_update]

theorem State.get_onRender (k j : Nat) (f : Render → Render) :
    (s.onRender k f).renders.get j = if j = k then (s.renders.get j).map f else s.renders.get j := by
  simp only [State.onRender_renders, Tbl.get_update]

end Sys2Proof.Machine
end

