-- ==== Sys2Proof/Tests/Slice0.lean ====
section
/-! SUPPORT. Tests: words of the spec's encodings decoded, ill-formed terms refused, single steps with results worked out from
the spec, and for each obligation a state and operands that meet its hypotheses. -/

namespace Sys2Proof.Tests

open Sys2Proof.Machine

/-! ## Decoding: words written out from the encoding tables of 05, 07, 08, 09 and 10. -/

/-- 05 R111, R112: opcode in bits 31 to 25, d in 24 to 18, a in 17 to 11, imm11 in 10 to 0. ADDI v1, v0, #5 is
0000010 0000001 0000000 00000000101. -/
theorem test_decode_addi : decodeTableWord 32 0b00000100000001000000000000000101 = some (.addi none 1 0 (.short 5)) := by decide

/-- 05 R112: an immediate prefix, opcode 1111100, carries bits 31 to 11 of the value, and the word its low 11. -/
theorem test_decode_prefix : decodeTableWord 64 (0b11111000000000000000000000100100 + 2 ^ 32 * 0b00000100000011000001001101000101)
    = some (.addi none 3 2 (.long 0x00012345)) := by decide

/-- 05 R113: a pattern prefix, opcode 1111101, whose field a is pattern 001 with amount 00100, before ADDI. Opcodes 0x00 and 0x7E
and a prefix without its instruction do not decode (05 R115, R117). -/
theorem test_decode_pattern : decodeTableWord 64 (0b11111010000000000000000000100100 + 2 ^ 32 * 0b00000100000100000001100000000000)
      = some (.addi (some ⟨.rot 4, .own, .own⟩) 4 3 (.short 0)) ∧
    decodeTableWord 32 0x00000000 = none ∧ decodeTableWord 32 0xFC000000 = none ∧ decodeTableWord 32 0xFA000024 = none := by decide

theorem test_decode_control : decodeTableWord 32 0x42000000 = some .exitT ∧ decodeTableWord 32 0x42000001 = some .yield ∧
    decodeTableWord 32 0x42000002 = some .nop ∧ decodeTableWord 32 0x46000001 = some .brk ∧
    decodeTableWord 32 0x46000002 = some .eret ∧ decodeTableWord 32 0x46000003 = some .eretRetry ∧
    decodeTableWord 32 0x4003F801 = some (.ret 127) := by decide

theorem test_decode_system : decodeTableWord 32 0x48240004 = some (.sreg 9 .gcore) ∧ decodeTableWord 32 0x4A281001 = some (.caps 10 2) ∧
    decodeTableWord 32 0x203800C2 = some (.lea none 14 0 12 false 2) := by decide

theorem test_decode_float : decodeTableWord 32 0x50284091 = some (.fadd none 10 8 9 false .rz) ∧
    decodeTableWord 32 0x847CA001 = some (.redmax none 31 20 false .rn .n32) := by decide

theorem test_decode_memory : decodeTableWord 32 0xA87411F9 = some (.atom 29 2 31 .maxN32) ∧
    decodeTableWord 32 0xC0000023 = some (.meetinit .reconv 3) ∧ decodeTableWord 32 0xC2780043 = some (.sync 30 3) ∧
    decodeTableWord 32 0xC8000003 = some (.join 3) ∧ decodeTableWord 32 0xCE400000 = some (.nexti 16) := by decide

theorem test_decode_engines : decodeTableWord 32 0xD80C4002 = some (.msign 3 8 2) ∧ decodeTableWord 32 0xDA0000C5 = some (.mzero .f32 3 5) ∧
    decodeTableWord 32 0xE020C1C0 = some (.gwin .g15 0 24 28) ∧ decodeTableWord 32 0xE28DF800 = some (.gdec 35 63 0) ∧
    decodeTableWord 32 0xDC101034 = some (.mstore 4 2 3 false .rdi) := by decide

theorem test_decode_render : decodeTableWord 32 0xEC545000 = some (.psub 21 10) ∧ decodeTableWord 32 0xEE500000 = some (.bopen 20) ∧
    decodeTableWord 32 0xEE5CA001 = some (.bclose 23 20) ∧ decodeTableWord 32 0xF000F810 = some (.cam 31 .dice) ∧
    decodeTableWord 32 0xF000FA01 = some (.deck 31 32) ∧ decodeTableWord 32 0xF2104021 = some (.trace 4 8 2 true) ∧
    decodeTableWord 32 0xF4141000 = some (.hitld 5 2) := by decide

/-! ## Well-formedness: an ill-formed term for each check (03 R69, R81, R85; 05 R113, R115; 07 R146; 08 R191 to R196). -/

theorem test_ill_formed_groups : check (.add64 none 3 2 4 false) = some .misalignedGroup ∧
    check (.movB64 none 2 5) = some .misalignedGroup ∧ check (.jrB64 7) = some .misalignedGroup ∧
    check (.ldG 2 4 (.short 0) .b128) = some .misalignedGroup ∧ check (.spawn 0 2 9) = some .misalignedGroup ∧
    check (.await 2) = some .misalignedGroup ∧ check (.atom 3 2 4 .add64) = some .misalignedGroup ∧
    check (.sreg 3 .time) = some .misalignedGroup ∧ check (.sset 1 .framearea) = some .misalignedGroup := by decide

theorem test_ill_formed_patterns : check (.add (some ⟨.mw 0, .own, .own⟩) 1 2 3 .n32) = some .badPattern ∧
    check (.add (some ⟨.mw 6, .own, .own⟩) 1 2 3 .n32) = some .badPattern ∧
    check (.add (some ⟨.own, .shu 0, .own⟩) 1 2 3 .n32) = some .badPattern ∧
    check (.add (some ⟨.own, .own, .mir⟩) 1 2 3 .n32) = some .badPattern ∧
    check (.elect (some ⟨.rot 1, .own, .own⟩) 1) = some .badPattern := by decide

theorem test_ill_formed_fields : check (.bfx none 1 2 false 31 1) = some .badField ∧
    check (.bfi none 1 2 0 0) = none ∧ check (.bfx none 1 2 false 31 0) = none ∧
    check (.fadd none 1 2 3 false .rdi) = some .badRounding ∧ check (.cvtNarrow none 1 2 2 false .rn .f16) = some .badRounding ∧
    check (.cvtNarrow none 1 2 0 true .rn .e4) = some .badRounding ∧ check (.cvtF2i none 1 2 1 .rn .s32) = some .badRounding ∧
    check (.redadd none 1 2 true .rn .n32) = some .badRounding ∧ check (.redmin none 1 2 false .rz .f32) = some .badRounding := by
  decide

/-! ## Small states: one thread, number 0 on core 0, with an issue in hand. -/

/-- A booted package, nothing placed: 20 R396's identity map, and the firmware region of log 3. -/
def base : State :=
  { State.reset with
    pkg := { Pkg.reset with stage := 7, phys := 0xE4, fwbase := 176 * 2 ^ 30, areabase := 176 * 2 ^ 30, futbase := 188 * 2 ^ 30 } }

/-- A thread of 128 registers in lane 0 of partition 0, of launch 7 and context 0, with some registers written. -/
def th (regs : Tbl RegVal) : Thread := { Thread.placed 0 0 0 0x1004 128 [] false 0 0 7 0 0 0 0 with regs := regs }

def fr : Frame := Frame.taken .root 0 0 0 0 0 7 0 0
def iss : Issue := ⟨[0], 0x1004, 0x1004, 0x12345678, 0, false⟩

/-- The thread alone, issued. -/
def one (t : Thread) : State := { base with threads := [(0, t)], frames := [(0, fr)], issue := some iss }

/-- Registers with values of each kind: v1 to v7 integers, v8 to v11 FP32, v16 to v19 and v24 pairs. -/
def mixed : Tbl RegVal :=
  [(1, (5, .n32)), (2, (3, .n32)), (3, (0x80000000, .s32)), (8, (0x3F800000, .f32)), (9, (0x40000000, .f32)),
   (10, (0xBF800000, .f32)), (16, (0x1024, .w64)), (17, (0, .w64)), (18, (0xFFFFFFFF, .w64)), (19, (0xFFFFFFFF, .w64))]

def vals (s : State) (t : Thread) (srcs : List Src) : List (List RegVal) := (srcs.mapM (readGroup s [0] t)).getD []

/-- The checks of Readable, as one test. -/
def readable (s : State) (t : Thread) (srcs : List Src) (dst : List (Nat × Nat)) : Bool :=
  decide ((∀ o ∈ srcs, o.pat = .own → ∀ i < o.n, t.inRange (o.name + i) = true) ∧
    (∀ p ∈ dst, ∀ i < p.2, t.inRange (p.1 + i) = true) ∧
    (∀ p ∈ dst, ∀ i < p.2, t.pending (t.index (p.1 + i)) = false) ∧
    srcs.mapM (readGroup s [0] t) = some (vals s t srcs) ∧ awaited s [0] t srcs = [] ∧
    (∀ p ∈ srcs.zip (vals s t srcs), ∀ v ∈ p.2, tagPasses p.1.tags v.2 = true) ∧
    (t.check = true → ∀ o ∈ srcs, o.pat = .own → ∀ i < o.n, t.early (t.index (o.name + i)) = false))

theorem readable_spec {s : State} {t : Thread} {srcs : List Src} {dst : List (Nat × Nat)} (h : readable s t srcs dst = true) :
    Readable s iss t srcs dst (vals s t srcs) :=
  let ⟨h1, h2, h3, h4, h5, h6, h7⟩ := of_decide_eq_true h
  ⟨h1, h2, h3, h4, h5, h6, h7⟩

theorem alone_one (t : Thread) : Alone (one t) iss 0 t := ⟨rfl, rfl, rfl⟩

/-- Some group meets the premises of Does for an effect. -/
def Meets (e : Effect) : Prop :=
  ∃ s is, Issuing s is ∧ ∀ k ∈ is.members, ∀ t, s.threads.get k = some t →
    ∃ v, Readable s is t e.srcs [(e.dest, e.regs)] v ∧ e.ready s is k t v

theorem meets {e : Effect} (s : State) (t : Thread) (ha : Alone s iss 0 t) (hr : readable s t e.srcs [(e.dest, e.regs)] = true)
    (hy : e.ready s iss 0 t (vals s t e.srcs)) : Meets e := by
  refine ⟨s, iss, ha.issuing, ?_⟩
  intro k hk u hu
  rw [ha.members] at hk
  simp only [List.mem_singleton] at hk
  subst hk
  rw [ha.thread] at hu
  cases hu
  exact ⟨_, readable_spec hr, hy⟩

/-- Some thread, issued alone, meets the premises of Leads, FaultsWith or TrapsWith. -/
def MeetsAlone (srcs : List Src) (dst : List (Nat × Nat)) (when_ : State → Issue → FrameRef → Thread → List (List RegVal) → Prop) :
    Prop :=
  ∃ s is k t v, Alone s is k t ∧ (s.frames.get k).isSome = true ∧ Readable s is t srcs dst v ∧ when_ s is k t v

theorem meetsAlone {srcs : List Src} {dst : List (Nat × Nat)}
    {when_ : State → Issue → FrameRef → Thread → List (List RegVal) → Prop} (s : State) (t : Thread) (ha : Alone s iss 0 t)
    (hf : (s.frames.get 0).isSome = true) (hr : readable s t srcs dst = true) (hw : when_ s iss 0 t (vals s t srcs)) :
    MeetsAlone srcs dst when_ := ⟨s, iss, 0, t, _, ha, hf, readable_spec hr, hw⟩

theorem meetsOne {e : Effect} (t : Thread) (hr : readable (one t) t e.srcs [(e.dest, e.regs)] = true)
    (hy : e.ready (one t) iss 0 t (vals (one t) t e.srcs)) : Meets e := meets (one t) t (alone_one t) hr hy

theorem aloneOne {srcs : List Src} {dst : List (Nat × Nat)}
    {when_ : State → Issue → FrameRef → Thread → List (List RegVal) → Prop} (t : Thread)
    (hr : readable (one t) t srcs dst = true) (hw : when_ (one t) iss 0 t (vals (one t) t srcs)) : MeetsAlone srcs dst when_ :=
  meetsAlone (one t) t (alone_one t) rfl hr hw

/-! ## Witnesses: for each obligation, states and operands that meet the premises of its clauses. -/

theorem witness_IntegerArithmetic :
    Meets { srcs := [srcA none 1 1 (some tagsInt), srcB none 2 1 (some tagsInt), srcD none 3 1 (some tagsInt)], dest := 3, regs := 1 } ∧
    Meets { srcs := [srcA (some ⟨.mw 5, .rot 31, .own⟩) 1 1 (some tagsInt), srcB (some ⟨.mw 5, .rot 31, .own⟩) 2 1 (some tagsInt)],
            dest := 127, regs := 1 } :=
  ⟨meetsOne (th mixed) (by decide) trivial, meetsOne (th mixed) (by decide) trivial⟩

theorem witness_PairForms :
    Meets { srcs := [srcA none 16 2 (some tagsWide), srcB none 18 2 (some tagsWide)], dest := 126, regs := 2 } ∧
    Meets { srcs := [srcA none 18 2 (some tagsWide), srcB none 3 1 (some tagsInt)], dest := 20, regs := 2 } :=
  ⟨meetsOne (th mixed) (by decide) trivial, meetsOne (th mixed) (by decide) trivial⟩

theorem witness_LogicAndShifts :
    Meets { srcs := [srcA none 18 1 none, srcB none 2 1 none], dest := 18, regs := 1 } ∧
    Meets { srcs := [srcA (some ⟨.shu 31, .own, .own⟩) 127 1 none], dest := 0, regs := 1 } :=
  ⟨meetsOne (th mixed) (by decide) trivial, meetsOne (th mixed) (by decide) trivial⟩

theorem witness_BitFields : (0 : Fin 32).val + ((31 : Fin 32).val + 1) ≤ 32 ∧ (31 : Fin 32).val + ((0 : Fin 32).val + 1) ≤ 32 ∧
    Meets { srcs := [srcA none 1 1 none, srcD none 3 1 none], dest := 3, regs := 1 } :=
  ⟨by decide, by decide, meetsOne (th mixed) (by decide) trivial⟩

theorem witness_CompareSelectMove :
    Meets { srcs := [srcA none 1 1 (some tagsInt), srcB none 3 1 (some tagsInt)], dest := 4, regs := 1 } ∧
    CcHolds .ltN 5 0x80000000 ∧ ¬ CcHolds .ltS 5 0x80000000 ∧
    Meets { srcs := [srcA none 8 1 none, srcB none 9 1 none, srcD none 5 1 none], dest := 5, regs := 1 } ∧
    Meets { srcs := [], dest := 0, regs := 1, latency := some 2 } :=
  ⟨meetsOne (th mixed) (by decide) trivial, by unfold CcHolds; decide, by unfold CcHolds; decide, meetsOne (th mixed) (by decide) trivial,
    meetsOne (th mixed) (by decide) trivial⟩

/-- The thread with one bundle of words and its page tables in memory (log 4). -/
def code (words : List Nat) : State := base.placeWords words

theorem witness_Transfers :
    Meets { ready := fun s is k t _ => s.targetOk (t.who k) (relTarget is.inst (8 : BitVec 25).toInt) = true } ∧
    Meets { dest := 127, regs := 1, ready := fun s is k t _ => s.targetOk (t.who k) (relTarget is.inst (-8 : BitVec 25).toInt) = true } ∧
    Meets { srcs := [ownSrc 5 1 none],
            ready := fun s is k t v => argW v 0 = 0 ∧ s.targetOk (t.who k) (relTarget is.inst (immInt (.short 16))) = true } ∧
    Meets { srcs := [ownSrc 1 1 none],
            ready := fun s is k t v => argW v 0 ≠ 0 ∧ s.targetOk (t.who k) (relTarget is.inst (immInt (.long 16))) = true } ∧
    Meets { srcs := [ownSrc 16 1 (some tagsWide)],
            ready := fun s is k t v => s.targetOk (t.who k) (is.inst / 2 ^ 32 * 2 ^ 32 + (argW v 0).toNat) = true } ∧
    Meets { srcs := [ownSrc 16 2 (some tagsWide)], ready := fun s _ k t v => argN v 0 < 2 ^ 57 ∧ s.targetOk (t.who k) (argN v 0) = true } ∧
    (0x1008 % 4 = 0 ∧ 8 ≤ 0x1008 % 32 ∧ (code [0xF8000024, 0x040C1345]).peekWord (probeThread.who 0) 0x1004 = some 0xF8000024) :=
  ⟨meetsOne (th mixed) (by decide) (by decide), meetsOne (th mixed) (by decide) (by decide), meetsOne (th mixed) (by decide) (by decide),
    meetsOne (th mixed) (by decide) (by decide), meetsOne (th mixed) (by decide) (by decide), meetsOne (th mixed) (by decide) (by decide),
    by decide⟩

theorem witness_YieldNopWindow : Meets {} ∧ Meets { ready := fun _ _ _ t _ => 16 * (7 : Fin 64).val < t.alloc } ∧
    Meets { srcs := [ownSrc 20 1 (some tagsInt)], ready := fun _ _ _ t v => (argW v 0).toNat % 16 = 0 ∧ (argW v 0).toNat < t.alloc } :=
  ⟨meetsOne (th mixed) (by decide) trivial, meetsOne (th mixed) (by decide) (by decide),
    meetsOne (th [(20, (112, .n32))]) (by decide) (by decide)⟩

/-- 0x1020 holds a control word, and 2^64 - 1 is no code address (05 R103). -/
theorem witness_BadTargets :
    MeetsAlone [] [(127, 1)] (fun s is k t _ => s.targetOk (t.who k) (relTarget is.inst (7 : BitVec 25).toInt) = false) ∧
    MeetsAlone [ownSrc 5 1 none] [] (fun s is k t v => argW v 0 = 0 ∧ s.targetOk (t.who k) (relTarget is.inst (immInt (.short 7))) = false) ∧
    MeetsAlone [ownSrc 1 1 none] [] (fun s is k t v => argW v 0 ≠ 0 ∧ s.targetOk (t.who k) (relTarget is.inst (immInt (.short 7))) = false) ∧
    MeetsAlone [ownSrc 20 1 (some tagsWide)] []
      (fun s is k t v => s.targetOk (t.who k) (is.inst / 2 ^ 32 * 2 ^ 32 + (argW v 0).toNat) = false) ∧
    MeetsAlone [ownSrc 18 2 (some tagsWide)] [] (fun _ _ _ _ v => 2 ^ 57 ≤ argN v 0) ∧
    MeetsAlone [ownSrc 20 2 (some tagsWide)] [] (fun s _ k t v => s.targetOk (t.who k) (argN v 0) = false) :=
  ⟨aloneOne (th mixed) (by decide) (by decide), aloneOne (th mixed) (by decide) (by decide), aloneOne (th mixed) (by decide) (by decide),
    aloneOne (th mixed) (by decide) (by decide), aloneOne (th mixed) (by decide) (by decide), aloneOne (th mixed) (by decide) (by decide)⟩

/-- A thread in its handler. -/
def trapped : Thread := { th mixed with trapped := true, resFirst := 0x1004, resInst := 0x101C, trapcode := 0x0100 }

/-- The thread on a core whose entry for its context is 0x2004. -/
def handled (t : Thread) : State := (one t).onCore 0 fun c => { c with handlers := [(0, 0x2004)] }

set_option maxRecDepth 20000 in
theorem witness_SpecialRegisterReads :
    Meets { dest := 4, regs := 1, ready := fun _ _ _ t _ => (0x40 ≤ Sreg.code .tid → t.trapped = true) ∧
              (Sreg.tid = .winstat → ∀ l ∈ t.loads, l.window = none) } ∧
    Meets { dest := 112, regs := 2, ready := fun _ _ _ t _ => (0x40 ≤ Sreg.code .trapaddr → t.trapped = true) ∧
              (Sreg.trapaddr = .winstat → ∀ l ∈ t.loads, l.window = none) } ∧
    Meets { dest := 126, regs := 2, latency := some 3 } ∧
    (State.reset.fuses.heads ≤ 4 ∧ State.reset.fuses.ports ≤ 8 ∧ State.reset.fuses.dies ∈ [1, 2, 3, 4]) ∧
    State.reset.fuses.part < 2 ^ 8 ∧ base.allCores.length < 2 ^ 16 :=
  ⟨meetsOne (th mixed) (by decide) (by decide), meetsOne trapped (by decide) (by decide), meetsOne (th mixed) (by decide) trivial,
    by decide, by decide, by decide⟩

theorem witness_Traps :
    MeetsAlone [ownSrc 1 1 none] [] (fun s _ k t _ => t.trapped = false ∧ s.handler k t ≠ 0) ∧
    MeetsAlone [ownSrc 1 1 none] [] (fun _ _ _ t _ => t.trapped = true) ∧
    MeetsAlone [ownSrc 1 1 none] [] (fun s _ k t _ => t.trapped = false ∧ s.handler k t = 0) :=
  ⟨meetsAlone (handled (th mixed)) (th mixed) ⟨rfl, rfl, rfl⟩ rfl (by decide) (by decide), aloneOne trapped (by decide) rfl,
    aloneOne (th mixed) (by decide) (by decide)⟩

theorem witness_TrapReturnAndPrivilege :
    Meets { ready := fun s _ k t _ => t.trapped = true ∧ (t.resReplaced = true → s.targetOk (t.who k) t.resInst = true) } ∧
    MeetsAlone [ownSrc 16 2 (some tagsWide)] [] InUserState ∧ MeetsAlone [ownSrc 1 1 none] [] InUserState ∧
    MeetsAlone [ownSrc 1 1 (some tagsInt), ownSrc 16 2 (some tagsWide)] [] InUserState ∧
    MeetsAlone [] [(4, 1)] (fun _ _ _ t _ => t.trapped = false ∧ t.winbase + (127 : Fin 128).val < t.alloc) ∧
    (0x40 ≤ Sreg.code .framearea ∧ MeetsAlone [] [(4, 2)] InUserState) :=
  ⟨meetsOne trapped (by decide) (by decide), aloneOne (th mixed) (by decide) rfl, aloneOne (th mixed) (by decide) rfl,
    aloneOne (th mixed) (by decide) rfl, aloneOne (th mixed) (by decide) (by decide), by decide, aloneOne (th mixed) (by decide) rfl⟩

theorem witness_SupervisorWrites :
    MeetsAlone [ownSrc 20 2 (some tagsWide)] [] (fun _ _ _ t v => t.trapped = true ∧ argN v 0 % 2 ^ 57 = 0) ∧
    MeetsAlone [ownSrc 16 2 (some tagsWide)] [] (fun _ _ _ t v => t.trapped = true ∧ argN v 0 % 2 ^ 57 % 32 = 4) ∧
    MeetsAlone [ownSrc 1 1 none] [] (fun s _ k t _ => t.trapped = true ∧ s.frames.any (fun f => coreOf f.1 == coreOf k) = true) ∧
    (Alone { one trapped with frames := [] } iss 0 trapped ∧ ({ one trapped with frames := [] }).frames.any (fun f => coreOf f.1 == 0) = false) ∧
    MeetsAlone [ownSrc 16 2 none] [] (fun _ _ _ t _ => t.trapped = true) :=
  ⟨aloneOne trapped (by decide) (by decide), aloneOne trapped (by decide) (by decide), aloneOne trapped (by decide) (by decide),
    ⟨⟨rfl, rfl, rfl⟩, by decide⟩, aloneOne trapped (by decide) rfl⟩

theorem witness_SupervisorAccess :
    MeetsAlone [ownSrc 1 1 (some tagsInt), ownSrc 16 2 (some tagsWide)] [] (fun _ _ _ t _ => t.trapped = true) ∧
    Meets { dest := 4, regs := 1, ready := fun _ _ _ t _ => t.trapped = true ∧ t.winbase + (127 : Fin 128).val < t.alloc ∧
              t.pending (t.winbase + (127 : Fin 128).val) = false ∧ (t.check = true → t.early (t.winbase + (127 : Fin 128).val) = false) } ∧
    MeetsAlone [ownSrc 1 1 none] []
      (fun _ _ _ t _ => t.trapped = true ∧ t.winbase + (0 : Fin 128).val < t.alloc ∧ t.pending (t.winbase + (0 : Fin 128).val) = false) ∧
    (let s := one { trapped with run := .engine (.tlbinv false 0x1000) }
     ∃ t, s.threads.get 0 = some t ∧ t.susp = none ∧ t.run = .engine (.tlbinv false 0x1000)) :=
  ⟨aloneOne trapped (by decide) rfl, meetsOne trapped (by decide) (by decide), aloneOne trapped (by decide) (by decide), _, rfl, rfl, rfl⟩

/-- The thread beside two others that take every register of its lane that it does not hold. -/
def crowded (t : Thread) : State :=
  { one t with threads := [(0, t), (1, { th [] with cx := 1, alloc := 512 }), (2, { th [] with cx := 2, alloc := 384 })] }

theorem witness_WindowsAndAllocation :
    MeetsAlone [] [] (fun _ _ _ t _ => 16 * (8 : Fin 64).val % 16 = 0 ∧ 16 * (8 : Fin 64).val ≤ 512 ∧ 16 * (8 : Fin 64).val ≤ t.alloc) ∧
    MeetsAlone [] [] (fun s _ k t _ => 16 * (32 : Fin 64).val ≤ 512 ∧ t.alloc < 16 * (32 : Fin 64).val ∧ t.susp = none ∧
      k ∉ s.growQueue k t ∧ s.noneGrowing k t ∧ 16 * (32 : Fin 64).val - t.alloc ≤ s.freeRegs (coreOf k) t.part t.lane) ∧
    MeetsAlone [] [] (fun s _ k t _ => t.alloc < 16 * (9 : Fin 64).val ∧ t.susp = none ∧
      k ∉ s.growQueue k t ∧ s.noneGrowing k t ∧ s.freeRegs (coreOf k) t.part t.lane < 16 * (9 : Fin 64).val - t.alloc) ∧
    MeetsAlone [] [] (fun _ _ _ t _ => 16 ≤ 16 * (8 : Fin 64).val ∧ t.winbase < 16 * (8 : Fin 64).val ∧ t.alloc ≤ 16 * (8 : Fin 64).val) ∧
    MeetsAlone [ownSrc 20 1 (some tagsInt)] [] (fun s _ k t v => windowArg v % 16 = 0 ∧ 16 ≤ windowArg v ∧ t.winbase < windowArg v ∧
      windowArg v < t.alloc ∧ s.noneGrowing k t ∧ t.run = .ready ∧ t.pend = []) ∧
    MeetsAlone [] [] (fun _ _ _ t _ => t.alloc ≤ 16 * (8 : Fin 64).val) ∧
    MeetsAlone [ownSrc 1 1 (some tagsInt)] [] (fun _ _ _ _ v => windowArg v % 16 ≠ 0) ∧
    MeetsAlone [ownSrc 3 1 (some tagsInt)] [] (fun _ _ _ t v => windowArg v % 16 = 0 ∧ 512 < windowArg v ∧ t.alloc ≤ windowArg v) ∧
    512 < 16 * (33 : Fin 64).val ∧
    MeetsAlone [ownSrc 5 1 (some tagsInt)] [] (fun _ _ _ t v => windowArg v % 16 = 0 ∧ windowArg v ≤ t.winbase ∧ windowArg v < 16) :=
  ⟨aloneOne (th mixed) (by decide) (by decide), aloneOne (th mixed) (by decide) (by unfold State.noneGrowing; decide),
    meetsAlone (crowded (th mixed)) (th mixed) ⟨rfl, rfl, rfl⟩ rfl (by decide) (by unfold State.noneGrowing; decide),
    aloneOne (th mixed) (by decide) (by decide), aloneOne (th [(20, (16, .n32))]) (by decide) (by unfold State.noneGrowing; decide),
    aloneOne (th mixed) (by decide) (by decide), aloneOne (th mixed) (by decide) (by decide), aloneOne (th mixed) (by decide) (by decide),
    by decide, aloneOne (th mixed) (by decide) (by decide)⟩

/-- A launch of four groups of one thread, taken and dealt. -/
def lnch : Launch :=
  { stage := .dealt, origin := .queue, queue := 0, packet := 0x10000, ctxid := 0, render := false, debug := false, check := false,
    alloc := 128, nparam := 0, gsize := 1, vector := 3, irq := false, spbase := 0, spsize := 0, handler := 0, slotmask := 0, qmask := 0,
    winmask := 0, vkbase := 0, vksize := 0, meetmask := 0, params := [], leases := [], entry := 0x1004, groups := [], roots := 1,
    nfault := 0, nkill := 0, frec := FaultRec.none, fgroup := 0, stamp := 0, pins := [], order := 0, bellAt := 0, waits := false }

/-- The thread with a frame of its own, or in a debugged launch. -/
def framed (t : Thread) (f : Frame) : State := { one t with frames := [(0, f)] }

theorem witness_ExitAndBreakpoint :
    (let t := { th mixed with loads := [⟨1, [], none, none⟩] }
     Alone (one t) iss 0 t ∧ t.group = none ∧ (one t).busy 0 t = true) ∧
    (Alone (framed (th mixed) { fr with live := 1 }) iss 0 (th mixed) ∧ (framed (th mixed) { fr with live := 1 }).busy 0 (th mixed) = false) ∧
    ((one (th mixed)).busy 0 (th mixed) = false ∧ fr.live = 0 ∧ fr.nfault = 0 ∧ fr.nkill = 0) ∧
    (let f := { fr with nfault := 1, fvalid := true, frec := ⟨0x30, 0, 0, 0, 0, 2 ^ 57 - 1⟩ }
     Alone (framed (th mixed) f) iss 0 (th mixed) ∧ (framed (th mixed) f).busy 0 (th mixed) = false ∧ f.nfault + f.nkill ≠ 0 ∧
       f.fvalid = true ∧ f.frec.addr < 2 ^ 57) ∧
    (let f := { fr with nkill := 1 }
     Alone (framed (th mixed) f) iss 0 (th mixed) ∧ f.nfault + f.nkill ≠ 0 ∧ f.fvalid = false) ∧
    MeetsAlone [] [] (fun _ _ _ t _ => ∃ g, t.group = some g ∧ (g.barred = false ∨ g.foreign = true)) ∧
    (∃ l : Launch, l.debug = true ∧ ({ one (th mixed) with launches := [(7, l)] }).launches.get (th mixed).launch = some l) ∧
    MeetsAlone [] [] (fun s _ _ t _ => ∀ l, s.launches.get t.launch = some l → l.debug = false) := by
  refine ⟨⟨⟨rfl, rfl, rfl⟩, rfl, by decide⟩, ⟨⟨rfl, rfl, rfl⟩, by decide⟩, by decide, ⟨⟨rfl, rfl, rfl⟩, by decide⟩, ⟨⟨rfl, rfl, rfl⟩, by decide⟩,
    aloneOne { th mixed with group := some ⟨1, false, false⟩ } (by decide) ⟨_, rfl, Or.inl rfl⟩, ?_,
    aloneOne (th mixed) (by decide) (fun l h => by cases h)⟩
  exact ⟨{ lnch with debug := true }, rfl, rfl⟩

/-- One operand of each tag set of 08: a register that nothing has written is RAW, and passes every one (03 R71). -/
theorem witness_FloatArithmetic : Rnd.rn ≠ .rdi ∧ Rnd.rd ≠ .rdi ∧
    Meets { srcs := [srcA none 8 1 (some tagsF32), srcB none 9 1 (some tagsF32), srcD none 10 1 (some tagsF32)], dest := 10, regs := 1 } ∧
    Meets { srcs := [srcA none 40 1 (some [halfTag .f16]), srcB none 41 1 (some [halfTag .f16])], dest := 127, regs := 1 } ∧
    Meets { srcs := [srcA none 40 1 (some [halfTag .bf16]), srcB none 41 1 (some [halfTag .bf16]), srcD none 42 1 (some [halfTag .bf16])],
            dest := 42, regs := 1 } :=
  ⟨by decide, by decide, meetsOne (th mixed) (by decide) trivial, meetsOne (th mixed) (by decide) trivial,
    meetsOne (th mixed) (by decide) trivial⟩

theorem witness_FloatCompare :
    Meets { srcs := [srcA none 8 1 (some tagsF32), srcB none 10 1 (some tagsF32)], dest := 8, regs := 1 } ∧
    Meets { srcs := [srcA none 10 1 (some tagsF32)], dest := 0, regs := 1 } ∧
    FloatFmt.fp32.reads false 0x7FC00000 = .nan ∧ FloatFmt.fp32.reads false 0xFF800000 = .inf true ∧
    (FloatFmt.fp32.reads true 1).isZero = true ∧ (FloatFmt.fp32.reads false 1).isZero = false :=
  ⟨meetsOne (th mixed) (by decide) trivial, meetsOne (th mixed) (by decide) trivial, by decide, by decide, by decide, by decide⟩

theorem witness_Transcendentals :
    Meets { srcs := [srcA none 8 1 (some tagsF32)], dest := 8, regs := 1 } ∧
    Meets { srcs := [srcA (some ⟨.mw 1, .own, .own⟩) 127 1 (some tagsF32)], dest := 1, regs := 1 } ∧
    FloatFmt.fp32.reads false 0x7FC00000 = .nan ∧ FloatFmt.fp32.reads false 0x7F800000 = .inf false ∧
    FloatFmt.fp32.reads false 0xFF800000 = .inf true ∧ (FloatFmt.fp32.reads false 0x80000000).isZero = true ∧
    (FloatFmt.fp32.reads false 0xBF800000).finite = true ∧ (FloatFmt.fp32.reads false 0xBF800000).neg = true :=
  ⟨meetsOne (th mixed) (by decide) trivial, meetsOne (th mixed) (by decide) trivial, by decide, by decide, by decide, by decide, by decide,
    by decide⟩

theorem witness_Conversions :
    ((1 : Fin 8).val < narrowCount .f16 ∧
      Meets { srcs := [srcA none 8 1 (some tagsF32), srcD none 40 1 (some [narrowTag .f16])], dest := 40, regs := 1 }) ∧
    ((7 : Fin 8).val < narrowCount .f4 ∧ Meets { srcs := [srcA none 40 1 (some [narrowTag .f4])], dest := 0, regs := 1 }) ∧
    ((intWidth .n32 = 32 → (0 : Fin 8).val = 0) ∧ (IFmt.n32 = .i8 → (0 : Fin 8).val < 4) ∧
      Meets { srcs := [srcA none 8 1 (some tagsF32)], dest := 8, regs := 1 }) ∧
    ((intWidth .i8 = 32 → (3 : Fin 8).val = 0) ∧ (IFmt.i8 = .i8 → (3 : Fin 8).val < 4) ∧
      Meets { srcs := [srcA none 8 1 (some tagsF32), srcD none 41 1 (some [intTag .i8])], dest := 41, regs := 1 }) ∧
    ((intWidth .i4 = 32 → (7 : Fin 8).val = 0) ∧ (IFmt.i4 = .i8 → (7 : Fin 8).val < 4) ∧
      Meets { srcs := [srcA none 41 1 (some [intTag .i4])], dest := 41, regs := 1 }) ∧
    Meets { srcs := [srcA none 8 2 (some tagsF32)], dest := 8, regs := 1 } ∧
    Meets { srcs := [srcA none 40 4 (some tagsF32)], dest := 124, regs := 1 } ∧
    Meets { srcs := [srcA none 40 1 (some [e8Tag .e4])], dest := 124, regs := 4 } ∧
    Meets { srcs := [srcA none 40 4 (some tagsInt)], dest := 40, regs := 1 } ∧
    Meets { srcs := [srcA none 40 1 (some [.s8x4])], dest := 40, regs := 4 } := by
  refine ⟨⟨by decide, meetsOne (th mixed) (by decide) trivial⟩, ⟨by decide, meetsOne (th mixed) (by decide) trivial⟩,
    ⟨by decide, by decide, meetsOne (th mixed) (by decide) trivial⟩, ⟨by decide, by decide, meetsOne (th mixed) (by decide) trivial⟩,
    ⟨by decide, by decide, meetsOne (th mixed) (by decide) trivial⟩, ?_, ?_, ?_, ?_, ?_⟩ <;>
  exact meetsOne (th mixed) (by decide) trivial

theorem witness_CrossLane :
    Meets { srcs := [srcA none 1 1 (some (crossTags .s32))], dest := 1, regs := 1 } ∧
    Meets { srcs := [srcA none 8 1 (some (crossTags .f32))], dest := 0, regs := 1 } ∧
    Meets { srcs := [srcA none 40 1 (some (crossTags .bf16))], dest := 0, regs := 1 } ∧
    Meets { srcs := [srcA (some ⟨.rot 3, .own, .own⟩) 1 1 none], dest := 2, regs := 1, ready := fun _ _ _ t _ => t.lane < 32 } ∧
    Meets { dest := 2, regs := 1, ready := fun _ _ _ t _ => t.lane < 32 } :=
  ⟨meetsOne (th mixed) (by decide) trivial, meetsOne (th mixed) (by decide) trivial, meetsOne (th mixed) (by decide) trivial,
    meetsOne (th mixed) (by decide) (by decide), meetsOne (th mixed) (by decide) (by decide)⟩

/-- Registers for addresses: v4 = 0x3FF80 and v5 = 0x3FFFF, at the end of the scratchpad (09 R204). -/
def ends : Tbl RegVal := [(4, (0x3FF80, .n32)), (5, (0x3FFFF, .n32)), (6, (3, .n32)), (7, (0x7FFFF0, .n32)), (12, (0xFFFFFFFF, .s32))]

theorem witness_LocalAccesses :
    MeetsAlone [ownSrc 4 1 (some tagsAddr)] [(8, 4)] (fun s _ k t v => ∃ p off, spadPlace (off8 (.short 112)) s k t v = some (p, off) ∧
      off % 16 = 0 ∧ off = 0x3FFF0 ∧ ((s.landStores k).wakeFor p).placeBad p off 16 = false) ∧
    MeetsAlone [ownSrc 5 1 (some tagsAddr)] [(127, 1)] (fun s _ k t v => ∃ p off, spadPlace (off6 (.short 0)) s k t v = some (p, off) ∧
      off % 1 = 0 ∧ off = 0x3FFFF ∧ ((s.landStores k).wakeFor p).placeBad p off 1 = false) ∧
    MeetsAlone (ownSrc 0 1 (some tagsAddr) :: selSrcs (.lit 3 7)) [(8, 1)] (fun s _ k t v => ∃ p off, clusterPlace (.lit 3 7) s k t v = some (p, off) ∧
      off % 4 = 0 ∧ p = .spad 3 ∧ off = 112 ∧ ((s.landStores k).wakeFor p).placeBad p off 4 = false) ∧
    MeetsAlone (ownSrc 0 1 (some tagsAddr) :: selSrcs (.reg 6)) [(8, 1)] (fun s _ k t v => ∃ p off, clusterPlace (.reg 6) s k t v = some (p, off) ∧
      off % 4 = 0 ∧ p = .spad 3 ∧ off = 0 ∧ ((s.landStores k).wakeFor p).placeBad p off 4 = false) ∧
    MeetsAlone [ownSrc 7 1 (some tagsAddr)] [(8, 4)] (fun s _ k t v => ∃ p off, vaultPlace (16 * (0 : BitVec 7).toInt) s k t v = some (p, off) ∧
      off % 16 = 0 ∧ off = 0x7FFFF0 ∧ ((s.landStores k).wakeFor p).placeBad p off 16 = false) ∧
    MeetsAlone [ownSrc 4 1 (some tagsAddr), ownSrc 8 2 none] [] (fun s _ k t v => ∃ p off, spadPlace (off8 (.short 120)) s k t v = some (p, off) ∧
      off % 8 = 0) ∧
    MeetsAlone (ownSrc 0 1 (some tagsAddr) :: (selSrcs (.reg 6) ++ [ownSrc 8 1 none])) [] (fun s _ k t v =>
      ∃ p off, clusterPlace (.reg 6) s k t v = some (p, off) ∧ off % 4 = 0) ∧
    MeetsAlone [ownSrc 7 1 (some tagsAddr), ownSrc 8 4 none] [] (fun s _ k t v =>
      ∃ p off, vaultPlace (16 * (-1 : BitVec 7).toInt) s k t v = some (p, off) ∧ off % 16 = 0) :=
  ⟨aloneOne (th ends) (by decide) ⟨.spad 0, 0x3FFF0, by decide, by decide, rfl, by decide⟩,
    aloneOne (th ends) (by decide) ⟨.spad 0, 0x3FFFF, by decide, by decide, rfl, by decide⟩,
    aloneOne (th ends) (by decide) ⟨.spad 3, 112, by decide, by decide, rfl, rfl, by decide⟩,
    aloneOne (th ends) (by decide) ⟨.spad 3, 0, by decide, by decide, rfl, rfl, by decide⟩,
    aloneOne (th ends) (by decide) ⟨.vault 0, 0x7FFFF0, by decide, by decide, rfl, by decide⟩,
    aloneOne (th ends) (by decide) ⟨.spad 0, 0x3FFF8, by decide, by decide⟩,
    aloneOne (th ends) (by decide) ⟨.spad 3, 0, by decide, by decide⟩,
    aloneOne (th ends) (by decide) ⟨.vault 0, 0x7FFFE0, by decide, by decide⟩⟩

/-- Page tables at 0x40000000 with five 1 GiB pages from virtual address 0: NORMAL at physical 0, STREAM at 2 GiB, DEVICE at 3 GiB,
APPEND at 4 GiB and SEALED at 5 GiB (14 R318). -/
def pages : Tbl Byte :=
  [(0x40000000, 0x40001001), (0x40001000, 0x40002001), (0x40002000, 3), (0x40002008, 0x80000007), (0x40002010, 0xC0000013),
    (0x40002018, 0x10000000B), (0x40002020, 0x14000000F)].foldl (fun acc e => writeNat acc e.1 8 e.2) []

/-- The thread in a context with those pages. -/
def paged (t : Thread) : State := { one t with mem := pages, ctxs := [(0, { Ctx.reset with root := 0x40000000 })] }

theorem alone_paged (t : Thread) : Alone (paged t) iss 0 t := ⟨rfl, rfl, rfl⟩

theorem alonePaged {srcs : List Src} {dst : List (Nat × Nat)}
    {when_ : State → Issue → FrameRef → Thread → List (List RegVal) → Prop} (t : Thread)
    (hr : readable (paged t) t srcs dst = true) (hw : when_ (paged t) iss 0 t (vals (paged t) t srcs)) : MeetsAlone srcs dst when_ :=
  meetsAlone (paged t) t (alone_paged t) rfl hr hw

/-- A page's translation of an address within it. -/
def tr_ (va pa attr page : Nat) : Tr := ⟨pa, attr, base.homeDie pa, 0, va / 2 ^ 30 * 2 ^ 30, page, 2 ^ 30⟩

theorem translated {p : State × Except Nat Tr} {x : Except Nat Tr} (h : p.2 = x) : ∃ s1, p = (s1, x) := ⟨p.1, by rw [← h]⟩

/-- Pairs of addresses: v16 NORMAL, v20 STREAM, v22 DEVICE, v24 APPEND, v26 SEALED, v28 unmapped, v30 odd, v18 not canonical. -/
def addrs : Tbl RegVal :=
  [(1, (5, .n32)), (2, (3, .n32)), (16, (0x1024, .w64)), (17, (0, .w64)), (18, (0xFFFFFFFF, .w64)), (19, (0xFFFFFFFF, .w64)),
   (20, (0x40000008, .w64)), (22, (0x80000000, .w64)), (24, (0xC0000000, .w64)), (26, (0, .w64)), (27, (1, .w64)),
   (28, (0, .w64)), (29, (0x100, .w64)), (30, (0x1025, .w64))]

theorem witness_GlobalLoads :
    MeetsAlone [ownSrc 16 2 (some tagsAddr)] [(4, 1)] (fun s _ k t v => ((0x1023 : Nat) : Int) = ((argN v 0 : Int) + off8 (.short 0xFF)) % 2 ^ 64 ∧
      0x1023 < 2 ^ 57 ∧ 0x1023 % 1 = 0 ∧ ∃ tr, (∃ s1, (s.landStores k).translate (t.who k) 0x1023 1 .read = (s1, .ok tr)) ∧
        tr.attr = attrNormal) ∧
    MeetsAlone [ownSrc 20 2 (some tagsAddr)] [(4, 2)] (fun s _ k t v => ((0x40000008 : Nat) : Int) = ((argN v 0 : Int) + off6 (.short 0)) % 2 ^ 64 ∧
      0x40000008 < 2 ^ 57 ∧ 0x40000008 % 8 = 0 ∧ ∃ tr, (∃ s1, (s.landStores k).translate (t.who k) 0x40000008 8 .read = (s1, .ok tr)) ∧
        tr.attr = attrStream) ∧
    MeetsAlone [ownSrc 22 2 (some tagsAddr)] [(4, 4)] (fun s _ k t v => ((0x80000000 : Nat) : Int) = ((argN v 0 : Int) + off8 (.short 0)) % 2 ^ 64 ∧
      0x80000000 < 2 ^ 57 ∧ 0x80000000 % 16 = 0 ∧ ∃ tr, (∃ s1, (s.landStores k).translate (t.who k) 0x80000000 16 .read = (s1, .ok tr)) ∧
        tr.attr = attrDevice ∧ tr.pa < Config.devRegs) ∧
    (let s := (paged (th addrs)).onCore 0 fun c => { c with l1 := [(32, ⟨0xF0, 0xF0, [], 0, false, false, 0⟩)] }
     let tr := tr_ 0x107C 0x107C attrNormal 0
     tr.pa % 128 + 4 ≤ 128 ∧ (∀ i < 4, tr.pa + i ∉ s.poison) ∧ s.observes tr = false ∧
       (∀ l i, (s.core 0).l1.get (tr.pa / 128) = some l → l.dirty.getLsbD i = true → l.holds.getLsbD i = true) ∧
       ((s.core 0).l1.get (tr.pa / 128)).isSome = true) ∧
    (let s := paged (th addrs)
     let tr := tr_ 0x40000008 0x80000008 attrStream 0x80000000
     s.observes tr = false ∧ tr.attr ≠ attrNormal ∧ ∀ l, (s.core 0).l1.get (tr.pa / 128) = some l → l.dirty = 0) :=
  ⟨alonePaged (th addrs) (by decide) ⟨by decide, by decide, by decide, tr_ 0x1023 0x1023 attrNormal 0, translated (by decide), rfl⟩,
    alonePaged (th addrs) (by decide)
      ⟨by decide, by decide, by decide, tr_ 0x40000008 0x80000008 attrStream 0x80000000, translated (by decide), rfl⟩,
    alonePaged (th addrs) (by decide)
      ⟨by decide, by decide, by decide, tr_ 0x80000000 0xC0000000 attrDevice 0xC0000000, translated (by decide), rfl, by decide⟩,
    ⟨by decide, by decide, by decide, fun l i h hd => by cases h; exact hd, by decide⟩, ⟨by decide, by decide, fun l h => by cases h⟩⟩

theorem witness_GlobalStores :
    MeetsAlone [ownSrc 16 2 (some tagsAddr), ownSrc 1 1 none] [] (fun s _ k t v => ((0x1024 : Nat) : Int) = ((argN v 0 : Int) + off8 (.short 0)) % 2 ^ 64 ∧
      0x1024 % 4 = 0 ∧ ∃ tr, (∃ s1, s.translate (t.who k) 0x1024 4 .write = (s1, .ok tr) ∧ ((s1.landStores k).core (coreOf k)).l1.length < 6144) ∧
        tr.attr = attrNormal ∧ tr.pa % 128 + 4 ≤ 128) ∧
    MeetsAlone [ownSrc 20 2 (some tagsAddr), ownSrc 1 1 none] [] (fun s _ k t v => ((0x40000008 : Nat) : Int) = ((argN v 0 : Int) + off8 (.long 0)) % 2 ^ 64 ∧
      0x40000008 % 1 = 0 ∧ ∃ tr, (∃ s1, s.translate (t.who k) 0x40000008 1 .write = (s1, .ok tr)) ∧ tr.attr ≠ attrNormal ∧ tr.attr ≠ attrDevice) :=
  ⟨alonePaged (th addrs) (by decide) ⟨by decide, by decide, tr_ 0x1024 0x1024 attrNormal 0,
      ⟨((paged (th addrs)).translate ((th addrs).who 0) 0x1024 4 .write).1, by decide, by decide⟩, rfl, by decide⟩,
    alonePaged (th addrs) (by decide)
      ⟨by decide, by decide, tr_ 0x40000008 0x80000008 attrStream 0x80000000, translated (by decide), by decide, by decide⟩⟩

theorem witness_AddressChecks :
    MeetsAlone [ownSrc 5 1 (some tagsAddr)] [(4, 1)] (fun s _ _ _ v => s.pkg.wincfg = false ∧ (0x40000 : Int) ≤ argZ v 0 + off8 (.short 1)) ∧
    MeetsAlone [ownSrc 0 1 (some tagsAddr)] [(4, 1)] (fun s _ _ _ v => s.pkg.wincfg = false ∧ argZ v 0 + off6 (.short 0x3F) < 0) ∧
    MeetsAlone [ownSrc 5 1 (some tagsAddr), ownSrc 1 1 none] [] (fun s _ _ _ v => s.pkg.wincfg = false ∧ 0 ≤ argZ v 0 + off8 (.short 0) ∧
      argZ v 0 + off8 (.short 0) < 0x40000 ∧ (argZ v 0 + off8 (.short 0)) % 4 ≠ 0) ∧
    MeetsAlone (ownSrc 12 1 (some tagsAddr) :: selSrcs (.lit 0 0)) [(4, 1)] (fun s _ k t v =>
      (selectCore s k t (selValue (.lit 0 0) v).1).isSome = true ∧ (0x40000 : Int) ≤ argZ v 0 + (selValue (.lit 0 0) v).2) ∧
    MeetsAlone (ownSrc 6 1 (some tagsAddr) :: selSrcs (.lit 0 0)) [(4, 1)] (fun s _ k t v =>
      (selectCore s k t (selValue (.lit 0 0) v).1).isSome = true ∧ (argZ v 0 + (selValue (.lit 0 0) v).2) % 2 ≠ 0) ∧
    MeetsAlone [ownSrc 7 1 (some tagsAddr)] [(4, 1)] (fun _ _ _ _ v => (0x800000 : Int) ≤ argZ v 0 + 16 * (1 : BitVec 7).toInt) ∧
    MeetsAlone [ownSrc 6 1 (some tagsAddr), ownSrc 1 1 none] [] (fun _ _ _ _ v => (argZ v 0 + 16 * (1 : BitVec 7).toInt) % 2 ≠ 0) ∧
    MeetsAlone [ownSrc 18 2 (some tagsAddr)] [(4, 1)] (fun _ _ _ _ v => 2 ^ 57 ≤ globAddr (argN v 0) (off8 (.short 0))) ∧
    MeetsAlone [ownSrc 30 2 (some tagsAddr), ownSrc 1 1 none] [] (fun _ _ _ _ v => globAddr (argN v 0) (off8 (.short 0)) < 2 ^ 57 ∧
      globAddr (argN v 0) (off8 (.short 0)) % 4 ≠ 0) ∧
    MeetsAlone [ownSrc 28 2 (some tagsAddr)] [(4, 1)] (fun s _ k t v => globAddr (argN v 0) (off6 (.short 0)) < 2 ^ 57 ∧
      globAddr (argN v 0) (off6 (.short 0)) % 4 = 0 ∧
      ∃ s1, (s.landStores k).translate (t.who k) (globAddr (argN v 0) (off6 (.short 0))) 4 .read = (s1, .error 0x0214)) ∧
    MeetsAlone [ownSrc 26 2 (some tagsAddr), ownSrc 1 1 none] [] (fun s _ k t v =>
      ∃ s1, s.translate (t.who k) (globAddr (argN v 0) (off8 (.short 0))) 4 .write = (s1, .error 0x0033)) :=
  ⟨aloneOne (th ends) (by decide) (by decide), aloneOne (th ends) (by decide) (by decide), aloneOne (th ends) (by decide) (by decide),
    aloneOne (th ends) (by decide) (by decide), aloneOne (th ends) (by decide) (by decide), aloneOne (th ends) (by decide) (by decide),
    aloneOne (th ends) (by decide) (by decide), alonePaged (th addrs) (by decide) (by decide), alonePaged (th addrs) (by decide) (by decide),
    alonePaged (th addrs) (by decide) ⟨by decide, by decide, translated (by decide)⟩,
    alonePaged (th addrs) (by decide) (translated (by decide))⟩

theorem witness_Atomics :
    MeetsAlone [ownSrc 16 2 (some tagsAddr), ownSrc 1 1 (some tagsInt)] [(4, 1)] (fun s _ k t v => argN v 0 < 2 ^ 57 ∧ argN v 0 % 4 = 0 ∧
      ∃ s1 tr, (s.landStores k).translate (t.who k) (argN v 0) 4 .atomic = (s1, .ok tr) ∧
        (s1.cleanLine (coreOf k) (tr.pa / 128)).bad tr.pa 4 = false ∧
        ∀ i < 4, (s1.cleanLine (coreOf k) (tr.pa / 128)).frameAt (tr.pa + i) = none) ∧
    MeetsAlone [ownSrc 30 2 (some tagsAddr), ownSrc 16 2 (some tagsWide), ownSrc 18 2 (some tagsWide)] [(18, 2)]
      (fun _ _ _ _ v => argN v 0 < 2 ^ 57 ∧ argN v 0 % 8 ≠ 0) ∧
    signExt 0x80000000 32 ≤ signExt 0x7FFFFFFF 32 :=
  ⟨alonePaged (th addrs) (by decide) ⟨by decide, by decide, ((paged (th addrs)).translate ((th addrs).who 0) 0x1024 4 .atomic).1,
      tr_ 0x1024 0x1024 attrNormal 0, by decide, by decide, by decide⟩, alonePaged (th addrs) (by decide) (by decide), by decide⟩

/-- The state after a page's append record is set. -/
def appended (t : Thread) (r : AppendRec) : State := { paged t with appends := [(0x100000000, r)] }

theorem aloneAppended {srcs : List Src} {dst : List (Nat × Nat)}
    {when_ : State → Issue → FrameRef → Thread → List (List RegVal) → Prop} (t : Thread) (r : AppendRec)
    (hr : readable (appended t r) t srcs dst = true) (hw : when_ (appended t r) iss 0 t (vals (appended t r) t srcs)) :
    MeetsAlone srcs dst when_ := meetsAlone (appended t r) t ⟨rfl, rfl, rfl⟩ rfl hr hw

theorem witness_AppendAndSeal :
    MeetsAlone [ownSrc 24 2 (some tagsAddr), ownSrc 1 1 none] [(4, 2)] (fun s _ k t v => argN v 0 < 2 ^ 57 ∧ ∃ s1 tr,
      (s.landStores k).translate (t.who k) (argN v 0) 1 .append = (s1, .ok tr) ∧ (s1.appendRec tr.pagePa).closed = false ∧
        ceilDiv (s1.appendRec tr.pagePa).tail 4 * 4 + 4 ≤ tr.pageSize ∧
        ∀ i < ceilDiv (s1.appendRec tr.pagePa).tail 4 * 4 + 4, s1.frameAt (tr.pagePa + i) = none) ∧
    MeetsAlone [ownSrc 24 2 (some tagsAddr), ownSrc 1 1 none] [(4, 2)] (fun s _ k t v => argN v 0 < 2 ^ 57 ∧ ∃ s1 tr,
      (s.landStores k).translate (t.who k) (argN v 0) 1 .append = (s1, .ok tr) ∧ (s1.appendRec tr.pagePa).closed = false ∧
        tr.pageSize < ceilDiv (s1.appendRec tr.pagePa).tail 4 * 4 + 4) ∧
    MeetsAlone [ownSrc 26 2 (some tagsAddr)] [(4, 1)] (fun s _ k t v => t.trapped = false ∧ argN v 0 < 2 ^ 57 ∧ ∃ s1 tr,
      (s.landStores k).translate (t.who k) (argN v 0) 1 .read = (s1, .ok tr) ∧ tr.attr = attrSealed) ∧
    MeetsAlone [ownSrc 24 2 (some tagsAddr)] [(4, 1)] (fun s _ k t v => t.trapped = false ∧ ∃ s1 tr,
      (s.landStores k).translate (t.who k) (argN v 0) 1 .read = (s1, .ok tr) ∧ tr.attr = attrAppend ∧
        (s1.appendRec tr.pagePa).sealed = false) ∧
    (let s := { appended { th addrs with run := .engine (.seal 0x100000000 4 0) } ⟨8, 8, true, false, 0⟩ with issue := none }
     (s.appendRec 0x100000000).closed = true ∧ (s.appendRec 0x100000000).sealed = false ∧
       (s.appendRec 0x100000000).landed = (s.appendRec 0x100000000).tail ∧ s.threads.keys.Nodup ∧
       ∃ t, s.threads.get 0 = some t ∧ t.run = .engine (.seal 0x100000000 4 0) ∧ t.susp = none) :=
  ⟨aloneAppended (th addrs) ⟨6, 6, false, false, 0⟩ (by decide) ⟨by decide,
      ((appended (th addrs) ⟨6, 6, false, false, 0⟩).translate ((th addrs).who 0) 0xC0000000 1 .append).1,
      tr_ 0xC0000000 0x100000000 attrAppend 0x100000000, by decide, by decide, by decide, by decide⟩,
    aloneAppended (th addrs) ⟨0x3FFFFFFD, 0x3FFFFFFD, false, false, 0⟩ (by decide) ⟨by decide,
      ((appended (th addrs) ⟨0x3FFFFFFD, 0x3FFFFFFD, false, false, 0⟩).translate ((th addrs).who 0) 0xC0000000 1 .append).1,
      tr_ 0xC0000000 0x100000000 attrAppend 0x100000000, by decide, by decide, by decide⟩,
    alonePaged (th addrs) (by decide) ⟨rfl, by decide, ((paged (th addrs)).translate ((th addrs).who 0) 0x100000000 1 .read).1,
      tr_ 0x100000000 0x140000000 attrSealed 0x140000000, by decide, rfl⟩,
    alonePaged (th addrs) (by decide) ⟨rfl, ((paged (th addrs)).translate ((th addrs).who 0) 0xC0000000 1 .read).1,
      tr_ 0xC0000000 0x100000000 attrAppend 0x100000000, by decide, rfl, by decide⟩,
    ⟨by decide, by decide, by decide, by decide, _, rfl, rfl, rfl⟩⟩

/-- The thread on a core that is changed. -/
def atCore (t : Thread) (f : Core → Core) : State := (one t).onCore 0 f

theorem aloneCore {srcs : List Src} {dst : List (Nat × Nat)}
    {when_ : State → Issue → FrameRef → Thread → List (List RegVal) → Prop} (t : Thread) (f : Core → Core)
    (hr : readable (atCore t f) t srcs dst = true) (hw : when_ (atCore t f) iss 0 t (vals (atCore t f) t srcs)) :
    MeetsAlone srcs dst when_ := meetsAlone (atCore t f) t ⟨rfl, rfl, rfl⟩ rfl hr hw

theorem somes {α : Type} {o : Option α} (h : o.isSome = true) : ∃ x, o = some x := Option.isSome_iff_exists.mp h

theorem witness_PrefetchAndResults :
    MeetsAlone [ownSrc 16 2 (some tagsAddr)] [] (fun s _ k _ v => globAddr (argN v 0) (off8 (.short 0)) < 2 ^ 57 ∧
      (s.core (coreOf k)).l1.length < 6144) ∧
    MeetsAlone [ownSrc 18 2 (some tagsAddr)] [] (fun _ _ _ _ v => 2 ^ 57 ≤ globAddr (argN v 0) (off8 (.short 0))) ∧
    (let l : Load := ⟨3, [(4, (1, .raw)), (5, (2, .raw))], some 2, none⟩
     let t := { th mixed with loads := [l], pend := [(4, 3), (5, 3)] }
     (one t).threads.get 0 = some t ∧ t.loads.find? (fun x => x.id == l.id) = some l ∧ t.draining = false ∧ (l.results.map (·.1)).Nodup) ∧
    (∃ p ∈ [Place.spad 0, .vault 0, .home], let x : Store := ⟨0, p, 0x7C, [1, 2, 3, 4], 0⟩
      let s := { one (th mixed) with stores := [x] }
      s.threads.get 0 = some (th mixed) ∧ (th mixed).draining = false ∧ s.stores = [x] ∧ x.thread = 0 ∧
        (∀ i < x.bytes.length, s.frameAt (x.addr + i) = none) ∧ x.addr % 128 + x.bytes.length ≤ 128) :=
  ⟨alonePaged (th addrs) (by decide) (by decide), alonePaged (th addrs) (by decide) (by decide), ⟨rfl, by decide, by decide, by decide⟩,
    .home, by decide, rfl, rfl, rfl, rfl, by decide, by decide⟩

/-- A COPY record of 32 bytes within the scratchpad, counted by meet 2 (09 R224), at offset 0x40, and a meet in byte-count mode. -/
def copyRec : List Byte :=
  leBytes 8 0x100 ++ leBytes 8 0x200 ++ leBytes 4 32 ++ leBytes 4 1 ++ leBytes 8 0 ++ leBytes 4 (1 + 8 * 1 + 2 ^ 6 * 2) ++ leBytes 28 0

def meetOf (mode : MeetMode) (members arrivals : Nat) : Meet := { Meet.fresh mode with members := members, arrivals := arrivals }

def copyCore (c : Core) : Core := { c with spad := writeBytes [] 0x40 copyRec, meets := [(2, meetOf .bytes 0 0)] }

def job : CopyJob :=
  { id := 1, launch := 7, ctxid := 0, src := 0x100, dst := 0x200, len := 32, rows := 1, sstride := 0, dstride := 0, sspace := .s,
    dspace := .s, meet := 2, score := 0, record := 0x40, stamp := 0, started := false, page := none, reserved := 0,
    dests := [⟨0, 0, false, false⟩], base := 0, data := [], failed := false }

/-- v4 = 0x40, v5 = 0x40000, v6 = 0x41. -/
def recs : Tbl RegVal := [(4, (0x40, .n32)), (5, (0x40000, .n32)), (6, (0x41, .n32))]

theorem witness_CopyCaptures :
    MeetsAlone [ownSrc 4 1 (some tagsAddr)] [] (fun s _ k t v =>
      ((s.core (coreOf k)).copies.filter fun j => !j.started).length < 16 ∧ t.trapped = false ∧ (argW v 0).toNat < 0x40000 ∧
      (argW v 0).toNat % 64 = 0 ∧ (s.outgoing k).placeBad (.spad (coreOf k)) (argW v 0).toNat 64 = false ∧
      ∃ j, copyRequest { s.outgoing k with nextId := s.nextId + 1 } k t (argW v 0).toNat
        (readBytes ((s.outgoing k).core (coreOf k)).spad (argW v 0).toNat 64) s.nextId (s.timeOf k) = some j) ∧
    MeetsAlone [ownSrc 4 1 (some tagsAddr)] [] (fun s _ k _ _ => 16 ≤ ((s.core (coreOf k)).copies.filter fun j => !j.started).length) ∧
    MeetsAlone [ownSrc 4 1 (some tagsAddr)] [] (fun s _ k t _ =>
      ((s.core (coreOf k)).copies.filter fun j => !j.started).length < 16 ∧ t.trapped = true) ∧
    MeetsAlone [ownSrc 5 1 (some tagsAddr)] [] (fun s _ k t v =>
      ((s.core (coreOf k)).copies.filter fun j => !j.started).length < 16 ∧ t.trapped = false ∧ 0x40000 ≤ (argW v 0).toNat) ∧
    MeetsAlone [ownSrc 6 1 (some tagsAddr)] [] (fun s _ k t v =>
      ((s.core (coreOf k)).copies.filter fun j => !j.started).length < 16 ∧ t.trapped = false ∧ (argW v 0).toNat < 0x40000 ∧
        (argW v 0).toNat % 64 ≠ 0) :=
  ⟨aloneCore (th recs) copyCore (by decide) ⟨by decide, rfl, by decide, by decide, by decide, somes (by decide)⟩,
    aloneCore (th recs) (fun c => { c with copies := List.replicate 16 job }) (by decide) (by decide),
    aloneCore { th recs with trapped := true } (fun c => { c with copies := List.replicate 16 { job with started := true } }) (by decide) (by decide),
    aloneCore (th recs) (fun c => { c with copies := List.replicate 15 job }) (by decide) (by decide),
    aloneOne (th recs) (by decide) (by decide)⟩

theorem witness_CopyRuns :
    (let s := atCore (th []) fun c => { copyCore c with copies := [{ job with started := true }, { job with id := 2 }] }
     (s.core 0).copies.find? (fun j => !j.started) = some { job with id := 2 } ∧ job.dspace ≠ .append) ∧
    (let d : CopyDest := ⟨0, 16, false, false⟩
     let j := { job with started := true, dests := [d], base := 16 }
     let s := atCore (th []) fun c => { copyCore c with copies := [j] }
     (s.core 0).copies = [j] ∧ j.dests = [d] ∧ d.landed ≤ j.len ∧ j.base = d.landed ∧ j.src + j.len ≤ 0x40000 ∧ j.dst + j.len ≤ 0x40000 ∧
       (∀ i < j.len, s.placeBad (.spad 0) (j.src + i) 1 = false) ∧ s.meet 0 j.meet = some (meetOf .bytes 0 0)) ∧
    (let j := { job with started := true, failed := true }
     let s := atCore (th []) fun c => { copyCore c with copies := [j] }
     (s.core 0).copies = [j] ∧ j.page = none ∧ s.meet 0 j.meet = some (meetOf .bytes 0 0) ∧ s.meetWaiters 0 j.meet = []) :=
  ⟨⟨by decide, by decide⟩, ⟨rfl, rfl, by decide, rfl, by decide, by decide, by decide, by decide⟩, ⟨rfl, rfl, by decide, by decide⟩⟩

/-- Meets 3, count mode with two members, one arrived; 4, the same with both waiting to arrive; 5, byte-count mode, in error. -/
def meetCore (c : Core) : Core :=
  { c with meets := [(3, { meetOf .count 2 1 with phase := 0xFFFF, past := [(0xFFFE, 9)] }), (4, meetOf .reconv 2 0),
                     (5, { meetOf .bytes 0 0 with err := some 0x26 }), (6, meetOf .count 2047 0), (7, meetOf .sign 1 0)] }

def joined : Thread :=
  { th [(4, (0xFFFF, .n32)), (5, (0x1FFFE, .n32)), (6, (0, .n32))] with members := 2 ^ 3 + 2 ^ 4 + 2 ^ 5 + 2 ^ 7 }

theorem witness_Meets :
    MeetsAlone [] [] (fun s _ k _ _ => (∀ x, s.meet (coreOf k) 31 = some x → x.members = 0) ∧ s.meetWaiters (coreOf k) 31 = [] ∧
      s.copyCounts (coreOf k) 31 = false ∧ s.tileInFlight (coreOf k) 31 = false) ∧
    MeetsAlone [] [] (fun s _ k t _ => ∃ x, s.meet (coreOf k) 6 = some x ∧ x.mode ≠ .bytes ∧ testBit t.members 6 = false ∧ x.members < 2048) ∧
    MeetsAlone [] [] (fun s _ k t _ => ∃ x, t.susp = none ∧ s.meet (coreOf k) 5 = some x ∧ (x.mode = .bytes ∨ x.members - 1 = 0) ∧
      testBit t.members 5 = true) ∧
    MeetsAlone [] [] (fun s _ k t _ => ∃ x, t.susp = none ∧ s.meet (coreOf k) 7 = some x ∧ (x.mode = .bytes ∨ x.members - 1 = 0) ∧
      testBit t.members 7 = true) ∧
    MeetsAlone [] [(127, 1)] (fun s _ k _ _ => (s.meet (coreOf k) 3).isSome = true) ∧
    MeetsAlone [ownSrc 4 1 (some tagsInt)] [] (fun s _ k _ _ => ∃ x, s.meet (coreOf k) 5 = some x ∧ x.mode = .bytes) ∧
    MeetsAlone [ownSrc 4 1 (some tagsInt)] [] (fun s _ k t v => t.trapped = false ∧ ∃ x, s.meet (coreOf k) 3 = some x ∧
      x.phase = (argW v 0).toNat % 2 ^ 16 ∧ x.err = none) ∧
    MeetsAlone [ownSrc 5 1 (some tagsInt)] [] (fun s _ k t v => t.trapped = false ∧ ∃ x, s.meet (coreOf k) 3 = some x ∧
      x.phase ≠ (argW v 0).toNat % 2 ^ 16 ∧ x.past.get ((argW v 0).toNat % 2 ^ 16) = some 9) ∧
    MeetsAlone [ownSrc 6 1 (some tagsInt)] [] (fun s _ k t v => t.trapped = false ∧ ∃ x, s.meet (coreOf k) 5 = some x ∧
      x.phase = (argW v 0).toNat % 2 ^ 16 ∧ x.err = some 0x26) :=
  ⟨aloneCore joined meetCore (by decide) ⟨fun x h => (by cases h), by decide, by decide, by decide⟩,
    aloneCore joined meetCore (by decide) ⟨_, rfl, by decide, by decide, by decide⟩,
    aloneCore joined meetCore (by decide) ⟨_, rfl, rfl, by decide, by decide⟩,
    aloneCore joined meetCore (by decide) ⟨_, rfl, rfl, by decide, by decide⟩, aloneCore joined meetCore (by decide) (by decide),
    aloneCore joined meetCore (by decide) ⟨_, rfl, rfl⟩, aloneCore joined meetCore (by decide) ⟨rfl, _, rfl, by decide, rfl⟩,
    aloneCore joined meetCore (by decide) ⟨rfl, _, rfl, by decide, by decide⟩, aloneCore joined meetCore (by decide) ⟨rfl, _, rfl, by decide, rfl⟩⟩

/-- The meet 3 completes with this arrival, and the meet 4 does not. -/
theorem witness_Arrivals :
    ∀ m ∈ [3, 4], MeetsAlone [] [(4, 1)] (fun s _ k t _ => s.threads.keys.Nodup ∧ t.susp = none ∧ t.run = .ready ∧ t.trapped = false ∧
      ∃ x, s.meet (coreOf k) m = some x ∧ (x.mode = .count ∨ x.mode = .reconv) ∧ testBit t.members m = true ∧
        testBit t.arrived m = false ∧ (x.arrivals + 1 = x.members ↔ m = 3)) := by
  intro m hm
  simp only [List.mem_cons, List.not_mem_nil, or_false] at hm
  obtain rfl | rfl := hm <;>
    exact aloneCore joined meetCore (by decide) ⟨by decide, rfl, rfl, rfl, _, rfl, by decide, by decide, by decide, by decide⟩

/-- A member of group 1, on cluster 0, and the group's barrier. -/
def grouped : Thread := { th [] with group := some ⟨1, false, false⟩ }
def barrier (arrivals : Nat) : Barrier := ⟨[0], [0], [2], [arrivals], [], 0, 7⟩

theorem witness_ClusterBarriers :
    MeetsAlone [] [] (fun _ _ _ t _ => t.trapped = false ∧ t.group = none) ∧
    (∀ n ∈ [0, 1], let s := { one grouped with groups := [(1, barrier n)] }
      Alone s iss 0 grouped ∧ s.groups.get 1 = some (barrier n) ∧ (barrier n).clusters = [clusterOf (coreOf 0)] ∧
        (barrier n).done = [] ∧ (barrier n).arrivals.length = 1 ∧ s.threads.keys.Nodup ∧
        ((barrier n).arrivals.getD 0 0 + 1 = (barrier n).live.getD 0 0 ↔ n = 1)) ∧
    (let b : Barrier := ⟨[2, 9], [8, 36], [1, 1], [1, 1], [2, 9], 0, 7⟩
     let s := { one { grouped with run := .cbar } with groups := [(1, b)] }
     s.groups.get 1 = some b ∧ b.clusters.length = 2 ∧ (∀ c ∈ b.clusters, c ∈ b.done) ∧ s.threads.keys.Nodup) := by
  refine ⟨aloneOne (th []) (by decide) (by decide), ?_, ⟨rfl, rfl, by decide, by decide⟩⟩
  intro n hn
  simp only [List.mem_cons, List.not_mem_nil, or_false] at hn
  obtain rfl | rfl := hn <;> exact ⟨⟨rfl, rfl, rfl⟩, rfl, by decide, rfl, rfl, by decide, by decide⟩

/-- v16 = 0x1024, an entry; v18 = 0x1028, none; v20 = 2^57 + 4. -/
def entries : Tbl RegVal :=
  [(16, (0x1024, .w64)), (17, (0, .w64)), (18, (0x1028, .w64)), (20, (4, .w64)), (21, (0x2000000, .w64)), (24, (0, .n32)), (25, (9, .n32))]

def child : Child :=
  { args := [], alloc := 16, check := false, range := none, parent := 0, ordinal := 0, stamp := 0, launch := 7, lgroup := 0,
    ctxid := 0, handler := 0, grid := 0 }

def binOf (entry n : Nat) : Bin := ⟨entry, 0, true, List.replicate n child, 0x200, 0, 0, false⟩

theorem witness_SpawnChildren :
    MeetsAlone [ownSrc 16 2 (some tagsAddr), ownSrc 24 8 none] [] (fun s _ k t v => t.trapped = false ∧ argN v 0 % 32 = 4 ∧
      argN v 0 < 2 ^ 57 ∧ (∃ f, s.frames.get k = some f ∧ f.live < 0xFFFFFF) ∧
      (s.core (coreOf k)).openBin (argN v 0) t.ctxid = none ∧ (s.core (coreOf k)).freeBin = some 1) ∧
    (∀ n ∈ [30, 31], MeetsAlone [ownSrc 16 2 (some tagsAddr), ownSrc 24 2 (some tagsInt), ⟨26, 6, .own, none⟩] [] (fun s _ k t v =>
      t.trapped = false ∧ argN v 0 % 32 = 4 ∧ (s.core (coreOf k)).openBin (argN v 0) t.ctxid = some 0 ∧
        ∃ b, (s.core (coreOf k)).bins.get 0 = some b ∧ (b.children.length = 31 ↔ n = 31))) ∧
    MeetsAlone [ownSrc 16 2 (some tagsAddr), ownSrc 24 8 none] [] (fun s _ k t v =>
      (s.core (coreOf k)).openBin (argN v 0) t.ctxid = none ∧ (s.core (coreOf k)).freeBin = none) ∧
    MeetsAlone [ownSrc 16 2 (some tagsAddr), ownSrc 24 8 none] [] (fun _ _ _ t _ => t.trapped = true) ∧
    MeetsAlone [ownSrc 18 2 (some tagsAddr), ownSrc 24 8 none] [] (fun _ _ _ t v => t.trapped = false ∧ argN v 0 % 32 ≠ 4) ∧
    MeetsAlone [ownSrc 20 2 (some tagsAddr), ownSrc 24 8 none] [] (fun _ _ _ t v => t.trapped = false ∧ argN v 0 % 32 = 4 ∧
      2 ^ 57 ≤ argN v 0) := by
  refine ⟨aloneCore (th entries) (fun c => { c with bins := [(0, binOf 0x2004 1)] }) (by decide)
      ⟨rfl, by decide, by decide, ⟨_, rfl, by decide⟩, by decide, by decide⟩, ?_,
    aloneCore (th entries) (fun c => { c with bins := (List.range 16).map fun i => (i, binOf 0x2004 1) }) (by decide) (by decide),
    aloneOne { th entries with trapped := true } (by decide) rfl, aloneOne (th entries) (by decide) (by decide),
    aloneOne (th entries) (by decide) (by decide)⟩
  intro n hn
  simp only [List.mem_cons, List.not_mem_nil, or_false] at hn
  obtain rfl | rfl := hn
  · exact aloneCore (th entries) (fun c => { c with bins := [(0, binOf 0x1024 30)] }) (by decide) ⟨rfl, by decide, by decide, _, rfl, by decide⟩
  · exact aloneCore (th entries) (fun c => { c with bins := [(0, binOf 0x1024 31)] }) (by decide) ⟨rfl, by decide, by decide, _, rfl, by decide⟩

def slotOf (cur : Nat) : RangeSlot := ⟨cur, 8, 0, 0x1024, [], 16, 0⟩

theorem witness_RangesAndFrames :
    (∀ n ∈ [7, 8], MeetsAlone [] [(4, 2)] (fun s _ k t _ => t.slot = some 5 ∧ ∃ r, (s.core (coreOf k)).slots.get 5 = some r ∧
      (r.cur < r.hi ↔ n = 7))) ∧
    MeetsAlone [] [(4, 4)] (fun s _ k t _ => t.trapped = false ∧ t.susp = none ∧ ∃ f, s.frames.get k = some f ∧ f.live = 0) ∧
    (let s := framed (th []) { fr with live := 0xFFFFFF }
     Alone s iss 0 (th []) ∧ s.frames.get 0 = some { fr with live := 0xFFFFFF } ∧ (th []).susp = none) ∧
    Meets { dest := 126, regs := 2 } ∧ MeetsAlone [] [(4, 2)] (fun _ _ _ t _ => t.slot = none) := by
  refine ⟨?_, aloneOne (th []) (by decide) ⟨rfl, rfl, _, rfl, rfl⟩, ⟨⟨rfl, rfl, rfl⟩, rfl, rfl⟩, meetsOne (th []) (by decide) trivial,
    aloneOne (th []) (by decide) rfl⟩
  intro n hn
  simp only [List.mem_cons, List.not_mem_nil, or_false] at hn
  obtain rfl | rfl := hn
  · exact aloneCore { th [] with slot := some 5 } (fun c => { c with slots := [(5, slotOf 7)] }) (by decide) ⟨rfl, _, rfl, by decide⟩
  · exact aloneCore { th [] with slot := some 5 } (fun c => { c with slots := [(5, slotOf 8)] }) (by decide) ⟨rfl, _, rfl, by decide⟩

theorem okOf {ε α : Type} (p : State × Except ε α) (h : p.2.isOk = true) : ∃ x, p = (p.1, .ok x) := by
  obtain ⟨s, r⟩ := p
  cases r with
  | error e => cases h
  | ok x => exact ⟨x, rfl⟩

/-- A full table of futures: 2^24 entries, none freed (01 R45). -/
def taken (a n : Nat) : Tbl Future := (List.range' a n).map fun i => (i, ⟨1, some none, [], 0⟩)

theorem taken_get : ∀ n a i, a ≤ i → i < a + n → Tbl.get (taken a n) i = some ⟨1, some none, [], 0⟩
  | 0, a, i, h1, h2 => absurd h2 (by omega)
  | n + 1, a, i, h1, h2 => by
    simp only [taken, List.range'_succ, List.map_cons, Tbl.get]
    split
    · rfl
    · exact taken_get n (a + 1) i (by omega) (by omega)

theorem taken_rising (a n : Nat) : Tbl.rising (taken a n) = true := by
  rw [Tbl.rising_iff]
  simp only [taken, Tbl.keys, List.map_map]
  simpa [Function.comp_def] using List.pairwise_lt_range' (s := a) (n := n)

def allTaken : Tbl Future := taken 0 (2 ^ 24)

theorem allTaken_get (j : Nat) (h : j < 2 ^ 24) : Tbl.get allTaken j = some ⟨1, some none, [], 0⟩ :=
  taken_get (2 ^ 24) 0 j (Nat.zero_le j) (by omega)

/-- Entry 0 set, entry 1 empty with a waiter, entry 2 freed after 255 generations. -/
def futures : Tbl Future := [(0, ⟨1, some (some 5), [], 0⟩), (1, ⟨0xFF, some none, [1], 0⟩), (2, ⟨0xFF, none, [], 0⟩)]

/-- v1 = 0x01000000, entry 0; v2 = 0xFF000001, entry 1; v3 = 0xFF000002 and v4 = 0, stale. -/
def handles : Tbl RegVal := [(1, (0x1000000, .n32)), (2, (0xFF000001, .n32)), (3, (0xFF000002, .n32)), (4, (0, .n32))]

def future (t : Thread) : State := { one t with futures := futures, threads := [(0, t), (1, { th [] with cx := 1, run := .future 0xFF000001 4 })] }

theorem aloneFuture {srcs : List Src} {dst : List (Nat × Nat)}
    {when_ : State → Issue → FrameRef → Thread → List (List RegVal) → Prop} (t : Thread)
    (hr : readable (future t) t srcs dst = true) (hw : when_ (future t) iss 0 t (vals (future t) t srcs)) :
    MeetsAlone srcs dst when_ := meetsAlone (future t) t ⟨rfl, rfl, rfl⟩ rfl hr hw

theorem witness_Futures :
    MeetsAlone [] [(6, 2)] (fun s _ _ t _ => Tbl.rising s.futures = true ∧ t.trapped = false ∧ (s.future 2).state = none ∧
      ∀ j < 2, (s.future j).state ≠ none) ∧
    (let s := { one (th []) with futures := allTaken }
     Alone s iss 0 (th []) ∧ Tbl.rising s.futures = true ∧ ∀ j < 2 ^ 24, (s.future j).state ≠ none) ∧
    (∀ a ∈ [3, 4], MeetsAlone [ownSrc a 1 (some tagsInt), ownSrc 6 2 none] [(5, 1)] (fun s _ k t v => t.run = .ready ∧
      s.storing k = false ∧ (s.core (coreOf k)).l1 = [] ∧ Stale s (argW v 0).toNat)) ∧
    MeetsAlone [ownSrc 1 1 (some tagsInt), ownSrc 6 2 none] [(5, 1)] (fun s _ _ _ v => ∃ f x, Names s (argW v 0).toNat 0 f (some x)) ∧
    MeetsAlone [ownSrc 2 1 (some tagsInt), ownSrc 6 2 none] [(5, 1)] (fun s _ k _ v => ∃ f, Names s (argW v 0).toNat 1 f none ∧
      f.waiters = [1] ∧ f.waiters.Nodup ∧ k ∉ f.waiters ∧ s.noneSuspended f.waiters) ∧
    MeetsAlone [ownSrc 2 1 (some tagsInt)] [(8, 4)] (fun s _ _ _ v => ∃ f, Names s (argW v 0).toNat 1 f none) ∧
    MeetsAlone [ownSrc 1 1 (some tagsInt)] [(8, 4)] (fun s _ _ t v => t.trapped = false ∧ ∃ f x, Names s (argW v 0).toNat 0 f (some x)) ∧
    MeetsAlone [ownSrc 3 1 (some tagsInt)] [(8, 4)] (fun s _ _ _ v => Stale s (argW v 0).toNat) := by
  refine ⟨aloneFuture (th handles) (by decide) (by decide), ⟨⟨rfl, rfl, rfl⟩, taken_rising _ _, ?_⟩, ?_,
    aloneFuture (th handles) (by decide) ⟨_, 5, rfl, rfl, by decide, by decide, rfl⟩,
    aloneFuture (th handles) (by decide) ⟨_, ⟨rfl, rfl, by decide, by decide, rfl⟩, by decide, by decide, by decide, ?_⟩,
    aloneFuture (th handles) (by decide) ⟨_, rfl, rfl, by decide, by decide, rfl⟩,
    aloneFuture (th handles) (by decide) ⟨rfl, _, 5, rfl, rfl, by decide, by decide, rfl⟩,
    aloneFuture (th handles) (by decide) (by unfold Stale; decide)⟩
  · intro j h e
    simp only [State.future, Tbl.getD, allTaken_get j h, Option.getD] at e
    cases e
  · intro a ha
    simp only [List.mem_cons, List.not_mem_nil, or_false] at ha
    obtain rfl | rfl := ha <;>
      exact aloneFuture (th handles) (by decide) ⟨rfl, by decide, by decide, by unfold Stale; decide⟩
  · intro j hj w hw
    have e : j = 1 := List.mem_singleton.mp hj
    subst e
    cases hw
    rfl

/-- An entry of a group queue, for the thread or for the meet 7. -/
def entry (op : EngOp) (w : Option FrameRef) : EngEntry :=
  { op := op, gcore := 0, far := none, meet := 7, waiter := w, step := 0, begun := false, stamp := 0, launch := 7 }

def inQueue (t : Thread) (q : Nat) (l : List EngEntry) : State := (atCore t meetCore).onCluster 0 fun c => { c with queues := [(q, l)] }

theorem waiterReady {op : EngOp} : ∀ k t, (entry op (some 0)).waiter = some k →
    (inQueue { th [] with run := .engine .command } 15 [entry op (some 0)]).threads.get k = some t → t.susp = none := by
  intro k t hk ht
  cases hk
  cases ht
  rfl

/-- v4 = 0x30000 and v5 = 512 for a store of 128 rows of 128 FP32 elements up to the end of the scratchpad, queue 15: v6. -/
def stores : Tbl RegVal :=
  [(4, (0x30000, .n32)), (5, (512, .n32)), (6, (BitVec.ofNat 32 (64 * 15 + 2 ^ 10 * 10 + 2 ^ 14 * 127 + 2 ^ 21 * 127), .n32)), (7, (0x3FE00, .n32)),
   (8, (0x7FF, .n32))]

theorem witness_MatrixCommands :
    MeetsAlone [] [] (fun s _ k t _ => t.trapped = false ∧ s.queueRoom (clusterOf (coreOf k)) 15 = true) ∧
    (let s := inQueue (th []) 15 (List.replicate 4 (entry (.zero 0 .f32) none))
     Alone s iss 0 (th []) ∧ s.queueRoom 0 15 = false) ∧
    MeetsAlone [ownSrc 4 1 (some tagsAddr), ownSrc 6 1 (some tagsInt), ownSrc 5 1 (some tagsInt)] [] (fun _ _ _ _ v =>
      let c := (argW v 1).toNat
      let row := ceilDiv ((c / 2 ^ 21 % 128 + 1) * engWidth (c / 2 ^ 10 % 16)) 8
      c < 2 ^ 28 ∧ c / 2 ^ 10 % 16 = 10 ∧ (argW v 0).toNat % 16 = 0 ∧ (argW v 2).toNat % 16 = 0 ∧ row ≤ (argW v 2).toNat ∧
        (argW v 0).toNat + c / 2 ^ 14 % 128 * (argW v 2).toNat + row = 0x40000) ∧
    MeetsAlone [ownSrc 7 1 (some tagsAddr), ownSrc 8 1 (some tagsInt)] [] (fun _ _ _ _ v =>
      (argW v 1).toNat < 2 ^ 11 ∧ (argW v 0).toNat % 16 = 0 ∧ (argW v 0).toNat + 512 = 0x40000) ∧
    (∀ op ∈ [EngOp.zero 63 .s32, .store 0 0x30000 (2 ^ 10 * 10) 16 .rdi false, .scale 0 0 true],
      let s := inQueue { th [] with run := .engine .command } 15 [entry op (some 0)]
      (s.cluster 0).nextTurn = some (15, entry op (some 0)) ∧ s.placeBad (.spad 0) 0 512 = false ∧ (s.cluster 0).slot 0 = AccSlot.reset) ∧
    ceilDiv (1 * engWidth 10) 8 ≤ 16 ∧ AccSlot.reset.mode = .f32 ∧
    (let s := { (inQueue { th [] with run := .engine .command } 15 [entry (.scale 1 0 true) (some 0)]).onCluster 0 fun c =>
                { c with slots := [(1, { AccSlot.reset with mode := .s32 })] } with issue := none }
     (s.cluster 0).nextTurn = some (15, entry (.scale 1 0 true) (some 0)) ∧ ((s.cluster 0).slot 1).mode = .s32 ∧ s.issue = none ∧
       (s.frames.get 0).isSome = true) := by
  refine ⟨aloneOne (th stores) (by decide) (by decide), ⟨⟨rfl, rfl, rfl⟩, by decide⟩, aloneOne (th stores) (by decide) (by decide),
    aloneOne (th stores) (by decide) (by decide), ?_, by decide, rfl, by decide⟩
  intro op h
  simp only [List.mem_cons, List.not_mem_nil, or_false] at h
  obtain rfl | rfl | rfl := h <;> exact ⟨by decide, by decide, by decide⟩

/-- A descriptor of one row and one column of FP16 elements, of k positions: A at 0 and B at 0x1000, rows 272 bytes apart. -/
def tileRec (k : Nat) : List Byte :=
  leBytes 4 0 ++ leBytes 4 (2 ^ 16 * (k - 1)) ++ leBytes 4 0 ++ leBytes 4 0 ++ leBytes 4 272 ++ leBytes 4 0x1000 ++ leBytes 4 272 ++ leBytes 36 0

/-- A core with the descriptor at 0x40 and the meet 7 in sign mode. -/
def signCore (k members : Nat) (c : Core) : Core := { c with spad := writeBytes [] 0x40 (tileRec k), meets := [(7, meetOf .sign members 0)] }

def signer : Thread := { th recs with members := 2 ^ 7 }

set_option maxRecDepth 4000 in
theorem witness_TileOperations :
    (∀ n ∈ [1, 2], MeetsAlone [ownSrc 4 1 (some tagsAddr)] [(8, 1)] (fun s _ k t v => t.trapped = false ∧ (argW v 0).toNat < 0x40000 ∧
      (argW v 0).toNat % 64 = 0 ∧ (∃ x, s.meet (coreOf k) 7 = some x ∧ x.mode = .sign ∧ x.err = none ∧ x.entered = false ∧ x.desc = [] ∧
        (x.arrivals + 1 = x.members ↔ n = 1)) ∧ testBit t.members 7 = true ∧ testBit t.arrived 7 = false ∧
      (s.outgoing k).placeBad (.spad (coreOf k)) (argW v 0).toNat 64 = false ∧
      tileInvalid (s.outgoing k) k t (readBytes ((s.outgoing k).core (coreOf k)).spad (argW v 0).toNat 64) = false ∧
      (s.outgoing k).queueRoom 0 0 = true)) ∧
    (let s := ((one signer).onCluster 0 fun c => { c with queues := [(0, List.replicate 4 (entry (.zero 0 .f32) none))] }).onCore 0 (signCore 1 1)
     Alone s iss 0 signer ∧ (s.outgoing 0).queueRoom 0 (tileDesc (tileRec 1)).queue = false) ∧
    (let s := atCore (th []) fun c => { c with meets := [(7, { meetOf .sign 1 1 with desc := tileRec 1 })] }
     ∃ x, s.meet 0 7 = some x ∧ x.mode = .sign ∧ x.entered = false ∧ x.desc ≠ [] ∧ x.err = none ∧ 0 < x.members ∧
       x.arrivals = x.members ∧ s.queueRoom 0 (tileDesc x.desc).queue = true) ∧
    (∀ k ∈ [1, 129], let s := inQueue (th []) 0 [entry (.tile (tileRec k)) none]
      let d := tileDesc (tileRec k)
      (s.cluster 0).nextTurn = some (0, entry (.tile (tileRec k)) none) ∧ d.iacc = (((s.cluster 0).slot d.slot).mode == .s32) ∧
        (∃ rest, d.live = 0 :: rest ∧ (rest = [] ↔ k = 1)) ∧ s.tileBad 0 none d 0 = none ∧ s.meetWaiters 0 7 = [] ∧ s.threads.keys.Nodup) ∧
    (let s := (inQueue (th []) 0 [entry (.tile (tileRec 1)) none]).onCluster 0 fun c =>
       { c with slots := [(0, { AccSlot.reset with mode := .s32 })] }
     (s.cluster 0).nextTurn = some (0, entry (.tile (tileRec 1)) none) ∧
       (tileDesc (tileRec 1)).iacc ≠ (((s.cluster 0).slot (tileDesc (tileRec 1)).slot).mode == .s32) ∧
       s.meet 0 7 = some (meetOf .sign 1 0) ∧ s.meetWaiters 0 7 = []) := by
  refine ⟨?_, ⟨⟨rfl, rfl, rfl⟩, by decide⟩, ⟨_, rfl, rfl, rfl, by decide, rfl, by decide, rfl, by decide⟩, ?_, ⟨by decide, by decide, by decide, by decide⟩⟩
  · intro n h
    simp only [List.mem_cons, List.not_mem_nil, or_false] at h
    obtain rfl | rfl := h
    · exact aloneCore signer (signCore 1 1) (by decide)
        ⟨rfl, by decide, by decide, ⟨_, rfl, rfl, rfl, rfl, rfl, by decide⟩, by decide, by decide, by decide, by decide, by decide⟩
    · exact aloneCore signer (signCore 1 2) (by decide)
        ⟨rfl, by decide, by decide, ⟨_, rfl, rfl, rfl, rfl, rfl, by decide⟩, by decide, by decide, by decide, by decide, by decide⟩
  · intro k h
    simp only [List.mem_cons, List.not_mem_nil, or_false] at h
    obtain rfl | rfl := h
    · exact ⟨by decide, by decide, ⟨[], by decide, by decide⟩, by decide, by decide, by decide⟩
    · exact ⟨by decide, by decide, ⟨[1], by decide, by decide⟩, by decide, by decide, by decide⟩

theorem okIs {ε α : Type} {p : State × Except ε α} {x : α} (h : p.2 = .ok x) : p = (p.1, .ok x) := by
  obtain ⟨s, r⟩ := p
  cases h
  rfl

/-- v16 = 0x1000, a stream, and v18 = 0x2000, its scales; v20 = 47, the block. -/
def grains : Tbl RegVal := [(16, (0x1000, .w64)), (18, (0x2000, .w64)), (20, (47, .n32))]

set_option maxRecDepth 10000 in
theorem witness_GrainWindows :
    MeetsAlone [ownSrc 16 4 (some tagsAddr), ownSrc 20 1 (some tagsInt)] [] (fun s _ k t v =>
      (argN v 0 % 2 ^ 64 + 32 * (argW v 1).toNat) % 2 ^ 64 = 0x15E0 ∧ (argN v 0 / 2 ^ 64 + 10 * (argW v 1).toNat / 8) % 2 ^ 64 = 0x203A ∧
      t.gwins = [] ∧ t.trapped = false ∧ ∃ s1 s2 stream sc, s.globBytes k t 0x15E0 32 = (s1, .ok stream) ∧
        s1.globBytes k t 0x203A 2 = (s2, .ok sc)) ∧
    (let t := { th [] with gwins := [⟨1, 7, .g15, [], 0⟩, ⟨2, 7, .g1, [], 0⟩] }
     (one t).threads.get 0 = some t ∧ t.draining = false ∧ (⟨2, 7, .g1, [], 0⟩ : GwinReq) ∈ t.gwins ∧ (t.gwins.map GwinReq.id).Nodup) ∧
    (∃ s t, Alone s iss 0 t ∧ readable s t [ownSrc 20 1 (some tagsInt)] [(4, 1)] = true ∧ (∀ q ∈ t.gwins, q.w ≠ 7) ∧
      s.core 0 = { Core.reset with wins := [(7, ⟨List.replicate 48 0xFF, 0x3FF, .g15⟩)] } ∧ t.part = 0) ∧
    MeetsAlone [ownSrc 20 1 (some tagsInt)] [(4, 1)] (fun s _ k t _ => (∀ q ∈ t.gwins, q.w ≠ 7) ∧
      (s.core (coreOf k)).wins.get (8 * t.part + 7) = none) :=
  ⟨alonePaged (th grains) (by decide) ⟨by decide, by decide, rfl, rfl,
      let ⟨x, hx⟩ := okOf ((paged (th grains)).globBytes 0 (th grains) 0x15E0 32) (by decide)
      let ⟨y, hy⟩ := okOf (((paged (th grains)).globBytes 0 (th grains) 0x15E0 32).1.globBytes 0 (th grains) 0x203A 2) (by decide)
      ⟨_, _, x, y, hx, hy⟩⟩,
    ⟨rfl, rfl, by decide, by decide⟩,
    ⟨atCore (th grains) fun c => { c with wins := [(7, ⟨List.replicate 48 0xFF, 0x3FF, .g15⟩)] }, th grains, ⟨rfl, rfl, rfl⟩, by decide,
      by decide, by decide, rfl⟩,
    aloneOne (th grains) (by decide) (by decide)⟩

/-- A CARVE record of four blocks from 0x8000 to 0xC000 with scales at 0xE000, counted by meet 2 (10 R262). -/
def carveRec : List Byte := leBytes 8 0x8000 ++ leBytes 8 0xC000 ++ leBytes 8 0xE000 ++ leBytes 4 0 ++ leBytes 4 4 ++ leBytes 4 (2 * 2) ++ leBytes 28 0

def carving : CarveJob :=
  { id := 1, gcore := 0, launch := 7, ctxid := 0, wsrc := 0x8000, dstream := 0xC000, dscale := 0xE000, bfirst := 0, count := 4,
    mode := .g1, meet := 2, next := 0, scales := [], stamp := 0 }

def carveWho : Who := ⟨0, 0, 7, false⟩

theorem word_zero (i : Nat) (h : i < 256) : (((List.replicate 1024 (0 : Byte)).drop (4 * i)).take 4) = List.replicate 4 0 := by
  rw [List.drop_replicate, List.take_replicate]
  congr 1
  omega

set_option maxRecDepth 10000 in
theorem witness_CarverBlocks :
    MeetsAlone [ownSrc 4 1 (some tagsAddr)] [] (fun s _ k t v => s.fuses.carver = true ∧ s.carver.length < 64 ∧ t.trapped = false ∧
      (argW v 0).toNat < 0x40000 ∧ (argW v 0).toNat % 64 = 0 ∧
      let b := { s.outgoing k with nextId := s.nextId + 1 }
      b.placeBad (.spad (coreOf k)) (argW v 0).toNat 64 = false ∧
      ∃ j, carveRequest b k t (readBytes (b.core (coreOf k)).spad (argW v 0).toNat 64) s.nextId (b.timeOf k) = some j) ∧
    (let s := { one (th recs) with carver := List.replicate 64 carving }
     Alone s iss 0 (th recs) ∧ s.fuses.carver = true ∧ 64 ≤ s.carver.length) ∧
    (let s := { paged (th []) with carver := [carving] }
     ∃ s1 bs s2 tr, s.engineRead carveWho 0x8000 1024 = (s1, .ok bs) ∧
      (∀ i < 256, (f32 (BitVec.ofNat 32 (leNat ((bs.drop (4 * i)).take 4)))).finite = true) ∧ carving.next % 4 ≠ 3 ∧
      s1.engineWrite carveWho 0xC000 (leBytes 32 0) = (s2, .ok tr) ∧ s2.countsBytes 0 2 = false) ∧
    (let s := { paged (th []) with carver := [carving], mem := writeNat pages 0x8000 4 0x7F800000, cores := [(0, copyCore Core.reset)] }
     ∃ s1 bs, s.engineRead carveWho 0x8000 1024 = (s1, .ok bs) ∧
      (∃ i < 256, (f32 (BitVec.ofNat 32 (leNat ((bs.drop (4 * i)).take 4)))).finite = false) ∧ s1.meet 0 2 = some (meetOf .bytes 0 0) ∧
      s1.meetWaiters 0 2 = []) ∧
    (f32 0x3F800000).finite = true := by
  refine ⟨aloneCore (th recs) (fun c => { copyCore c with spad := writeBytes [] 0x40 carveRec }) (by decide)
      ⟨rfl, by decide, rfl, by decide, by decide, by decide, somes (by decide)⟩,
    ⟨⟨rfl, rfl, rfl⟩, rfl, by decide⟩,
    ⟨_, List.replicate 1024 0, _, (), okIs (by decide), ?_, by decide, okIs (by decide), by decide⟩,
    ⟨_, leBytes 4 0x7F800000 ++ List.replicate 1020 0, okIs (by decide), ⟨0, by decide, by decide⟩, by decide, by decide⟩, by decide⟩
  intro i hi
  rw [word_zero i hi]
  decide

/-- A render launch of 64 x 48 pixels in buckets of 16 x 16, with some buckets listed. -/
def view (w h : Nat) (bs : Tbl Bucket) : Render :=
  { width := w, height := h, bsize := 0, buckets := bs, patches := [], nextPatch := 0, carried := [], nextCarried := 0 }

def bucketOf (st : BucketState) (owner pending : Nat) : Bucket := ⟨st, owner, [], pending, none, []⟩

def opened (list : List PatchEntry) : OpenBucket :=
  { launch := 7, bucket := 0, list := list, asOpened := list, asCarried := [], carried := [], grids := [], nextSeq := 1, usedBlocks := [],
    dropped := 0, retried := false, failing := false, killed := false, lost := false, lgroup := 0, ctxid := 0, stamp := 0, endStamp := 0,
    sent := [] }

def patch : PatchEntry := ⟨0x100000000, 0, 0x3F800000, 0, 0x3F800000, 0, 0, 0⟩

/-- The thread in a render launch, on a cluster that is changed. -/
def rendering (t : Thread) (r : Render) (f : Cluster → Cluster) : State := (State.onCluster { paged t with renders := [(7, r)] } 0 f)

theorem aloneRender {srcs : List Src} {dst : List (Nat × Nat)}
    {when_ : State → Issue → FrameRef → Thread → List (List RegVal) → Prop} (t : Thread) (r : Render) (f : Cluster → Cluster)
    (hr : readable (rendering t r f) t srcs dst = true) (hw : when_ (rendering t r f) iss 0 t (vals (rendering t r f) t srcs)) :
    MeetsAlone srcs dst when_ := meetsAlone (rendering t r f) t ⟨rfl, rfl, rfl⟩ rfl hr hw

set_option maxRecDepth 10000 in
/-- A bound that ends at x = -1 touches no pixel; one of 0 touches the first. -/
theorem witness_BucketInstructions :
    (∀ x ∈ [(0xBF800000 : Word), 0], let s := { rendering (th addrs) (view 64 48 []) id with mem := writeNat pages 0x140000018 4 x.toNat }
      let t := th addrs
      Alone s iss 0 t ∧ readable s t [ownSrc 26 2 (some tagsAddr)] [(4, 1)] = true ∧ InRender s t (view 64 48 []) ∧
        ∃ s1 s2 tr, s.translate (t.who 0) 0x100000000 1 .read = (s1, .ok tr) ∧ s1.observes tr = true ∧
          s1.globLoad 0 t 0x100000000 36 = (s2, .ok (leBytes 24 0 ++ leBytes 4 x.toNat ++ leBytes 8 0)) ∧
          ((view 64 48 []).bucketsOf [0, 0, x, 0] = [] ↔ x ≠ 0)) ∧
    ((f32 0).finite = true ∧ (f32 0xBF800000).finite = true) ∧
    MeetsAlone [] [(4, 1)] (fun s _ k t _ => InRender s t (view 64 48 []) ∧ t.susp = none ∧ t.run = .ready ∧
      (s.cluster (clusterOf (coreOf k))).bucketBusy = false ∧ s.openable (view 64 48 []) 0 = [0, 4, 8]) ∧
    MeetsAlone [] [(4, 1)] (fun s _ _ t _ => InRender s t (view 16 16 [(0, bucketOf .closed 0 0)]) ∧
      s.openable (view 16 16 [(0, bucketOf .closed 0 0)]) 0 = [] ∧ s.noneLeft (view 16 16 [(0, bucketOf .closed 0 0)]) = true) ∧
    MeetsAlone [] [(4, 1)] (fun s _ _ t _ => InRender s t (view 16 16 [(0, bucketOf .unopened 0 1)]) ∧
      s.openable (view 16 16 [(0, bucketOf .unopened 0 1)]) 0 = [] ∧ s.noneLeft (view 16 16 [(0, bucketOf .unopened 0 1)]) = false) ∧
    MeetsAlone [] [(4, 1)] (fun s _ k t _ => (∃ r, InRender s t r) ∧ (s.cluster (clusterOf (coreOf k))).bucketBusy = true) ∧
    (∀ l ∈ [[], [patch]], MeetsAlone [ownSrc 0 1 (some tagsInt)] [(4, 1)] (fun s _ k t v => InRender s t (view 64 48 []) ∧ t.susp = none ∧
      (∃ o, (s.cluster (clusterOf (coreOf k))).bucket = some o ∧ o.launch = t.launch ∧ o.bucket = (argW v 0).toNat ∧ o.asCarried = [] ∧
        (o.complete = true ↔ l = [])) ∧ t.run = .ready ∧ ∀ j w, (j, w) ∈ s.threads → j = k)) ∧
    MeetsAlone [ownSrc 1 1 (some tagsInt)] [(4, 1)] (fun s _ k t v => (∃ r, InRender s t r) ∧
      ∀ o, (s.cluster (clusterOf (coreOf k))).bucket = some o → o.launch ≠ t.launch ∨ o.bucket ≠ (argW v 0).toNat) := by
  refine ⟨?_, by decide, aloneRender (th []) (view 64 48 []) id (by decide) ⟨⟨rfl, rfl⟩, rfl, rfl, by decide, by decide⟩,
    aloneRender (th []) _ id (by decide) ⟨⟨rfl, rfl⟩, by decide, by decide⟩,
    aloneRender (th []) _ id (by decide) ⟨⟨rfl, rfl⟩, by decide, by decide⟩,
    aloneRender (th []) (view 64 48 []) (fun c => { c with opening := some (5, 0) }) (by decide) ⟨⟨_, rfl, rfl⟩, by decide⟩, ?_,
    aloneRender (th addrs) (view 64 48 []) (fun c => { c with bucket := some (opened []) }) (by decide) ⟨⟨_, rfl, rfl⟩, ?_⟩⟩
  · intro x hx
    simp only [List.mem_cons, List.not_mem_nil, or_false] at hx
    obtain rfl | rfl := hx <;>
      exact ⟨⟨rfl, rfl, rfl⟩, by decide, ⟨rfl, rfl⟩, _, _, tr_ 0x100000000 0x140000000 attrSealed 0x140000000, okIs (by decide), by decide,
        okIs (by decide), by decide⟩
  · intro l hl
    simp only [List.mem_cons, List.not_mem_nil, or_false] at hl
    obtain rfl | rfl := hl
    · exact aloneRender (th []) (view 64 48 []) (fun c => { c with bucket := some (opened []) }) (by decide)
        ⟨⟨rfl, rfl⟩, rfl, ⟨_, rfl, rfl, by decide, rfl, by decide⟩, rfl, fun j w h => by cases h with | head => rfl | tail _ h => cases h⟩
    · exact aloneRender (th []) (view 64 48 []) (fun c => { c with bucket := some (opened [patch]) }) (by decide)
        ⟨⟨rfl, rfl⟩, rfl, ⟨_, rfl, rfl, by decide, rfl, by decide⟩, rfl, fun j w h => by cases h with | head => rfl | tail _ h => cases h⟩
  · intro o h
    cases h
    exact Or.inr (by decide)

/-- Blocks of CAM in a scratchpad: a camera with near 1 and far 2 at 0x100; dicer memory of 512 KiB at 0x780000 at 0x200; a
rasteriser of 4 visible points at 0x300. -/
def blockCore (c : Core) : Core :=
  { c with spad := writeNat (writeNat (writeNat (writeNat (writeNat [] 0x118 4 0x3F800000) 0x11C 4 0x40000000) 0x200 4 0x780000) 0x204 4 0x200) 0x308 4 4 }

def blocks : Tbl RegVal := [(4, (0x100, .n32)), (5, (0x200, .n32)), (6, (0x300, .n32)), (7, (0x3FFF0, .n32)), (8, (64, .n32)), (9, (0x3FD80, .n32))]

def blockState : State := (rendering (th blocks) (view 64 48 []) id).onCore 0 blockCore

theorem aloneBlocks {srcs : List Src} {dst : List (Nat × Nat)}
    {when_ : State → Issue → FrameRef → Thread → List (List RegVal) → Prop}
    (hr : readable blockState (th blocks) srcs dst = true) (hw : when_ blockState iss 0 (th blocks) (vals blockState (th blocks) srcs)) :
    MeetsAlone srcs dst when_ := meetsAlone blockState (th blocks) ⟨rfl, rfl, rfl⟩ rfl hr hw

def wordIn (s : State) (a i : Nat) : Word := BitVec.ofNat 32 (readNat (s.core 0).spad (a + 4 * i) 4)

/-- A triangle (0,0,1), (1,0,1), (0,1,1) with PRIM 9, and a ray from (0,0,0) along z. -/
def triangle : List Byte := leBytes 8 0 ++ leBytes 4 0x3F800000 ++ leBytes 4 0x3F800000 ++ leBytes 4 0 ++ leBytes 4 0x3F800000 ++ leBytes 4 0
  ++ leBytes 4 0x3F800000 ++ leBytes 4 0x3F800000 ++ leBytes 4 9 ++ leBytes 8 0
def rayWords : List Word := [0, 0, 0, 0, 0, 0x3F800000, 0, 0x7F800000]

set_option maxRecDepth 10000 in
theorem witness_UnitBlocksAndRays :
    MeetsAlone [ownSrc 4 1 (some tagsAddr)] [] (fun s _ k t v => InRender s t (view 64 48 []) ∧ (argW v 0).toNat = 0x100 ∧
      (s.landStores k).placeBad (.spad 0) 0x100 128 = false ∧ (∀ i < 8, (f32 (wordIn (s.landStores k) 0x100 i)).finite = true) ∧
      (f32 (wordIn (s.landStores k) 0x100 4)).isZero = true ∧ wordIn (s.landStores k) 0x100 6 = 0x3F800000 ∧
      wordIn (s.landStores k) 0x100 7 = 0x40000000) ∧
    MeetsAlone [ownSrc 5 1 (some tagsAddr)] [] (fun s _ k t v => InRender s t (view 64 48 []) ∧ (argW v 0).toNat = 0x200 ∧
      (s.landStores k).placeBad (.spad 0) 0x200 64 = false ∧ (s.cluster 0).bucketBusy = false ∧
      (wordIn (s.landStores k) 0x200 0).toNat % 1024 = 0 ∧ (wordIn (s.landStores k) 0x200 1).toNat = 512 ∧
      (wordIn (s.landStores k) 0x200 0).toNat + 1024 * 512 = 0x800000 ∧ ((s.landStores k).cluster 0).spillUsed = []) ∧
    MeetsAlone [ownSrc 6 1 (some tagsAddr)] [] (fun s _ k t v => InRender s t (view 64 48 []) ∧ (argW v 0).toNat = 0x300 ∧
      (s.landStores k).placeBad (.spad 0) 0x300 64 = false ∧ (wordIn (s.landStores k) 0x300 2).toNat = 4) ∧
    MeetsAlone [ownSrc 9 1 (some tagsAddr), ownSrc 8 1 (some tagsInt)] [] (fun s _ k t v => InRender s t (view 64 48 []) ∧
      (argW v 1).toNat = 64 ∧ (argW v 0).toNat + 10 * 64 = 0x40000 ∧ (s.landStores k).placeBad (.spad 0) 0x3FD80 640 = false) ∧
    (let t := th addrs
     let s := paged t
     Alone s iss 0 t ∧ readable s t [ownSrc 32 8 (some tagsF32), ownSrc 26 2 (some tagsAddr)] [(4, 1)] = true ∧ s.hasRays (coreOf 0) = true ∧
       ∃ s1 ms h, State.meetNode 0 t (rayOf (List.replicate 8 0)) 32 (s.landStores 0) 0x100000000 none = (s1, ms) ∧
         traceResult (rayOf (List.replicate 8 0)) false ms = .ok h) ∧
    (∃ ray h, rayOf rayWords = some ray ∧ triHit ray 0x100 2 triangle = some h ∧ 0 < h.d ∧
      traceResult (some ray) false [⟨none, none, [h]⟩] = .ok (some h)) ∧
    Meets { dest := 4, regs := 1, ready := fun s _ k _ _ => s.hasRays (coreOf k) = true } := by
  refine ⟨aloneBlocks (by decide) ⟨⟨rfl, rfl⟩, by decide, by decide, by decide, by decide, by decide, by decide⟩,
    aloneBlocks (by decide) ⟨⟨rfl, rfl⟩, by decide, by decide, by decide, by decide, by decide, by decide, by decide⟩,
    aloneBlocks (by decide) ⟨⟨rfl, rfl⟩, by decide, by decide, by decide⟩, aloneBlocks (by decide) ⟨⟨rfl, rfl⟩, by decide, by decide, by decide⟩,
    ⟨⟨rfl, rfl, rfl⟩, by decide, by decide, _, _, none, rfl, by decide⟩, ?_, meetsOne (th []) (by decide) (by decide)⟩
  exact ⟨_, _, rfl, rfl, by decide, by decide⟩

/-- The oldest message in transit, in a render launch. -/
def sending (t : Thread) (r : Render) (m : Msg) : State := { rendering t r id with net := [m] }

theorem witness_BucketMessages :
    (∀ st ∈ [BucketState.unopened, .moving, .opened, .closed], let r := view 64 48 [(2, bucketOf st 2 0)]
      let s := sending (th []) r (.listPatch 2 7 2 patch [6] 0 4 9)
      s.net = [.listPatch 2 7 2 patch [6] 0 4 9] ∧ s.renders.get 7 = some r ∧ s.threads.get 0 = some (th []) ∧ (s.bucket r 2).state = st) ∧
    (∀ m ∈ [Msg.pendingUp 2 7 2, .pendingDown 2 7 2, .carry 2 7 2 5], let r := view 64 48 [(2, bucketOf .moving 2 1)]
      let s := sending (th []) r m
      s.net = [m] ∧ s.renders.get 7 = some r ∧ s.askers 2 = [] ∧ (s.bucket r 2).waiting = true) ∧
    (sending (th []) (view 64 48 []) (.countReport 2 7 1 40)).net = [.countReport 2 7 1 40] ∧
    (∀ n ∈ [0, 1], let r := view 32 16 [(0, bucketOf .closed 0 0), (1, bucketOf .unopened 1 n)]
      let t := { th [] with run := .engine (.bopen 4) }
      let s := rendering t r fun c => { c with opening := some (0, 3) }
      s.askers 0 = [0] ∧ (s.cluster 0).opening = some (0, 3) ∧ s.threads.get 0 = some t ∧ s.renders.get t.launch = some r ∧
        s.openable r 0 = [] ∧ s.noneLeft r = false ∧ s.bucketComing 0 7 = false ∧
        (s.stealOrder 7 0).find? (fun w => !(s.openable r w).isEmpty) = (if n = 0 then some 1 else none) ∧
        (n = 0 → (s.openable r 1).getLast? = some 1)) := by
  refine ⟨?_, ?_, rfl, ?_⟩
  · intro st h
    simp only [List.mem_cons, List.not_mem_nil, or_false] at h
    obtain rfl | rfl | rfl | rfl := h <;> exact ⟨rfl, rfl, rfl, by decide⟩
  · intro m h
    simp only [List.mem_cons, List.not_mem_nil, or_false] at h
    obtain rfl | rfl | rfl := h <;> exact ⟨rfl, rfl, by decide, by decide⟩
  · intro n h
    simp only [List.mem_cons, List.not_mem_nil, or_false] at h
    obtain rfl | rfl := h <;> exact ⟨by decide, rfl, rfl, rfl, by decide, by decide, by decide, by decide, by decide⟩

/-- The record of a bicubic patch with shader 0x1024 and shading rate 1, all of whose points are (0, 0, 1) (16 R334). -/
def netRec : List Byte :=
  leBytes 8 0 ++ leBytes 8 0x1024 ++ leBytes 16 0 ++ leBytes 4 0x3F800000 ++ leBytes 92 0 ++
    (List.replicate 32 (leBytes 8 0 ++ leBytes 4 0x3F800000)).flatten

/-- A camera whose near plane lies at z. -/
def camera (z : Word) : CamBlock := ⟨0x3F800000, 0x3F800000, 0, 0, 0, 0x3F800000, z, 0x40000000⟩

/-- Bytes from an address on, as a table. -/
def listed (a : Nat) (bs : List Byte) : Tbl Byte := bs.zipIdx.filterMap fun (b, i) => if b = 0 then none else some (a + i, b)

/-- A bucket open on cluster 0, with a camera, dicer memory of n KiB, and the bytes of a patch at its address. -/
def dicing (o : OpenBucket) (cam : CamBlock) (kib : Nat) (bytes : List Byte) : State :=
  { rendering (th []) (view 64 48 []) (fun c => { c with bucket := some o, cam := cam, dice := ⟨0, kib, 0, 0⟩ }) with
    mem := pages ++ listed 0x140000000 bytes, issue := none }

def grid (seq spawned : Nat) (shaded : Bool) (m : GridMem) : Grid :=
  { seq := seq, nu := 1, nv := 1, us := [0, 0x3F800000], vs := [0, 0x3F800000], rect := [], mem := m, matword := 0, bound := [0, 0, 0, 0],
    shader := 0x1024, alloc := 16, parent := 0, frame := 5, spawned := spawned, shaded := shaded }

def gridFrame : Frame := Frame.taken (.grid 0 1) 0 0 0 0 0 7 0 0

set_option maxRecDepth 10000 in
theorem witness_Grids_dropped :
    let o := opened [patch, patch]
    let s := dicing o (camera 0) 1 []
    (s.cluster 0).bucket = some o ∧ o.failing = false ∧ s.running o.ctxid = true ∧ (∀ g ∈ o.grids, g.count ≤ g.spawned) ∧
      ∃ s1, s.engineRead (o.who s 0) patch.patch 512 = (s1, .ok (List.replicate 512 0)) ∧ (s1.cluster 0).bucket = some o ∧
        s1.frames = s.frames ∧ (patchOf (List.replicate 512 0)).invalid = true :=
  ⟨by decide, rfl, by decide, by decide, _, okIs (by decide +kernel), by decide +kernel, by decide +kernel, by decide⟩

set_option maxRecDepth 10000 in
/-- With the near plane beyond the points the patch is split, and with it at the points it is diced. -/
theorem witness_Grids_diced (z : Word) (h : z ∈ [(0x3F800000 : Word), 0x40000000]) :
    let o := opened [patch]
    let s := dicing o (camera z) 1 netRec
    let p := patchOf netRec
    (s.cluster 0).bucket = some o ∧
      ∃ s1, s.engineRead (o.who s 0) patch.patch 512 = (s1, .ok netRec) ∧ (s1.cluster 0).bucket = some o ∧ s1.frames = s.frames ∧
        p.invalid = false ∧ patch.depth < 12 ∧ (16 < (diceEstimate (s1.cluster 0).cam p patch).1 ↔ z = 0x40000000) ∧
        (z = 0x3F800000 → diceEstimate (s1.cluster 0).cam p patch = (1, 1) ∧ freeBlocks o.usedBlocks (s1.cluster 0).dice.kib (ceilDiv 4 16) = some [0] ∧
          s1.hasFrames (s1.gridCore 0 o.nextSeq) 1 = true ∧ s1.freeFrames (s1.gridCore 0 o.nextSeq) 1 = [0]) := by
  simp only [List.mem_cons, List.not_mem_nil, or_false] at h
  obtain rfl | rfl := h <;>
    exact ⟨by decide +kernel, _, okIs (by decide +kernel), by decide +kernel, by decide +kernel, by decide +kernel, by decide, by decide +kernel,
      by decide +kernel⟩

theorem witness_Grids_vertices :
    let g := grid 1 3 false (.bucket [0])
    let o := { opened [] with grids := [g] }
    let s := { dicing o (camera 0) 1 [] with frames := [(5, gridFrame)] }
    (s.cluster 0).bucket = some o ∧ o.grids.find? (fun g => g.spawned < g.count) = some g ∧ g.spawned + 1 = g.count ∧
      (o.grids.map Grid.seq).Nodup ∧ s.frames.get g.frame = some gridFrame ∧
      ∃ s1, s.binChild (coreOf g.frame) g.shader (vertexChild (s.cluster 0) o g (s.vertexHandler o (coreOf g.frame)) g.spawned) =
        some s1 := ⟨by decide, by decide, by decide, by decide, by decide, somes (by decide)⟩

theorem witness_Grids_completed (n : Nat) (h : n ∈ [0, 1]) :
    let g := grid 1 4 false (.bucket [0])
    let o := { opened [patch] with grids := [g] }
    let f := { gridFrame with nfault := n }
    let s := { dicing o (camera 0) 1 [] with frames := [(5, f)] }
    (s.cluster 0).bucket = some o ∧ g ∈ o.grids ∧ g.spawned = g.count ∧ g.shaded = false ∧ (o.grids.map Grid.seq).Nodup ∧
      s.frames.get g.frame = some f ∧ f.live = 0 ∧ f.nkill = 0 ∧ f.nfault = n ∧ o.list ≠ [] ∧
      ∀ r, s.renders.get o.launch = some r → ∀ p, r.patches.get g.parent = some p → p.receivers = [] := by
  simp only [List.mem_cons, List.not_mem_nil, or_false] at h
  obtain rfl | rfl := h <;>
    exact ⟨by decide, by decide, by decide, rfl, by decide, by decide, rfl, rfl, rfl, by decide, fun r hr p hp => by cases hr; cases hp⟩

set_option maxRecDepth 10000 in
/-- A cluster with no sample deck draws nothing, so that the bucket stays as it is. -/
theorem witness_Grids_rastered :
    let g := grid 1 4 true (.bucket [0])
    let o := { opened [patch] with grids := [g], usedBlocks := [0] }
    let s := dicing o (camera 0) 1 []
    (s.cluster 0).bucket = some o ∧ s.renders.get o.launch = some (view 64 48 []) ∧ s.running o.ctxid = true ∧ s.nextCarriedGrid o = none ∧
      o.grids = [g] ∧ g.shaded = true ∧
      ∃ s1 bytes, s.readRecords 0 (o.who s 0) g.mem (s.cluster 0).dice.spill = (s1, some bytes) ∧
        ((s1.rasterAll 0 o (view 64 48 []) ⟨g.nu, g.nv, g.matword, g.bound, bytes⟩).cluster 0).bucket = some o := by
  refine ⟨by decide, by decide, by decide, by decide, rfl, rfl, _, List.replicate 1024 0, Prod.ext rfl ?_, by decide +kernel⟩
  decide +kernel

theorem witness_Grids_points : ∃ p : List Byte, (pointZ p).finite = true ∧ ([] : List (List Byte)).length < 1 :=
  ⟨List.replicate 16 0, by decide, by decide⟩

set_option maxRecDepth 10000 in
theorem witness_Grids_spilled :
    let g := grid 1 4 true (.spill [2])
    let o := { opened [patch] with grids := [g] }
    let s := dicing o (camera 0) 1 []
    o.grids.find? (fun g => match g.mem with | .spill _ => true | .bucket _ => false) = some g ∧
      freeBlocks o.usedBlocks (s.cluster 0).dice.kib (gridBlocks g.nu g.nv) = some [0] ∧
      (∃ s1 bytes, s.readRecords 0 (o.who s 0) g.mem (s.cluster 0).dice.spill = (s1, some bytes) ∧ (s1.cluster 0).bucket = some o ∧
        s1.threads = s.threads) ∧ ∀ e ∈ s.threads, ∀ img, e.2.run ≠ .engine (.camDice img) := by
  refine ⟨by decide, by decide, ⟨_, List.replicate 1024 0, Prod.ext rfl ?_, by decide +kernel, by decide +kernel⟩, ?_⟩
  · decide +kernel
  · intro e he img
    have h : e = (0, th []) := List.mem_singleton.mp he
    subst h
    intro hh
    cases hh

theorem witness_Grids :
    let o := { opened [patch] with failing := true }
    let s := dicing o (camera 0) 1 []
    (s.cluster 0).bucket = some o ∧ s.renders.get o.launch = some (view 64 48 []) ∧ s.attemptOver o = true ∧ o.killed = false ∧
      o.retried = false := ⟨by decide, by decide, by decide, rfl, rfl⟩

/-- The base machine with a core changed. -/
def coreIs (g : Nat) (c : Core) : State := { base with cores := [(g, c)] }

def closedBin (n : Nat) : Bin := { binOf 0x1024 n with opened := false }

/-- A thread that waits for registers beyond its lane's, on a starved core whose context has a pool of 32 pages (18 R388). -/
def starving : Thread := { th [] with run := .grow 512, spawnSeq := 3 }

def starvedState : State :=
  { one starving with cores := [(0, { Core.reset with starve := 1024, grows := [(0, [0])] })], issue := none,
                      ctxs := [(0, { Ctx.reset with susp := 0x100000, susplim := 32 })] }

set_option maxRecDepth 4000 in
theorem witness_BinsAndStarvation :
    (let b := { binOf 0x1024 1 with timer := 0 }
     ((coreIs 0 { Core.reset with bins := [(3, b)] }).core 0).bins.get 3 = some b ∧ b.opened = true ∧ b.timer = 0) ∧
    (let s := coreIs 0 { Core.reset with bins := [(3, closedBin 32)] }
     (s.core 0).bins.get 3 = some (closedBin 32) ∧ s.binPlace 0 (closedBin 32) = some 0 ∧ (closedBin 32).children.length ≤ 32 ∧
       (s.core 0).frameLim ≤ 2 ^ 20 ∧ ∀ x ∈ (s.core 0).inbound, x.committed = false) ∧
    (1024 ≤ (starvedState.core 0).starve ∧
      (starvedState.setCore 0 { starvedState.core 0 with starve := 1023, starved := true }).starveVictim 0 = some (0, starving) ∧
      starvedState.threads.get 0 = some starving ∧ starvedState.frames.get 0 = some fr ∧
      (starvedState.setCore 0 { starvedState.core 0 with starve := 1023, starved := true }).poolAlloc 0 (recordSize starving.alloc) = some 0x100000 ∧
      (∀ j ∈ starvedState.growQueue 0 starving, j = 0) ∧ starving.alloc % 16 = 0 ∧ starving.writes = []) ∧
    (let t := { starving with susp := some .starved }
     let s := { one t with issue := none }
     s.threads.get 0 = some t ∧ s.canReadmit 0 t = true ∧ t.run = .grow 512 ∧ s.frames.get 0 = some fr) :=
  ⟨⟨by decide, rfl, rfl⟩, ⟨by decide, by decide, by decide, by decide, by decide⟩,
    ⟨by decide, by decide, rfl, rfl, by decide, by decide, rfl, rfl⟩, ⟨rfl, by decide, rfl, rfl⟩⟩

def offerRec (victim thief : Nat) : StealRec := ⟨9, victim, thief, 0x1024, 0, [child], false, none⟩
def offering (victim thief : Nat) : Offer := ⟨offerRec victim thief, some 3, 0, false⟩

/-- Core 1 offers its bin 3 to core 0, which asks it; a message is the oldest in transit. -/
def stealing (m : Msg) : State :=
  { base with net := [m], cycle := 240000,
              cores := [(0, { Core.reset with seek := .asking 1 [2] }),
                        (1, { Core.reset with bins := [(3, { closedBin 1 with offered := true })], offers := [offering 1 0] })] }

set_option maxRecDepth 4000 in
theorem witness_Steals :
    (base.idle 0 = true ∧ (base.core 0).seek = .idle ∧ (base.victims 0).head? = some 1) ∧
    (let s := { coreIs 0 { Core.reset with seek := .retry 0 } with cycle := 4800 }
     (s.core 0).seek = .retry 0 ∧ 0 + 4800 ≤ s.cycle ∧ s.idle 0 = true ∧ (s.victims 0).head? = some 1) ∧
    (let s := { coreIs 1 { Core.reset with bins := [(3, closedBin 1)] } with net := [.workRequest 1 0] }
     s.oldestBin 1 = some (3, closedBin 1) ∧ (s.core 1).bins.get 3 = some (closedBin 1)) ∧
    (let s := { base with cores := [(0, { Core.reset with seek := .asking 1 [2] }), (1, { Core.reset with splitEn := false })], net := [.workRequest 1 0] }
     s.oldestBin 1 = none ∧ (s.core 1).splitEn = false ∧ (s.core 0).seek = .asking 1 [2]) ∧
    (let s := { coreIs 36 { Core.reset with bins := [(3, closedBin 1)] } with net := [.distRequest 1 0 0 0] }
     (s.dist 1).lost = false ∧ (s.dieCoreList 1).head? = some 36 ∧ s.oldestBin 36 = some (3, closedBin 1)) ∧
    (base.accepts (offerRec 1 143) = true ∧ (offerRec 1 143).thief < 144) ∧
    ({ base with dists := [(3, { Dist.reset with lost := true })] } : State).accepts (offerRec 1 143) = false ∧
    (let s := stealing (.ack 1 9 0)
     (s.core 1).offers.find? (fun x => x.record.id == 9) = some (offering 1 0) ∧ (offerRec 1 0).within ∧
       ∀ x ∈ (s.core 1).inbound, x.committed = false) ∧
    (∀ x ∈ ((stealing (.ack 1 8 0)).core 1).offers, x.record.id ≠ 8) ∧
    (let s := { coreIs 0 { Core.reset with inbound := [⟨offerRec 1 0, false, false⟩] } with net := [.commit 0 9 1] }
     (s.core 0).inbound = [⟨offerRec 1 0, false, false⟩] ∧ (s.core 0).freeBin = some 0) ∧
    (let s := stealing (.refuse 1 9 0)
     (s.core 1).bins.get 3 = some { closedBin 1 with offered := true } ∧ (s.core 0).seek = .asking 1 [2] ∧
       (offering 1 0).since + 240000 ≤ s.cycle) ∧
    (stealing (.revoke 0 9 1)).net = [.revoke 0 9 1] :=
  ⟨⟨by decide, rfl, by decide⟩, ⟨rfl, by decide, by decide, by decide⟩, ⟨by decide, rfl⟩, ⟨by decide, rfl, rfl⟩, ⟨by decide, by decide, by decide⟩,
    ⟨by decide, by decide⟩, by decide, ⟨by decide, rfl, by decide⟩, by decide, ⟨rfl, by decide⟩, ⟨rfl, rfl, by decide⟩, rfl⟩

/-- A parent frame 0 with two children, and the child's frame 5, whose completion is the oldest message. -/
def parent : Frame := { fr with live := 2 }
def faulted : Completion := ⟨.fault, ⟨0x30, 0, 0, 0, 0, 2 ^ 57 - 1⟩, 12⟩

theorem witness_CompletionsAndLoss :
    (∀ v ∈ [true, false], let f := { parent with fvalid := v, nfault := 0xFFFF }
      let s := { base with frames := [(0, f), (5, { fr with owner := .child 0 4 })], net := [.completion 0 4 faulted (.frame 5)] }
      s.net = [.completion 0 4 faulted (.frame 5)] ∧ s.frames.get 0 = some f ∧ dieOf (coreOf 5) = dieOf (coreOf 0) ∧
        s.remoteEntry 0 4 = false ∧ 1 < f.live ∧ f.fvalid = v) ∧
    (∀ n ∈ [0, 1], let x := { lnch with roots := 2, nfault := n }
      let s := { base with launches := [(7, x)], frames := [(5, fr)], net := [.rootCompletion 7 3 faulted (.frame 5)] }
      s.launches.get 7 = some x ∧ 1 < x.roots ∧ x.nfault = n) ∧
    (let s := { base with launches := [(7, lnch)], frames := [(5, fr)], net := [.rootCompletion 7 3 faulted (.frame 5)] }
     s.launches.get 7 = some lnch ∧ lnch.roots = 1 ∧ lnch.groups = [] ∧ lnch.stage = .dealt ∧ lnch.origin = .queue ∧ lnch.render = false ∧
       lnch.packet % 256 = 0 ∧ ∀ i < 256, (({ s with net := [] } : State).freeFrame 5).frameAt (lnch.packet + i) = none) ∧
    (one (th [])).frames.get 0 = some fr ∧
    (3 < base.fuses.dies ∧ (base.dist 3).lost = false ∧ base.groups = []) ∧
    (let s := { base with frames := [(0, { parent with remote := 1 })], dists := [(0, { Dist.reset with children := [(0, 4, 3)] })],
                          net := [.lossBroadcast 0 3] }
     s.net = [.lossBroadcast 0 3] ∧ (s.dist 0).children = [(0, 4, 3)] ∧ dieOf (coreOf 0) = 0 ∧ 1 < parent.live ∧ s.renders = []) ∧
    (let s := { base with dists := [(3, { Dist.reset with lost := true })], threads := [(36 * 3 * 2 ^ 20, { th [] with susp := some .saved })] }
     (s.dist 3).lost = true ∧ (∀ e ∈ s.threads, dieOf (coreOf e.1) = 3 → e.2.susp.isSome = true) ∧
       ∀ e ∈ s.cores, dieOf e.1 = 3 → e.2.bins = [] ∧ e.2.inbound = []) := by
  refine ⟨?_, ?_, ⟨rfl, rfl, rfl, rfl, rfl, rfl, rfl, ?_⟩, rfl, ⟨by decide, by decide, rfl⟩, ⟨rfl, rfl, by decide, by decide, rfl⟩,
    ⟨rfl, by decide, by decide⟩⟩
  · intro v h
    simp only [List.mem_cons, List.not_mem_nil, or_false] at h
    obtain rfl | rfl := h <;> exact ⟨rfl, rfl, by decide, by decide, by decide, rfl⟩
  · intro n h
    simp only [List.mem_cons, List.not_mem_nil, or_false] at h
    obtain rfl | rfl := h <;> exact ⟨rfl, by decide, rfl⟩
  · decide +kernel

/-! A table of which only the first entry is listed: its leaves and tables are those of that entry. -/

theorem get_absent {α : Type} : ∀ (m : Tbl α) (a : Nat), (∀ k ∈ Tbl.keys m, k ≠ a) → Tbl.get m a = none
  | [], _, _ => rfl
  | (j, v) :: rest, a, h => by
    rw [Tbl.get, if_neg (h j (by simp [Tbl.keys]))]
    exact get_absent rest a fun k hk => h k (by simp only [Tbl.keys, List.map_cons, List.mem_cons] at *; exact Or.inr hk)

theorem readNat_absent (m : Tbl Byte) : ∀ (n a : Nat), (∀ k ∈ Tbl.keys m, k < a ∨ a + n ≤ k) → readNat m a n = 0
  | 0, _, _ => rfl
  | n + 1, a, h => by
    have ih := readNat_absent m n (a + 1) fun k hk => by have := h k hk; omega
    have hb : readByte m a = 0 := by
      rw [readByte, Tbl.getD, get_absent m a fun k hk => by have := h k hk; omega]
      rfl
    simp only [readNat] at ih
    simp [readNat, readBytes, leNat, hb, ih]

theorem first_only {β : Type} (f : Nat → List β) (h : ∀ i < 511, f (i + 1) = []) : (List.range 512).flatMap f = f 0 := by
  rw [show (512 : Nat) = 511 + 1 from rfl, List.range_succ_eq_map, List.flatMap_cons, List.flatMap_map]
  rw [List.flatMap_eq_nil_iff.mpr fun i hi => h i (List.mem_range.mp hi), List.append_nil]

/-- Nothing of the table at t is listed beyond its first entry. -/
def Single (s : State) (t : Nat) : Prop := s.poison = [] ∧ ∀ k ∈ Tbl.keys s.mem, k < t + 8 ∨ t + 4096 ≤ k

theorem entryAt_clean {s : State} (h : s.poison = []) (a : Nat) : s.entryAt a = readNat s.mem a 8 := by
  simp [State.entryAt, State.bad, h]

theorem leaves_table {s : State} {l t u va e : Nat} (h : Single s t) (he : readNat s.mem t 8 = e) (h0 : testBit e 0 = true)
    (h1 : testBit e 1 = false) (ht : s.tableOk (leafPa e) = true) (hu : leafPa e = u) :
    s.leavesUnder (l + 1) t va = s.leavesUnder l u va ∧ s.tablesUnder (l + 1) t = t :: s.tablesUnder l u := by
  subst hu
  have z : ∀ i < 511, readNat s.mem (t + 8 * (i + 1)) 8 = 0 := fun i hi =>
    readNat_absent _ _ _ fun k hk => by have := h.2 k hk; omega
  constructor
  · rw [State.leavesUnder, first_only]
    · simp [entryAt_clean h.1, he, h0, h1, ht]
    · intro i hi
      simp only [entryAt_clean h.1, z i hi]
      rfl
  · rw [State.tablesUnder, first_only]
    · simp [entryAt_clean h.1, he, h0, h1, ht]
    · intro i hi
      simp only [entryAt_clean h.1, z i hi]
      rfl

theorem leaves_last {s : State} {t va e : Nat} (h : Single s t) (he : readNat s.mem t 8 = e) (h1 : testBit e 1 = true) :
    s.leavesUnder 1 t va = (if testBit e 0 then [(va, 1, t, e)] else []) ∧ s.tablesUnder 1 t = [t] := by
  have z : ∀ i < 511, readNat s.mem (t + 8 * (i + 1)) 8 = 0 := fun i hi =>
    readNat_absent _ _ _ fun k hk => by have := h.2 k hk; omega
  constructor
  · rw [State.leavesUnder, first_only]
    · simp only [Nat.mul_zero, Nat.add_zero, entryAt_clean h.1, he, h1, Nat.zero_mul]
      cases testBit e 0 <;> rfl
    · intro i hi
      simp only [entryAt_clean h.1, z i hi]
      rfl
  · rw [State.tablesUnder, first_only]
    · simp [entryAt_clean h.1, he, h1]
    · intro i hi
      simp only [entryAt_clean h.1, z i hi]
      rfl

/-- Tables of five levels from 0x40000000 with one 4 KiB entry for virtual address 0 (14 R315). -/
def deep (e : Nat) : Tbl Byte :=
  [(0x40000000, 0x40001001), (0x40001000, 0x40002001), (0x40002000, 0x40003001), (0x40003000, 0x40004001), (0x40004000, e)].foldl
    (fun acc e => writeNat acc e.1 8 e.2) []

def deepState (e : Nat) : State :=
  { base with mem := deep e, ctxs := [(0, { Ctx.reset with root := 0x40000000, dbgrep := 0x50000000 })],
              pkg := { base.pkg with backpages := 8, leasecap := 2 ^ 20 }, backUsed := [(3, 0x7000)] }

/-- The L1 entry of the context's page: resident at 0x5000, and backed in slot 3. -/
def residentLeaf : Nat := 0x5003
def backedLeaf : Nat := 0x4002

theorem deep_leaves : (deepState residentLeaf).allLeaves = [(0, 0, 1, 0x40004000, residentLeaf)] := by
  have a := (leaves_table (s := deepState residentLeaf) (l := 4) (t := 0x40000000) (u := 0x40001000) (va := 0) (by unfold Single; decide) rfl
    (by decide) (by decide) (by decide) (by decide)).1
  have b := (leaves_table (s := deepState residentLeaf) (l := 3) (t := 0x40001000) (u := 0x40002000) (va := 0) (by unfold Single; decide) rfl
    (by decide) (by decide) (by decide) (by decide)).1
  have c := (leaves_table (s := deepState residentLeaf) (l := 2) (t := 0x40002000) (u := 0x40003000) (va := 0) (by unfold Single; decide) rfl
    (by decide) (by decide) (by decide) (by decide)).1
  have d := (leaves_table (s := deepState residentLeaf) (l := 1) (t := 0x40003000) (u := 0x40004000) (va := 0) (by unfold Single; decide) rfl
    (by decide) (by decide) (by decide) (by decide)).1
  have e := (leaves_last (s := deepState residentLeaf) (t := 0x40004000) (va := 0) (e := residentLeaf) (by unfold Single; decide) (by decide)
    (by decide)).1
  have r : (deepState residentLeaf).rooted = [(0, { Ctx.reset with root := 0x40000000, dbgrep := 0x50000000 })] := by decide
  simp only [State.allLeaves, r, List.flatMap_cons, List.flatMap_nil, List.append_nil, a, b, c, d, e]
  decide

theorem deep_backed : (deepState backedLeaf).allLeaves = [] ∧
    (deepState backedLeaf).tablesUnder 5 0x40000000 = [0x40000000, 0x40001000, 0x40002000, 0x40003000, 0x40004000] := by
  have a := leaves_table (s := deepState backedLeaf) (l := 4) (t := 0x40000000) (u := 0x40001000) (va := 0) (by unfold Single; decide) rfl
    (by decide) (by decide) (by decide) (by decide)
  have b := leaves_table (s := deepState backedLeaf) (l := 3) (t := 0x40001000) (u := 0x40002000) (va := 0) (by unfold Single; decide) rfl
    (by decide) (by decide) (by decide) (by decide)
  have c := leaves_table (s := deepState backedLeaf) (l := 2) (t := 0x40002000) (u := 0x40003000) (va := 0) (by unfold Single; decide) rfl
    (by decide) (by decide) (by decide) (by decide)
  have d := leaves_table (s := deepState backedLeaf) (l := 1) (t := 0x40003000) (u := 0x40004000) (va := 0) (by unfold Single; decide) rfl
    (by decide) (by decide) (by decide) (by decide)
  have e := leaves_last (s := deepState backedLeaf) (t := 0x40004000) (va := 0) (e := backedLeaf) (by unfold Single; decide) (by decide)
    (by decide)
  have r : (deepState backedLeaf).rooted = [(0, { Ctx.reset with root := 0x40000000, dbgrep := 0x50000000 })] := by decide
  constructor
  · simp only [State.allLeaves, r, List.flatMap_cons, List.flatMap_nil, List.append_nil, a.1, b.1, c.1, d.1, e.1]
    decide
  · rw [a.2, b.2, c.2, d.2, e.2]

theorem deep_free : (deepState backedLeaf).freePage 4096 = some 0 := by
  have r : (deepState backedLeaf).rooted = [(0, { Ctx.reset with root := 0x40000000, dbgrep := 0x50000000 })] := by decide
  have f : (deepState backedLeaf).frameFree [] 0 4096 = true := by
    simp only [State.frameFree, State.kept, r, List.flatMap_cons, List.flatMap_nil, List.append_nil, deep_backed.2]
    decide
  rw [State.freePage, deep_backed.1, State.findFrame, if_neg (by decide), if_pos f]

theorem witness_Residency_pages :
    (let s := deepState residentLeaf
     s.ctxLeaf 0 0 = some (residentLeaf, 1, 0x40004000) ∧ residentLeaf % 2 = 1 ∧ s.releasable 0 0 1 residentLeaf = true ∧ s.stores = [] ∧
       s.cores = [] ∧ leafPa residentLeaf + 4096 ≤ 0x40004000 ∧ s.regenOf 0 0 residentLeaf = none ∧
       s.freeSlot 1 = some 0) ∧
    (let s := deepState backedLeaf
     s.ctxLeaf 0 0 = some (backedLeaf, 1, 0x40004000) ∧ residence backedLeaf = some (.backed 3) ∧ s.freePage 4096 = some 0 ∧
       s.backUsed.get 3 = some 0x7000 ∧ 0 + 4096 ≤ 0x40004000) := by
  exact ⟨⟨by decide, by decide, by decide, rfl, rfl, by decide, by decide, by decide⟩, ⟨by decide, by decide, deep_free, rfl, by decide⟩⟩

def leasing (leases : List (Nat × Nat)) : Launch := { lnch with stage := .leasing, leases := leases, roots := 0 }

def leaseState (leases : List (Nat × Nat)) : State :=
  { paged (th []) with launches := [(7, leasing leases)], pkg := { base.pkg with leasecap := 2 ^ 20 }, threads := [], frames := [], issue := none }

theorem witness_Residency :
    (let s := coreIs 5 { Core.reset with l1 := [(0x20, ⟨1, 1, [(0, 9)], 0, false, false, 0⟩)] }
     (s.core 5).l1.get 0x20 = some ⟨1, 1, [(0, 9)], 0, false, false, 0⟩ ∧ ∀ i < 128, s.frameAt (128 * 0x20 + i) = none) ∧
    (let s := { base with dies := [(1, { Die.reset with remoteReads := [(4, 0x10)], replicas := [9] })] }
     s.replicaDue 1 4 = true ∧ 9 ∈ (s.die 1).replicas) ∧
    base.stores = [] ∧
    ((2 : Nat) ^ 64 - 1 < 2 ^ 64 ∧ (2 : Nat) ^ 40 - 1 < 2 ^ 40) ∧
    (let s := leaseState [(0x1000, 0x1000)]
     s.leaseNeed = some (.deal 7) ∧ s.launches.get 7 = some (leasing [(0x1000, 0x1000)]) ∧
       ((s.leasePages (leasing [(0x1000, 0x1000)])).map fun p => leafPa p.entry).Nodup ∧
       ∀ i < 4, s.frameAt ((leasing [(0x1000, 0x1000)]).packet + 224 + i) = none) ∧
    (let s := leaseState [(2 ^ 56, 0x1000)]
     s.leaseNeed = some (.refuse 7 0x0308) ∧ s.launches.get 7 = some (leasing [(2 ^ 56, 0x1000)]) ∧
       ∀ i < 4, s.frameAt ((leasing [(2 ^ 56, 0x1000)]).packet + 224 + i) = none) ∧
    (let l := { lnch with origin := .regen 7 0x1000, roots := 0, pins := [0x80000000] }
     let s := { paged (th []) with launches := [(2 ^ 32, l)], pages := [(0, ⟨0, 0, 3, 1, none⟩), (0x80000000, ⟨0, 0x40000000, 3, 1, none⟩)] }
     (s.launches.find? fun (_, l) => l.origin != .queue && l.stage == .dealt && l.groups.isEmpty && l.roots == 0) = some (2 ^ 32, l) ∧
       l.nfault = 0 ∧ l.nkill = 0 ∧ s.ctxLeaf l.ctxid 0x1000 = some (3, 3, 0x40002000) ∧ leafPa 3 ∉ l.pins ∧ l.pins.Nodup ∧
       s.pages.get 0x80000000 = some ⟨0, 0x40000000, 3, 1, none⟩) :=
  ⟨⟨rfl, by decide⟩, ⟨by decide, by decide⟩, rfl, by decide, ⟨by decide, rfl, by decide, by decide⟩, ⟨by decide, rfl, by decide⟩,
    ⟨by decide, rfl, rfl, by decide, by decide, by decide, rfl⟩⟩

/-- A packet of two launch groups, with its first word, GSIZE, the size of its image if it renders, and the size of one lease, and a
variant list of one entry at virtual address 0x2000 (18 R372, R373). -/
def packet (w0 gsize view lease : Nat) : List Byte :=
  leBytes 4 w0 ++ leBytes 4 2 ++ leBytes 4 gsize ++ leBytes 4 0 ++ leBytes 8 0x2000 ++ leBytes 4 1 ++ leBytes 28 0 ++ leBytes 4 view ++
    leBytes 36 0 ++ leBytes 8 0x1000 ++ leBytes 8 lease ++ leBytes 144 0

/-- An entry that matches every die, of an image of 64 bytes at 0x10000 that starts at its second word. -/
def variant : List Byte := (List.replicate 4 (leBytes 8 (2 ^ 63))).flatten ++ leBytes 8 0x10000 ++ leBytes 4 64 ++ leBytes 4 4

def ring (base : Nat) : Queue := ⟨base, 0, true, 0, 1, 0, 0, true, true, none⟩

/-- Queue 5 of one packet at an address, which has been doorbelled. -/
def queued (at_ : Nat) (p : List Byte) : State :=
  { base with mem := listed 0x2000 variant ++ listed 0x3000 p ++ pages, queues := [(5, ring at_)], doorbells := [⟨0, 5⟩],
              ctxs := [(0, { Ctx.reset with root := 0x40000000, csa := 0x200000 })] }

/-- The packet's refusal code, or the number of its launch groups, as the check after its taking answers. -/
def checked (s : State) (p : List Byte) : Nat × Nat :=
  match (State.counted { s with doorbells := s.doorbells.erase ⟨0, 5⟩, nextId := s.nextId + 1 } 5 s.nextId).checkPacket 0 (s.nextId + 1) p with
  | .error c => (c, 0)
  | .ok (_, _, _, deal) => (0, deal.length)

set_option maxRecDepth 8000 in
theorem witness_Launches :
    (let s := { base with queues := [(5, { ring 0x3000 with size := 4 })] }
     (s.queue 5).enable = true ∧ (s.queue 5).tail ≤ 16 ∧ 16 ≤ (s.queue 5).head + 2 ^ (s.queue 5).size ∧ (s.queue 5).tail > 0 ∧
       (s.queue 5).head + 2 ^ (s.queue 5).size < 17) ∧
    (base.queue 63).enable = false ∧
    (∀ x ∈ [(0, 0, 0, 0, 0x0301, 0), (0, 1, 0, 0, 0, 2), (1, 1, 64 + 2 ^ 16 * 48, 0, 0, 2), (0x14, 1024, 0, 0, 0, 2), (0x08, 1, 0, 0, 0, 2), (0, 1, 0, 0x1000, 0, 2)],
      let p := packet x.1 x.2.1 x.2.2.1 x.2.2.2.1
      let s := queued 0x3000 p
      s.doorbells.find? (fun b => s.takeable b.queue) = some ⟨0, 5⟩ ∧ s.peers = [] ∧ s.slotBytes 0x3000 = some p ∧
        checked s p = x.2.2.2.2 ∧ (leaseRanges p = [] ↔ x.2.2.2.1 = 0)) ∧
    (∀ i < 4, (queued 0x3000 (packet 0 1 0 0)).frameAt (0x3000 + 224 + i) = none) ∧ (queued 0x3000 (packet 0 1 0 0)).running 0 = true ∧
    ((queued (192 * 2 ^ 30) []).slotBytes (192 * 2 ^ 30) = none ∧ (queued (192 * 2 ^ 30) []).capacity < 192 * 2 ^ 30 + 256) ∧
    (({ queued 0x3000 [] with poison := [0x30FF] } : State).slotBytes 0x3000 = none ∧ 0x3000 + 256 ≤ base.capacity) := by
  refine ⟨by decide, by decide, ?_, by decide, by decide, by decide +kernel, by decide +kernel⟩
  intro x h
  simp only [List.mem_cons, List.not_mem_nil, or_false] at h
  obtain rfl | rfl | rfl | rfl | rfl | rfl := h <;>
    exact ⟨by decide +kernel, rfl, by decide +kernel, by decide +kernel, by decide +kernel⟩

/-- The launch's only group, of 33 threads, on core 0. -/
def dealt : Launch := { lnch with gsize := 33, groups := [⟨0, 0, 0, none⟩], roots := 0 }

/-- A cluster group of two launch groups, on cores 0 and 1, with barrier 9. -/
def dealtPair : Launch := { lnch with gsize := 2, groups := [⟨0, 0, 0, some 9⟩, ⟨1, 1, 0, some 9⟩], roots := 0 }

theorem witness_Launches_placed :
    (let s := { base with launches := [(7, dealt)] }
     s.nextGroup 0 = some (7, ⟨0, 0, 0, none⟩) ∧ s.launches.get 7 = some dealt ∧ (dealt.groups.filter fun y => y.unit == 0) = [⟨0, 0, 0, none⟩] ∧
       s.groupFits 7 dealt 0 = true ∧ (s.core 0).frameLim ≤ 2 ^ 20) ∧
    (let s := { base with launches := [(7, dealtPair)] }
     ∀ g ∈ [0, 1], s.nextGroup g = some (7, ⟨g, g, 0, some 9⟩) ∧ (dealtPair.groups.filter fun y => y.unit == 0) = dealtPair.groups ∧
       (dealtPair.groups.map GroupDeal.gcore).Nodup ∧ s.groupFits 7 dealtPair g = true ∧ (s.core g).frameLim ≤ 2 ^ 20) ∧
    (let s := { coreIs 1 { Core.reset with frameLim := 0 } with launches := [(7, dealtPair)] }
     s.nextGroup 0 = some (7, ⟨0, 0, 0, some 9⟩) ∧ s.groupFits 7 dealtPair 1 = false) := by
  refine ⟨⟨by decide, rfl, by decide, by decide +kernel, by decide⟩, ?_, by decide, by decide +kernel⟩
  intro s g h
  simp only [List.mem_cons, List.not_mem_nil, or_false] at h
  obtain rfl | rfl := h <;> exact ⟨by decide, by decide, by decide, by decide +kernel, by decide⟩

/-- A thread's record stands at 0x100000. -/
def recorded (t : Thread) (x : Ctx) : State :=
  let s := { one t with issue := none }
  { s with frames := [(0, { fr with saveptr := 0x100000 })], ctxs := [(0, x)], launches := [(7, { lnch with debug := true })],
           mem := listed 0x100000 (t.recordHead 0) ++ listed (0x100000 + 168) (Thread.recordSlot s 0 t) }

def debugStop (reported : Bool) : DebugStop := ⟨4, 2, 7, none, reported⟩

set_option maxRecDepth 4000 in
theorem witness_Contexts :
    base.running 63 = true ∧
    (({ base with ctxs := [(0, { Ctx.reset with state := .saved })] } : State).ctx 0).state = .saved ∧
    (∀ n ∈ [0, 2 ^ 16], let s := { one (th mixed) with issue := none, ctxs := [(0, { Ctx.reset with state := .saving, csa := 0x1000000, csalim := n })] }
     let b := { s with threads := s.threads.mapVals fun _ t => if t.ctxid == 0 && t.resident then t.settle else t }
     s.readyToSave 0 = true ∧ ((b.saveLayout 0).size ≤ 4096 * (s.ctx 0).csalim ↔ n = 2 ^ 16) ∧ s.threads.get 0 = some (th mixed) ∧
       (th mixed).susp = none ∧ s.frames.get 0 = some fr) ∧
    (let t := { th [] with susp := some .saved }
     let s := recorded t { Ctx.reset with state := .restoring }
     s.canRestore 0 = true ∧ ((s.savedThreads 0).map Prod.fst).Nodup ∧ (s.ctx 0).kills = [] ∧ s.threads.get 0 = some t ∧ t.run = .ready ∧
       t.alloc ≤ 512 ∧ (s.frames.get 0).isSome = true) ∧
    (∀ b ∈ [true, false], let t := { th [] with writes := if b then [] else [⟨4, (0, .raw), 2, false, none⟩] }
     let s := { one t with issue := none, launches := [(7, lnch)] }
     s.running 0 = true ∧ s.launchesOf 0 = [(7, lnch)] ∧ s.launches.get 7 = some lnch ∧ lnch.roots ≠ 0 ∧
       (s.threads.filter fun (_, t) => t.launch == 7) = [(0, t)] ∧ t.resident = true ∧ t.boundary = b) ∧
    (base.launchesOf 5 = [] ∧ base.running 5 = true) ∧
    (let s := recorded (th []) Ctx.reset
     s.launches.get 7 = some { lnch with debug := true } ∧ lnch.ctxid = 0) ∧
    (let s := recorded { th [] with susp := some (.debug 4) } { Ctx.reset with stops := [debugStop false] }
     (s.ctx 0).stops = [debugStop false] ∧ s.stopping 4 = [] ∧ (s.ctx 0).stopped = false) ∧
    (let t := { th [] with stopping := some 4 }
     let s := recorded t { Ctx.reset with stops := [debugStop false], susp := 0x100000, susplim := 4 }
     s.stopping 4 = [(0, t)] ∧ t.boundary = true ∧ t.quiet = true ∧ s.poolAlloc 0 (recordSize t.alloc) = some 0x100000 ∧
       (s.growQueue 0 t).all (· == 0) = true) ∧
    (let t := { th [] with susp := some (.debug 4) }
     let s := recorded t { Ctx.reset with stops := [debugStop true], stopped := true }
     s.stoppedBy 4 = [(0, t)] ∧ s.canResume [(0, t)] = true ∧ s.running 0 = true ∧ s.recordAltered 0 t 0x100000 = false ∧ t.run = .ready ∧
       t.alloc ≤ 512) := by
  refine ⟨by decide, rfl, ?_, ⟨by decide, by decide, rfl, rfl, rfl, by decide, rfl⟩, ?_, ⟨rfl, by decide⟩, ⟨rfl, rfl⟩,
    ⟨rfl, by decide, rfl⟩, ⟨by decide, by decide, by decide, by decide, by decide⟩, ⟨by decide, by decide, by decide, by decide, rfl, by decide⟩⟩
  · intro n h
    simp only [List.mem_cons, List.not_mem_nil, or_false] at h
    obtain rfl | rfl := h <;> exact ⟨by decide, by decide +kernel, rfl, rfl, rfl⟩
  · intro b h
    simp only [List.mem_cons, List.not_mem_nil, or_false] at h
    obtain rfl | rfl := h <;> exact ⟨by decide, by decide, rfl, by decide, by decide, by decide, by decide⟩

set_option maxRecDepth 4000 in
theorem witness_HostWindow :
    (((3 : Nat) ≠ 4 ∧ (3 : Nat) ≠ 8) ∧ 0x14 % 8 ≠ 0) ∧
    (∀ off ∈ [0x114, 0x3FC, 0x500, 0xFFFC, 0x140000, 0x3FFFFFC], off % 4 = 0 ∧
      (0x114 ≤ off ∧ off < 0x400 ∨ 0x500 ≤ off ∧ off < 0x10000 ∨ 0x140000 ≤ off ∧ off < 0x4000000)) ∧
    (base.pkg.stage = 7 ∧ (State.reset.bootFails 1 4 2).pkg.stage = 8) ∧
    (({ base with half := some (0x50, 7) } : State).half = some (0x50, 7) ∧ base.half = none) ∧
    ((base.queue 63).enable = false ∧ (({ base with queues := [(63, ring 0x3000)] } : State).queue 63).enable = true) ∧
    (base.shownDie 3 = some 3 ∧ ({ base with fuses := { base.fuses with dies := 1 } } : State).shownDie 3 = none) ∧
    (2 ^ 36 * base.pkg.apbase + (base.capacity - 4) + 4 ≤ base.capacity ∧ base.capacity < 2 ^ 36 * base.pkg.apbase + (base.capacity - 4) + 5) ∧
    (let s := { base with poison := [0x1003] }
     2 ^ 36 * s.pkg.apbase + 0x1000 + 4 ≤ s.capacity ∧ 3 < 4 ∧ 2 ^ 36 * s.pkg.apbase + 0x1000 + 3 ∈ s.poison) ∧
    (∀ i < 4, base.frameAt (2 ^ 36 * base.pkg.apbase + 0x1000 + i) = none) ∧
    (∀ x ∈ [(⟨true, 2⟩ : BootImage), ⟨false, 0⟩], x.passes = false ∨ 2 ≤ x.config.toNat) ∧
    (let l : List BootImage := [⟨true, 2⟩, ⟨true, 1⟩]
     ∃ x y, l[1]? = some x ∧ x.passes = true ∧ x.config.toNat < 2 ∧ l[0]? = some y ∧ (y.passes = false ∨ 2 ≤ y.config.toNat)) ∧
    (State.reset.images[0]? = some ⟨true, 0⟩ ∧ State.reset.bootFaults.fuse = none ∧ State.reset.bootFaults.dram = none ∧
      State.reset.bootFaults.link = none ∧ State.reset.fuses.dies ≤ 4) ∧
    (let f : BootFaults := ⟨none, none, some 2, [1]⟩
     f.fuse = none ∧ f.dram = none ∧ f.link = some 2) :=
  ⟨by decide, by decide, by decide, by decide, by decide, by decide, by decide, by decide, by decide, by decide,
    ⟨_, _, rfl, rfl, by decide, rfl, by decide⟩, by decide, by decide⟩

/-- The length of a chain is not known: an offset of 0 lies within each, and one past its length beyond it. -/
theorem witness_Attestation : base.shownDie 0 = some 0 ∧ base.shownDie 3 = some 3 ∧ base.fuses.dies ≤ 4 ∧ 0 ≤ (Config.chain 0).length ∧
    (Config.chain 0).length < (Config.chain 0).length + 1 ∧ (1 : Nat) ≠ 0 ∧ 0x10 ∉ [1, 2, 3] ∧ (4 : Nat) ≠ 0 ∧ (4 : Nat) ≠ 0xFF :=
  ⟨by decide, by decide, by decide, Nat.zero_le _, Nat.lt_succ_self _, by decide, by decide, by decide, by decide⟩

/-- A head that drives a frame of 64 by 2 pixels, in lines of 100 periods and frames of 4 lines, at 148.5 MHz over four lanes
(20 R403): a frame takes 2,693 ns. -/
def driving (line column : Nat) (edge : Option (Option (Nat × Bool))) : Head :=
  { Head.reset with en := true, linkup := true, framed := true, khz := 148500, hactive := 64, htotal := 100, vactive := 2, vtotal := 4,
                    lanes := 4, rate := 0, base := 0x100000, pitch := 256, line := line, column := column, edge := edge, swap := some false,
                    swapMp := 1 }

def showing (x : Head) (p : Pkg) : State := { base with heads := [(1, x)], pkg := p, nextEdge := 10 }

theorem witness_DisplayEdges :
    (base.edgeDue = true ∧ (showing (driving 0 0 none) base.pkg).edgeDue = false) ∧
    (base.pkg.role = 0 ∧ { base.pkg with genlock := true }.genlock = true) ∧
    (let p := { base.pkg with role := 1, locked := true, ports := [0, 1], milepost := 4 }
     p.role ≠ 0 ∧ p.locked = true ∧ 1 ∈ p.ports ∧ 5 = p.milepost + 1 ∧ p.milepost + 1 < 6 ∧ 4 ≤ p.milepost) ∧
    (let s := showing Head.reset { base.pkg with role := 1, ports := [1] }
     s.pkg.role ≠ 0 ∧ s.pkg.locked = false ∧ 1 ∈ s.pkg.ports ∧ edgeGap (max 1 s.pkg.period) s.nextEdge s.nanos ≤ 1000 ∧
       1000 < edgeGap (max 1 s.pkg.period) 2000 s.nanos) ∧
    (let s := showing (driving 0 0 none) base.pkg
     s.takeover = false ∧ 1 < s.fuses.heads ∧ (s.head 1).InFrame 2692 ∧ ¬ (s.head 1).InFrame 2693 ∧ ¬ (s.head 0).InFrame 0 ∧
       ({ driving 0 0 none with swapAt := 9 }).Swaps 0 1 ∧ ¬ (driving 0 0 none).Swaps 0 1) ∧
    (let s := { showing (driving 2 0 (some (some (0x200000, true)))) base.pkg with cycle := 3232 }
     1 < s.fuses.heads ∧ ¬ (s.head 1).InFrame s.nanos ∧ (s.head 1).edge = some (some (0x200000, true)) ∧ (s.head 1).late < 0xFFFF) ∧
    (let s := { base with takeover := true, peerHeads := 3, pkg := { base.pkg with role := 2 }, lastReady := some 0, cycle := 5 }
     s.takeover = true ∧ s.pkg.role = 2 ∧ s.pkg.took = false ∧ s.countedReady = some 0 ∧ 0 + s.pkg.margin < 2 ∧ 1 ≤ 0 + s.pkg.margin) ∧
    ((base.head 3).en = false ∧ 3 < base.fuses.heads ∧ ((showing (driving 0 0 none) base.pkg).head 1).en = true) ∧
    (let x := { driving 0 0 none with linkup := false }
     x.en = true ∧ x.linkup = false ∧ x.lanes ∈ [1, 2, 4] ∧ x.rate ≤ 2 ∧
       x.khz * 24 * 132 ≤ x.lanes * [100, 135, 200].getD x.rate 0 * 100000 * 128 ∧
       1 * [100, 135, 200].getD x.rate 0 * 100000 * 128 < 404041 * 24 * 132) ∧
    (let s := showing Head.reset { base.pkg with role := 2 }
     s.edgeDue = false ∧ s.peers = [] ∧ s.pkg.role = 2 ∧ base.pkg.role ≠ 2) ∧
    (∀ x ∈ [driving 0 0 none, driving 0 1 none, driving 1 1 none, driving 1 1 (some none)],
      x.en = true ∧ x.linkup = true ∧ x.khz ≠ 0 ∧ x.framed = true ∧ x.line < x.vactive ∧
        x.base + x.line * x.pitch + 128 * x.column + 128 ≤ base.capacity) ∧
    (let s := { showing (driving 0 0 none) base.pkg with poison := [0x100005] }
     5 < 128 ∧ 0x100000 + 5 ∈ s.poison) ∧
    base.capacity < base.capacity - 127 + 128 ∧ (base.head 0).en = false ∧ (driving 2 0 none).vactive ≤ (driving 2 0 none).line := by
  refine ⟨by decide, by decide, by decide, by decide, by unfold Head.InFrame Head.Swaps; decide, by unfold Head.InFrame; decide, by decide,
    by decide, by decide, by decide, by decide, by decide, by decide, by decide, by decide⟩

set_option maxRecDepth 20000 in
/-- A die map that exchanges the dies 0 and 1, and one that names no die twice fails to. -/
theorem witness_CausewayAndPower :
    (∀ n ∈ [1, 2, 3], (({ base with pkg := { base.pkg with ports := [0, n] } } : State).pkg.ports.getD 1 0) = n ∧ n ≠ 0) ∧
    (0 ∉ [2, 3] ∧ base.pkg.ports.getD 7 0 = 0) ∧
    (let x : Store := ⟨0, .remote 1 1 0x2000, 0x40, [1, 2, 3, 4], 0⟩
     let s := { one (th []) with pkg := { base.pkg with ports := [1, 1] }, stores := [x], issue := none }
     s.pkg.ports.getD 1 0 ≠ 0 ∧ s.stores = [x] ∧ (∀ c va, x.place ≠ .remote c 0 va) ∧ s.threads.get x.thread = some (th []) ∧
       (s.frames.get x.thread).isSome = true) ∧
    (base.capacity - 4 + 4 ≤ base.capacity ∧ base.landAll.bad (base.capacity - 4) 4 = false ∧
      (∀ i < 4, base.landAll.frameAt (base.capacity - 4 + i) = none) ∧ base.capacity < base.capacity - 3 + 4) ∧
    ({ base with poison := [0x1003] } : State).landAll.bad 0x1000 4 = true ∧
    (let s := { base with pkg := { base.pkg with role := 2 }, queues := [(5, ring 0x3000)], nextEdge := 10 }
     s.pkg.role = 2 ∧ (s.queue 5).enable = true ∧ (∀ i < 256, s.frameAt (0x3000 + i) = none) ∧ s.edgeDue = false ∧ base.pkg.role ≠ 2) ∧
    ((0x3E4 : Nat) % 2 ^ 8 = base.pkg.phys ∧ (0x1B : Nat) % 2 ^ 8 ≠ base.pkg.phys ∧ base.mapRefused 0x1B = false ∧
      (one (th [])).mapRefused 0x1B = true ∧ 0x1B / 4 ^ 0 % 4 ≠ base.physDie 0 ∧ (th []).resident = true ∧
      ∀ a < base.fuses.dies, ∀ b < base.fuses.dies, base.physDie a = base.physDie b → a = b) ∧
    (let s := { base with dies := [(2, { Die.reset with autogate := true, idleUs := 1 })], cycle := 1200 }
     s.gateDue 2 = true ∧ s.gateDue 1 = false) ∧
    (let s := { base with dies := [(2, { Die.reset with gated := true })] }
     (s.die (s.physDie 2)).gated = true ∧ (s.die (s.physDie 3)).gated = false) := by
  refine ⟨by decide, by decide, ⟨by decide, rfl, (fun c va h => by cases h), rfl, rfl⟩, by decide, by decide, by decide, by decide, by decide,
    by decide⟩

/-! ## Steps: a thread at a bundle in memory, with no input and no event due. -/

/-- The thread with those registers at a bundle of words, its program counter n words into it. -/
def running (words : List Nat) (n : Nat) (regs : Tbl RegVal) : State :=
  let s := { code words with nextEdge := 10 }
  s.onThread 0 fun t => { t with regs := regs, pc := 0x1000 + 4 * n }

/-- The same with a DEVICE page at 1 GiB, of the register region. -/
def atDevice (words : List Nat) (regs : Tbl RegVal) : State :=
  let s := running words 1 regs
  { s with mem := writeNat s.mem 0x40002008 8 0xF000000000013 }

theorem trial_is (s : State) (ks : List FrameRef) (pc : Nat) : Trial s ks pc (s.trial ks pc) := by
  unfold State.trial
  split
  · exact Or.inl ⟨_, ‹_›, rfl⟩
  · exact Or.inr ⟨_, _, ‹_›, rfl⟩

/-- The only thread of a port issues; a test of what it answers and of its group. -/
def issueMeets (s : State) (q : Host.Outcome State Fault Refusal → List FrameRef → Bool) : Bool :=
  s.pkg.stage == 7 && s.befalls.isEmpty && s.inputs.isEmpty && decide (s.port < 1152) &&
  match s.nextPort with
  | some (_, l) =>
    l.length == 1 &&
    match choosePc l with
    | some key => q (s.trial (groupAt l key) key.1) (groupAt l key)
    | none => false
  | none => false

theorem issueMeets_spec {s : State} {q : Host.Outcome State Fault Refusal → List FrameRef → Bool} (h : issueMeets s q = true) :
    s.pkg.stage = 7 ∧ s.befalls = [] ∧ s.inputs = [] ∧ s.port < 1152 ∧ ∃ p l key o, s.nextPort = some (p, l) ∧
      (∀ k, ¬ HeldAlone s l k) ∧ choosePc l = some key ∧ Trial s (groupAt l key) key.1 o ∧ q o (groupAt l key) = true := by
  unfold issueMeets at h
  simp only [Bool.and_eq_true, beq_iff_eq, List.isEmpty_iff, decide_eq_true_eq] at h
  obtain ⟨⟨⟨⟨h1, h2⟩, h3⟩, h4⟩, h⟩ := h
  refine ⟨h1, h2, h3, h4, ?_⟩
  split at h
  · simp only [Bool.and_eq_true, beq_iff_eq] at h
    obtain ⟨hl, h⟩ := h
    split at h
    · exact ⟨_, _, _, _, ‹_›, fun k hk => absurd hk.1 (by omega), ‹_›, trial_is _ _ _, h⟩
    · cases h
  · cases h

theorem errorIs {ε α : Type} {p : State × Except ε α} {x : ε} (h : p.2 = .error x) : p = (p.1, .error x) := by
  obtain ⟨s, r⟩ := p
  cases h
  rfl

/-- Thread 0's bundle is read; a test of its bytes and the thread. -/
def fetchMeets (s : State) (q : List Byte → Thread → Bool) : Bool :=
  match s.threads.get 0 with
  | some t =>
    match s.translate (t.who 0) (t.pc / 32 * 32) 32 .fetch with
    | (s1, .ok tr) =>
      match s1.globRead (coreOf 0) tr 32 with
      | (_, some bs) => q bs t
      | _ => false
    | _ => false
  | none => false

theorem fetchMeets_spec {s : State} {q : List Byte → Thread → Bool} (h : fetchMeets s q = true) :
    ∃ t bs s1 s2 tr, s.threads.get 0 = some t ∧ s.translate (t.who 0) (t.pc / 32 * 32) 32 .fetch = (s1, .ok tr) ∧
      s1.globRead (coreOf 0) tr 32 = (s2, some bs) ∧ q bs t = true := by
  unfold fetchMeets at h
  split at h
  · split at h
    · split at h
      · exact ⟨_, _, _, _, _, ‹_›, ‹_›, ‹_›, h⟩
      · cases h
    · cases h
  · cases h

/-- The checks of StepRunsDecoded's fetch on a bundle. -/
def slots (bs : List Byte) (t : Thread) : List (Nat × Nat) :=
  (List.range (8 - t.pc % 32 / 4)).map fun j => bundleSlot bs (t.pc % 32 / 4 + j)
def goodControl (bs : List Byte) : Bool := recNat bs 0 4 / 2 ^ 29 == 0
def goodTarget (bs : List Byte) (t : Thread) : Bool :=
  t.pc % 4 == 0 && t.pc % 32 / 4 != 0 && (decide (t.pc % 32 / 4 < 2) || !isPrefixWord (bundleSlot bs (t.pc % 32 / 4 - 1)).1)
def decodesTo (ws : List (Nat × Nat)) (x : Option (Instr × Nat)) : Bool :=
  match decodeGroup ws with
  | .ok y => x == some y
  | .error _ => x == none

set_option maxRecDepth 30000 in
/-- An NOP, a word that does not decode, a control word with a reserved bit, and targets off a word, at the control word and
behind a prefix; an instruction that nothing holds, one whose source is pending, and one that is refused. -/
theorem witness_StepRunsDecoded :
    (let s := { base with inputs := [.takeoverInput] }
     s.pkg.stage = 7 ∧ s.befalls = [] ∧ s.inputs = [.takeoverInput]) ∧
    (State.reset.bootFails 0 1 0).pkg.stage = 8 ∧
    (∀ e ∈ [Outside.corrected 3 4, .corrected 0 1, .decay .home 0x1003, .decay (.spad 143) 0x3FFFF, .decay (.vault 35) 0x7FFFFF,
       .hostMemory 0x7000 [1, 2], .masterLost], let s := { base with befalls := [e] }
     s.pkg.stage ≠ 0 ∧ s.befalls = [e]) ∧
    issueMeets (running [0x42000002] 1 []) (fun o ks => match o with
      | .next s' => ks != [] && ks.all fun k => (s'.threads.get k).all fun t => !t.held
      | _ => false) = true ∧
    issueMeets ((running [0x04040005] 1 mixed).onThread 0 fun t => { t with pend := [(0, 1)] }) (fun o ks => match o with
      | .next s' => ks.any fun k => (s'.threads.get k).any fun t => t.held
      | _ => false) = true ∧
    issueMeets (atDevice (encode (.ldG 4 16 (.short 0) .b32)) [(16, (0x40000000, .w64))]) (fun o _ => match o with
      | .refused (.deviceRegisters _) => true
      | _ => false) = true ∧
    (let s := (running [0x04040005] 1 mixed).onThread 0 fun t => { t with pend := [(0, 1)] }
     let s2 := { s with threads := s.threads.put 1 { probeThread with lane := 1 } }
     (s2.nextPort.map fun x => x.2.map Prod.fst) = some [0, 1] ∧ heldBy (s2.trial [0] 0x1004) [0] = [0]) ∧
    (let s := { base with nextEdge := 10 }
     s.port < 1152 ∧ s.nextPort = none) ∧
    (let s := { base with port := 1152 }
     1152 ≤ s.port ∧ s.dueEvent = some .frameEdge) ∧
    (let s := { base with nextEdge := 10, port := 1152 }
     1152 ≤ s.port ∧ s.dueEvent = none ∧ s.cores = []) ∧
    fetchMeets (running [0x42000002] 1 []) (fun bs t => goodControl bs && goodTarget bs t && decodesTo (slots bs t) (some (.nop, 1))) = true ∧
    fetchMeets (running [0x42000002, 0x42000001] 2 []) (fun bs t => goodControl bs && goodTarget bs t && decodesTo (slots bs t) (some (.yield, 1))) = true ∧
    fetchMeets (running [0] 1 []) (fun bs t => goodControl bs && goodTarget bs t && decodesTo (slots bs t) none) = true ∧
    (let s := running [0x42000002] 1 []
     fetchMeets { s with mem := writeNat s.mem 0x1000 4 0x20000000 } (fun bs _ => !goodControl bs && bs.length == 32) = true) ∧
    fetchMeets ((running [0x42000002] 1 []).onThread 0 fun t => { t with pc := 0x1006 }) (fun bs t => goodControl bs && t.pc % 4 != 0) = true ∧
    fetchMeets (running [0x42000002] 0 []) (fun bs t => goodControl bs && t.pc % 32 / 4 == 0) = true ∧
    fetchMeets (running [0xF8000024, 0x040C1345] 2 []) (fun bs t => goodControl bs && decide (2 ≤ t.pc % 32 / 4) &&
      isPrefixWord (bundleSlot bs (t.pc % 32 / 4 - 1)).1) = true ∧
    (let s := (running [0x42000002] 1 []).onThread 0 fun t => { t with pc := 0x40000004 }
     ∃ t s1, s.threads.get 0 = some t ∧ t.pc = 0x40000004 ∧ s.translate (t.who 0) 0x40000000 32 .fetch = (s1, .error 0x0213)) ∧
    2 ^ 57 ≤ ({ probeThread with pc := 2 ^ 57 } : Thread).pc := by
  refine ⟨by decide, by decide, by decide, by decide +kernel, by decide +kernel, by decide +kernel, by decide +kernel, by decide, by decide,
    by decide, by decide +kernel, by decide +kernel, by decide +kernel, by decide +kernel, by decide +kernel, by decide +kernel,
    by decide +kernel, ⟨_, _, rfl, rfl, errorIs (by decide +kernel)⟩, by decide⟩

/-- Two threads of one port, one of them at 0x2004; and the same with a wait counter of 256. -/
def pairOf (wait : Nat) : List (FrameRef × Thread) := [(0, th []), (1, { th [] with lane := 1, pc := 0x2004, wait := wait })]

theorem witness_IssueSelection :
    (running [0x42000002] 1 []).nextPort.isSome = true ∧ (choosePc (pairOf 0) = some (0x1004, 0) ∧ ∀ x ∈ pairOf 0, x.2.wait < 256) ∧
    (choosePc (pairOf 256) = some (0x2004, 0) ∧ ∃ x ∈ pairOf 256, 256 ≤ x.2.wait) ∧ atPc (pairOf 0) (0x2004, 0) ≠ [] := by
  refine ⟨by decide +kernel, by decide, by decide, by decide⟩

theorem witness_DecodeOfEncode : (check .nop = none ∧ encode .nop = [] ++ [0x42000002]) ∧
    check (.addi none 3 2 (.long 0x00012345)) = none ∧ encode (.addi none 3 2 (.long 0x00012345)) = [0xF8000024] ++ [0x040C1345] := by
  decide

theorem witness_EncodeOfDecode : (∀ x ∈ [((0xF8000024 : Nat), (0 : Nat)), (0x040C1345, 2)], x.1 < 2 ^ 32) ∧
    decodeGroup [(0xF8000024, 0), (0x040C1345, 2)] = .ok (.addi none 3 2 (.long 0x00012345), 2) := ⟨by decide, rfl⟩

theorem witness_MemoryStaysCanonical : Memory.wf State.reset.mem = true ∧ Memory.wf pages = true := by decide

/-! ## Single steps, with results worked out from the spec. -/

/-- Thread 0 after an instruction, its writes taken: a register, and the program counter. -/
def after (i : Instr) (t : Thread) : Option Thread :=
  match exec i (one t) with
  | .next s => (s.threads.get 0).map Thread.settle
  | _ => none

def regAfter (i : Instr) (t : Thread) (r : Nat) : Option RegVal := (after i t).map fun u => u.latest r

/-- 07: addition wraps, subtraction borrows, and a negated or absolute 0x80000000 stays as it is (R139, R142). -/
theorem test_integers : regAfter (.add none 4 1 2 .n32) (th [(1, (0xFFFFFFFF, .n32)), (2, (2, .n32))]) 4 = some (1, .n32) ∧
    regAfter (.sub none 4 1 2 .s32) (th [(1, (1, .n32)), (2, (2, .n32))]) 4 = some (0xFFFFFFFF, .s32) ∧
    regAfter (.neg none 4 3) (th mixed) 4 = some (0x80000000, .s32) ∧ regAfter (.absI none 4 3) (th mixed) 4 = some (0x80000000, .s32) ∧
    regAfter (.mulhi none 4 1 1 .n32) (th [(1, (0xFFFFFFFF, .n32))]) 4 = some (0xFFFFFFFE, .n32) ∧
    regAfter (.mulhi none 4 1 1 .s32) (th [(1, (0xFFFFFFFF, .n32))]) 4 = some (0, .s32) := by decide

/-- 07 R144 to R147: shifts of 32 and more, a field at the top, a field put in the middle, and the counts of zero. -/
theorem test_shifts : regAfter (.shl none 4 1 2) (th [(1, (3, .n32)), (2, (32, .n32))]) 4 = some (0, .raw) ∧
    regAfter (.sha none 4 3 1) (th [(1, (33, .n32)), (3, (0x80000000, .n32))]) 4 = some (0xFFFFFFFF, .raw) ∧
    regAfter (.rot none 4 3 1) (th [(1, (33, .n32)), (3, (0x80000000, .n32))]) 4 = some (1, .raw) ∧
    regAfter (.bfx none 4 1 true 3 28) (th [(1, (0x80000000, .n32))]) 4 = some (0xFFFFFFF8, .raw) ∧
    regAfter (.bfi none 4 1 7 8) (th [(1, (0x1AB, .n32)), (4, (0xFFFFFFFF, .n32))]) 4 = some (0xFFFFABFF, .raw) ∧
    regAfter (.clz none 4 7) (th []) 4 = some (32, .n32) := by decide

/-- 08's third worked line: v8 to v11 hold 2.6875, in lane 3 at phase 10; v12 becomes 0x43434243 of tag E4x4, and the phase 11. -/
theorem test_dithered_pack :
    let t := { th ((List.range 4).map fun j => (8 + j, (0x402C0000, .f32))) with lane := 3, phase := 10 }
    regAfter (.cvtPackE none 12 8 false .rdi .e4) t 12 = some (0x43434243, .e4x4) ∧
    (after (.cvtPackE none 12 8 false .rdi .e4) t).map Thread.phase = some 11 := by decide

/-- 04: 2.6875 rounds to 2.75 in E4M3 to nearest. -/
theorem test_narrow : regAfter (.cvtNarrow none 4 8 1 false .rn .e4) (th [(8, (0x402C0000, .f32))]) 4 = some (0x00004300, .e4x4) := by decide

/-- 06: the groups of the bundle at 0x1000, with their stall counts. -/
theorem test_bundle : decodeGroup [(0x04040005, 1), (0x04080FFF, 1)] = .ok (.addi none 1 0 (.short 5), 1) ∧
    decodeGroup [(0x04080FFF, 1), (0xF8000024, 0)] = .ok (.addi none 2 1 (.short (-1)), 1) ∧
    decodeGroup [(0xF8000024, 0), (0x040C1345, 1)] = .ok (.addi none 3 2 (.long 74565), 2) ∧
    decodeGroup [(0xFA000024, 0), (0x04101800, 3)] = .ok (.addi (some ⟨.rot 4, .own, .own⟩) 4 3 (.short 0), 2) ∧
    (decodeGroup [(0xF8000024, 2), (0x040C1345, 1)]).toOption = none ∧ (decodeGroup [(0xF8000024, 0)]).toOption = none ∧
    (decodeGroup [(0xF8000024, 0), (0xFA000024, 0), (0x040C1345, 1)]).toOption = none := by decide

/-- The worked encodings of 08, 09 and 10. -/
theorem test_worked_words : decodeTableWord 32 0x68201A42 = some (.cvtNarrow none 8 3 2 false .rdi .e4) ∧
    decodeTableWord 32 0x6E304044 = some (.cvtPackE none 12 8 false .rdi .e4) ∧ decodeTableWord 32 0x7014200E = some (.tagOp none 5 4 .w64) ∧
    decodeTableWord 32 0x80503002 = some (.redadd none 20 6 false .rn .f32) ∧
    decodeTableWord 32 0x98202082 = some (.ldG 8 4 (.short 16) .b32) ∧ decodeTableWord 32 0x9A20200B = some (.ldGTyped 8 4 (.short 0) .e4) ∧
    decodeTableWord 32 0x9C2827C3 = some (.stG 10 4 (.short (-8)) .b64) ∧ decodeTableWord 32 0xA8182075 = some (.atom 6 4 7 .cas32) ∧
    decodeTableWord 32 0xCA0C2080 = some (.spawn 3 4 8) ∧ decodeTableWord 32 0xC20C0005 = some (.arrive 3 5) ∧
    decodeTableWord 32 0xE2283020 = some (.gdec 10 6 2) := by decide

/-- 07 R167 to R169: TRAP #5's code, its instruction's address as the first and the resume address, and the handler's entry. -/
theorem test_trap : (match exec (.trap 1) (handled (th mixed)) with
    | .next s => (s.threads.get 0).any fun t => t.trapped && t.trapcode == 0x0100 && t.trapaddr == 5 && t.pc == 0x2004
    | _ => false) = true := by decide

/-- 01: the thread's EXIT leaves no thread. -/
theorem test_exit : (match exec .exitT (one (th mixed)) with
    | .next s => s.threads.isEmpty
    | _ => false) = true := by decide

set_option maxRecDepth 30000 in
/-- The worked ADDI v1, v0, #5 as the first instruction after reset. -/
theorem test_first_step : (match step (State.reset.withFetchWord 32 0x04040005) with
    | .next s => (s.threads.get 0).any fun t => t.pc == 0x1008 && t.latest 1 == (5, .s32)
    | _ => false) = true := by decide +kernel

/-- 08's three rows of REDADD.f32 over lanes 0, 1 and 2: under the tree and under the window. -/
theorem test_redadd :
    let add := fun (window : Bool) (r : Rnd) (xs : List Word) => combine window .f32 .add false r (xs.map some ++ List.replicate 29 none)
    add false .rn [0x4B800000, 0x3F800000, 0x3F800000] = 0x4B800000 ∧ add true .rn [0x4B800000, 0x3F800000, 0x3F800000] = 0x4B800001 ∧
    add false .rn [0x3F800000, 0x3F800000, 0x4B800000] = 0x4B800001 ∧ add true .rn [0x3F800000, 0x3F800000, 0x4B800000] = 0x4B800001 ∧
    add false .ru [0x4B800000, 0x3F800000, 0x3F800000] = 0x4B800002 ∧ add true .ru [0x4B800000, 0x3F800000, 0x3F800000] = 0x4B800001 := by
  decide +kernel

/-! ## Further witnesses, of the clauses beside those above. -/

theorem issuing_iss {s : State} {t : Thread} (h : s.issue = some iss) (ht : s.threads.get 0 = some t) : Issuing s iss := by
  refine ⟨h, by decide, fun k hk => ?_⟩
  simp only [iss, List.mem_singleton] at hk
  exact ⟨t, hk ▸ ht⟩

theorem witness_SupervisorWrites_held :
    let s := base.onCore 0 fun c => { c with heldHandlers := [(0, 0x2004), (15, 0)], heldSplit := some false }
    (s.core 0).heldHandlers.keys.Nodup ∧ (base.core 143).heldHandlers.keys.Nodup := by decide

theorem witness_Transcendentals_group : Issuing (one (th mixed)) iss ∧ ∀ k ∈ iss.members, ∀ t, (one (th mixed)).threads.get k = some t →
    ∃ v, Readable (one (th mixed)) iss t [srcA none 8 1 (some tagsF32)] [((127 : Reg).val, 1)] v := by
  refine ⟨issuing_iss rfl rfl, fun k hk t ht => ?_⟩
  simp only [iss, List.mem_singleton] at hk
  subst hk
  cases ht
  exact ⟨_, readable_spec (by decide)⟩

/-- The thread in the register-window configuration: v4 = 0x400000, v5 = 0x7FFFFC, v6 = 0x400001, v7 = 0x3FFFFF. -/
def windowRegs : Tbl RegVal := [(4, (0x400000, .n32)), (5, (0x7FFFFC, .n32)), (6, (0x400001, .n32)), (7, (0x3FFFFF, .n32))]

def windowing (t : Thread) : State := { one t with pkg := { base.pkg with wincfg := true } }

theorem aloneWindow {srcs : List Src} {dst : List (Nat × Nat)}
    {when_ : State → Issue → FrameRef → Thread → List (List RegVal) → Prop} (t : Thread)
    (hr : readable (windowing t) t srcs dst = true) (hw : when_ (windowing t) iss 0 t (vals (windowing t) t srcs)) :
    MeetsAlone srcs dst when_ := meetsAlone (windowing t) t ⟨rfl, rfl, rfl⟩ rfl hr hw

/-- The first and the last register of the window; the first belongs to the reader itself, the last to an empty context. -/
theorem witness_LocalAccesses_window :
    MeetsAlone [ownSrc 4 1 (some tagsAddr)] [(8, 1)] (fun s _ _ _ v => s.pkg.wincfg = true ∧
      argZ v 0 + off8 (.short 0) = (0x400000 + 0 * 0x100000 + 0 * 0x8000 + 0 * 0x800 + 4 * 0 : Nat) ∧ (s.inContext 0 0 0 0).isSome = true) ∧
    MeetsAlone [ownSrc 5 1 (some tagsAddr)] [(127, 1)] (fun s _ _ _ v => s.pkg.wincfg = true ∧
      argZ v 0 + off8 (.short 0) = (0x400000 + 3 * 0x100000 + 31 * 0x8000 + 15 * 0x800 + 4 * 511 : Nat) ∧ s.inContext 0 3 31 15 = none) ∧
    MeetsAlone [ownSrc 6 1 (some tagsAddr)] [(8, 1)] (fun s _ _ _ v => s.pkg.wincfg = true ∧ 0x400000 ≤ argZ v 0 + off8 (.short 0) ∧
      argZ v 0 + off8 (.short 0) < 0x800000 ∧ (Size.b32 ≠ .b32 ∨ (argZ v 0 + off8 (.short 0)) % 4 ≠ 0)) ∧
    MeetsAlone [ownSrc 7 1 (some tagsAddr)] [(8, 1)] (fun s _ _ _ v => s.pkg.wincfg = true ∧ 0x400000 ≤ argZ v 0 + off8 (.short 1) ∧
      argZ v 0 + off8 (.short 1) < 0x800000 ∧ (Size.b8 ≠ .b32 ∨ (argZ v 0 + off8 (.short 1)) % 4 ≠ 0)) ∧
    MeetsAlone [ownSrc 5 1 (some tagsAddr)] [(8, 2)] (fun s _ _ _ v => s.pkg.wincfg = true ∧ 0x400000 ≤ argZ v 0 + off6 (.short 0) ∧
      argZ v 0 + off6 (.short 0) < 0x800000) ∧
    MeetsAlone [ownSrc 5 1 (some tagsAddr), ownSrc 8 4 none] [] (fun s _ _ _ v => s.pkg.wincfg = true ∧
      0x400000 ≤ argZ v 0 + off8 (.short 3) ∧ argZ v 0 + off8 (.short 3) < 0x800000) :=
  ⟨aloneWindow (th windowRegs) (by decide) (by decide), aloneWindow (th windowRegs) (by decide) (by decide),
    aloneWindow (th windowRegs) (by decide) (by decide), aloneWindow (th windowRegs) (by decide) (by decide),
    aloneWindow (th windowRegs) (by decide) (by decide), aloneWindow (th windowRegs) (by decide) (by decide)⟩

/-- The page tables with DEVICE pages of Causeway in place of the STREAM and APPEND pages: of this chip's memory, of chip 1. -/
def farPages : Tbl Byte :=
  writeNat (writeNat (writeNat pages 0x40002008 8 (Config.causeway + 0x13)) 0x40002018 8 (Config.causeway + 2 ^ 40 + 0x13))
    0x40002020 8 (Config.causeway + 2 * 2 ^ 40 + 0x13)

def farPaged (t : Thread) (ports : List Nat) : State :=
  { paged t with mem := farPages, pkg := { base.pkg with ports := ports }, peers := [(1, 2 ^ 30)] }

theorem aloneFar {srcs : List Src} {dst : List (Nat × Nat)}
    {when_ : State → Issue → FrameRef → Thread → List (List RegVal) → Prop} (t : Thread) (ports : List Nat)
    (hr : readable (farPaged t ports) t srcs dst = true) (hw : when_ (farPaged t ports) iss 0 t (vals (farPaged t ports) t srcs)) :
    MeetsAlone srcs dst when_ := meetsAlone (farPaged t ports) t ⟨rfl, rfl, rfl⟩ rfl hr hw

theorem answers {p : State × Except Nat Tr} {Q : State → Tr → Prop} (tr : Tr) (h : p.2 = .ok tr) (q : Q p.1 tr) :
    ∃ s1 tr, p = (s1, .ok tr) ∧ Q s1 tr := ⟨p.1, tr, by rw [← h], q⟩

/-- Device memory; this chip's range of Causeway; chip 1 up to its last byte, with a port up and with all ports down; chip 2, which
is absent; and loads and stores of each. -/
theorem witness_GlobalLoads_device :
    MeetsAlone [ownSrc 22 2 (some tagsAddr)] [(4, 1)] (fun s _ k t v => ((0x80000000 : Nat) : Int) = ((argN v 0 : Int) + off8 (.short 0)) % 2 ^ 64 ∧
      ∃ s1 tr, (s.landStores k).translate (t.who k) 0x80000000 4 .read = (s1, .ok tr) ∧ tr.attr = attrDevice ∧
        s1.ownDevice tr.pa 4 0xC0000000 ∧ s1.bad 0xC0000000 4 = false) ∧
    MeetsAlone [ownSrc 20 2 (some tagsAddr)] [(4, 2)] (fun s _ k t _ => ∃ s1 tr,
      (s.landStores k).translate (t.who k) 0x40000008 8 .read = (s1, .ok tr) ∧ tr.attr = attrDevice ∧ s1.ownDevice tr.pa 8 8 ∧
        s1.bad 8 8 = false) ∧
    (∀ a ∈ [0xC0000000, 0xFFFFFFFC], ∀ p ∈ [[0, 2], [0, 0]], ∃ s1 tr,
      ((farPaged (th addrs) p).landStores 0).translate ((th addrs).who 0) a 4 .read = (s1, .ok tr) ∧ tr.attr = attrDevice ∧
        s1.peerDevice tr.pa 4 1 (a - 0xC0000000) ∧ (s1.portUp ↔ p = [0, 2])) ∧
    (∃ s1 tr, ((farPaged (th addrs) [0]).landStores 0).translate ((th addrs).who 0) 0x100000000 4 .read = (s1, .ok tr) ∧
      tr.attr = attrDevice ∧ s1.absentDevice tr.pa 4) := by
  refine ⟨alonePaged (th addrs) (by decide) ⟨by decide, answers (tr_ 0x80000000 0xC0000000 attrDevice 0xC0000000) (by decide +kernel)
      ⟨by decide, Or.inl ⟨by decide, rfl⟩, by decide +kernel⟩⟩,
    aloneFar (th addrs) [] (by decide) (answers (tr_ 0x40000008 (Config.causeway + 8) attrDevice Config.causeway) (by decide +kernel)
      ⟨by decide, Or.inr (by decide +kernel), by decide +kernel⟩), ?_,
    answers (tr_ 0x100000000 (Config.causeway + 2 ^ 41) attrDevice (Config.causeway + 2 ^ 41)) (by decide +kernel)
      ⟨by decide, by decide, by decide, fun h => absurd h (by decide +kernel), fun _ cap h => absurd ((congrArg Option.isSome h).trans (rfl : _ = true)) (by decide +kernel)⟩⟩
  intro a ha p hp
  simp only [List.mem_cons, List.not_mem_nil, or_false] at ha hp
  have up : ∀ q ∈ [[0, 2], [0, 0]], (((farPaged (th addrs) q).landStores 0).translate ((th addrs).who 0) a 4 .read).1.portUp ↔ q = [0, 2] := by
    unfold State.portUp
    obtain rfl | rfl := ha <;> decide +kernel
  have tr : ∀ q ∈ [[0, 2], [0, 0]], (((farPaged (th addrs) q).landStores 0).translate ((th addrs).who 0) a 4 .read).2 =
      .ok (tr_ a (Config.causeway + 2 ^ 40 + (a - 0xC0000000)) attrDevice (Config.causeway + 2 ^ 40)) := by
    obtain rfl | rfl := ha <;> decide +kernel
  have chip : ∀ q ∈ [[0, 2], [0, 0]], 1 ≠ (((farPaged (th addrs) q).landStores 0).translate ((th addrs).who 0) a 4 .read).1.pkg.chipid := by
    obtain rfl | rfl := ha <;> decide +kernel
  have there : ∀ q ∈ [[0, 2], [0, 0]], ∃ cap, (((farPaged (th addrs) q).landStores 0).translate ((th addrs).who 0) a 4 .read).1.peers.get 1 =
      some cap ∧ a - 0xC0000000 + 4 ≤ cap := by
    intro q hq
    refine ⟨2 ^ 30, ?_⟩
    simp only [List.mem_cons, List.not_mem_nil, or_false] at hq
    obtain rfl | rfl := ha <;> obtain rfl | rfl := hq <;> decide +kernel
  exact answers _ (tr p (by simpa using hp)) ⟨rfl, ⟨by simp only [tr_]; omega, by simp only [tr_, Config.causeway]; omega,
    by obtain rfl | rfl := ha <;> decide, chip p (by simpa using hp), by obtain rfl | rfl := ha <;> decide, there p (by simpa using hp)⟩, up p (by simpa using hp)⟩

/-- A store to each kind of target. -/
theorem witness_GlobalStores_device :
    (∃ s1 tr, (farPaged (th addrs) []).translate ((th addrs).who 0) 0x40000008 8 .write = (s1, .ok tr) ∧ tr.attr = attrDevice ∧
      s1.ownDevice tr.pa 8 8) ∧
    (∀ p ∈ [[0, 2], [0, 0]], ∃ s1 tr, (farPaged (th addrs) p).translate ((th addrs).who 0) 0xFFFFFFF0 16 .write = (s1, .ok tr) ∧
      tr.attr = attrDevice ∧ s1.peerDevice tr.pa 16 1 0x3FFFFFF0 ∧ (s1.portUp ↔ p = [0, 2])) ∧
    (∃ s1 tr, (farPaged (th addrs) []).translate ((th addrs).who 0) 0xFFFFFFF0 16 .write = (s1, .ok tr) ∧ tr.attr = attrDevice ∧
      s1.peers.get 1 = some (2 ^ 30) ∧ 0x3FFFFFF0 + 16 ≤ 2 ^ 30 ∧ 2 ^ 30 < 0x3FFFFFF1 + 16) := by
  refine ⟨answers (tr_ 0x40000008 (Config.causeway + 8) attrDevice Config.causeway) (by decide +kernel) ⟨by decide, Or.inr (by decide +kernel)⟩,
    ?_, answers (tr_ 0xFFFFFFF0 (Config.causeway + 2 ^ 40 + 0x3FFFFFF0) attrDevice (Config.causeway + 2 ^ 40)) (by decide +kernel)
      ⟨rfl, by decide +kernel, by decide, by decide⟩⟩
  intro p hp
  simp only [List.mem_cons, List.not_mem_nil, or_false] at hp
  obtain rfl | rfl := hp <;>
    exact answers (tr_ 0xFFFFFFF0 (Config.causeway + 2 ^ 40 + 0x3FFFFFF0) attrDevice (Config.causeway + 2 ^ 40)) (by decide +kernel)
      ⟨rfl, ⟨by decide, by decide, by decide, by decide +kernel, by decide, 2 ^ 30, by decide +kernel, by decide⟩,
        by unfold State.portUp; decide +kernel⟩

/-- A walk of address 0 comes to the table of level 3, whose first entry is a leaf and whose sixth maps nothing; the entry of 4 TiB
has a reserved bit, that of 8 TiB names a table beyond memory, and the one of 2^48 reads bad bytes. -/
def walking : State :=
  let s := paged (th [])
  { s with mem := writeNat (writeNat s.mem 0x40001040 8 0x40002005) 0x40001080 8 0xFFFFFFFFFF001, poison := [0x40000009] }

/-- A group of four contiguous leaves of 1 GiB at 4 GiB, and one leaf alone that says it is contiguous. -/
def contiguous : State :=
  let s := paged (th [])
  { s with mem := [(0x40002020, 0x100000203), (0x40002028, 0x140000203), (0x40002030, 0x180000203), (0x40002038, 0x1C0000203),
                   (0x40002040, 0x200000203)].foldl (fun acc e => writeNat acc e.1 8 e.2) s.mem }

theorem walk_comes {s : State} {die root va e5 e4 : Nat} (h : s.tableOk root = true) (h5 : s.walkRead die (tableSlot root 5 va) = some e5)
    (t5 : IsTable 5 e5) (k5 : s.tableOk (leafPa e5) = true) (h4 : s.walkRead die (tableSlot (leafPa e5) 4 va) = some e4) (t4 : IsTable 4 e4)
    (k4 : s.tableOk (leafPa e4) = true) : WalkComes s die root va 3 (leafPa e4) :=
  .down 3 _ e4 (.down 4 _ e5 (.root h) h5 t5 k5) h4 t4 k4

theorem walks {s : State} (h : s = walking ∨ s = contiguous) (va : Nat) (hv : va < 2 ^ 39) : WalkComes s 0 0x40000000 va 3 0x40002000 := by
  have h5 : tableSlot 0x40000000 5 va = 0x40000000 := by unfold tableSlot; omega
  have h4 : tableSlot 0x40001000 4 va = 0x40001000 := by unfold tableSlot; omega
  obtain rfl | rfl := h
  · exact walk_comes (e5 := 0x40001001) (e4 := 0x40002001) (by decide) (by rw [h5]; decide +kernel) (by unfold IsTable; decide) (by decide)
      (by rw [show leafPa 0x40001001 = 0x40001000 by decide, h4]; decide +kernel) (by unfold IsTable; decide) (by decide)
  · exact walk_comes (e5 := 0x40001001) (e4 := 0x40002001) (by decide) (by rw [h5]; decide +kernel) (by unfold IsTable; decide) (by decide)
      (by rw [show leafPa 0x40001001 = 0x40001000 by decide, h4]; decide +kernel) (by unfold IsTable; decide) (by decide)

theorem witness_AddressChecks_leases :
    let l := { lnch with leases := [(0x1000, 0x1000)] }
    let s := { base with launches := [(7, l)] }
    s.leased 7 0x1FFC 4 = true ∧ s.leased 7 0x1FFD 4 = false ∧ s.leased 7 0xFFF 1 = false ∧ base.leased 7 0 4 = true := by decide

theorem witness_AddressChecks_walks :
    ¬ walking.translated ((th []).who 0) 0 ∧ walking.physDie (dieOf 0) = 0 ∧ (walking.ctx 0).root = 0x40000000 ∧
    WalkComes walking 0 0x40000000 0 3 0x40002000 ∧
    (walking.walkRead 0 (tableSlot 0x40002000 3 0) = some 3 ∧ IsLeaf 3 3) ∧
    (walking.walkRead 0 (tableSlot 0x40002000 3 0x140000000) = some 0 ∧ (0 : Nat) % 2 = 0) ∧
    (walking.walkRead 0 (tableSlot 0x40001000 4 0x40000000000) = some 0x40002005 ∧ ¬ IsTable 4 0x40002005 ∧ ¬ IsLeaf 4 0x40002005) ∧
    (walking.walkRead 0 (tableSlot 0x40001000 4 0x80000000000) = some 0xFFFFFFFFFF001 ∧ IsTable 4 0xFFFFFFFFFF001 ∧
      walking.tableOk (leafPa 0xFFFFFFFFFF001) = false) ∧
    walking.walkRead 0 (tableSlot 0x40000000 5 (2 ^ 48)) = none ∧
    ({ walking with ctxs := [(0, { Ctx.reset with root := walking.capacity })] } : State).tableOk walking.capacity = false := by
  refine ⟨by unfold State.translated; decide, by decide, by decide, walks (Or.inl rfl) 0 (by decide), ⟨by decide +kernel, ?_⟩,
    ⟨by decide +kernel, rfl⟩, ⟨by decide +kernel, ?_, ?_⟩, ⟨by decide +kernel, ?_, by decide⟩, by decide +kernel, by decide⟩ <;>
    (first | unfold IsLeaf | unfold IsTable) <;> decide

theorem witness_AddressChecks_groups :
    WalkComes contiguous 0 0x40000000 0x180000000 3 0x40002000 ∧
    (contiguous.walkRead 0 (tableSlot 0x40002000 3 0x180000000) = some 0x180000203 ∧ IsLeaf 3 0x180000203 ∧
      0x180000203 / 2 ^ 9 % 2 = 1 ∧ GroupHolds contiguous 3 0x40002030 0x180000203 0x100000000) ∧
    (contiguous.walkRead 0 (tableSlot 0x40002000 3 0x200000000) = some 0x200000203 ∧ IsLeaf 3 0x200000203 ∧
      ∀ b, ¬ GroupHolds contiguous 3 0x40002040 0x200000203 b) := by
  refine ⟨walks (Or.inr rfl) _ (by decide), ⟨by decide +kernel, by unfold IsLeaf; decide, by decide, by unfold GroupHolds IsLeaf; decide +kernel⟩,
    by decide +kernel, by unfold IsLeaf; decide, fun b h => ?_⟩
  have hl := (h.2 1 (by decide)).2.1.1
  revert hl
  decide +kernel

/-- A leaf of each answer: privileged, out of reach, refused and granted; its bytes on a die. -/
theorem witness_AddressChecks_leaves :
    ((3 + 2 ^ 52) / 2 ^ 52 % 2 = 1 ∧ ((th []).who 0).trapped = false) ∧
    ((3 : Nat) / 2 ^ 52 % 2 = 0 ∧ walking.reachable 3 0x1000 ∧ ¬ walking.reachable 3 walking.pkg.fwbase ∧
      walking.reachable (3 + 2 ^ 52) (walking.capacity - 1) ∧ walking.reachable (3 + 4 * 4) Config.devRegs ∧ ¬ walking.reachable 3 (2 ^ 52)) ∧
    (Refuses .fetch 4 false 0x0232 ∧ Refuses .write 2 true 0x0033 ∧ Refuses .write 2 false 0x0032 ∧ Refuses .atomic 4 false 0x0037 ∧
      Refuses .append 0 false 0x0035) ∧
    (∀ c, ¬ Refuses .read 3 true c) ∧ (∀ c, ¬ Refuses .append 2 true c) ∧ (3 + 2 ^ 5) / 2 ^ 5 % 4 = 1 := by
  refine ⟨by decide, ?_, by simp [Refuses], fun c h => ?_, fun c h => ?_, by decide⟩
  · refine ⟨by decide, ?_, ?_, ?_, ?_, ?_⟩ <;> unfold State.reachable <;> dsimp only <;> decide
  all_goals
    unfold Refuses at h
    obtain h | h | h | h | h := h <;> simp_all

/-- The core holds a translation of the page at 0, for every address in it. -/
theorem witness_AddressChecks_held :
    let e : TlbEntry := ⟨0x40000000, 0, 2 ^ 30, 3, 3, 0, 2 ^ 30⟩
    let s := (paged (th [])).onCore 0 fun c => { c with tlb := [e] }
    (∀ va ∈ [0, 2 ^ 30 - 1], (s.core 0).tlb.find? (fun t => t.root == (s.ctx 0).root && decide (t.base ≤ va) && decide (va < t.base + t.size)) = some e) ∧
      s.translated ((th []).who 0) (2 ^ 30 - 1) ∧ ¬ s.translated ((th []).who 0) (2 ^ 30) := by
  refine ⟨by decide, ?_, ?_⟩ <;> unfold State.translated <;> decide

/-- Closed by an earlier cycle's SEAL, and by one of this cycle. -/
theorem witness_AppendAndSeal_closed :
    (∀ c ∈ [0, 5], let s := { appended (th addrs) ⟨6, 6, true, false, c⟩ with cycle := 5 }
      ∃ s1 tr, (s.landStores 0).translate ((th addrs).who 0) 0xC0000000 1 .append = (s1, .ok tr) ∧
        (s1.appendRec tr.pagePa).closed = true ∧ ((s1.appendRec tr.pagePa).closedAt = s.cycle ↔ c = 5) ∧
        ceilDiv (s1.appendRec tr.pagePa).tail 4 * 4 + 4 ≤ tr.pageSize) ∧
    (∃ s1 tr, ((appended (th addrs) ⟨6, 6, true, true, 0⟩).landStores 0).translate ((th addrs).who 0) 0xC0000000 1 .read = (s1, .ok tr) ∧
      tr.attr = attrAppend ∧ (s1.appendRec tr.pagePa).sealed = true) := by
  refine ⟨fun c hc => ?_, answers (tr_ 0xC0000000 0x100000000 attrAppend 0x100000000) (by decide +kernel) ⟨rfl, by decide +kernel⟩⟩
  simp only [List.mem_cons, List.not_mem_nil, or_false] at hc
  obtain rfl | rfl := hc <;>
    exact answers (tr_ 0xC0000000 0x100000000 attrAppend 0x100000000) (by decide +kernel)
      ⟨by decide +kernel, by decide +kernel, by decide +kernel⟩

/-- Thread 0 in lane 0 has a load in flight on v4, which thread 2^20, of the next lane, reads through a pattern. -/
def neighbour : Thread := { th mixed with loads := [⟨3, [(4, (1, .raw))], none, none⟩], pend := [(4, 3)] }
def reader : Thread := { th mixed with lane := 1 }
def pairIss : Issue := { iss with members := [0, 1] }
def pairState : State := { one neighbour with threads := [(0, neighbour), (1, reader)], frames := [(0, fr), (1, fr)], issue := some pairIss }
def pairPats : Option Pats := some ⟨.rot 31, .own, .own⟩

theorem witness_PrefetchAndResults_later :
    (let l : Load := ⟨3, [(4, (1, .raw))], none, none⟩
     let t := { th mixed with loads := [l, ⟨9, [], none, none⟩], pend := [(4, 3)], draining := true }
     (one t).threads.get 0 = some t ∧ t.deferred = none ∧ t.loads.find? (fun x => x.id == l.id) = some l ∧ t.draining = true ∧
       ∃ x ∈ t.loads, x.id ≠ l.id) ∧
    (∀ f ∈ [none, some 4], let d : Deferred := ⟨[], iss, f, 4, [(7, .n32)], some 2, 0⟩
     let t := { th mixed with deferred := some d }
     let s := { one t with issue := none }
     s.threads.get 0 = some t ∧ (s.frames.get 0).isSome = true ∧ s.issue = none ∧ t.deferred = some d ∧ d.waits = [] ∧ d.fault = f) ∧
    (let x : Store := ⟨0, .remote 1 0 0x2000, 0x7C, [1, 2, 3, 4], 0⟩
     let s := { one (th mixed) with stores := [x] }
     s.threads.get 0 = some (th mixed) ∧ (th mixed).draining = false ∧ s.stores = x :: [] ∧ x.thread = 0) ∧
    (Issuing pairState pairIss ∧
      (∃ v, Awaiting pairState pairIss reader [srcA pairPats 4 1 none] [((6 : Reg).val, 1)] v) ∧
      ∃ v, Readable pairState pairIss neighbour [srcA pairPats 4 1 none] [((6 : Reg).val, 1)] v) := by
  refine ⟨⟨rfl, rfl, by decide, rfl, ⟨9, [], none, none⟩, by decide, by decide⟩, ?_, ⟨rfl, rfl, rfl, rfl⟩, ⟨rfl, by decide, ?_⟩,
    ⟨[[(1, .raw)]], by decide, by decide, by decide, by decide, by decide, by decide, by decide⟩,
    ⟨[[(0, .raw)]], by decide, by decide, by decide, by decide, by decide, by decide, by decide⟩⟩
  · intro f hf
    exact ⟨rfl, rfl, rfl, rfl, rfl, rfl⟩
  · intro k hk
    simp only [pairIss, List.mem_cons, List.not_mem_nil, or_false] at hk
    obtain rfl | rfl := hk <;> exact ⟨_, rfl⟩

theorem someWith {α : Type} {o : Option α} (p : α → Bool) (h : o.any p = true) : ∃ x, o = some x ∧ p x = true := by
  cases o with
  | none => cases h
  | some x => exact ⟨x, rfl, h⟩

/-- A copy whose second row of s ends at the byte before the window, and one whose second row starts at its last byte. -/
theorem witness_CopyCaptures_window :
    ({ job with rows := 2, sstride := 0x3FFEE0 } : CopyJob).windowed = none ∧
    ({ job with rows := 2, sstride := 0x3FFEE1 } : CopyJob).windowed = some 0x400000 ∧
    ({ job with rows := 2, dstride := 0x7FFDFF } : CopyJob).windowed = some 0x7FFFFF ∧
    ({ job with rows := 2, dstride := 0x7FFE00 } : CopyJob).windowed = none ∧ 0 < job.len ∧
    MeetsAlone [ownSrc 4 1 (some tagsAddr)] [] (fun s _ k t v =>
      ((s.core (coreOf k)).copies.filter fun j => !j.started).length < 16 ∧ t.trapped = false ∧ s.pkg.wincfg = true ∧
        0x400000 ≤ (argW v 0).toNat ∧ (argW v 0).toNat < 0x800000) ∧
    (let s := { atCore (th recs) (fun c => { copyCore c with spad := writeBytes [] 0x40 (leBytes 8 0x3FFFF0 ++ copyRec.drop 8) }) with
                pkg := { base.pkg with wincfg := true } }
     ∃ j, copyRequest { s.outgoing 0 with nextId := s.nextId + 1 } 0 (th recs) 0x40 (readBytes ((s.outgoing 0).core 0).spad 0x40 64)
       s.nextId (s.timeOf 0) = some j ∧ (j.windowed == some 0x400000) = true) := by
  refine ⟨by decide, by decide, by decide, by decide, by decide, aloneWindow (th windowRegs) (by decide) (by decide), ?_⟩
  exact someWith _ (by decide +kernel)

/-- A copy to the append page at 0xC0000000, whose translation core 0 holds, and the page's record. -/
def appendJob : CopyJob := { job with dspace := .append, dst := 0xC0000000, len := 5, rows := 3 }
def appendCopy (j : CopyJob) (r : AppendRec) : State :=
  (appended (th []) r).onCore 0 fun c =>
    { copyCore c with copies := [j], tlb := [⟨0x40000000, 0xC0000000, 2 ^ 30, 0x10000000B, 3, 0, 2 ^ 30⟩] }

/-- Closed before; the 16 bytes to reserve end at the page's end; and one byte later. -/
theorem witness_CopyRuns_append :
    (∀ r ∈ [⟨16, 16, true, false, 7⟩, ⟨2 ^ 30 - 31, 0, false, false, 0⟩, (⟨2 ^ 30 - 15, 0, true, false, 0⟩ : AppendRec)],
      let s := appendCopy appendJob r
      (s.core 0).copies.find? (fun j => !j.started) = some appendJob ∧ appendJob.dst < 2 ^ 57 ∧
        s.translated ⟨0, 0, 7, false⟩ appendJob.dst ∧
        s.translate ⟨0, 0, 7, false⟩ appendJob.dst 1 .append = (s, .ok (tr_ 0xC0000000 0x100000000 attrAppend 0x100000000)) ∧
        s.appendRec 0x100000000 = r ∧ s.cycle = 0) ∧
    (2 ^ 30 < ceilDiv (2 ^ 30 - 15) 16 * 16 + ceilDiv (5 * 3) 16 * 16 ∧ ceilDiv (2 ^ 30 - 31) 16 * 16 + ceilDiv (5 * 3) 16 * 16 ≤ 2 ^ 30) := by
  refine ⟨fun r hr => ?_, by decide⟩
  simp only [List.mem_cons, List.not_mem_nil, or_false] at hr
  obtain rfl | rfl | rfl := hr <;>
    exact ⟨by decide, by decide, by unfold State.translated; decide, by decide +kernel, by decide, rfl⟩

/-- Two rows of three bytes of k, 16 apart, to the scratchpads of cores 0 and 1. -/
def rowsJob : CopyJob :=
  { job with started := true, src := 0x7FFFED, len := 3, rows := 2, sstride := 16, dstride := -8, sspace := .k, dspace := .c,
             dst := 0x10, dests := [⟨0, 1, false, false⟩, ⟨1, 0, false, false⟩] }

theorem witness_CopyRuns_rows :
    let s := atCore (th []) fun c => { copyCore c with copies := [rowsJob] }
    let d : CopyDest := ⟨0, 1, false, false⟩
    ((s.core 0).copies.map (·.id)).Nodup ∧ rowsJob ∈ (s.core 0).copies ∧ (rowsJob.dests.map (·.core)).Nodup ∧ d ∈ rowsJob.dests ∧
    d.landed ≤ rowsJob.len * rowsJob.rows ∧ rowsJob.base ≤ d.landed ∧ (∀ p, (s.die p).gated = false) ∧
    (∀ i, rowsJob.base + rowsJob.data.length ≤ i → i < d.landed + 5 → ∃ p a, CopyFrom s 0 rowsJob i p a ∧ s.placeBad p a 1 = false) ∧
    (∀ i, d.landed ≤ i → i < d.landed + 5 → ∃ p a, CopyTo s 0 d.core rowsJob i p a ∧ (p = .home → s.frameAt a = none)) := by
  refine ⟨by decide, by decide, by decide, by decide, by decide, by decide, fun p => rfl, fun i _ h => ?_, fun i h1 h => ?_⟩
  · have : i < 6 := h
    interval_cases i <;> exact ⟨.vault 0, _, ⟨rfl, Int.toNat_of_nonneg (by decide), by decide⟩, by decide⟩
  · have : i < 6 := h
    have : 1 ≤ i := h1
    interval_cases i <;> exact ⟨.spad 0, _, ⟨rfl, Int.toNat_of_nonneg (by decide), by decide⟩, fun h => by cases h⟩

/-- From a page of g to a reservation of an append page: the last bytes, which are padded. -/
theorem witness_CopyRuns_padded :
    let d : CopyDest := ⟨0, 14, false, false⟩
    let j := { appendJob with started := true, sspace := .g, sstride := 5, src := 0x3FFFFFF0, page := some 0x100000000, reserved := 16, dests := [d], base := 14 }
    let s := (appendCopy j ⟨32, 0, false, false, 0⟩).onCore 0 fun c => { c with tlb := [⟨0x40000000, 0, 2 ^ 30, 3, 3, 0, 2 ^ 30⟩] }
    (s.core 0).copies = [j] ∧ d.landed + min 9 (j.len * j.rows - d.landed) = j.len * j.rows ∧
    (∃ p a, CopyFrom s 0 j 14 p a ∧ s.placeBad p a 1 = false) ∧ (∃ p a, CopyTo s 0 0 j 14 p a ∧ (p = .home → s.frameAt a = none)) ∧
    ∃ page, j.page = some page ∧ ∀ i, j.len * j.rows ≤ i → i < ceilDiv (j.len * j.rows) 16 * 16 → s.frameAt (page + j.reserved + i) = none := by
  refine ⟨rfl, by decide, ⟨.home, 0x3FFFFFFE, ⟨rfl, 0x3FFFFFFE, tr_ 0x3FFFFFFE 0x3FFFFFFE attrNormal 0, by decide, by decide,
      by unfold State.translated; decide, by decide +kernel, by decide, rfl⟩, by decide⟩,
    ⟨.home, _, ⟨rfl, _, rfl, rfl⟩, fun _ => by decide⟩, _, rfl, fun i h1 h => ?_⟩
  have : i < 16 := h
  have : 15 ≤ i := h1
  interval_cases i
  decide

/-- A source row of s that runs over the scratchpad's end; and a failed destination of two. -/
theorem witness_CopyRuns_fails :
    (let j := { job with started := true, src := 0x3FFFF, len := 2 }
     let s := atCore (th []) fun c => { copyCore c with copies := [j] }
     (s.core 0).copies = [j] ∧ ((s.core 0).copies.map (·.id)).Nodup ∧ (∀ p, (s.die p).gated = false) ∧
       ({ j with base := 1 }.base + j.data.length < 1 + min 9 (j.len * j.rows - 1)) ∧ ∀ p a, ¬ CopyFrom s 0 j 1 p a) ∧
    (let d : CopyDest := ⟨0, 3, false, true⟩
     let e : CopyDest := ⟨1, 31, false, false⟩
     let j := { job with started := true, dests := [d, e] }
     let s := atCore (th []) fun c => { copyCore c with copies := [j] }
     (s.core 0).copies = [j] ∧ e.landed < j.len * j.rows ∧ s.meet d.core j.meet = some (meetOf .bytes 0 0) ∧ s.meetWaiters d.core j.meet = []) := by
  refine ⟨⟨rfl, by decide, fun p => rfl, by decide, fun p a h => ?_⟩, rfl, by decide, by decide, by decide⟩
  have h2 : (a : Int) = (0x3FFFF : Nat) + 0 * (1 / 2 : Nat) + (1 % 2 : Nat) := h.2.1
  have h3 := h.2.2
  omega

/-- A LEAVE that completes the phase for a member that waits, one that does not, and one of a thread that is no member. -/
def leaver : Thread := { th [] with members := 2 ^ 3 + 2 ^ 4 }
def leaveState : State :=
  { atCore leaver (fun c => { c with meets := [(3, meetOf .count 2 1), (4, meetOf .reconv 3 1), (5, meetOf .count 1 0)] }) with
    threads := [(0, leaver), (1, { leaver with cx := 1, lane := 1, arrived := 2 ^ 3, run := .meet 3 0 })], frames := [(0, fr), (1, fr)] }

theorem witness_Meets_leave :
    Alone leaveState iss 0 leaver ∧ leaver.susp = none ∧ leaver.run = .ready ∧ leaveState.threads.keys.Nodup ∧ leaveState.coreResident 0 ∧
    (∀ m ∈ [3, 4], ∃ x, leaveState.meet 0 m = some x ∧ (x.mode = .count ∨ x.mode = .reconv) ∧ testBit leaver.members m = true ∧
      1 < x.members ∧ x.err = none ∧ testBit leaver.arrived m = false ∧ (x.arrivals = x.members - 1 ↔ m = 3)) ∧
    (leaveState.meet 0 5).isSome = true ∧ testBit leaver.members 5 = false := by
  refine ⟨⟨rfl, rfl, rfl⟩, rfl, rfl, by decide, ?_, ?_, by decide, by decide⟩
  · intro k t h _
    change (if 0 = k then some leaver else if 1 = k then some { leaver with cx := 1, lane := 1, arrived := 2 ^ 3, run := .meet 3 0 } else none) = some t at h
    split at h
    · cases h; rfl
    · split at h <;> cases h
      rfl
  · intro m h
    simp only [List.mem_cons, List.not_mem_nil, or_false] at h
    obtain rfl | rfl := h <;> exact ⟨_, rfl, by decide, by decide, by decide, rfl, by decide, by decide⟩

/-- The meet is in error while its operation is served (10 R254). -/
theorem witness_TileOperations_error :
    let s := (inQueue (th []) 0 [entry (.tile (tileRec 1)) none]).onCore 0 fun c =>
      { c with meets := [(7, { meetOf .sign 1 1 with err := some 0x42, due := true, entered := true })] }
    (s.cluster 0).nextTurn = some (0, entry (.tile (tileRec 1)) none) ∧ (entry (.tile (tileRec 1)) none).meet = 7 ∧
      ((s.meet 0 7).any fun x => x.err == some 0x42) = true ∧ s.threads.keys.Nodup := by decide

/-- The last block of a group, whose scales are the largest codes, counted by a meet in byte-count mode. -/
def lastBlock : CarveJob := { carving with next := 3, scales := [0x3FF, 0, 0x3FF] }
def carveState : State :=
  { paged (th []) with carver := [lastBlock], cores := [(0, { copyCore Core.reset with tlb := [⟨0x40000000, 0, 2 ^ 30, 3, 3, 0, 2 ^ 30⟩] })] }

theorem witness_CarverBlocks_group :
    lastBlock.next % 4 = 3 ∧ lastBlock.scales.length = 3 ∧ (∀ c ∈ lastBlock.scales, c < 2 ^ 10) ∧
    (let five := leBytes 5 (0x3FF + 2 ^ 20 * 0x3FF)
     five.length = 5 ∧ ∀ i < 4, leNat five / 2 ^ (10 * i) % 2 ^ 10 = (lastBlock.scales ++ [0]).getD i 0) ∧
    (∃ s1, carveState.engineWrite carveWho 0xC000 (leBytes 32 0) = (s1, .ok ())) ∧
    (∃ s2, carveState.carveWrite lastBlock 0xC000 (leBytes 32 0) = (s2, true)) ∧
    (carveState.meet 0 2 = some (meetOf .bytes 0 0) ∧ carveState.countsBytes 0 2 = true) ∧
    (0xFE0 % 4096 + 32 ≤ 4096 ∧ carveState.translated carveWho 0xFE0 ∧
      carveState.translate carveWho 0xFE0 32 .write = (carveState, .ok (tr_ 0xFE0 0xFE0 attrNormal 0)) ∧
      ∀ i < 32, carveState.frameAt (0xFE0 + i) = none) := by
  refine ⟨rfl, rfl, by decide, by decide, ⟨_, okIs (by decide +kernel)⟩, ⟨_, Prod.ext rfl (by decide +kernel)⟩, by decide, by decide, ?_,
    by decide +kernel, by decide⟩
  unfold State.translated
  decide

theorem errIs {ε α : Type} {p : State × Except ε α} {x : ε} (h : p.2 = .error x) : p = (p.1, .error x) := by
  obtain ⟨s, r⟩ := p
  cases h
  rfl

/-- Weights beyond the mapped pages. -/
theorem witness_CarverBlocks_fails :
    let s := { paged (th []) with carver := [{ carving with wsrc := 0x180000000 }], cores := [(0, copyCore Core.reset)] }
    ∃ s1 e, s.engineRead carveWho 0x180000000 1024 = (s1, .error e) ∧ s1.meet 0 2 = some (meetOf .bytes 0 0) ∧ s1.meetWaiters 0 2 = [] := by
  exact ⟨_, (0x0213, 0x180000000), errIs (by decide +kernel), by decide +kernel, by decide +kernel⟩

/-- Two threads close one bucket: thread 1 waits in its BCLOSE. -/
theorem witness_BucketInstructions_closers :
    let t := { th [] with cx := 1, run := .engine (.bclose 0 9) }
    let s := { rendering (th []) (view 64 48 []) (fun c => { c with bucket := some (opened []) }) with threads := [(0, th []), (1, t)] }
    Alone s iss 0 (th []) ∧ InRender s (th []) (view 64 48 []) ∧ s.threads.keys.Nodup ∧ s.threads.get 1 = some t ∧
      clusterOf (coreOf 1) = clusterOf (coreOf 0) ∧ t.launch = (th []).launch ∧ t.run = .engine (.bclose 0 9) ∧ t.susp = none ∧
      (opened []).complete = true := by
  exact ⟨⟨rfl, rfl, rfl⟩, ⟨rfl, rfl⟩, by decide, rfl, by decide, rfl, rfl, rfl, by decide⟩

/-- A node whose first child is a leaf of one triangle and whose second is the node itself, in boxes that the ray meets; the third's
box lies off the ray, and the fourth is empty. -/
def nodeBox (x y : Nat) : List Byte := leBytes 4 x ++ leBytes 4 x ++ leBytes 4 x ++ leBytes 4 y ++ leBytes 4 y ++ leBytes 4 y
def nodeRec : List Byte :=
  nodeBox 0xBF800000 0x3F800000 ++ nodeBox 0xFF800000 0x7F800000 ++ nodeBox 0x3F800000 0x40000000 ++ nodeBox 0 0 ++
    leBytes 8 (2 + 4 + 0x100000080) ++ leBytes 8 (1 + 0x100000000) ++ leBytes 8 (1 + 0x100000000) ++ leBytes 8 0
def treeState : State := { paged (th []) with mem := pages ++ listed 0x140000000 nodeRec ++ listed 0x140000080 triangle }

theorem witness_UnitBlocksAndRays_nodes :
    (∃ s1, treeState.readEntry 0 (th []) 0x100000000 128 = (s1, .ok nodeRec)) ∧ (∀ j < 4, childBad (childWord nodeRec j) = false) ∧
    (childWord nodeRec 0 % 4 = 2 ∧ childWord nodeRec 1 % 4 = 1 ∧ childWord nodeRec 3 % 4 = 0) ∧
    (∃ s1, treeState.readEntry 0 (th []) 0x100000080 (48 * 1) = (s1, .ok triangle)) ∧
    (∀ i < 1, leNat ((triangle.drop (48 * i + 40)).take 8) = 0) ∧
    (rayOf rayWords).isSome = true ∧ rayOf ([0x7FC00000] ++ rayWords.drop 1) = none ∧
    MeetsBox rayWords (wordsOf nodeRec 6) ∧ ¬ MeetsBox rayWords (wordsOf (nodeRec.drop 48) 6) := by
  refine ⟨⟨_, okIs (by decide +kernel)⟩, by decide, by decide, ⟨_, okIs (by decide +kernel)⟩, by decide, by decide, by decide, ?_, ?_⟩
  · have h0 : f32 0#32 = .fin false 0 (-149) := by decide
    have h1 : f32 1065353216#32 = .fin false 0x800000 (-23) := by decide
    have h2 : f32 3212836864#32 = .fin true 0x800000 (-23) := by decide
    have h3 : f32 2139095040#32 = .inf false := by decide
    have hw : wordsOf nodeRec 6 = [0xBF800000, 0xBF800000, 0xBF800000, 0x3F800000, 0x3F800000, 0x3F800000] := by decide
    refine ⟨0, ?_, ?_, fun c hc => ?_⟩
    · simp [rayWords, h0, Num.LeQ, Num.val]
    · simp [rayWords, h3, Num.GeQ]
    · rw [hw]
      interval_cases c <;> simp [rayWords, h0, h1, h2, Num.LeQ, Num.GeQ, Num.val]
  · rintro ⟨T, -, -, h⟩
    have h0 : f32 0#32 = .fin false 0 (-149) := by decide
    have h1 : f32 1065353216#32 = .fin false 0x800000 (-23) := by decide
    have hw : wordsOf (nodeRec.drop 48) 6 = [0x3F800000, 0x3F800000, 0x3F800000, 0x40000000, 0x40000000, 0x40000000] := by decide
    have hx := (h 0 (by decide)).1
    rw [hw] at hx
    simp [rayWords, h0, h1, Num.LeQ, Num.val] at hx
    norm_num at hx

/-- An unsealed entry, and the ray that misses everything because its bounds cross. -/
theorem witness_UnitBlocksAndRays_fault :
    let t := th addrs
    let s := paged t
    Alone s iss 0 t ∧ ∃ s1 ms, State.meetNode 0 t (rayOf (List.replicate 8 0)) 32 (s.landStores 0) 0x1000 none = (s1, ms) ∧
      traceResult (rayOf (List.replicate 8 0)) false ms = .error (0x0060, 0x1000) := by
  exact ⟨⟨rfl, rfl, rfl⟩, _, _, rfl, by decide +kernel⟩

/-- A vertex record at a point that does not move, and a grid of one micropolygon between the four points. -/
def vertexRec (x y : Nat) : List Byte :=
  leBytes 4 x ++ leBytes 4 y ++ leBytes 4 0x3F800000 ++ leBytes 4 x ++ leBytes 4 y ++ leBytes 4 0x3F800000 ++ leBytes 26 0 ++
    leBytes 2 0x3C00 ++ leBytes 12 0
def squareGrid : RasterGrid := ⟨1, 1, 5, [0, 0, 0, 0], vertexRec 0 0 ++ vertexRec 0x40000000 0 ++ vertexRec 0 0x40000000 ++ vertexRec 0x40000000 0x40000000⟩

/-- An image of one pixel whose deck is one sample at its centre; slots of two visible points at 0x2000. -/
def onePixel (points : Nat) : State :=
  let o := opened [patch]
  { dicing o (camera 0x3F800000) 1 [] with renders := [(7, view 1 1 [])] }.onCluster 0 fun c =>
    { c with deck := [[0x8000, 0x8000, 0, 0, 0]], rast := ⟨0x2000, points⟩ }

set_option maxRecDepth 10000 in
theorem witness_Grids_records :
    (gridParams 0 0x3F800000 16).length = 16 + 1 ∧ (2 ^ 1 ≤ 3 ∧ 3 < 2 ^ (1 + 1)) ∧ (∀ x ∈ [0xFFFF, 0, 0x8000, 0, 0xFFFF], x < 2 ^ 16) ∧
    64 * ((squareGrid.nu + 1) * (squareGrid.nv + 1)) ≤ squareGrid.bytes.length ∧ 11 < (view 64 48 []).total ∧
    ((∀ q ∈ [List.replicate 16 (0 : Byte)], q.length = 16 ∧ (pointZ q).finite = true) ∧ 0 < 1) := by
  refine ⟨by decide, by decide, by decide, by decide, by decide, ?_, by decide⟩
  intro q h
  rw [List.mem_singleton.mp h]
  decide

set_option maxRecDepth 10000 in
theorem witness_Grids_sampled :
    let s := onePixel 2
    let o := opened [patch]
    let c := s.cluster 0
    (view 1 1 []).tested o.bucket c.deck.length squareGrid.bound = [(0, 0, 0)] ∧ squareGrid.sampleHits c 0 0 0 ≠ [] ∧
    ({ squareGrid with bytes := List.replicate 256 0 } : RasterGrid).sampleHits c 0 0 0 = [] ∧
    ∃ s3 s4, s.engineRead (o.who s 0) (slotAt (view 1 1 []) c 0 0 0 0) (16 * 2) = (s3, .ok (List.replicate 32 0)) ∧
      s3.engineWrite (o.who s 0) (slotAt (view 1 1 []) c 0 0 0 0) (slotsAfter 2 (List.replicate 32 0) (squareGrid.sampleHits c 0 0 0)) =
        (s4, .ok ()) := by
  exact ⟨by decide +kernel, by decide +kernel, by decide +kernel, _, _, okIs (by decide +kernel), okIs (by decide +kernel)⟩

/-- A suspended thread waits for 512 registers alone in its queue: exactly they are free in its lane, or 16 fewer. -/
theorem witness_BinsAndStarvation_readmit :
    ∀ n ∈ [512, 528], let t := { starving with susp := some .starved }
      let s := { one t with threads := [(0, t), (1, { th [] with cx := 1, alloc := n })], issue := none,
                            cores := [(0, { Core.reset with grows := [(0, [0])] })] }
      s.threads.get 0 = some t ∧ s.canReadmit 0 t = true ∧ t.run = .grow 512 ∧ s.growQueue 0 t = [0] ∧
        (512 ≤ s.freeRegs (coreOf 0) t.part t.lane ↔ n = 512) := by
  intro n hn
  simp only [List.mem_cons, List.not_mem_nil, or_false] at hn
  obtain rfl | rfl := hn <;> exact ⟨rfl, by decide, rfl, by decide, by decide⟩

/-- Core 1 splits the range [6, 8) of a child whose parent's frame lies on its own die, or on die 1. -/
def splitting (p : FrameRef) : State :=
  { base with threads := [(5 + 2 ^ 20, { th [] with slot := some 4 })],
              frames := [(p, { fr with nextseq := 2 ^ 28 - 1 }), (5 + 2 ^ 20, { fr with owner := .child p 2 })],
              cores := [(1, { Core.reset with slots := [(4, { slotOf 6 with thread := 5 + 2 ^ 20 })] })], net := [.workRequest 1 0] }

theorem witness_Steals_split :
    ∀ p ∈ [3, 36 * 2 ^ 20], let s := splitting p
      s.oldestBin 1 = none ∧ (s.core 1).splitEn = true ∧ s.splitSlot 1 = some (4, { slotOf 6 with thread := 5 + 2 ^ 20 }) ∧
        (s.frames.get (5 + 2 ^ 20)).map Frame.owner = some (.child p 2) ∧ (s.frames.get p).map Frame.nextseq = some (2 ^ 28 - 1) ∧
        s.remoteEntry p (2 ^ 28 - 1) = false ∧ (dieOf 1 = dieOf (coreOf p) ↔ p = 3) := by
  intro p hp
  simp only [List.mem_cons, List.not_mem_nil, or_false] at hp
  obtain rfl | rfl := hp <;> exact ⟨by decide, rfl, by decide, by decide +kernel, by decide +kernel, by decide, by decide⟩

/-- A thief on another die acknowledges. -/
theorem witness_Steals_dies :
    let o := offering 1 36
    let s := { base with net := [.ack 1 9 36], cores := [(1, { Core.reset with bins := [(3, closedBin 1)], offers := [o] })] }
    (s.core 1).offers.find? (fun x => x.record.id == 9) = some o ∧ ¬ o.record.within ∧ (s.dist (dieOf 36)).lost = false ∧
      s.stored o.record.ctxid = false ∧ ∀ c, s.savedQueue c 36 = [] := by
  refine ⟨by decide, by unfold StealRec.within; decide, by decide, by decide, fun c => rfl⟩

/-- The last child's completion, from the parent's own die: to a parent that has ended, and to one that waits in AWAIT or in EXIT. -/
def lastChild (f : Frame) (t : Option Thread) : State :=
  { base with frames := [(0, f), (5, { fr with owner := .child 0 4 })], net := [.completion 0 4 faulted (.frame 5)],
              threads := t.elim [] fun t => [(0, t)] }

theorem next_only {s : State} {p o : Nat} {c : Completion} {x : Sender} (h : s.net = [.completion p o c x]) : NextCompletion s p o c x [] :=
  ⟨h, fun _ _ _ h => by cases h⟩

theorem witness_CompletionsAndLoss_last :
    (∀ w ∈ [Owner.child 9 2, .root, .grid 0 1], let f := { fr with live := 1, owner := w, ended := some faulted }
      let s := lastChild f none
      NextCompletion s 0 4 faulted (.frame 5) [] ∧ s.frames.get 0 = some f ∧ (s.dist (dieOf (coreOf 0))).lost = false ∧
        s.remoteEntry 0 4 = false ∧ f.live = 1 ∧ f.owner = w) ∧
    (∀ e ∈ [true, false], let f := { fr with live := 1, owner := .child 9 2 }
      let t := { th [] with run := .await e 4 }
      let s := lastChild f (some t)
      NextCompletion s 0 4 faulted (.frame 5) [] ∧ s.frames.get 0 = some f ∧ f.ended = none ∧ s.threads.get 0 = some t ∧ t.susp = none) ∧
    (let far := 36 * 2 ^ 20
     let s := { base with frames := [(0, parent), (far, { fr with owner := .child 0 4 })], net := [.completion 0 4 faulted (.frame far)] }
     NextCompletion s 0 4 faulted (.frame far) [] ∧ dieOf (coreOf far) ≠ dieOf (coreOf 0) ∧ s.remoteEntry 0 4 = false) ∧
    (let s := { base with launches := [(7, lnch)], net := [.rootCompletion 7 3 faulted (.frame 5), .rootCompletion 7 2 faulted (.frame 6)] }
     NextRoot s 7 3 faulted (.frame 5) [.rootCompletion 7 2 faulted (.frame 6)]) := by
  refine ⟨?_, ?_, ⟨next_only rfl, by decide, by decide⟩, rfl, fun n c y h => ?_⟩
  · intro w h
    exact ⟨next_only rfl, rfl, rfl, rfl, rfl, rfl⟩
  · intro e h
    exact ⟨next_only rfl, rfl, rfl, rfl, rfl⟩
  · cases h with
    | head => decide
    | tail _ h => cases h

/-- The frame of the thread that is saved lies beside the save area; and the record that is read holds no bad byte. -/
theorem witness_Contexts_areas :
    (let s := { one (th mixed) with issue := none, ctxs := [(0, { Ctx.reset with state := .saving, csa := 0x1000000, csalim := 2 ^ 16 })] }
     s.threads.keys.Nodup ∧ (∀ e ∈ s.threads, e.2.alloc % 16 = 0) ∧ fr.ctxid = 0 ∧ 0x1000000 + 2 ^ 28 ≤ s.frameAddr 0) ∧
    (let s := recorded { th [] with susp := some .saved } { Ctx.reset with state := .restoring }
     s.bad 0x100000 (recordSize (th []).alloc) = false) := by
  refine ⟨⟨by decide, by decide, rfl, by decide +kernel⟩, by decide +kernel⟩

/-- A core with an incoming edge, whose next increment starts a sweep of a line of the old generation. -/
theorem witness_Residency_edge :
    let s := coreIs 5 { Core.reset with edge := true, sinceSweep := 14, l1 := [(0x20, ⟨1, 0, [], 0, false, false, 0⟩)] }
    (∀ e ∈ s.cores, e.2.meets = []) ∧ (s.core 5).edge = true ∧ (s.core 5).sinceSweep = 14 ∧ (s.tick.core 5).gen = 1 ∧
      (s.tick.core 5).l1.get 0x20 = some ⟨1, 0, [], 0, true, false, 0⟩ := by decide +kernel

/-- A register that a bank and writes do not name, and one whose value came in a cycle before. -/
theorem witness_LocalAccesses_bank :
    MeetsAlone [srcA none 8 1 none] [(4, 1)] (fun s _ _ t _ => (∀ b ∈ t.bank, b.reg ≠ t.index 4) ∧
      (∀ w ∈ t.writes, w.reg ≠ t.index 4) ∧ s.cycle < s.cycle + lat none 2) :=
  aloneOne { th mixed with bank := [⟨5, blankReg, 0, blankReg⟩], writes := [⟨6, (0, .raw), 2, false, none⟩] } (by decide) (by decide)

theorem witness_Atomics_untranslated :
    MeetsAlone [ownSrc 18 2 (some tagsAddr), ownSrc 1 1 (some tagsInt)] [(4, 1)] (fun _ _ _ _ v => 2 ^ 57 ≤ argN v 0) ∧
    MeetsAlone [ownSrc 28 2 (some tagsAddr), ownSrc 1 1 (some tagsInt)] [(4, 1)] (fun s _ k t v => argN v 0 < 2 ^ 57 ∧ argN v 0 % (4 * 1) = 0 ∧
      ∃ s1, (s.landStores k).translate (t.who k) (argN v 0) (4 * 1) .atomic = (s1, .error 0x0214)) :=
  ⟨alonePaged (th addrs) (by decide) (by decide), alonePaged (th addrs) (by decide) ⟨by decide, by decide, translated (by decide)⟩⟩

/-- An address beyond 57 bits, one that no page holds, and one of a NORMAL page; and a SEAL in state trapped. -/
theorem witness_AppendAndSeal_refused :
    MeetsAlone [ownSrc 18 2 (some tagsAddr), ownSrc 1 1 none] [(4, 2)] (fun _ _ _ _ v => 2 ^ 57 ≤ argN v 0) ∧
    MeetsAlone [ownSrc 18 2 (some tagsAddr)] [(4, 1)] (fun _ _ _ t v => t.trapped = false ∧ 2 ^ 57 ≤ argN v 0) ∧
    MeetsAlone [ownSrc 24 2 (some tagsAddr)] [(4, 1)] (fun _ _ _ t _ => t.trapped = true) ∧
    MeetsAlone [ownSrc 28 2 (some tagsAddr), ownSrc 1 1 none] [(4, 2)] (fun s _ k t v => argN v 0 < 2 ^ 57 ∧
      ∃ s1, (s.landStores k).translate (t.who k) (argN v 0) 1 .append = (s1, .error 0x0214)) ∧
    MeetsAlone [ownSrc 16 2 (some tagsAddr), ownSrc 1 1 none] [(4, 2)] (fun s _ k t v => argN v 0 < 2 ^ 57 ∧
      ∃ s1 tr, (s.landStores k).translate (t.who k) (argN v 0) 1 .read = (s1, .ok tr) ∧ tr.attr ≠ attrAppend) ∧
    MeetsAlone [ownSrc 28 2 (some tagsAddr)] [(4, 1)] (fun s _ k t v => t.trapped = false ∧ argN v 0 < 2 ^ 57 ∧
      ∃ s1, (s.landStores k).translate (t.who k) (argN v 0) 1 .read = (s1, .error 0x0214)) ∧
    MeetsAlone [ownSrc 16 2 (some tagsAddr)] [(4, 1)] (fun s _ k t v => t.trapped = false ∧ argN v 0 < 2 ^ 57 ∧
      ∃ s1 tr, (s.landStores k).translate (t.who k) (argN v 0) 1 .read = (s1, .ok tr) ∧ tr.attr ≠ attrAppend ∧ tr.attr ≠ attrSealed) :=
  ⟨alonePaged (th addrs) (by decide) (by decide), alonePaged (th addrs) (by decide) (by decide),
    alonePaged { th addrs with trapped := true } (by decide) rfl, alonePaged (th addrs) (by decide) ⟨by decide, translated (by decide)⟩,
    alonePaged (th addrs) (by decide) ⟨by decide, answers (tr_ 0x1024 0x1024 attrNormal 0) (by decide +kernel) (by decide)⟩,
    alonePaged (th addrs) (by decide) ⟨rfl, by decide, translated (by decide)⟩,
    alonePaged (th addrs) (by decide) ⟨rfl, by decide, answers (tr_ 0x1024 0x1024 attrNormal 0) (by decide +kernel) (by decide)⟩⟩

/-- A page that is not mapped, and a line of L1 with a dirty byte. -/
theorem witness_PrefetchAndResults_unmapped :
    MeetsAlone [ownSrc 28 2 (some tagsAddr)] [] (fun s _ k t v => globAddr (argN v 0) (off8 (.short 0)) < 2 ^ 57 ∧
      ∃ s1, s.translate (t.who k) (globAddr (argN v 0) (off8 (.short 0))) 1 .prefetch = (s1, .error 0x0214)) ∧
    (let s := coreIs 0 { Core.reset with l1 := [(0x20, ⟨1, 1, [(0, 9)], 0, false, false, 0⟩)] }
     ∃ l, (s.core 0).l1.get (0x1000 / 128) = some l ∧ l.dirty.getLsbD (0x1000 % 128) = true ∧ l.stale (s.core 0).gen = false) :=
  ⟨alonePaged (th addrs) (by decide) ⟨by decide, translated (by decide)⟩, _, rfl, by decide, by decide⟩

/-- A record of zeros, and one that counts at no meet in byte-count mode. -/
theorem witness_CopyCaptures_refused :
    (MeetsAlone [ownSrc 4 1 (some tagsAddr)] [] (fun s _ k t v =>
       ((s.core (coreOf k)).copies.filter fun j => !j.started).length < 16 ∧ t.trapped = false ∧ (argW v 0).toNat < 0x40000 ∧
       (argW v 0).toNat % 64 = 0 ∧ (s.outgoing k).placeBad (.spad (coreOf k)) (argW v 0).toNat 64 = false ∧
       CopyRefused (s.outgoing k) k t (readBytes ((s.outgoing k).core (coreOf k)).spad (argW v 0).toNat 64)) ∧
     CopyRefused (atCore (th recs) fun c => c) 0 (th recs) copyRec) ∧
    ¬ CopyRefused (atCore (th recs) copyCore) 0 (th recs) copyRec := by
  refine ⟨⟨aloneCore (th recs) (fun c => c) (by decide) ⟨by decide, rfl, by decide, by decide, by decide, ?_⟩, ?_⟩, ?_⟩
  · unfold CopyRefused; decide +kernel
  · unfold CopyRefused; decide +kernel
  · unfold CopyRefused; decide +kernel

/-- A failed source of a copy with two destinations. -/
theorem witness_CopyRuns_failedTwice :
    let j := { job with started := true, failed := true, dests := [⟨0, 0, false, false⟩, ⟨1, 0, false, false⟩] }
    let s := atCore (th []) fun c => { copyCore c with copies := [j] }
    (s.core 0).copies = [j] ∧ j.page = none ∧ (j.dests.map (·.core)).Nodup ∧ (∀ d ∈ j.dests, s.meetWaiters d.core j.meet = []) ∧
      s.meet 0 j.meet = some (meetOf .bytes 0 0) ∧ s.meet 1 j.meet = none := by
  refine ⟨rfl, rfl, by decide, by decide, by decide, by decide⟩

/-- A meet of two members that signs for queue 0. -/
def signing (due : Bool) (arrivals : Nat) : Meet :=
  { meetOf .sign 2 arrivals with desc := leBytes 4 0 ++ leBytes 60 0, due := due }

theorem witness_Meets_sign :
    (let t := { th [] with members := 2 ^ 7 + 2 ^ 8 + 2 ^ 9 }
     let f := fun (c : Core) => { c with meets := [(7, meetOf .sign 1 0), (8, signing false 1), (9, signing true 0)] }
     MeetsAlone [] [] (fun s _ k u _ => u.susp = none ∧ testBit u.members 7 = true ∧ ∃ x, s.meet (coreOf k) 7 = some x ∧ x.mode = .sign ∧
       x.desc = []) ∧
     ∀ m ∈ [8, 9], ∃ x, (atCore t f).meet 0 m = some x ∧ x.mode = .sign ∧ testBit t.members m = true ∧ x.entered = false ∧ x.desc ≠ [] ∧
       x.err = none ∧ (x.due = true ∨ 0 < x.members - 1 ∧ x.arrivals = x.members - 1) ∧
       (atCore t f).queueRoom 0 (tileDesc x.desc).queue = true) ∧
    (let s := (atCore (th []) fun c => { c with meets := [(8, signing false 1)] }).onCluster 0 fun c =>
       { c with queues := [((tileDesc (signing false 1).desc).queue, List.replicate 16 (entry (.tile (tileRec 1)) none))] }
     s.queueRoom 0 (tileDesc (signing false 1).desc).queue = false) := by
  refine ⟨⟨aloneCore joined meetCore (by decide) ⟨rfl, by decide, _, rfl, rfl, rfl⟩, ?_⟩, by decide⟩
  intro m hm
  simp only [List.mem_cons, List.not_mem_nil, or_false] at hm
  obtain rfl | rfl := hm <;> exact ⟨_, rfl, rfl, by decide, rfl, by decide, rfl, by decide, by decide⟩

theorem witness_Meets_refused :
    MeetsAlone [] [] (fun s _ k t _ => ∃ x, s.meet (coreOf k) 3 = some x ∧ x.mode ≠ .bytes ∧ testBit t.members 3 = true) ∧
    MeetsAlone [] [] (fun s _ k t _ => s.meet (coreOf k) 31 = none ∧ t.trapped = false) ∧
    MeetsAlone [] [(127, 1)] (fun s _ k t _ => s.meet (coreOf k) 31 = none ∧ t.trapped = false) ∧
    MeetsAlone [ownSrc 4 1 (some tagsInt)] [] (fun s _ k t _ => s.meet (coreOf k) 31 = none ∧ t.trapped = false) ∧
    MeetsAlone [] [] (fun s _ k t _ => t.trapped = false ∧ ∃ x, s.meet (coreOf k) 5 = some x ∧ x.mode = .bytes) ∧
    MeetsAlone [] [] (fun s _ k t _ => t.trapped = false ∧ ∃ x, s.meet (coreOf k) 6 = some x ∧ x.mode ≠ .bytes ∧ testBit t.members 6 = false ∧
      2048 ≤ x.members) ∧
    MeetsAlone [ownSrc 4 1 (some tagsInt)] [] (fun s _ k t _ => t.trapped = false ∧ ∃ x, s.meet (coreOf k) 3 = some x ∧ x.mode ≠ .bytes) ∧
    MeetsAlone [] [(4, 1)] (fun s _ k t _ => t.trapped = false ∧ ∃ x, s.meet (coreOf k) 7 = some x ∧ x.mode ≠ .count ∧ x.mode ≠ .reconv) ∧
    MeetsAlone [] [(4, 1)] (fun s _ k t _ => t.trapped = false ∧ ∃ x, s.meet (coreOf k) 6 = some x ∧ (x.mode = .count ∨ x.mode = .reconv) ∧
      testBit t.members 6 = false) ∧
    MeetsAlone [] [(4, 1)] (fun s _ k t _ => t.trapped = false ∧ ∃ x, s.meet (coreOf k) 3 = some x ∧ (x.mode = .count ∨ x.mode = .reconv) ∧
      testBit t.members 3 = true ∧ testBit t.arrived 3 = true) ∧
    MeetsAlone [] [] (fun s _ k t _ => t.trapped = false ∧ ∃ x, s.meet (coreOf k) 3 = some x ∧ 0 < x.members) := by
  exact ⟨aloneCore joined meetCore (by decide) ⟨_, rfl, by decide, by decide⟩, aloneCore joined meetCore (by decide) (by decide),
    aloneCore joined meetCore (by decide) (by decide), aloneCore joined meetCore (by decide) (by decide),
    aloneCore joined meetCore (by decide) ⟨rfl, _, rfl, rfl⟩,
    aloneCore joined (fun c => { c with meets := [(6, meetOf .count 2048 0)] }) (by decide) ⟨rfl, _, rfl, by decide, by decide, by decide⟩,
    aloneCore joined meetCore (by decide) ⟨rfl, _, rfl, by decide⟩, aloneCore joined meetCore (by decide) ⟨rfl, _, rfl, by decide, by decide⟩,
    aloneCore joined meetCore (by decide) ⟨rfl, _, rfl, by decide, by decide⟩,
    aloneCore { joined with arrived := 2 ^ 3 } meetCore (by decide) ⟨rfl, _, rfl, by decide, by decide, by decide⟩,
    aloneCore joined meetCore (by decide) ⟨rfl, _, rfl, by decide⟩⟩

theorem witness_SpawnChildren_range :
    MeetsAlone [ownSrc 16 2 (some tagsAddr), ownSrc 24 2 (some tagsInt), ⟨26, 6, .own, none⟩] [] (fun _ _ _ t _ => t.trapped = true) ∧
    MeetsAlone [ownSrc 18 2 (some tagsAddr), ownSrc 24 2 (some tagsInt), ⟨26, 6, .own, none⟩] [] (fun _ _ _ t v => t.trapped = false ∧
      (argN v 0 % 32 ≠ 4 ∨ 2 ^ 57 ≤ argN v 0)) ∧
    (let s := framed (th entries) { fr with live := 0xFFFFFF }
     Alone s iss 0 (th entries) ∧ (∃ f, s.frames.get 0 = some f ∧ f.live = 0xFFFFFF)) ∧ fr.Fits :=
  ⟨aloneOne { th entries with trapped := true } (by decide) rfl, aloneOne (th entries) (by decide) (by decide),
    ⟨⟨rfl, rfl, rfl⟩, _, rfl, rfl⟩, by refine ⟨?_, ?_, ?_, ?_, ?_, ?_, ?_, ?_, ?_, ?_, ?_, ?_, ?_, ?_, ?_, ?_, ?_, ?_, fun p o h => by cases h⟩ <;> decide⟩

/-- A bin that is offered holds a child; a request of die 0 waits before one of die 2; and a core's only range is that of a thread
that is not killed. -/
theorem witness_Steals_order :
    (closedBin 1).children ≠ [] ∧
    (∀ a c n, Msg.distRequest 1 a c n ∈ [Msg.distRequest 1 0 0 4, .distRequest 1 3 120 3] → 3 < n ∨ 3 = n ∧ 2 ≤ a) ∧
    (∀ q w, ((splitting 3).core 1).slots.get 4 = some q → (splitting 3).threads.get q.thread = some w → w.dying = false) := by
  refine ⟨by decide, fun a c n h => ?_, fun q w hq hw => ?_⟩
  · simp only [List.mem_cons, List.not_mem_nil, or_false, Msg.distRequest.injEq] at h
    omega
  · cases hq
    cases hw
    rfl

/-- A meet that counts bytes has counted them, and one thread of its core waits at it. -/
theorem witness_Residency_counted :
    (let x : Meet := { meetOf .bytes 0 0 with expected := true }
     let s := { coreIs 5 { Core.reset with meets := [(2, x)] } with threads := [(5 * 2 ^ 20, { th [] with run := .meet 2 0 })] }
     (s.core 5).meets.get 2 = some x ∧ x.mode = .bytes ∧ x.expected = true ∧ x.count = 0 ∧ x.err = none ∧ coreOf (5 * 2 ^ 20) = 5 ∧
       (s.tick.core 5).gen = 1) ∧
    (let s := coreIs 5 { Core.reset with meets := [(2, meetOf .bytes 0 0)] }
     (s.core 5).edge = false ∧ (∀ e ∈ s.cores, e.1 = 5 → ∀ y ∈ e.2.meets, ¬ y.2.expected = true)) := by decide +kernel

theorem framesOf_resident (p : LeafPage) (h : p.res.isSome = true) : FramesOf [p] p.frames := by
  have hn : p.res ≠ none := fun e => by simp [e] at h
  refine ⟨[], List.nodup_nil, fun x => ?_, by simp [h]⟩
  simp [hn]

theorem framesOf_unmapped (p : LeafPage) (h : p.res = none) (h1 : p.frames = 1) : FramesOf [p] 1 := by
  refine ⟨[p.va / 4096], by simp, fun x => ?_, by simp [h]⟩
  simp only [List.mem_singleton, exists_eq_left, h, h1, true_and]
  omega

/-- A lease of one unmapped page, of a page too many, and one that waits already. -/
theorem witness_Residency_leases :
    (let l := leasing [(2 ^ 56, 0x1000)]
     let s := leaseState [(2 ^ 56, 0x1000)]
     s.leaseHead = some (7, l) ∧ l.waits = false ∧ FramesOf (s.leasePages l) 1 ∧ 1 ≤ s.pkg.leasecap ∧ ∃ p ∈ s.leasePages l, p.res = none) ∧
    (let l := leasing [(0x1000, 0x1000)]
     let s := { leaseState [(0x1000, 0x1000)] with pkg := { base.pkg with leasecap := 2 ^ 18 - 1 } }
     s.leaseHead = some (7, l) ∧ FramesOf (s.leasePages l) (2 ^ 18) ∧ s.pkg.leasecap < 2 ^ 18) ∧
    (let l := { leasing [(0x1000, 0x1000)] with waits := true }
     let s := { leaseState [(0x1000, 0x1000)] with launches := [(7, l)] }
     s.leaseHead = some (7, l) ∧ FramesOf (s.leasePages l) (2 ^ 18)) ∧
    (let q := { ring 0x3000 with last := some 0 }
     ({ base with queues := [(0, q)] } : State).queue 0 = q ∧ q.awaits (leasing []).order = true) := by
  have a : (leaseState [(2 ^ 56, 0x1000)]).leasePages (leasing [(2 ^ 56, 0x1000)]) =
      [⟨2 ^ 56, 5, 0x40000800, 0, 1, none⟩] := by decide +kernel
  have b : ({ leaseState [(0x1000, 0x1000)] with pkg := { base.pkg with leasecap := 2 ^ 18 - 1 } } : State).leasePages
      (leasing [(0x1000, 0x1000)]) = [⟨0, 3, 0x40002000, 3, 2 ^ 18, some (.resident 0)⟩] := by decide +kernel
  have c : ({ leaseState [(0x1000, 0x1000)] with launches := [(7, { leasing [(0x1000, 0x1000)] with waits := true })] } : State).leasePages
      { leasing [(0x1000, 0x1000)] with waits := true } = [⟨0, 3, 0x40002000, 3, 2 ^ 18, some (.resident 0)⟩] := by decide +kernel
  refine ⟨⟨by decide +kernel, rfl, ?_, by decide, ?_⟩, ⟨by decide +kernel, ?_, by decide⟩, ⟨by decide +kernel, ?_⟩, by decide⟩
  · rw [a]; exact framesOf_unmapped _ rfl rfl
  · rw [a]; exact ⟨_, List.mem_singleton.mpr rfl, rfl⟩
  · rw [b]; exact framesOf_resident ⟨0, 3, 0x40002000, 3, 2 ^ 18, some (.resident 0)⟩ rfl
  · rw [c]; exact framesOf_resident ⟨0, 3, 0x40002000, 3, 2 ^ 18, some (.resident 0)⟩ rfl

/-- The lease of the backed page finds no frame below the firmware region and nothing to release; another launch holds a pin. -/
def deepWaits : State :=
  { deepState backedLeaf with pkg := { base.pkg with fwbase := 0, leasecap := 2 ^ 20, backpages := 8 },
                              launches := [(7, leasing [(0, 0x1000)]), (8, { lnch with pins := [0x5000] })] }

theorem deepWaits_leaves : deepWaits.allLeaves = [] := by
  have a := (leaves_table (s := deepWaits) (l := 4) (t := 0x40000000) (u := 0x40001000) (va := 0) (by unfold Single; decide) rfl
    (by decide) (by decide) (by decide) (by decide)).1
  have b := (leaves_table (s := deepWaits) (l := 3) (t := 0x40001000) (u := 0x40002000) (va := 0) (by unfold Single; decide) rfl
    (by decide) (by decide) (by decide) (by decide)).1
  have c := (leaves_table (s := deepWaits) (l := 2) (t := 0x40002000) (u := 0x40003000) (va := 0) (by unfold Single; decide) rfl
    (by decide) (by decide) (by decide) (by decide)).1
  have d := (leaves_table (s := deepWaits) (l := 1) (t := 0x40003000) (u := 0x40004000) (va := 0) (by unfold Single; decide) rfl
    (by decide) (by decide) (by decide) (by decide)).1
  have e := (leaves_last (s := deepWaits) (t := 0x40004000) (va := 0) (e := backedLeaf) (by unfold Single; decide) (by decide) (by decide)).1
  have r : deepWaits.rooted = [(0, { Ctx.reset with root := 0x40000000, dbgrep := 0x50000000 })] := by decide
  simp only [State.allLeaves, r, List.flatMap_cons, List.flatMap_nil, List.append_nil, a, b, c, d, e]
  decide

theorem leaseNeed_frame {s : State} {id k : Nat} {l : Launch} {x : LeafPage} (h : s.leaseHead = some (id, l)) (hw : l.waits = false)
    (hp : s.leasePages l = [x]) (hx : x.res = some (.backed k)) (hc : ¬ s.pkg.leasecap < leaseFrames [x])
    (hb : s.beyondStore k (leafSize x.level / 4096) = false) :
    s.leaseNeed = some (s.frameNeed id (leafSize x.level) [x] (.read l.ctxid x.va)) := by
  simp [State.leaseNeed, h, hw, hp, hx, hc, hb]

theorem witness_Residency_waits :
    deepWaits.leaseHead = some (7, leasing [(0, 0x1000)]) ∧ deepWaits.launches.get 7 = some (leasing [(0, 0x1000)]) ∧
      deepWaits.leaseNeed = some .wait := by
  have h : deepWaits.leaseHead = some (7, leasing [(0, 0x1000)]) := by decide +kernel
  have p : deepWaits.leasePages (leasing [(0, 0x1000)]) = [⟨0, 1, 0x40004000, backedLeaf, 1, some (.backed 3)⟩] := by decide +kernel
  have f : deepWaits.frameNeed 7 (leafSize 1) [⟨0, 1, 0x40004000, backedLeaf, 1, some (.backed 3)⟩] (.read 0 0) = .wait := by
    have n : deepWaits.freePage (leafSize 1) = none := by
      rw [State.freePage, deepWaits_leaves]; decide +kernel
    have v : deepWaits.victim [⟨0, 1, 0x40004000, backedLeaf, 1, some (.backed 3)⟩] = none := by
      simp only [State.victim, deepWaits_leaves]; rfl
    rw [State.frameNeed, n, v]
    decide
  refine ⟨h, rfl, ?_⟩
  exact (leaseNeed_frame h rfl p rfl (by decide) (by decide +kernel)).trans (congrArg some f)

/-- A committed record waits at a save that finds no room; records with a reserved bit set, and with the reserved tag. -/
theorem witness_Contexts_small :
    (let x : Inbound := ⟨offerRec 1 0, false, true⟩
     let s := { one (th mixed) with
       issue := none, ctxs := [(0, { Ctx.reset with state := .saving, csa := 0x1000000 })], cores := [(0, { Core.reset with inbound := [x] })] }
     let b := { s with threads := s.threads.mapVals fun _ t => if t.ctxid == 0 && t.resident then t.settle else t }
     s.readyToSave 0 = true ∧ 4096 * (s.ctx 0).csalim < (b.saveLayout 0).size ∧ (s.ctx 0).kills = [] ∧ (s.core 0).inbound = [x] ∧
       x.committed = true ∧ x.record.ctxid = 0 ∧ (s.core 0).freeBin = some 0) ∧
    (let t := { th [] with susp := some .saved }
     let s := recorded t { Ctx.reset with state := .restoring }
     s.recordReserved 0x100000 t.alloc = false ∧ s.recordTags 0x100000 t.alloc = false ∧ s.savedThreads 0 = [(0, t)] ∧
       ({ s with mem := writeNat s.mem 0x100008 8 (2 ^ 37) } : State).recordReserved 0x100000 t.alloc = true ∧
       ({ s with mem := writeNat s.mem 0x100008 8 (2 ^ 37) } : State).canRestore 0 = true ∧
       ({ s with mem := writeNat s.mem (0x100000 + 192 + 4 * t.alloc) 1 15 } : State).recordTags 0x100000 t.alloc = true) := by
  refine ⟨by decide +kernel, by decide +kernel⟩

/-- Offsets of a doorbell page but its first, and beyond the last page, at any size; a slot of the store that no leaf names. -/
theorem witness_HostWindow_doorbells :
    (∀ off ∈ [0x4000004, 0x4000FFF, 0x403FFFC, 0x4040000, 0x4040001], 0x4000000 ≤ off ∧ (4 ≤ off % 0x1000 ∨ 0x4040000 ≤ off)) ∧
    ((3 : Nat) ≠ 4 ∧ 0x403F000 < 0x4040000 ∧ 0x403F000 % 0x1000 < 4) ∧ base.slotNamed 3 = false := by decide

/-- A chip that is not locked takes the master's edge within 1 us of its own: the same number, the next one, and one further. -/
theorem witness_DisplayEdges_locks :
    (let s := showing Head.reset { base.pkg with role := 1, ports := [1], milepost := 4 }
     s.pkg.role ≠ 0 ∧ s.pkg.locked = false ∧ 1 ∈ s.pkg.ports ∧ edgeGap (max 1 s.pkg.period) s.nextEdge s.nanos ≤ 1000 ∧ 4 ≤ s.pkg.milepost ∧
       5 = s.pkg.milepost + 1 ∧ s.pkg.milepost + 1 < 6) ∧
    (∀ e ∈ [some (some (0x200000, true)), some (some (0x200000, false)), some none, none],
      let s := showing (driving 2 0 e) base.pkg
      1 < s.fuses.heads ∧ (0 : Nat) % 2 = 0 ∧ (s.head 1).edge = e ∧ (s.head 1).late < 0xFFFF) := by decide

/-- A load of chip 1 in flight on port 0; mirrored packets for a queue that is not enabled, full, or has one waiting; and a die that
is about to be gated. -/
theorem witness_CausewayAndPower_waits :
    (let x : Load := ⟨3, [(4, (1, .raw))], none, some (0, 0x80000000)⟩
     let t := { th [] with loads := [x], pend := [(4, 3)] }
     let s := { one t with pkg := { base.pkg with ports := [1, 1] }, issue := none }
     s.pkg.ports.getD 0 0 ≠ 0 ∧ s.issue = none ∧ s.stores = [] ∧ s.threads.get 0 = some t ∧ (s.frames.get 0).isSome = true ∧ t.loads = [x] ∧
       x.via = some (0, 0x80000000) ∧ ∀ e ∈ s.threads, e.1 = 0) ∧
    (∀ m ∈ [({ base with pkg := { base.pkg with role := 2 } } : State), { base with pkg := { base.pkg with role := 2 }, queues := [(5, { ring 0x3000 with head := 1, tail := 2 })] },
        { base with pkg := { base.pkg with role := 2 }, queues := [(5, ring 0x3000)], mirrored := [(5, [])] }],
      m.pkg.role = 2 ∧ ((m.queue 5).enable = false ∨ (m.queue 5).head + 2 ^ (m.queue 5).size ≤ (m.queue 5).tail ∨ ∃ x ∈ m.mirrored, x.1 = 5)) ∧
    (let s := { base with mirrored := [(5, List.replicate 256 1)], queues := [(5, { ring 0x3000 with enable := false })] }
     (s.queue 5).enable = false ∧ ∀ i < 256, s.frameAt ((s.queue 5).base + i) = none) ∧
    (let s := { base with pkg := { base.pkg with role := 2 }, queues := [(5, { ring 0x3000 with size := 1 })], nextEdge := 10 }
     (s.queue 5).enable = true ∧ (s.queue 5).tail < (s.queue 5).head + 2 ^ (s.queue 5).size ∧ ∀ m ∈ s.mirrored, m.1 ≠ 5) ∧
    (∀ n ∈ [1199, 1200], let s := { base with dies := [(2, { Die.reset with autogate := true, idleUs := 1 })], cycle := n }
     (s.die (s.physDie 2)).gated = false ∧ ((s.die (s.physDie 2)).idleSince + 1200 * (s.die (s.physDie 2)).idleUs ≤ s.cycle ↔ n = 1200)) := by
  refine ⟨by decide, by decide, by decide +kernel, by decide, by decide⟩

/-- An access of another chip is held back until every port has issued and nothing is due; a listing stands since an earlier cycle. -/
theorem witness_StepRunsDecoded_remote :
    (let i : Instr := .remoteAccess 1 (.read 0x1000 4)
     let s := { base with inputs := [i], nextEdge := 10 }
     s.NoInput ∧ s.nextPort = none ∧ s.dueListing = none ∧ ({ s with port := 1152 } : State).dueEvent = none) ∧
    (let s := { base with net := [.listPatch 2 7 2 patch [6] 0 4 9], nextEdge := 10 }
     s.NoInput ∧ s.port < 1152 ∧ s.dueListing.isSome = true) ∧
    (∀ c a, Instr.takeoverInput ≠ .remoteAccess c a) := by
  refine ⟨⟨Or.inr ⟨_, _, _, rfl⟩, by decide, by decide, by decide⟩, ⟨Or.inl rfl, by decide, by decide⟩, fun c a h => by cases h⟩

end Sys2Proof.Tests
end

section
/-! The selection of an issue group (01 R22 to R24): the scan bestOf, the orders that it is given, and what nextPort, choosePc and
groupAt answer. -/

namespace Sys2Proof.Machine

/-! ## The scan: what bestOf answers for a strict weak order. -/

/-- A test of preference whose ties are an equivalence: the orders that selection scans with. -/
structure StrictWeak {α : Type} (better : α → α → Bool) : Prop where
  asymm : ∀ x y, better x y = true → better y x = false
  ties_trans : ∀ x y z, better x y = false → better y z = false → better x z = false

section bestOf
variable {α : Type} {better : α → α → Bool}

theorem StrictWeak.irrefl (hb : StrictWeak better) (x : α) : better x x = false := by
  by_contra h
  have hx : better x x = true := by simpa using h
  exact h (hb.asymm x x hx)

@[simp] theorem bestOf_nil : bestOf better [] = none := rfl

/-- The last element scanned meets the best of the earlier ones. -/
theorem bestOf_concat (l : List α) (x : α) :
    bestOf better (l ++ [x]) = some ((bestOf better l).elim x fun y => if better x y then x else y) := by
  simp only [bestOf, List.foldl_append, List.foldl_cons, List.foldl_nil]
  generalize List.foldl _ none l = best
  cases best with
  | none => rfl
  | some y => exact (apply_ite some _ _ _).symm

theorem bestOf_eq_none {l : List α} : bestOf better l = none ↔ l = [] := by
  cases l using List.reverseRecOn with
  | nil => simp
  | append_singleton l x => simp [bestOf_concat]

theorem exists_bestOf {l : List α} (hl : l ≠ []) : ∃ m, bestOf better l = some m :=
  Option.ne_none_iff_exists'.mp fun h => hl (bestOf_eq_none.mp h)

/-- The scan answers an element of the list to which none of the list is preferred. -/
theorem bestOf_spec (hb : StrictWeak better) {l : List α} {m : α} (h : bestOf better l = some m) :
    m ∈ l ∧ ∀ z ∈ l, better z m = false := by
  induction l using List.reverseRecOn generalizing m with
  | nil => cases h
  | append_singleton l x ih =>
    rw [bestOf_concat] at h
    cases hl : bestOf better l with
    | none =>
      obtain rfl : x = m := by simpa [hl] using h
      simp [bestOf_eq_none.mp hl, hb.irrefl]
    | some y =>
      obtain ⟨hy, hmax⟩ := ih hl
      have hm : (if better x y then x else y) = m := by simpa [hl] using h
      by_cases hxy : better x y = true
      · obtain rfl : x = m := by simpa [hxy] using hm
        have hpast : ∀ z ∈ l, better z x = false := fun z hz => hb.ties_trans z y x (hmax z hz) (hb.asymm x y hxy)
        simpa [or_imp, forall_and, hb.irrefl] using hpast
      · obtain rfl : y = m := by simpa [hxy] using hm
        simpa [or_imp, forall_and, hy, hxy] using hmax

end bestOf

/-! ## The ports (01 R22). -/

theorem strictWeak_lt : StrictWeak fun a b : Nat => decide (a < b) where
  asymm _ _ h := by simp at h ⊢; omega
  ties_trans _ _ _ h h' := by simp at h h' ⊢; omega

theorem mem_waitingPorts {s : State} {x : FrameRef × Thread} :
    x ∈ s.waitingPorts ↔ x ∈ s.threads ∧ s.candidate x.1 x.2 = true ∧ s.port ≤ portOf x.1 x.2 := by
  simp [State.waitingPorts]

theorem nextPort_eq_some {s : State} {p : Nat} {l : List (FrameRef × Thread)} :
    s.nextPort = some (p, l) ↔ bestOf (fun a b => decide (a < b)) (s.waitingPorts.map fun x => portOf x.1 x.2) = some p ∧
      l = s.waitingPorts.filter fun x => portOf x.1 x.2 == p := by
  simp only [State.nextPort, Option.map_eq_some_iff, Prod.mk.injEq]
  constructor
  · rintro ⟨q, hq, rfl, rfl⟩
    exact ⟨hq, rfl⟩
  · rintro ⟨hp, rfl⟩
    exact ⟨p, hp, rfl, rfl⟩

/-- The port that chooses is the lowest one with a candidate, and it has all its candidates. -/
theorem nextPort_spec {s : State} {p : Nat} {l : List (FrameRef × Thread)} (h : s.nextPort = some (p, l)) :
    (∀ x, x ∈ l ↔ x ∈ s.waitingPorts ∧ portOf x.1 x.2 = p) ∧ (∃ x ∈ s.waitingPorts, portOf x.1 x.2 = p) ∧
      ∀ x ∈ s.waitingPorts, p ≤ portOf x.1 x.2 := by
  obtain ⟨hbest, rfl⟩ := nextPort_eq_some.mp h
  obtain ⟨hmem, hleast⟩ := bestOf_spec strictWeak_lt hbest
  refine ⟨fun x => by simp, List.mem_map.mp hmem, fun x hx => ?_⟩
  simpa using hleast _ (List.mem_map_of_mem hx)

/-! ## The orders of threads and of program counters (01 R23). -/

theorem olderThread_eq_false {x y : FrameRef × Thread} :
    olderThread y x = false ↔ y.2.wait ≤ x.2.wait ∧
      (y.2.wait = x.2.wait → x.2.lane ≤ y.2.lane ∧ (y.2.lane = x.2.lane → x.2.cx ≤ y.2.cx)) := by
  simp only [olderThread, Bool.or_eq_false_iff, Bool.and_eq_false_imp, decide_eq_false_iff_not, beq_iff_eq, not_lt]

theorem olderThread_asymm (x y : FrameRef × Thread) (h : olderThread x y = true) : olderThread y x = false := by
  simp only [olderThread, Bool.or_eq_true, Bool.and_eq_true, decide_eq_true_eq, beq_iff_eq] at h
  rw [olderThread_eq_false]
  omega

theorem strictWeak_olderThread : StrictWeak olderThread where
  asymm := olderThread_asymm
  ties_trans x y z h h' := by
    rw [olderThread_eq_false] at h h' ⊢
    omega

/-- A program counter with the number of its threads and their longest wait: what steps 2 to 4 of 01 R23 compare. -/
def pcScore (l : List (FrameRef × Thread)) (p : Nat × Nat) : (Nat × Nat) × Nat × Nat :=
  (p, (atPc l p).length, longestWait (atPc l p))

/-- Steps 2 to 4 of 01 R23: more threads, then the longer wait, then the lower address. -/
def betterScore (x y : (Nat × Nat) × Nat × Nat) : Bool :=
  y.2.1 < x.2.1 || (x.2.1 == y.2.1 && (y.2.2 < x.2.2 || (x.2.2 == y.2.2 && x.1.1 < y.1.1)))

theorem betterScore_eq_false {x y : (Nat × Nat) × Nat × Nat} :
    betterScore y x = false ↔ y.2.1 ≤ x.2.1 ∧ (y.2.1 = x.2.1 → y.2.2 ≤ x.2.2 ∧ (y.2.2 = x.2.2 → x.1.1 ≤ y.1.1)) := by
  simp only [betterScore, Bool.or_eq_false_iff, Bool.and_eq_false_imp, decide_eq_false_iff_not, beq_iff_eq, not_lt]

theorem betterScore_asymm (x y : (Nat × Nat) × Nat × Nat) (h : betterScore x y = true) : betterScore y x = false := by
  simp only [betterScore, Bool.or_eq_true, Bool.and_eq_true, decide_eq_true_eq, beq_iff_eq] at h
  rw [betterScore_eq_false]
  omega

theorem strictWeak_betterScore : StrictWeak betterScore where
  asymm := betterScore_asymm
  ties_trans x y z h h' := by
    rw [betterScore_eq_false] at h h' ⊢
    omega

/-! ## The program counter that a port chooses (01 R23). -/

theorem mem_atPc {l : List (FrameRef × Thread)} {key : Nat × Nat} {x : FrameRef × Thread} :
    x ∈ atPc l key ↔ x ∈ l ∧ pcKey x = key := by
  simp [atPc, pcKey, Prod.ext_iff]

theorem atPc_eq_filter_pcKey (l : List (FrameRef × Thread)) (key : Nat × Nat) :
    (l.filter fun x => pcKey x == key) = atPc l key :=
  List.filter_congr fun x _ => by rw [Bool.eq_iff_iff]; simp [pcKey, Prod.ext_iff]

/-- Step 1 of 01 R23: with a thread that has waited 256 cycles, the longest-waiting one decides. -/
theorem choosePc_of_waited {l : List (FrameRef × Thread)} {x : FrameRef × Thread}
    (h : bestOf olderThread (l.filter fun x => 256 ≤ x.2.wait) = some x) : choosePc l = some (pcKey x) := by
  simp only [choosePc, h]

/-- Steps 2 to 4 of 01 R23: with no such thread, the scores of the program counters decide. -/
theorem choosePc_of_none_waited {l : List (FrameRef × Thread)} (h : ∀ x ∈ l, x.2.wait < 256) :
    choosePc l = (bestOf betterScore ((l.map pcKey).eraseDups.map (pcScore l))).map (·.1) := by
  have hnone : bestOf olderThread (l.filter fun x => 256 ≤ x.2.wait) = none :=
    bestOf_eq_none.mpr (List.filter_eq_nil_iff.mpr fun x hx => by simpa using h x hx)
  simp only [choosePc, hnone, atPc_eq_filter_pcKey]
  rfl

theorem exists_longest_of_waited {l : List (FrameRef × Thread)} (hw : ∃ x ∈ l, 256 ≤ x.2.wait) :
    ∃ x, bestOf olderThread (l.filter fun x => 256 ≤ x.2.wait) = some x := by
  obtain ⟨x, hx, hxw⟩ := hw
  exact exists_bestOf (List.ne_nil_of_mem (List.mem_filter.mpr ⟨hx, by simpa using hxw⟩))

theorem choosePc_eq_none {l : List (FrameRef × Thread)} : choosePc l = none ↔ l = [] := by
  constructor
  · intro h
    by_cases hw : ∃ x ∈ l, 256 ≤ x.2.wait
    · obtain ⟨x, hx⟩ := exists_longest_of_waited hw
      simp [choosePc_of_waited hx] at h
    · have hkeys : (l.map pcKey).eraseDups = [] := by
        simpa [choosePc_of_none_waited (l := l) (by simpa using hw), bestOf_eq_none] using h
      refine List.eq_nil_iff_forall_not_mem.mpr fun x hx => ?_
      have hkey : pcKey x ∈ (l.map pcKey).eraseDups := List.mem_eraseDups.mpr (List.mem_map_of_mem hx)
      simp [hkeys] at hkey
  · rintro rfl
    rfl

theorem choosePc_spec_of_waited {l : List (FrameRef × Thread)} {key : Nat × Nat} (h : choosePc l = some key)
    (hw : ∃ x ∈ l, 256 ≤ x.2.wait) :
    ∃ x ∈ l, pcKey x = key ∧ 256 ≤ x.2.wait ∧ ∀ y ∈ l, olderThread y x = false := by
  obtain ⟨x, hx⟩ := exists_longest_of_waited hw
  obtain ⟨hmem, holdest⟩ := bestOf_spec strictWeak_olderThread hx
  obtain ⟨hxl, hxw⟩ : x ∈ l ∧ 256 ≤ x.2.wait := by simpa using hmem
  obtain rfl : pcKey x = key := by simpa [choosePc_of_waited hx] using h
  refine ⟨x, hxl, rfl, hxw, fun y hy => ?_⟩
  by_cases hyw : 256 ≤ y.2.wait
  · exact holdest y (List.mem_filter.mpr ⟨hy, by simpa using hyw⟩)
  · rw [olderThread_eq_false]
    omega

theorem choosePc_spec_of_none_waited {l : List (FrameRef × Thread)} {key : Nat × Nat} (h : choosePc l = some key)
    (hw : ∀ x ∈ l, x.2.wait < 256) :
    (∃ x ∈ l, pcKey x = key) ∧ ∀ y ∈ l, betterScore (pcScore l (pcKey y)) (pcScore l key) = false := by
  rw [choosePc_of_none_waited hw] at h
  obtain ⟨z, hz, rfl⟩ := Option.map_eq_some_iff.mp h
  obtain ⟨hmem, hbest⟩ := bestOf_spec strictWeak_betterScore hz
  simp only [List.mem_map, List.mem_eraseDups] at hmem
  obtain ⟨_, ⟨x, hx, rfl⟩, rfl⟩ := hmem
  refine ⟨⟨x, hx, rfl⟩, fun y hy => hbest _ ?_⟩
  exact List.mem_map_of_mem (List.mem_eraseDups.mpr (List.mem_map_of_mem hy))

/-! ## The issue group (01 R24). -/

/-- The thread of a lane that issues at a program counter, if the lane has one there. -/
def laneMember (l : List (FrameRef × Thread)) (key : Nat × Nat) (lane : Nat) : Option (FrameRef × Thread) :=
  bestOf olderThread ((atPc l key).filter fun x => x.2.lane == lane)

/-- The issue group at a program counter, with its threads. -/
def groupThreads (l : List (FrameRef × Thread)) (key : Nat × Nat) : List (FrameRef × Thread) :=
  (List.range Config.lanes).filterMap (laneMember l key)

theorem groupAt_eq_map_groupThreads (l : List (FrameRef × Thread)) (key : Nat × Nat) :
    groupAt l key = (groupThreads l key).map Prod.fst := by
  simp only [groupAt, atPc_eq_filter_pcKey]
  rfl

theorem laneMember_spec {l : List (FrameRef × Thread)} {key : Nat × Nat} {lane : Nat} {x : FrameRef × Thread}
    (h : laneMember l key lane = some x) :
    x ∈ atPc l key ∧ x.2.lane = lane ∧ ∀ y ∈ atPc l key, y.2.lane = lane → olderThread y x = false := by
  obtain ⟨hmem, holdest⟩ := bestOf_spec strictWeak_olderThread h
  obtain ⟨hx, hlane⟩ : x ∈ atPc l key ∧ x.2.lane = lane := by simpa using hmem
  exact ⟨hx, hlane, fun y hy hyl => holdest y (List.mem_filter.mpr ⟨hy, by simpa using hyl⟩)⟩

theorem exists_laneMember {l : List (FrameRef × Thread)} {key : Nat × Nat} {y : FrameRef × Thread} (hy : y ∈ atPc l key) :
    ∃ x, laneMember l key y.2.lane = some x :=
  exists_bestOf (List.ne_nil_of_mem (List.mem_filter.mpr ⟨hy, by simp⟩))

theorem mem_groupThreads {l : List (FrameRef × Thread)} {key : Nat × Nat} {x : FrameRef × Thread} :
    x ∈ groupThreads l key ↔ x.2.lane < 32 ∧ laneMember l key x.2.lane = some x := by
  simp only [groupThreads, List.mem_filterMap, List.mem_range, Config.lanes]
  constructor
  · rintro ⟨lane, hlt, h⟩
    obtain ⟨-, rfl, -⟩ := laneMember_spec h
    exact ⟨hlt, h⟩
  · rintro ⟨hlt, h⟩
    exact ⟨_, hlt, h⟩

theorem groupThreads_pairwise_lane (l : List (FrameRef × Thread)) (key : Nat × Nat) :
    (groupThreads l key).Pairwise fun x y => x.2.lane < y.2.lane := by
  refine List.pairwise_lt_range.filterMap _ fun i j hij x hx y hy => ?_
  obtain ⟨-, rfl, -⟩ := laneMember_spec hx
  obtain ⟨-, rfl, -⟩ := laneMember_spec hy
  exact hij

/-! ## The statement. -/

/-- Settles O54: nextPort, choosePc and groupAt each scan with bestOf for a strict weak order, so each answers an element to which no
other is preferred. -/
theorem issueSelection : Obligations.IssueSelection := by
  refine ⟨fun s p l h => ?_, fun l key h => ⟨fun hw => ?_, fun hw => ?_⟩, fun l => choosePc_eq_none, fun l key => ?_⟩
  · obtain ⟨hmem, ⟨x, hx, hxp⟩, hleast⟩ := nextPort_spec h
    refine ⟨fun y hy => ?_, List.ne_nil_of_mem ((hmem x).mpr ⟨hx, hxp⟩), ?_, fun y hy hcand hport => ?_⟩
    · obtain ⟨hwait, hyp⟩ := (hmem y).mp hy
      obtain ⟨hthread, hcand, -⟩ := mem_waitingPorts.mp hwait
      exact ⟨hthread, hcand, hyp⟩
    · exact hxp ▸ (mem_waitingPorts.mp hx).2.2
    · have hwait := mem_waitingPorts.mpr ⟨hy, hcand, hport⟩
      exact ⟨hleast y hwait, fun hyp => (hmem y).mpr ⟨hwait, hyp⟩⟩
  · obtain ⟨x, hx, rfl, hxw, holdest⟩ := choosePc_spec_of_waited h hw
    exact ⟨x, hx, rfl, rfl, hxw, fun y hy => olderThread_eq_false.mp (holdest y hy)⟩
  · obtain ⟨⟨x, hx, hkey⟩, hbest⟩ := choosePc_spec_of_none_waited h hw
    exact ⟨List.ne_nil_of_mem (mem_atPc.mpr ⟨hx, hkey⟩), fun y hy => betterScore_eq_false.mp (hbest y hy)⟩
  · refine ⟨groupThreads l key, groupAt_eq_map_groupThreads l key, groupThreads_pairwise_lane l key, fun x hx => ?_, fun y hy hlane => ?_⟩
    · obtain ⟨hlane, hmember⟩ := mem_groupThreads.mp hx
      obtain ⟨hat, -, holdest⟩ := laneMember_spec hmember
      refine ⟨hat, hlane, fun y hy hyl => ?_⟩
      obtain ⟨hwait, htie⟩ := olderThread_eq_false.mp (holdest y hy hyl)
      exact ⟨hwait, fun heq => (htie heq).2 hyl⟩
    · obtain ⟨x, hx⟩ := exists_laneMember hy
      obtain ⟨-, hxl, -⟩ := laneMember_spec hx
      exact ⟨x, mem_groupThreads.mpr ⟨hxl ▸ hlane, hxl ▸ hx⟩, hxl⟩

end Sys2Proof.Machine
end

section
/-! The integer words of 07 R143 to R151 and the window of R161: what each operation on words gives, the rule for register instructions
whose result depends on the values read alone, and the statements on logic, bit fields, compare and move, and the window. -/

namespace Sys2Proof.Machine

/-! ## Logic, bit by bit (07 R143). -/

theorem bitwise_and (x y : Word) : Bitwise (fun p q => p && q) x y (x &&& y) := fun _ _ => BitVec.getLsbD_and

theorem bitwise_or (x y : Word) : Bitwise (fun p q => p || q) x y (x ||| y) := fun _ _ => BitVec.getLsbD_or

theorem bitwise_xor (x y : Word) : Bitwise (fun p q => p != q) x y (x ^^^ y) := fun _ _ => BitVec.getLsbD_xor

theorem bitwise_andn (x y : Word) : Bitwise (fun p q => p && !q) x y (x &&& ~~~y) := fun k hk => by simp [hk]

/-! ## Shifts by an unsigned amount (07 R144). -/

theorem shiftedLeft_shlWord (x : Word) (n : Nat) : ShiftedLeft x n (shlWord x n) := by
  unfold ShiftedLeft shlWord
  split
  · rw [BitVec.toNat_shiftLeft, Nat.shiftLeft_eq]
  · rfl

theorem shiftedRight_shrWord (x : Word) (n : Nat) : ShiftedRight x n (shrWord x n) := by
  unfold ShiftedRight shrWord
  split
  · rw [BitVec.toNat_ushiftRight, Nat.shiftRight_eq_div_pow]
  · rfl

theorem shiftedArith_shaWord (x : Word) (n : Nat) : ShiftedArith x n (shaWord x n) := by
  unfold ShiftedArith shaWord BitVec.sshiftRight
  rw [Int.shiftRight_eq_div_pow]
  norm_cast

/-- Bit k of the source stands at (k + n) mod 32: within the word where that is at least the amount n mod 32, else wrapped round. -/
theorem rotated_rotWord (x : Word) (n : Nat) : Rotated x n (rotWord x n) := by
  intro k hk
  rw [rotWord, BitVec.getLsbD_rotateLeft, Nat.mod_mod]
  by_cases hwrap : (k + n) % 32 < n % 32
  · rw [decide_eq_true hwrap, cond_true, show 32 - n % 32 + (k + n) % 32 = k by omega]
  · rw [decide_eq_false hwrap, cond_false, decide_eq_true (Nat.mod_lt _ (by decide)), Bool.true_and,
      show (k + n) % 32 - n % 32 = k by omega]

/-! ## Bit fields (07 R146). -/

/-- SignExt of 05 R120 is the signed value of the low n bits. -/
theorem signExt_eq_toInt (v n : Nat) (hn : 0 < n) : signExt v n = (BitVec.ofNat n v).toInt := by
  have hpow : 2 ^ n = 2 * 2 ^ (n - 1) := by rw [← Nat.pow_succ']; congr 1; omega
  have hlow : v % 2 ^ n < 2 ^ (n - 1) ↔ 2 * (v % 2 ^ n) < 2 ^ n := by omega
  rw [BitVec.toInt_eq_toNat_cond, BitVec.toNat_ofNat, signExt]
  simp only [hlow]
  norm_cast

/-- A bit field is the bits from POS, widened to the word with zeros or with their sign. -/
theorem bfxWord_eq (sx : Bool) (len pos : Nat) (x : Word) (hlen : 0 < len) :
    bfxWord sx len pos x = if sx then (x.extractLsb' pos len).signExtend 32 else (x.extractLsb' pos len).setWidth 32 := by
  have hfield : x.extractLsb' pos len = BitVec.ofNat len (x.toNat / 2 ^ pos % 2 ^ len) := by
    apply BitVec.eq_of_toNat_eq
    simp [Nat.shiftRight_eq_div_pow]
  unfold bfxWord
  dsimp only
  rw [signExt_eq_toInt _ _ hlen, ← hfield]
  split
  · rfl
  · apply BitVec.eq_of_toNat_eq
    simp [Nat.shiftRight_eq_div_pow]

theorem getLsbD_bfxWord (sx : Bool) (l pos : Nat) (x : Word) (k : Nat) (hk : k < 32) :
    (bfxWord sx (l + 1) pos x).getLsbD k = if k ≤ l then x.getLsbD (pos + k) else sx && x.getLsbD (pos + l) := by
  rw [bfxWord_eq _ _ _ _ l.succ_pos]
  have hbit : (x.extractLsb' pos (l + 1)).getLsbD k = (decide (k ≤ l) && x.getLsbD (pos + k)) := by
    rw [BitVec.getLsbD_extractLsb', decide_eq_decide.mpr Nat.lt_succ_iff]
  have hsign : (x.extractLsb' pos (l + 1)).msb = x.getLsbD (pos + l) := by
    simp [BitVec.msb_eq_getLsbD_last]
  cases sx with
  | false =>
    rw [if_neg Bool.false_ne_true, BitVec.getLsbD_setWidth, hbit]
    by_cases hin : k ≤ l <;> simp [hk, hin]
  | true =>
    rw [if_pos rfl, BitVec.getLsbD_signExtend, hbit, hsign]
    by_cases hin : k ≤ l <;> simp [hk, hin]

/-- The mask of LEN bits from POS. -/
theorem getLsbD_fieldMask (l pos k : Nat) (hk : k < 32) :
    ((BitVec.ofNat 32 (2 ^ (l + 1) - 1)) <<< pos : Word).getLsbD k = decide (pos ≤ k ∧ k ≤ pos + l) := by
  rw [BitVec.getLsbD_shiftLeft, BitVec.getLsbD_ofNat, Nat.testBit_two_pow_sub_one, Bool.eq_iff_iff]
  simp only [Bool.and_eq_true, Bool.not_eq_true', decide_eq_true_eq, decide_eq_false_iff_not]
  omega

theorem getLsbD_bfiWord (l pos : Nat) (d x : Word) (k : Nat) (hk : k < 32) :
    (bfiWord (l + 1) pos d x).getLsbD k = if pos ≤ k ∧ k ≤ pos + l then x.getLsbD (k - pos) else d.getLsbD k := by
  simp only [bfiWord, BitVec.getLsbD_or, BitVec.getLsbD_and, BitVec.getLsbD_not, getLsbD_fieldMask l pos k hk,
    BitVec.getLsbD_shiftLeft]
  by_cases hin : pos ≤ k ∧ k ≤ pos + l <;> simp [hin, hk]

/-! ## Population count, leading zeros and bit reversal (07 R147). -/

theorem countBits_eq_length_filter (x n : Nat) : countBits x n = ((List.range n).filter x.testBit).length := by
  induction n generalizing x with
  | zero => rfl
  | succ n ih =>
    have hshift : x.testBit ∘ Nat.succ = (x / 2).testBit := funext fun k => Nat.testBit_succ x k
    rw [countBits, ih, List.range_succ_eq_map, List.filter_cons, List.filter_map, hshift]
    rcases Nat.mod_two_eq_zero_or_one x with h | h
    · simp [Nat.testBit_zero, h]
    · simp [Nat.testBit_zero, h, Nat.add_comm]

theorem log2_toNat_lt {x : Word} (hx : x ≠ 0) : x.toNat.log2 < 32 := (Nat.log2_lt (BitVec.toNat_ne.mp hx)).mpr x.isLt

theorem clzWord_zero : clzWord 0 = 32 := rfl

theorem clzWord_of_ne {x : Word} (hx : x ≠ 0) : clzWord x = 31 - x.toNat.log2 := if_neg hx

theorem clzWord_le (x : Word) : clzWord x ≤ 32 := by
  unfold clzWord
  split <;> omega

theorem getLsbD_eq_false_of_clzWord {x : Word} {k : Nat} (h : 32 ≤ k + clzWord x) : x.getLsbD k = false := by
  by_cases hx : x = 0
  · simp [hx]
  · rw [clzWord_of_ne hx] at h
    have hlog := log2_toNat_lt hx
    refine Nat.testBit_lt_two_pow (Nat.lt_log2_self.trans_le (Nat.pow_le_pow_right (by decide) ?_))
    omega

theorem getLsbD_of_clzWord_lt {x : Word} (h : clzWord x < 32) : x.getLsbD (31 - clzWord x) = true := by
  have hx : x ≠ 0 := by
    rintro rfl
    exact absurd h (by rw [clzWord_zero]; decide)
  have hlog := log2_toNat_lt hx
  rw [clzWord_of_ne hx, show 31 - (31 - x.toNat.log2) = x.toNat.log2 by omega]
  exact Nat.testBit_log2 (BitVec.toNat_ne.mp hx)

theorem getLsbD_brevWord (x : Word) (k : Nat) (hk : k < 32) : (brevWord x).getLsbD (31 - k) = x.getLsbD k := by
  rw [brevWord, BitVec.getLsbD_reverse, BitVec.getMsbD_eq_getLsbD, show 32 - 1 - (31 - k) = k by omega,
    decide_eq_true (by omega), Bool.true_and]

/-! ## Conditions and constants (03 R70; 07 R148, R151). -/

theorem condHolds_iff (c : Cc) (x y : Word) : condHolds c x y = true ↔ CcHolds c x y := by
  cases c with
  | eq => exact beq_iff_eq
  | ne => exact bne_iff_ne
  | ltS | gtS => exact BitVec.slt_iff_toInt_lt
  | leS | geS => exact BitVec.sle_iff_toInt_le
  | ltN | gtN => exact BitVec.ult_iff_toNat_lt
  | leN | geN => exact BitVec.ule_iff_toNat_le

theorem isTrue_iff (w : Word) : isTrue w = true ↔ w ≠ 0 := bne_iff_ne

theorem immWord_eq_ofInt (im : Imm) : immWord im = BitVec.ofInt 32 (immInt im) := by
  cases im with
  | short i => rfl
  | long w => exact BitVec.ofInt_toInt.symm

/-! ## Register instructions with one result. -/

/-- A register instruction whose one result depends on the values read alone. -/
theorem Computes.ofValue {i : Instr} {srcs : List Src} {d : Nat} {latency : Option Nat}
    {P : List (List RegVal) → List RegVal → Prop} (value : List (List RegVal) → RegVal)
    (hexec : ∀ s, exec i s = runGroup (regOp srcs d 1 latency fun _ _ _ v => [value v]) s) (hres : ∀ v, P v [value v]) :
    Computes i srcs d 1 latency (Gives P) :=
  Computes.ofRegOp (fun _ _ _ v => [value v]) hexec (fun _ _ _ _ _ _ => rfl) fun _ _ _ _ v _ => hres v

/-- The two-source form of any tag, with result tag RAW. -/
theorem ComputesRaw2.ofWord {i : Instr} {px : Option Pats} {d a b : Reg} {P : Word → Word → Word → Prop} (f : Word → Word → Word)
    (hexec : ∀ s, exec i s = runGroup (raw2 px d a b fun x y => (f x y, .raw)) s) (hres : ∀ x y, P x y (f x y)) :
    ComputesRaw2 i px d a b P :=
  Computes.ofValue (fun v => (f (argW v 0) (argW v 1), .raw)) hexec fun _ => ⟨_, rfl, hres _ _⟩

/-- The one-source form of any tag, with result tag RAW. -/
theorem ComputesRaw1.ofWord {i : Instr} {px : Option Pats} {d a : Reg} {P : Word → Word → Prop} (f : Word → Word)
    (hexec : ∀ s, exec i s = runGroup (raw1 px d a fun x => (f x, .raw)) s) (hres : ∀ x, P x (f x)) :
    ComputesRaw1 i px d a P :=
  Computes.ofValue (fun v => (f (argW v 0), .raw)) hexec fun _ => ⟨_, rfl, hres _⟩

/-! ## The statements on registers. -/

/-- Settles O3: each form is raw2 or raw1 of a word operation that is the one named. -/
theorem logicAndShifts : Obligations.LogicAndShifts := fun _ _ _ _ n =>
  ⟨.ofWord (· &&& ·) (fun _ => rfl) bitwise_and, .ofWord (· ||| ·) (fun _ => rfl) bitwise_or,
    .ofWord (· ^^^ ·) (fun _ => rfl) bitwise_xor, .ofWord (fun x y => x &&& ~~~y) (fun _ => rfl) bitwise_andn,
    .ofWord (fun x y => shlWord x y.toNat) (fun _ => rfl) fun x y => shiftedLeft_shlWord x y.toNat,
    .ofWord (fun x y => shrWord x y.toNat) (fun _ => rfl) fun x y => shiftedRight_shrWord x y.toNat,
    .ofWord (fun x y => shaWord x y.toNat) (fun _ => rfl) fun x y => shiftedArith_shaWord x y.toNat,
    .ofWord (fun x y => rotWord x y.toNat) (fun _ => rfl) fun x y => rotated_rotWord x y.toNat,
    .ofWord (shlWord · n.val) (fun _ => rfl) fun x => shiftedLeft_shlWord x n.val,
    .ofWord (shrWord · n.val) (fun _ => rfl) fun x => shiftedRight_shrWord x n.val,
    .ofWord (shaWord · n.val) (fun _ => rfl) fun x => shiftedArith_shaWord x n.val,
    .ofWord (rotWord · n.val) (fun _ => rfl) fun x => rotated_rotWord x n.val⟩

/-- Settles O4, from the bits of each word operation. -/
theorem bitFields : Obligations.BitFields := fun px d a sx l p _ => by
  refine ⟨.ofWord (bfxWord sx (l.val + 1) p.val) (fun _ => rfl) fun x k hk => getLsbD_bfxWord sx l.val p.val x k hk,
    .ofValue (fun v => (bfiWord (l.val + 1) p.val (argW v 1) (argW v 0), .raw)) (fun _ => rfl)
      fun v => ⟨_, rfl, fun k hk => getLsbD_bfiWord l.val p.val (argW v 1) (argW v 0) k hk⟩,
    .ofValue (fun v => (BitVec.ofNat 32 (countBits (argW v 0).toNat 32), .n32)) (fun _ => rfl) fun v => ?popc,
    .ofValue (fun v => (BitVec.ofNat 32 (clzWord (argW v 0)), .n32)) (fun _ => rfl) fun v => ?clz,
    .ofWord brevWord (fun _ => rfl) getLsbD_brevWord⟩
  case popc =>
    rw [countBits_eq_length_filter]
    rfl
  case clz => exact ⟨_, clzWord_le _, rfl, fun _ _ h => getLsbD_eq_false_of_clzWord h, getLsbD_of_clzWord_lt⟩

/-- Settles O5: MOV copies its source's one register; the other forms give one value. -/
theorem compareSelectMove : Obligations.CompareSelectMove := fun px d a b c tag im => by
  refine ⟨.ofValue (fun v => flagVal (condHolds c (argW v 0) (argW v 1))) (fun _ => rfl) fun v => ?cmp,
    .ofValue (fun v => if isTrue (argW v 2) then arg v 0 else arg v 1) (fun _ => rfl) fun v => ?sel,
    .ofRegOp (fun _ _ _ v => [arg v 0]) (fun _ => rfl) (fun _ _ _ _ _ _ => rfl) fun s is k t v hv => ?mov,
    .ofValue (fun _ => (immWord im, tag)) (fun _ => rfl) fun _ => by rw [immWord_eq_ofInt],
    .ofValue (fun v => (argW v 0, tag)) (fun _ => rfl) fun _ => rfl⟩
  case cmp =>
    rw [← condHolds_iff]
    exact ⟨fun h => by simp [flagVal, h], fun h => by simp [flagVal, h]⟩
  case sel => simp only [isTrue_iff, ite_not]
  case mov =>
    obtain ⟨x, rfl, hx⟩ := hv.shape1
    obtain ⟨r, rfl⟩ := List.length_eq_one_iff.mp hx
    rfl

/-! ## Instructions that write no register (07 R159 to R161). -/

/-- An instruction that writes no register and goes on, with its thread changed elsewhere than in its registers. -/
theorem Does.ofThread {i : Instr} {srcs : List Src} {ready : State → Issue → FrameRef → Thread → List (List RegVal) → Prop}
    {thread : State → Issue → FrameRef → Thread → List (List RegVal) → Thread} {yields : Bool}
    (f : State → Issue → FrameRef → Thread → Except Stop (Thread × Go)) (hexec : ∀ s, exec i s = runGroup (threadOp f) s)
    (hf : ∀ s is k t v, ready s is k t v → Readable s is t srcs [(0, 0)] v →
      f s is k t = .ok (thread s is k t v, if yields then .yield else .next))
    (hlatest : ∀ s is k t v r, (thread s is k t v).latest r = t.latest r) :
    Does i { srcs := srcs, ready := ready, thread := thread, yields := yields } := by
  refine Does.of f (fun _ _ _ _ _ => []) (fun _ _ _ _ _ => if yields then .yield else .next) hexec
    (fun s is k t v _ => hf s is k t v) (fun s is k t v _ _ => ?_) (fun _ _ _ _ _ _ => rfl) (fun _ _ _ _ _ _ _ => rfl)
    fun s is k t v => ⟨hlatest s is k t v, fun h => absurd h (lt_irrefl 0)⟩
  cases yields <;> exact ⟨by decide, rfl, rfl⟩

/-- WIN within the allocation moves the window to the value that it reads (07 R161). -/
theorem Does.ofWinOp {i : Instr} {src : Fin 64 ⊕ Reg} {srcs : List Src}
    {ready : State → Issue → FrameRef → Thread → List (List RegVal) → Prop} (value : List (List RegVal) → Nat)
    (hexec : ∀ s, exec i s = runGroup (winOp src) s)
    (hvalue : ∀ s is t v, Readable s is t srcs [(0, 0)] v → windowValue s is t src = .ok (value v))
    (hready : ∀ s is k t v, ready s is k t v → value v % 16 = 0 ∧ value v < t.alloc) :
    Does i { srcs := srcs, ready := ready, thread := fun _ _ _ t v => { t with winbase := value v } } := by
  refine Does.ofThread _ hexec (fun s is k t v hr hv => ?_) fun _ _ _ _ _ _ => rfl
  obtain ⟨haligned, hwithin⟩ := hready s is k t v hr
  have hok : ¬ (value v % 16 ≠ 0 ∨ t.alloc ≤ value v) := by omega
  simp only [hvalue s is t v hv, hok, if_false, Bool.false_eq_true]

/-- Settles O7: each form is a threadOp that reads no register, or the window's one. -/
theorem yieldNopWindow : Obligations.YieldNopWindow := fun n a =>
  ⟨.ofThread (fun _ _ _ t => .ok (t, .next)) (fun _ => rfl) (fun _ _ _ _ _ _ _ => rfl) fun _ _ _ _ _ _ => rfl,
    .ofThread (fun _ _ _ t => .ok (t, .yield)) (fun _ => rfl) (fun _ _ _ _ _ _ _ => rfl) fun _ _ _ _ _ _ => rfl,
    .ofWinOp (src := .inl n) (fun _ => 16 * n.val) (fun _ => rfl) (fun _ _ _ _ _ => rfl)
      fun _ _ _ _ _ hr => ⟨Nat.mul_mod_right 16 n.val, hr⟩,
    .ofWinOp (src := .inr a) (fun v => (argW v 0).toNat) (fun _ => rfl)
      (fun s is t v hv => by simp only [windowValue, hv.operands_nil]) fun _ _ _ _ _ hr => hr⟩

end Sys2Proof.Machine
end

section
/-! FP32 minimum, maximum, comparison and class (08 R186 to R188): the order of numbers, what a minimum or a maximum of codes answers,
and the fields of an FP32 pattern. -/

namespace Sys2Proof.Machine

/-! ## The order of numbers: exactly one of less, same and greater holds of two that are not NaN. -/

@[simp] theorem Num.not_nan_less (x : Num) : ¬ Num.nan.Less x := by cases x <;> exact id

@[simp] theorem Num.not_less_nan (x : Num) : ¬ x.Less .nan := by cases x <;> exact id

@[simp] theorem Num.not_nan_same (x : Num) : ¬ Num.nan.Same x := by cases x <;> exact id

@[simp] theorem Num.not_same_nan (x : Num) : ¬ x.Same .nan := by cases x <;> exact id

theorem Num.same_iff (x y : Num) : x.Same y ↔ (x ≠ .nan ∧ y ≠ .nan) ∧ ¬ x.Less y ∧ ¬ y.Less x := by
  cases x with
  | nan => simp
  | inf a =>
    cases y with
    | nan => simp
    | inf b => cases a <;> cases b <;> simp [Num.Same, Num.Less]
    | fin b n f => cases a <;> simp [Num.Same, Num.Less]
  | fin a m e =>
    cases y with
    | nan => simp
    | inf b => cases b <;> simp [Num.Same, Num.Less]
    | fin b n f => simp only [Num.Same, Num.Less, ne_eq, reduceCtorEq, not_false_eq_true, and_self, true_and, not_lt,
        le_antisymm_iff, and_comm]

theorem Num.Same.symm {x y : Num} (h : x.Same y) : y.Same x := by
  obtain ⟨hnan, hless⟩ := (Num.same_iff x y).mp h
  exact (Num.same_iff y x).mpr ⟨hnan.symm, hless.symm⟩

theorem Num.same_refl {x : Num} (h : x ≠ .nan) : x.Same x := by
  cases x with
  | nan => exact absurd rfl h
  | inf s | fin s m e => rfl

/-- The test of the model, on mantissas at the smaller exponent, is the order of the values. -/
theorem Num.lt_iff (x y : Num) : x.lt y = true ↔ x.Less y := by
  cases x with
  | nan => simp [Num.lt]
  | inf a => cases y <;> simp [Num.lt, Num.Less]
  | fin a m e =>
    cases y with
    | nan => simp [Num.lt]
    | inf b => simp [Num.lt, Num.Less]
    | fin b n f =>
      have hunit : (0 : ℚ) < 2 ^ min e f := by positivity
      simp only [Num.lt, Num.Less, decide_eq_true_eq]
      rw [← Num.scaled_val a m e (min e f) (min_le_left _ _), ← Num.scaled_val b n f (min e f) (min_le_right _ _),
        mul_lt_mul_iff_left₀ hunit, Int.cast_lt]

theorem Num.eqv_iff (x y : Num) : x.eqv y = true ↔ x.Same y := by
  rw [Num.same_iff, ← Num.lt_iff, ← Num.lt_iff]
  simp [Num.eqv, and_assoc]

/-! ## Comparison (08 R187). -/

theorem fcondHolds_iff (c : FCc) (x y : Num) : fcondHolds c x y = true ↔ FccHolds c x y := by
  by_cases hnan : x = .nan ∨ y = .nan
  · rcases hnan with rfl | rfl <;> cases c <;> simp [fcondHolds, FccHolds]
  · obtain ⟨hx, hy⟩ := not_or.mp hnan
    cases c <;> simp [fcondHolds, FccHolds, hx, hy, Num.lt_iff, ← Num.eqv_iff]

/-- A condition's result is 1 where it holds and 0 elsewhere, with tag N32. -/
theorem flagVal_fcondHolds (c : FCc) (x y : Num) :
    ∃ r : Word, [flagVal (fcondHolds c x y)] = [(r, .n32)] ∧ (FccHolds c x y → r = 1) ∧ (¬ FccHolds c x y → r = 0) := by
  rw [← fcondHolds_iff]
  exact ⟨_, rfl, fun h => if_pos h, fun h => if_neg h⟩

/-! ## Minimum and maximum (08 R186). -/

theorem Num.before_iff (x y : Num) : x.before y = true ↔ x.Less y ∨ x.Same y ∧ x.neg = true ∧ y.neg = false := by
  simp [Num.before, Num.lt_iff, Num.eqv_iff, and_assoc]

theorem Num.atMost_refl {x : Num} (h : x ≠ .nan) : x.AtMost x := .inr ⟨Num.same_refl h, fun _ hneg => hneg⟩

theorem Num.atMost_of_before {x y : Num} (h : x.before y = true) : x.AtMost y := by
  rcases (Num.before_iff x y).mp h with hless | ⟨hsame, hneg, -⟩
  · exact .inl hless
  · exact .inr ⟨hsame, fun _ _ => hneg⟩

theorem Num.atMost_of_not_before {x y : Num} (hx : x ≠ .nan) (hy : y ≠ .nan) (h : y.before x ≠ true) : x.AtMost y := by
  rw [Ne, Num.before_iff, not_or] at h
  obtain ⟨hnless, hnsame⟩ := h
  by_cases hless : x.Less y
  · exact .inl hless
  · have hsame : x.Same y := (Num.same_iff x y).mpr ⟨⟨hx, hy⟩, hless, hnless⟩
    exact .inr ⟨hsame, fun _ hneg => by simpa using fun hpos => hnsame ⟨hsame.symm, hneg, hpos⟩⟩

/-- FMIN and FMAX by the numbers that they read. -/
theorem FloatFmt.minMax_eq (f : FloatFmt) (max ftz : Bool) (x y : Nat) : f.minMax max ftz x y =
    if f.reads ftz x = .nan then if f.reads ftz y = .nan then f.nan else f.flush ftz y
    else if f.reads ftz y = .nan then f.flush ftz x
    else if max then if (f.reads ftz x).before (f.reads ftz y) then f.flush ftz y else f.flush ftz x
    else if (f.reads ftz y).before (f.reads ftz x) then f.flush ftz y else f.flush ftz x := rfl

theorem FloatFmt.isMinMax_minMax (f : FloatFmt) (max ftz : Bool) (x y : Nat) : f.IsMinMax max ftz x y (f.minMax max ftz x y) := by
  refine ⟨fun hx hy => by simp [f.minMax_eq, hx, hy], fun hx hy => by simp [f.minMax_eq, hx, hy],
    fun hx hy => by simp [f.minMax_eq, hx, hy], fun hx hy => ?_⟩
  cases max with
  | false =>
    by_cases hb : (f.reads ftz y).before (f.reads ftz x) = true
    · simpa [f.minMax_eq, hx, hy, hb] using ⟨Num.atMost_of_before hb, Num.atMost_refl hy⟩
    · simpa [f.minMax_eq, hx, hy, hb] using ⟨Num.atMost_refl hx, Num.atMost_of_not_before hx hy hb⟩
  | true =>
    by_cases hb : (f.reads ftz x).before (f.reads ftz y) = true
    · simpa [f.minMax_eq, hx, hy, hb] using ⟨Num.atMost_of_before hb, Num.atMost_refl hy⟩
    · simpa [f.minMax_eq, hx, hy, hb] using ⟨Num.atMost_refl hx, Num.atMost_of_not_before hy hx hb⟩

theorem FloatFmt.flush_fp32_lt (ftz : Bool) {x : Nat} (hx : x < 2 ^ 32) : FloatFmt.fp32.flush ftz x < 2 ^ 32 := by
  unfold FloatFmt.flush
  split_ifs
  · decide
  · decide
  · exact hx

theorem FloatFmt.minMax_fp32_lt (max ftz : Bool) {x y : Nat} (hx : x < 2 ^ 32) (hy : y < 2 ^ 32) :
    FloatFmt.fp32.minMax max ftz x y < 2 ^ 32 := by
  have hx' := FloatFmt.flush_fp32_lt ftz hx
  have hy' := FloatFmt.flush_fp32_lt ftz hy
  rw [FloatFmt.minMax_eq]
  split_ifs
  · decide
  all_goals assumption

/-! ## The class of an FP32 pattern (08 R188). -/

/-- The model's bit of a number is the word's bit. -/
theorem getLsbD_eq_testBit (x : Word) (k : Nat) : x.getLsbD k = testBit x.toNat k := by
  rw [BitVec.getLsbD, Nat.testBit_eq_decide_div_mod_eq, testBit, beq_eq_decide]

theorem testBit_fraction (x : Word) : testBit (bitsOf x.toNat 22 0) 22 = x.getLsbD 22 := by
  have hdrop : bitsOf x.toNat 22 0 / 2 ^ 22 % 2 = x.toNat / 2 ^ 22 % 2 := by unfold bitsOf; omega
  rw [getLsbD_eq_testBit, testBit, testBit, hdrop]

/-- The number of an FP32 pattern by its fields: sign, exponent and fraction (03 R77). -/
theorem f32_eq (x : Word) : f32 x =
    if bitsOf x.toNat 30 23 = 255 then if bitsOf x.toNat 22 0 = 0 then .inf (x.getLsbD 31) else .nan
    else if bitsOf x.toNat 30 23 = 0 then .fin (x.getLsbD 31) (bitsOf x.toNat 22 0) (-149)
    else .fin (x.getLsbD 31) (2 ^ 23 + bitsOf x.toNat 22 0) (bitsOf x.toNat 30 23 - 150) := by
  have hsign : testBit x.toNat 31 = x.getLsbD 31 := (getLsbD_eq_testBit x 31).symm
  have hexp : x.toNat % 2 ^ 31 / 2 ^ 23 = bitsOf x.toNat 30 23 := by unfold bitsOf; omega
  have hfrac : x.toNat % 2 ^ 31 % 2 ^ 23 = bitsOf x.toNat 22 0 := by unfold bitsOf; omega
  have hbeyond : 0x7F7FFFFF < x.toNat % 2 ^ 31 ↔ bitsOf x.toNat 30 23 = 255 := by unfold bitsOf; omega
  simp only [f32, FloatFmt.decode, FloatFmt.fp32, Nat.reduceAdd, hsign, hexp, hfrac, hbeyond, true_and, sub_sub]
  norm_num

theorem subnormal_fp32_iff (x : Word) :
    FloatFmt.fp32.subnormal x.toNat = true ↔ bitsOf x.toNat 30 23 = 0 ∧ bitsOf x.toNat 22 0 ≠ 0 := by
  simp [FloatFmt.subnormal, FloatFmt.fp32, bitsOf]

theorem isClass_fclassBit (x : Word) : IsClass x (fclassBit x) := by
  unfold IsClass
  rw [f32_eq]
  by_cases hones : bitsOf x.toNat 30 23 = 255
  · by_cases hfrac : bitsOf x.toNat 22 0 = 0
    · simp [fclassBit, hones, hfrac]
    · simp [fclassBit, hones, hfrac, testBit_fraction]
  · by_cases hzero : bitsOf x.toNat 30 23 = 0
    · by_cases hfrac : bitsOf x.toNat 22 0 = 0
      · simp [fclassBit, hzero, hfrac]
      · simp [fclassBit, hzero, hfrac, subnormal_fp32_iff]
    · simp [fclassBit, hones, hzero, subnormal_fp32_iff]

/-! ## The statement. -/

/-- An FP32 instruction of two sources whose result is a code of 32 bits. -/
theorem ComputesF32.ofCode {i : Instr} {px : Option Pats} {d a b : Reg} {P : Nat → Nat → Nat → Prop} (code : Nat → Nat → Nat)
    (hexec : ∀ s, exec i s = runGroup (f32op2 px d a b code) s)
    (hlt : ∀ {x y}, x < 2 ^ 32 → y < 2 ^ 32 → code x y < 2 ^ 32) (hres : ∀ x y, P x y (code x y)) : ComputesF32 i px d a b P :=
  Computes.ofValue (fun v => (BitVec.ofNat 32 (code (argW v 0).toNat (argW v 1).toNat), .f32)) hexec fun v =>
    ⟨_, rfl, by
      rw [BitVec.toNat_ofNat, Nat.mod_eq_of_lt (hlt (argW v 0).isLt (argW v 1).isLt)]
      exact hres _ _⟩

/-- Settles O17: each form is a register instruction of one value, and that value is the one named. -/
theorem floatCompare : Obligations.FloatCompare := fun _ _ _ _ f c =>
  ⟨.ofCode (FloatFmt.fp32.minMax false f) (fun _ => rfl) (FloatFmt.minMax_fp32_lt false f) (FloatFmt.fp32.isMinMax_minMax false f),
    .ofCode (FloatFmt.fp32.minMax true f) (fun _ => rfl) (FloatFmt.minMax_fp32_lt true f) (FloatFmt.fp32.isMinMax_minMax true f),
    .ofValue (fun v => flagVal (fcondHolds c (flushed f (argW v 0)) (flushed f (argW v 1)))) (fun _ => rfl) fun _ =>
      flagVal_fcondHolds c _ _,
    .ofValue (fun v => (BitVec.ofNat 32 (2 ^ fclassBit (argW v 0)), .n32)) (fun _ => rfl) fun _ =>
      ⟨_, isClass_fclassBit _, rfl⟩⟩

end Sys2Proof.Machine
end
